-- ==== Sys2Proof/Word.lean ====
section
/-!
DEFINITION. The word types of Mirob 2: bytes, 64-bit scalar words, register numbers and the 1,024-lane masks.
-/
namespace Sys2Proof

/-- One byte of memory (R18: little-endian). -/
abbrev Byte := BitVec 8

/-- A 64-bit scalar value, address or control register. -/
abbrev Word := BitVec 64

/-- A scalar register number, 0 to 63 (R46). -/
abbrev Reg := BitVec 6

/-- The 32 data words of a mask register as one string: bit `32 i + j` is bit `j` of data word `i`, the lane with
`%lane = 32 i + j` (R27).  The summary word is derived and never stored. -/
abbrev Mask := BitVec 1024

end Sys2Proof
end

