-- ==== Sys2Proof/Config.lean ====
section
/-!
DEFINITION. What the SX4 fixes (R2, R3, R23), and the free values: constants with no body, of which no proof can see a
value.  A free value stands wherever the manual leaves a value or a choice open (notes/assumptions, rows 4 to 14).
-/
namespace Sys2Proof.Config

/-- Cores of the part (R2). -/
def cores : Nat := 128
/-- Clusters of the part, eight cores each (R2). -/
def clusters : Nat := 16
/-- Party slots of a quad (R23). -/
def slotsPerQuad : Nat := 16
/-- Bytes of a quad's bank of the lane-register store (R23). -/
def bankBytes : Nat := 262144
/-- Lanes resident on a core (R3, R23). -/
def lanesPerCore : Nat := 8192
/-- Groups resident on a core (R3, R23). -/
def groupsPerCore : Nat := 16
/-- Bytes of a core's local scratchpad (R2). -/
def scratchBytes : Nat := 524288
/-- Entries of a core's Siphon queue (R212). -/
def siphonEntries : Nat := 64
/-- Task records of a core's Gallery (R257). -/
def galleryEntries : Nat := 256
/-- Handles of a cluster's dependence table (R258). -/
def dependenceEntries : Nat := 1024
/-- Entries of a die's collective queue (R370). -/
def collectiveEntries : Nat := 16
/-- Lane blocks of a party's queue (R33). -/
def queueBlocks : Nat := 4
/-- Tokens of a party's stack: in hardware, and in all (R33, R103). -/
def hardwareTokens : Nat := 32
def maxTokens : Nat := 256

/-- FREE VALUE: one open choice between two outcomes, by the free counter and an index. -/
opaque freeBit : Nat → Nat → Bool
/-- FREE VALUE: a 64-bit value the manual leaves open, by the free counter and an index. -/
opaque freeWord : Nat → Nat → Word
/-- FREE VALUE: a choice among several, by the free counter. -/
opaque freeNat : Nat → Nat
/-- FREE VALUE: the counter from which a replay party's open choices are drawn, by its launch and its place in the program (R353;
log 74). -/
opaque replaySeed : List Nat → Nat
/-- FREE VALUE: the ticks that pass during a step of the default order (log 4). -/
opaque freeTicks : Nat → Nat
/-- FREE VALUE: the arithmetic clocks that pass during a step of the default order (log 4). -/
opaque freeClocks : Nat → Nat
/-- FREE VALUE: how far the clock count of a core stands from that of core 0 (R115: not synchronised; log 4). -/
opaque clockSkew : Nat → Nat
/-- FREE VALUE: the content of a lane register position that no rule gives a value: tag, group position, stack
position (log 8). -/
opaque laneRegister : Nat → Nat → Nat → BitVec 32
/-- FREE VALUE: SHAKE256 of the device secret, a job identifier, a nonce and a slot: the two XTS keys (R375; log 14). -/
opaque deriveKey : (job nonce : BitVec 256) → (slot : Nat) → BitVec 512
/-- FREE VALUE: the SHAKE256 digest of firmware image `i` as brought up (R374; log 14). -/
opaque measurement : Nat → BitVec 512
/-- The device's fused serial, which an attestation report carries (R375): the manual gives it no value (log 14). -/
opaque fusedSerial : Word
/-- FREE VALUE: byte `i` of what follows the signed part of an attestation report: the padding of the window, the
signature over the report and the certificate address (R375; log 14). -/
opaque attestTail : (report : List Byte) → (i : Nat) → Byte
/-- FREE VALUE: the result of EXP2, LOG2, SIN or COS where interval evaluation within the model's precision bound does
not separate two results (log 17): operation number, format fraction width, operand bits. -/
opaque transcendental : Nat → Nat → Nat → Nat

end Sys2Proof.Config
end

