-- ==== Sys2Proof/Syntax.lean ====
section
/-!
DEFINITION. The abstract syntax: one constructor of `Instr` for each row of the opcode table.  Scalar words carry their
park marker and their register and immediate fields; lane instructions carry the fields of the 96-bit layout (R58); the
events of the part carry what they are about (a party, a core, a command, a context, a function ...).
-/
namespace Sys2Proof

/-- The size codes of the integer family (R48); code 0b01 is reserved and has no constructor. -/
inductive Size where
  | w64   -- 0b00: all 64 bits
  | i32   -- 0b10: bits 31:0, result sign-extended
  | n32   -- 0b11: bits 31:0, result zero-extended
  deriving DecidableEq, Repr

/-- The type codes of a lane instruction (R60); `mx` is code 0xF, accepted by MMAB only. -/
inductive Ty where
  | i8 | i16 | i32 | i64 | n8 | n16 | n32 | n64 | b32 | f16 | bf16 | f32 | f64 | c32 | c64 | mx
  deriving DecidableEq, Repr

/-- The fields of a lane instruction but its opcode (R58).  Operand fields hold operand codes (R11, R61). -/
structure LaneF where
  ty   : Ty
  dst  : BitVec 8
  a    : BitVec 8
  b    : BitVec 8
  c    : BitVec 8
  imm  : BitVec 16
  pred : BitVec 3
  neg  : Bool
  dl   : BitVec 2
  hint : BitVec 4
  set  : BitVec 4
  wait : BitVec 12
  gap  : BitVec 3
  deriving DecidableEq, Repr

/-- What an uncorrectable soft error strikes (R337). -/
inductive SoftError where
  | party (pid : Nat)                       -- lane registers, scalar registers, tokens, flags
  | cleanCopy                               -- a clean copy: dropped and fetched again
  | scratch (launch group unit : Nat)       -- 4 bytes of a local scratchpad
  | sector (n : Nat)                        -- a 64-byte sector of memory or of a dirty line
  | task (id : Nat)                         -- tile engine or Flowstone working storage
  deriving DecidableEq, Repr

/-- An Itval packet as it arrives (R368). -/
structure Packet where
  src : Nat
  dst : Nat
  cls : Nat
  seq : BitVec 32
  time : Word
  deriving DecidableEq, Repr

/-- One constructor per row of the opcode table. -/
inductive Instr where
  -- integer family (R48, R89)
  | add (k : Bool) (d a b : Reg) (z : Size)
  | sub (k : Bool) (d a b : Reg) (z : Size)
  | mul (k : Bool) (d a b : Reg) (z : Size)
  | mulhi (k : Bool) (d a b : Reg) (z : Size)
  | mulhin (k : Bool) (d a b : Reg) (z : Size)
  | div (k : Bool) (d a b : Reg) (z : Size)
  | divn (k : Bool) (d a b : Reg) (z : Size)
  | rem (k : Bool) (d a b : Reg) (z : Size)
  | remn (k : Bool) (d a b : Reg) (z : Size)
  | min (k : Bool) (d a b : Reg) (z : Size)
  | max (k : Bool) (d a b : Reg) (z : Size)
  | minn (k : Bool) (d a b : Reg) (z : Size)
  | maxn (k : Bool) (d a b : Reg) (z : Size)
  | and (k : Bool) (d a b : Reg) (z : Size)
  | or (k : Bool) (d a b : Reg) (z : Size)
  | xor (k : Bool) (d a b : Reg) (z : Size)
  | andn (k : Bool) (d a b : Reg) (z : Size)
  | shl (k : Bool) (d a b : Reg) (z : Size)
  | shr (k : Bool) (d a b : Reg) (z : Size)
  | sra (k : Bool) (d a b : Reg) (z : Size)
  | slt (k : Bool) (d a b : Reg) (z : Size)
  | sltn (k : Bool) (d a b : Reg) (z : Size)
  | seq (k : Bool) (d a b : Reg) (z : Size)
  | popc (k : Bool) (d a : Reg) (z : Size)
  | clz (k : Bool) (d a : Reg) (z : Size)
  | ctz (k : Bool) (d a : Reg) (z : Size)
  -- immediates (R49, R90, R91)
  | addi (k : Bool) (d a : Reg) (imm : BitVec 13)
  | andi (k : Bool) (d a : Reg) (imm : BitVec 13)
  | ori (k : Bool) (d a : Reg) (imm : BitVec 13)
  | xori (k : Bool) (d a : Reg) (imm : BitVec 13)
  | shli (k : Bool) (d a : Reg) (c : BitVec 6)
  | shri (k : Bool) (d a : Reg) (c : BitVec 6)
  | srai (k : Bool) (d a : Reg) (c : BitVec 6)
  | slti (k : Bool) (d a : Reg) (imm : BitVec 13)
  | sltni (k : Bool) (d a : Reg) (imm : BitVec 13)
  | muli (k : Bool) (d a : Reg) (imm : BitVec 13)
  | lui (k : Bool) (d : Reg) (imm : BitVec 19)
  | lpc (k : Bool) (d : Reg) (imm : BitVec 19)
  | lcat (k : Bool) (d : Reg) (imm : BitVec 19)
  -- branches, calls and exit (R50, R92 to R94)
  | beq (k : Bool) (a : Reg) (off : BitVec 15)
  | bne (k : Bool) (a : Reg) (off : BitVec 15)
  | blt (k : Bool) (a : Reg) (off : BitVec 15)
  | bge (k : Bool) (a : Reg) (off : BitVec 15)
  | bgt (k : Bool) (a : Reg) (off : BitVec 15)
  | ble (k : Bool) (a : Reg) (off : BitVec 15)
  | bra (k : Bool) (off : BitVec 15)
  | mpush (k : Bool) (p : BitVec 3) (off : BitVec 15)
  | mbrk (k : Bool) (p : BitVec 3) (off : BitVec 15)
  | jmp (k : Bool) (off : BitVec 25)
  | call (k : Bool) (n : BitVec 4) (a : Reg) (off : BitVec 15)
  | callr (k : Bool) (d a : Reg) (n : BitVec 4)
  | ret (k : Bool) (a : Reg) (n : BitVec 4)
  | exit (k : Bool)
  | lrun (k : Bool) (len : BitVec 6) (idx : BitVec 19)
  -- waits (R52, R53)
  | bwait (k : Bool) (d a : Reg) (dl : BitVec 2)
  | bsync (k : Bool) (d a : Reg) (dl : BitVec 2)
  | semacq (k : Bool) (d a : Reg) (dl : BitVec 2) (b : Reg)
  | waddr (k : Bool) (d a : Reg) (dl : BitVec 2) (b : Reg)
  | fence (k : Bool) (d : Reg) (mask : BitVec 6) (dl : BitVec 2)
  | xfence (k : Bool) (d : Reg) (ca : BitVec 6) (dl : BitVec 2) (cb : BitVec 6)
  | sysfence (k : Bool) (d : Reg) (dl : BitVec 2)
  | sysfenceArray (k : Bool) (d : Reg) (dl : BitVec 2)
  | fuse (k : Bool) (d : Reg) (dl : BitVec 2)
  | twait (k : Bool) (d a : Reg) (dl : BitVec 2)
  | waitf (k : Bool) (d : Reg) (flags : BitVec 12) (dl : BitVec 2)
  -- synchronisation family (R54)
  | barr (k : Bool) (a : Reg)
  | bdrop (k : Bool) (a : Reg)
  | semrel (k : Bool) (a b : Reg)
  | split (k : Bool) (d : Reg)
  | width (k : Bool) (d : Reg)
  -- mask family (R51, R97 to R102)
  | mset (k : Bool) (d : BitVec 3) (a : Reg)
  | mand (k : Bool) (d a b : BitVec 3)
  | mandn (k : Bool) (d a b : BitVec 3)
  | mor (k : Bool) (d a b : BitVec 3)
  | mxor (k : Bool) (d a b : BitVec 3)
  | mpop (k : Bool) (d : BitVec 3)
  | mjoin (k : Bool)
  | many (k : Bool) (d : Reg) (a : BitVec 3)
  | mall (k : Bool) (d : Reg) (a : BitVec 3)
  | mcount (k : Bool) (d : Reg) (a : BitVec 3)
  -- deadlines (R110 to R112)
  | dlset (k : Bool) (d : BitVec 2) (a : Reg)
  | dladd (k : Bool) (d : BitVec 2) (a : Reg)
  | dlnow (k : Bool) (d : Reg) (base : Bool)
  -- scalar loads and stores (R191)
  | sldI8 (k : Bool) (d a : Reg) (imm : BitVec 13)
  | sldN8 (k : Bool) (d a : Reg) (imm : BitVec 13)
  | sldI16 (k : Bool) (d a : Reg) (imm : BitVec 13)
  | sldN16 (k : Bool) (d a : Reg) (imm : BitVec 13)
  | sldI32 (k : Bool) (d a : Reg) (imm : BitVec 13)
  | sldN32 (k : Bool) (d a : Reg) (imm : BitVec 13)
  | sldN64 (k : Bool) (d a : Reg) (imm : BitVec 13)
  | sstN8 (k : Bool) (d a : Reg) (imm : BitVec 13)
  | sstN16 (k : Bool) (d a : Reg) (imm : BitVec 13)
  | sstN32 (k : Bool) (d a : Reg) (imm : BitVec 13)
  | sstN64 (k : Bool) (d a : Reg) (imm : BitVec 13)
  -- engine commands (R216 to R222, R348, R370)
  | cpyt (k : Bool) (d a : Reg) (dl : BitVec 2) (b : Reg)
  | gath (k : Bool) (d a : Reg) (dl : BitVec 2) (b : Reg)
  | scat (k : Bool) (d a : Reg) (dl : BitVec 2) (b : Reg)
  | chain (k : Bool) (d a : Reg) (dl : BitVec 2) (b : Reg)
  | cpyw (k : Bool) (d a : Reg) (dl : BitVec 2) (b : Reg)
  | coll (k : Bool) (d a : Reg) (dl : BitVec 2) (b : Reg)
  | launch (k : Bool) (d a : Reg) (dl : BitVec 2) (b : Reg)
  -- tile commands (R239 to R255, R262)
  | tlnew (k : Bool) (d a : Reg) (dl : BitVec 2) (b : Reg)
  | tlfree (k : Bool) (d a : Reg) (dl : BitVec 2)
  | tlload (k : Bool) (d a : Reg) (dl : BitVec 2)
  | tlstore (k : Bool) (d a : Reg) (dl : BitVec 2)
  | tlfac (k : Bool) (d a : Reg) (dl : BitVec 2) (b : Reg)
  | tladd (k : Bool) (d a : Reg) (dl : BitVec 2) (b : Reg)
  | tlmul (k : Bool) (d a : Reg) (dl : BitVec 2) (b : Reg)
  | tllu (k : Bool) (d a : Reg) (dl : BitVec 2)
  | tlinv (k : Bool) (d a : Reg) (dl : BitVec 2)
  | tltrs (k : Bool) (d a : Reg) (dl : BitVec 2) (b : Reg)
  | tlrnd (k : Bool) (d a : Reg) (dl : BitVec 2) (b : Reg)
  | tlcvt (k : Bool) (d a : Reg) (dl : BitVec 2)
  | tlnorm (k : Bool) (d a : Reg) (dl : BitVec 2)
  | tbat (k : Bool) (d : Reg)
  | tlinfo (k : Bool) (d a : Reg)
  -- control registers, lane register access, traps, counters (R113 to R116, R157 to R159)
  | csrr (k : Bool) (d : Reg) (csr : BitVec 13)
  | csrw (k : Bool) (a : Reg) (csr : BitVec 13)
  | xrd (k : Bool) (d a : Reg) (n : BitVec 7)
  | xwr (k : Bool) (a b : Reg) (n : BitVec 7)
  | trap (k : Bool) (a : Reg)
  | rett (k : Bool)
  | yield (k : Bool)
  | rdclk (k : Bool) (d : Reg)
  | rdret (k : Bool) (d : Reg)
  -- lane instructions (R64)
  | laneAdd (f : LaneF)
  | laneSub (f : LaneF)
  | laneMul (f : LaneF)
  | laneMulhi (f : LaneF)
  | laneMad (f : LaneF)
  | laneFma (f : LaneF)
  | laneMin (f : LaneF)
  | laneMax (f : LaneF)
  | laneAbs (f : LaneF)
  | laneNeg (f : LaneF)
  | laneAdds (f : LaneF)
  | laneSubs (f : LaneF)
  | laneAnd (f : LaneF)
  | laneOr (f : LaneF)
  | laneXor (f : LaneF)
  | laneAndn (f : LaneF)
  | laneNot (f : LaneF)
  | laneShl (f : LaneF)
  | laneShr (f : LaneF)
  | laneSra (f : LaneF)
  | lanePopc (f : LaneF)
  | laneClz (f : LaneF)
  | laneBrev (f : LaneF)
  | laneDiv (f : LaneF)
  | laneSqrt (f : LaneF)
  | laneRcp (f : LaneF)
  | laneRsqrt (f : LaneF)
  | laneExp2 (f : LaneF)
  | laneLog2 (f : LaneF)
  | laneSin (f : LaneF)
  | laneCos (f : LaneF)
  | laneRint (f : LaneF)
  | laneConj (f : LaneF)
  | laneCmp (f : LaneF)
  | laneSel (f : LaneF)
  | laneMov (f : LaneF)
  | laneCvt (f : LaneF)
  | laneShfl (f : LaneF)
  | laneBcast (f : LaneF)
  | laneRed (f : LaneF)
  | laneScan (f : LaneF)
  | laneMatch (f : LaneF)
  | laneVote (f : LaneF)
  | mma (f : LaneF)
  | mmas (f : LaneF)
  | mmab (f : LaneF)
  | laneLd (f : LaneF)
  | laneSt (f : LaneF)
  | atom (f : LaneF)
  | ared (f : LaneF)
  | acas (f : LaneF)
  -- events of the part
  | laneMemoryCompletion (pid : Nat)
  | trapDelivery (pid : Nat)
  | replyAnswer (ctx ticket : Nat)
  | deadlineExpiry (pid : Nat)
  | waitConditionMet (pid : Nat)
  | siphonEntryGrant (core : Nat)
  | siphonCommandExecute (cmd : Nat)
  | commandCompletion (cmd : Nat)
  | galleryEntryGrant (core : Nat)
  | taskStart (engine : Nat)
  | flowstoneRecompression (task : Nat)
  | taskRetire (task : Nat)
  | cavernQuiescence
  | launchTake (queue : Nat)
  | dependenceMet (id : Nat)
  | groupPlacement (id core : Nat) (quads : List Nat)
  | placementAging (id : Nat)
  | launchEnd (id : Nat)
  | eviction (pid : Nat)
  | restore (pid : Nat)
  | invalidatePage (ctx : Nat)
  | invalidateAll (ctx : Nat)
  | reset (ctx : Nat)
  | suspend (ctx : Nat)
  | resume (ctx : Nat)
  | accessBoundExpiry (pid : Nat)
  | softError (what : SoftError)
  | patrolScrub (stack : Nat)
  | doorbell (fn : Nat) (value : Word)
  | registerWrite (fn off : Nat) (value : Word)
  | hostRead (fn off len : Nat)
  | hostWrite (fn off : Nat) (bytes : List Byte)
  | functionLevelReset (fn : Nat)
  | attest
  | keyload
  | keyclear
  | stackinit
  | stackinfo
  | bringUp (verified : Bool) (part : Nat)
  | packetReceive (packet : Packet)
  | retransmission (dst cls : Nat)
  | partAbsent (part : Nat)
  | collectiveCompletion (cmd : Nat) (inputs : Option (List (List Nat)))
  | collTimeout (cmd : Nat)
  | thermalThrottle
  | thermalTrip
  | tripClear
  | scoreHalving
  | vectorUnmask (fn vector : Nat)
  deriving DecidableEq, Repr

/-- The opcodes of the lane stream (R64), for what several lane instructions share. -/
inductive LaneOp where
  | add
  | sub
  | mul
  | mulhi
  | mad
  | fma
  | min
  | max
  | abs
  | neg
  | adds
  | subs
  | and
  | or
  | xor
  | andn
  | not
  | shl
  | shr
  | sra
  | popc
  | clz
  | brev
  | div
  | sqrt
  | rcp
  | rsqrt
  | exp2
  | log2
  | sin
  | cos
  | rint
  | conj
  | cmp
  | sel
  | mov
  | cvt
  | shfl
  | bcast
  | red
  | scan
  | matchOp
  | vote
  | mma
  | mmas
  | mmab
  | ld
  | st
  | atom
  | ared
  | acas
  deriving DecidableEq, Repr

/-- The lane opcode and the fields of a lane instruction; none for scalar words and events. -/
def Instr.lane? : Instr → Option (LaneOp × LaneF)
  | .laneAdd f => some (.add, f)
  | .laneSub f => some (.sub, f)
  | .laneMul f => some (.mul, f)
  | .laneMulhi f => some (.mulhi, f)
  | .laneMad f => some (.mad, f)
  | .laneFma f => some (.fma, f)
  | .laneMin f => some (.min, f)
  | .laneMax f => some (.max, f)
  | .laneAbs f => some (.abs, f)
  | .laneNeg f => some (.neg, f)
  | .laneAdds f => some (.adds, f)
  | .laneSubs f => some (.subs, f)
  | .laneAnd f => some (.and, f)
  | .laneOr f => some (.or, f)
  | .laneXor f => some (.xor, f)
  | .laneAndn f => some (.andn, f)
  | .laneNot f => some (.not, f)
  | .laneShl f => some (.shl, f)
  | .laneShr f => some (.shr, f)
  | .laneSra f => some (.sra, f)
  | .lanePopc f => some (.popc, f)
  | .laneClz f => some (.clz, f)
  | .laneBrev f => some (.brev, f)
  | .laneDiv f => some (.div, f)
  | .laneSqrt f => some (.sqrt, f)
  | .laneRcp f => some (.rcp, f)
  | .laneRsqrt f => some (.rsqrt, f)
  | .laneExp2 f => some (.exp2, f)
  | .laneLog2 f => some (.log2, f)
  | .laneSin f => some (.sin, f)
  | .laneCos f => some (.cos, f)
  | .laneRint f => some (.rint, f)
  | .laneConj f => some (.conj, f)
  | .laneCmp f => some (.cmp, f)
  | .laneSel f => some (.sel, f)
  | .laneMov f => some (.mov, f)
  | .laneCvt f => some (.cvt, f)
  | .laneShfl f => some (.shfl, f)
  | .laneBcast f => some (.bcast, f)
  | .laneRed f => some (.red, f)
  | .laneScan f => some (.scan, f)
  | .laneMatch f => some (.matchOp, f)
  | .laneVote f => some (.vote, f)
  | .mma f => some (.mma, f)
  | .mmas f => some (.mmas, f)
  | .mmab f => some (.mmab, f)
  | .laneLd f => some (.ld, f)
  | .laneSt f => some (.st, f)
  | .atom f => some (.atom, f)
  | .ared f => some (.ared, f)
  | .acas f => some (.acas, f)
  | _ => none

/-- The lane instruction with an opcode and fields. -/
def LaneOp.instr : LaneOp → LaneF → Instr
  | .add, f => .laneAdd f
  | .sub, f => .laneSub f
  | .mul, f => .laneMul f
  | .mulhi, f => .laneMulhi f
  | .mad, f => .laneMad f
  | .fma, f => .laneFma f
  | .min, f => .laneMin f
  | .max, f => .laneMax f
  | .abs, f => .laneAbs f
  | .neg, f => .laneNeg f
  | .adds, f => .laneAdds f
  | .subs, f => .laneSubs f
  | .and, f => .laneAnd f
  | .or, f => .laneOr f
  | .xor, f => .laneXor f
  | .andn, f => .laneAndn f
  | .not, f => .laneNot f
  | .shl, f => .laneShl f
  | .shr, f => .laneShr f
  | .sra, f => .laneSra f
  | .popc, f => .lanePopc f
  | .clz, f => .laneClz f
  | .brev, f => .laneBrev f
  | .div, f => .laneDiv f
  | .sqrt, f => .laneSqrt f
  | .rcp, f => .laneRcp f
  | .rsqrt, f => .laneRsqrt f
  | .exp2, f => .laneExp2 f
  | .log2, f => .laneLog2 f
  | .sin, f => .laneSin f
  | .cos, f => .laneCos f
  | .rint, f => .laneRint f
  | .conj, f => .laneConj f
  | .cmp, f => .laneCmp f
  | .sel, f => .laneSel f
  | .mov, f => .laneMov f
  | .cvt, f => .laneCvt f
  | .shfl, f => .laneShfl f
  | .bcast, f => .laneBcast f
  | .red, f => .laneRed f
  | .scan, f => .laneScan f
  | .matchOp, f => .laneMatch f
  | .vote, f => .laneVote f
  | .mma, f => .mma f
  | .mmas, f => .mmas f
  | .mmab, f => .mmab f
  | .ld, f => .laneLd f
  | .st, f => .laneSt f
  | .atom, f => .atom f
  | .ared, f => .ared f
  | .acas, f => .acas f

end Sys2Proof
end

