-- ==== Sys2Proof/Machine/Num.lean ====
section
/-!
DEFINITION. Floating-point values as exact dyadic numbers, the one rounding, sums and quotients (R69 to R76, R82, R124).
Bit patterns are natural numbers here.
-/
namespace Sys2Proof.Machine

/-- A binary format: fraction bits and exponent bits (R69). -/
structure Fmt where
  frac : Nat
  exp : Nat
  deriving DecidableEq, Repr

def Fmt.f16 : Fmt := ⟨10, 5⟩
def Fmt.bf16 : Fmt := ⟨7, 8⟩
def Fmt.f32 : Fmt := ⟨23, 8⟩
def Fmt.f64 : Fmt := ⟨52, 11⟩

/-- The rounding modes (R72). -/
inductive Rounding where
  | rn | rz | rp | rm
  deriving DecidableEq, Repr

def Rounding.ofCode : Nat → Rounding
  | 1 => .rz
  | 2 => .rp
  | 3 => .rm
  | _ => .rn

namespace Fmt

def bits (f : Fmt) : Nat := f.frac + f.exp + 1
def bias (f : Fmt) : Nat := 2 ^ (f.exp - 1) - 1
def emax (f : Fmt) : Nat := 2 ^ f.exp - 1
/-- The sign bit of a pattern of either sign. -/
def sign (f : Fmt) (neg : Bool) : Nat := if neg then 2 ^ (f.frac + f.exp) else 0
def infinity (f : Fmt) : Nat := f.emax * 2 ^ f.frac
def largest (f : Fmt) : Nat := f.infinity - 1
def defaultNaN (f : Fmt) : Nat := f.infinity + 2 ^ (f.frac - 1)
def negative (f : Fmt) (x : Nat) : Bool := x / 2 ^ (f.frac + f.exp) % 2 == 1
def magnitude (f : Fmt) (x : Nat) : Nat := x % 2 ^ (f.frac + f.exp)
def isNaN (f : Fmt) (x : Nat) : Bool := decide (f.infinity < f.magnitude x)
def isInf (f : Fmt) (x : Nat) : Bool := f.magnitude x == f.infinity
def isZero (f : Fmt) (x : Nat) : Bool := f.magnitude x == 0
/-- A NaN with its quiet bit set (R74, R75). -/
def quiet (f : Fmt) (x : Nat) : Nat := x ||| 2 ^ (f.frac - 1)
/-- A pattern with its sign inverted. -/
def flip (f : Fmt) (x : Nat) : Nat := x ^^^ 2 ^ (f.frac + f.exp)

end Fmt

/-- A value: a NaN, an infinity, or (−1)^neg × m × 2^e, signed zeros with m = 0. -/
inductive FVal where
  | nan
  | inf (neg : Bool)
  | fin (neg : Bool) (m : Nat) (e : Int)
  deriving DecidableEq, Repr

/-- The value a pattern encodes (R69). -/
def Fmt.value (f : Fmt) (x : Nat) : FVal :=
  let e := f.magnitude x / 2 ^ f.frac
  let m := x % 2 ^ f.frac
  if e = f.emax then (if m = 0 then .inf (f.negative x) else .nan)
  else if e = 0 then .fin (f.negative x) m (1 - (f.bias : Int) - f.frac)
  else .fin (f.negative x) (2 ^ f.frac + m) ((e : Int) - f.bias - f.frac)

/-- The bits of a natural number. -/
def bitLen (n : Nat) : Nat := if n = 0 then 0 else Nat.log2 n + 1

/-- A rounded magnitude that exceeds the largest finite value (R72). -/
def Fmt.overflow (f : Fmt) (mode : Rounding) (neg : Bool) : Nat :=
  match mode, neg with
  | .rn, _ | .rp, false | .rm, true => f.sign neg + f.infinity
  | _, _ => f.sign neg + f.largest

/-- Whether a magnitude with remainder `rem` of `2 ^ shift`, and more below where `sticky`, rounds up. -/
def roundsUp (mode : Rounding) (neg odd : Bool) (rem shift : Nat) (sticky : Bool) : Bool :=
  match mode with
  | .rz => false
  | .rp => !neg && (rem != 0 || sticky)
  | .rm => neg && (rem != 0 || sticky)
  | .rn => decide (2 ^ shift < 2 * rem) || (2 * rem == 2 ^ shift && (sticky || odd))

/-- round_fmt of a magnitude m × 2^e, with more below its last bit where `sticky` (R72). -/
def Fmt.roundMag (f : Fmt) (mode : Rounding) (neg : Bool) (m : Nat) (e : Int) (sticky : Bool := false) : Nat :=
  let emin : Int := 1 - (f.bias : Int)
  let top : Int := e + bitLen m - 1
  let lead : Int := if top < emin then emin else top
  let q : Int := lead - f.frac
  let r : Nat × Nat × Nat :=
    if q ≤ e then (m * 2 ^ (e - q).toNat, 0, 1)
    else
      let shift := (q - e).toNat
      (m / 2 ^ shift, m % 2 ^ shift, shift)
  let n := if roundsUp mode neg (r.1 % 2 == 1) r.2.1 r.2.2 sticky then r.1 + 1 else r.1
  let x := if top < emin then n else (lead - emin).toNat * 2 ^ f.frac + n
  if f.infinity ≤ x then f.overflow mode neg else f.sign neg + x

/-- A value rounded; a NaN is the default NaN. -/
def Fmt.round (f : Fmt) (mode : Rounding) : FVal → Nat
  | .nan => f.defaultNaN
  | .inf neg => f.sign neg + f.infinity
  | .fin neg m e => if m = 0 then f.sign neg else f.roundMag mode neg m e

/-! ### Exact arithmetic -/

def FVal.neg : FVal → FVal
  | .nan => .nan
  | .inf s => .inf !s
  | .fin s m e => .fin (!s) m e

/-- The exact product (R73, R74). -/
def FVal.mul : FVal → FVal → FVal
  | .nan, _ | _, .nan => .nan
  | .inf s, .inf t => .inf (s != t)
  | .inf s, .fin t m _ | .fin t m _, .inf s => if m = 0 then .nan else .inf (s != t)
  | .fin s m e, .fin t n g => .fin (s != t) (m * n) (e + g)

/-- A finite value's mantissa over a common exponent. -/
def FVal.scaled (base : Int) : FVal → Int
  | .fin s m e => let v : Int := m * 2 ^ (e - base).toNat; if s then -v else v
  | _ => 0

def FVal.exponent : FVal → Int
  | .fin _ _ e => e
  | _ => 0

def FVal.isNaN : FVal → Bool
  | .nan => true
  | _ => false

def FVal.isInf (neg : Bool) : FVal → Bool
  | .inf s => s == neg
  | _ => false

def FVal.isZero : FVal → Bool
  | .fin _ m _ => m == 0
  | _ => false

def FVal.negative : FVal → Bool
  | .fin s _ _ | .inf s => s
  | .nan => false

/-- The exact sum of the terms of one rounding step: R74 for specials, R73 for the sign of a zero in the mode. -/
def sumTerms (mode : Rounding) (ts : List FVal) : FVal :=
  if ts.any FVal.isNaN then .nan
  else
    let p := ts.any (FVal.isInf false)
    let n := ts.any (FVal.isInf true)
    if p && n then .nan else if p then .inf false else if n then .inf true
    else
      let base := ts.foldl (fun b t => if t.exponent < b then t.exponent else b) ((ts.head?.map FVal.exponent).getD 0)
      let v := ts.foldl (fun (a : Int) t => a + t.scaled base) 0
      if v = 0 then
        let zero (s : Bool) : Bool := ts.all fun t => t.isZero && t.negative == s
        .fin (if ts.isEmpty then false else if zero false then false else if zero true then true else mode == .rm) 0 0
      else .fin (decide (v < 0)) v.natAbs base

/-- The exact quotient of finite non-zero values, rounded once. -/
def Fmt.quotient (f : Fmt) (mode : Rounding) (neg : Bool) (m : Nat) (e : Int) (n : Nat) (g : Int) : Nat :=
  let k := f.frac + 4 + bitLen n
  let a := m * 2 ^ k
  f.roundMag mode neg (a / n) (e - g - k) (a % n != 0)

/-- The largest natural number whose square is at most `n`, found bit by bit from bit `k` down. -/
def isqrtFrom (n : Nat) : (k r : Nat) → Nat
  | 0, r => if (r + 1) * (r + 1) ≤ n then r + 1 else r
  | k + 1, r =>
    let t := r + 2 ^ (k + 1)
    isqrtFrom n k (if t * t ≤ n then t else r)

def isqrt (n : Nat) : Nat := isqrtFrom n (bitLen n / 2 + 1) 0

/-- A finite value with an even exponent. -/
def evenExponent (m : Nat) (e : Int) : Nat × Int := if e % 2 = 0 then (m, e) else (2 * m, e - 1)

/-- round_fmt of √(m × 2^e). -/
def Fmt.sqrtMag (f : Fmt) (mode : Rounding) (m : Nat) (e : Int) : Nat :=
  let (m, e) := evenExponent m e
  let k := f.frac + 4
  let a := m * 2 ^ (2 * k)
  let r := isqrt a
  f.roundMag mode false r (e / 2 - k) (r * r != a)

/-- round_fmt of 1 / √(m × 2^e). -/
def Fmt.rsqrtMag (f : Fmt) (mode : Rounding) (m : Nat) (e : Int) : Nat :=
  let (m, e) := evenExponent m e
  let k := f.frac + 4 + bitLen m
  let r := isqrt (2 ^ (2 * k) / m)
  f.roundMag mode false r (-(k : Int) - e / 2) (r * r * m != 2 ^ (2 * k))

/-! ### Real operations (R74, R124) -/

/-- R74 for a real operation: the first NaN operand made quiet, else the result of `g`. -/
def Fmt.nanFirst (f : Fmt) (xs : List Nat) (g : Nat) : Nat :=
  match xs.find? f.isNaN with
  | some x => f.quiet x
  | none => g

def Fmt.add (f : Fmt) (mode : Rounding) (a b : Nat) : Nat :=
  f.nanFirst [a, b] (f.round mode (sumTerms mode [f.value a, f.value b]))

def Fmt.sub (f : Fmt) (mode : Rounding) (a b : Nat) : Nat :=
  f.nanFirst [a, b] (f.round mode (sumTerms mode [f.value a, (f.value b).neg]))

def Fmt.mul (f : Fmt) (mode : Rounding) (a b : Nat) : Nat :=
  f.nanFirst [a, b] (f.round mode ((f.value a).mul (f.value b)))

def Fmt.fma (f : Fmt) (mode : Rounding) (a b c : Nat) : Nat :=
  f.nanFirst [a, b, c] (f.round mode (sumTerms mode [(f.value a).mul (f.value b), f.value c]))

def Fmt.divVal (f : Fmt) (mode : Rounding) : FVal → FVal → Nat
  | .nan, _ | _, .nan | .inf _, .inf _ => f.defaultNaN
  | .inf s, .fin t _ _ => f.sign (s != t) + f.infinity
  | .fin s _ _, .inf t => f.sign (s != t)
  | .fin s m e, .fin t n g =>
    if n = 0 then (if m = 0 then f.defaultNaN else f.sign (s != t) + f.infinity)
    else if m = 0 then f.sign (s != t)
    else f.quotient mode (s != t) m e n g

def Fmt.div (f : Fmt) (mode : Rounding) (a b : Nat) : Nat := f.nanFirst [a, b] (f.divVal mode (f.value a) (f.value b))

def Fmt.rcp (f : Fmt) (mode : Rounding) (a : Nat) : Nat := f.nanFirst [a] (f.divVal mode (.fin false 1 0) (f.value a))

def Fmt.sqrtVal (f : Fmt) (mode : Rounding) : FVal → Nat
  | .nan | .inf true => f.defaultNaN
  | .inf false => f.infinity
  | .fin s m e => if m = 0 then f.sign s else if s then f.defaultNaN else f.sqrtMag mode m e

def Fmt.sqrt (f : Fmt) (mode : Rounding) (a : Nat) : Nat := f.nanFirst [a] (f.sqrtVal mode (f.value a))

def Fmt.rsqrt (f : Fmt) (mode : Rounding) (a : Nat) : Nat := f.nanFirst [a] <|
  match f.value a with
  | .nan | .inf true => f.defaultNaN
  | .inf false => 0
  | .fin s m e => if m = 0 then f.sign s + f.infinity else if s then f.defaultNaN else f.rsqrtMag mode m e

/-- An order key: −0 below +0, NaNs outside (R87, R124). -/
def Fmt.key (f : Fmt) (x : Nat) : Int := if f.negative x then -(f.magnitude x : Int) - 1 else f.magnitude x

def Fmt.min (f : Fmt) (a b : Nat) : Nat := f.nanFirst [a, b] (if f.key a ≤ f.key b then a else b)
def Fmt.max (f : Fmt) (a b : Nat) : Nat := f.nanFirst [a, b] (if f.key a ≤ f.key b then b else a)

/-- minimumNumber and maximumNumber: a NaN is ignored unless both are (R87). -/
def Fmt.minNumber (f : Fmt) (a b : Nat) : Nat :=
  if f.isNaN a && f.isNaN b then f.defaultNaN else if f.isNaN a then b else if f.isNaN b then a
  else if f.key a ≤ f.key b then a else b
def Fmt.maxNumber (f : Fmt) (a b : Nat) : Nat :=
  if f.isNaN a && f.isNaN b then f.defaultNaN else if f.isNaN a then b else if f.isNaN b then a
  else if f.key a ≤ f.key b then b else a

def Fmt.abs (f : Fmt) (a : Nat) : Nat := f.nanFirst [a] (f.magnitude a)
def Fmt.neg (f : Fmt) (a : Nat) : Nat := f.nanFirst [a] (f.flip a)

/-- A finite magnitude rounded to a natural number in a mode (R77, R124). -/
def roundNat (mode : Rounding) (neg : Bool) (m : Nat) (e : Int) : Nat :=
  if 0 ≤ e then m * 2 ^ e.toNat
  else
    let k := (-e).toNat
    let n := m / 2 ^ k
    if roundsUp mode neg (n % 2 == 1) (m % 2 ^ k) k false then n + 1 else n

def Fmt.rint (f : Fmt) (mode : Rounding) (a : Nat) : Nat := f.nanFirst [a] <|
  match f.value a with
  | .fin s m e =>
    let n := roundNat mode s m e
    if n = 0 then f.sign s else f.roundMag mode s n 0
  | _ => a

/-! ### Comparison (R126) -/

/-- Whether a test of CMP holds of two patterns: 0 eq, 1 ne, 2 lt, 3 le, 4 gt, 5 ge, 6 ord, 7 unord. -/
def Fmt.test (f : Fmt) (cond a b : Nat) : Bool :=
  let nan := f.isNaN a || f.isNaN b
  let va : Int := if f.negative a then -(f.magnitude a : Int) else f.magnitude a
  let vb : Int := if f.negative b then -(f.magnitude b : Int) else f.magnitude b
  match cond with
  | 0 => !nan && va == vb
  | 1 => nan || va != vb
  | 2 => !nan && decide (va < vb)
  | 3 => !nan && decide (va ≤ vb)
  | 4 => !nan && decide (vb < va)
  | 5 => !nan && decide (vb ≤ va)
  | 6 => !nan
  | _ => nan

/-! ### Conversions between floats (R77) -/

/-- The destination can represent every value of the source. -/
def Fmt.includes (dst src : Fmt) : Bool := decide (src.frac ≤ dst.frac) && decide (src.exp ≤ dst.exp)

/-- A NaN converted: sign and quiet bit, the payload padded with low zeros or cut to its top bits. -/
def Fmt.convertNaN (dst src : Fmt) (x : Nat) : Nat :=
  let p := x % 2 ^ src.frac
  let p := if src.frac ≤ dst.frac then p * 2 ^ (dst.frac - src.frac) else p / 2 ^ (src.frac - dst.frac)
  dst.quiet (dst.sign (src.negative x) + dst.infinity + p)

/-- A float converted to another format; with `sat` a narrower result never becomes infinite. -/
def Fmt.convert (dst src : Fmt) (mode : Rounding) (sat : Bool) (x : Nat) : Nat :=
  if src.isNaN x then dst.convertNaN src x
  else
    let r := dst.round mode (src.value x)
    if sat && !dst.includes src && dst.isInf r then dst.sign (src.negative x) + dst.largest else r

end Sys2Proof.Machine
end

