-- ==== Sys2Proof/WellFormed.lean ====
section
/-!
DEFINITION. Which terms of the syntax are instructions: the checks of R57 on scalar words and of R61 to R65, R126 to
R145 and R178 on lane instructions that depend on the instruction alone.  The window check of R30, which depends on the
party's depth, is `LaneOp.inWindow`; the lane-section check of LRUN is made when it executes.
-/
namespace Sys2Proof

/-- Why bits are not an instruction, by name (R7, R57, R66). -/
inductive Reject where
  | major           -- an unallocated major opcode (R47)
  | function        -- an unallocated fn, op or cond value (R48, R50 to R52, R54)
  | size            -- a size code that R48 excludes
  | reserved        -- a res0 field that is not zero
  | csr             -- a CSR number or access that R56 excludes
  | literal         -- a literal field outside its range (R52, R54)
  | tileRegisters   -- a tile command whose registers run past s63 (R239)
  | opcode          -- an unallocated lane opcode (R64)
  | laneType        -- a type code outside the opcode's list (R64)
  | operand         -- an operand code or register that R61, R62, R119 or R178 excludes
  | immediate       -- a value of imm16/fn that R63 or the description excludes
  | control         -- a control field that R65 excludes
  | event           -- an event of the part: no encoding
  deriving DecidableEq, Repr

/-! ### Types -/

/-- The set Z of R60. -/
def Ty.isZ : Ty → Bool
  | .i32 | .i64 | .n32 | .n64 => true
  | _ => false

/-- The set L of R60. -/
def Ty.isL (t : Ty) : Bool := t.isZ || t == .b32

/-- The set F of R60. -/
def Ty.isF : Ty → Bool
  | .f16 | .bf16 | .f32 | .f64 => true
  | _ => false

/-- The set C of R60. -/
def Ty.isC : Ty → Bool
  | .c32 | .c64 => true
  | _ => false

/-- Bytes of an element of the type (R71, R181); MMAB's type has none. -/
def Ty.bytes : Ty → Nat
  | .i8 | .n8 => 1
  | .i16 | .n16 | .f16 | .bf16 => 2
  | .i32 | .n32 | .b32 | .f32 => 4
  | .i64 | .n64 | .f64 | .c32 => 8
  | .c64 => 16
  | .mx => 4

/-- Lane registers a value of the type occupies (R68, R119). -/
def Ty.regs (t : Ty) : Nat := if t.bytes ≤ 4 then 1 else t.bytes / 4

/-- The type with a code (R60). -/
def Ty.ofCode : BitVec 4 → Ty
  | 0x0#4 => .i8 | 0x1#4 => .i16 | 0x2#4 => .i32 | 0x3#4 => .i64
  | 0x4#4 => .n8 | 0x5#4 => .n16 | 0x6#4 => .n32 | 0x7#4 => .n64
  | 0x8#4 => .b32 | 0x9#4 => .f16 | 0xA#4 => .bf16 | 0xB#4 => .f32
  | 0xC#4 => .f64 | 0xD#4 => .c32 | 0xE#4 => .c64 | _ => .mx

/-- The code of a type (R60). -/
def Ty.code : Ty → BitVec 4
  | .i8 => 0x0 | .i16 => 0x1 | .i32 => 0x2 | .i64 => 0x3
  | .n8 => 0x4 | .n16 => 0x5 | .n32 => 0x6 | .n64 => 0x7
  | .b32 => 0x8 | .f16 => 0x9 | .bf16 => 0xA | .f32 => 0xB
  | .f64 => 0xC | .c32 => 0xD | .c64 => 0xE | .mx => 0xF

/-- The types an opcode accepts (R64, R185 for the atomics' types apart from their op). -/
def LaneOp.accepts : LaneOp → Ty → Bool
  | .add, t | .sub, t | .mul, t | .neg, t => t.isZ || t.isF || t.isC
  | .mulhi, t | .mad, t | .adds, t | .subs, t => t.isZ
  | .fma, t | .div, t => t.isF || t.isC
  | .min, t | .max, t | .abs, t | .cmp, t | .red, t | .scan, t => t.isZ || t.isF
  | .and, t | .or, t | .xor, t | .andn, t | .not, t | .shl, t | .shr, t | .sra, t | .popc, t | .clz, t | .brev, t => t.isL
  | .sqrt, t | .rcp, t | .rsqrt, t | .rint, t => t.isF
  | .exp2, t | .log2, t | .sin, t | .cos, t => t == .f16 || t == .bf16 || t == .f32
  | .conj, t => t.isC
  | .sel, t => t.isL || t.isF || t.isC
  | .mov, t => t == .b32 || t == .n64 || t == .c64
  | .cvt, t | .ld, t | .st, t => t != .mx
  | .shfl, t | .bcast, t | .matchOp, t | .acas, t => t == .b32 || t == .n64
  | .vote, t => t == .b32
  | .mma, t => t.isF || t.isC
  | .mmas, t => t == .f16 || t == .bf16
  | .mmab, t => t == .mx
  | .atom, t | .ared, t => t.isZ || t == .b32 || t == .f32 || t == .f64

/-! ### Operands of lane instructions -/

/-- What an operand field holds: the codes it admits and the lane registers it names. -/
inductive Slot where
  | unused                              -- 0x00 only (R62)
  | maskNumber                          -- a mask number, bits 7:3 res0
  | lane (regs : Nat) (even : Bool)     -- a lane register code
  | source (regs : Nat) (literal : Bool) -- v, s or 0xC0 to 0xC7; 0xD0 where a literal is admitted
  | index                               -- v, s or 0xC2 to 0xC7, read as .n32 (R178)
  | base                                -- an s code (R178)
  | pair                                -- sN with N at most 62 (R138)
  | laneOrZero (regs : Nat) (even : Bool)
  deriving DecidableEq, Repr

/-- The lane registers an operand names: first register and count; none for other codes. -/
def Slot.registers (s : Slot) (code : BitVec 8) : Option (Nat × Nat) :=
  if code.toNat < 0x80 then
    match s with
    | .lane n _ | .source n _ | .laneOrZero n _ => some (code.toNat, n)
    | .index => some (code.toNat, 1)
    | _ => none
  else none

/-- Whether a field admits a code (R61, R62, R119, R138, R178). -/
def Slot.admits (s : Slot) (code : BitVec 8) : Bool :=
  let n := code.toNat
  let isLane := n < 0x80
  match s with
  | .unused => n == 0
  | .maskNumber => n < 8
  | .lane _ even => isLane && (!even || n % 2 == 0)
  | .source r lit => (isLane && (r ≤ 1 || n % 2 == 0)) || (0x80 ≤ n && n ≤ 0xC7) || (lit && n == 0xD0)
  | .index => n < 0xC0 || (0xC2 ≤ n && n ≤ 0xC7)
  | .base => 0x80 ≤ n && n < 0xC0
  | .pair => 0x80 ≤ n && n ≤ 0xBE
  | .laneOrZero _ even => (isLane && (!even || n % 2 == 0)) || n == 0xC0

/-- Registers of half an accumulator operand (R137: the g of the table). -/
def Ty.accRegs : Ty → Nat
  | .f64 | .c32 => 2
  | .c64 => 4
  | _ => 1

/-- Whether an opcode's map entry reads "imm" for a type, so that field b may be the literal code (R62, R64). -/
def LaneOp.takesLiteral : LaneOp → Ty → Bool
  | .add, t | .sub, t | .mul, t | .mulhi, t | .min, t | .max, t | .adds, t | .subs, t => t.isZ
  | .and, t | .or, t | .xor, t | .andn, t | .shl, t | .shr, t | .sra, t | .bcast, t => t.isL
  | _, _ => false

/-- The dst, a, b and c fields of an opcode with its fields (R64, R119, R131, R135, R137 to R143, R178). -/
def LaneOp.slots (op : LaneOp) (f : LaneF) : Slot × Slot × Slot × Slot :=
  let r := f.ty.regs
  let d : Slot := .lane r (1 < r)
  let v : Slot := .source r false
  let form := (f.imm.extractLsb' 14 2).toNat
  let off : Slot := if form == 0 then .unused else .index
  let membase : Slot := if form == 2 then .unused else .base
  let g := f.ty.accRegs
  let opA (n : Nat) (sp : Bool) : Slot := if sp then .pair else .lane n false
  match op with
  | .mad | .fma => (d, v, v, v)
  | .abs | .neg | .not | .popc | .clz | .brev | .sqrt | .rcp | .rsqrt | .exp2 | .log2 | .sin | .cos | .rint | .conj
  | .red | .scan => (d, v, .unused, .unused)
  | .cmp => (.maskNumber, v, v, .unused)
  | .vote => (.maskNumber, v, .unused, .unused)
  | .mov => (d, .source r (f.ty == .b32 || f.ty == .n64), .unused, .unused)
  | .cvt => (d, .source (Ty.ofCode (f.imm.extractLsb' 0 4)).regs false, .unused, .unused)
  | .shfl => (d, v, .source 1 false, .unused)
  | .matchOp => (.lane 1 false, v, .unused, .unused)
  | .mma => (.lane (2 * g) (2 ≤ g), opA 3 (f.imm.getLsbD 3), opA 3 (f.imm.getLsbD 4), .laneOrZero (2 * g) (2 ≤ g))
  | .mmas => (.lane 2 false, opA 3 (f.imm.getLsbD 3), opA 6 (f.imm.getLsbD 4), .laneOrZero 2 false)
  | .mmab => (.lane 2 false, .lane (if f.imm.getLsbD 6 then 6 else 4) false, .lane 4 false, .lane 2 false)
  | .ld => (d, membase, off, .unused)
  | .st => (membase, off, v, .unused)
  | .atom => (d, .base, off, v)
  | .ared => (.base, off, v, .unused)
  | .acas => (d, .base, off, .lane (2 * r) true)
  | _ => (d, v, .source r (op.takesLiteral f.ty), .unused)

/-- Whether field a or b carries the literal code, whose value is imm16. -/
def LaneOp.hasLiteral (op : LaneOp) (f : LaneF) : Bool :=
  let (_, a, b, _) := op.slots f
  (match a with | .source _ true => f.a == 0xD0#8 | _ => false) ||
  (match b with | .source _ true => f.b == 0xD0#8 | _ => false)

/-- The imm16/fn field (R63 and the descriptions). -/
def LaneOp.immOk (op : LaneOp) (f : LaneF) : Bool :=
  let i := f.imm.toNat
  let t := f.ty
  let rnd := decide (i ≤ 4)
  let red (isScan : Bool) : Bool :=
    let o := i % 8
    let m := i / 8 % 8
    decide (i < 128) && (isScan || !f.imm.getLsbD 6) && decide (o ≤ 5) &&
      (if t.isF then decide (o ≤ 2) && (if o == 0 then decide (m ≤ 4) else m == 0) else m == 0)
  let form := i / 16384
  let atomic : Bool := decide (form ≤ 1) && decide (i / 2048 % 8 ≤ 5) && (form == 0 || i % 256 == 0)
  let aop := i / 256 % 8
  if op.hasLiteral f then true
  else match op with
    | .add | .sub | .mul => if t.isZ then i == 0 else rnd
    | .fma | .div | .sqrt | .rcp | .rsqrt | .rint => rnd
    | .cmp => decide (i < 32) && decide (i / 8 ≤ 2) && (decide (i % 8 ≤ 5) || t.isF)
    | .sel => decide (i < 16)
    | .cvt => decide (i < 256) && i % 16 != 15 && decide (i / 16 % 8 ≤ 4)
    | .shfl => decide (i < 4)
    | .red => red false
    | .scan => red true
    | .vote => decide (i < 3)
    | .mma => decide (i < 128) && decide (i % 8 ≤ 4) && (t.isC || i / 32 == 0)
    | .mmas => !f.imm.getLsbD 15 && i / 64 % 4 == 0 && decide (i % 8 ≤ 4)
    | .mmab => decide (i < 128) && i % 8 != 7 && i / 8 % 8 != 7
    | .ld | .st => form == 0 || (form == 1 && i % 16384 == 0) || (form == 2 && i / 256 % 64 == 0)
    | .atom | .ared =>
      atomic && (if aop ≤ 2 then t.isZ || t == .f32 || t == .f64 else if aop ≤ 5 then t.isL
        else aop == 6 && op == .atom)
    | .acas => atomic && aop == 0
    | _ => i == 0

/-- The first check of R64 to R65 and of the descriptions that a lane instruction fails. -/
def LaneOp.check (op : LaneOp) (f : LaneF) : Option Reject :=
  let (d, a, b, c) := op.slots f
  if !op.accepts f.ty then some .laneType
  else if (f.pred == 0 && f.neg) || (12 ≤ f.set.toNat && f.set.toNat ≤ 14) ||
      (f.dl != 0 && op != .ld && op != .atom && op != .acas) then some .control
  else if !(d.admits f.dst && a.admits f.a && b.admits f.b && c.admits f.c) then some .operand
  else if !op.immOk f then some .immediate
  else none

/-- Every lane register the instruction names, as first register and count, MMAS's metadata register included. -/
def LaneOp.registers (op : LaneOp) (f : LaneF) : List (Nat × Nat) :=
  let (d, a, b, c) := op.slots f
  [d.registers f.dst, a.registers f.a, b.registers f.b, c.registers f.c,
    if op == .mmas then some ((f.imm.extractLsb' 8 7).toNat, 1) else none].filterMap id

/-- R30: every register the instruction names lies in a window of `n` registers. -/
def LaneOp.inWindow (op : LaneOp) (f : LaneF) (n : Nat) : Bool := (op.registers f).all fun p => p.1 + p.2 ≤ n

/-! ### Scalar words -/

/-- Registers a tile command reads from sa on (R244). -/
def tileCount : Nat → Nat
  | 0 | 1 => 1
  | 2 | 3 | 5 | 9 | 11 => 3
  | 6 => 4
  | _ => 2

/-- A CSR number that csrr reads (R56). -/
def csrReadable (n : Nat) : Bool := n ≤ 6 || (8 ≤ n && n ≤ 0xB) || n == 0x10 || (0x20 ≤ n && n ≤ 0x3F)

/-- A CSR number that csrw accepts (R56). -/
def csrWritable (n : Nat) : Bool := n ≤ 2 || n == 0x10 || (0x20 ≤ n && n ≤ 0x3F)

/-- A check that a condition holds. -/
def need (c : Bool) (r : Reject) : Option Reject := if c then none else some r

/-- The check of R57 on a scalar word's fields, and of R61 to R65 on a lane instruction's, that fails first; none for
an instruction.  An event of the part has no fields to check. -/
def Instr.check : Instr → Option Reject
  | .mulhi _ _ _ _ z | .div _ _ _ _ z | .rem _ _ _ _ z | .min _ _ _ _ z | .max _ _ _ _ z | .slt _ _ _ _ z =>
    need (z != .n32) .size
  | .mulhin _ _ _ _ z | .divn _ _ _ _ z | .remn _ _ _ _ z | .minn _ _ _ _ z | .maxn _ _ _ _ z | .sltn _ _ _ _ z =>
    need (z != .i32) .size
  | .fence _ _ m _ => need (m != 0) .literal
  | .xfence _ _ ca _ cb => need (1 ≤ ca.toNat && ca.toNat ≤ 5 && 1 ≤ cb.toNat && cb.toNat ≤ 5 && ca != cb) .literal
  | .csrr _ _ n => need (csrReadable n.toNat) .csr
  | .csrw _ _ n => need (csrWritable n.toNat) .csr
  | .tlload _ _ a _ | .tlstore _ _ a _ | .tlcvt _ _ a _ => need (a.toNat + 2 ≤ 63) .tileRegisters
  | .tladd _ _ a _ _ | .tltrs _ _ a _ _ => need (a.toNat + 2 ≤ 63) .tileRegisters
  | .tlmul _ _ a _ _ => need (a.toNat + 3 ≤ 63) .tileRegisters
  | .tlfac _ _ a _ _ | .tlrnd _ _ a _ _ => need (a.toNat + 1 ≤ 63) .tileRegisters
  | .tllu _ _ a _ | .tlinv _ _ a _ | .tlnorm _ _ a _ => need (a.toNat + 1 ≤ 63) .tileRegisters
  | i => match i.lane? with
    | some (op, f) => op.check f
    | none => none

/-- A term of the syntax that is an instruction. -/
def Instr.wellFormed (i : Instr) : Bool := i.check.isNone

end Sys2Proof
end

