-- ==== Sys2Proof/Decode.lean ====
section
/-!
DEFINITION. Decoding 32-bit scalar words (R44 to R57) and 96-bit lane instructions (R58 to R66), total on any bits and
rejecting by name; the encoder from the same tables; and the opcode table's words as the host numbers them.
-/
namespace Sys2Proof

/-- A field of a scalar word: `n` bits from bit `lo` up. -/
def field (w : BitVec 32) (lo n : Nat) : BitVec n := w.extractLsb' lo n

/-- An instruction whose res0 bits (a condition) are zero, or the rejection. -/
def res0 (c : Bool) (i : Instr) : Except Reject Instr := if c then .ok i else .error .reserved

/-- The size code of the integer family (R48). -/
def Size.ofCode : BitVec 2 → Option Size
  | 0b00#2 => some .w64
  | 0b10#2 => some .i32
  | 0b11#2 => some .n32
  | _ => none

def Size.code : Size → BitVec 2
  | .w64 => 0b00
  | .i32 => 0b10
  | .n32 => 0b11

/-- The integer family, major 0x01 (R48). -/
def decodeInteger (w : BitVec 32) : Except Reject Instr :=
  let k := w.getLsbD 31
  let d := field w 19 6
  let a := field w 13 6
  let b := field w 7 6
  match Size.ofCode (field w 5 2) with
  | none => .error .size
  | some z =>
    match (field w 0 5).toNat with
    | 0x00 => .ok (.add k d a b z)
    | 0x01 => .ok (.sub k d a b z)
    | 0x02 => .ok (.mul k d a b z)
    | 0x03 => .ok (.mulhi k d a b z)
    | 0x04 => .ok (.mulhin k d a b z)
    | 0x05 => .ok (.div k d a b z)
    | 0x06 => .ok (.divn k d a b z)
    | 0x07 => .ok (.rem k d a b z)
    | 0x08 => .ok (.remn k d a b z)
    | 0x09 => .ok (.min k d a b z)
    | 0x0A => .ok (.max k d a b z)
    | 0x0B => .ok (.minn k d a b z)
    | 0x0C => .ok (.maxn k d a b z)
    | 0x0D => .ok (.and k d a b z)
    | 0x0E => .ok (.or k d a b z)
    | 0x0F => .ok (.xor k d a b z)
    | 0x10 => .ok (.andn k d a b z)
    | 0x11 => .ok (.shl k d a b z)
    | 0x12 => .ok (.shr k d a b z)
    | 0x13 => .ok (.sra k d a b z)
    | 0x14 => .ok (.slt k d a b z)
    | 0x15 => .ok (.sltn k d a b z)
    | 0x16 => .ok (.seq k d a b z)
    | 0x17 => res0 (b == 0) (.popc k d a z)
    | 0x18 => res0 (b == 0) (.clz k d a z)
    | 0x19 => res0 (b == 0) (.ctz k d a z)
    | _ => .error .function

/-- The branch family, major 0x10 (R50). -/
def decodeBranch (w : BitVec 32) : Except Reject Instr :=
  let k := w.getLsbD 31
  let a := field w 15 6
  let off := field w 0 15
  match (field w 21 4).toNat with
  | 0x0 => .ok (.beq k a off)
  | 0x1 => .ok (.bne k a off)
  | 0x2 => .ok (.blt k a off)
  | 0x3 => .ok (.bge k a off)
  | 0x4 => .ok (.bgt k a off)
  | 0x5 => .ok (.ble k a off)
  | 0x6 => res0 (a == 0) (.bra k off)
  | _ => .error .function

/-- The wait family, major 0x1A (R52). -/
def decodeWait (w : BitVec 32) : Except Reject Instr :=
  let k := w.getLsbD 31
  let d := field w 19 6
  let a := field w 13 6
  let dl := field w 11 2
  let b := field w 5 6
  match (field w 0 5).toNat with
  | 0x00 => res0 (b == 0) (.bwait k d a dl)
  | 0x01 => res0 (b == 0) (.bsync k d a dl)
  | 0x02 => .ok (.semacq k d a dl b)
  | 0x03 => .ok (.waddr k d a dl b)
  | 0x04 => res0 (b == 0) (.fence k d a dl)
  | 0x05 => .ok (.xfence k d a dl b)
  | 0x06 => res0 (a == 0 && b == 0) (.sysfence k d dl)
  | 0x07 => res0 (a == 0 && b == 0) (.sysfenceArray k d dl)
  | 0x08 => res0 (a == 0 && b == 0) (.fuse k d dl)
  | 0x09 => res0 (b == 0) (.twait k d a dl)
  | _ => .error .function

/-- WAITF's flag set: f0 to f5 in bits 18:13, f6 to f11 in bits 5:0 (R53). -/
def decodeFlags (w : BitVec 32) : BitVec 12 := field w 0 6 ++ field w 13 6

/-- The synchronisation, mask, deadline and system families, majors 0x1C, 0x1D, 0x1E and 0x3C (R51, R54). -/
def decodeSync (w : BitVec 32) : Except Reject Instr :=
  let k := w.getLsbD 31
  let d := field w 19 6
  let a := field w 13 6
  let b := field w 7 6
  match (field w 0 7).toNat with
  | 0x00 => res0 (d == 0 && b == 0) (.barr k a)
  | 0x01 => res0 (d == 0 && b == 0) (.bdrop k a)
  | 0x02 => res0 (d == 0) (.semrel k a b)
  | 0x03 => res0 (a == 0 && b == 0) (.split k d)
  | 0x04 => res0 (a == 0 && b == 0) (.width k d)
  | _ => .error .function

def decodeMask (w : BitVec 32) : Except Reject Instr :=
  let k := w.getLsbD 31
  let d := field w 19 6
  let a := field w 13 6
  let b := field w 7 6
  let pd := field w 19 3
  let pa := field w 13 3
  let pb := field w 7 3
  let dOk := field w 22 3 == 0
  let aOk := field w 16 3 == 0
  let bOk := field w 10 3 == 0
  match (field w 0 7).toNat with
  | 0x00 => res0 (dOk && b == 0) (.mset k pd a)
  | 0x01 => res0 (dOk && aOk && bOk) (.mand k pd pa pb)
  | 0x02 => res0 (dOk && aOk && bOk) (.mandn k pd pa pb)
  | 0x03 => res0 (dOk && aOk && bOk) (.mor k pd pa pb)
  | 0x04 => res0 (dOk && aOk && bOk) (.mxor k pd pa pb)
  | 0x05 => res0 (dOk && a == 0 && b == 0) (.mpop k pd)
  | 0x06 => res0 (d == 0 && a == 0 && b == 0) (.mjoin k)
  | 0x07 => res0 (aOk && b == 0) (.many k d pa)
  | 0x08 => res0 (aOk && b == 0) (.mall k d pa)
  | 0x09 => res0 (aOk && b == 0) (.mcount k d pa)
  | _ => .error .function

def decodeDeadline (w : BitVec 32) : Except Reject Instr :=
  let k := w.getLsbD 31
  let d := field w 19 6
  let a := field w 13 6
  let b := field w 7 6
  let dOk := field w 21 4 == 0
  match (field w 0 7).toNat with
  | 0x00 => res0 (dOk && b == 0) (.dlset k (field w 19 2) a)
  | 0x01 => res0 (dOk && b == 0) (.dladd k (field w 19 2) a)
  | 0x02 => if field w 14 5 == 0 then res0 (b == 0) (.dlnow k d (w.getLsbD 13)) else .error .literal
  | _ => .error .function

def decodeSystem (w : BitVec 32) : Except Reject Instr :=
  let k := w.getLsbD 31
  let d := field w 19 6
  let a := field w 13 6
  let b := field w 7 6
  match (field w 0 7).toNat with
  | 0x00 => res0 (d == 0 && b == 0) (.trap k a)
  | 0x01 => res0 (d == 0 && a == 0 && b == 0) (.rett k)
  | 0x02 => res0 (d == 0 && a == 0 && b == 0) (.yield k)
  | 0x03 => res0 (a == 0 && b == 0) (.rdclk k d)
  | 0x04 => res0 (a == 0 && b == 0) (.rdret k d)
  | _ => .error .function

/-- The engine and tile-command families, majors 0x2C and 0x2D (R52, R239). -/
def decodeEngine (w : BitVec 32) : Except Reject Instr :=
  let k := w.getLsbD 31
  let d := field w 19 6
  let a := field w 13 6
  let dl := field w 11 2
  let b := field w 5 6
  match (field w 0 5).toNat with
  | 0x00 => .ok (.cpyt k d a dl b)
  | 0x01 => .ok (.gath k d a dl b)
  | 0x02 => .ok (.scat k d a dl b)
  | 0x03 => .ok (.chain k d a dl b)
  | 0x04 => .ok (.cpyw k d a dl b)
  | 0x05 => .ok (.coll k d a dl b)
  | 0x06 => .ok (.launch k d a dl b)
  | _ => .error .function

def decodeTile (w : BitVec 32) : Except Reject Instr :=
  let k := w.getLsbD 31
  let d := field w 19 6
  let a := field w 13 6
  let dl := field w 11 2
  let b := field w 5 6
  match (field w 0 5).toNat with
  | 0x00 => .ok (.tlnew k d a dl b)
  | 0x01 => res0 (b == 0) (.tlfree k d a dl)
  | 0x02 => res0 (b == 0) (.tlload k d a dl)
  | 0x03 => res0 (b == 0) (.tlstore k d a dl)
  | 0x04 => .ok (.tlfac k d a dl b)
  | 0x05 => .ok (.tladd k d a dl b)
  | 0x06 => .ok (.tlmul k d a dl b)
  | 0x07 => res0 (b == 0) (.tllu k d a dl)
  | 0x08 => res0 (b == 0) (.tlinv k d a dl)
  | 0x09 => .ok (.tltrs k d a dl b)
  | 0x0A => .ok (.tlrnd k d a dl b)
  | 0x0B => res0 (b == 0) (.tlcvt k d a dl)
  | 0x0C => res0 (b == 0) (.tlnorm k d a dl)
  | _ => .error .function

/-- The instruction a scalar word's opcode and fields name, res0 fields checked (R44 to R57). -/
def decodeFields (w : BitVec 32) : Except Reject Instr :=
  let k := w.getLsbD 31
  let d := field w 19 6
  let a := field w 13 6
  let imm := field w 0 13
  let immL := field w 0 19
  let cnt := field w 0 6
  let cntOk := field w 6 7 == 0
  match (field w 25 6).toNat with
  | 0x01 => decodeInteger w
  | 0x02 => .ok (.addi k d a imm)
  | 0x03 => .ok (.andi k d a imm)
  | 0x04 => .ok (.ori k d a imm)
  | 0x05 => .ok (.xori k d a imm)
  | 0x06 => res0 cntOk (.shli k d a cnt)
  | 0x07 => res0 cntOk (.shri k d a cnt)
  | 0x08 => res0 cntOk (.srai k d a cnt)
  | 0x09 => .ok (.slti k d a imm)
  | 0x0A => .ok (.sltni k d a imm)
  | 0x0B => .ok (.muli k d a imm)
  | 0x0C => .ok (.lui k d immL)
  | 0x0D => .ok (.lpc k d immL)
  | 0x0E => .ok (.lcat k d immL)
  | 0x10 => decodeBranch w
  | 0x11 =>
    match (field w 21 4).toNat with
    | 0x0 => res0 (field w 18 3 == 0) (.mpush k (field w 15 3) (field w 0 15))
    | 0x1 => res0 (field w 18 3 == 0) (.mbrk k (field w 15 3) (field w 0 15))
    | _ => .error .function
  | 0x12 => .ok (.jmp k (field w 0 25))
  | 0x13 => .ok (.call k (field w 21 4) (field w 15 6) (field w 0 15))
  | 0x14 => res0 (field w 4 9 == 0) (.callr k d a (field w 0 4))
  | 0x15 => res0 (d == 0 && field w 4 9 == 0) (.ret k a (field w 0 4))
  | 0x16 => res0 (field w 0 25 == 0) (.exit k)
  | 0x18 => .ok (.lrun k d immL)
  | 0x1A => decodeWait w
  | 0x1B => res0 (field w 6 5 == 0) (.waitf k d (decodeFlags w) (field w 11 2))
  | 0x1C => decodeSync w
  | 0x1D => decodeMask w
  | 0x1E => decodeDeadline w
  | 0x20 => .ok (.sldI8 k d a imm)
  | 0x21 => .ok (.sldN8 k d a imm)
  | 0x22 => .ok (.sldI16 k d a imm)
  | 0x23 => .ok (.sldN16 k d a imm)
  | 0x24 => .ok (.sldI32 k d a imm)
  | 0x25 => .ok (.sldN32 k d a imm)
  | 0x26 => .ok (.sldN64 k d a imm)
  | 0x28 => .ok (.sstN8 k d a imm)
  | 0x29 => .ok (.sstN16 k d a imm)
  | 0x2A => .ok (.sstN32 k d a imm)
  | 0x2B => .ok (.sstN64 k d a imm)
  | 0x2C => decodeEngine w
  | 0x2D => decodeTile w
  | 0x2E =>
    match (field w 0 7).toNat with
    | 0x00 => res0 (a == 0 && field w 7 6 == 0) (.tbat k d)
    | 0x01 => res0 (field w 7 6 == 0) (.tlinfo k d a)
    | _ => .error .function
  | 0x30 => res0 (a == 0) (.csrr k d imm)
  | 0x31 => res0 (d == 0) (.csrw k a imm)
  | 0x32 => res0 (field w 7 6 == 0) (.xrd k d a (field w 0 7))
  | 0x33 => res0 (d == 0) (.xwr k a (field w 7 6) (field w 0 7))
  | 0x3C => decodeSystem w
  | _ => .error .major

/-- An instruction that passes its check, or the check's rejection. -/
def checked (i : Instr) : Except Reject Instr :=
  match i.check with
  | none => .ok i
  | some r => .error r

/-- Decode a scalar word: the instruction, or why it is ILLEGAL under R57. -/
def decodeScalar (w : BitVec 32) : Except Reject Instr := decodeFields w >>= checked

/-! ### Lane instructions -/

/-- The lane opcode with a number (R64). -/
def LaneOp.ofCode (n : Nat) : Option LaneOp :=
  match n with
  | 0x001 => some .add
  | 0x002 => some .sub
  | 0x003 => some .mul
  | 0x004 => some .mulhi
  | 0x005 => some .mad
  | 0x006 => some .fma
  | 0x007 => some .min
  | 0x008 => some .max
  | 0x009 => some .abs
  | 0x00A => some .neg
  | 0x00B => some .adds
  | 0x00C => some .subs
  | 0x010 => some .and
  | 0x011 => some .or
  | 0x012 => some .xor
  | 0x013 => some .andn
  | 0x014 => some .not
  | 0x015 => some .shl
  | 0x016 => some .shr
  | 0x017 => some .sra
  | 0x018 => some .popc
  | 0x019 => some .clz
  | 0x01A => some .brev
  | 0x040 => some .div
  | 0x041 => some .sqrt
  | 0x042 => some .rcp
  | 0x043 => some .rsqrt
  | 0x044 => some .exp2
  | 0x045 => some .log2
  | 0x046 => some .sin
  | 0x047 => some .cos
  | 0x048 => some .rint
  | 0x049 => some .conj
  | 0x04A => some .cmp
  | 0x04B => some .sel
  | 0x04C => some .mov
  | 0x04D => some .cvt
  | 0x080 => some .shfl
  | 0x081 => some .bcast
  | 0x082 => some .red
  | 0x083 => some .scan
  | 0x084 => some .matchOp
  | 0x085 => some .vote
  | 0x0C0 => some .mma
  | 0x0C1 => some .mmas
  | 0x0C2 => some .mmab
  | 0x100 => some .ld
  | 0x101 => some .st
  | 0x102 => some .atom
  | 0x103 => some .ared
  | 0x104 => some .acas
  | _ => none

/-- The number of a lane opcode (R64). -/
def LaneOp.code : LaneOp → BitVec 10
  | .add => 0x001
  | .sub => 0x002
  | .mul => 0x003
  | .mulhi => 0x004
  | .mad => 0x005
  | .fma => 0x006
  | .min => 0x007
  | .max => 0x008
  | .abs => 0x009
  | .neg => 0x00A
  | .adds => 0x00B
  | .subs => 0x00C
  | .and => 0x010
  | .or => 0x011
  | .xor => 0x012
  | .andn => 0x013
  | .not => 0x014
  | .shl => 0x015
  | .shr => 0x016
  | .sra => 0x017
  | .popc => 0x018
  | .clz => 0x019
  | .brev => 0x01A
  | .div => 0x040
  | .sqrt => 0x041
  | .rcp => 0x042
  | .rsqrt => 0x043
  | .exp2 => 0x044
  | .log2 => 0x045
  | .sin => 0x046
  | .cos => 0x047
  | .rint => 0x048
  | .conj => 0x049
  | .cmp => 0x04A
  | .sel => 0x04B
  | .mov => 0x04C
  | .cvt => 0x04D
  | .shfl => 0x080
  | .bcast => 0x081
  | .red => 0x082
  | .scan => 0x083
  | .matchOp => 0x084
  | .vote => 0x085
  | .mma => 0x0C0
  | .mmas => 0x0C1
  | .mmab => 0x0C2
  | .ld => 0x100
  | .st => 0x101
  | .atom => 0x102
  | .ared => 0x103
  | .acas => 0x104

/-- The fields of a lane instruction but its opcode, from the layout of R58. -/
def laneFields (w : BitVec 96) : LaneF :=
  { ty := Ty.ofCode (w.extractLsb' 82 4)
    dst := w.extractLsb' 74 8
    a := w.extractLsb' 66 8
    b := w.extractLsb' 58 8
    c := w.extractLsb' 50 8
    imm := w.extractLsb' 34 16
    pred := w.extractLsb' 31 3
    neg := w.getLsbD 30
    dl := w.extractLsb' 28 2
    hint := w.extractLsb' 24 4
    set := w.extractLsb' 20 4
    wait := w.extractLsb' 8 12
    gap := w.extractLsb' 5 3 }

/-- Decode a lane instruction: the instruction, or why it is ILLEGAL under R66 but for the window check of R30. -/
def decodeLane (w : BitVec 96) : Except Reject Instr :=
  match LaneOp.ofCode (w.extractLsb' 86 10).toNat with
  | none => .error .opcode
  | some op => if w.extractLsb' 0 5 == 0 then checked (op.instr (laneFields w)) else .error .control

/-! ### Encoding -/

/-- Format S3 (R45). -/
def encS3 (k : Bool) (major : BitVec 6) (d a b : BitVec 6) (fn : BitVec 7) : BitVec 32 :=
  BitVec.ofBool k ++ major ++ d ++ a ++ b ++ fn
/-- Format SI (R45). -/
def encSI (k : Bool) (major : BitVec 6) (d a : BitVec 6) (imm : BitVec 13) : BitVec 32 :=
  BitVec.ofBool k ++ major ++ d ++ a ++ imm
/-- Format SL (R45). -/
def encSL (k : Bool) (major : BitVec 6) (d : BitVec 6) (imm : BitVec 19) : BitVec 32 :=
  BitVec.ofBool k ++ major ++ d ++ imm
/-- Format SB (R45). -/
def encSB (k : Bool) (major : BitVec 6) (cond : BitVec 4) (a : BitVec 6) (off : BitVec 15) : BitVec 32 :=
  BitVec.ofBool k ++ major ++ cond ++ a ++ off
/-- Format SJ (R45). -/
def encSJ (k : Bool) (major : BitVec 6) (off : BitVec 25) : BitVec 32 := BitVec.ofBool k ++ major ++ off
/-- Format SW, its fn field divided as R52 states. -/
def encSW (k : Bool) (major : BitVec 6) (d a : BitVec 6) (dl : BitVec 2) (b : BitVec 6) (op : BitVec 5) : BitVec 32 :=
  BitVec.ofBool k ++ major ++ d ++ a ++ dl ++ b ++ op
/-- A word of the integer family (R48). -/
def encInt (k : Bool) (d a b : Reg) (z : Size) (op : BitVec 5) : BitVec 32 := encS3 k 0x01 d a b (z.code ++ op)
/-- A mask or deadline number in a six-bit register field (R46). -/
def low3 (n : BitVec 3) : BitVec 6 := n.setWidth 6
def low2 (n : BitVec 2) : BitVec 6 := n.setWidth 6

/-- The word of a scalar instruction; none for lane instructions and events. -/
def encodeScalar : Instr → Option (BitVec 32)
  | .add k d a b z => some (encInt k d a b z 0x00)
  | .sub k d a b z => some (encInt k d a b z 0x01)
  | .mul k d a b z => some (encInt k d a b z 0x02)
  | .mulhi k d a b z => some (encInt k d a b z 0x03)
  | .mulhin k d a b z => some (encInt k d a b z 0x04)
  | .div k d a b z => some (encInt k d a b z 0x05)
  | .divn k d a b z => some (encInt k d a b z 0x06)
  | .rem k d a b z => some (encInt k d a b z 0x07)
  | .remn k d a b z => some (encInt k d a b z 0x08)
  | .min k d a b z => some (encInt k d a b z 0x09)
  | .max k d a b z => some (encInt k d a b z 0x0A)
  | .minn k d a b z => some (encInt k d a b z 0x0B)
  | .maxn k d a b z => some (encInt k d a b z 0x0C)
  | .and k d a b z => some (encInt k d a b z 0x0D)
  | .or k d a b z => some (encInt k d a b z 0x0E)
  | .xor k d a b z => some (encInt k d a b z 0x0F)
  | .andn k d a b z => some (encInt k d a b z 0x10)
  | .shl k d a b z => some (encInt k d a b z 0x11)
  | .shr k d a b z => some (encInt k d a b z 0x12)
  | .sra k d a b z => some (encInt k d a b z 0x13)
  | .slt k d a b z => some (encInt k d a b z 0x14)
  | .sltn k d a b z => some (encInt k d a b z 0x15)
  | .seq k d a b z => some (encInt k d a b z 0x16)
  | .popc k d a z => some (encInt k d a 0 z 0x17)
  | .clz k d a z => some (encInt k d a 0 z 0x18)
  | .ctz k d a z => some (encInt k d a 0 z 0x19)
  | .addi k d a i => some (encSI k 0x02 d a i)
  | .andi k d a i => some (encSI k 0x03 d a i)
  | .ori k d a i => some (encSI k 0x04 d a i)
  | .xori k d a i => some (encSI k 0x05 d a i)
  | .shli k d a c => some (encSI k 0x06 d a (c.setWidth 13))
  | .shri k d a c => some (encSI k 0x07 d a (c.setWidth 13))
  | .srai k d a c => some (encSI k 0x08 d a (c.setWidth 13))
  | .slti k d a i => some (encSI k 0x09 d a i)
  | .sltni k d a i => some (encSI k 0x0A d a i)
  | .muli k d a i => some (encSI k 0x0B d a i)
  | .lui k d i => some (encSL k 0x0C d i)
  | .lpc k d i => some (encSL k 0x0D d i)
  | .lcat k d i => some (encSL k 0x0E d i)
  | .beq k a o => some (encSB k 0x10 0x0 a o)
  | .bne k a o => some (encSB k 0x10 0x1 a o)
  | .blt k a o => some (encSB k 0x10 0x2 a o)
  | .bge k a o => some (encSB k 0x10 0x3 a o)
  | .bgt k a o => some (encSB k 0x10 0x4 a o)
  | .ble k a o => some (encSB k 0x10 0x5 a o)
  | .bra k o => some (encSB k 0x10 0x6 0 o)
  | .mpush k p o => some (encSB k 0x11 0x0 (low3 p) o)
  | .mbrk k p o => some (encSB k 0x11 0x1 (low3 p) o)
  | .jmp k o => some (encSJ k 0x12 o)
  | .call k n a o => some (encSB k 0x13 n a o)
  | .callr k d a n => some (encSI k 0x14 d a (n.setWidth 13))
  | .ret k a n => some (encSI k 0x15 0 a (n.setWidth 13))
  | .exit k => some (encSJ k 0x16 0)
  | .lrun k d i => some (encSL k 0x18 d i)
  | .bwait k d a dl => some (encSW k 0x1A d a dl 0 0x00)
  | .bsync k d a dl => some (encSW k 0x1A d a dl 0 0x01)
  | .semacq k d a dl b => some (encSW k 0x1A d a dl b 0x02)
  | .waddr k d a dl b => some (encSW k 0x1A d a dl b 0x03)
  | .fence k d m dl => some (encSW k 0x1A d m dl 0 0x04)
  | .xfence k d a dl b => some (encSW k 0x1A d a dl b 0x05)
  | .sysfence k d dl => some (encSW k 0x1A d 0 dl 0 0x06)
  | .sysfenceArray k d dl => some (encSW k 0x1A d 0 dl 0 0x07)
  | .fuse k d dl => some (encSW k 0x1A d 0 dl 0 0x08)
  | .twait k d a dl => some (encSW k 0x1A d a dl 0 0x09)
  | .waitf k d f dl => some (BitVec.ofBool k ++ 0x1B#6 ++ d ++ f.extractLsb' 0 6 ++ dl ++ 0#5 ++ f.extractLsb' 6 6)
  | .barr k a => some (encS3 k 0x1C 0 a 0 0x00)
  | .bdrop k a => some (encS3 k 0x1C 0 a 0 0x01)
  | .semrel k a b => some (encS3 k 0x1C 0 a b 0x02)
  | .split k d => some (encS3 k 0x1C d 0 0 0x03)
  | .width k d => some (encS3 k 0x1C d 0 0 0x04)
  | .mset k d a => some (encS3 k 0x1D (low3 d) a 0 0x00)
  | .mand k d a b => some (encS3 k 0x1D (low3 d) (low3 a) (low3 b) 0x01)
  | .mandn k d a b => some (encS3 k 0x1D (low3 d) (low3 a) (low3 b) 0x02)
  | .mor k d a b => some (encS3 k 0x1D (low3 d) (low3 a) (low3 b) 0x03)
  | .mxor k d a b => some (encS3 k 0x1D (low3 d) (low3 a) (low3 b) 0x04)
  | .mpop k d => some (encS3 k 0x1D (low3 d) 0 0 0x05)
  | .mjoin k => some (encS3 k 0x1D 0 0 0 0x06)
  | .many k d a => some (encS3 k 0x1D d (low3 a) 0 0x07)
  | .mall k d a => some (encS3 k 0x1D d (low3 a) 0 0x08)
  | .mcount k d a => some (encS3 k 0x1D d (low3 a) 0 0x09)
  | .dlset k d a => some (encS3 k 0x1E (low2 d) a 0 0x00)
  | .dladd k d a => some (encS3 k 0x1E (low2 d) a 0 0x01)
  | .dlnow k d base => some (encS3 k 0x1E d ((BitVec.ofBool base).setWidth 6) 0 0x02)
  | .sldI8 k d a i => some (encSI k 0x20 d a i)
  | .sldN8 k d a i => some (encSI k 0x21 d a i)
  | .sldI16 k d a i => some (encSI k 0x22 d a i)
  | .sldN16 k d a i => some (encSI k 0x23 d a i)
  | .sldI32 k d a i => some (encSI k 0x24 d a i)
  | .sldN32 k d a i => some (encSI k 0x25 d a i)
  | .sldN64 k d a i => some (encSI k 0x26 d a i)
  | .sstN8 k d a i => some (encSI k 0x28 d a i)
  | .sstN16 k d a i => some (encSI k 0x29 d a i)
  | .sstN32 k d a i => some (encSI k 0x2A d a i)
  | .sstN64 k d a i => some (encSI k 0x2B d a i)
  | .cpyt k d a dl b => some (encSW k 0x2C d a dl b 0x00)
  | .gath k d a dl b => some (encSW k 0x2C d a dl b 0x01)
  | .scat k d a dl b => some (encSW k 0x2C d a dl b 0x02)
  | .chain k d a dl b => some (encSW k 0x2C d a dl b 0x03)
  | .cpyw k d a dl b => some (encSW k 0x2C d a dl b 0x04)
  | .coll k d a dl b => some (encSW k 0x2C d a dl b 0x05)
  | .launch k d a dl b => some (encSW k 0x2C d a dl b 0x06)
  | .tlnew k d a dl b => some (encSW k 0x2D d a dl b 0x00)
  | .tlfree k d a dl => some (encSW k 0x2D d a dl 0 0x01)
  | .tlload k d a dl => some (encSW k 0x2D d a dl 0 0x02)
  | .tlstore k d a dl => some (encSW k 0x2D d a dl 0 0x03)
  | .tlfac k d a dl b => some (encSW k 0x2D d a dl b 0x04)
  | .tladd k d a dl b => some (encSW k 0x2D d a dl b 0x05)
  | .tlmul k d a dl b => some (encSW k 0x2D d a dl b 0x06)
  | .tllu k d a dl => some (encSW k 0x2D d a dl 0 0x07)
  | .tlinv k d a dl => some (encSW k 0x2D d a dl 0 0x08)
  | .tltrs k d a dl b => some (encSW k 0x2D d a dl b 0x09)
  | .tlrnd k d a dl b => some (encSW k 0x2D d a dl b 0x0A)
  | .tlcvt k d a dl => some (encSW k 0x2D d a dl 0 0x0B)
  | .tlnorm k d a dl => some (encSW k 0x2D d a dl 0 0x0C)
  | .tbat k d => some (encS3 k 0x2E d 0 0 0x00)
  | .tlinfo k d a => some (encS3 k 0x2E d a 0 0x01)
  | .csrr k d n => some (encSI k 0x30 d 0 n)
  | .csrw k a n => some (encSI k 0x31 0 a n)
  | .xrd k d a n => some (encS3 k 0x32 d a 0 n)
  | .xwr k a b n => some (encS3 k 0x33 0 a b n)
  | .trap k a => some (encS3 k 0x3C 0 a 0 0x00)
  | .rett k => some (encS3 k 0x3C 0 0 0 0x01)
  | .yield k => some (encS3 k 0x3C 0 0 0 0x02)
  | .rdclk k d => some (encS3 k 0x3C d 0 0 0x03)
  | .rdret k d => some (encS3 k 0x3C d 0 0 0x04)
  | _ => none

/-- The 96 bits of a lane instruction (R58). -/
def encodeFields (op : LaneOp) (f : LaneF) : BitVec 96 :=
  op.code ++ f.ty.code ++ f.dst ++ f.a ++ f.b ++ f.c ++ f.imm ++ f.pred ++ BitVec.ofBool f.neg ++ f.dl ++ f.hint ++
    f.set ++ f.wait ++ f.gap ++ 0#5

/-- The bits of a lane instruction; none for scalar words and events. -/
def encodeLane (i : Instr) : Option (BitVec 96) := i.lane?.map fun p => encodeFields p.1 p.2

/-- The bytes of a word, lowest address first (R18). -/
def bytesOf (n w : Nat) : List Byte := (List.range n).map fun i => BitVec.ofNat 8 (w >>> (8 * i))

/-- The number that bytes at rising addresses hold (R18). -/
def natOf : List Byte → Nat
  | [] => 0
  | x :: xs => x.toNat + 256 * natOf xs

/-- The words of a well-formed instruction as bytes in memory: four for a scalar word, twelve for a lane instruction,
none for an event. -/
def encode (i : Instr) : List Byte :=
  match encodeScalar i, encodeLane i with
  | some w, _ => bytesOf 4 w.toNat
  | none, some w => bytesOf 12 w.toNat
  | none, none => []

/-- Decode the instruction at the head of a scalar section's bytes. -/
def decodeScalarBytes (bs : List Byte) : Except Reject Instr := decodeScalar (BitVec.ofNat 32 (natOf (bs.take 4)))

/-- Decode the lane instruction at the head of a lane section's bytes. -/
def decodeLaneBytes (bs : List Byte) : Except Reject Instr := decodeLane (BitVec.ofNat 96 (natOf (bs.take 12)))

/-- What the decoder reads from an instruction of the opcode table: a row of 32 bits or fewer is a scalar word; a wider
one is a lane instruction. -/
def decodeTableWord (nbits w : Nat) : Option Instr :=
  if nbits ≤ 32 then (decodeScalarBytes (bytesOf 4 w)).toOption else (decodeLaneBytes (bytesOf 12 w)).toOption

end Sys2Proof
end

