-- ==== Sys2Proof/Machine/Cipher.lean ====
section
/-!
DEFINITION. AES-256-XTS with a data unit of 64 bytes, as the memory controllers use it (R335).  The manual names the cipher and
does not restate it: the text follows the published standards (log 13).
-/
namespace Sys2Proof.Machine

/-! ### The field of the cipher -/

def fieldDouble (b : Byte) : Byte := (b <<< 1) ^^^ (if b.getLsbD 7 then 0x1B else 0)

/-- The product of two bytes; `n` bits of `a` are left to take. -/
def fieldMul : (n : Nat) → Byte → Byte → Byte
  | 0, _, _ => 0
  | n + 1, a, b => (if a.getLsbD 0 then b else 0) ^^^ fieldMul n (a >>> 1) (fieldDouble b)

/-- `a` to the power `2 ^ n - 2` for `n = 8`: the inverse, 0 for 0. -/
def fieldInverse : (n : Nat) → Byte → Byte
  | 0, _ => 1
  | n + 1, a =>
    let q := fieldMul 8 a a
    if n = 0 then 1 else fieldMul 8 q (fieldInverse n q)

def substitute (a : Byte) : Byte :=
  let b := fieldInverse 8 a
  b ^^^ b.rotateLeft 1 ^^^ b.rotateLeft 2 ^^^ b.rotateLeft 3 ^^^ b.rotateLeft 4 ^^^ 0x63

def unsubstitute (a : Byte) : Byte :=
  fieldInverse 8 (a.rotateLeft 1 ^^^ a.rotateLeft 3 ^^^ a.rotateLeft 6 ^^^ 0x05)

/-! ### Rounds -/

def xorBytes (a b : List Byte) : List Byte := List.zipWith (fun x y => x ^^^ y) a b

/-- Byte `i` of a list, 0 beyond its end. -/
def byteOf (l : List Byte) (i : Nat) : Byte := (l[i]?).getD 0

def shiftRows (l : List Byte) : List Byte := (List.range 16).map fun i => byteOf l (i % 4 + 4 * ((i / 4 + i % 4) % 4))
def unshiftRows (l : List Byte) : List Byte := (List.range 16).map fun i => byteOf l (i % 4 + 4 * ((i / 4 + 4 - i % 4) % 4))

/-- Every column multiplied by the circulant of four coefficients. -/
def mixColumns (coef : List Byte) (l : List Byte) : List Byte :=
  (List.range 16).map fun i => (List.range 4).foldl (fun a k =>
    a ^^^ fieldMul 8 (byteOf coef ((k + 4 - i % 4) % 4)) (byteOf l (4 * (i / 4) + k))) 0

/-- The four-byte words of the key schedule from word `i` on, with the eight before it, the latest first. -/
def scheduleFrom : (n i : Nat) → Byte → List (List Byte) → List (List Byte)
  | 0, _, _, ws => ws
  | n + 1, i, rcon, ws =>
    let last := ws.headD []
    let t :=
      if i % 8 = 0 then xorBytes ((last.drop 1 ++ last.take 1).map substitute) [rcon, 0, 0, 0]
      else if i % 8 = 4 then last.map substitute
      else last
    scheduleFrom n (i + 1) (if i % 8 = 0 then fieldDouble rcon else rcon) (xorBytes ((ws[7]?).getD []) t :: ws)

/-- The fifteen round keys of a 32-byte key. -/
def roundKeys (key : List Byte) : List (List Byte) :=
  let words := ((List.range 8).map fun i => (key.drop (4 * i)).take 4).reverse
  let all := (scheduleFrom 52 8 1 words).reverse.flatten
  (List.range 15).map fun r => (all.drop (16 * r)).take 16

def aesEncrypt (rks : List (List Byte)) (block : List Byte) : List Byte :=
  let body := (List.range 13).foldl (fun st r =>
    xorBytes (mixColumns [2, 3, 1, 1] (shiftRows (st.map substitute))) ((rks[r + 1]?).getD [])) (xorBytes block (rks.headD []))
  xorBytes (shiftRows (body.map substitute)) ((rks[14]?).getD [])

def aesDecrypt (rks : List (List Byte)) (block : List Byte) : List Byte :=
  let first := (unshiftRows (xorBytes block ((rks[14]?).getD []))).map unsubstitute
  let body := (List.range 13).foldl (fun st r =>
    (unshiftRows (mixColumns [14, 11, 13, 9] (xorBytes st ((rks[13 - r]?).getD [])))).map unsubstitute) first
  xorBytes body (rks.headD [])

/-! ### XTS -/

/-- The `n` low bytes of a number, the least significant first. -/
def lowBytes : (n v : Nat) → List Byte
  | 0, _ => []
  | n + 1, v => BitVec.ofNat 8 v :: lowBytes n (v / 256)

/-- The tweak of the next block: the number doubled in the field of 2^128. -/
def nextTweak (t : List Byte) : List Byte :=
  (List.range 16).map fun i =>
    let carry : Byte := if i = 0 then (if (byteOf t 15).getLsbD 7 then 0x87 else 0) else byteOf t (i - 1) >>> (7 : Nat)
    (byteOf t i <<< (1 : Nat)) ^^^ carry

/-- `n` blocks of a data unit through a block function. -/
def xtsBlocks (f : List Byte → List Byte) : (n : Nat) → (tweak : List Byte) → List Byte → List Byte
  | 0, _, _ => []
  | n + 1, t, bs => xorBytes (f (xorBytes (bs.take 16) t)) t ++ xtsBlocks f n (nextTweak t) (bs.drop 16)

/-- The first tweak of a sector: its number under the second key of the pair. -/
def firstTweak (keys : BitVec 512) (sector : Nat) : List Byte :=
  aesEncrypt (roundKeys ((lowBytes 64 keys.toNat).drop 32)) (lowBytes 16 sector)

/-- A 64-byte sector encrypted under a pair of keys, the data key in the low 256 bits. -/
def xtsEncrypt (keys : BitVec 512) (sector : Nat) (bs : List Byte) : List Byte :=
  xtsBlocks (aesEncrypt (roundKeys ((lowBytes 64 keys.toNat).take 32))) 4 (firstTweak keys sector) bs

def xtsDecrypt (keys : BitVec 512) (sector : Nat) (bs : List Byte) : List Byte :=
  xtsBlocks (aesDecrypt (roundKeys ((lowBytes 64 keys.toNat).take 32))) 4 (firstTweak keys sector) bs

end Sys2Proof.Machine
end

