-- ==== Sys2Proof/Machine/State.lean ====
section
/-!
DEFINITION. The state of a part as plain data: parties, groups, launches, contexts, engines, memory, the host's and the
domain's registers; why a step stops; and the state right after power-on.
-/
namespace Sys2Proof.Machine

/-- Why the machine stops with a fault. -/
inductive Fault where
  /-- Raised by `step` alone: the party in focus runs but no launch of its number exists, a state no run reaches.
  Safe: the machine stops where the hardware has no such state. -/
  | noLaunch
  deriving DecidableEq, Repr

/-- Why the machine refuses. -/
inductive Refusal where
  /-- Raised by an arm of `exec` whose instruction has no meaning yet, by its mnemonic.  Safe: nothing runs. -/
  | notModelled (mnemonic : String)
  deriving DecidableEq, Repr

/-- A finite table with natural keys in rising order; an unlisted key has the table's default. -/
abbrev Table (α : Type) := List (Nat × α)

/-- The trap causes of R149. -/
inductive Cause where
  | illegal | stack | soft | stuck | permission | translation | windowSplit | alignment | poison | arith | double
  deriving DecidableEq, Repr

/-- Why an access is denied. -/
structure Deny where
  cause : Cause
  extent : Bool := false
  keyFault : Bool := false
  malformed : Bool := false
  deriving DecidableEq, Repr

/-- Where a byte lives: domain physical memory under a key slot, as a page of a home policy names it (R321), or the scratchpad of
a placed group. -/
inductive Place where
  | phys (pa key : Nat) (home : Nat := 0)
  | spad (launch group off : Nat)
  deriving DecidableEq, Repr

/-- An effective deadline as captured at issue (R37). -/
structure Deadline where
  party : Bool         -- the base
  ticks : Nat
  ceiling : Bool       -- it is t0 + c, strictly before the named deadline
  poll : Bool
  esc : Bool
  sel : BitVec 2
  deriving DecidableEq, Repr

/-- A cause with what a trap record and an event say of it (R153, R154, R356). -/
structure Trap where
  cause : Cause
  src : Nat            -- 0 scalar, 1 lane, 2 fetch, 3 spill, fill or token copy
  boff : Nat
  pc : Word
  resume : Word
  addr : Word
  offerAddr : Word     -- the address that an offer names: of the lanes that are offered first (R166)
  code : Word
  done : Mask
  causes : BitVec 4096 -- the cause vector, one nibble a lane
  extent : Bool
  keyFault : Bool
  malformed : Bool
  lane : Bool          -- the lane stream raised it
  ofRecord : Bool      -- it is the write of a trap record that is denied (R345)
  dest : Option Reg    -- the register that receives the status of the instruction, if it has one (R39)
  wait : Option Deadline -- of the wait whose access it is
  deriving DecidableEq, Repr

/-- A reconvergence token (R98). -/
structure Token where
  isBreak : Bool
  addr : Word
  image : Mask
  deriving DecidableEq, Repr

/-- A lane block in the queue with the snapshot its LRUN took (R33, R34, R81); `order` numbers the party's LRUNs. -/
structure Block where
  first : Nat
  len : Nat
  lrun : Word
  s : Vector Word 64
  p : Vector Mask 8
  dl : Vector Word 4
  rnd : Word
  nvr : Word
  order : Nat
  unseen : List (Nat × Nat) := [] -- the lane writers of masks, by origin, that its snapshot may lack (R34)
  deriving DecidableEq, Repr

/-- How one lane of a memory instruction ended (R182); `remote` is still outstanding at an absent part (R183, R328). -/
inductive LaneEnd where
  | ok | timeout | fault (c : Cause) | poison | remote
  deriving DecidableEq, Repr

/-- An issued lane memory instruction not yet complete (R194), with the ends of its active lanes in lane order. -/
structure InFlight where
  op : LaneOp
  f : LaneF
  order : Nat
  boff : Nat
  lrun : Word
  ends : List (Nat × LaneEnd)
  deadline : Deadline
  anyRemote : Bool
  late : Mask                    -- the lanes that ended TIMEOUT before a reissue
  remotes : Table Word           -- addresses of the lanes still outstanding at an absent part
  issuedAt : Nat                 -- the tick of its issue, from which the access bound counts (R328)
  denied : List (Nat × Deny × Word) -- the causes of its other lanes, while such lanes are outstanding
  lsWritten : List Nat -- data words of ls, and 32 for st, that the scalar stream wrote meanwhile (R34)
  deriving DecidableEq, Repr

/-- The head lane instruction that has begun or raised a cause: its operation, fields and effective mask, which it keeps, and what
its earlier issues had to do with other parts, which counts with the rest of it as one wait (R67, R122, R183). -/
structure HeadOp where
  op : LaneOp
  f : LaneF
  mask : Mask
  anyRemote : Bool
  late : Mask
  deadline : Deadline
  deriving DecidableEq, Repr

/-- The spill, fill or token copy that a SPLIT or a FUSE left to a party and that met a fault: the instruction it is reported
against, and for a FUSE the upper party's first position and resident base (R104, R108). -/
structure Copying where
  pc : Word
  join : Option (Nat × Nat)
  deriving DecidableEq, Repr

/-- A lane write of a mask register that the scalar stream may not see yet: the register before it, the lanes written with
their bits, its set-flag, its LRUN's number and its block offset (R34).  After a scalar write no lanes are left. -/
structure LooseMask where
  reg : Nat
  old : Mask
  lanes : Mask
  value : Mask
  flag : Option Nat
  order : Nat
  boff : Nat
  deriving DecidableEq, Repr

/-- What a handler entered for a scalar access needs of the instruction: where its status goes, and its deadline where it
is a wait. -/
structure Faulted where
  dest : Option Reg
  wait : Option Deadline
  deriving DecidableEq, Repr

/-- A lane instruction's register and mask writes that a later reader may not see yet (R195, R122). -/
structure Recent where
  origin : Nat × Nat             -- the LRUN's number and the block offset
  regs : List (Nat × BitVec 32)  -- keys of the written lane registers with their values before
  mask : Option (Nat × Mask × Mask) -- a written mask register: its number, the lanes written, their new bits
  flag : Option Nat
  distance : Option Nat
  gap : Nat
  complete : Option Nat          -- the LRUNs executed when it completed
  deriving DecidableEq, Repr

/-- A fault that system software is to answer (R151): what is offered, and its ticket once it has one. -/
structure Offer where
  trap : Trap
  ticket : Option Nat
  deriving DecidableEq, Repr

/-- A leaf or cluster-leaf barrier record (R199). -/
structure Barrier where
  member : BitVec 128
  arrived : BitVec 128
  phase : BitVec 16
  eexp : Nat
  earr : Nat
  deriving DecidableEq, Repr

/-- A root record (R291). -/
structure Root where
  member : BitVec 8
  arrived : BitVec 8
  phase : BitVec 16
  deriving DecidableEq, Repr

/-- Physical bytes registered as the backing of part of a resident group's scratchpad (R284). -/
structure Backing where
  base : Nat
  off : Nat
  len : Nat
  key : Nat                      -- the key slot of their page
  deriving DecidableEq, Repr

/-- A placed group of a launch; its barrier records and scratchpad while it is resident. -/
structure Group where
  launch : Nat
  number : Nat
  core : Nat
  spad : List Host.Cell          -- unlisted bytes read 0 (R169)
  bad : List Nat                 -- poisoned 4-byte units (R338)
  lost : List Nat                -- 4-byte units whose backing could not be read (R299, R338)
  leaf : List Barrier
  cleaf : List Barrier
  backing : List Backing
  ended : Bool
  deriving DecidableEq, Repr

/-- The context as the part has latched it for a launch (R354). -/
structure Space where
  ctx : Nat
  asid : Nat
  fn : Nat
  root : Word
  keyMask : BitVec 256
  dlceil : Nat
  xlim : Nat
  deriving DecidableEq, Repr

/-- A pool descriptor (R231). -/
structure Pool where
  base : Word
  nchunks : Nat
  state : Word
  deriving DecidableEq, Repr

/-- The launch header with its extension (R344). -/
structure Header where
  scalar : Word
  lane : Word
  handler : Word
  data : Word
  wdef : Word
  width : Nat                    -- W0
  parties : Nat
  depth : Nat                    -- D
  local_ : Nat
  private_ : Nat
  groups : Nat
  laneLen : Nat
  arena : Word
  brec : Word
  layout : Word
  ceiling : Nat
  done : Word
  doneval : Word
  prio : Nat
  nvr : Word
  replay : Bool
  brecs : Nat
  layouts : Nat
  pools : List Pool
  after : List (Word × Word)
  deriving DecidableEq, Repr

/-- A launch that the front end has taken and that has not ended (R347 to R352). -/
structure Launch where
  id : Nat
  queue : Nat
  space : Space
  header : Header
  met : List Bool                -- its dependence entries
  time : Nat                     -- the logical time that its parties come after: of its header and of its dependences' words
  placed : Nat                   -- groups placed
  clusters : Table Nat           -- hardware cluster of each logical cluster placed so far, one entry each
  since : Nat                    -- the last tick at which its next group did not wait at the head (R351)
  aged : Bool
  targets : List (Nat × List Nat)  -- core and quads assigned to its next group, or to every group of a replay launch
  roots : Table (List Root)      -- root records by logical cluster
  turn : Nat                     -- replay: the pid whose turn it is
  turnUsed : Bool                -- replay: its instruction has executed
  turnCmds : List Nat            -- replay: commands and tasks that instruction issued
  gather : Bool                  -- replay: the turn after which its parties are evicted together has ended (R361)
  deriving DecidableEq, Repr

/-- A context's place in the protocol of R354 to R359: its state is 2 from the start of a Suspend, though the state word of its
record is 2 only once the Suspend is complete (log 76). -/
structure Context where
  index : Nat
  state : Nat
  cmd : Option Nat               -- the pending command (R357)
  seen : Nat × Word              -- its record, and the command word there as the part found it last
  begun : Bool                   -- a Suspend that waits for its parties (R358)
  deriving DecidableEq, Repr

/-- A layout record (R214). -/
structure Layout where
  rows : Nat
  cols : Nat
  pitch : Nat
  elem : Nat
  trans : Bool
  deriving DecidableEq, Repr

/-- A sparse header (R219). -/
structure Sparse where
  ptr : Word
  idx : Word
  val : Word
  nmaj : Nat
  nmin : Nat
  elem : Nat
  csc : Bool
  deriving DecidableEq, Repr

/-- A Siphon command in a core's queue (R212 to R221), or CPYW's copy. -/
structure Command where
  id : Nat
  core : Nat
  launch : Nat
  group : Nat
  pid : Nat                      -- the party that issued it
  owners : List Nat              -- the parties whose fences cover it (R35, R305)
  replay : Bool                  -- its launch runs in replay mode (R353)
  kind : Nat                     -- 0 CPYT, 1 GATH, 2 SCAT, 3 gate
  src : Word
  dst : Word
  aux : Word
  count : Nat
  slay : Layout
  dlay : Layout
  sparse : Option Sparse
  rbar : Option Nat
  rows : Nat
  cwaddr : Word
  cwval : Word
  semaddr : Word
  batch : Nat                    -- the batch a gate holds
  desc : Word                    -- its descriptor's address
  time : Nat                     -- its logical time (R318)
  progress : Nat                 -- rows already moved
  held : List Nat                -- the indices that it read before its first write
  stage : Nat                    -- how many of the reads of a sparse window are planned: ptr, idx, val, dense elements (R219)
  loads : List (Word × Nat)      -- read events left of the row, or of what comes before it: addresses and bytes (R301)
  got : List (Byte × Bool)       -- bytes read and not yet written, with poison
  stores : List (Word × Nat)     -- write events left of the row, or of a sparse window
  rowOpen : Bool                 -- a row, or the writes of a sparse window, are in progress
  pred : Option Nat              -- chained after this command
  executed : Bool
  failed : Option Nat            -- the cause code its completion word carries
  offer : Option Offer
  deriving DecidableEq, Repr

/-- A tile's content as bit patterns of its parts, column-major (R227, R230). -/
inductive TileVal where
  | zero
  | dense (e : List Nat)
  | low (rank : Nat) (u v : List Nat)
  deriving DecidableEq, Repr

/-- A tile header as a task reads it (R228). -/
structure TileHead where
  kind : Nat
  fmt : Nat
  shape : Nat
  rank : Nat
  cls : Nat
  pool : Nat
  gen : Nat
  block : Word
  deriving DecidableEq, Repr

/-- How far a tile task has come (R242, R243, R257). -/
inductive TaskStage where
  | queued
  | flow (u v : List Nat)        -- before Flowstone: the binary64 factors
  | result (v : TileVal) (u w : List Nat) (st : Word) -- the destination's content, with the factors R276 takes again
  | image (size : Nat) (ws : List (Nat × Nat)) -- TLSTORE, TLNORM: the values still to write, by address
  | commit (size : Nat) (ws : List (Nat × Nat)) (head : Option TileHead) (freed : Option (Word × Nat)) (st : Word)
      (old : List (Nat × Place × Nat))
    -- a tile's storage still to write, its header while it is not written, the block to free with its class, the status, and
    -- what stood in storage that it overwrites
  | ended (st : Word)            -- failed, or nothing left to do
  deriving DecidableEq, Repr

/-- A tile task (R256). -/
structure Task where
  id : Nat
  seq : Nat                      -- its place in the acceptance order of its cluster
  time : Nat                     -- its logical time (R318)
  core : Nat
  quad : Nat
  slot : Nat
  launch : Nat
  group : Nat
  first : Nat                    -- the first position of its party, whose private window it would name
  pid : Nat
  owners : List Nat              -- parties whose fences cover it
  replay : Bool
  members : List Nat             -- parties whose batch counts it (R261)
  op : Nat
  nvr : Nat
  batch : Nat
  vals : List Word
  ctl : Word
  started : Bool
  engine : Nat                   -- the engine that took it (R257), 4 core + e
  released : Bool                -- its engine is free of it: a Flowstone unit has taken its factors
  unit : Option Nat              -- the Flowstone unit of its cluster that holds it (R257, R277)
  head : Option TileHead         -- its destination's header as it read it
  fmt : Nat                      -- the result's format and shape
  shape : Nat
  stage : TaskStage
  offer : Option Offer
  log : List (Byte × Bool) := []  -- what it has read so far, with poison, while other agents act between its reads
  parts : Bool := false           -- its reads are made one by one
  deriving DecidableEq, Repr

/-- A Cavern node set to retiring, and the tasks that had started before the free (R234). -/
structure Retiring where
  launch : Nat
  space : Space
  state : Word                   -- address of the chunk's state
  node : Nat
  block : Word                   -- its address
  tasks : List Nat
  deriving DecidableEq, Repr

/-- A collective operation of a member (R370 to R373). -/
structure Collective where
  id : Nat
  time : Nat                     -- its logical time (R318)
  die : Nat
  launch : Nat
  group : Nat                    -- of the party that issued it, whose windows its addresses name (R164)
  pid : Nat
  owners : List Nat
  replay : Bool
  src : Word
  dst : Word
  members : List Nat
  kind : Nat
  ty : Ty
  op : Nat
  count : Nat
  tag : Nat
  timeout : Nat
  cwaddr : Word
  cwval : Word
  instance_ : Nat
  acceptedAt : Nat
  desc : Word                    -- its descriptor's address
  failed : Option Nat            -- the code its completion word will carry (R373)
  allJoined : Bool               -- every member has joined with a matching descriptor
  got : List (Byte × Bool) := []  -- what it has read of src so far, with poison, while other agents act between its reads
  plan : Option (List (Word × List Byte)) -- the elements of dst still to write, once its sources are combined
  finished : Bool                -- only the completion word is left to write
  offer : Option Offer
  deriving DecidableEq, Repr

/-- Work that waits to be accepted (R216, R241, R370). -/
inductive Work where
  | none
  | commands (l : List Command)
  | task (t : Task)
  | collective (c : Collective)
  deriving DecidableEq, Repr

/-- The waits of the scalar stream: `waitf`, and those of the kinds 1 to 11 of R288. -/
inductive WaitKind where
  | waitf | barrier | semacq | waddr | fence | xfence | sysfence | sysfenceArray | fuse | twait | accept | cpyw
  deriving DecidableEq, Repr

/-- A ring slot that CPYW or LAUNCH has claimed: its address, the sequence value to write, its payload's size, whether the
payload is copied, and how many bytes of it are while other agents act between its events (R222, R301). -/
structure RingSlot where
  at_ : Word
  seq : Word
  size : Nat
  copied : Bool
  moved : Nat := 0
  deriving DecidableEq, Repr

/-- A wait in progress (R37, R288). -/
structure Wait where
  kind : WaitKind
  instr : Instr
  dest : Reg
  deadline : Deadline
  w1 : Word
  w2 : Word
  order : Nat          -- LRUNs executed before it (R96, R211)
  seq : Nat            -- its place in the request order, or the commands issued before it
  met : Bool           -- the condition has been met (R209, R292)
  decided : Option Word -- the st value that its deadline, or another party, fixed
  work : Work           -- what an acceptance is to enqueue (R216, R241)
  claim : Option RingSlot
  restored : Bool := false -- replay: its first test since a restore is still to come, in its party's turn (R299, R352)
  deriving DecidableEq, Repr

inductive Life where
  | absent | running | halted | exited
  deriving DecidableEq, Repr

/-- A lane instruction whose events lie apart (R190, R301): what it has read of its record, the lanes of LD and ST that are done,
with the registers to write, and the causes of the denied, the 16-byte elements whose first event is done, by lane, with what
it read, and the scratchpad rows of MMA and MMAS read so far, eight bytes each. -/
structure LanePart where
  record : Option (List Byte)
  entries : Table (BitVec 32)
  ends : List (Nat × LaneEnd)
  denied : List (Nat × Deny × Word)
  halves : Table (Place × Nat)
  rows : Table Nat
  deriving DecidableEq, Repr

/-- A party (R33) with the instructions it has in flight. -/
structure Party where
  pid : Nat
  launch : Nat
  group : Nat
  core : Nat
  quad : Nat
  slot : Nat
  first : Nat                    -- a, its first group position (R24)
  width : Nat
  life : Life
  stopped : Bool                 -- by STUCK (R160)
  evicted : Bool
  evictedAt : Nat
  hmode : Bool
  handlingLane : Bool            -- the head lane instruction awaits RETT (R289)
  pc : Word
  lastPc : Word                  -- the instruction that led to the word at pc (R153)
  retired : Word
  s : Vector Word 64
  p : Vector Mask 8
  ls : Mask
  dl : Vector Word 4
  ptime : Word
  st : Word
  rnd : Word
  nvr : Word
  xcount : BitVec 8
  b : Nat
  lo : Nat
  regs : Table (BitVec 32)       -- key 1024 q + position
  fresh : Nat                    -- unlisted positions below it read zero (R43)
  regTag : Nat                   -- of the free values that other unlisted positions hold
  tokens : List Token            -- innermost first
  spilled : Nat                  -- how many of the outermost lie in the token spill block
  copying : Option Copying       -- a copy that is to be made again before its next instruction (R104, R108, R151)
  flags : Vector (BitVec 4) 12
  queue : List Block
  laneCtr : Nat
  pt : Nat                       -- logical time (R318)
  redo : Option Mask             -- after RETT: lanes of the head instruction already done (R158)
  inflight : List InFlight
  part : Option LanePart         -- what the head lane instruction has done, while others act between its events (R301)
  recent : List Recent
  looseMasks : List LooseMask    -- the latest first
  lruns : Nat
  wait : Option Wait
  pendingLane : Option Trap      -- a lane cause not yet delivered
  headOp : Option HeadOp         -- the head instruction that raised it, or has begun
  stucks : List Trap             -- STUCK causes still to take
  raised : Option (Trap × Bool)  -- the cause being delivered, with sdec, until its record is written (R152)
  offer : Option Offer
  faulted : Option Faulted       -- of the instruction that the handler entered last is for
  openBatch : BitVec 16
  batches : Table (BitVec 32)    -- statuses by batch number modulo 256
  batchBy : Table Nat            -- the task whose status an entry is
  score : Nat
  yielded : Bool
  deriving DecidableEq, Repr

/-- What a ticket's answer is about (R356). -/
inductive Asker where
  | party (pid : Nat)
  | stuck (pid : Nat)
  | command (id : Nat)
  | task (id : Nat)
  | collective (id : Nat)
  deriving DecidableEq, Repr

structure Ticket where
  ctx : Nat
  number : Nat
  asker : Asker
  deriving DecidableEq, Repr

/-- A write that a copy does not show: its path, the command that made it (0: none), the parties whose fences cover it, and
its logical time. -/
structure Passed where
  path : Nat
  cmd : Nat
  owners : List Nat
  time : Nat
  deriving DecidableEq, Repr

/-- A copy in the cache of a unit of an engine path (R310, R318): bytes within one line, with their write time and lease;
who may no longer read it: the commands that a party issues from a number on (R311), single commands (R312), and the tasks
that a later acceptance makes depend on handles, each with its context and whether it was written (R258); and for the
host path, the parties whose SYSFENCE covers a write it does not show, and those whose flags it shows (R315). -/
structure EngineCopy where
  path : Nat
  unit : Nat
  place : Place
  content : List Byte
  wt : Nat
  rl : Nat
  passed : List Passed
  bars : List (Nat × Nat)
  cmds : List Nat
  owed : List ((Nat × Word) × Bool)
  due : List Nat
  shows : List Nat
  deriving DecidableEq, Repr

/-- A copy that a cache holds: one entry of a translation walk, `levels` being the number of levels below it (R326), bytes
of code or of a record, with the places they came from (R67, R177), bytes of an engine path's cache, or the tag of a line that left L1
(R196). -/
inductive Copy where
  | translation (asid levels base : Nat) (entry : Word)
  | bytes (launch : Nat) (spans : List (Place × Nat)) (content : List Byte)
  | engine (c : EngineCopy)
  | victim (core line slot : Nat)
  deriving DecidableEq, Repr

/-- A 128-byte line at its performing point (R318): the time of its last write, the lease of the ordinary copies, and that
of the copies of each engine path. -/
structure Line where
  place : Place
  wt : Nat
  rl : Nat
  leases : Table Nat
  deriving DecidableEq, Repr

/-- An Itval stream as its sender keeps it (R368). -/
structure SendStream where
  dst : Nat
  cls : Nat
  next : BitVec 32
  unacked : List (Packet × Nat)  -- with the tick each was last sent
  deriving DecidableEq, Repr

/-- What a host sees of an access (R366). -/
inductive HostEnd where
  | data (fn : Nat) (bytes : List Byte) (poisoned : Bool)
  | abort (fn : Nat)
  deriving DecidableEq, Repr

/-- Which agent moves next: the model's own script (log 3). -/
inductive Act where
  | scalar (pid : Nat)
  | lane (pid : Nat)
  | laneHalf (pid from_ n : Nat)   -- some first events of the 16-byte elements of the head lane instruction, from a lane on
  | laneSome (pid from_ n : Nat)   -- some lanes of LD or ST, from a lane on, those of an atomic on one line, or some row reads of MMA and MMAS
  | event (i : Instr)
  | cacheTranslation (launch : Nat) (va : Word)
  | cacheBytes (launch : Nat) (va : Word) (len : Nat)
  | prefetch (agent : Nat) (place : Place) (len : Nat) -- for a command, task or collective, or with 0 for the host port
  | dropCopy (index : Nat)         -- one copy leaves its cache
  | siphonEvents (cmd n : Nat)     -- some of a command's read and write events
  | ringSome (pid n : Nat)         -- CPYW or LAUNCH claims its slot, or copies some of its payload
  | taskReads (engine n : Nat)     -- some of the reads of the task that an engine has taken, or now takes
  | storeSome (task n : Nat)       -- part of what TLSTORE or TLNORM writes
  | collectiveSome (cmd : Nat) (inputs : List (List Nat)) (n : Nat) -- part of the src of a collective's member, or of its dst
  | evictLine (core line slot : Nat)
  | dropCopies
  | idle
  deriving DecidableEq, Repr

/-- A move of the script: who acts, and how much time then passes. -/
structure Move where
  act : Act
  ticks : Nat
  clocks : Nat
  deriving DecidableEq, Repr

/-- The registers of BAR0 (R365) and what stands behind them. -/
structure Bar0 where
  ready : Bool
  trip : Bool
  part : Nat
  qtbase : Word
  ctxbase : Word
  rngbase : Word
  pwrcap : Word
  apctx : Table Word
  apbase : Table Word
  gmbox : List Host.Cell
  mcbox : List Host.Cell
  deriving DecidableEq, Repr

/-- The state of the machine. -/
structure State where
  party : Party                  -- the party in focus
  others : List Party
  groups : List Group
  launches : List Launch
  lastQueue : Nat                -- the queue that placement served last (R351)
  contexts : List Context
  commands : List Command
  tasks : List Task
  retiring : List Retiring
  collectives : List Collective
  instances : List (Nat × Nat × List Nat × Nat) -- context, tag, members, count (R372)
  tickets : List Ticket
  events : List (Nat × List Byte) -- event records that wait for room, with their contexts (R356)
  mem : List Host.Cell           -- by domain physical address; unlisted bytes read 0 (R331)
  poison : List Nat              -- poisoned 64-byte sectors (R338)
  tags : Table Nat               -- key slot of each sector, unlisted 0 (R335, R336)
  keys : Table (BitVec 512)      -- the loaded slots 1 to 255
  hmask : Table Word             -- HMASKj of stack s at 6 s + j, as the difference from its default (R329)
  copies : List Copy
  lantern : Word
  clock : Word
  scrubbed : Table Nat           -- tick of the last patrol scrub of each stack (R337)
  bar : Bar0
  unmasked : List (Nat × Nat)    -- MSI-X vectors not masked: function, vector (R367; log 15)
  pendingIrq : List (Nat × Nat)
  sentIrq : List (Nat × Nat)
  measurements : List (BitVec 512)
  attested : List Byte           -- the report that ATTEST gave last, whole (R375)
  sends : List SendStream
  accepts : List (Nat × Nat × BitVec 32) -- source, class, next number to accept
  joined : List Nat              -- the other parts of the domain that a route reaches (R320, R369)
  absentParts : List Nat         -- parts that are taken as absent (R369)
  contacts : Table Nat           -- by part: the tick at which a route last brought a packet from it (R369)
  lines : List Line              -- logical times of lines, unlisted 0
  marks : Table Nat              -- the high-water mark of logical time of each core (R319)
  hostTime : Nat                 -- the logical time of the host port's latest write (R316)
  synced : Nat                   -- the greatest logical time of an arrival or a signal that is no read
  hostFlags : List (Nat × Place × Nat) -- ordinary writes of parties after a SYSFENCE, while a copy of the host's is due
  accepted : Table Nat           -- the tasks accepted so far by each cluster (R256)
  taskImages : List (Nat × Word × List Byte) -- by task: the image of its record that system software sees, and where (R256, R356)
  throttled : Bool
  held : Bool                    -- by a thermal trip (R377)
  hostLog : List HostEnd
  agenda : List Move
  free : Nat                     -- counter of the free values taken
  ids : Nat                      -- next number for a party, launch, command or task
  deriving DecidableEq, Repr

/-- A party slot with no party: the values of R43 that do not depend on a launch, width 32 (log 2). -/
def Party.blank : Party where
  pid := 0
  launch := 0
  group := 0
  core := 0
  quad := 0
  slot := 0
  first := 0
  width := 32
  life := .absent
  stopped := false
  evicted := false
  evictedAt := 0
  hmode := false
  handlingLane := false
  pc := 0
  lastPc := 0
  retired := 0
  s := Vector.replicate 64 0
  p := (Vector.replicate 8 0).set 0 0xFFFFFFFF
  ls := 0
  dl := Vector.replicate 4 0
  ptime := 0
  st := 0
  rnd := 0
  nvr := 2
  xcount := 0
  b := 0
  lo := 0
  regs := []
  fresh := 0
  regTag := 0
  tokens := []
  spilled := 0
  copying := none
  flags := Vector.replicate 12 0
  queue := []
  laneCtr := 0
  pt := 0
  redo := none
  inflight := []
  part := none
  recent := []
  looseMasks := []
  lruns := 0
  wait := none
  pendingLane := none
  headOp := none
  stucks := []
  raised := none
  offer := none
  faulted := none
  openBatch := 1
  batches := []
  batchBy := []
  score := 0
  yielded := false

/-- BAR0 right after power-on (R365, R374; log 15). -/
def Bar0.powerOn : Bar0 where
  ready := false
  trip := false
  part := 0
  qtbase := 0
  ctxbase := 0
  rngbase := 0
  pwrcap := 3400
  apctx := []
  apbase := []
  gmbox := []
  mcbox := []

/-- The part right after power-on (R331, R374): every stack reads zero, no key, no context, no queue, no party. -/
def State.reset : State where
  party := Party.blank
  others := []
  groups := []
  launches := []
  lastQueue := 4095
  contexts := []
  commands := []
  tasks := []
  retiring := []
  collectives := []
  instances := []
  tickets := []
  events := []
  mem := []
  poison := []
  tags := []
  keys := []
  hmask := []
  copies := []
  lantern := 0
  clock := 0
  scrubbed := []
  bar := Bar0.powerOn
  unmasked := []
  pendingIrq := []
  sentIrq := []
  measurements := [0, 0, 0, 0]
  attested := []
  sends := []
  accepts := []
  joined := []
  absentParts := []
  contacts := []
  lines := []
  marks := []
  hostTime := 0
  synced := 0
  hostFlags := []
  accepted := []
  taskImages := []
  throttled := false
  held := false
  hostLog := []
  agenda := []
  free := 0
  ids := 1

end Sys2Proof.Machine
end

