-- ==== Sys2Proof/Machine/Memory.lean ====
section
/-!
DEFINITION. Sparse tables and memory in one canonical form, byte order, and physical memory with its key slots, poison
and registered scratchpads (R18, R169, R284, R320, R335 to R338).
-/
namespace Sys2Proof.Machine

/-! ### Tables -/

/-- The value at a key, the default `d` where the key is unlisted. -/
def Table.get {α : Type} (d : α) : Table α → Nat → α
  | [], _ => d
  | (k, v) :: t, n => if n = k then v else Table.get d t n

/-- The table with a value at a key; the default is never listed. -/
def Table.set {α : Type} [DecidableEq α] (d : α) (t : Table α) (n : Nat) (v : α) : Table α :=
  t.filter (fun e => e.1 < n) ++ ((if v = d then [] else [(n, v)]) ++ t.filter (fun e => n < e.1))

/-- Keys strictly rising, no entry equal to the default. -/
def Table.wf {α : Type} [DecidableEq α] (d : α) : Table α → Bool
  | [] => true
  | [(_, v)] => v != d
  | (k, v) :: (k', v') :: t => v != d && decide (k < k') && Table.wf d ((k', v') :: t)

/-! ### Bytes in memory -/

/-- What a byte of memory that no entry lists reads as (R331: initialisation leaves zeros; log 9). -/
def unlistedByte : Byte := 0

/-- One byte. -/
def byteAt (m : List Host.Cell) (a : Nat) : Byte := Table.get unlistedByte m a

/-- `n` bytes from `a` up. -/
def readBytes (m : List Host.Cell) (a : Nat) : Nat → List Byte
  | 0 => []
  | n + 1 => byteAt m a :: readBytes m (a + 1) n

/-- The entries of consecutive bytes from `a` up, leaving out those equal to an unlisted byte. -/
def cellsFrom (a : Nat) : List Byte → List Host.Cell
  | [] => []
  | x :: xs => if x = unlistedByte then cellsFrom (a + 1) xs else (a, x) :: cellsFrom (a + 1) xs

/-- Memory with the bytes `bs` at `a` and up. -/
def writeBytes (m : List Host.Cell) (a : Nat) (bs : List Byte) : List Host.Cell :=
  m.filter (fun e => e.1 < a) ++ (cellsFrom a bs ++ m.filter (fun e => a + bs.length ≤ e.1))

/-- Memory with `n` bytes from `a` up set to what unlisted bytes read as. -/
def clearBytes (m : List Host.Cell) (a n : Nat) : List Host.Cell :=
  m.filter fun e => e.1 < a || a + n ≤ e.1

/-- The canonical form. -/
abbrev Memory.wf (m : List Host.Cell) : Prop := Table.wf unlistedByte m = true

/-- Bytes, the lowest address first, as a natural number (R18). -/
def ofBytes : List Byte → Nat
  | [] => 0
  | x :: xs => x.toNat + 256 * ofBytes xs

/-- The `n` low bytes of a number, the least significant first (R18). -/
def toBytes : Nat → Nat → List Byte
  | 0, _ => []
  | n + 1, v => BitVec.ofNat 8 v :: toBytes n (v / 256)

/-- A field of a number: `len` bits from bit `lo` up. -/
def bitsOf (v lo len : Nat) : Nat := v / 2 ^ lo % 2 ^ len

/-! ### Sets of numbers in rising order -/

def insertSorted (n : Nat) (l : List Nat) : List Nat :=
  l.filter (fun x => x < n) ++ (n :: l.filter (fun x => n < x))

/-- The numbers `a`, …, `a + n - 1`. -/
def upTo (a : Nat) : Nat → List Nat
  | 0 => []
  | n + 1 => a :: upTo (a + 1) n

/-! ### Physical memory -/

/-- The keys of a slot (R336). -/
def State.keyOf (s : State) (slot : Nat) : BitVec 512 := Table.get 0 s.keys slot

/-- A sector's 64 bytes as an access under a key slot reads them: the decryption under its key of what the slot that wrote
them stored (R335, R336). -/
def State.sectorAs (s : State) (sector key : Nat) : List Byte :=
  let raw := readBytes s.mem (sector * 64) 64
  let tag := Table.get 0 s.tags sector
  if tag = key then raw
  else
    let stored := if tag = 0 then raw else xtsEncrypt (s.keyOf tag) (sector % 2 ^ 38) raw
    if key = 0 then stored else xtsDecrypt (s.keyOf key) (sector % 2 ^ 38) stored

/-- Sectors that `n` bytes from `pa` up touch. -/
def sectorsOf (pa n : Nat) : List Nat := if n = 0 then [] else upTo (pa / 64) ((pa + n - 1) / 64 - pa / 64 + 1)

/-- Whether every sector of a range carries the key slot. -/
def State.sameKey (s : State) (pa n key : Nat) : Bool :=
  (sectorsOf pa n).all fun x => Table.get 0 s.tags x == key

/-- Bytes of physical memory under a key slot. -/
def State.readPhys (s : State) (pa n key : Nat) : List Byte :=
  if s.sameKey pa n key then readBytes s.mem pa n
  else (upTo pa n).map fun a => ((s.sectorAs (a / 64) key)[a % 64]?).getD 0

/-- The sector rewritten as an access under a key slot reads it (R336). -/
def State.rekey (s : State) (sector key : Nat) : State :=
  if Table.get 0 s.tags sector = key then s
  else { s with mem := writeBytes s.mem (sector * 64) (s.sectorAs sector key), tags := Table.set 0 s.tags sector key }

/-- Poisoned sectors after a write: a sector that one write event wholly covers is cleared (R338).  That the lanes of one ST do not
clear it together is the model's choice (log 83). -/
def State.clearPoison (s : State) (pa n : Nat) : State :=
  { s with poison := s.poison.filter fun x => !(decide (pa ≤ 64 * x) && decide (64 * x + 64 ≤ pa + n)) }

/-- Bytes written to physical memory under a key slot. -/
def State.writePhys (s : State) (pa : Nat) (bs : List Byte) (key : Nat) : State :=
  let s := (sectorsOf pa bs.length).foldl (fun s x => s.rekey x key) s
  { s with mem := writeBytes s.mem pa bs }.clearPoison pa bs.length

/-- Whether a read of physical bytes meets poison (R338). -/
def State.poisonedPhys (s : State) (pa n : Nat) : Bool :=
  s.poison.any fun x => decide (pa < 64 * x + 64) && decide (64 * x < pa + n)

/-- A 64-bit word of a table that the part reads below translation, in the clear. -/
def State.tableWord (s : State) (pa : Nat) : Word := BitVec.ofNat 64 (ofBytes (s.readPhys pa 8 0))

/-- A part of the domain that a route reaches: this one, or one that has joined and is not absent (R320, R369). -/
def State.reaches (s : State) (pa : Nat) : Bool := bitsOf pa 44 12 == s.bar.part || s.joined.contains (bitsOf pa 44 12)

/-- A read of table bytes gives no value: poison, or an absent part (R328, R338). -/
def State.tableLost (s : State) (pa n : Nat) : Bool := s.poisonedPhys pa n || !s.reaches pa

/-! ### Parties, groups, launches -/

/-- Every party slot that holds a party or its remains, the one in focus first. -/
def State.parties (s : State) : List Party := s.party :: s.others

/-- The party of a number. -/
def State.party? (s : State) (pid : Nat) : Option Party := s.parties.find? fun p => p.pid == pid

/-- The state with a party's record replaced. -/
def State.putParty (s : State) (p : Party) : State :=
  if s.party.pid = p.pid then { s with party := p }
  else { s with others := s.others.map fun x => if x.pid = p.pid then p else x }

/-- The state with another party in focus; unchanged where no party has the number. -/
def State.focus (s : State) (pid : Nat) : State :=
  if s.party.pid = pid then s
  else match s.others.find? fun p => p.pid == pid with
    | none => s
    | some p => { s with party := p, others := s.party :: s.others.filter fun x => x.pid != pid }

def State.launch? (s : State) (id : Nat) : Option Launch := s.launches.find? fun l => l.id == id

def State.putLaunch (s : State) (l : Launch) : State :=
  { s with launches := s.launches.map fun x => if x.id = l.id then l else x }

def State.group? (s : State) (launch number : Nat) : Option Group :=
  s.groups.find? fun g => g.launch == launch && g.number == number

def State.putGroup (s : State) (g : Group) : State :=
  { s with groups := s.groups.map fun x => if x.launch = g.launch ∧ x.number = g.number then g else x }

/-- A context's place in the protocol of R354 to R359; idle with no command until the part has had to do with it. -/
def State.context (s : State) (i : Nat) : Context :=
  (s.contexts.find? fun c => c.index == i).getD { index := i, state := 0, cmd := none, seen := (0, 0), begun := false }

/-- A party that holds its slot: it runs or has halted. -/
def Party.present (p : Party) : Bool := p.life == .running || p.life == .halted

/-- A party that has neither exited nor halted. -/
def Party.live (p : Party) : Bool := p.life == .running

/-- A party whose registers are in its quad. -/
def Party.resident (p : Party) : Bool := p.present && !p.evicted

/-- Whether a group has a resident party (R284).  That a party that halted in its quad counts is the model's choice (log 81). -/
def State.groupResident (s : State) (launch number : Nat) : Bool :=
  s.parties.any fun p => p.launch == launch && p.group == number && p.resident

/-! ### Bytes of a place -/

/-- Where a physical byte is held, and how many of `n` bytes from it up are held there: in the scratchpad that registered them
as backing (R284), else in memory up to the next backing. -/
def State.holderSpan (s : State) (pa key n : Nat) (home : Nat := 0) : Place × Nat :=
  match s.groups.findSome? fun g =>
      (g.backing.find? fun r => decide (r.base ≤ pa) && decide (pa < r.base + r.len)).map
        fun r => (Place.spad g.launch g.number (r.off + (pa - r.base)), Nat.min n (r.base + r.len - pa)) with
  | some x => x
  | none => (.phys pa key home, s.groups.foldl (fun m g => g.backing.foldl (fun m r =>
      if pa < r.base then Nat.min m (r.base - pa) else m) m) n)

/-- Where a physical byte is held. -/
def State.holder (s : State) (pa key : Nat) : Place := (s.holderSpan pa key 1).1

/-- Bytes of a place. -/
def State.readPlace (s : State) (p : Place) (n : Nat) : List Byte :=
  match p with
  | .phys pa key _ => s.readPhys pa n key
  | .spad l g off => match s.group? l g with
    | some g => readBytes g.spad off n
    | none => List.replicate n 0

/-- Whether a read of a place meets poison (R338). -/
def State.poisonedPlace (s : State) (p : Place) (n : Nat) : Bool :=
  match p with
  | .phys pa _ _ => s.poisonedPhys pa n
  | .spad l g off => match s.group? l g with
    | some g => g.bad.any fun x => decide (off < 4 * x + 4) && decide (4 * x < off + n)
    | none => false

/-- Bytes written to a place: memory or a scratchpad, the poison of wholly covered units cleared. -/
def State.writePlace (s : State) (p : Place) (bs : List Byte) : State :=
  match p with
  | .phys pa key _ => s.writePhys pa bs key
  | .spad l g off => match s.group? l g with
    | some g => s.putGroup { g with
        spad := writeBytes g.spad off bs
        bad := g.bad.filter fun x => !(decide (off ≤ 4 * x) && decide (4 * x + 4 ≤ off + bs.length)) }
    | none => s

/-- The value of `n` bytes of a place. -/
def State.valueAt (s : State) (p : Place) (n : Nat) : Nat := ofBytes (s.readPlace p n)

/-- A place `n` bytes further. -/
def Place.shift (p : Place) (n : Nat) : Place :=
  match p with
  | .phys pa key home => .phys (pa + n) key home
  | .spad l g off => .spad l g (off + n)

/-- A byte of a place is poisoned from now on (R338). -/
def State.poisonByte (s : State) (p : Place) : State :=
  match p with
  | .phys pa _ _ => { s with poison := insertSorted (pa / 64) s.poison }
  | .spad l g off => match s.group? l g with
    | some gr => s.putGroup { gr with bad := insertSorted (off / 4) gr.bad }
    | none => s

end Sys2Proof.Machine
end

