-- ==== Sys2Proof/Machine/Lease.lean ====
section
/-!
DEFINITION. Logical times and leases: what a read and a write do to the time of their agent and of the lines they touch, and
which copies in the caches of the engine paths may still serve an older value (R304, R310, R315, R318, R319; log 12).
-/
namespace Sys2Proof.Machine

/-! ### Lines -/

/-- The start of the 128-byte line of a place. -/
def Place.line (p : Place) : Place :=
  match p with
  | .phys pa _ _ => .phys (pa / 128 * 128) 0
  | .spad l g off => .spad l g (off / 128 * 128)

/-- How far a place lies in its line. -/
def Place.inLine (p : Place) : Nat :=
  match p with
  | .phys pa _ _ => pa % 128
  | .spad _ _ off => off % 128

/-- The lines that `n` bytes from a place touch. -/
def Place.lines (p : Place) (n : Nat) : List Place :=
  (upTo 0 ((p.inLine + n + 127) / 128)).map fun i => (p.shift (128 * i)).line

/-- How far a byte lies from the start of a run of bytes, if the run starts at or before it in the same store and under the
same key slot. -/
def Place.offsetIn (p start : Place) : Option Nat :=
  match p, start with
  | .phys a k _, .phys b j _ => if b ≤ a ∧ k = j then some (a - b) else none
  | .spad l g a, .spad m h b => if l = m ∧ g = h ∧ b ≤ a then some (a - b) else none
  | _, _ => none

/-- Two runs of bytes of one store meet, whatever the key slots. -/
def Place.meets (p : Place) (n : Nat) (q : Place) (m : Nat) : Bool :=
  match p, q with
  | .phys a _ _, .phys b _ _ => decide (a < b + m) && decide (b < a + n)
  | .spad l g a, .spad k h b => l == k && g == h && decide (a < b + m) && decide (b < a + n)
  | _, _ => false

/-- Where a place lies in its store. -/
def Place.pos (p : Place) : Nat :=
  match p with
  | .phys pa _ _ => pa
  | .spad _ _ off => off

/-- The start of the aligned unit of `u` bytes that a place lies in. -/
def Place.unit (p : Place) (u : Nat) : Place :=
  match p with
  | .phys pa key home => .phys (pa / u * u) key home
  | .spad l g off => .spad l g (off / u * u)

/-- What is left of a run of bytes outside another run. -/
def Place.outside (p : Place) (n : Nat) (q : Place) (m : Nat) : List (Place × Nat) :=
  if !p.meets n q m then [(p, n)]
  else
    let a := p.pos
    let b := q.pos
    (if a < b then [(p, b - a)] else []) ++ (if b + m < a + n then [(p.shift (b + m - a), a + n - (b + m))] else [])

def State.lineAt (s : State) (p : Place) : Line :=
  (s.lines.find? fun l => l.place == p).getD { place := p, wt := 0, rl := 0, leases := [] }

/-- A line with its times; one whose times are all 0 is not listed. -/
def State.putLine (s : State) (l : Line) : State :=
  let rest := s.lines.filter fun x => x.place != l.place
  { s with lines := if l.wt = 0 ∧ l.rl = 0 ∧ l.leases.isEmpty then rest else l :: rest }

/-- The leases that a write on a path waits out: an ordinary write every lease, an engine write those of the ordinary copies
and of its own path (R310, R318). -/
def Line.bound (l : Line) (path : Nat) : Nat :=
  if path = 0 then l.leases.foldl (fun m e => Nat.max m e.2) l.rl else Nat.max l.rl (Table.get 0 l.leases path)

/-- The time of the latest write of some bytes. -/
def State.writtenAt (s : State) (p : Place) (n : Nat) : Nat := ((p.lines n).map fun x => (s.lineAt x).wt).foldl Nat.max 0

/-- The time at which an agent's write is performed. -/
def State.writeTime (s : State) (time path : Nat) (p : Place) (n : Nat) : Nat :=
  ((p.lines n).map fun x => (s.lineAt x).bound path + 1).foldl Nat.max time

/-! ### Agents -/

/-- Who makes an access: its path, the unit whose cache serves it, its command (0: none), the party that issued it, the
parties whose fences cover it, and its logical time (R304, R318). -/
structure Agent where
  path : Nat
  unit : Nat
  cmd : Nat
  pid : Nat
  owners : List Nat
  time : Nat
  replay : Bool := false          -- its launch runs in replay mode, in which it reads what stands (R353; log 74)
  deriving DecidableEq, Repr

/-- The part itself on the ordinary path. -/
def Agent.part : Agent := { path := 0, unit := 0, cmd := 0, pid := 0, owners := [], time := 0 }

/-- An ordinary access of a party. -/
def Party.agent (p : Party) : Agent := { path := 0, unit := 0, cmd := 0, pid := p.pid, owners := [p.pid], time := p.pt }

/-- A request of the host port; its reads follow R315 alone, so it carries no time, and its writes that of the writes before them
(R316). -/
def Agent.host : Agent := { path := 5, unit := 0, cmd := 0, pid := 0, owners := [], time := 0 }

/-! ### Writes -/

/-- The lines of a write take its time. -/
def State.stampLines (s : State) (t : Nat) (p : Place) (n : Nat) : State :=
  (p.lines n).foldl (fun s x =>
    let l := s.lineAt x
    s.putLine { l with wt := t, rl := Nat.max l.rl t }) s

/-- An access of a path's unit ends its copies of the same bytes under another key slot (R336). -/
def EngineCopy.mismatched (c : EngineCopy) (path unit : Nat) (p : Place) (n : Nat) : Bool :=
  c.path == path && c.unit == unit && c.place.meets c.content.length p n && match c.place, p with
    | .phys _ k _, .phys _ j _ => k != j
    | _, _ => false

/-- A write through a page of policy 2 completes at the memory-side cache, where host reads see it (R321, R332). -/
def Place.direct (p : Place) : Bool := match p with | .phys _ _ home => home == 2 | .spad .. => false

/-- The copies that a write overtakes remember it; a host's write and a direct one end the copies of the host path, and one under
another key slot those of its own unit. -/
def State.passCopies (s : State) (a : Agent) (t : Nat) (p : Place) (n : Nat) : State :=
  { s with copies := s.copies.filterMap fun c => match c with
      | .engine e =>
        if !e.place.meets e.content.length p n then some c
        else if ((a.path = 5 ∨ p.direct) ∧ e.path = 5) ∨ (a.path ≠ 0 ∧ e.mismatched a.path a.unit p n) then none
        else some (.engine { e with passed := { path := a.path, cmd := a.cmd, owners := a.owners, time := t } :: e.passed })
      | _ => some c }

/-- A flag that a party stores after a SYSFENCE is noted while a copy of the host's is due to it; of an earlier flag the bytes
stay that the write leaves (R315). -/
def State.noteFlag (s : State) (a : Agent) (p : Place) (n : Nat) : State :=
  let kept := s.hostFlags.flatMap fun f => (f.2.1.outside f.2.2 p n).map fun x => (f.1, x.1, x.2)
  let due := s.copies.any fun c => match c with | .engine e => e.due.contains a.pid | _ => false
  { s with hostFlags := if a.path = 0 ∧ due then (a.pid, p, n) :: kept else kept }

/-- The least time of an agent's next write: the host port's writes take places in the order of the script (R316). -/
def State.earliest (s : State) (a : Agent) : Nat := if a.path = 5 then Nat.max a.time s.hostTime else a.time

/-- A host write is at a time. -/
def State.noteHost (s : State) (a : Agent) (t : Nat) : State := if a.path = 5 then { s with hostTime := t } else s

/-- The logical side of a write: the state with its lines and copies marked, and the agent's time after it. -/
def State.noteWrite (s : State) (a : Agent) (p : Place) (n : Nat) : State × Nat :=
  let t := s.writeTime (s.earliest a) a.path p n
  ((((s.stampLines t p n).passCopies a t p n).noteFlag a p n).noteHost a t, t)

/-- Bytes written by an agent, with the agent's time after it. -/
def State.writeAs (s : State) (a : Agent) (p : Place) (bs : List Byte) : State × Nat :=
  let r := s.noteWrite a p bs.length
  (r.1.writePlace p bs, r.2)

/-- Bytes written by the part itself. -/
def State.writePart (s : State) (p : Place) (bs : List Byte) : State := (s.writeAs .part p bs).1

/-- The copies of an engine's caches that meet some bytes end. -/
def State.dropMeeting (s : State) (p : Place) (n : Nat) : State :=
  { s with copies := s.copies.filter fun c => match c with
      | .engine e => !e.place.meets e.content.length p n
      | _ => true }

/-- Bytes put by the part before anything that may read them: no copy shows what stood there (R346, R359). -/
def State.layBytes (s : State) (p : Place) (bs : List Byte) : State := (s.writePlace p bs).dropMeeting p bs.length

/-! ### Ordinary reads -/

/-- An ordinary read of a line at a time: a copy whose lease the time has not passed serves it, else the lease is renewed
at the home. -/
def Line.renewed (l : Line) (time lambda : Nat) : Line :=
  if time ≤ l.rl then l else { l with rl := time + lambda }

/-- The die whose L2 is the home of an address, on the part that the address names (R321). -/
def homeDie (pa : Nat) : Nat := bitsOf pa 36 4 / 3

/-- λ of R318 for a reader of a core: 4,096 where the remote-data cache of its die serves it, which holds the lines of policy 0
that are homed on other dies and parts; lines of policy 2 have no copies, and lend no time (R321, R322). -/
def State.leaseOf (s : State) (core : Nat) (p : Place) : Nat :=
  match p with
  | .phys pa _ home =>
    if home = 2 then 0
    else if home = 0 ∧ !(bitsOf pa 44 12 = s.bar.part ∧ homeDie pa = core / 32) then 4096 else 256
  | .spad .. => 256

/-- The logical side of a read from a core: its leases, and the reader's time afterwards. -/
def State.noteRead (s : State) (core time : Nat) (p : Place) (n : Nat) : State × Nat :=
  (p.lines n).foldl (fun (r : State × Nat) x =>
    let l := (r.1.lineAt x).renewed r.2 (s.leaseOf core p)
    (r.1.putLine l, Nat.max r.2 l.wt)) (s, time)

/-- The party in focus with a logical time. -/
def State.atTime (s : State) (t : Nat) : State := { s with party := { s.party with pt := t } }

/-- A read of some bytes by the party in focus. -/
def State.partyRead (s : State) (p : Place) (n : Nat) : State :=
  let r := s.noteRead s.party.core s.party.pt p n
  r.1.atTime r.2

/-- Bytes written by the party in focus on the ordinary path. -/
def State.partyWrite (s : State) (p : Place) (bs : List Byte) : State :=
  let r := s.writeAs s.party.agent p bs
  r.1.atTime r.2

/-! ### Engine reads (R310) -/

/-- A copy that an agent may read some bytes from, and where they lie in it: its own unit's, under the same key slot, with a
lease that its time has not passed, and not one that a fence, a dependence or a write of its own command has barred. -/
def EngineCopy.serves (c : EngineCopy) (a : Agent) (p : Place) (n : Nat) : Option Nat :=
  match p.offsetIn c.place with
  | none => none
  | some i =>
    if c.path = a.path ∧ c.unit = a.unit ∧ i + n ≤ c.content.length ∧ a.time ≤ c.rl ∧
        !(c.bars.any fun b => b.1 == a.pid && decide (b.2 ≤ a.cmd)) ∧ !c.cmds.contains a.cmd ∧
        !(c.passed.any fun w => w.cmd == a.cmd && a.cmd != 0) then some i
    else none

/-- The copy that serves a read, if one does. -/
def State.servingCopy (s : State) (a : Agent) (p : Place) (n : Nat) : Option (EngineCopy × Nat) :=
  s.copies.findSome? fun c => match c with
    | .engine e => (e.serves a p n).map fun i => (e, i)
    | _ => none

/-- What read events come to: the bytes, which of them are poisoned, and the agent's time afterwards. -/
structure Served where
  bytes : List Byte
  bad : List Bool
  time : Nat
  deriving DecidableEq, Repr

/-- Which of `n` bytes of a place are poisoned, or beyond the reach of any route (R328). -/
def State.badBytes (s : State) (p : Place) (n : Nat) : List Bool :=
  if (match p with | .phys pa _ _ => !s.reaches pa | .spad .. => false) then List.replicate n true
  else if s.poisonedPlace p n then (upTo 0 n).map fun i => s.poisonedPlace (p.shift i) 1
  else List.replicate n false

/-- Bytes of a place as they stand. -/
def State.readNewest (s : State) (time : Nat) (p : Place) (n : Nat) : Served :=
  { bytes := s.readPlace p n, bad := s.badBytes p n, time := Nat.max time (s.writtenAt p n) }

/-- One read event of an agent: from a copy, or from the place. -/
def State.readEvent (s : State) (a : Agent) (p : Place) (n : Nat) : Served :=
  match s.servingCopy a p n with
  | some (e, i) => { bytes := (e.content.drop i).take n, bad := List.replicate n false, time := Nat.max a.time e.wt }
  | none => s.readNewest a.time p n

/-- Bytes from a place read in events of up to `unit` aligned bytes (R301); `fuel` bounds them. -/
def State.readEvents (s : State) (unit : Nat) : (fuel : Nat) → Agent → Place → (n : Nat) → Served
  | 0, a, _, _ => { bytes := [], bad := [], time := a.time }
  | fuel + 1, a, p, n =>
    if n = 0 then { bytes := [], bad := [], time := a.time }
    else
      let k := Nat.min n (unit - p.inLine % unit)
      let x := s.readEvent a p k
      let y := s.readEvents unit fuel { a with time := x.time } (p.shift k) (n - k)
      { bytes := x.bytes ++ y.bytes, bad := x.bad ++ y.bad, time := y.time }

/-- Some cache of an agent's unit holds copies. -/
def State.unitCaches (s : State) (a : Agent) : Bool :=
  s.copies.any fun c => match c with | .engine e => e.path == a.path && e.unit == a.unit | _ => false

/-- Bytes of a place as an agent reads them; without copies of its unit's, the newest. -/
def State.agentRead (s : State) (a : Agent) (unit : Nat) (p : Place) (n : Nat) : Served :=
  if s.unitCaches a && !a.replay then s.readEvents unit n a p n else s.readNewest a.time p n

/-! ### Copies -/

/-- Bytes that a cache may take: those of no route and poisoned ones give no value, and an empty key slot has no key
(R328, R336, R338). -/
def State.copyable (s : State) (p : Place) (n : Nat) : Bool :=
  !((s.badBytes p n).any id) && match p with
    | .phys _ key _ => key == 0 || s.keys.any fun e => e.1 == key
    | .spad .. => true

/-- A copy holds whole units of its path, so that it covers an event wholly or not at all: a tile header, else eight bytes
(R301, R306). -/
def copyUnit (path : Nat) : Nat := if path = 3 then 64 else 8

/-- A copy is filled with the units that some bytes of a line touch: its lease is raised at the home (R318). -/
def State.fillCopy (s : State) (a : Agent) (p : Place) (n : Nat) : State :=
  let u := copyUnit a.path
  let n := (p.inLine % u + Nat.min n (128 - p.inLine) + u - 1) / u * u
  let p := p.unit u
  let l := s.lineAt p.line
  let rl := Nat.max (Nat.max l.wt (Table.get 0 l.leases a.path)) (a.time + 256)
  let c : EngineCopy := {
    path := a.path, unit := a.unit, place := p, content := s.readPlace p n, wt := l.wt, rl := rl
    passed := [], bars := [], cmds := [], owed := []
    due := [], shows := (s.hostFlags.filter fun f => f.2.1.meets f.2.2 p n).map fun f => f.1 }
  let other (x : Copy) : Bool := match x with
    | .engine e => !(e.path == a.path && e.unit == a.unit && e.place.meets e.content.length p n)
    | _ => true
  if s.copyable p n then
    { s.putLine { l with leases := Table.set 0 l.leases a.path rl } with copies := .engine c :: s.copies.filter other }
  else s

/-- Engine copies changed one by one. -/
def State.mapEngine (s : State) (g : EngineCopy → EngineCopy) : State :=
  { s with copies := s.copies.map fun c => match c with | .engine e => .engine (g e) | _ => c }

/-- A cross-path fence of a party ends: what it covers on path `ca` is barred to the commands of path `cb` that the party
issues from now on (R311).  Covered are the writes of the party's own commands, and every other write of a time that the
party has reached, as it has then observed a signal above it. -/
def State.crossBar (s : State) (p : Party) (ca cb : Nat) : State :=
  s.mapEngine fun e =>
    if e.path = cb ∧ e.passed.any (fun w => w.path == ca && (w.owners.contains p.pid || decide (w.time < p.pt))) then
      { e with bars := (p.pid, s.ids) :: e.bars }
    else e

/-- A command that others depend on ends: what it wrote, or could not have missed itself, is barred to them (R312). -/
def State.dependBar (s : State) (cmd : Nat) (after : List Nat) : State :=
  if after.isEmpty then s
  else s.mapEngine fun e =>
    if e.cmds.contains cmd || e.passed.any (fun w => w.cmd == cmd) then { e with cmds := after ++ e.cmds } else e

/-- A task that named some handles ends: tasks accepted later that depend on it through one of them see what it wrote (R258,
R260). -/
def State.oweHandles (s : State) (task : Nat) (handles : List ((Nat × Word) × Bool)) : State :=
  s.mapEngine fun e =>
    if e.cmds.contains task || e.passed.any (fun w => w.cmd == task) then { e with owed := handles ++ e.owed } else e

/-- A task is accepted: copies that owe it something are barred to it. -/
def State.claimOwed (s : State) (task : Nat) (handles : List ((Nat × Word) × Bool)) : State :=
  s.mapEngine fun e =>
    if handles.any fun h => e.owed.any fun o => o.1 == h.1 && (o.2 || h.2) then { e with cmds := task :: e.cmds } else e

/-- A SYSFENCE of a party ends: the host copies that a write it covers has overtaken are due to the party's next flags (R315). -/
def State.hostBar (s : State) (p : Party) : State :=
  s.mapEngine fun e =>
    if e.path = 5 ∧ e.passed.any (fun w => w.owners.contains p.pid) then { e with due := p.pid :: e.due } else e

/-- An interrupt announces some bytes: the host path reads no older ones (R367). -/
def State.showHost (s : State) (p : Place) (n : Nat) : State :=
  { s with copies := s.copies.filter fun c => match c with
      | .engine e => !(e.path == 5 && e.place.meets e.content.length p n)
      | _ => true }

/-- A host has read some bytes: the copies due to the parties whose flags it saw end, and those of the bytes under another key slot
(R315, R336). -/
def State.hostSaw (s : State) (p : Place) (n : Nat) : State :=
  let copied := s.copies.flatMap fun c => match c with
    | .engine e => if e.path = 5 ∧ e.place.meets e.content.length p n then e.shows else []
    | _ => []
  let seen := copied ++ (s.hostFlags.filter fun f => f.2.1.meets f.2.2 p n).map fun f => f.1
  { s with copies := s.copies.filter fun c => match c with
      | .engine e => !(e.mismatched 5 Agent.host.unit p n || (e.path == 5 && e.due.any fun x => seen.contains x))
      | _ => true }

/-- A tile header in a copy names a block. -/
def EngineCopy.names (c : EngineCopy) (block : Word) : Bool :=
  c.path == 3 && [8, 72].any fun i => decide (i + 8 ≤ c.content.length) && ofBytes ((c.content.drop i).take 8) == block.toNat

/-- A block is free: no copy of an older header leads a reader to it any more (R260). -/
def State.forgetBlock (s : State) (block : Word) : State :=
  { s with copies := s.copies.filter fun c => match c with
      | .engine e => !e.names block
      | _ => true }

/-- Bytes change their store, as a scratchpad and its backing do (R284): their copies end, and the lines keep their times. -/
def State.moveLines (s : State) (from_ to_ : Place) (n : Nat) : State :=
  let moved := s.lines.filterMap fun l =>
    if l.place.meets 128 from_ n then (l.place.offsetIn from_.line).map fun i =>
      { l with place := (to_.shift i).line, rl := Nat.max l.rl l.wt, leases := [] }
    else none
  let rest := s.lines.filter fun l => !l.place.meets 128 from_ n && !l.place.meets 128 to_ n
  { s with
      lines := moved ++ rest
      copies := s.copies.filter fun c => match c with
        | .engine e => !(e.place.meets e.content.length from_ n || e.place.meets e.content.length to_ n)
        | _ => true }

/-- The upper half of a SPLIT comes after everything its party did (R305). -/
def State.splitCopies (s : State) (lo hi : Nat) : State :=
  let both (l : List Nat) : List Nat := if l.contains lo then hi :: l else l
  s.mapEngine fun e => { e with
    passed := e.passed.map fun w => { w with owners := both w.owners }
    bars := e.bars ++ (e.bars.filter fun b => b.1 == lo).map fun b => (hi, b.2)
    due := both e.due }

/-- The joined party of a FUSE comes after everything both did (R305); what a fence of the upper party barred is barred to the
commands that it had issued, and to those that the joined party issues (R311). -/
def State.fuseCopies (s : State) (lo hi : Nat) : State :=
  let one (x : Nat) : Nat := if x = hi then lo else x
  { s.mapEngine fun e => { e with
      passed := e.passed.map fun w => { w with owners := w.owners.map one }
      bars := (e.bars.filter fun b => b.1 == hi).map (fun _ => (lo, s.ids)) ++ e.bars
      due := e.due.map one, shows := e.shows.map one } with
    hostFlags := s.hostFlags.map fun f => (one f.1, f.2) }

/-- A signal that its observers do not read, at a time (R309). -/
def State.signalAt (s : State) (t : Nat) : State := { s with synced := Nat.max s.synced t }

end Sys2Proof.Machine
end

