-- ==== Sys2Proof/Machine/Access.lean ====
section
/-!
DEFINITION. Contexts' tables, translation, the windows of a generic address, the private arena's layout, and the one
check that every access passes (R164 to R170, R181, R283 to R287, R320 to R328, R354, R355).
-/
namespace Sys2Proof.Machine

/-- The rights an access needs (R325). -/
structure Rights where
  r : Bool := false
  w : Bool := false
  x : Bool := false
  deriving DecidableEq, Repr

def Rights.read : Rights := { r := true }
def Rights.write : Rights := { w := true }
def Rights.update : Rights := { r := true, w := true }
def Rights.fetch : Rights := { x := true }

/-! ### Context tables (R354, R355) -/

structure CtxEntry where
  record : Nat
  asid : Nat
  fn : Nat
  ceiling : Nat
  keyMask : BitVec 256
  deriving DecidableEq, Repr

/-- A physical range lies in one of the function's 16 ranges. -/
def State.inRange (s : State) (fn lo len : Nat) : Bool :=
  let t := s.bar.rngbase.toNat / 65536 * 65536 + 256 * fn
  (upTo 0 16).any fun j => !s.tableLost (t + 16 * j) 16 &&
    decide ((s.tableWord (t + 16 * j)).toNat ≤ lo) && decide (lo + len ≤ (s.tableWord (t + 16 * j + 8)).toNat)

def State.ctxTable (s : State) : Nat := s.bar.ctxbase.toNat / 65536 * 65536

/-- Word 1 of a context table entry: ASID, function, ceiling, valid. -/
def State.ctxWord (s : State) (i : Nat) : Nat := (s.tableWord (s.ctxTable + 64 * i + 8)).toNat

/-- Entries of a table in the clear whose byte `off` may have a bit set: those whose byte is listed, or all of them where the
table carries a key. -/
def State.entriesAt (s : State) (table stride off count : Nat) : List Nat :=
  if s.tags.any fun e => decide (table / 64 ≤ e.1) && decide (64 * e.1 < table + stride * count) then upTo 0 count
  else s.mem.filterMap fun c =>
    if table ≤ c.1 ∧ c.1 < table + stride * count ∧ (c.1 - table) % stride = off then some ((c.1 - table) / stride) else none

/-- An earlier entry that can be read, with its valid bit set, has the ASID: the later one is then invalid (R338, R355). -/
def State.asidTaken (s : State) (i asid : Nat) : Bool :=
  (s.entriesAt s.ctxTable 64 11 i).any fun j =>
    !s.tableLost (s.ctxTable + 64 * j) 64 && bitsOf (s.ctxWord j) 31 1 == 1 && bitsOf (s.ctxWord j) 0 16 == asid

/-- A valid entry of the context table. -/
def State.ctxEntry (s : State) (i : Nat) : Option CtxEntry :=
  let t := s.ctxTable + 64 * i
  let w := s.ctxWord i
  let record := (s.tableWord t).toNat / 128 * 128
  let fn := bitsOf w 16 8
  if s.bar.ready && decide (i < 4096) && bitsOf w 31 1 == 1 && decide (fn ≤ 192) && !s.asidTaken i (bitsOf w 0 16) &&
      s.inRange fn record 128 && !s.tableLost t 64 && !s.tableLost record 128 then
    some { record := record, asid := bitsOf w 0 16, fn := fn, ceiling := bitsOf w 24 3,
           keyMask := BitVec.ofNat 256 (ofBytes (s.readPhys (t + 16) 32 0)) ||| 1 }
  else none

/-- The valid contexts. -/
def State.validContexts (s : State) : List Nat :=
  if s.bar.ready then (s.entriesAt s.ctxTable 64 11 4096).filter fun i => (s.ctxEntry i).isSome else []

/-- A word of a context's record. -/
def State.ctxField (s : State) (e : CtxEntry) (off : Nat) : Word := s.tableWord (e.record + off)

/-- `dlceil` as it is held: 1 to 2^40, other values as 2^40 (R37). -/
def clampCeiling (v : Nat) : Nat := if v = 0 ∨ 2 ^ 40 < v then 2 ^ 40 else v

/-- The context as the part reads it now. -/
def State.spaceOf (s : State) (i : Nat) : Option Space :=
  (s.ctxEntry i).map fun e =>
    { ctx := i, asid := e.asid, fn := e.fn, root := BitVec.ofNat 64 (bitsOf (s.ctxField e 0).toNat 12 44 * 4096),
      keyMask := e.keyMask, dlceil := clampCeiling (bitsOf (s.ctxField e 8).toNat 0 41),
      xlim := bitsOf (s.ctxField e 16).toNat 0 8 }

/-! ### Translation (R323 to R326) -/

structure Leaf where
  base : Nat         -- physical address of the page
  size : Nat
  key : Nat
  home : Nat
  rights : Rights
  deriving DecidableEq, Repr

/-- An address that names memory (R320). -/
def namesMemory (pa : Nat) : Bool := bitsOf pa 40 4 == 0 && decide (bitsOf pa 36 4 < 12) && decide (pa < 2 ^ 56)

/-- A leaf entry read as one. -/
def Leaf.ofEntry (e size : Nat) : Leaf :=
  { base := bitsOf e 8 48 * 256, size := size, key := bitsOf e 56 8, home := bitsOf e 5 2,
    rights := { r := bitsOf e 2 1 == 1, w := bitsOf e 3 1 == 1, x := bitsOf e 4 1 == 1 } }

def Deny.bad : Deny := { cause := .translation, malformed := true }

/-- The bits of an address that a level with `n` levels below it translates at once (R323). -/
def levelShift (n : Nat) : Nat := if n = 0 then 16 else 12 + 9 * n

/-- The entry of a walk as an access uses it: one that a translation cache holds, or the present one, freely, where they
differ (R326; log 10). -/
def State.walkEntry (s : State) (sp : Space) (va n at_ : Nat) : Except Deny Nat :=
  let base := va / 2 ^ levelShift n
  let held := s.copies.findSome? fun c => match c with
    | .translation asid k b e => if asid = sp.asid ∧ k = n ∧ b = base then some e.toNat else none
    | _ => none
  match held with
  | some e => if Config.freeBit s.free ((base * 4 + n) * 8) then .ok e
    else if s.tableLost at_ 8 then .error { cause := .poison } else .ok (s.tableWord at_).toNat
  | none => if s.tableLost at_ 8 then .error { cause := .poison } else .ok (s.tableWord at_).toNat

/-- The walk below a table of a level (R323); `n` is the number of levels left, `entry` reads an entry. -/
def State.walkBy (s : State) (sp : Space) (entry : (n at_ : Nat) → Except Deny Nat) (va : Nat) : (n table : Nat) → Except Deny Leaf
  | 0, _ => .error .bad
  | n + 1, table =>
    let shift := levelShift n
    let entries := if n = 0 then 32 else 512
    if !s.inRange sp.fn table (entries * 8) then .error .bad
    else match entry n (table + 8 * (va / 2 ^ shift % entries)) with
    | .error d => .error d
    | .ok e =>
      let addr := bitsOf e 8 48 * 256
      if bitsOf e 0 1 = 0 then .error { cause := .translation }
      else if bitsOf e 7 1 ≠ 0 then .error .bad
      else if bitsOf e 1 1 = 1 then
        let size := 2 ^ shift
        if n = 3 ∨ addr % size ≠ 0 ∨ bitsOf e 5 2 = 3 ∨ !namesMemory addr ∨ !s.inRange sp.fn addr size then .error .bad
        else .ok (Leaf.ofEntry e size)
      else if n = 0 ∨ addr % (if n = 1 then 256 else 4096) ≠ 0 then .error .bad
      else s.walkBy sp entry va n addr

/-- The walk as an access makes it. -/
def State.walk (s : State) (sp : Space) (va n table : Nat) : Except Deny Leaf := s.walkBy sp (s.walkEntry sp va) va n table

/-- The translation of a global address (R323). -/
def State.leafOf (s : State) (sp : Space) (va : Nat) : Except Deny Leaf :=
  if 2 ^ 48 ≤ va then .error { cause := .translation } else s.walk sp va 4 sp.root.toNat

/-- The entries of a walk with their levels, as memory now holds them, down to the leaf or the first that leads no further. -/
def State.walkTrace (s : State) (sp : Space) (va : Nat) : (n table : Nat) → List (Nat × Word)
  | 0, _ => []
  | n + 1, table =>
    let at_ := table + 8 * (va / 2 ^ levelShift n % (if n = 0 then 32 else 512))
    if !s.inRange sp.fn table ((if n = 0 then 32 else 512) * 8) || s.tableLost at_ 8 then []
    else
      let e := s.tableWord at_
      if !e.getLsbD 0 then []
      else if e.getLsbD 1 ∨ e.getLsbD 7 then [(n, e)]
      else (n, e) :: s.walkTrace sp va n (bitsOf e.toNat 8 48 * 256)

/-- The page's rights and key slot against what an access needs (R325, R336, R355). -/
def State.pageCheck (s : State) (sp : Space) (l : Leaf) (need : Rights) : Option Deny :=
  if (need.r && !l.rights.r) || (need.w && !l.rights.w) || (need.x && !l.rights.x) then some { cause := .permission }
  else if l.key ≠ 0 ∧ (!sp.keyMask.getLsbD l.key ∨ (s.keys.find? fun e => e.1 == l.key).isNone) then
    some { cause := .permission, keyFault := true }
  else none

/-- The holder of the bytes at a global address, and how many of `n` bytes lie with it: up to the end of the page, and of the
scratchpad or of the memory before one (R283). -/
def State.globalSpan (s : State) (sp : Space) (va n : Nat) (need : Rights) : Except Deny (Place × Nat) :=
  match s.leafOf sp va with
  | .error d => .error d
  | .ok l => match s.pageCheck sp l need with
    | some d => .error d
    | none => .ok (s.holderSpan (l.base + va % l.size) l.key (Nat.min n (65536 - va % 65536)) l.home)

/-- The holder of the byte at a global address. -/
def State.globalPlace (s : State) (sp : Space) (va : Nat) (need : Rights) : Except Deny Place :=
  (s.globalSpan sp va 1 need).map Prod.fst

/-- The place of `n` bytes that may run into a second page: of the causes of both, PERMISSION comes first (R150). -/
def State.elementPlace (s : State) (sp : Space) (va n : Nat) (need : Rights) : Except Deny Place :=
  let first := s.globalPlace sp va need
  if n ≤ 1 ∨ va / 65536 = (va + n - 1) / 65536 then first
  else match first, s.globalPlace sp (va + n - 1) need with
    | .ok p, .ok _ => .ok p
    | .ok _, .error e => .error e
    | .error d, .ok _ => .error d
    | .error d, .error e => .error (if d.cause ≠ .permission ∧ e.cause = .permission then e else d)

/-! ### The arena (R168, R286, R287) -/

/-- Lanes of a group. -/
def Header.lanes (h : Header) : Nat := h.parties * h.width

/-- D rounded up to a multiple of 8 (R23). -/
def Header.depth8 (h : Header) : Nat := (h.depth + 7) / 8 * 8

/-- Registers of the window (R30). -/
def Header.window (h : Header) : Nat := Nat.min h.depth 128

/-- Bytes of a group block: the G of R168. -/
def Header.blockBytes (h : Header) : Nat := h.lanes * (h.private_ + 4096) + h.lanes / 32 * 37888

/-- Bytes of a group save block: the S of R286. -/
def Header.saveBytes (h : Header) : Nat := 4096 + 12288 * (h.lanes / 32) + (h.local_ + 4095) / 4096 * 4096

def Header.groupBlock (h : Header) (g : Nat) : Nat := h.arena.toNat + g * h.blockBytes
def Header.privateAt (h : Header) (g q : Nat) : Nat := h.groupBlock g + q * h.private_
def Header.spillAt (h : Header) (g q : Nat) : Nat := h.groupBlock g + h.lanes * h.private_ + q * 4096
def Header.tokensAt (h : Header) (g q : Nat) : Nat := h.groupBlock g + h.lanes * (h.private_ + 4096) + q / 32 * 36864
def Header.recordAt (h : Header) (g q : Nat) : Nat :=
  h.groupBlock g + h.lanes * (h.private_ + 4096) + h.lanes / 32 * 36864 + q / 32 * 1024
def Header.saveAt (h : Header) (g : Nat) : Nat := h.arena.toNat + h.groups * h.blockBytes + g * h.saveBytes
def Header.partyRecordAt (h : Header) (g q : Nat) : Nat := h.saveAt g + 0x1000 + q / 32 * 4096
def Header.queueImageAt (h : Header) (g q : Nat) : Nat := h.saveAt g + 0x1000 + 4096 * (h.lanes / 32) + q / 32 * 8192
def Header.backingAt (h : Header) (g : Nat) : Nat := h.saveAt g + 0x1000 + 12288 * (h.lanes / 32)

/-! ### Windows (R164 to R170, R285) -/

/-- For whom an access is made; `q` is the group position whose private memory the private window names. -/
structure Accessor where
  space : Space
  launch : Option Launch
  group : Nat
  q : Nat
  deriving DecidableEq, Repr

inductive Window where
  | local_ | cluster | private_ | global
  deriving DecidableEq, Repr

/-- The window of an address (R164). -/
def windowOf (a : Nat) : Window :=
  if a / 2 ^ 48 = 0xFFFE then .local_ else if a / 2 ^ 48 = 0xFFFD then .cluster
  else if a / 2 ^ 48 = 0xFFFC then .private_ else .global

def Deny.outOfExtent : Deny := { cause := .permission, extent := true }

/-- What a window address stands for: a byte of a scratchpad bank, or a global address. -/
inductive Target where
  | bank (p : Place)
  | memory (va : Nat)

/-- A byte of a group's scratchpad: its bank while the group is resident, its backing address while it is away or not yet
placed, out of extent once all its parties have exited (R284, R285). -/
def State.scratchTarget (s : State) (l : Launch) (g off : Nat) : Except Deny Target :=
  match s.group? l.id g with
  | some gr =>
    if gr.ended then .error .outOfExtent
    else if s.groupResident l.id g then .ok (.bank (.spad l.id g off))
    else .ok (.memory (l.header.backingAt g + off))
  | none => if g < l.header.groups then .ok (.memory (l.header.backingAt g + off)) else .error .outOfExtent

/-- The width of field 2 of the work identifier (R25, R26). -/
def Header.w2 (h : Header) : Nat := bitsOf h.wdef.toNat 16 8

/-- What the address of `n` bytes in one window stands for (R164, R168 to R170, R285). -/
def State.resolve (s : State) (ac : Accessor) (a n : Nat) : Except Deny Target :=
  let off := a % 2 ^ 48
  match windowOf a, ac.launch with
  | .global, _ => .ok (.memory a)
  | .local_, some l =>
    if l.header.local_ < off + n then .error .outOfExtent else s.scratchTarget l ac.group off
  | .cluster, some l =>
    let g := ac.group / 2 ^ l.header.w2 * 2 ^ l.header.w2 + bitsOf off 19 3
    let o := off % 2 ^ 19
    if 2 ^ 22 ≤ off ∨ l.header.local_ < o + n ∨ 2 ^ l.header.w2 ≤ bitsOf off 19 3 ∨ l.header.groups ≤ g then
      .error .outOfExtent
    else s.scratchTarget l g o
  | .private_, some l =>
    if l.header.private_ < off + n then .error .outOfExtent
    else .ok (.memory (l.header.privateAt ac.group ac.q + off))
  | _, none => .error .outOfExtent

/-- The place of an element of `n` bytes that lies in one window. -/
def State.windowPlace (s : State) (ac : Accessor) (a n : Nat) (need : Rights) : Except Deny Place :=
  match s.resolve ac a n with
  | .error d => .error d
  | .ok (.bank p) => .ok p
  | .ok (.memory va) => s.elementPlace ac.space va n need

/-- The place of the first of `n` bytes that lie in one window, and how many of them lie with it. -/
def State.windowSpan (s : State) (ac : Accessor) (a n : Nat) (need : Rights) : Except Deny (Place × Nat) :=
  match s.resolve ac a n with
  | .error d => .error d
  | .ok (.bank p) => .ok (p, n)
  | .ok (.memory va) => s.globalSpan ac.space va n need

/-- The check of one element access, in the order of R150: permission and translation, window split, alignment, and for a
read poison.  An access that spans two windows is judged by its start; from the global window it is WINDOW_SPLIT, as the
example of R165 has it, though its start has no translation either (log 49). -/
def State.access (s : State) (ac : Accessor) (a : Word) (n align : Nat) (need : Rights) : Except Deny Place :=
  let lo := a.toNat
  let hi := lo + n - 1
  let split := decide (2 ^ 64 ≤ hi) || windowOf lo != windowOf hi
  if split && windowOf lo == .global then .error { cause := .windowSplit }
  else match s.windowPlace ac lo (if split then 1 else n) need with
  | .error d => .error d
  | .ok p =>
    if split then .error { cause := .windowSplit }
    else if lo % align ≠ 0 then .error { cause := .alignment }
    else if need.r && s.poisonedPlace p n then .error { cause := .poison }
    else .ok p

/-! ### Other parts of the domain (R320, R328) -/

/-- The place lies on another part. -/
def State.remote (s : State) (p : Place) : Bool :=
  match p with
  | .phys pa _ _ => bitsOf pa 44 12 != s.bar.part
  | .spad .. => false

/-- The place lies on a part that no route reaches, or that never joined the domain (R320). -/
def State.unreachable (s : State) (p : Place) : Bool :=
  match p with
  | .phys pa _ _ => !s.reaches pa
  | .spad .. => false

/-- An access of `n` bytes at a place ends with cause POISON: at the bound of R328, or for a read on poison. -/
def State.lost (s : State) (p : Place) (n : Nat) (reads : Bool) : Bool := s.unreachable p || (reads && s.poisonedPlace p n)

/-! ### The part's own accesses to a context's memory -/

/-- Bytes written at a global address range; `fuel` bounds its spans. -/
def State.putBytes (s : State) (sp : Space) : (fuel : Nat) → (va : Nat) → List Byte → Except Deny State
  | 0, _, _ => .ok s
  | fuel + 1, va, bs =>
    if bs.isEmpty then .ok s
    else match s.globalSpan sp va bs.length .write with
      | .error d => .error d
      | .ok (p, n) =>
        if s.unreachable p then .error { cause := .poison }
        else (s.writePart p (bs.take n)).putBytes sp fuel (va + n) (bs.drop n)

/-- Bytes at a global address range. -/
def State.getBytes (s : State) (sp : Space) : (fuel : Nat) → (va n : Nat) → Except Deny (List Byte)
  | 0, _, _ => .ok []
  | fuel + 1, va, n =>
    if n = 0 then .ok []
    else match s.globalSpan sp va n .read with
      | .error d => .error d
      | .ok (p, k) =>
        if s.lost p k true then .error { cause := .poison }
        else (s.getBytes sp fuel (va + k) (n - k)).map fun r => s.readPlace p k ++ r

/-- The part's own structures. -/
def State.arenaWrite (s : State) (sp : Space) (va : Nat) (bs : List Byte) : Except Deny State := s.putBytes sp (bs.length + 1) va bs
def State.arenaRead (s : State) (sp : Space) (va n : Nat) : Except Deny (List Byte) := s.getBytes sp (n + 1) va n

end Sys2Proof.Machine
end

