-- ==== Sys2Proof/Machine/Fetch.lean ====
section
/-!
DEFINITION. Fetching code and reading records through caches that are not coherent with stores (R67, R177, R214, R325).
-/
namespace Sys2Proof.Machine

/-- The places of `n` bytes from a global address up; `fuel` bounds them. -/
def State.unitSpans (s : State) (sp : Space) (need : Rights) : (fuel va n : Nat) → Except Deny (List (Place × Nat))
  | 0, _, _ => .ok []
  | fuel + 1, va, n =>
    if n = 0 then .ok []
    else match s.globalSpan sp va n need with
      | .error d => .error d
      | .ok (p, k) => (s.unitSpans sp need fuel (va + k) (n - k)).map fun r => (p, k) :: r

/-- The bytes of some places as they stand. -/
def State.readSpans (s : State) (spans : List (Place × Nat)) : List Byte := spans.flatMap fun e => s.readPlace e.1 e.2

/-- Bytes of code or of a record as a use reads them: one of the copies that a cache of the launch's may hold, or the
present bytes, whole, freely (R67, R177; log 11); in replay the present ones (R353; log 74). -/
def State.cachedBytes (s : State) (launch : Nat) (replay : Bool) (spans : List (Place × Nat)) : List Byte :=
  let held := s.copies.filterMap fun c => match c with
    | .bytes l at_ bs => if l = launch ∧ at_ = spans then some bs else none
    | _ => none
  match held.zipIdx.find? fun c => !replay && Config.freeBit s.free (8 * c.2 + 1) with
  | some c => c.1
  | none => s.readSpans spans

/-- A unit of code or of a record. -/
def State.unitBytes (s : State) (l : Launch) (va n : Nat) (need : Rights) : Except Deny (List Byte) :=
  match s.unitSpans l.space need n va n with
  | .error d => .error d
  | .ok spans =>
    if spans.any fun e => s.lost e.1 e.2 true then .error { cause := .poison } else .ok (s.cachedBytes l.id l.header.replay spans)

/-- The 32-bit word that the scalar stream fetches (R44, R325). -/
def State.fetchWord (s : State) (l : Launch) (pc : Word) : Except Deny (BitVec 32) :=
  (s.unitBytes l pc.toNat 4 .fetch).map fun bs => BitVec.ofNat 32 (ofBytes bs)

/-- The instruction that a word decodes to, for a launch whose lane section has `laneLen` instructions: an LRUN that
reaches beyond the section is ILLEGAL (R57, R59, R344). -/
def decodeFor (laneLen : Nat) (w : BitVec 32) : Except Reject Instr :=
  match decodeScalar w with
  | .ok (.lrun k len idx) =>
    if idx.toNat + len.toNat + 1 ≤ laneLen then .ok (.lrun k len idx) else .error .literal
  | r => r

/-- The address of the lane instruction of an index in the lane section (R58, R59). -/
def Launch.laneAt (l : Launch) (index : Nat) : Nat := l.header.lane.toNat + 12 * index

/-- The 96-bit lane instruction of an index. -/
def State.fetchLane (s : State) (l : Launch) (index : Nat) : Except Deny (BitVec 96) :=
  (s.unitBytes l (l.laneAt index) 12 .fetch).map fun bs => BitVec.ofNat 96 (ofBytes bs)

/-- A record read through the record cache: buffer records and layout records (R177, R214; log 11). -/
def State.tableBytes (s : State) (l : Launch) (va n : Nat) : Except Deny (List Byte) := s.unitBytes l va n .read

end Sys2Proof.Machine
end

