-- ==== Sys2Proof/Machine/Flags.lean ====
section
/-!
DEFINITION. Statuses: the codes of `st` with their details, effective deadlines, the expiry count, and the status and
`ls` bits of a lane memory instruction (R36 to R42, R182, R183).
-/
namespace Sys2Proof.Machine

/-! ### Codes (R40) -/

def stOk : Word := 0x00
def stTimeout : Word := 0x01
def stPartial : Word := 0x02
def stFull : Word := 0x03
def stEmpty : Word := 0x04
def stChanged : Word := 0x05
def stPoison : Word := 0x07
def stAborted : Word := 0x08
def stFuseAlign : Word := 0x10
def stFuseSite : Word := 0x11
def stFuseWidth : Word := 0x12
def stFuseWindow : Word := 0x13
def stFuseGone : Word := 0x14
def stFuseAway : Word := 0x15
def stFuseTime : Word := 0x16
def stSplitRoom : Word := 0x18
def stPoolEmpty : Word := 0x20
def stRankCapped : Word := 0x21

/-- The code of a trap cause (R149). -/
def Cause.code : Cause → Nat
  | .illegal => 0x01 | .stack => 0x02 | .soft => 0x03 | .stuck => 0x04
  | .permission => 0x10 | .translation => 0x11 | .windowSplit => 0x12 | .alignment => 0x13 | .poison => 0x14
  | .arith => 0x15 | .double => 0x20

/-- The cause with a code. -/
def Cause.ofCode (n : Nat) : Option Cause :=
  [Cause.illegal, .stack, .soft, .stuck, .permission, .translation, .windowSplit, .alignment, .poison, .arith,
    .double].find? fun c => c.code == n

/-- The access causes, codes 0x10 to 0x15 (R149). -/
def Cause.isAccess (c : Cause) : Bool := decide (0x10 ≤ c.code) && decide (c.code ≤ 0x15)

/-- The nibble of an access cause in the cause vector (R154). -/
def Cause.nibble (c : Cause) : Nat := if c.isAccess then c.code - 0x0F else 0

/-- FAULT with a cause as detail, POISON for the poison cause (R40, R158). -/
def stFault (c : Cause) : Word := if c = .poison then stPoison else BitVec.ofNat 64 (0x06 + 256 * c.code)

/-- A malformed descriptor or command: FAULT with detail 0x15 (R215, R241). -/
def stMalformed : Word := stFault .arith

/-- The code without its detail, as a destination register receives it (R39). -/
def codeOf (st : Word) : Word := st &&& 0xFF

/-! ### Deadlines (R36, R37) -/

/-- The base counter that a deadline of a party counts on. -/
def baseCounter (s : State) (p : Party) (party : Bool) : Nat := if party then p.ptime.toNat else s.lantern.toNat

/-- The effective ceiling (R37). -/
def Launch.ceiling (l : Launch) : Nat :=
  if l.header.ceiling = 0 then l.space.dlceil else Nat.min l.header.ceiling l.space.dlceil

/-- The effective deadline of a wait that names a deadline register of value `v`. -/
def deadlineOf (s : State) (l : Launch) (p : Party) (v : Word) (sel : BitVec 2) : Deadline :=
  let party := v.getLsbD 62
  let t0 := baseCounter s p party
  let named := v.toNat % 2 ^ 62
  let c := l.ceiling
  { party := party, ticks := Nat.min named (t0 + c), ceiling := decide (t0 + c < named),
    poll := decide (Nat.min named (t0 + c) ≤ t0), esc := v.getLsbD 63, sel := sel }

/-- Bits 9:8 of an expiry code (R40). -/
def Deadline.detail (d : Deadline) : Word := (if d.ceiling then 0x100 else 0) ||| (if d.poll then 0x200 else 0)

/-- The counter has passed the deadline's tick, so that no event of that tick is still to come (R37). -/
def Deadline.passed (d : Deadline) (s : State) (p : Party) : Bool := decide (d.ticks < baseCounter s p d.party)

/-! ### The expiry count (R38) -/

def bump (x : BitVec 8) : BitVec 8 := if x = 255 then 255 else x + 1

/-- The expiry count after a wait that ended: unchanged by a poll. -/
def countAfter (d : Deadline) (expired : Bool) (x : BitVec 8) : BitVec 8 :=
  if d.poll then x else if expired then bump x else 0

/-- An expiry escalates: the captured esc bit, or the count beyond `xlim`. -/
def escalates (d : Deadline) (expired : Bool) (count : BitVec 8) (xlim : Nat) : Bool :=
  !d.poll && expired && (d.esc || (xlim != 0 && decide (xlim < count.toNat)))

/-! ### Masks of a party (R24, R27) -/

/-- All lanes of the party. -/
def Party.allLanes (p : Party) : Mask := BitVec.ofNat 1024 (2 ^ p.width - 1)

/-- Data word `i` of a mask. -/
def maskWord (m : Mask) (i : Nat) : BitVec 32 := (m >>> (32 * i)).setWidth 32

/-- A mask with data word `i` replaced. -/
def setMaskWord (m : Mask) (i : Nat) (w : BitVec 32) : Mask :=
  (m &&& ~~~((0xFFFFFFFF : Mask) <<< (32 * i))) ||| (w.setWidth 1024 <<< (32 * i))

/-- The summary word (R27). -/
def summary (m : Mask) : BitVec 32 :=
  (upTo 0 32).foldl (fun a i => if maskWord m i = 0 then a else a ||| (1 <<< i)) 0

/-- The lanes of a mask in ascending order. -/
def lanesOf (m : Mask) (width : Nat) : List Nat := (upTo 0 width).filter fun l => m.getLsbD l

def laneBit (l : Nat) : Mask := 1 <<< l

/-- A mask of a list of lanes. -/
def maskOf (ls : List Nat) : Mask := ls.foldl (fun m l => m ||| laneBit l) 0

/-! ### Lane memory outcomes (R42, R182) -/

def LaneEnd.isOk (e : LaneEnd) : Bool := e == .ok

/-- The code a lane's end offers to `st`. -/
def LaneEnd.status (d : Deadline) : LaneEnd → Word
  | .ok => stOk
  | .timeout | .remote => stTimeout ||| d.detail
  | .fault c => stFault c
  | .poison => stPoison

/-- The status of a lane memory instruction: the first of FAULT, POISON and TIMEOUT that some lane offers, with the detail
of the lowest such lane; none when every lane ended OK. -/
def laneStatus (d : Deadline) (ends : List (Nat × LaneEnd)) : Option Word :=
  let codes := ends.map fun e => e.2.status d
  match codes.find? fun c => codeOf c == 0x06, codes.find? fun c => codeOf c == 0x07, codes.find? fun c => codeOf c == 0x01 with
  | some c, _, _ => some c
  | _, some c, _ => some c
  | _, _, some c => some c
  | _, _, _ => none

/-- `ls` after an instruction whose active lanes ended so. -/
def lsAfter (ls : Mask) (ends : List (Nat × LaneEnd)) : Mask :=
  ends.foldl (fun m e => if e.2.isOk then m &&& ~~~laneBit e.1 else m ||| laneBit e.1) ls

end Sys2Proof.Machine
end

