-- ==== Sys2Proof/Machine/Barrier.lean ====
section
/-!
DEFINITION. Leaf barriers, cluster-leaf and root records, in the core or in a save block (R199 to R206, R287, R291 to
R296).
-/
namespace Sys2Proof.Machine

/-! ### Record images (R199, R291) -/

def Barrier.bytes (b : Barrier) : List Byte :=
  toBytes 8 (b.phase.toNat + b.eexp % 2 ^ 24 * 2 ^ 16 + b.earr % 2 ^ 24 * 2 ^ 40) ++
    (toBytes 16 b.member.toNat ++ toBytes 16 b.arrived.toNat)

def Barrier.ofBytes (l : List Byte) : Barrier :=
  let w := Machine.ofBytes (l.take 8)
  { phase := BitVec.ofNat 16 w, eexp := bitsOf w 16 24, earr := bitsOf w 40 24,
    member := BitVec.ofNat 128 (Machine.ofBytes ((l.drop 8).take 16)),
    arrived := BitVec.ofNat 128 (Machine.ofBytes ((l.drop 24).take 16)) }

def Root.bytes (r : Root) : List Byte :=
  toBytes 16 (r.phase.toNat + r.member.toNat * 2 ^ 16 + r.arrived.toNat * 2 ^ 24)

def Root.ofBytes (l : List Byte) : Root :=
  let w := Machine.ofBytes (l.take 8)
  { phase := BitVec.ofNat 16 w, member := BitVec.ofNat 8 (w / 2 ^ 16), arrived := BitVec.ofNat 8 (w / 2 ^ 24) }

/-! ### Where a record is (R296) -/

/-- The member mask of a group of `lanes` lanes: every block (R199). -/
def allBlocks (lanes : Nat) : BitVec 128 := BitVec.ofNat 128 (2 ^ (lanes / 32) - 1)

def Barrier.fresh (lanes : Nat) : Barrier := { member := allBlocks lanes, arrived := 0, phase := 0, eexp := 0, earr := 0 }

/-- The logical cluster of a group (R25). -/
def Header.clusterOf (h : Header) (g : Nat) : Nat := g / 2 ^ h.w2

/-- Field 2 of a group's work identifiers. -/
def Header.field2 (h : Header) (g : Nat) : Nat := g % 2 ^ h.w2

/-- The groups of a logical cluster. -/
def Header.clusterGroups (h : Header) (c : Nat) : List Nat :=
  (upTo (c * 2 ^ h.w2) (2 ^ h.w2)).filter fun g => decide (g < h.groups)

def Root.fresh (h : Header) (c : Nat) : Root :=
  { member := BitVec.ofNat 8 (2 ^ (h.clusterGroups c).length - 1), arrived := 0, phase := 0 }

/-- A record of a group: the group's copy while a party of it is resident, else the save block's. -/
def State.barrier (s : State) (l : Launch) (g : Nat) (level : Bool) (i : Nat) : Barrier :=
  let dflt := Barrier.fresh l.header.lanes
  if s.groupResident l.id g then
    match s.group? l.id g with
    | some gr => ((if level then gr.cleaf else gr.leaf)[i]?).getD dflt
    | none => dflt
  else match s.arenaRead l.space (l.header.saveAt g + (if level then 0x400 else 0) + 64 * i) 40 with
    | .ok bs => Barrier.ofBytes bs
    | .error _ => dflt

/-- A record in a save block that cannot be read now (log 64). -/
def State.barrierLost (s : State) (l : Launch) (g : Nat) (level : Bool) (i : Nat) : Bool :=
  !s.groupResident l.id g && !(s.arenaRead l.space (l.header.saveAt g + (if level then 0x400 else 0) + 64 * i) 40).toBool

/-- An update of a record in memory, one atomic of the part (R296): it is dropped where the record cannot be read or written (log
64). -/
def State.updateRecord (s : State) (sp : Space) (va : Nat) (bs : List Byte) : State :=
  match s.arenaRead sp va bs.length, s.arenaWrite sp va bs with
  | .ok _, .ok t => t
  | _, _ => s

def State.setBarrier (s : State) (l : Launch) (g : Nat) (level : Bool) (i : Nat) (b : Barrier) : State :=
  if s.groupResident l.id g then
    match s.group? l.id g with
    | some gr => s.putGroup (if level then { gr with cleaf := gr.cleaf.set i b } else { gr with leaf := gr.leaf.set i b })
    | none => s
  else s.updateRecord l.space (l.header.saveAt g + (if level then 0x400 else 0) + 64 * i) b.bytes

/-- Whether a party of some group of the logical cluster is resident. -/
def State.clusterResident (s : State) (l : Launch) (c : Nat) : Bool :=
  (l.header.clusterGroups c).any fun g => s.groupResident l.id g

def State.root (s : State) (l : Launch) (c i : Nat) : Root :=
  let dflt := Root.fresh l.header c
  if s.clusterResident l c then
    match s.launch? l.id with
    | some l => ((Table.get [] l.roots c)[i]?).getD dflt
    | none => dflt
  else match s.arenaRead l.space (l.header.saveAt (c * 2 ^ l.header.w2) + 0x800 + 16 * i) 16 with
    | .ok bs => Root.ofBytes bs
    | .error _ => dflt

/-- The sixteen root records of a logical cluster at the start (R291). -/
def Header.freshRoots (h : Header) (c : Nat) : List Root := List.replicate 16 (Root.fresh h c)

def State.setRoot (s : State) (l : Launch) (c i : Nat) (r : Root) : State :=
  if s.clusterResident l c then
    match s.launch? l.id with
    | some l =>
      let old := Table.get [] l.roots c
      let rs := if old.isEmpty then l.header.freshRoots c else old
      s.putLaunch { l with roots := Table.set [] l.roots c (rs.set i r) }
    | none => s
  else s.updateRecord l.space (l.header.saveAt (c * 2 ^ l.header.w2) + 0x800 + 16 * i) r.bytes

/-! ### Arrival, completion, withdrawal, drop -/

/-- The blocks of a party's range (R200). -/
def Party.blocks (p : Party) : BitVec 128 := BitVec.ofNat 128 ((2 ^ (p.width / 32) - 1) * 2 ^ (p.first / 32))

/-- R201: the phase completes now. -/
def Barrier.completes (b : Barrier) : Bool :=
  b.member &&& ~~~b.arrived == 0 && b.earr == b.eexp && (b.arrived != 0 || b.eexp != 0)

/-- The record after the completion test of R201. -/
def Barrier.advance (b : Barrier) : Barrier :=
  if b.completes then { b with arrived := 0, eexp := 0, earr := 0, phase := b.phase + 1 } else b

/-- The root record's completion test and the broadcast to every group of the logical cluster (R292). -/
def State.advanceRoot (s : State) (l : Launch) (c i : Nat) : State :=
  let r := s.root l c i
  if r.member &&& ~~~r.arrived == 0 && r.arrived != 0 then
    let r' := { r with arrived := 0, phase := r.phase + 1 }
    (l.header.clusterGroups c).foldl (fun s g =>
      s.setBarrier l g true i { s.barrier l g true i with arrived := 0, phase := r'.phase }) (s.setRoot l c i r')
  else s

/-- Upward arrival of a group whose cluster-leaf record is complete (R292 step 1). -/
def State.arriveUp (s : State) (l : Launch) (g i : Nat) : State :=
  let b := s.barrier l g true i
  let c := l.header.clusterOf g
  if b.member != 0 && b.member &&& ~~~b.arrived == 0 then
    let r := s.root l c i
    (s.setRoot l c i { r with arrived := r.arrived ||| BitVec.ofNat 8 (2 ^ l.header.field2 g) }).advanceRoot l c i
  else s

/-- The level and number that a barrier operand names (R200). -/
def barLevel (v : Word) : Bool := v.getLsbD 4
def barIndex (v : Word) : Nat := v.toNat % 16

/-- BARR for a party's blocks (R202, R293). -/
def State.barrArrive (s : State) (l : Launch) (p : Party) (sel : Word) : State :=
  let i := barIndex sel
  let b := s.barrier l p.group (barLevel sel) i
  let b := { b with arrived := b.arrived ||| (p.blocks &&& b.member) }
  let s := s.signalAt p.pt
  if barLevel sel then (s.setBarrier l p.group true i b).arriveUp l p.group i
  else s.setBarrier l p.group false i b.advance

/-- Whether an arrival of a party's blocks stands. -/
def State.barrStands (s : State) (l : Launch) (p : Party) (sel : Word) : Bool :=
  (s.barrier l p.group (barLevel sel) (barIndex sel)).arrived &&& p.blocks != 0

/-- Withdrawal of a party's arrival, at level 1 with the group's at the root (R203, R294). -/
def State.barrWithdraw (s : State) (l : Launch) (p : Party) (sel : Word) : State :=
  let i := barIndex sel
  let b := s.barrier l p.group (barLevel sel) i
  let s := s.setBarrier l p.group (barLevel sel) i { b with arrived := b.arrived &&& ~~~p.blocks }
  if barLevel sel && (b.arrived &&& p.blocks != 0) then
    let c := l.header.clusterOf p.group
    let r := s.root l c i
    s.setRoot l c i { r with arrived := r.arrived &&& ~~~BitVec.ofNat 8 (2 ^ l.header.field2 p.group) }
  else s

/-- BDROP for a party's blocks (R205, R293). -/
def State.barrDrop (s : State) (l : Launch) (p : Party) (sel : Word) : State :=
  let i := barIndex sel
  let b := s.barrier l p.group (barLevel sel) i
  let b := { b with member := b.member &&& ~~~p.blocks, arrived := b.arrived &&& ~~~p.blocks }
  if barLevel sel then
    let s := s.setBarrier l p.group true i b
    if b.member == 0 then
      let c := l.header.clusterOf p.group
      let bit := ~~~BitVec.ofNat 8 (2 ^ l.header.field2 p.group)
      let r := s.root l c i
      (s.setRoot l c i { r with member := r.member &&& bit, arrived := r.arrived &&& bit }).advanceRoot l c i
    else s.arriveUp l p.group i
  else s.setBarrier l p.group false i b.advance

/-- EXIT and a halt leave every barrier of both levels (R205, R293). -/
def State.dropBarriers (s : State) (l : Launch) (p : Party) : State :=
  (upTo 0 32).foldl (fun s i => s.barrDrop l p (BitVec.ofNat 64 i)) s

/-- One engine row arrival at a leaf barrier (R201, R296). -/
def State.rowArrival (s : State) (l : Launch) (g i : Nat) : State :=
  let b := s.barrier l g false i
  s.setBarrier l g false i ({ b with earr := b.earr + 1 }).advance

end Sys2Proof.Machine
end

