-- ==== Sys2Proof/Machine/Scratch.lean ====
section
/-!
DEFINITION. A group's scratchpad and records on their way between the core and the group save block: at placement, when its
last resident party leaves, and when one comes back (R283 to R285, R296, R298, R299, R338).
-/
namespace Sys2Proof.Machine

/-! ### The scratchpad (R284) -/

/-- The poisoned 4-byte units of `n` bytes at a place, as units of a scratchpad from `off` up (R338). -/
def State.badUnits (s : State) (p : Place) (n off : Nat) : List Nat :=
  if s.poisonedPlace p n then
    (upTo 0 (n / 4)).filterMap fun i => if s.poisonedPlace (p.shift (4 * i)) 4 then some (off / 4 + i) else none
  else []

/-- A scratchpad read from its backing area from `off` up, with the backing registered, and what denied some of it.  Bytes of
an absent part come as poison (R328), and so do those of a page whose translation is lost; a page that is denied otherwise gives
zeros, and no backing (log 24).  `fuel` bounds its spans. -/
def State.loadFrom (s : State) (l : Launch) : (fuel off : Nat) → State → Group → List Deny → State × Group × List Deny
  | 0, _, t, g, ds => (t, g, ds)
  | fuel + 1, off, t, g, ds =>
    let va := l.header.backingAt g.number + off
    if l.header.local_ ≤ off then (t, g, ds)
    else match s.globalSpan l.space va (l.header.local_ - off) .read with
      | .error d =>
        let n := Nat.min (l.header.local_ - off) (65536 - va % 65536)
        s.loadFrom l fuel (off + n) t
          (if d.cause = .poison then
            { g with bad := g.bad ++ upTo (off / 4) ((n + 3) / 4), lost := g.lost ++ upTo (off / 4) ((n + 3) / 4) }
          else g) (ds ++ [d])
      | .ok (p, n) =>
        let lost := s.unreachable p
        s.loadFrom l fuel (off + n) (t.moveLines p (.spad g.launch g.number off) n)
          { g with
            spad := if lost then g.spad else writeBytes g.spad off (s.readPlace p n)
            bad := g.bad ++ if lost then upTo (off / 4) ((n + 3) / 4) else s.badUnits p n off
            backing := match p with
              | .phys pa key _ => g.backing ++ [{ base := pa, off := off, len := n, key := key }]
              | .spad .. => g.backing }
          ds

/-- A group's scratchpad as its backing area holds it, with the backing registered, and what denied some of it; the lines keep
their logical times. -/
def State.loadScratch (s : State) (l : Launch) (g : Group) : State × Group × List Deny :=
  s.loadFrom l (l.header.local_ + 1) 0 s { g with spad := [], bad := [], lost := [], backing := [] } []

/-- A group's scratchpad left in its registered backing, poison with it (R283, R284; log 48). -/
def State.keepScratch (s : State) (g : Group) : State :=
  let t := g.backing.foldl (fun (t : State) b =>
    (t.moveLines (.spad g.launch g.number b.off) (.phys b.base 0) b.len).writePhys b.base (readBytes g.spad b.off b.len) b.key) s
  let t := g.bad.foldl (fun (t : State) u =>
    match g.backing.find? fun b => decide (b.off ≤ 4 * u) && decide (4 * u < b.off + b.len) with
    | some b => t.poisonByte (.phys (b.base + (4 * u - b.off)) 0)
    | none => t) t
  t.putGroup { g with backing := [], spad := [], bad := [], lost := [] }

/-- One unit of a scratchpad without registered backing, written through the translation that its backing area now has. -/
def State.saveUnit (s : State) (l : Launch) (g : Group) (u : Nat) : Except Deny State := do
  let va := l.header.backingAt g.number + 4 * u
  let t ← s.arenaWrite l.space va (readBytes g.spad (4 * u) 4)
  match if g.bad.contains u then (t.globalPlace l.space va .write).toOption else none with
  | some p => pure (t.poisonByte p)
  | none => pure t

/-- A group's scratchpad written back and its registration removed.  What no backing was registered for, as its area was denied
at the last load, is written through the translation it now has, but for what was lost there and not written since. -/
def State.saveScratch (s : State) (l : Launch) (g : Group) : Except Deny State :=
  let t := s.keepScratch g
  if (g.backing.map fun b => b.len).sum = l.header.local_ then .ok t
  else
    let backed (u : Nat) : Bool := g.backing.any fun b => decide (b.off ≤ 4 * u) && decide (4 * u < b.off + b.len)
    ((upTo 0 (l.header.local_ / 4)).filter fun u => !backed u && !(g.lost.contains u && g.bad.contains u)).foldlM
      (fun t u => t.saveUnit l g u) t

/-! ### The records (R296, R298) -/

/-- The root records of a logical cluster moved to its save block. -/
def State.saveRoots (s : State) (l : Launch) (c : Nat) : Except Deny State :=
  (Table.get [] l.roots c).zipIdx.foldlM (fun s r =>
    s.arenaWrite l.space (l.header.saveAt (c * 2 ^ l.header.w2) + 0x800 + 16 * r.2) r.1.bytes) s

/-- A group's barrier records moved to its save block, with the root records where its cluster is wholly away. -/
def State.saveRecords (s : State) (l : Launch) (g : Group) : Except Deny State := do
  let put (level : Nat) (rs : List Barrier) (s : State) : Except Deny State :=
    rs.zipIdx.foldlM (fun s r => s.arenaWrite l.space (l.header.saveAt g.number + level + 64 * r.2) r.1.bytes) s
  let s ← put 0 g.leaf s
  let s ← put 0x400 g.cleaf s
  let c := l.header.clusterOf g.number
  if s.clusterResident l c then pure s else s.saveRoots l c

/-- The root records of a logical cluster from its save block. -/
def State.storedRoots (s : State) (l : Launch) (c : Nat) : Except Deny (List Root) :=
  (s.arenaRead l.space (l.header.saveAt (c * 2 ^ l.header.w2) + 0x800) 256).map fun bs =>
    (upTo 0 16).map fun i => Root.ofBytes ((bs.drop (16 * i)).take 16)

/-- The sixteen barrier records of a group from its save block. -/
def State.storedBarriers (s : State) (l : Launch) (g level : Nat) : Except Deny (List Barrier) :=
  (s.arenaRead l.space (l.header.saveAt g + level) 1024).map fun bs =>
    (upTo 0 16).map fun i => Barrier.ofBytes ((bs.drop (64 * i)).take 64)

/-- What a read gives, or a default with what denied it. -/
def orDefault {α : Type} (x : Except Deny α) (default_ : α) : α × List Deny :=
  match x with
  | .ok a => (a, [])
  | .error d => (default_, [d])

/-- A group's last resident party has left the core: what the core held of the group goes to its save block. -/
def State.leaveCore (s : State) (l : Launch) (g : Nat) : Except Deny State :=
  if s.groupResident l.id g then .ok s
  else match s.group? l.id g with
    | none => .ok s
    | some gr => do
      let s ← s.saveScratch l gr
      s.saveRecords ((s.launch? l.id).getD l) gr

end Sys2Proof.Machine
end

