-- ==== Sys2Proof/Machine/Ops.lean ====
section
/-!
DEFINITION. The operations every meaning is built from: registers, retirement, stores with their watchers, rings, events
and tickets, taking a trap and returning from one (R33, R88, R117, R147 to R161, R222, R356, R367).
-/
namespace Sys2Proof.Machine

/-- The outcome type of every meaning. -/
abbrev Result := Host.Outcome State Fault Refusal

/-! ### Registers (R33) -/

/-- A scalar register; s0 reads zero. -/
def Party.reg (p : Party) (r : Reg) : Word := if r = 0 then 0 else p.s[r.toNat]

/-- A scalar register written; a write to s0 is discarded. -/
def Party.setReg (p : Party) (r : Reg) (v : Word) : Party :=
  if r = 0 then p else { p with s := p.s.set r.toNat v }

def Party.mask (p : Party) (n : BitVec 3) : Mask := p.p[n.toNat]
def Party.setMask (p : Party) (n : BitVec 3) (m : Mask) : Party :=
  { p with p := p.p.set n.toNat (m &&& p.allLanes) }
def Party.deadlineReg (p : Party) (n : BitVec 2) : Word := p.dl[n.toNat]
def Party.setDeadlineReg (p : Party) (n : BitVec 2) (v : Word) : Party := { p with dl := p.dl.set n.toNat v }

/-- A launch that stands where none has the party's number; no run has a party of it. -/
def Launch.blank : Launch where
  id := 0
  queue := 0
  space := { ctx := 0, asid := 0, fn := 0, root := 0, keyMask := 1, dlceil := 2 ^ 40, xlim := 0 }
  header := {
    scalar := 0, lane := 0, handler := 0, data := 0, wdef := 0, width := 32, parties := 1, depth := 8, local_ := 0
    private_ := 0, groups := 1, laneLen := 0, arena := 0, brec := 0, layout := 0, ceiling := 0, done := 0
    doneval := 0, prio := 0, nvr := 2, replay := false, brecs := 0, layouts := 0, pools := [], after := [] }
  met := []
  time := 0
  placed := 0
  clusters := []
  since := 0
  aged := false
  targets := []
  roots := []
  turn := 0
  turnUsed := false
  turnCmds := []
  gather := false

/-- The launch of a party. -/
def State.home (s : State) (p : Party) : Launch := (s.launch? p.launch).getD Launch.blank

/-- The counter from which the open choices of a party's instruction are drawn: in replay what the launch's inputs and the party's
place in its program fix, so that two runs choose alike (R353; log 74). -/
def State.seed (s : State) (p : Party) : Nat :=
  let h := (s.home p).header
  if h.replay then
    Config.replaySeed [h.scalar.toNat, h.lane.toNat, h.data.toNat, p.group, p.first, p.retired.toNat, p.pc.toNat, p.lruns, p.laneCtr,
      p.queue.length]
  else s.free

/-- The accessor of a party's scalar accesses: its private window is that of %lane 0 (R167). -/
def accessorOf (l : Launch) (p : Party) : Accessor :=
  { space := l.space, launch := some l, group := p.group, q := p.first }

/-- The accessor of the part's own accesses in a context. -/
def accessorIn (sp : Space) : Accessor := { space := sp, launch := none, group := 0, q := 0 }

/-! ### Retirement (R88, R117) -/

/-- The party after an instruction completed, with control at `next`. -/
def Party.retire (p : Party) (next : Word) : Party :=
  { p with lastPc := p.pc, pc := next, retired := if p.hmode then p.retired else p.retired + 1, yielded := false }

/-- The instruction of the party in focus completes, leaving the party as `p`, with control at `next`. -/
def State.finishAt (s : State) (p : Party) (next : Word) : State := { s with party := p.retire next }

/-- `st` written by the scalar stream; an incomplete lane instruction that writes it too leaves either value (R34). -/
def Party.setSt (p : Party) (v : Word) : Party :=
  { p with st := v, inflight := p.inflight.map fun i => { i with lsWritten := 32 :: i.lsWritten } }

/-- The same with control at the next word. -/
def State.finish (s : State) (p : Party) : State := s.finishAt p (p.pc + 4)

/-- A hold (R88): the instruction delays its own effect. -/
def hold (s : State) : Result := .next s

/-- No lane instruction is queued or outstanding (R93, R94, R104, R198).  That a memory instruction in flight without a set-flag
counts too, so that CALL, RET, EXIT, SPLIT and FUSE wait for it, is the model's choice (log 77). -/
def Party.drained (p : Party) : Bool := p.queue.isEmpty && p.inflight.isEmpty && p.flags.toList.all (· == 0)

/-! ### Loads and stores of the part and the parties -/

/-- A natural number of `n` bytes read by an access (R147, R328). -/
def State.load (s : State) (ac : Accessor) (a : Word) (n : Nat) : Except Deny Nat :=
  match s.access ac a n n .read with
  | .error d => .error d
  | .ok p => if s.unreachable p then .error { cause := .poison } else .ok (s.valueAt p n)

/-- The party in focus has read some bytes that an access finds: its logical time follows (R318). -/
def State.observe (s : State) (ac : Accessor) (a : Word) (n : Nat) : State :=
  match s.access ac a n n .read with
  | .ok p => s.partyRead p n
  | .error _ => s

/-- An access that misses L1 on a line that the party's own slot had filled adds 8 to its score, up to 255 (R196). -/
def State.noteMiss (s : State) (addr : Word) : State :=
  let p := s.party
  let tag : Copy := .victim p.core (addr.toNat / 128) (16 * p.quad + p.slot)
  if s.copies.contains tag then
    { s with copies := s.copies.filter (fun c => c != tag), party := { p with score := Nat.min 255 (p.score + 8) } }
  else s

/-- A party's replay launch stands between the end of the last turn before a suspension and its eviction (R361). -/
def State.gathered (s : State) (p : Party) : Bool :=
  let l := s.home p
  l.header.replay && l.gather && (s.context l.space.ctx).state == 2

/-- A party is away as far as its wait goes. -/
def State.away (s : State) (p : Party) : Bool := p.evicted || s.gathered p

/-- A replay party may act only in its turn, and not once it is gathered (R352, R361). -/
def State.turnAllows (s : State) (pid : Nat) : Bool :=
  match s.party? pid with
  | some p =>
    let l := s.home p
    !l.header.replay || (l.turn == pid && !l.turnUsed && !s.gathered p)
  | none => true

/-- WADDR of a resident party has met its condition once some store leaves its word different; it has then read the word, so
that its logical time follows (R209, R318).  A replay party's is tested in its turns alone (R352; log 74). -/
def State.watch (s : State) (pid : Nat) : State :=
  match s.party? pid with
  | none => s
  | some p => match p.wait with
    | none => s
    | some w =>
      if w.kind == .waddr && !w.met && !s.away p && !(s.home p).header.replay then
        match s.access (accessorOf (s.home p) p) w.w1 8 8 .read with
        | .error _ => s
        | .ok q =>
          if s.unreachable q ∨ BitVec.ofNat 64 (s.valueAt q 8) = w.w2 then s
          else
            let r := s.noteRead p.core p.pt q 8
            r.1.putParty { p with pt := r.2, wait := some { w with met := true } }
      else s

/-- A party waits at a WADDR whose word it has not seen change. -/
def Party.watches (p : Party) : Bool := p.wait.any fun w => w.kind == .waddr && !w.met

/-- Every watcher looks at its word. -/
def State.watchAll (s : State) : State := ((s.parties.filter Party.watches).map fun p => p.pid).foldl State.watch s

/-- The word of a SEMACQ holds enough: where it lies, and what it holds.  The test needs R alone; what is taken needs W too
(R207, R325). -/
def State.semaphore (s : State) (p : Party) (w : Wait) : Except Deny (Option (Place × Nat)) :=
  let ac := accessorOf (s.home p) p
  match s.access ac w.w1 8 8 .read with
  | .error d => .error d
  | .ok q =>
    if s.unreachable q ∨ s.valueAt q 8 < w.w2.toNat then .ok none
    else (s.access ac w.w1 8 8 .update).map fun q => some (q, s.valueAt q 8)

/-- A resident SEMACQ waiter is tested; what it takes is decided at once (R207). -/
def State.retest (s : State) (pid : Nat) : State :=
  match s.party? pid with
  | none => s
  | some p => match p.wait with
    | none => s
    | some w =>
      if p.live && !p.evicted && w.kind == .semacq && w.decided.isNone && !w.deadline.passed s p && s.turnAllows pid then
        match s.semaphore p w with
        | .ok (some (q, old)) =>
          let r := s.writeAs p.agent q (toBytes 8 (old - w.w2.toNat))
          (r.1.putParty { p with pt := r.2, wait := some { w with decided := some stOk } }).watchAll
        | _ => s
      else s

/-- A list in the order that a number chooses: each digit, in a falling base, picks the next element. -/
def arranged {α : Type} : (n : Nat) → (choice : Nat) → List α → List α
  | n + 1, k, l => match l[k % l.length]? with
    | some x => x :: arranged n (k / l.length) (l.eraseIdx (k % l.length))
    | none => []
  | 0, _, _ => []

/-- The SEMACQ waiters are tested, in an order of the part's choosing. -/
def State.retestAll (s : State) : State :=
  let ids := (s.parties.filter fun p => p.wait.any fun w => w.kind == .semacq).map fun p => p.pid
  (arranged ids.length (Config.freeNat s.free) ids).foldl State.retest s

/-- Bytes stored by an agent, with its logical time afterwards: the waiters on the word look at it (R207, R209, R318). -/
def State.storeAs (s : State) (a : Agent) (p : Place) (bs : List Byte) : State × Nat :=
  let r := s.writeAs a p bs
  (r.1.watchAll.retestAll, r.2)

/-- Bytes stored by the part. -/
def State.store (s : State) (p : Place) (bs : List Byte) : State := (s.storeAs .part p bs).1

/-- Bytes stored by the party in focus. -/
def State.partyStore (s : State) (p : Place) (bs : List Byte) : State :=
  let r := s.storeAs s.party.agent p bs
  r.1.atTime r.2

/-- The place of an access that writes; an absent part answers none (R328). -/
def State.writePlaceOf (s : State) (ac : Accessor) (a : Word) (n : Nat) (need : Rights) : Except Deny Place :=
  match s.access ac a n n need with
  | .error d => .error d
  | .ok p => if s.unreachable p then .error { cause := .poison } else .ok p

/-- An `n`-byte value stored by an access of the part. -/
def State.save (s : State) (ac : Accessor) (a : Word) (n : Nat) (v : Nat) : Except Deny State :=
  (s.writePlaceOf ac a n .write).map fun p => s.store p (toBytes n v)

/-- An `n`-byte value stored by an access of the party in focus. -/
def State.partySave (s : State) (ac : Accessor) (a : Word) (n : Nat) (v : Nat) : Except Deny State :=
  (s.writePlaceOf ac a n .write).map fun p => s.partyStore p (toBytes n v)

/-! ### Rings (R222, R347, R356) -/

structure Ring where
  base : Nat
  n : Nat
  z : Nat
  e : Nat
  q : Nat
  deriving DecidableEq, Repr

/-- A power of two from 1 to 65,536, and a multiple of 16 from 16 to 4,096.  A base that is not aligned is taken as it lies, which
is the model's choice (log 73). -/
def Ring.ok (r : Ring) : Bool :=
  decide (1 ≤ r.n) && decide (r.n ≤ 65536) && r.n &&& (r.n - 1) == 0 && r.z % 16 == 0 && decide (16 ≤ r.z) &&
    decide (r.z ≤ 4096)

/-- A denied access with its address. -/
def at_ {α : Type} (a : Word) : Except Deny α → Except (Deny × Word) α
  | .error d => .error (d, a)
  | .ok x => .ok x

/-- A ring header. -/
def State.ring (s : State) (ac : Accessor) (hdr : Word) : Except (Deny × Word) Ring := do
  let base ← at_ hdr (s.load ac hdr 8)
  let n ← at_ (hdr + 8) (s.load ac (hdr + 8) 8)
  let z ← at_ (hdr + 16) (s.load ac (hdr + 16) 8)
  let e ← at_ (hdr + 24) (s.load ac (hdr + 24) 8)
  let q ← at_ (hdr + 32) (s.load ac (hdr + 32) 8)
  pure { base := base, n := n, z := z, e := e, q := q }

/-- What a claim finds: no slot, or the state with the counter advanced, the claimer's time, the slot and the sequence value
that the copy publishes at its end. -/
inductive Claim where
  | full
  | slot (s : State) (time : Nat) (at_ : Word) (seq : Word)

def Ring.slotAt (r : Ring) (i : Nat) : Word := BitVec.ofNat 64 (r.base + i % r.n * (r.z + 16))

/-- A word read by an agent of a core, with the agent's time afterwards (R318). -/
def State.loadAs (s : State) (core time : Nat) (ac : Accessor) (a : Word) : Except Deny (State × Nat × Nat) :=
  match s.access ac a 8 8 .read with
  | .error d => .error d
  | .ok p =>
    if s.unreachable p then .error { cause := .poison }
    else
      let r := s.noteRead core time p 8
      .ok (r.1, r.2, s.valueAt p 8)

/-- The claim of a slot whose sequence word must hold `want`, by an agent of a core: it comes after what it reads there, the
payload's signal, and the counter at `counter` advances from `old` as one atomic (R222, R309).  A sequence word ahead of the
counter is no claim either (log 73). -/
def State.claim (s : State) (a : Agent) (core : Nat) (ac : Accessor) (slot counter : Word) (want old : Nat) (seq : Word) :
    Except (Deny × Word) Claim := do
  let (t, time, found) ← at_ slot (s.loadAs core a.time ac slot)
  if found = want then
    let p ← at_ counter (t.writePlaceOf ac counter 8 .update)
    let r := t.storeAs { a with time := Nat.max time (t.writtenAt p 8) } p (toBytes 8 (old + 1))
    pure (.slot r.1 r.2 slot seq)
  else pure .full

/-- The claim of a put (R222). -/
def State.claimPut (s : State) (a : Agent) (core : Nat) (ac : Accessor) (hdr : Word) (r : Ring) : Except (Deny × Word) Claim :=
  s.claim a core ac (r.slotAt r.e) (hdr + 24) r.e r.e (BitVec.ofNat 64 (r.e + 1))

/-- The claim of a take (R222). -/
def State.claimTake (s : State) (a : Agent) (core : Nat) (ac : Accessor) (hdr : Word) (r : Ring) : Except (Deny × Word) Claim :=
  s.claim a core ac (r.slotAt r.q) (hdr + 32) ((r.q + 1) % 2 ^ 64) r.q (BitVec.ofNat 64 (r.q + r.n))

/-! ### Events, interrupts and tickets (R356, R367) -/

/-- An MSI-X vector is raised: sent, or held pending while masked. -/
def State.interrupt (s : State) (fn vector : Nat) : State :=
  if s.unmasked.contains (fn, vector) then { s with sentIrq := s.sentIrq ++ [(fn, vector)] }
  else if s.pendingIrq.contains (fn, vector) then s
  else { s with pendingIrq := s.pendingIrq ++ [(fn, vector)] }

/-- An event record put on its context's ring; none while the ring has no room or cannot be reached.  The host can read it when
the interrupt comes (R367). -/
def State.putEvent (s : State) (ctx : Nat) (bs : List Byte) : Option State :=
  match s.ctxEntry ctx, s.spaceOf ctx with
  | some e, some sp =>
    let hdr := s.ctxField e 0x18
    let ac := accessorIn sp
    match s.ring ac hdr with
    | .error _ => none
    | .ok r =>
      if !r.ok || r.z != 64 then none
      else match s.claimPut .part 0 ac hdr r with
        | .ok (.slot s _ slot seq) =>
          match s.arenaWrite sp (slot + 16).toNat bs with
          | .error _ => none
          | .ok s =>
            match s.save ac slot 8 seq.toNat, s.unitSpans sp .read 80 slot.toNat 80 with
            | .ok s, .ok spans => some ((spans.foldl (fun s x => s.showHost x.1 x.2) s).interrupt e.fn 0)
            | .ok s, .error _ => some (s.interrupt e.fn 0)
            | .error _, _ => none
        | _ => none
  | _, _ => none

/-- The oldest waiting event records are put while there is room; an event behind another of its context waits. -/
def State.flushEvents (s : State) : State :=
  let go := s.events.foldl (fun (acc : State × List (Nat × List Byte)) e =>
    if acc.2.any fun w => w.1 == e.1 then (acc.1, acc.2 ++ [e])
    else match acc.1.putEvent e.1 e.2 with
      | some s => (s, acc.2)
      | none => (acc.1, acc.2 ++ [e])) ({ s with events := [] }, [])
  { go.1 with events := go.2 }

/-- The fields of an event record. -/
structure Event where
  kind : Nat
  cause : Nat
  src : Nat := 0
  extent : Bool := false
  keyFault : Bool := false
  malformed : Bool := false
  soft : Bool := false
  ticket : Nat := 0
  addr : Word := 0
  place : Nat := 0
  record : Nat := 0
  deriving DecidableEq, Repr

def Event.bytes (e : Event) : List Byte :=
  toBytes 8 (e.kind % 256 + e.cause % 256 * 2 ^ 8 + e.src % 4 * 2 ^ 16 + e.extent.toNat * 2 ^ 24 +
    e.keyFault.toNat * 2 ^ 25 + e.malformed.toNat * 2 ^ 26 + e.soft.toNat * 2 ^ 27 + e.ticket % 256 * 2 ^ 32) ++
  (toBytes 8 e.addr.toNat ++ (toBytes 8 e.place ++ (toBytes 8 e.record ++ List.replicate 32 0)))

/-- A context is told of an event. -/
def State.report (s : State) (ctx : Nat) (e : Event) : State :=
  { s with events := s.events ++ [(ctx, e.bytes)] }.flushEvents

/-- The where word of a party's event. -/
def Party.place (p : Party) : Nat := p.core % 128 + p.quad % 4 * 2 ^ 7 + p.slot % 16 * 2 ^ 9

/-- The address of a reply word. -/
def State.replyAt (s : State) (ctx n : Nat) : Option (Space × Word) :=
  match s.ctxEntry ctx, s.spaceOf ctx with
  | some e, some sp => some (sp, s.ctxField e 0x20 + BitVec.ofNat 64 (8 * n))
  | _, _ => none

/-- The value of a reply word. -/
def State.replyValue (s : State) (ctx n : Nat) : Option Nat :=
  match s.replyAt ctx n with
  | some (sp, a) => (s.load (accessorIn sp) a 8).toOption
  | none => none

/-- A free ticket: its reply word is 0 and no event awaits its answer. -/
def State.freeTicket (s : State) (ctx : Nat) : Option Nat :=
  (upTo 0 256).find? fun n => !(s.tickets.any fun t => t.ctx == ctx && t.number == n) && s.replyValue ctx n == some 0

/-- An event that awaits an answer: the ticket it was given, or none while no ticket is free. -/
def State.ask (s : State) (ctx : Nat) (who : Asker) (e : Event) : Option Nat × State :=
  match s.freeTicket ctx with
  | none => (none, s)
  | some n =>
    let s : State := { s with tickets := s.tickets ++ [{ ctx := ctx, number := n, asker := who }] }
    (some n, s.report ctx { e with ticket := n })

/-! ### Trap records (R153) -/

/-- The address of a party's trap record. -/
def Party.recordAt (p : Party) (l : Launch) : Nat := l.header.recordAt p.group p.first

/-- A mask image: the summary, then the data words (R153, R288). -/
def maskBytes (m : Mask) : List Byte := toBytes 4 (summary m).toNat ++ toBytes 128 m.toNat

def recordBytes (t : Trap) (sdec : Bool) (s60 s61 s62 s63 : Word) : List Byte :=
  toBytes 8 (t.cause.code + t.src * 2 ^ 8 + t.boff * 2 ^ 10 + sdec.toNat * 2 ^ 16) ++ (toBytes 8 t.pc.toNat ++
  (toBytes 8 t.resume.toNat ++ (toBytes 8 t.addr.toNat ++ (toBytes 8 t.code.toNat ++ (toBytes 8 0 ++
  (toBytes 8 s60.toNat ++ (toBytes 8 s61.toNat ++ (toBytes 8 s62.toNat ++ (toBytes 8 s63.toNat ++
  (List.replicate 48 0 ++ (maskBytes t.done ++ (List.replicate 124 0 ++ (toBytes 512 t.causes.toNat ++
  List.replicate 128 0)))))))))))))

/-- Word 0 of the record, as s61 receives it. -/
def Trap.word0 (t : Trap) (sdec : Bool) : Word :=
  BitVec.ofNat 64 (t.cause.code + t.src * 2 ^ 8 + t.boff * 2 ^ 10 + sdec.toNat * 2 ^ 16)

/-- A cause of a scalar instruction at `pc` (src 0). -/
def Trap.scalar (c : Cause) (pc resume : Word) : Trap :=
  { cause := c, src := 0, boff := 0, pc := pc, resume := resume, addr := 0, code := 0, done := 0, causes := 0
    offerAddr := 0, extent := false, keyFault := false, malformed := false, lane := false, ofRecord := false, dest := none, wait := none }

/-- A denied access as the cause of a trap. -/
def Trap.denied (t : Trap) (d : Deny) (addr : Word) : Trap :=
  { t with cause := d.cause, addr := addr, offerAddr := addr, extent := d.extent, keyFault := d.keyFault, malformed := d.malformed }

/-! ### Completion of lane memory instructions (R42, R182, R194) -/

/-- The flag of a set field; 15 names none (R65). -/
def setFlag (set : BitVec 4) : Option Nat := if set.toNat < 12 then some set.toNat else none

def Party.raiseCount (p : Party) (set : BitVec 4) : Party :=
  if h : set.toNat < 12 then { p with flags := p.flags.set set.toNat (p.flags[set.toNat] + 1) } else p

def Party.lowerCount (p : Party) (set : BitVec 4) : Party :=
  if h : set.toNat < 12 then { p with flags := p.flags.set set.toNat (p.flags[set.toNat] - 1) } else p

/-- The head instruction of the lane queue leaves it. -/
def Party.popHead (p : Party) : Party :=
  match p.queue with
  | [] => p
  | b :: rest => if p.laneCtr + 1 < b.len then { p with laneCtr := p.laneCtr + 1 } else { p with queue := rest, laneCtr := 0 }

/-- The writes of an instruction that has completed are marked so (R195). -/
def Party.markComplete (p : Party) (origin : Nat × Nat) : Party :=
  { p with recent := p.recent.map fun r =>
      if r.complete.isNone && r.origin == origin then { r with complete := some p.lruns } else r }

/-- The ends of the lanes as `st` is offered them: a lane that ended TIMEOUT before a reissue offers its code still, though it
writes 0 in `ls` (R158, R182; log 63). -/
def InFlight.offered (i : InFlight) : List (Nat × LaneEnd) :=
  if i.anyRemote then i.ends.map fun e => if e.2 == .ok && i.late.getLsbD e.1 then (e.1, .timeout) else e else i.ends

/-- A lane memory instruction completes: `ls`, `st`, its set-flag, and where it had a remote lane the expiry count and
STUCK (R42, R182, R183, R194). -/
def State.completeMemory (s : State) (p : Party) (i : InFlight) : Party :=
  let ls := lsAfter p.ls i.ends
  let ls := i.lsWritten.foldl (fun m w =>
    if Config.freeBit (s.seed p) (w * 8 + 2) then setMaskWord m w (maskWord p.ls w) else m) ls
  let expired := i.late != 0 || i.ends.any fun e => e.2 == .timeout || e.2 == .remote
  let count := if i.anyRemote then countAfter i.deadline expired p.xcount else p.xcount
  let seed := s.seed p
  let p := (p.lowerCount i.f.set).markComplete (i.order, i.boff)
  let st := if i.lsWritten.contains 32 && Config.freeBit seed 258 then p.st else (laneStatus i.deadline i.offered).getD p.st
  let p := { p with ls := ls, st := st, xcount := count }
  if i.anyRemote && escalates i.deadline expired count (s.home p).space.xlim then
    { p with stucks := p.stucks ++ [{ Trap.scalar .stuck i.lrun 0 with
        src := 1, boff := i.boff, lane := true, code := BitVec.ofNat 64 (i.deadline.sel.toNat + count.toNat * 256) }] }
  else p

/-- The head instruction, whose cause was declined, completes: lanes not done end FAULT or POISON, `done` lanes end well
(R158).  A lane whose nibble in the record names no cause takes the reported one (log 72).  What its issues had to do with
other parts counts as one wait (R183; log 63). -/
def State.declineHead (s : State) (p : Party) (t : Trap) : Party :=
  match p.headOp, p.queue with
  | some h, b :: _ =>
    let ends := (lanesOf h.mask p.width).map fun l =>
      let nib := bitsOf t.causes.toNat (4 * l) 4
      (l, if t.done.getLsbD l then LaneEnd.ok
          else if nib = 5 then .poison
          else .fault ((Cause.ofCode (0x0F + nib)).getD t.cause))
    let i : InFlight := {
      op := h.op, f := h.f, order := b.order, boff := p.laneCtr, lrun := b.lrun, ends := ends, deadline := h.deadline
      anyRemote := h.anyRemote, late := h.late, remotes := [], issuedAt := 0, denied := [], lsWritten := [] }
    { (s.completeMemory p i).popHead with headOp := none, handlingLane := false, redo := none }
  | _, _ => { p with headOp := none, handlingLane := false, redo := none }

/-! ### Leaving: exits and halts -/

/-- The range of a party's aligned neighbour (R106). -/
def Party.neighbour (p : Party) : Nat := p.first ^^^ p.width

/-- Two ranges of group positions meet. -/
def rangesMeet (a w b v : Nat) : Bool := decide (a < b + v) && decide (b < a + w)

/-- Standing FUSE arrivals whose neighbour's range a party covers end with a code (R107). -/
def State.endFuses (s : State) (p : Party) (code : Word) : State :=
  let f (x : Party) : Party := match x.wait with
    | some w =>
      if w.kind == .fuse && w.decided.isNone && x.pid != p.pid && x.launch == p.launch && x.group == p.group &&
          rangesMeet x.neighbour x.width p.first p.width then
        { x with wait := some { w with decided := some code } }
      else x
    | none => x
  { s with party := f s.party, others := s.others.map f }

/-- A resident party has left its group: what the core held of a group, or of a logical cluster, that is now wholly away goes
to the save block (R284, R296).  A record that cannot be written there is lost (log 64). -/
def State.goHome (s : State) (l : Launch) (g : Group) : State :=
  let s := if g.ended then s else match s.leaveCore l g.number with
    | .ok t => t
    | .error _ => s
  let c := l.header.clusterOf g.number
  if s.clusterResident l c then s
  else match s.saveRoots ((s.launch? l.id).getD l) c with
    | .ok t => t
    | .error _ => s

/-- A party, `resident` until now, has left by an exit or a halt: its group ends once none of its parties is left (R94, R350). -/
def State.closeGroup (s : State) (launch number : Nat) (resident : Bool) : State :=
  match s.launch? launch, s.group? launch number with
  | some l, some g =>
    let over_ := !s.parties.any fun p => p.launch == launch && p.group == number && p.live
    let s := if over_ then (s.keepScratch g).putGroup { g with ended := true, backing := [], spad := [], bad := [], lost := [] } else s
    if resident then s.goHome l { g with ended := over_ } else s
  | _, _ => s

/-- The party in focus halts (R156): it leaves its barriers and neighbours as for an exit, and a DOUBLE report goes to
system software. -/
def State.halt (s : State) (soft : Bool := false) : State :=
  let p := s.party
  let l := s.home p
  let s := s.dropBarriers l p
  let p := { s.party with life := .halted, stopped := false, wait := none, pendingLane := none, stucks := [], raised := none, offer := none
                          queue := [], laneCtr := 0, part := none, redo := none, headOp := none, handlingLane := false }
  let s := ({ s with party := p }.endFuses p stFuseGone).closeGroup p.launch p.group (!p.evicted)
  s.report l.space.ctx { kind := 2, cause := Cause.double.code, soft := soft, place := p.place, record := p.recordAt l }

/-! ### Taking a trap (R148 to R156, R160) -/

/-- The scalar instruction at `t.pc` ends FAULT or POISON: nothing it would have done is done (R158).  A wait that was no
poll has ended with another outcome than its expiry (R38). -/
def State.declineScalar (s : State) (t : Trap) : State :=
  let p := s.party
  let st := stFault t.cause
  let p := p.setSt st
  let p := match t.dest with
    | some d => p.setReg d (codeOf st)
    | none => p
  let count := match t.wait with | some d => countAfter d false p.xcount | none => p.xcount
  { s with party := { p with lastPc := t.pc, pc := t.pc + 4, retired := p.retired + 1, xcount := count } }

/-- The event of a fault offered: kind 1. -/
def Trap.event (t : Trap) (place record : Nat) : Event :=
  { kind := 1, cause := t.cause.code, src := t.src, extent := t.extent, keyFault := t.keyFault, malformed := t.malformed
    addr := t.offerAddr, place := place, record := record }

/-- The event of a write that is dropped: kind 4, whose record field is 0 (R356). -/
def Trap.dropped (t : Trap) (place : Nat) : Event := { t.event place 0 with kind := 4 }

/-- The event that asks about a cause of a party, or tells of its STUCK: kind 3 (R160, R356). -/
def Party.trapEvent (p : Party) (l : Launch) (t : Trap) : Event :=
  if t.cause = .stuck then { t.event p.place (p.recordAt l) with kind := 3, addr := 0 } else t.event p.place 0

def Party.asker (p : Party) (t : Trap) : Asker := if t.cause = .stuck then .stuck p.pid else .party p.pid

/-- System software is asked about a cause of the party in focus (R151), or told of STUCK (R160). -/
def State.offerTrap (s : State) (t : Trap) : State :=
  let p := s.party
  let l := s.home p
  let r := s.ask l.space.ctx (p.asker t) (p.trapEvent l t)
  { r.2 with party := { r.2.party with offer := some { trap := t, ticket := r.1 } } }

/-- Some lane instruction has issued and is not complete (R152). -/
def Party.laneBusy (p : Party) : Bool := !p.inflight.isEmpty || p.part.isSome

/-- A cause of the lane stream with the resume address it has at the boundary where the handler is entered (R153). -/
def Trap.atBoundary (t : Trap) (pc : Word) : Trap := if t.lane then { t with resume := pc } else t

/-- A trap is delivered to the party handler (R152): until every lane instruction that has issued is complete it stays latched,
and the party issues nothing.  Then the record is written, s60 to s63 are saved and set, and the handler is entered.  A denied
write of the record is a cause of its own (R345).  Without a handler an access cause of a scalar or lane instruction is
declined, and every other cause halts the party. -/
def State.deliver (s : State) (t : Trap) (sdec : Bool) : State :=
  let p := s.party
  let l := s.home p
  let t := t.atBoundary p.pc
  if p.laneBusy then { s with party := { p with raised := some (t, sdec) } }
  else if l.header.handler = 0 then
    if t.cause.isAccess && t.src == 0 then { s with party := { p with raised := none } }.declineScalar t
    else if t.cause.isAccess && t.src == 1 then
      { s with party := { s.declineHead p t with pendingLane := none, raised := none } }
    else s.halt
  else
    let a := p.recordAt l
    match s.arenaWrite l.space a (recordBytes t sdec (p.reg 60) (p.reg 61) (p.reg 62) (p.reg 63)) with
    | .error d =>
      if d.cause = .permission ∨ d.cause = .translation then
        { s with party := { p with raised := some (t, sdec) } }.offerTrap
          { (Trap.scalar d.cause p.pc p.pc).denied d (BitVec.ofNat 64 a) with src := 3, ofRecord := true }
      else s.halt
    | .ok s =>
      let p := s.party
      let p := (((p.setReg 60 (BitVec.ofNat 64 a)).setReg 61 (t.word0 sdec)).setReg 62 t.addr).setReg 63 t.resume
      { s with party := { p with
          hmode := true, wait := none, raised := none, looseMasks := [], faulted := some { dest := t.dest, wait := t.wait }
          pc := l.header.handler, lastPc := l.header.handler
          pendingLane := if t.lane then none else p.pendingLane
          handlingLane := t.src == 1 && t.cause.isAccess } }

/-- TAKING AN EXCEPTION, the one shared operation: a cause of the party in focus is taken.  In handler mode it is a DOUBLE
(R155); PERMISSION and TRANSLATION are offered to system software first (R151); every other cause is delivered.  A party has
one trap pending at a time (R148): while another is offered or being delivered, nothing happens. -/
def State.takeTrap (s : State) (t : Trap) : State :=
  if s.party.hmode then s.halt
  else if s.party.offer.isSome || s.party.raised.isSome then s
  else if t.cause = .permission ∨ t.cause = .translation then s.offerTrap t
  else s.deliver t false

/-- An instruction of the party in focus raises a cause: the next state has taken it. -/
def raise (s : State) (t : Trap) : Result := .next (s.takeTrap t)

/-- A POISON outcome raises the reader's logical time as a read would (R338). -/
def State.sawPoison (s : State) (ac : Accessor) (d : Deny) (a : Word) : State :=
  if d.cause = .poison then
    match s.windowPlace ac a.toNat 1 .read with
    | .ok p => s.partyRead p 1
    | .error _ => s
  else s

/-- A scalar access of the party in focus that was denied; `dest` receives the status of the instruction, if one does. -/
def raiseDeny (s : State) (d : Deny) (addr : Word) (dest : Option Reg := none) : Result :=
  raise (s.sawPoison (accessorOf (s.home s.party) s.party) d addr)
    { (Trap.scalar d.cause s.party.pc s.party.pc).denied d addr with dest := dest }

/-- The cause of an access of a wait. -/
def Wait.trap (w : Wait) (pc : Word) (d : Deny) (addr : Word) : Trap :=
  { (Trap.scalar d.cause pc pc).denied d addr with dest := some w.dest, wait := some w.deadline }

/-- An access of a wait of the party in focus that was denied. -/
def raiseWait (s : State) (w : Wait) (d : Deny) (addr : Word) : Result :=
  raise (s.sawPoison (accessorOf (s.home s.party) s.party) d addr) (w.trap s.party.pc d addr)

/-- A scalar word is ILLEGAL (R57). -/
def raiseIllegal (s : State) : Result := raise s (Trap.scalar .illegal s.party.pc (s.party.pc + 4))

/-- A STACK cause: nothing but the trap (R93, R103). -/
def raiseStack (s : State) : Result := raise s (Trap.scalar .stack s.party.pc (s.party.pc + 4))

/-- A form that handler mode turns into DOUBLE (R155). -/
def doubleInHandler (s : State) (r : Result) : Result := if s.party.hmode then .next s.halt else r

/-- STUCK (R160): the record is written, the party stops, and system software is told. -/
def State.stick (s : State) (t : Trap) : State :=
  let p := s.party
  let l := s.home p
  let t := { t with resume := p.pc }
  let s := match s.arenaWrite l.space (p.recordAt l) (recordBytes t false (p.reg 60) (p.reg 61) (p.reg 62) (p.reg 63)) with
    | .ok s => s
    | .error _ => s
  { s with party := { s.party with stopped := true } }.offerTrap t

/-- STUCK is taken at once, or, while another trap of the party is pending, after it (R148, R160). -/
def State.stickNext (s : State) (t : Trap) : State :=
  if s.party.offer.isSome || s.party.raised.isSome then { s with party := { s.party with stucks := s.party.stucks ++ [t] } }
  else s.stick t

/-! ### Ending a wait (R38, R39) -/

/-- A wait of the party in focus ends with a status: `st`, its destination, the expiry count, retirement, and STUCK where
an expiry escalates. -/
def State.endWait (s : State) (dest : Reg) (d : Deadline) (st : Word) (expired : Bool) : State :=
  let p := s.party
  let count := countAfter d expired p.xcount
  let pc := p.pc
  let s := s.finish (({ p with xcount := count, wait := none }.setSt st).setReg dest (codeOf st))
  if escalates d expired count (s.home p).space.xlim then
    s.stickNext { Trap.scalar .stuck pc (pc + 4) with code := BitVec.ofNat 64 (d.sel.toNat + count.toNat * 256) }
  else s

/-! ### Returning from a trap (R158) -/

/-- A lane instruction whose cause the handler repaired, or system software did, is issued again for the lanes not done. -/
def Party.reissue (p : Party) (done : Mask) : Party :=
  { p with redo := some done, pendingLane := none, handlingLane := false }

/-- RETT in handler mode: the record is read back, s60 to s63 are restored, handler mode is left, and the instruction that
trapped is retried or declined.  Bits 1:0 of a pc or resume field that a handler wrote are taken as zero, and where the handler
has made the record name a lane access that no queued instruction raised, the lane instruction then at the head counts as reissued
(R158; log 72). -/
def State.returnTrap (s : State) : State :=
  let p := s.party
  let l := s.home p
  match s.arenaRead l.space (p.recordAt l) 1024 with
  | .error _ => s.halt
  | .ok bs =>
    let word (off : Nat) : Word := BitVec.ofNat 64 (ofBytes ((bs.drop off).take 8))
    let w0 := (word 0).toNat
    let cause := (Cause.ofCode (w0 % 256)).getD .illegal
    let src := bitsOf w0 8 2
    let decline := (word 0x28).getLsbD 0
    let resume := word 0x10 &&& ~~~3
    let done : Mask := BitVec.ofNat 1024 (ofBytes ((bs.drop 0x84).take 128)) &&& p.allLanes
    let causes : BitVec 4096 := BitVec.ofNat 4096 (ofBytes ((bs.drop 0x180).take 512))
    let t : Trap := { Trap.scalar cause (word 8 &&& ~~~3) resume with
      src := src, done := done, causes := causes, dest := p.faulted.bind Faulted.dest, wait := p.faulted.bind Faulted.wait }
    let access := cause.isAccess && decide (0x10 ≤ w0 % 256)
    let here := p.pc
    let p := (((p.setReg 60 (word 0x30)).setReg 61 (word 0x38)).setReg 62 (word 0x40)).setReg 63 (word 0x48)
    let p := { p with hmode := false }
    -- where the record no longer names the lane access that the handler was entered for, its instruction is not reissued
    let other : Party := if p.handlingLane then { p with handlingLane := false, headOp := none } else p
    let back (p : Party) : State :=
      { s with party := { p with pc := resume, lastPc := here, retired := p.retired + 1, yielded := false } }
    if access && src == 1 then
      if decline then back (s.declineHead p t) else back (p.reissue done)
    else if access && src == 0 then
      if decline then
        let u := { s with party := other }.declineScalar t
        { u with party := { u.party with lastPc := here } }
      else back other
    else if (src == 2 || src == 3) && decline then { s with party := p }.halt
    else back other

end Sys2Proof.Machine
end

