-- ==== Sys2Proof/Machine/Operands.lean ====
section
/-!
DEFINITION. Lane registers and their windows, every operand form of the lane stream, the hazards of reading too early, the
effective mask, and what a queued lane instruction reads (R11, R25 to R31, R34, R61, R68, R119 to R122, R195).
-/
namespace Sys2Proof.Machine

/-! ### Lane registers (R30, R31, R68) -/

/-- The key of a register: group position and stack position. -/
def regKey (q pos : Nat) : Nat := 1024 * q + pos

/-- A lane register of the stack; where no rule gave it a value, a free value (log 8). -/
def Party.laneReg (p : Party) (key : Nat) : BitVec 32 :=
  match p.regs.find? fun e => e.1 == key with
  | some e => e.2
  | none => if key % 1024 < p.fresh then 0 else Config.laneRegister p.regTag (key / 1024) (key % 1024)

/-- Two rising lists of entries merged, the first winning. -/
def mergeEntries {α : Type} : (fuel : Nat) → Table α → Table α → Table α
  | 0, a, _ => a
  | _ + 1, [], b => b
  | _ + 1, a, [] => a
  | n + 1, x :: a, y :: b =>
    if x.1 < y.1 then x :: mergeEntries n a (y :: b)
    else if y.1 < x.1 then y :: mergeEntries n (x :: a) b
    else x :: mergeEntries n a b

def Party.putRegs (p : Party) (new : Table (BitVec 32)) : Party :=
  { p with regs := mergeEntries (new.length + p.regs.length) new p.regs }

/-- An earlier writer's value is certain for a reader: it waits on the writer's flag, its gaps reach the result distance,
or the writer completed before the reader was enqueued (R195). -/
def Recent.settled (r : Recent) (f : LaneF) (order : Nat) : Bool :=
  (match r.flag with | some n => f.wait.getLsbD n | none => false) ||
  (match r.distance with | some d => decide (d ≤ r.gap + f.gap.toNat) | none => false) ||
  (match r.complete with | some n => decide (n < order) | none => false)

/-- The same without its completion: what the reader itself waited for. -/
def Recent.awaited (r : Recent) (f : LaneF) : Bool :=
  (match r.flag with | some n => f.wait.getLsbD n | none => false) ||
  (match r.distance with | some d => decide (d ≤ r.gap + f.gap.toNat) | none => false)

/-- A register as an instruction reads it: the latest value, or freely the one before each writer it cannot be sure of,
the latest writer first, up to one it can be sure of (R195). -/
def readThrough (seed : Nat) (f : LaneF) (order key : Nat) : (n : Nat) → List Recent → BitVec 32 → BitVec 32
  | _, [], v => v
  | n, r :: rs, v =>
    match r.regs.find? fun e => e.1 == key with
    | none => readThrough seed f order key n rs v
    | some e =>
      if !r.settled f order && Config.freeBit seed (key * 64 + n * 2 + 1) then readThrough seed f order key (n + 1) rs e.2
      else v

/-- What the lane instruction at the head of a party's queue reads from. -/
structure LaneCtx where
  s : State
  p : Party
  h : Header
  b : Block
  op : LaneOp
  f : LaneF

/-- The fields by which the instruction waits: a reissue's gap has been counted at its first issue (R193). -/
def LaneCtx.reader (c : LaneCtx) : LaneF := if c.p.redo.isSome then { c.f with gap := 0 } else c.f

/-- The writers whose effect on this instruction is open, the latest first. -/
def LaneCtx.unsettled (c : LaneCtx) : List Recent := (c.p.recent.filter fun r => !r.settled c.reader c.b.order).reverse

/-- A 32-bit register of a lane: register `n` of the window (R30). -/
def LaneCtx.reg (c : LaneCtx) (lane n : Nat) : Nat :=
  let key := regKey (c.p.first + lane) (c.p.b + n)
  (readThrough (c.s.seed c.p) c.reader c.b.order key 0 c.p.recent.reverse (c.p.laneReg key)).toNat

/-- `k` consecutive registers as one number, the lowest register least significant (R68). -/
def LaneCtx.regs (c : LaneCtx) (lane n : Nat) : (k : Nat) → Nat
  | 0 => 0
  | k + 1 => c.reg lane n + 2 ^ 32 * c.regs lane (n + 1) k

/-! ### Masks (R27, R28, R122) -/

/-- A mask register as the instruction reads it (R122). -/
def LaneCtx.mask (c : LaneCtx) (n : Nat) : Mask :=
  let snap : Mask := if h : n < 8 then c.b.p[n] else 0
  c.p.recent.zipIdx.foldl (fun m e =>
    match e.1.mask with
    | some (k, lanes, value) =>
      if k != n then m
      else if e.1.complete.any fun x => decide (x < c.b.order) then
        -- in the snapshot, as is what was written over it, but for a writer that the scalar stream may not have seen (R34)
        if !c.b.unseen.contains e.1.origin then (m &&& ~~~lanes) ||| (snap &&& lanes)
        else if e.1.awaited c.reader then (m &&& ~~~lanes) ||| (value &&& lanes) else m
      else
        let m' := (m &&& ~~~lanes) ||| (value &&& lanes)
        if e.1.settled c.reader c.b.order then m'
        else (upTo 0 (c.p.width / 32)).foldl (fun a i =>
          if Config.freeBit (c.s.seed c.p) ((n * 32 + i) * 64 + e.2 * 2) then setMaskWord a i (maskWord m i) else a) m'
    | none => m) snap

/-- The head instruction has begun: it is to be reissued, or some of its events are done. -/
def Party.mid (p : Party) : Bool := p.redo.isSome || p.part.isSome

/-- The head instruction as it was fetched, while the rest of its events or its reissue are to come (R67). -/
def Party.begun (p : Party) : Option HeadOp := if p.mid then p.headOp else none

/-- The effective mask (R28); a reissue, and the later events of an instruction, keep the one it had. -/
def LaneCtx.effective (c : LaneCtx) : Mask :=
  let p0 := c.mask 0
  let m := if c.f.pred = 0 then p0
    else if c.f.neg then p0 &&& ~~~c.mask c.f.pred.toNat else p0 &&& c.mask c.f.pred.toNat
  match c.p.begun with
  | some h => h.mask
  | none => m &&& c.p.allLanes

/-- The lanes an instruction executes: the effective mask without those that a reissue leaves out (R158). -/
def LaneCtx.active (c : LaneCtx) : Mask :=
  match c.p.redo with
  | some done => c.effective &&& ~~~done
  | none => c.effective

/-! ### Operand values (R11, R61, R68, R119) -/

end Sys2Proof.Machine
namespace Sys2Proof
open Machine

/-- The part format of a floating type. -/
def Ty.fmt : Ty → Fmt
  | .f16 => .f16
  | .bf16 => .bf16
  | .f64 | .c64 => .f64
  | _ => .f32

/-- The number of bits of a value of a type. -/
def Ty.width (t : Ty) : Nat := t.bytes * 8

/-- 1 in a type (R61). -/
def Ty.one (t : Ty) : Nat := if t.isF || t.isC then t.fmt.bias * 2 ^ t.fmt.frac else 1

end Sys2Proof
namespace Sys2Proof.Machine

/-- A lane's work identifier (R25). -/
def workId (h : Header) (group q : Nat) : Nat :=
  let w (k : Nat) := bitsOf h.wdef.toNat (8 * k) 8
  q + group % 2 ^ (w 2 + w 3 + w 4 + w 5) * 2 ^ (w 0 + w 1)

/-- A special operand (R61). -/
def LaneCtx.special (c : LaneCtx) (lane code : Nat) (t : Ty) : Nat :=
  let v := match code with
    | 0xC1 => Ty.one t
    | 0xC2 => lane
    | 0xC3 => c.p.width
    | 0xC4 => c.p.first / c.p.width
    | 0xC5 => workId c.h c.p.group (c.p.first + lane) % 2 ^ 32
    | 0xC6 => workId c.h c.p.group (c.p.first + lane) / 2 ^ 32
    | 0xC7 => c.p.first / c.p.width % 2
    | 0xD0 =>
      let i := c.f.imm.toNat
      if (t == .i32 || t == .i64) && c.f.imm.getLsbD 15 then i + (2 ^ Ty.width t - 2 ^ 16) else i
    | _ => 0
  v % 2 ^ Ty.width t

/-- A scalar register of the block's snapshot (R34). -/
def Block.reg (b : Block) (n : Nat) : Nat := if h : n < 64 then (if n = 0 then 0 else b.s[n].toNat) else 0

/-- The value of an operand code at a type in a lane.  At an 8-bit type a scalar register gives its bits 7:0, which R68 does not
list (log 72). -/
def LaneCtx.value (c : LaneCtx) (lane : Nat) (code : BitVec 8) (t : Ty) : Nat :=
  let n := code.toNat
  if n < 0x80 then c.regs lane n t.regs % 2 ^ Ty.width t
  else if n < 0xC0 then
    (if t = .c64 then c.b.reg (n - 0x80) + 2 ^ 64 * c.b.reg (n - 0x80 + 1) else c.b.reg (n - 0x80)) % 2 ^ Ty.width t
  else c.special lane n t

/-- The registers that a result of a type fills, with narrow types placed as R68 states. -/
def placeValue (t : Ty) (v : Nat) : List (BitVec 32) :=
  match t with
  | .i8 => [(BitVec.ofNat 8 v).signExtend 32]
  | .i16 => [(BitVec.ofNat 16 v).signExtend 32]
  | .n8 => [BitVec.ofNat 32 (v % 2 ^ 8)]
  | .n16 | .f16 | .bf16 => [BitVec.ofNat 32 (v % 2 ^ 16)]
  | _ => (upTo 0 t.regs).map fun i => BitVec.ofNat 32 (v / 2 ^ (32 * i))

/-- The entries that write consecutive registers of a lane. -/
def entriesOf (q pos : Nat) (ws : List (BitVec 32)) : Table (BitVec 32) :=
  ws.zipIdx.map fun w => (regKey q (pos + w.2), w.1)

/-! ### Rounding modes -/

end Sys2Proof.Machine
namespace Sys2Proof
open Machine

/-- The code of the instruction's rounding field, if it has one (R34, R63). -/
def LaneOp.roundingCode (op : LaneOp) (f : LaneF) : Option Nat :=
  let i := f.imm.toNat
  match op with
  | .add | .sub | .mul => if f.ty.isZ then none else some (i % 8)
  | .fma | .div | .sqrt | .rcp | .rsqrt | .rint | .mma | .mmas => some (i % 8)
  | .cvt => some (i / 16 % 8)
  | .red | .scan => if f.ty.isF && i % 8 == 0 then some (i / 8 % 8) else none
  | _ => none

end Sys2Proof
namespace Sys2Proof.Machine

/-- The mode: the fixed one, or that of `rnd` in the snapshot for .dyn (R72). -/
def LaneCtx.mode (c : LaneCtx) : Rounding :=
  match c.op.roundingCode c.f with
  | some 4 => Rounding.ofCode (c.b.rnd.toNat % 4)
  | some m => Rounding.ofCode m
  | none => .rn

/-! ### What queued instructions read (R34) -/

end Sys2Proof.Machine
namespace Sys2Proof
open Machine

/-- The scalar registers an instruction reads. -/
def LaneOp.scalarReads (op : LaneOp) (f : LaneF) : List Nat :=
  let pair := op == .mma || op == .mmas || f.ty == .c64
  [f.dst, f.a, f.b, f.c].flatMap fun code =>
    let n := code.toNat
    if 0x80 ≤ n ∧ n < 0xC0 then (if pair then [n - 0x80, n - 0x80 + 1] else [n - 0x80]) else []

/-- The mask registers an instruction reads. -/
def LaneOp.maskReads (op : LaneOp) (f : LaneF) : List Nat :=
  0 :: f.pred.toNat :: (if op = .sel then [f.imm.toNat % 8] else if op = .cmp ∧ f.imm.toNat / 8 % 4 ≠ 0 then [f.dst.toNat] else [])

end Sys2Proof
namespace Sys2Proof.Machine

/-- What a queued instruction that has not issued is, as far as its fetch shows. -/
inductive Queued where
  | unread               -- its fetch is denied now
  | illegal (w : BitVec 96)
  | instr (op : LaneOp) (f : LaneF)

/-- What a lane instruction that is still to be fetched is. -/
def State.queued (s : State) (l : Launch) (index : Nat) : Queued :=
  match s.fetchLane l index with
  | .ok w => match decodeLane w with
    | .ok i => match i.lane? with
      | some x => .instr x.1 x.2
      | none => .illegal w
    | .error _ => .illegal w
  | .error _ => .unread

/-- The instructions of the queue that have not issued, each with its block; a head that has begun, or raised a cause, is what was
fetched then (R67). -/
def State.unissued (s : State) (p : Party) : List (Block × Queued) :=
  p.queue.zipIdx.flatMap fun e =>
    let from_ := if e.2 = 0 then p.laneCtr else 0
    (upTo from_ (e.1.len - from_)).map fun i =>
      (e.1, match if e.2 = 0 ∧ i = from_ then p.headOp else none with
        | some h => .instr h.op h.f
        | none => s.queued (s.home p) (e.1.first + i))

/-- Some queued instruction reads what `reads` says; of one whose fetch is denied now nothing is known, so it may read anything,
and one that is to be discarded reads nothing (R34, R66; log 66). -/
def State.queueReads (s : State) (p : Party) (reads : LaneOp → LaneF → Bool) : Bool :=
  (s.unissued p).any fun q => match q.2 with
    | .unread => true
    | .illegal _ => false
    | .instr op f => reads op f

/-- A write of a scalar register holds while a queued instruction reads it; in handler mode the queue is frozen and nothing
holds (R34, R155). -/
def State.holdsReg (s : State) (p : Party) (r : Reg) : Bool :=
  !p.hmode && !p.queue.isEmpty && r != 0 && s.queueReads p fun op f => (op.scalarReads f).contains r.toNat
def State.holdsMask (s : State) (p : Party) (n : BitVec 3) : Bool :=
  !p.hmode && !p.queue.isEmpty && s.queueReads p fun op f => (op.maskReads f).contains n.toNat
def State.holdsDl (s : State) (p : Party) (n : BitVec 2) : Bool :=
  !p.hmode && !p.queue.isEmpty && s.queueReads p fun op f => (op == .ld || op == .atom || op == .acas) && f.dl == n
def State.holdsRnd (s : State) (p : Party) : Bool :=
  !p.hmode && !p.queue.isEmpty && s.queueReads p fun op f => op.roundingCode f == some 4
def Party.holdsNvr (p : Party) : Bool := !p.hmode && !p.queue.isEmpty

/-! ### What the scalar stream reads of lane writes (R34) -/

/-- A mask register as the scalar stream reads it: each data word as it is after all lane writers, or freely before the latest
of those that it may not see yet. -/
def State.scalarMask (s : State) (p : Party) (n : BitVec 3) : Mask :=
  match (p.looseMasks.filter fun e => e.reg == n.toNat).map LooseMask.old with
  | [] => p.mask n
  | olds => (upTo 0 (p.width / 32)).foldl (fun a i =>
      let pick := (Config.freeWord (s.seed p) ((n.toNat * 32 + i) * 8 + 3)).toNat % (olds.length + 1)
      if pick = 0 then a else setMaskWord a i (maskWord ((olds[pick - 1]?).getD a) i)) (p.mask n)

/-- Lane writers that have become certain: what stood before the earlier ones has their writes too. -/
def certify (sure : LooseMask → Bool) (l : List LooseMask) : List LooseMask :=
  (l.foldl (fun (acc : List LooseMask × List LooseMask) e =>
    if sure e then (acc.1, acc.2 ++ [e])
    else
      let old := acc.2.foldr (fun w m => if w.reg = e.reg then (m &&& ~~~w.lanes) ||| (w.value &&& w.lanes) else m) e.old
      (acc.1 ++ [{ e with old := old }], acc.2)) ([], [])).1

/-- A mask register written by the scalar stream.  Where lane writers of it are still incomplete, the final content of each
word is the scalar stream's or theirs (R34).  A lane instruction that was enqueued before, as in a handler, still reads the
lane writes that it follows (R122). -/
def Party.writeMask (p : Party) (free : Nat) (n : BitVec 3) (m : Mask) : Party :=
  let mine := m &&& p.allLanes
  let open_ := p.looseMasks.any fun e => e.reg == n.toNat
  let final := if open_ then (upTo 0 (p.width / 32)).foldl (fun a i =>
      if Config.freeBit free ((n.toNat * 32 + i) * 8 + 6) then setMaskWord a i (maskWord (p.mask n) i) else a) mine else mine
  { p.setMask n final with
      looseMasks := p.looseMasks.map fun e => if e.reg = n.toNat then { e with old := mine, lanes := 0 } else e }

/-- The lane writers of masks that a snapshot taken now may lack. -/
def Party.unseen (p : Party) : List (Nat × Nat) := (p.looseMasks.filter fun e => e.lanes != 0).map fun e => (e.order, e.boff)

/-- The mask registers of an LRUN's snapshot. -/
def State.snapMasks (s : State) (p : Party) : Vector Mask 8 :=
  if p.looseMasks.isEmpty then p.p else Vector.ofFn fun i : Fin 8 => s.scalarMask p (BitVec.ofNat 3 i.val)

/-- `ls` as the scalar stream reads it: what an incomplete lane instruction will write may already show. -/
def State.scalarLs (s : State) (p : Party) : Mask :=
  p.inflight.zipIdx.foldl (fun m e =>
    let m' := lsAfter m e.1.ends
    (upTo 0 (p.width / 32)).foldl (fun a i =>
      if Config.freeBit (s.seed p) ((e.2 * 32 + i) * 8 + 4) then setMaskWord a i (maskWord m' i) else a) m) p.ls

/-- `st` as the scalar stream reads it, in the same way. -/
def State.scalarSt (s : State) (p : Party) : Word :=
  p.inflight.zipIdx.foldl (fun v e =>
    match laneStatus e.1.deadline e.1.offered with
    | some w => if Config.freeBit (s.seed p) (e.2 * 8 + 5) then w else v
    | none => v) p.st

/-- Everything the lane stream wrote is certain once the party is drained (R93, R198; log 19). -/
def Party.certain (p : Party) : Party := { p with looseMasks := [], recent := [] }

/-- The party where its stream has held until it is drained; in handler mode there is no such hold (R155). -/
def Party.seen (p : Party) : Party := if p.hmode then p else p.certain

end Sys2Proof.Machine
end

