-- ==== Sys2Proof/Machine/Arith.lean ====
section
/-!
DEFINITION. What each element-wise lane operation computes from bit patterns: integers, reals, complex numbers,
comparison and conversion (R77, R86, R123 to R129, and the result distances of R195).
-/
namespace Sys2Proof.Machine

/-! ### Integers (R123) -/

def tySigned : Ty → Bool
  | .i8 | .i16 | .i32 | .i64 => true
  | _ => false

/-- A pattern of `n` bits read as a two's-complement number. -/
def signedOf (n x : Nat) : Int := if 2 ^ (n - 1) ≤ x % 2 ^ n then (x % 2 ^ n : Int) - 2 ^ n else (x % 2 ^ n : Int)

/-- The v of R123: signed for .i types, natural otherwise. -/
def intOf (t : Ty) (x : Nat) : Int := if tySigned t then signedOf (Ty.width t) x else ((x % 2 ^ Ty.width t : Nat) : Int)

/-- The `n` low bits of an integer. -/
def lowBits (n : Nat) (v : Int) : Nat := (v % 2 ^ n).toNat

def tyMin (t : Ty) : Int := if tySigned t then -2 ^ (Ty.width t - 1) else 0
def tyMax (t : Ty) : Int := if tySigned t then 2 ^ (Ty.width t - 1) - 1 else 2 ^ Ty.width t - 1

/-- An integer clamped to a type's range. -/
def clampTo (t : Ty) (v : Int) : Int := if v < tyMin t then tyMin t else if tyMax t < v then tyMax t else v

def popCount : (n x : Nat) → Nat
  | 0, _ => 0
  | n + 1, x => x % 2 + popCount n (x / 2)

def leadingZeros (n x : Nat) : Nat := n - bitLen (x % 2 ^ n)

/-- The number of 0 bits below the lowest 1 bit, at most `n`. -/
def trailingZeros : (n x : Nat) → Nat
  | 0, _ => 0
  | n + 1, x => if x % 2 = 1 then 0 else trailingZeros n (x / 2) + 1

def reverseBits : (n x : Nat) → Nat
  | 0, _ => 0
  | n + 1, x => x % 2 * 2 ^ n + reverseBits n (x / 2)

/-- Bitwise functions and shifts of R123. -/
def bitNot (n a : Nat) : Nat := 2 ^ n - 1 - a % 2 ^ n
def shiftLeft (n a b : Nat) : Nat := a * 2 ^ (b % 2 ^ n % n) % 2 ^ n
def shiftRight (n a b : Nat) : Nat := a % 2 ^ n / 2 ^ (b % 2 ^ n % n)
def shiftArith (n a b : Nat) : Nat := lowBits n (signedOf n a / 2 ^ (b % 2 ^ n % n))

/-! ### Complex numbers (R71, R86, R125) -/

/-- The parts of a pair. -/
def rePart (f : Fmt) (x : Nat) : Nat := x % 2 ^ f.bits
def imPart (f : Fmt) (x : Nat) : Nat := x / 2 ^ f.bits % 2 ^ f.bits
def pairOf (f : Fmt) (re im : Nat) : Nat := re % 2 ^ f.bits + 2 ^ f.bits * (im % 2 ^ f.bits)

def complexNaN (f : Fmt) : Nat := pairOf f f.defaultNaN f.defaultNaN

/-- An operation on each part. -/
def partwise (f : Fmt) (g : Nat → Nat) (a : Nat) : Nat := pairOf f (g (rePart f a)) (g (imPart f a))
def partwise2 (f : Fmt) (g : Nat → Nat → Nat) (a b : Nat) : Nat :=
  pairOf f (g (rePart f a) (rePart f b)) (g (imPart f a) (imPart f b))

def partNaN (f : Fmt) (x : Nat) : Bool := f.isNaN (rePart f x) || f.isNaN (imPart f x)
def partSpecial (f : Fmt) (x : Nat) : Bool :=
  decide (f.infinity ≤ f.magnitude (rePart f x)) || decide (f.infinity ≤ f.magnitude (imPart f x))

/-- One rounding step of several terms. -/
def roundTerms (f : Fmt) (m : Rounding) (ts : List FVal) : Nat := f.round m (sumTerms m ts)

/-- MUL and FMA of complex values (R86); `c` is the addend of FMA. -/
def complexFma (f : Fmt) (m : Rounding) (nvr : Nat) (a b : Nat) (c : Option Nat) : Nat :=
  if partNaN f a || partNaN f b || (c.map (partNaN f)).getD false then complexNaN f
  else
    let ar := f.value (rePart f a)
    let ai := f.value (imPart f a)
    let br := f.value (rePart f b)
    let bi := f.value (imPart f b)
    let cr := (c.map fun x => f.value (rePart f x)).toList
    let ci := (c.map fun x => f.value (imPart f x)).toList
    if nvr = 1 then
      let t := f.value (f.round m (ai.mul bi))
      let u := f.value (f.round m (ai.mul br))
      match c with
      | none => pairOf f (roundTerms f m [ar.mul br, t.neg]) (roundTerms f m [ar.mul bi, u])
      | some _ =>
        let x := f.value (roundTerms f m (cr ++ [t.neg]))
        let y := f.value (roundTerms f m (ci ++ [u]))
        pairOf f (roundTerms f m [ar.mul br, x]) (roundTerms f m [ar.mul bi, y])
    else
      pairOf f (roundTerms f m ([ar.mul br, (ai.mul bi).neg] ++ cr)) (roundTerms f m ([ar.mul bi, ai.mul br] ++ ci))

/-- The correctly rounded quotient of an exact sum of terms by a positive exact value (R86). -/
def roundQuotient (f : Fmt) (m : Rounding) (num : List FVal) (den : FVal) : Nat :=
  match sumTerms m num, den with
  | .fin s n e, .fin _ d g => if n = 0 then f.sign s else if d = 0 then f.defaultNaN else f.quotient m s n e d g
  | _, _ => f.defaultNaN

/-- DIV of values whose parts are exact numbers: the numerator's parts may be exact sums (R86, R250). -/
def complexDivVal (f : Fmt) (m : Rounding) (are aim : FVal) (bre bim : FVal) : Nat :=
  let bad (v : FVal) : Bool := v.isNaN || v.isInf false || v.isInf true
  if bad are || bad aim || bad bre || bad bim || (bre.isZero && bim.isZero) then complexNaN f
  else
    let q := sumTerms .rn [bre.mul bre, bim.mul bim]
    pairOf f (roundQuotient f m [are.mul bre, aim.mul bim] q) (roundQuotient f m [aim.mul bre, (are.mul bim).neg] q)

def complexDiv (f : Fmt) (m : Rounding) (a b : Nat) : Nat :=
  complexDivVal f m (f.value (rePart f a)) (f.value (imPart f a)) (f.value (rePart f b)) (f.value (imPart f b))

/-! ### Operations by type (R123 to R125) -/

def addElem (t : Ty) (m : Rounding) (a b : Nat) : Nat :=
  if t.isF then t.fmt.add m a b else if t.isC then partwise2 t.fmt (t.fmt.add m) a b else (a + b) % 2 ^ Ty.width t
def subElem (t : Ty) (m : Rounding) (a b : Nat) : Nat :=
  if t.isF then t.fmt.sub m a b else if t.isC then partwise2 t.fmt (t.fmt.sub m) a b
  else lowBits (Ty.width t) ((a : Int) - b)
def mulElem (t : Ty) (m : Rounding) (nvr a b : Nat) : Nat :=
  if t.isF then t.fmt.mul m a b else if t.isC then complexFma t.fmt m nvr a b none else a * b % 2 ^ Ty.width t
def mulhiElem (t : Ty) (a b : Nat) : Nat := lowBits (Ty.width t) (intOf t a * intOf t b / 2 ^ Ty.width t)
def madElem (t : Ty) (a b c : Nat) : Nat := (a * b + c) % 2 ^ Ty.width t
def fmaElem (t : Ty) (m : Rounding) (nvr a b c : Nat) : Nat :=
  if t.isC then complexFma t.fmt m nvr a b (some c) else t.fmt.fma m a b c
def minElem (t : Ty) (a b : Nat) : Nat := if t.isF then t.fmt.min a b else if intOf t a ≤ intOf t b then a else b
def maxElem (t : Ty) (a b : Nat) : Nat := if t.isF then t.fmt.max a b else if intOf t a ≤ intOf t b then b else a
def absElem (t : Ty) (a : Nat) : Nat := if t.isF then t.fmt.abs a else lowBits (Ty.width t) (intOf t a).natAbs
def negElem (t : Ty) (a : Nat) : Nat :=
  if t.isF then t.fmt.neg a else if t.isC then partwise t.fmt t.fmt.neg a else lowBits (Ty.width t) (-(a : Int))
def addsElem (t : Ty) (a b : Nat) : Nat := lowBits (Ty.width t) (clampTo t (intOf t a + intOf t b))
def subsElem (t : Ty) (a b : Nat) : Nat := lowBits (Ty.width t) (clampTo t (intOf t a - intOf t b))
def divElem (t : Ty) (m : Rounding) (a b : Nat) : Nat := if t.isC then complexDiv t.fmt m a b else t.fmt.div m a b
/-- CONJ copies the real part bit for bit (R125). -/
def conjElem (t : Ty) (a : Nat) : Nat := pairOf t.fmt (rePart t.fmt a) (t.fmt.neg (imPart t.fmt a))

/-! ### Comparison (R126) -/

def intTest (cond : Nat) (a b : Int) : Bool :=
  match cond with
  | 0 => a == b
  | 1 => a != b
  | 2 => decide (a < b)
  | 3 => decide (a ≤ b)
  | 4 => decide (b < a)
  | _ => decide (b ≤ a)

def testElem (t : Ty) (cond a b : Nat) : Bool := if t.isF then t.fmt.test cond a b else intTest cond (intOf t a) (intOf t b)

/-! ### Conversion (R77, R129) -/

/-- A float to an integer type. -/
def floatToInt (t : Ty) (f : Fmt) (m : Rounding) (sat : Bool) (x : Nat) : Nat :=
  let bad := if tySigned t then lowBits (Ty.width t) (tyMin t) else 2 ^ Ty.width t - 1
  match f.value x with
  | .nan => if sat then 0 else bad
  | .inf neg => if sat then lowBits (Ty.width t) (if neg then tyMin t else tyMax t) else bad
  | .fin neg k e =>
    let n := roundNat m neg k e
    let v : Int := if neg then -(n : Int) else n
    if tyMin t ≤ v ∧ v ≤ tyMax t then lowBits (Ty.width t) v
    else if sat then lowBits (Ty.width t) (clampTo t v) else bad

/-- An integer to a float. -/
def intToFloat (f : Fmt) (m : Rounding) (sat : Bool) (v : Int) : Nat :=
  let r := f.round m (.fin (decide (v < 0)) v.natAbs 0)
  if sat && f.isInf r then f.sign (decide (v < 0)) + f.largest else r

/-- Between real and integer types. -/
def cvtReal (dst src : Ty) (m : Rounding) (sat : Bool) (x : Nat) : Nat :=
  let x := x % 2 ^ Ty.width src
  if src.isF then
    if dst.isF then dst.fmt.convert src.fmt m sat x else floatToInt dst src.fmt m sat x
  else if dst.isF then intToFloat dst.fmt m sat (intOf src x)
  else if sat then lowBits (Ty.width dst) (clampTo dst (intOf src x)) else lowBits (Ty.width dst) (intOf src x)

/-- The real type of a complex type's parts. -/
def partTy : Ty → Ty
  | .c64 => .f64
  | .c32 => .f32
  | t => t

/-- CVT. -/
def cvtElem (dst src : Ty) (m : Rounding) (sat : Bool) (x : Nat) : Nat :=
  let re := if src.isC then rePart src.fmt x else x
  let im := if src.isC then imPart src.fmt x else 0
  if dst.isC then
    pairOf dst.fmt (cvtReal (partTy dst) (partTy src) m sat re) (if src.isC then cvtReal (partTy dst) (partTy src) m sat im else 0)
  else cvtReal dst (partTy src) m sat re

/-! ### Result distances (R146, R195) -/

/-- Clocks after which a lane instruction's result is certain by gaps alone; none for what only a flag or completion
publishes. -/
def distanceOf (op : LaneOp) (f : LaneF) : Option Nat :=
  let t := f.ty
  let wide := t == .i64 || t == .n64 || t == .f64
  match op with
  | .add | .sub | .neg | .conj | .sel =>
    some (if t = .c64 then 10 else if t = .c32 ∨ wide then 6 else 4)
  | .mul | .fma => some (if t = .c64 then 18 else if t = .c32 then 10 else if wide then 6 else 4)
  | .mulhi | .mad | .min | .max | .abs | .adds | .subs | .and | .or | .xor | .andn | .not | .shl | .shr | .sra | .popc
  | .clz | .brev | .rint | .cmp => some (if wide then 6 else 4)
  | .mov => some (if t = .c64 then 10 else if t = .n64 then 6 else 4)
  | .cvt =>
    let src := Ty.ofCode (f.imm.extractLsb' 0 4)
    some (if t = .c64 ∨ src = .c64 then 10 else if 32 < Ty.width t ∨ 32 < Ty.width src then 6 else 4)
  | _ => none

end Sys2Proof.Machine
end

