-- ==== Sys2Proof/Machine/LaneRun.lean ====
section
/-!
DEFINITION. How a lane instruction at the head of a party's queue issues, what its writes leave for later readers, and the
ILLEGAL path (R28, R29, R66, R120 to R122, R192 to R195).
-/
namespace Sys2Proof.Machine

/-- The lane stream of the party in focus issues nothing: handler mode, a trap being delivered, a lane cause that is not yet
settled, or a lane still outstanding at an absent part (R147, R152, R155). -/
def Party.laneFrozen (p : Party) : Bool :=
  p.hmode || (p.raised.isSome && p.part.isNone) || p.pendingLane.isSome || p.handlingLane ||
    p.inflight.any fun i => i.ends.any fun e => e.2 == .remote

/-- The wait mask is raised and the set-flag can count one more setter (R33, R194); a reissue after RETT has both behind
it. -/
def Party.flagsAdmit (p : Party) (f : LaneF) : Bool :=
  p.redo.isSome ||
    ((upTo 0 12).all (fun i => !f.wait.getLsbD i || (p.flags.toList[i]?).getD 0 == 0) &&
     (match setFlag f.set with | some n => (p.flags.toList[n]?).getD 0 != 15 | none => true))

/-- An ILLEGAL lane instruction: it and everything queued after it is discarded, and its cause is pending (R66). -/
def State.illegalLane (s : State) (b : Block) : State :=
  let p := s.party
  { s with party := { p with
      queue := [], laneCtr := 0, redo := none, headOp := none
      pendingLane := some { Trap.scalar .illegal b.lrun p.pc with src := 1, boff := p.laneCtr, lane := true } } }

/-- A lane instruction issues, with the flags of its wait mask raised: what their setters wrote is certain for it and for
all that follows (R34, R195; log 6). -/
def Party.awaitFlags (p : Party) (f : LaneF) : Party :=
  let sure (flag : Option Nat) : Bool := flag.any fun n => f.wait.getLsbD n
  { p with recent := p.recent.map fun r => if sure r.flag then { r with distance := some 0 } else r
           looseMasks := certify (fun e => sure e.flag) p.looseMasks }

/-- What a lane instruction writes: registers, and lanes of a mask register with their new bits. -/
structure LaneEffect where
  entries : Table (BitVec 32)
  mask : Option (Nat × Mask × Mask)

/-- Where an earlier writer of the same register is not settled, either value remains (R195). -/
def LaneCtx.settleWrites (c : LaneCtx) (new : Table (BitVec 32)) : Table (BitVec 32) :=
  let open_ := c.unsettled
  if open_.isEmpty then new
  else new.map fun e =>
    if (open_.any fun r => r.regs.any fun x => x.1 == e.1) && Config.freeBit (c.s.seed c.p) (e.1 * 64 + 62) then
      (e.1, c.p.laneReg e.1) else e

/-- A writer that no queued or later instruction can miss any more (R195, R122). -/
def Party.outgrown (p : Party) (r : Recent) : Bool :=
  let seen : Bool := match r.complete with | some n => p.queue.all fun b => decide (n < b.order) | none => false
  let spaced : Bool := match r.distance with | some d => decide (d ≤ r.gap) | none => false
  -- a mask writer is kept while some snapshot, taken or to be taken, may lack its write
  let shown : Bool := match r.mask with
    | some (n, _, _) => p.queue.isEmpty && !p.looseMasks.any fun e => e.reg == n
    | none => true
  (seen && shown) || (spaced && r.mask.isNone)

/-- Only the writers that some instruction may still miss are kept; what stood before one that is gone is gone too. -/
def Party.pruneRecent (p : Party) : Party :=
  let go (r : Recent) (acc : List Recent × List Nat) : List Recent × List Nat :=
    let r := { r with regs := r.regs.filter fun e => !acc.2.contains e.1 }
    if p.outgrown r then (acc.1, r.regs.map (fun e => e.1) ++ acc.2) else (r :: acc.1, acc.2)
  { p with recent := (p.recent.foldr go ([], [])).1 }

/-- The gap of an issued instruction counts for every earlier writer, once (R193). -/
def Party.countGap (p : Party) (f : LaneF) : Party :=
  if p.redo.isSome then p
  else { p with recent := p.recent.map fun r => { r with gap := r.gap + f.gap.toNat } }

/-- A mask register after a lane instruction's write, which the scalar stream may not see yet (R27, R34). -/
def Party.writeLaneMask (p : Party) (f : LaneF) (order n : Nat) (lanes value : Mask) : Party :=
  if h : n < 8 then
    let old := p.p[n]
    { p with
        p := p.p.set n ((old &&& ~~~lanes) ||| (value &&& lanes))
        looseMasks :=
          { reg := n, old := old, lanes := lanes, value := value, flag := setFlag f.set, order := order, boff := p.laneCtr } ::
          p.looseMasks }
  else p

/-- The earlier writers without the registers now written over, where this instruction is sure of them: what stood before
such a writer is gone for good. -/
def LaneCtx.outlived (c : LaneCtx) (new : Table (BitVec 32)) : List Recent :=
  c.p.recent.map fun r =>
    if r.settled c.reader c.b.order then { r with regs := r.regs.filter fun x => !(new.any fun e => e.1 == x.1) } else r

/-- The writes of an instruction done, and noted for the readers after it. -/
def LaneCtx.write (c : LaneCtx) (e : LaneEffect) (complete : Option Nat) : Party :=
  let new := c.settleWrites e.entries
  let old := new.map fun x => (x.1, c.p.laneReg x.1)
  let p := (({ c.p with recent := c.outlived new }).putRegs new).countGap c.f
  let p := match e.mask with
    | some (n, lanes, value) => p.writeLaneMask c.f c.b.order n lanes value
    | none => p
  if new.isEmpty && e.mask.isNone then p
  else { p with recent := p.recent ++ [{ origin := (c.b.order, c.p.laneCtr), regs := old, mask := e.mask, flag := setFlag c.f.set,
                                         distance := distanceOf c.op c.f, gap := 0, complete := complete }] }

/-- A register-writing lane instruction issues and completes: the party afterwards. -/
def LaneCtx.finish (c : LaneCtx) (e : LaneEffect) : Party :=
  ({ (c.write e (some c.p.lruns)).popHead with redo := none, part := none, headOp := none }).pruneRecent

/-- What a lane instruction at the head of the queue of the party in focus sees, once its flags admit it. -/
def State.laneCtx (s : State) (b : Block) (op : LaneOp) (f : LaneF) : LaneCtx :=
  let p := s.party.awaitFlags f
  { s := { s with party := p }, p := p, h := (s.home p).header, b := b, op := op, f := f }

/-- The head lane instruction of the party in focus, whose effect is `body`: it is discarded as ILLEGAL, holds, or issues
and completes. -/
def runLane (s : State) (op : LaneOp) (f : LaneF) (body : LaneCtx → LaneEffect) : Result :=
  let p := s.party
  match p.queue with
  | [] => hold s
  | b :: _ =>
    if p.laneFrozen then hold s
    else if (op.check f).isSome || !op.inWindow f (s.home p).header.window then .next (s.illegalLane b)
    else if !p.flagsAdmit f then hold s
    else
      let c := s.laneCtx b op f
      .next { s with party := c.finish (body c) }

/-! ### Common shapes -/

def LaneCtx.a (c : LaneCtx) (lane : Nat) : Nat := c.value lane c.f.a c.f.ty
def LaneCtx.b' (c : LaneCtx) (lane : Nat) : Nat := c.value lane c.f.b c.f.ty
def LaneCtx.c' (c : LaneCtx) (lane : Nat) : Nat := c.value lane c.f.c c.f.ty
def LaneCtx.nvr (c : LaneCtx) : Nat := c.b.nvr.toNat

/-- A value of a type written to vd of each active lane (R68, R121). -/
def LaneCtx.toLanes (c : LaneCtx) (t : Ty) (g : Nat → Nat) : LaneEffect :=
  { entries := (lanesOf c.active c.p.width).flatMap fun l =>
      entriesOf (c.p.first + l) (c.p.b + c.f.dst.toNat) (placeValue t (g l))
    mask := none }

def LaneCtx.elementwise (c : LaneCtx) (g : Nat → Nat) : LaneEffect := c.toLanes c.f.ty g

/-- A bit of mask register dst for each active lane (R126, R136). -/
def LaneCtx.toMask (c : LaneCtx) (g : Nat → Bool) : LaneEffect :=
  let active := c.active
  { entries := []
    mask := some (c.f.dst.toNat, active, maskOf ((lanesOf active c.p.width).filter g)) }

end Sys2Proof.Machine
end

