-- ==== Sys2Proof/Machine/LaneCross.lean ====
section
/-!
DEFINITION. The cross-lane instructions SHFL, BCAST, RED, SCAN, MATCH and VOTE (R87, R130 to R136).
-/
namespace Sys2Proof.Machine

/-! ### SHFL and BCAST -/

/-- The lane a destination lane reads (R131). -/
def shuffleSource (mode w l d : Nat) : Nat :=
  match mode with
  | 0 => d
  | 1 => if d ≤ l then l - d else l
  | 2 => if l + d < w then l + d else l
  | _ => l ^^^ d

/-- LANE_SHFL (R131). -/
def execLaneShfl (f : LaneF) (s : State) : Result :=
  runLane s .shfl f fun c => c.elementwise fun l =>
    c.a (shuffleSource (f.imm.toNat % 4) c.p.width l (c.value l f.b .n32 % c.p.width))

/-- LANE_BCAST (R132): a special that varies by lane is read in the lowest active lane as a lane register is (log 71). -/
def execLaneBcast (f : LaneF) (s : State) : Result :=
  runLane s .bcast f fun c =>
    let first := ((lanesOf c.active c.p.width).head?).getD 0
    let j := c.b' first % c.p.width
    let v := c.a j
    c.elementwise fun _ => v

/-! ### RED and SCAN (R87, R133, R134) -/

/-- The combination of two values by an op on a type of F or Z. -/
def combine (t : Ty) (m : Rounding) (op a b : Nat) : Nat :=
  if t.isF then (match op with | 0 => t.fmt.add m a b | 1 => t.fmt.minNumber a b | _ => t.fmt.maxNumber a b)
  else match op with
    | 0 => (a + b) % 2 ^ t.width
    | 1 => minElem t a b
    | 2 => maxElem t a b
    | 3 => a &&& b
    | 4 => a ||| b
    | _ => a ^^^ b

/-- One level of the balanced tree: neighbours combined, a last unpaired value passing up. -/
def pairUp (g : Nat → Nat → Nat) : List Nat → List Nat
  | a :: b :: rest => g a b :: pairUp g rest
  | l => l

/-- The tree to its root; `n` bounds the levels. -/
def treeFold (g : Nat → Nat → Nat) : (n : Nat) → List Nat → Nat
  | _, [] => 0
  | _, [a] => a
  | 0, a :: _ => a
  | n + 1, l => treeFold g n (pairUp g l)

/-- Left to right; one value is returned exactly. -/
def lineFold (g : Nat → Nat → Nat) : List Nat → Nat
  | [] => 0
  | a :: l => l.foldl g a

/-- RED over the values of the active lanes in ascending order. -/
def reduceAll (t : Ty) (m : Rounding) (nvr op : Nat) (xs : List Nat) : Nat :=
  let g := combine t m op
  if t.isF && op == 0 && nvr == 2 then treeFold g 11 xs else lineFold g xs

/-- One step of the inclusive scan at distance `d`, all reads before the writes. -/
def scanStep (g : Nat → Nat → Nat) (d : Nat) (ys : List Nat) : List Nat :=
  ys.take d ++ List.zipWith g ys (ys.drop d)

/-- The doubling scan of nvr 2; `k` bounds the steps. -/
def scanDouble (g : Nat → Nat → Nat) : (k d : Nat) → List Nat → List Nat
  | 0, _, ys => ys
  | k + 1, d, ys => if d < ys.length then scanDouble g k (2 * d) (scanStep g d ys) else ys

/-- The running combination. -/
def scanLine (g : Nat → Nat → Nat) (acc : Nat) : List Nat → List Nat
  | [] => []
  | x :: xs => g acc x :: scanLine g (g acc x) xs

/-- The inclusive SCAN; of MIN and MAX on a type of F the first result too is the default NaN where its one value is a NaN
(R87; log 36). -/
def scanAll (t : Ty) (m : Rounding) (nvr op : Nat) (xs : List Nat) : List Nat :=
  let g := combine t m op
  if t.isF && op == 0 && nvr == 2 then scanDouble g 11 1 xs
  else match xs with
    | [] => []
    | x :: rest =>
      let first := if t.isF && op != 0 then g x x else x
      first :: scanLine g first rest

/-- The exclusive result of rank 0 (R134). -/
def scanStart (t : Ty) (op : Nat) : Nat :=
  if t.isF then 0
  else match op with
    | 1 => lowBits t.width (tyMax t)
    | 2 => lowBits t.width (tyMin t)
    | 3 => 2 ^ t.width - 1
    | _ => 0

/-- LANE_RED (R87, R133). -/
def execLaneRed (f : LaneF) (s : State) : Result :=
  runLane s .red f fun c =>
    let v := reduceAll f.ty c.mode c.nvr (f.imm.toNat % 8) ((lanesOf c.active c.p.width).map c.a)
    c.elementwise fun _ => v

/-- LANE_SCAN (R87, R134). -/
def execLaneScan (f : LaneF) (s : State) : Result :=
  runLane s .scan f fun c =>
    let lanes := lanesOf c.active c.p.width
    let op := f.imm.toNat % 8
    let inclusive := scanAll f.ty c.mode c.nvr op (lanes.map c.a)
    let ys := if f.imm.getLsbD 6 then scanStart f.ty op :: inclusive else inclusive
    let table := lanes.zip ys
    c.elementwise fun l => Table.get 0 table l

/-! ### MATCH and VOTE -/

/-- LANE_MATCH (R135). -/
def execLaneMatch (f : LaneF) (s : State) : Result :=
  runLane s .matchOp f fun c =>
    let vs := (lanesOf c.active c.p.width).map fun l => (l, c.a l)
    c.toLanes .b32 fun l =>
      let same := vs.filter fun e => e.2 == Table.get 0 vs l
      same.length * 2 ^ 16 + ((same.head?.map fun e => e.1).getD 0)

/-- LANE_VOTE (R136). -/
def execLaneVote (f : LaneF) (s : State) : Result :=
  runLane s .vote f fun c =>
    let vs := (lanesOf c.active c.p.width).map c.a
    let r := match f.imm.toNat % 4 with
      | 0 => vs.any (· != 0)
      | 1 => vs.all (· != 0)
      | _ => vs.all (· == vs.headD 0)
    c.toMask fun _ => r

end Sys2Proof.Machine
end

