-- ==== Sys2Proof/Machine/Engine.lean ====
section
/-!
DEFINITION. How the engines read and write memory: through the windows of their accessor, in the events of R301, with the
copies of their path's caches, carrying poison (R213, R220, R301, R304, R310, R328, R338).
-/
namespace Sys2Proof.Machine

/-- Bytes on their way through an engine; `bad` marks poisoned bytes and is empty where there is none, `time` is the
engine's logical time after reading them. -/
structure Span where
  bytes : List Byte
  bad : List Bool
  time : Nat
  deriving DecidableEq, Repr

/-- A span of some bytes, none poisoned. -/
def Span.clean (bs : List Byte) (time : Nat) : Span := { bytes := bs, bad := [], time := time }

/-- Whether a span carries poison. -/
def Span.poisoned (sp : Span) : Bool := sp.bad.any id

/-- The bytes of a span, each with whether it is poisoned. -/
def Span.marked (sp : Span) : List (Byte × Bool) :=
  sp.bytes.zip (if sp.bad.length = sp.bytes.length then sp.bad else sp.bytes.map fun _ => false)

/-- The window of an address is the private one. -/
def isPrivate (a : Word) : Bool := windowOf a.toNat == .private_

/-- An engine read of `n` bytes in events of up to `unit` bytes; `fuel` bounds its spans.  Poison is carried, and an access that
no part answers is a poisoned read (R220, R328). -/
def State.readRange (s : State) (ac : Accessor) (unit : Nat) : (fuel : Nat) → Agent → (va n : Nat) → Except (Deny × Word) Span
  | 0, a, _, _ => .ok (.clean [] a.time)
  | fuel + 1, a, va, n =>
    if n = 0 then .ok (.clean [] a.time)
    else match s.windowSpan ac va n .read with
      | .error d => .error (d, BitVec.ofNat 64 va)
      | .ok (p, k) =>
        let x := s.agentRead a unit p k
        (s.readRange ac unit fuel { a with time := x.time } (va + k) (n - k)).map fun y =>
          { bytes := x.bytes ++ y.bytes, bad := x.bad ++ y.bad, time := y.time }

def State.engineRead (s : State) (ac : Accessor) (a : Agent) (va : Word) (n unit : Nat) : Except (Deny × Word) Span :=
  s.readRange ac unit (n + 1) a va.toNat n

/-- Poisoned bytes of a span arrive at a place. -/
def State.poisonBytes (s : State) (p : Place) (bad : List Bool) : State :=
  if bad.any id then (bad.zipIdx.filter fun b => b.1).foldl (fun t b => t.poisonByte (p.shift b.2)) s else s

/-- What a write comes to: the state, the agent's time, and whether an absent part was to receive some of it. -/
structure Written where
  s : State
  time : Nat
  lost : Bool

/-- An engine write, poison included; `fuel` bounds its spans.  What an absent part was to receive is lost (R328). -/
def writeRange (ac : Accessor) :
    (fuel : Nat) → State → Agent → (va : Nat) → List Byte → List Bool → Except (Deny × Word) Written
  | 0, s, a, _, _, _ => .ok { s := s, time := a.time, lost := false }
  | fuel + 1, s, a, va, bs, bad =>
    if bs.isEmpty then .ok { s := s, time := a.time, lost := false }
    else match s.windowSpan ac va bs.length .write with
      | .error d => .error (d, BitVec.ofNat 64 va)
      | .ok (p, k) =>
        let gone := s.unreachable p
        let r := if gone then (s, a.time) else s.storeAs a p (bs.take k)
        let t := if gone then r.1 else r.1.poisonBytes p (bad.take k)
        (writeRange ac fuel t { a with time := r.2 } (va + k) (bs.drop k) (bad.drop k)).map fun w =>
          { w with lost := w.lost || gone }

def State.engineWrite (s : State) (ac : Accessor) (a : Agent) (va : Word) (sp : Span) : Except (Deny × Word) Written :=
  writeRange ac (sp.bytes.length + 1) s { a with time := Nat.max a.time sp.time } va.toNat sp.bytes sp.bad

/-! ### Signals (R220, R304, R309) -/

/-- One 8-byte word stored by an engine, checked as an ordinary store is, at a time above the payload's: the state and the
time of the word. -/
def State.signalWord (s : State) (ac : Accessor) (a : Agent) (at_ : Word) (v : Nat) : Except Deny (State × Nat) :=
  (s.writePlaceOf ac at_ 8 .write).map fun p => s.storeAs { a with time := a.time + 1 } p (toBytes 8 v)

/-- The addition of SEMREL to a word, as one atomic of an agent (R208, R220). -/
def State.release (s : State) (ac : Accessor) (a : Agent) (at_ : Word) (n : Nat) : Except Deny (State × Nat) :=
  (s.writePlaceOf ac at_ 8 .update).map fun p =>
    s.storeAs { a with time := Nat.max a.time (s.writtenAt p 8) } p (toBytes 8 (s.valueAt p 8 + n))

end Sys2Proof.Machine
end

