-- ==== Sys2Proof/Machine/Cavern.lean ====
section
/-!
DEFINITION. Cavern: the buddy allocator of a pool, whose state lies in memory (R230 to R234).
-/
namespace Sys2Proof.Machine

/-! ### Sizes (R230) -/

/-- Bytes of a size class. -/
def classBytes (c : Nat) : Nat := 512 * 2 ^ c

/-- The smallest class that holds a size. -/
def classFor (bytes : Nat) : Nat := ((upTo 0 8).find? fun c => decide (bytes ≤ classBytes c)).getD 7

/-! ### The nodes of a chunk (R232): a 512-bit string, two bits a node -/

def nodeState (w n : Nat) : Nat := bitsOf w (2 * n) 2
def setNode (w n v : Nat) : Nat := w - nodeState w n * 4 ^ n + v * 4 ^ n

/-- The depth of a node, and its offset in the chunk. -/
def nodeDepth (n : Nat) : Nat := Nat.log2 n
def nodeOffset (n : Nat) : Nat := (n - 2 ^ nodeDepth n) * (65536 / 2 ^ nodeDepth n)

/-- The nodes of a depth that lie under split nodes only, the lowest-addressed first. -/
def reachable (w : Nat) : (depth : Nat) → List Nat
  | 0 => [1]
  | d + 1 => (reachable w d).flatMap fun n => if nodeState w n = 1 then [2 * n, 2 * n + 1] else []

/-- The lowest-addressed free node of a class. -/
def freeNode (w c : Nat) : Option Nat := (reachable w (7 - c)).find? fun n => nodeState w n == 0

/-- A node split down to depth `d` by its lower children, the last of which is allocated. -/
def splitDown (w n : Nat) : (levels : Nat) → Nat × Nat
  | 0 => (setNode w n 2, n)
  | k + 1 => splitDown (setNode (setNode w n 1) (2 * n + 1) 0) (2 * n) k

/-- Split nodes both of whose children are free become free, from a node upward (R234). -/
def mergeUp (w n : Nat) : (levels : Nat) → Nat
  | 0 => w
  | k + 1 =>
    let p := n / 2
    if p ≠ 0 ∧ nodeState w p = 1 ∧ nodeState w (2 * p) = 0 ∧ nodeState w (2 * p + 1) = 0 then mergeUp (setNode w p 0) p k
    else w

/-! ### Requests and frees -/

/-- Where the state of a chunk lies: a search reads it, and a change is a read-modify-write of its words, for which the page must
have W too (R301, R325). -/
def State.chunkPlace (s : State) (ac : Accessor) (at_ : Word) (need : Rights) : Except (Deny × Word) Place :=
  match s.access ac at_ 64 8 need with
  | .error d => .error (d, at_)
  | .ok p => if s.unreachable p then .error ({ cause := .poison }, at_) else .ok p

/-- The address of a chunk's state (R232). -/
def Pool.stateAt (p : Pool) (c : Nat) : Word := p.state + BitVec.ofNat 64 (64 * c)

/-- The state of a chunk, the newest (R306). -/
def State.chunkState (s : State) (ac : Accessor) (at_ : Word) : Except (Deny × Word) Nat :=
  (s.chunkPlace ac at_ .read).map fun p => s.valueAt p 64

/-- The words of a chunk's state that change are stored, each as part of one read-modify-write: the state, and the agent's
time afterwards (R301, R318). -/
def State.setChunk (s : State) (a : Agent) (ac : Accessor) (at_ : Word) (w : Nat) : Except (Deny × Word) (State × Nat) := do
  let p ← s.chunkPlace ac at_ .update
  let old := s.valueAt p 64
  pure ((upTo 0 8).foldl (fun (r : State × Nat) i =>
    let new := bitsOf w (64 * i) 64
    let q := p.shift (8 * i)
    if bitsOf old (64 * i) 64 = new then r
    else r.1.storeAs { a with time := Nat.max r.2 (r.1.writtenAt q 8) } q (toBytes 8 new)) (s, a.time))

/-- The lowest chunk from `i` up with a free node of a class, and the node: no chunk above it is read. -/
def State.findIn (s : State) (ac : Accessor) (p : Pool) (c : Nat) : (n i : Nat) → Except (Deny × Word) (Option (Nat × Nat))
  | 0, _ => .ok none
  | n + 1, i =>
    match s.chunkState ac (p.stateAt i) with
    | .error e => .error e
    | .ok w => match freeNode w c with
      | some x => .ok (some (i, x))
      | none => s.findIn ac p c n (i + 1)

/-- The chunk and node that a request takes: the lowest of its class, else of the smallest larger class (R233). -/
def State.findNode (s : State) (ac : Accessor) (p : Pool) (c : Nat) : Except (Deny × Word) (Option (Nat × Nat)) :=
  (upTo c (8 - c)).foldlM (fun found k => match found with
    | some x => pure (some x)
    | none => s.findIn ac p k p.nchunks 0) none

/-- A request for a class: the state, the agent's time and the block, or none where no free node holds it (R233). -/
def State.requestBlock (s : State) (a : Agent) (ac : Accessor) (p : Pool) (c : Nat) :
    Except (Deny × Word) (Option (State × Nat × Word)) := do
  match ← s.findNode ac p c with
  | none => pure none
  | some (i, n) =>
    let w ← s.chunkState ac (p.stateAt i)
    let r := splitDown w n (7 - c - nodeDepth n)
    let (s, time) ← s.setChunk a ac (p.stateAt i) r.1
    pure (some (s, time, p.base + BitVec.ofNat 64 (i * 65536 + nodeOffset r.2)))

/-- The node of a block of a class, with its chunk; none where no node of the pool is such a block. -/
def Pool.nodeOf (p : Pool) (block : Word) (c : Nat) : Option (Nat × Nat) :=
  let off := block.toNat - p.base.toNat
  let d := 7 - c
  let size := 65536 / 2 ^ d
  if block.toNat < p.base.toNat ∨ p.nchunks ≤ off / 65536 ∨ off % size ≠ 0 then none
  else some (off / 65536, 2 ^ d + off % 65536 / size)

/-- A block set to retiring (R234); none where its node is not allocated. -/
def State.freeBlock (s : State) (a : Agent) (ac : Accessor) (l : Launch) (p : Pool) (block : Word) (c : Nat) :
    Except (Deny × Word) (Option (State × Nat)) := do
  match p.nodeOf block c with
  | none => pure none
  | some (i, n) =>
    let w ← s.chunkState ac (p.stateAt i)
    if nodeState w n ≠ 2 then pure none
    else
      let (s, time) ← s.setChunk a ac (p.stateAt i) (setNode w n 3)
      let r : Retiring := { launch := l.id, space := l.space, state := p.stateAt i, node := n, block := block
                            tasks := (s.tasks.filter fun t => t.started).map fun t => t.id }
      pure (some ({ s with retiring := s.retiring ++ [r] }, time))

/-- A retiring node whose readers have all retired. -/
def State.quiet (s : State) (r : Retiring) : Bool := r.tasks.all fun id => !s.tasks.any fun t => t.id == id

/-- Such a node becomes free, and free siblings merge; its block may be another tile's from now on. -/
def State.release? (s : State) (r : Retiring) : Option State :=
  let ac := accessorIn r.space
  let a : Agent := { Agent.part with path := 3 }
  match s.chunkState ac r.state with
  | .error _ => none
  | .ok w => ((s.setChunk a ac r.state (mergeUp (setNode w r.node 0) r.node 7)).map fun x => x.1.forgetBlock r.block).toOption

/-- Every retiring node that may become free does (R234). -/
def State.quiesce (s : State) : State :=
  s.retiring.foldl (fun (s : State) r =>
    if s.quiet r then match s.release? r with
      | some t => { t with retiring := t.retiring.filter fun x => x != r }
      | none => s
    else s) s

/-- CAVERN_QUIESCENCE (R234): it comes at the end of the step in which the last of the tasks retires, and of each later one where
the state of the chunk was denied. -/
def execCavernQuiescence (s : State) : Result := .next s.quiesce

end Sys2Proof.Machine
end

