-- ==== Sys2Proof/Machine/Front.lean ====
section
/-!
DEFINITION. The front end's view of contexts and launches: the state of a context, effective priority, the order of
placement, and the room on a core (R3, R23, R297, R351, R354, R358).
-/
namespace Sys2Proof.Machine

/-! ### Contexts (R354, R357) -/

def State.putContext (s : State) (c : Context) : State :=
  { s with contexts := s.contexts.filter (fun x => x.index < c.index) ++ (c :: s.contexts.filter fun x => c.index < x.index) }

/-- A context's state changed, in the part and in the state word of its record. -/
def State.enterState (s : State) (i v : Nat) : State :=
  let s := s.putContext { s.context i with state := v }
  match s.ctxEntry i with
  | some e => s.store (.phys (e.record + 0x40) 0) (toBytes 8 v)
  | none => s

/-- The code that system software has left in the command word, with bits 63:8 zero.  A zero was written where the part found
another value there before; the word of a new record is none (R357). -/
def State.cmdCode (s : State) (c : Context) (e : CtxEntry) : Option Nat :=
  let w := (s.ctxField e 0x28).toNat
  if w < 256 ∧ (w ≠ 0 ∨ (c.seen.1 = e.record ∧ c.seen.2 ≠ 0)) then some w else none

/-- The part looks at a command word: a command becomes pending; while one is, only a Reset that replaces a Suspend is noticed
(R357). -/
def State.noticeCommand (s : State) (i : Nat) : State :=
  match s.ctxEntry i with
  | none => s
  | some e =>
    let c := s.context i
    let seen := (e.record, s.ctxField e 0x28)
    let t := if c.seen = seen then s else s.putContext { c with seen := seen }
    match s.cmdCode c e with
    | none => t
    | some code =>
      if c.cmd = none ∨ (c.cmd = some 4 ∧ code = 3) then t.putContext { c with seen := seen, cmd := some code, begun := false } else t

/-- Every context's command word is looked at, and the counts of R372 end with a context's validity. -/
def State.noticeCommands (s : State) : State :=
  let valid := s.validContexts
  { valid.foldl State.noticeCommand s with instances := s.instances.filter fun e => valid.contains e.1 }

/-- The context neither suspends nor resets: its queues are served, its parties placed and restored (R358). -/
def State.served (s : State) (i : Nat) : Bool := decide ((s.context i).state ≤ 1)

/-! ### Priority and order (R351) -/

/-- min(prio, the context's ceiling). -/
def State.priority (s : State) (l : Launch) : Nat :=
  Nat.min l.header.prio (((s.ctxEntry l.space.ctx).map CtxEntry.ceiling).getD 7)

/-- A group of the launch waits for placement. -/
def State.awaitsPlacement (s : State) (l : Launch) : Bool :=
  l.met.all id && decide (l.placed < l.header.groups) && s.served l.space.ctx

/-- How far a queue lies after the one served last. -/
def State.distance (s : State) (queue : Nat) : Nat := (queue + 4096 - s.lastQueue - 1) % 4096

/-- `a` comes before `b`: by priority, then by round robin of the queues, then by age. -/
def State.before (s : State) (a b : Launch) : Bool :=
  let pa := s.priority a
  let pb := s.priority b
  decide (pb < pa) || (pa == pb && (decide (s.distance a.queue < s.distance b.queue) ||
    (a.queue == b.queue && decide (a.id < b.id))))

/-- A launch stands at the head of placement for its priority. -/
def State.atHead (s : State) (l : Launch) : Bool :=
  s.awaitsPlacement l && !s.launches.any fun x => x.id != l.id && s.awaitsPlacement x && s.priority x == s.priority l && s.before x l

/-- A launch whose next group has waited 2^20 ticks at the head has aged, until that group is placed; in every other that does
not wait there the tick is noted. -/
def State.noteHeads (s : State) : State :=
  { s with launches := s.launches.map fun l =>
      if l.aged then l
      else if s.atHead l then { l with aged := decide (l.since + 2 ^ 20 ≤ s.lantern.toNat) }
      else { l with since := s.lantern.toNat } }

/-! ### Room (R3, R23) -/

/-- Bytes of a quad's bank that a party of a width occupies. -/
def Header.bankBytes (h : Header) (width : Nat) : Nat := width * h.depth8 * 4

def State.bankOf (s : State) (p : Party) : Nat := (s.home p).header.bankBytes p.width

/-- Free bytes of a quad's bank. -/
def State.bankFree (s : State) (core quad : Nat) : Nat :=
  Config.bankBytes - ((s.parties.filter fun p => p.resident && p.core == core && p.quad == quad).map s.bankOf).sum

/-- Slots of a quad that no party holds. -/
def State.freeSlots (s : State) (core quad : Nat) : List Nat :=
  (upTo 0 Config.slotsPerQuad).filter fun i => !s.parties.any fun p => p.present && p.core == core && p.quad == quad && p.slot == i

/-- The groups on a core that have not ended. -/
def State.groupsOn (s : State) (core : Nat) : List Group := s.groups.filter fun g => g.core == core && !g.ended

def State.headerOf (s : State) (g : Group) : Header := ((s.launch? g.launch).getD Launch.blank).header

/-- Free bytes of a core's scratchpad: a group that is wholly away holds none. -/
def State.scratchFree (s : State) (core : Nat) : Nat :=
  Config.scratchBytes - (((s.groupsOn core).filter fun g => s.groupResident g.launch g.number).map fun g => (s.headerOf g).local_).sum

/-- A core has room for another group of a launch apart from its parties' quads. -/
def State.coreRoom (s : State) (h : Header) (core : Nat) : Bool :=
  let gs := s.groupsOn core
  decide (gs.length < Config.groupsPerCore) &&
    decide ((gs.map fun g => (s.headerOf g).lanes).sum + h.lanes ≤ Config.lanesPerCore) &&
    decide ((s.parties.filter fun p => p.present && p.core == core).length + h.parties ≤ 64) &&
    decide (h.local_ ≤ s.scratchFree core)

/-- Each quad has a slot and bank bytes for its share of a group's parties. -/
def State.quadRoom (s : State) (h : Header) (core : Nat) (quads : List Nat) : Bool :=
  quads.length == h.parties && (quads.all fun q => decide (q < 4)) && (upTo 0 4).all fun q =>
    let n := quads.count q
    n == 0 || (decide (n ≤ (s.freeSlots core q).length) && decide (n * h.bankBytes h.width ≤ s.bankFree core q))

def State.fits (s : State) (h : Header) (core : Nat) (quads : List Nat) : Bool := s.coreRoom h core && s.quadRoom h core quads

/-- A party at a park point with nothing of its own in the air: it may be evicted (R198, R289, R298).  A wait that is to end at
once is none, but for a replay party, whose wait goes on until its turn (R352). -/
def State.atPark (s : State) (p : Party) : Bool :=
  let idle := !p.laneBusy && p.stucks.isEmpty && p.raised.isNone
  let offered := p.offer.any fun o => o.trap.cause != .stuck
  p.life == .running && !p.evicted && idle && !offered &&
    if p.stopped || p.hmode then true
    else p.drained && p.pendingLane.isNone && match p.wait with
      | some w => ((s.home p).header.replay || (w.decided.isNone && !w.met)) && w.claim.isNone && w.kind != .waitf
      | none => p.yielded || (match s.fetchWord (s.home p) p.pc with
        | .ok w => w.getLsbD 31
        | .error _ => false)

def State.partyPriority (s : State) (p : Party) : Nat := s.priority (s.home p)

/-- The parties of a quad that a waiting launch may have evicted (R297). -/
def State.lesserParties (s : State) (l : Launch) (core quad : Nat) : List Party :=
  s.parties.filter fun p => p.core == core && p.quad == quad && s.atPark p && decide (s.partyPriority p < s.priority l)

/-- The parties of a group that hold their registers. -/
def State.residents (s : State) (g : Group) : List Party :=
  s.parties.filter fun p => p.launch == g.launch && p.group == g.number && p.resident && p.live

def State.groupPriority (s : State) (g : Group) : Nat := s.priority ((s.launch? g.launch).getD Launch.blank)

/-- The whole groups of a core that a waiting launch may have evicted for scratchpad (R297). -/
def State.lesserGroups (s : State) (l : Launch) (core : Nat) : List Group :=
  (s.groupsOn core).filter fun g =>
    decide (s.groupPriority g < s.priority l) && !(s.residents g).isEmpty && (s.residents g).all s.atPark

/-- A party of a suspended context at a park point leaves, and executes nothing more (R358); a replay launch leaves as a whole
(R361). -/
def State.mustLeave (s : State) (p : Party) : Bool :=
  let l := s.home p
  (s.context l.space.ctx).state == 2 && (if l.header.replay then s.gathered p else s.atPark p)

end Sys2Proof.Machine
end

