-- ==== Sys2Proof/Machine/Image.lean ====
section
/-!
DEFINITION. The images that a party leaves behind when it is evicted: its record with the state word, its batch state, and its
lane queue (R288, R289).
-/
namespace Sys2Proof.Machine

def WaitKind.code : WaitKind → Nat
  | .waitf => 0 | .barrier => 1 | .semacq => 2 | .waddr => 3 | .fence => 4 | .xfence => 5 | .sysfence => 6
  | .sysfenceArray => 7 | .fuse => 8 | .twait => 9 | .accept => 10 | .cpyw => 11

def WaitKind.ofCode (n : Nat) : WaitKind :=
  ([WaitKind.barrier, .semacq, .waddr, .fence, .xfence, .sysfence, .sysfenceArray, .fuse, .twait, .accept, .cpyw].find?
    fun k => k.code == n).getD .waitf

def zeros (n : Nat) : List Byte := List.replicate n 0

/-- Words wait 1 and wait 2. -/
def Wait.image (w : Wait) : Word × Word :=
  match w.kind with
  | .barrier | .semacq | .waddr => (w.w1, w.w2)
  | .twait => (w.w1 &&& 0xFFFF, 0)
  | _ => (0, 0)

/-- log2(W) − 5. -/
def Party.wcode (p : Party) : Nat := Nat.log2 (p.width / 32)

/-- An image of the lane queue is written (R289). -/
def Party.savesQueue (p : Party) : Bool := (p.hmode || p.stopped) && (!p.drained || p.pendingLane.isSome)

/-- The code that a wait which was decided is to end with: FUSE_AWAY for a FUSE that stood as its party left (R288, R298). -/
def Wait.awayCode (w : Wait) : Option Word := w.decided.or (if w.kind = .fuse then some stFuseAway else none)

/-- The state word (R288). -/
def Party.stateWord (p : Party) : Nat :=
  let kind := (p.wait.map fun w => w.kind.code).getD 0
  let dsel := (p.wait.map fun w => w.deadline.sel.toNat).getD 0
  let dreg := (p.wait.map fun w => w.dest.toNat).getD 0
  let code := p.wait.bind Wait.awayCode
  p.wcode + p.b * 2 ^ 3 + p.lo * 2 ^ 13 + p.xcount.toNat * 2 ^ 23 + p.hmode.toNat * 2 ^ 31 + p.stopped.toNat * 2 ^ 32 +
    kind * 2 ^ 33 + dsel * 2 ^ 37 + dreg * 2 ^ 39 + code.isSome.toNat * 2 ^ 45 +
    (codeOf (code.getD 0)).toNat * 2 ^ 46 + p.tokens.length * 2 ^ 54 + p.savesQueue.toNat * 2 ^ 63

/-- Bytes 0 to 0x7FF of the party record. -/
def Party.fixedImage (p : Party) : List Byte :=
  let w := (p.wait.map Wait.image).getD (0, 0)
  let edl := (p.wait.map fun w => w.deadline.ticks % 2 ^ 62 + w.deadline.party.toNat * 2 ^ 62).getD 0
  ((p.s.set 0 0).toList.flatMap fun v => toBytes 8 v.toNat) ++ ((p.dl.toList.flatMap fun v => toBytes 8 v.toNat) ++
  (toBytes 8 p.pc.toNat ++ (toBytes 8 p.retired.toNat ++ (toBytes 8 p.ptime.toNat ++ (toBytes 8 p.st.toNat ++
  (toBytes 8 p.rnd.toNat ++ (toBytes 8 p.nvr.toNat ++ (toBytes 8 p.stateWord ++ (toBytes 8 edl ++ (toBytes 8 w.1.toNat ++
  (toBytes 8 w.2.toNat ++ (zeros 144 ++ ((p.p.toList.flatMap maskBytes) ++ (maskBytes p.ls ++ zeros 92))))))))))))))

/-- Bytes 0x800 to 0xFFF: the batch state. -/
def Party.batchImage (p : Party) : List Byte :=
  toBytes 8 p.openBatch.toNat ++ (((upTo 0 256).flatMap fun i => toBytes 4 (Table.get 0 p.batches i).toNat) ++ zeros 1016)

def Block.snapshot (b : Block) : List Byte :=
  ((b.s.set 0 0).toList.flatMap fun v => toBytes 8 v.toNat) ++ ((b.p.toList.flatMap maskBytes) ++
    ((b.dl.toList.flatMap fun v => toBytes 8 v.toNat) ++ (toBytes 8 b.rnd.toNat ++ toBytes 8 b.nvr.toNat)))

/-- The lane-queue image (R289). -/
def Party.queueImage (p : Party) : List Byte :=
  let empty := Config.queueBlocks - p.queue.length
  let t := p.pendingLane.getD (Trap.scalar .illegal 0 0)
  let cause := if p.pendingLane.isSome then t.cause.code + t.boff * 2 ^ 8 else 0
  toBytes 8 (p.queue.length + p.laneCtr % 64 * 2 ^ 3 + p.handlingLane.toNat * 2 ^ 9 + p.pendingLane.isSome.toNat * 2 ^ 10) ++
  (toBytes 8 (p.flags.toList.zipIdx.foldl (fun n f => n + f.1.toNat * 2 ^ (4 * f.2)) 0) ++
  ((p.queue.flatMap fun b => toBytes 8 (b.first % 2 ^ 32 + (b.len - 1) % 64 * 2 ^ 32)) ++ (zeros (8 * empty + 16) ++
  ((p.queue.flatMap Block.snapshot) ++ (zeros (1616 * empty) ++ (toBytes 8 cause ++ (toBytes 8 t.pc.toNat ++
  (toBytes 8 t.addr.toNat ++ (maskBytes t.done ++ (zeros 4 ++ (toBytes 512 t.causes.toNat ++ zeros 992)))))))))))

end Sys2Proof.Machine
end

