-- ==== Sys2Proof/Machine/LaneAccess.lean ====
section
/-!
DEFINITION. How the lanes of a memory instruction access memory, end, and are put in flight or raise a cause (R147, R150,
R154, R179 to R183, R190, R328).
-/
namespace Sys2Proof.Machine

/-- What the lanes did so far: the state with their stores, the registers to write, their ends, the causes with their
addresses, and the lanes outstanding at an absent part. -/
structure LaneAcc where
  s : State
  entries : Table (BitVec 32)
  ends : List (Nat × LaneEnd)
  denied : List (Nat × Deny × Word)
  remotes : Table Word
  anyRemote : Bool

/-- The accessor of a lane's element accesses. -/
def LaneCtx.accessor (c : LaneCtx) (lane : Nat) : Accessor :=
  { accessorOf (c.s.home c.p) c.p with q := c.p.first + lane }

/-- What the earlier issues of a reissued instruction, or its earlier events, leave. -/
def LaneCtx.before (c : LaneCtx) : Option HeadOp := if c.p.mid then c.p.headOp else none

/-- What a begun instruction has done, or nothing yet. -/
def LaneCtx.part (c : LaneCtx) : LanePart :=
  c.p.part.getD { record := none, entries := [], ends := [], denied := [], halves := [], rows := [] }

/-- The lanes go on from what is done. -/
def LaneCtx.start (c : LaneCtx) : LaneAcc :=
  { s := c.s, entries := c.part.entries, ends := c.part.ends, denied := c.part.denied, remotes := [], anyRemote := false }

/-- The lanes still to be done. -/
def LaneCtx.left (c : LaneCtx) : List Nat := (lanesOf c.active c.p.width).filter fun l => !c.part.ends.any fun e => e.1 == l

/-- The effective deadline, fixed at the first issue, of the snapshot's register that the dl field names (R34, R37, R183). -/
def LaneCtx.deadline (c : LaneCtx) : Deadline :=
  match c.before with
  | some h => h.deadline
  | none => deadlineOf c.s (c.s.home c.p) c.p (c.b.dl[c.f.dl.toNat]) c.f.dl

def LaneAcc.fault (acc : LaneAcc) (lane : Nat) (d : Deny) (addr : Word) : LaneAcc :=
  { acc with ends := acc.ends ++ [(lane, if d.cause = .poison then .poison else .fault d.cause)]
             denied := acc.denied ++ [(lane, d, addr)] }

/-- A lane that ends OK with register words for vd from register `dst` up. -/
def LaneAcc.ok (acc : LaneAcc) (c : LaneCtx) (lane : Nat) (words : List (BitVec 32)) : LaneAcc :=
  { acc with ends := acc.ends ++ [(lane, .ok)]
             entries := acc.entries ++ entriesOf (c.p.first + lane) (c.p.b + c.f.dst.toNat) words }

/-- The place of a lane's element, and whether its home answers with poison: of a location of another part only the answer tells,
which an absent part does not give (R183, R328, R338). -/
def State.lanePlace (s : State) (ac : Accessor) (addr : Word) (n : Nat) (need : Rights) : Except Deny (Place × Bool) :=
  match s.access ac addr n n need with
  | .ok p => .ok (p, false)
  | .error d => match d.cause, s.windowPlace ac addr.toNat n need with
    | .poison, .ok p => if s.remote p then .ok (p, true) else .error d
    | _, _ => .error d

/-- A lane whose element is poisoned (R147, R338). -/
def LaneAcc.poisoned (acc : LaneAcc) (c : LaneCtx) (lane : Nat) (addr : Word) : LaneAcc :=
  { acc with s := acc.s.sawPoison (c.accessor lane) { cause := .poison } addr }.fault lane { cause := .poison } addr

/-- One element access of a lane.  `act` performs it.  `bounded`: the instruction's deadline bounds a remote access, which
then returns or, freely, does not, and counts as a wait (R183); `atomic`: it may have been performed although it does not
return (R190). -/
def LaneAcc.touch (acc : LaneAcc) (c : LaneCtx) (lane : Nat) (addr : Word) (n : Nat) (need : Rights) (bounded atomic : Bool)
    (act : State → Place → State × List (BitVec 32)) : LaneAcc :=
  let s := if c.op = .ld ∨ c.op = .st then acc.s.noteMiss addr else acc.s
  match s.lanePlace (c.accessor lane) addr n need with
  | .error d => { acc with s := s.sawPoison (c.accessor lane) d addr }.fault lane d addr
  | .ok (p, bad) =>
    if !s.remote p then
      let r := act s p
      { acc with s := r.1 }.ok c lane r.2
    else
      let seed := c.s.seed c.p
      let acc := { acc with s := s, anyRemote := acc.anyRemote || bounded }
      let lost : LaneAcc := if atomic && !bad && Config.freeBit seed (lane * 16 + 9) then { acc with s := (act s p).1 } else acc
      if bounded && (c.deadline.poll || c.deadline.passed s c.p) then { lost with ends := lost.ends ++ [(lane, .timeout)] }
      else if s.unreachable p || (bounded && Config.freeBit seed (lane * 16 + 10)) then
        { lost with ends := lost.ends ++ [(lane, .remote)], remotes := lost.remotes ++ [(lane, addr)] }
      else if bad then acc.poisoned c lane addr
      else
        let r := act s p
        { acc with s := r.1 }.ok c lane r.2

/-- The cause vector of denied lanes (R154). -/
def causeVector (l : List (Nat × Deny × Word)) : BitVec 4096 :=
  BitVec.ofNat 4096 (l.foldl (fun v e => v + e.2.1.cause.nibble * 2 ^ (4 * e.1)) 0)

/-- The entry of the lowest lane. -/
def lowestLane (l : List (Nat × Deny × Word)) : Option (Nat × Deny × Word) :=
  l.foldl (fun m e => match m with
    | some x => if e.1 < x.1 then some e else m
    | none => some e) none

/-- The reported cause: the first in the order of R150, of the lowest lane that holds it. -/
def reported (l : List (Nat × Deny × Word)) : Option (Nat × Deny × Word) :=
  match l.foldl (fun (m : Option Nat) e => match m with
      | some k => some (Nat.min k e.2.1.cause.code)
      | none => some e.2.1.cause.code) none with
  | none => none
  | some k => lowestLane (l.filter fun e => e.2.1.cause.code == k)

/-- The trap of a lane memory instruction (R150, R153, R154).  Of its PERMISSION lanes an offer names those that lack a page
right first, and only then, marked, those out of extent (R166). -/
def laneTrap (lrun : Word) (boff : Nat) (done : Mask) (l : List (Nat × Deny × Word)) : Option Trap :=
  (reported l).map fun e =>
    let first := (lowestLane (l.filter fun x => x.2.1.cause == e.2.1.cause && !x.2.1.extent)).getD e
    { (Trap.scalar e.2.1.cause lrun 0).denied first.2.1 e.2.2 with
        src := 1, boff := boff, offerAddr := first.2.2, done := done, causes := causeVector l, lane := true }

/-- Lanes that ended and are not to be reissued (R154, R190). -/
def doneLanes (ends : List (Nat × LaneEnd)) : Mask :=
  maskOf ((ends.filter fun e => e.2 == .ok || e.2 == .timeout).map fun e => e.1)

/-- An issued instruction whose lanes have all ended goes on: it leaves the queue, or its cause is pending with it at the
head of the queue; `late` are lanes that count as done beside those that ended well or TIMEOUT. -/
def Party.settleHead (p : Party) (i : InFlight) (mask late : Mask) : Party :=
  match laneTrap i.lrun i.boff (doneLanes i.ends ||| late) i.denied with
  | some t =>
    { p with
        pendingLane := some t, redo := none
        headOp := some { op := i.op, f := i.f, mask := mask, anyRemote := i.anyRemote
                         late := i.late ||| maskOf ((i.ends.filter fun e => e.2 == .timeout).map Prod.fst), deadline := i.deadline } }
  | none => { p.popHead with inflight := p.inflight ++ [i], redo := none, headOp := none }

/-- A lane's end put in its place among the ends of lower and higher lanes. -/
def insertLane {α : Type} (e : Nat × α) : Table α → Table α
  | [] => [e]
  | x :: xs => if x.1 < e.1 then x :: insertLane e xs else e :: x :: xs

def inLaneOrder {α : Type} (l : Table α) : Table α := l.foldr insertLane []

/-- The instruction at the head of the queue has issued with these results.  A reissue is the same wait as the issues before
it; a lane that one of them ended is done, and writes 0 in `ls`, a TIMEOUT lane too (R158, R183, R190; log 63). -/
def LaneCtx.conclude (c : LaneCtx) (acc : LaneAcc) : Result :=
  let p0 := c.p
  let before := c.before
  let kept := match p0.redo with | some done => c.effective &&& done | none => 0
  let i : InFlight := {
    op := c.op, f := c.f, order := c.b.order, boff := p0.laneCtr, lrun := c.b.lrun
    ends := inLaneOrder ((lanesOf kept p0.width).map (fun l => (l, LaneEnd.ok)) ++ acc.ends)
    deadline := c.deadline, anyRemote := acc.anyRemote || before.any (fun h => h.anyRemote)
    late := match before with | some h => h.late &&& kept | none => 0
    remotes := acc.remotes, issuedAt := c.s.lantern.toNat, denied := acc.denied, lsWritten := [] }
  -- the stores may have met watchers of this party, so its record is read again; the lanes of an atomic on one line are
  -- consecutive, so that the waiters look at the word after them (R187)
  let p := { ({ c with p := acc.s.party }.write { entries := acc.entries, mask := none } none) with part := none }
  let p := if p0.redo.isSome then p else p.raiseCount c.f.set
  let p :=
    if acc.remotes.isEmpty then p.settleHead i c.effective 0
    else { p with
        inflight := p.inflight ++ [i]
        headOp := some { op := c.op, f := c.f, mask := c.effective, anyRemote := i.anyRemote, late := i.late, deadline := i.deadline } }
  let t : State := { acc.s with party := p.pruneRecent }
  .next (if c.op = .atom ∨ c.op = .ared ∨ c.op = .acas then t.retestAll else t)

/-- A lane memory instruction at the head of the queue of the party in focus. -/
def runLaneMemory (s : State) (op : LaneOp) (f : LaneF) (body : LaneCtx → LaneAcc → Nat → LaneAcc) : Result :=
  let p := s.party
  match p.queue with
  | [] => hold s
  | b :: _ =>
    if p.laneFrozen then hold s
    else if (op.check f).isSome || !op.inWindow f (s.home p).header.window then .next (s.illegalLane b)
    else if !p.flagsAdmit f then hold s
    else
      let c := s.laneCtx b op f
      c.conclude (c.left.foldl (body c) c.start)

/-- The head lane instruction of the party in focus makes some of its events, if its checks pass, and is begun: it keeps its mask,
deadline and record (R67, R122, R301). -/
def State.someEvents (s : State) (op : LaneOp) (f : LaneF) (record : LaneCtx → Except Deny (List Byte))
    (events : LaneCtx → LanePart → State × LanePart) : State :=
  let p := s.party
  match p.queue with
  | [] => s
  | b :: _ =>
    if p.laneFrozen || (op.check f).isSome || !op.inWindow f (s.home p).header.window || !p.flagsAdmit f then s
    else
      let c := s.laneCtx b op f
      let head : HeadOp := { op := op, f := f, mask := c.effective, anyRemote := false, late := 0, deadline := c.deadline }
      match record c with
      | .error _ => s
      | .ok bs =>
        let r := events c { c.part with record := some bs }
        { r.1 with party := { r.1.party with headOp := some (c.before.getD head), part := some r.2 } }

/-- Outstanding lanes of an instruction have ended: at its deadline with TIMEOUT, at the access bound with cause POISON; an
atomic of them that may have been performed counts as done (R183, R190, R328). -/
def Party.resolveRemotes (p : Party) (i : InFlight) (poison : Bool) : Party :=
  let mask := match p.headOp with | some h => h.mask | none => 0
  let rest := p.inflight.filter fun j => !(j.order == i.order && j.boff == i.boff)
  let atomic := i.op == .atom || i.op == .acas
  let ends := i.ends.map fun e => if e.2 == .remote then (e.1, if poison then LaneEnd.poison else .timeout) else e
  let late : Table (Deny × Word) := if poison then i.remotes.map fun r => (r.1, ({ cause := .poison } : Deny), r.2) else []
  { p with inflight := rest }.settleHead
    { i with ends := ends, remotes := [], denied := mergeEntries (i.denied.length + late.length) i.denied late } mask
    (if poison && atomic then maskOf (i.remotes.map Prod.fst) else 0)

end Sys2Proof.Machine
end

