-- ==== Sys2Proof/Machine/Commands.lean ====
section
/-!
DEFINITION. What the engine commands read and check at issue, and their acceptance: Siphon commands (R213 to R216, R221),
tile tasks (R241, R244, R257, R258) and collectives (R370 to R372).
-/
namespace Sys2Proof.Machine

/-- What reading a command at issue comes to. -/
inductive Issue (α : Type) where
  | work (w : α)
  | malformed
  | trap (d : Deny) (addr : Word)

/-- Words that the party in focus reads one after the other as SLD does, each of `size` bytes and the first aligned to `align`:
the state after the reads, and the words or the denied one's cause (R215, R304, R318). -/
def State.readWords (s : State) (ac : Accessor) (a : Word) (size align : Nat) : (n : Nat) → State × Except (Deny × Word) (List Nat)
  | 0 => (s, .ok [])
  | n + 1 =>
    match s.access ac a size align .read with
    | .error d => (s, .error (d, a))
    | .ok p =>
      if s.unreachable p then (s, .error ({ cause := .poison }, a))
      else
        let r := (s.partyRead p size).readWords ac (a + BitVec.ofNat 64 size) size size n
        (r.1, r.2.map fun l => s.valueAt p size :: l)

/-- Words of a 64-byte descriptor; its address is a multiple of 64 (log 25). -/
def State.descriptor (s : State) (ac : Accessor) (a : Word) : State × Except Deny (List Nat) :=
  let r := s.readWords ac a 8 64 8
  (r.1, match r.2 with
    | .ok l => .ok l
    | .error e => .error e.1)

/-! ### Layout records and sparse headers (R214, R219) -/

def Layout.ofBytes (bs : List Byte) : Option Layout :=
  let v := Machine.ofBytes bs
  let l : Layout := { rows := bitsOf v 0 16, cols := bitsOf v 16 16, pitch := bitsOf v 32 32, elem := bitsOf v 64 3
                      trans := bitsOf v 67 1 == 1 }
  if bitsOf v 68 60 ≠ 0 ∨ l.rows = 0 ∨ l.cols = 0 ∨ 4 < l.elem ∨ l.pitch % 2 ^ l.elem ≠ 0 then none else some l

/-- The logical shape. -/
def Layout.shape (l : Layout) : Nat × Nat := if l.trans then (l.cols, l.rows) else (l.rows, l.cols)

/-- The address of a logical element. -/
def Layout.at_ (l : Layout) (base : Word) (i j : Nat) : Word :=
  base + BitVec.ofNat 64 (if l.trans then j * l.pitch + i * 2 ^ l.elem else i * l.pitch + j * 2 ^ l.elem)

/-- The party in focus comes after a record that it has read as it stands; an older one in the record cache tells it nothing
(R214, R304, R318). -/
def State.sawRecord (s : State) (l : Launch) (va n : Nat) (bs : List Byte) : State :=
  match s.unitSpans l.space .read n va n with
  | .ok spans => if s.readSpans spans = bs then spans.foldl (fun s x => s.partyRead x.1 x.2) s else s
  | .error _ => s

/-- A layout record by its index. -/
def State.layoutRecord (s : State) (l : Launch) (index : Nat) : State × Issue Layout :=
  let va := l.header.layout.toNat + 16 * index
  if l.header.layouts ≤ index then (s, .malformed)
  else match s.tableBytes l va 16 with
    | .error d => (s, .trap d (BitVec.ofNat 64 va))
    | .ok bs => (s.sawRecord l va 16 bs, match Layout.ofBytes bs with
      | some r => .work r
      | none => .malformed)

/-- The sparse header that eight words give. -/
def Sparse.ofWords (ws : List Nat) : Issue Sparse :=
  let w (i : Nat) : Nat := (ws[i]?).getD 0
  let r : Sparse := { ptr := BitVec.ofNat 64 (w 0), idx := BitVec.ofNat 64 (w 1), val := BitVec.ofNat 64 (w 2)
                      nmaj := bitsOf (w 3) 0 32, nmin := bitsOf (w 3) 32 32, elem := bitsOf (w 4) 0 3
                      csc := bitsOf (w 4) 3 1 == 1 }
  if bitsOf (w 4) 4 60 ≠ 0 ∨ w 5 ≠ 0 ∨ w 6 ≠ 0 ∨ w 7 ≠ 0 ∨ 4 < r.elem ∨ w 0 % 4 ≠ 0 ∨ w 1 % 4 ≠ 0 ∨
      w 2 % 2 ^ r.elem ≠ 0 ∨ isPrivate r.ptr ∨ isPrivate r.idx ∨ isPrivate r.val then .malformed
  else .work r

/-- A sparse header (R219). -/
def State.sparseHeader (s : State) (ac : Accessor) (a : Word) : State × Issue Sparse :=
  if a.toNat % 64 ≠ 0 ∨ isPrivate a then (s, .malformed)
  else
    let r := s.descriptor ac a
    (r.1, match r.2 with
      | .error d => .trap d a
      | .ok ws => Sparse.ofWords ws)

/-! ### Siphon commands (R213, R215) -/

def Layout.none : Layout := { rows := 1, cols := 1, pitch := 0, elem := 0, trans := false }

/-- The command of a descriptor whose kind is one of `kinds`, with the offsets of `sb`, and the state after the reads.  Of the
fields that R215 does not speak of, sparse and count must be zero in a CPYT and count in a sparse command, and a gate's are not
looked at (log 73). -/
def State.readCommand (s : State) (kinds : List Nat) (a off : Word) : State × Issue Command :=
  let p := s.party
  let l := s.home p
  let ac := accessorOf l p
  match s.descriptor ac a with
  | (s, .error d) => (s, .trap d a)
  | (s, .ok ws) =>
    let w (i : Nat) : Nat := (ws[i]?).getD 0
    let ctl := w 3
    let kind := bitsOf ctl 0 3
    let sparse := bitsOf ctl 3 1 == 1
    let count := bitsOf ctl 20 13
    let src0 : Word := BitVec.ofNat 64 (w 0)
    let dst0 : Word := BitVec.ofNat 64 (w 1)
    let src := if kind = 1 ∧ sparse then src0 else src0 + (off.setWidth 32).signExtend 64
    let dst := if kind = 2 ∧ sparse then dst0 else dst0 + ((off >>> (32 : Nat)).setWidth 32).signExtend 64
    let cw : Word := BitVec.ofNat 64 (w 4)
    let sem : Word := BitVec.ofNat 64 (w 6)
    let base : Command := {
      id := 0, core := p.core, launch := p.launch, group := p.group, pid := p.pid, owners := [p.pid], replay := l.header.replay, kind := kind
      src := src, dst := dst, aux := BitVec.ofNat 64 (w 2), count := count, slay := Layout.none, dlay := Layout.none
      sparse := none, rbar := if bitsOf ctl 37 1 = 1 then some (bitsOf ctl 33 4) else none, rows := 0
      cwaddr := cw, cwval := BitVec.ofNat 64 (w 5), semaddr := sem, batch := w 2 % 2 ^ 16, pred := none
      desc := a, time := 0, progress := 0, held := [], stage := 0, loads := [], got := [], stores := [], rowOpen := false
      executed := false, failed := none, offer := none }
    if !kinds.contains kind || bitsOf ctl 38 26 != 0 || w 7 != 0 || cw.toNat % 8 != 0 || sem.toNat % 8 != 0 ||
        isPrivate cw || isPrivate sem then (s, .malformed)
    else if kind = 3 then (s, .work base)
    else if isPrivate src || isPrivate dst then (s, .malformed)
    else if sparse then
      if kind = 0 ∨ count ≠ 0 then (s, .malformed)
      else
        let x := s.sparseHeader ac (if kind = 1 then src0 else dst0)
        let y := x.1.layoutRecord l (bitsOf ctl (if kind = 1 then 12 else 4) 8)
        (y.1, match x.2, y.2 with
        | .trap d x, _ | _, .trap d x => .trap d x
        | .malformed, _ | _, .malformed => .malformed
        | .work h, .work lay =>
          let dense := if kind = 1 then dst else src
          if h.elem ≠ lay.elem ∨ dense.toNat % 2 ^ lay.elem ≠ 0 then .malformed
          else .work { base with sparse := some h, slay := lay, dlay := lay
                                 rows := if h.csc then lay.shape.2 else lay.shape.1 })
    else
      let x := s.layoutRecord l (bitsOf ctl 4 8)
      let y := x.1.layoutRecord l (bitsOf ctl 12 8)
      (y.1, match x.2, y.2 with
      | .trap d x, _ | _, .trap d x => .trap d x
      | .malformed, _ | _, .malformed => .malformed
      | .work sl, .work dl =>
        let c := { base with slay := sl, dlay := dl, rows := if kind = 0 then sl.shape.1 else count }
        if sl.elem ≠ dl.elem ∨ src.toNat % 2 ^ sl.elem ≠ 0 ∨ dst.toNat % 2 ^ dl.elem ≠ 0 then .malformed
        else if kind = 0 then
          if sl.shape ≠ dl.shape ∨ w 2 ≠ 0 ∨ count ≠ 0 then .malformed else .work c
        else if count = 0 ∨ 4096 < count ∨ sl.shape.2 ≠ dl.shape.2 ∨ w 2 % 4 ≠ 0 ∨ isPrivate c.aux ∨
            (if kind = 1 then dl.shape.1 else sl.shape.1) < count then .malformed
        else .work c)

/-- The path of a command's payload (R304). -/
def Command.path (c : Command) : Nat := if c.kind = 0 then 1 else 2

/-- Who a command is among the agents of its path (R304, R318). -/
def Command.agent (c : Command) : Agent :=
  { path := c.path, unit := c.core, cmd := c.id, pid := c.pid, owners := c.owners, time := c.time, replay := c.replay }

/-- Entries of a core's Siphon queue in use (R212). -/
def State.siphonUsed (s : State) (core : Nat) : Nat := (s.commands.filter fun c => c.core == core && c.kind != 3).length

/-- Row arrivals that commands add to a leaf barrier. -/
def rowsFor (l : List Command) (i : Nat) : Nat :=
  l.foldl (fun n c => if c.rbar = some i then n + c.rows else n) 0

/-- Acceptance of commands: none while the queue has no entry for each, or eexp has no room (R216, R221). -/
def State.acceptCommands (s : State) (p : Party) (l : List Command) : Option State :=
  let home := s.home p
  let need := (l.filter fun c => c.kind != 3).length
  let room := (upTo 0 16).all fun i =>
    rowsFor l i == 0 || decide ((s.barrier home p.group false i).eexp + rowsFor l i < 2 ^ 24)
  if Config.siphonEntries < s.siphonUsed p.core + need || !room then none
  else
    let s := (upTo 0 16).foldl (fun s i =>
      if rowsFor l i = 0 then s
      else
        let b := s.barrier home p.group false i
        s.setBarrier home p.group false i { b with eexp := b.eexp + rowsFor l i }) s
    let new := l.zipIdx.map fun c =>
      { c.1 with id := s.ids + c.2, time := p.pt, pred := if c.2 = 0 then none else some s.ids }
    some { s with commands := s.commands ++ new, ids := s.ids + l.length }

/-! ### Tile tasks (R241, R244, R258) -/

/-- The operands that are handles, with whether each is written: the register's place in the run and the flag. -/
def tileHandles (op : Nat) : List (Nat × Bool) :=
  match op with
  | 0 | 1 | 2 => [(0, true)]
  | 3 => [(0, false)]
  | 4 | 7 | 8 | 10 | 11 => [(0, true), (1, false)]
  | 5 | 9 => [(0, true), (1, false), (2, false)]
  | 6 => [(0, true), (1, false), (2, false), (3, false)]
  | _ => [(1, false)]

def Task.val (t : Task) (i : Nat) : Word := (t.vals[i]?).getD 0

/-- The handles a task names, with whether it writes each (R258). -/
def Task.handles (t : Task) : List (Word × Bool) :=
  ((tileHandles t.op).map fun h => (t.val h.1, h.2)).filter fun h => h.1 != 0

/-- The bits of the control word that an instruction uses (R240, R244). -/
def controlMask (op : Nat) : Nat :=
  let tol := 2 ^ 40 - 1       -- tol, cap, rel, fit
  let neg := 2 ^ 40
  match op with
  | 0 => 7 + 0x30 + 0x700
  | 4 | 10 => tol
  | 5 => tol + neg
  | 6 => tol + neg + 2 ^ 41 + 2 ^ 42
  | 9 => tol + 2 ^ 43 + 2 ^ 44 + 2 ^ 45
  | _ => 0

/-- A tolerance that R240 admits. -/
def goodTol (ctl : Nat) : Bool :=
  let t := ctl % 2 ^ 32
  t == 2 ^ 31 || decide (t < 0x7F800000)

/-- Whether the register values of a tile command pass R241. -/
def Task.wellFormed (t : Task) : Bool :=
  let ctl := t.ctl.toNat
  let handle (i : Nat) : Bool :=
    let h := t.val i
    (h == 0 && t.op == 6 && i == 3) || (h != 0 && h.toNat % 64 == 0 && !isPrivate h)
  (tileHandles t.op).all (fun h => handle h.1) && ctl &&& controlMask t.op == ctl &&
    (match t.op with
     | 0 => decide (ctl % 8 ≤ 4) && decide (bitsOf ctl 4 2 ≤ 2)
     | 4 | 5 | 6 | 9 | 10 => goodTol ctl
     | 2 | 3 => !isPrivate (t.val 1) && bitsOf (t.val 2).toNat 34 30 == 0
     | 11 => decide ((t.val 2).toNat ≤ 4)
     | 12 => (t.val 0).toNat % 8 == 0 && !isPrivate (t.val 0)
     | _ => true)

/-- The cluster of a core (R2). -/
def clusterOfCore (core : Nat) : Nat := core / 8

/-- The context of a launch that has not ended. -/
def State.ctxOf (s : State) (launch : Nat) : Nat := match s.launch? launch with | some l => l.space.ctx | none => 0

/-- The handles a task names as the dependence table compares them, with their context, and whether it writes each (R258). -/
def State.handleUses (s : State) (t : Task) : List ((Nat × Word) × Bool) := t.handles.map fun h => ((s.ctxOf t.launch, h.1), h.2)
def State.handlesOf (s : State) (t : Task) : List (Nat × Word) := (s.handleUses t).map Prod.fst

/-- A task depends on an earlier one of its cluster: they name one handle, which one of them writes (R258). -/
def State.depends (s : State) (t u : Task) : Bool :=
  decide (u.id < t.id) && clusterOfCore u.core == clusterOfCore t.core &&
    (s.handleUses t).any fun a => (s.handleUses u).any fun b => a.1 == b.1 && (a.2 || b.2)

/-- Handles that the dependence table of a cluster holds. -/
def State.heldHandles (s : State) (cluster : Nat) : List (Nat × Word) :=
  ((s.tasks.filter fun t => clusterOfCore t.core == cluster).flatMap s.handlesOf).eraseDups

/-- The dependence table has room for a task (R241). -/
def State.tableRoom (s : State) (t : Task) : Bool :=
  let held := s.heldHandles (clusterOfCore t.core)
  let new := (s.handlesOf t).eraseDups.filter fun h => !held.contains h
  decide (held.length + new.length ≤ Config.dependenceEntries)

/-- A core's Gallery has a free record (R257). -/
def State.galleryRoom (s : State) (core : Nat) : Bool :=
  decide ((s.tasks.filter fun t => t.core == core).length < Config.galleryEntries)

/-- Acceptance of a tile task in the party's open batch (R241). -/
def State.acceptTask (s : State) (p : Party) (t : Task) : Option State :=
  if s.galleryRoom t.core && s.tableRoom t then
    let cluster := clusterOfCore t.core
    let seq := Table.get 0 s.accepted cluster
    let s := s.claimOwed s.ids (s.handleUses t)
    some { s with
      tasks := s.tasks ++ [{ t with id := s.ids, seq := seq, time := p.pt, batch := p.openBatch.toNat }]
      accepted := Table.set 0 s.accepted cluster (seq + 1)
      ids := s.ids + 1 }
  else none

/-- Who a tile task is: the tile path has a cache for each cluster (R304, R318; log 67). -/
def Task.agent (t : Task) : Agent :=
  { path := 3, unit := clusterOfCore t.core, cmd := t.id, pid := t.pid, owners := t.owners, time := t.time, replay := t.replay }

/-! ### Collectives (R370 to R372) -/

/-- Who a collective is: the collective path has a cache for each die (R304, R318; log 67). -/
def Collective.agent (c : Collective) : Agent :=
  { path := 4, unit := c.die, cmd := c.id, pid := c.pid, owners := c.owners, time := c.time
    replay := c.replay }

/-- The die of a core (R2). -/
def dieOf (core : Nat) : Nat := core / 32

def collType (t : Ty) : Bool := t.isZ || t == .bf16 || t == .f32 || t == .f64

/-- The collective of a descriptor, whose members are one n16 each, and the state after the reads (R370, R371). -/
def State.readCollective (s : State) (a off : Word) : State × Issue Collective :=
  let p := s.party
  let ac := accessorOf (s.home p) p
  match s.descriptor ac a with
  | (s, .error d) => (s, .trap d a)
  | (s, .ok ws) =>
    let w (i : Nat) : Nat := (ws[i]?).getD 0
    let ctl := w 3
    let n := bitsOf ctl 9 12
    let ty := Ty.ofCode (BitVec.ofNat 4 (bitsOf ctl 2 4))
    let op := bitsOf ctl 6 3
    let kind := bitsOf ctl 0 2
    let c := bitsOf (w 4) 0 32
    let src : Word := BitVec.ofNat 64 (w 0) + (off.setWidth 32).signExtend 64
    let dst : Word := BitVec.ofNat 64 (w 1) + ((off >>> (32 : Nat)).setWidth 32).signExtend 64
    let mem : Word := BitVec.ofNat 64 (w 2)
    let cw : Word := BitVec.ofNat 64 (w 6)
    let opOk := if kind = 1 then op == 0 else decide (op ≤ 2) || (ty.isZ && decide (op ≤ 5))
    if kind = 3 || bitsOf ctl 21 43 != 0 || !collType ty || !opOk || n < 2 || 3072 < n || c = 0 || 2 ^ 28 < c ||
        w 5 = 0 || 2 ^ 40 < w 5 || cw.toNat % 8 != 0 || src.toNat % ty.bytes != 0 || dst.toNat % ty.bytes != 0 ||
        mem.toNat % 2 != 0 || isPrivate src || isPrivate dst || isPrivate mem || isPrivate cw then (s, .malformed)
    else
      let r := s.readWords ac mem 2 2 n
      (r.1, match r.2 with
      | .error e => .trap e.1 e.2
      | .ok members =>
        if members.any (fun m => decide (3071 < m)) || (members.filter fun m => m == s.bar.part).length != 1 then .malformed
        else .work {
          id := 0, time := 0, die := dieOf p.core, launch := p.launch, group := p.group, pid := p.pid, owners := [p.pid]
          replay := (s.home p).header.replay, src := src, dst := dst
          members := members, kind := kind, ty := ty, op := op, count := c, tag := bitsOf (w 4) 32 32, timeout := w 5
          cwaddr := cw, cwval := BitVec.ofNat 64 (w 7), instance_ := 0, acceptedAt := 0, desc := a, failed := none
          allJoined := false, plan := none, finished := false, offer := none })

/-- A packet numbered and kept for another part, until it is acknowledged, with the logical time of its data (R318, R368). -/
def State.sendPacket (s : State) (dst cls time : Nat) : State :=
  let mine (x : SendStream) : Bool := x.dst == dst && x.cls == cls
  let st := (s.sends.find? mine).getD { dst := dst, cls := cls, next := 0, unacked := [] }
  let p : Packet := { src := s.bar.part, dst := dst, cls := cls, seq := st.next, time := BitVec.ofNat 64 time }
  { s with sends := s.sends.filter (fun x => !mine x) ++
      [{ st with next := st.next + 1, unacked := st.unacked ++ [(p, s.lantern.toNat)] }] }

/-- Acceptance of a collective, which takes the pair's next instance number (R370, R372). -/
def State.acceptCollective (s : State) (p : Party) (c : Collective) : Option State :=
  if (s.collectives.filter fun x => x.die == c.die).length < Config.collectiveEntries then
    let ctx := (s.home p).space.ctx
    let same (e : Nat × Nat × List Nat × Nat) : Bool := e.1 == ctx && e.2.1 == c.tag && e.2.2.1 == c.members
    let n := ((s.instances.find? same).map fun e => e.2.2.2).getD 0
    let t := (c.members.filter fun m => m != s.bar.part).foldl (fun (s : State) m => s.sendPacket m 2 p.pt) s
    some { t with
      collectives := s.collectives ++ [{ c with
        id := s.ids, time := p.pt, instance_ := n, acceptedAt := s.lantern.toNat
        failed := if c.members.any s.absentParts.contains then some 0x0103 else c.failed }]
      instances := s.instances.filter (fun e => !same e) ++ [(ctx, c.tag, c.members, n + 1)]
      ids := s.ids + 1 }
  else none

end Sys2Proof.Machine
end

