-- ==== Sys2Proof/Machine/Window.lean ====
section
/-!
DEFINITION. The spill areas: the window slide of CALL, CALLR and RET, and the token stack beyond its hardware part (R30 to
R32, R98, R103).
-/
namespace Sys2Proof.Machine

/-! ### Lane registers (R31) -/

/-- The bytes of eight registers of a lane from a stack position up. -/
def Party.eight (p : Party) (q pos : Nat) : List Byte :=
  (upTo pos 8).flatMap fun i => toBytes 4 (p.laneReg (regKey q i)).toNat

/-- Group positions of a party's lanes. -/
def Party.positions (p : Party) : List Nat := upTo p.first p.width

/-- A group of eight registers of some lanes written to their spill areas. -/
def State.spillEight (s : State) (l : Launch) (p : Party) (lanes : List Nat) (pos : Nat) : Except Deny State :=
  lanes.foldlM (fun s q => s.arenaWrite l.space (l.header.spillAt p.group q + 4 * pos) (p.eight q pos)) s

/-- A register as its fill finds it: the spilled value, or what was stored over it through the alias (R32). -/
def State.filled (s : State) (free : Nat) (p : Party) (q pos : Nat) (word : Nat) : BitVec 32 :=
  let kept := p.laneReg (regKey q pos)
  let found : BitVec 32 := BitVec.ofNat 32 word
  if kept = found then kept else if Config.freeBit (s.seed p) (free + 8 * regKey q pos) then found else kept

/-- Registers `pos` to `pos + n - 1` of some lanes read from their spill areas. -/
def State.fill (s : State) (l : Launch) (p : Party) (lanes : List Nat) (pos n : Nat) : Except Deny Party :=
  lanes.foldlM (fun (p : Party) q => do
    let bs ← s.arenaRead l.space (l.header.spillAt p.group q + 4 * pos) (4 * n)
    pure (p.putRegs ((upTo 0 n).map fun i =>
      (regKey q (pos + i), s.filled 6 p q (pos + i) (ofBytes ((bs.drop (4 * i)).take 4)))))) p

/-- Positions at and above `top` lose their content. -/
def Party.discard (p : Party) (top : Nat) : Party :=
  { p with
      regs := p.regs.filter fun e => e.1 % 1024 < top
      regTag := p.regTag + 1
      fresh := Nat.min p.fresh top }

/-- An upward slide: the lowest groups of eight registers spill until the window fits; `n` bounds them. -/
def State.spillUp (s : State) (l : Launch) (p : Party) : (n : Nat) → Except Deny (State × Party)
  | 0 => .ok (s, p)
  | n + 1 =>
    if p.b + l.header.window ≤ p.lo + l.header.depth8 then .ok (s, p)
    else match s.spillEight l p p.positions p.lo with
      | .error d => .error d
      | .ok s => s.spillUp l { p with lo := p.lo + 8 } n

/-- The window base moved to `b` (R31). -/
def State.slide (s : State) (l : Launch) (p : Party) (b : Nat) : Except Deny (State × Party) :=
  if b < p.lo then do
    let q ← s.fill l p p.positions b (p.lo - b)
    pure (s, { q.discard (b + l.header.depth8) with b := b, lo := b })
  else s.spillUp l { p with b := b } 128

/-! ### Tokens (R98, R103) -/

def Token.bytes (t : Token) : List Byte :=
  toBytes 128 t.image.toNat ++ (toBytes 4 (summary t.image).toNat ++ (toBytes 4 t.isBreak.toNat ++ toBytes 8 t.addr.toNat))

/-- A token read from its spill slot for a party (R98): each 32-bit word the spilled one or what was stored over it. -/
def State.filledToken (s : State) (p : Party) (slot : Nat) (kept : Token) (found : List Byte) : Token :=
  let old := kept.bytes
  let bs := (upTo 0 36).flatMap fun i =>
    let a := (old.drop (4 * i)).take 4
    let b := (found.drop (4 * i)).take 4
    if a = b then a else if Config.freeBit (s.seed p) ((slot * 36 + i) * 8 + 7) then b else a
  { isBreak := (ofBytes ((bs.drop 132).take 1)) % 2 == 1
    addr := BitVec.ofNat 64 (ofBytes ((bs.drop 136).take 8)) &&& ~~~3
    image := BitVec.ofNat 1024 (ofBytes (bs.take 128)) &&& p.allLanes }

/-- The token at depth `k` from the top brought into hardware, if it lies in the spill block. -/
def State.fillToken (s : State) (l : Launch) (p : Party) (k : Nat) : Except Deny Party :=
  match p.tokens[k]? with
  | none => .ok p
  | some t =>
    let slot := p.tokens.length - 1 - k
    if p.spilled ≤ slot then .ok p
    else do
      let bs ← s.arenaRead l.space (l.header.tokensAt p.group p.first + 144 * slot) 144
      pure { p with tokens := p.tokens.set k (s.filledToken p slot t bs), spilled := slot }

/-- The leading BREAK tokens and the token under them brought into hardware; `n` bounds their number. -/
def State.fillBreaks (s : State) (l : Launch) (p : Party) (k : Nat) : (n : Nat) → Except Deny Party
  | 0 => .ok p
  | n + 1 => do
    let p ← s.fillToken l p k
    match p.tokens[k]? with
    | some t => if t.isBreak then s.fillBreaks l p (k + 1) n else pure p
    | none => pure p

/-- Tokens of the outermost part written to the spill block while hardware holds more than 32; `n` bounds them. -/
def State.spillTokens (s : State) (l : Launch) (p : Party) : (n : Nat) → Except Deny (State × Party)
  | 0 => .ok (s, p)
  | n + 1 =>
    if p.tokens.length ≤ p.spilled + Config.hardwareTokens then .ok (s, p)
    else match p.tokens[p.tokens.length - 1 - p.spilled]? with
      | none => .ok (s, p)
      | some t => match s.arenaWrite l.space (l.header.tokensAt p.group p.first + 144 * p.spilled) t.bytes with
        | .error d => .error d
        | .ok s => s.spillTokens l { p with spilled := p.spilled + 1 } n

/-- A spill, fill or token copy of the instruction at the party's counter is denied: nothing but the trap (R31, R103). -/
def raiseSpill (s : State) (d : Deny) : Result :=
  raise s { (Trap.scalar d.cause s.party.pc s.party.pc).denied d 0 with src := 3 }

/-- The party with the spilled count no greater than its stack. -/
def Party.settleTokens (p : Party) : Party := { p with spilled := Nat.min p.spilled p.tokens.length }

end Sys2Proof.Machine
end

