-- ==== Sys2Proof/Machine/Control.lean ====
section
/-!
DEFINITION. Branches, calls, returns, exit and LRUN (R50, R92 to R95).
-/
namespace Sys2Proof.Machine

/-! ### Branches (R50, R92) -/

/-- A target: the address of the instruction and four times an offset. -/
def targetOf (pc : Word) (off : Word) : Word := pc + (off <<< (2 : Nat))

/-- A branch of the party as a whole. -/
def branch (s : State) (taken : Bool) (off : BitVec 15) : Result :=
  .next (s.finishAt s.party (if taken then targetOf s.party.pc (off.signExtend 64) else s.party.pc + 4))

/-- BEQ (R50). -/
def execBeq (_k : Bool) (a : Reg) (off : BitVec 15) (s : State) : Result := branch s (s.party.reg a == 0) off

/-- BNE (R50). -/
def execBne (_k : Bool) (a : Reg) (off : BitVec 15) (s : State) : Result := branch s (s.party.reg a != 0) off

/-- BLT (R50). -/
def execBlt (_k : Bool) (a : Reg) (off : BitVec 15) (s : State) : Result := branch s (decide ((s.party.reg a).toInt < 0)) off

/-- BGE (R50). -/
def execBge (_k : Bool) (a : Reg) (off : BitVec 15) (s : State) : Result := branch s (decide (0 ≤ (s.party.reg a).toInt)) off

/-- BGT (R50). -/
def execBgt (_k : Bool) (a : Reg) (off : BitVec 15) (s : State) : Result := branch s (decide (0 < (s.party.reg a).toInt)) off

/-- BLE (R50). -/
def execBle (_k : Bool) (a : Reg) (off : BitVec 15) (s : State) : Result := branch s (decide ((s.party.reg a).toInt ≤ 0)) off

/-- BRA (R50). -/
def execBra (_k : Bool) (off : BitVec 15) (s : State) : Result := branch s true off

/-- JMP (R92). -/
def execJmp (_k : Bool) (off : BitVec 25) (s : State) : Result :=
  .next (s.finishAt s.party (targetOf s.party.pc (off.signExtend 64)))

/-! ### Calls and returns (R93) -/

/-- The slide and the transfer, the link already written by `link`. -/
def transfer (s : State) (newB : Int) (target : Word) (link : Party → Party) : Result :=
  doubleInHandler s <|
    if !s.party.drained then hold s
    else
      let l := s.home s.party
      if newB < 0 ∨ 1024 < newB + l.header.window then raiseStack s
      else match s.slide l s.party.certain newB.toNat with
        | .error d => raiseSpill s d
        | .ok (s, p) => .next (s.finishAt (link p) target)

/-- CALL: the link is the a field, k the cond field (R93). -/
def execCall (_k : Bool) (n : BitVec 4) (a : Reg) (off : BitVec 15) (s : State) : Result :=
  let p := s.party
  transfer s (p.b + 8 * n.toNat) (targetOf p.pc (off.signExtend 64)) fun q => q.setReg a (p.pc + 4)

/-- CALLR: the target register is read before the link is written (R93). -/
def execCallr (_k : Bool) (d a : Reg) (n : BitVec 4) (s : State) : Result :=
  let p := s.party
  transfer s (p.b + 8 * n.toNat) (p.reg a &&& ~~~3) fun q => q.setReg d (p.pc + 4)

/-- RET (R93). -/
def execRet (_k : Bool) (a : Reg) (n : BitVec 4) (s : State) : Result :=
  let p := s.party
  transfer s ((p.b : Int) - 8 * n.toNat) (p.reg a &&& ~~~3) id

/-! ### EXIT and LRUN (R94, R95) -/

/-- EXIT (R94, R205, R293): the party leaves its barriers and its neighbours, and its slot is free. -/
def execExit (_k : Bool) (s : State) : Result :=
  doubleInHandler s <|
    if !s.party.drained then hold s
    else
      let p := s.party
      let t := s.dropBarriers (s.home p) p
      let t := t.finish { t.party.certain with life := .exited, tokens := [], spilled := 0 }
      .next ((t.endFuses p stFuseGone).closeGroup p.launch p.group true)

/-- LRUN (R95): the block joins the queue with its snapshot (R34, R81). -/
def execLrun (_k : Bool) (len : BitVec 6) (idx : BitVec 19) (s : State) : Result :=
  doubleInHandler s <|
    let p := s.party
    if (s.home p).header.laneLen < idx.toNat + len.toNat + 1 then raiseIllegal s
    else if Config.queueBlocks ≤ p.queue.length then hold s
    else .next (s.finish { p with
      queue := p.queue ++ [{ first := idx.toNat, len := len.toNat + 1, lrun := p.pc, s := p.s, p := s.snapMasks p, dl := p.dl
                             rnd := p.rnd, nvr := p.nvr, order := p.lruns + 1, unseen := p.unseen }]
      lruns := p.lruns + 1 })

end Sys2Proof.Machine
end

