-- ==== Sys2Proof/Machine/Integer.lean ====
section
/-!
DEFINITION. The integer family and the immediates of the scalar stream (R48, R49, R89 to R91).
-/
namespace Sys2Proof

/-- The n of R89. -/
def Size.bits : Size → Nat
  | .w64 => 64
  | _ => 32

/-- sd from an n-bit result (R89). -/
def Size.extend (z : Size) (r : Nat) : Word :=
  match z with
  | .w64 => BitVec.ofNat 64 r
  | .i32 => (BitVec.ofNat 32 r).signExtend 64
  | .n32 => BitVec.ofNat 64 (r % 2 ^ 32)

end Sys2Proof
namespace Sys2Proof.Machine

/-- A value written to a scalar register, once no queued lane instruction reads it (R34, R88). -/
def writeReg (s : State) (d : Reg) (v : Word) : Result :=
  if s.holdsReg s.party d then hold s else .next (s.finish (s.party.setReg d v))

/-- An instruction of the integer family: `g n a b` is r of R89 as a natural number. -/
def intOp (s : State) (d a b : Reg) (z : Size) (g : Nat → Nat → Nat → Nat) : Result :=
  let n := z.bits
  writeReg s d (z.extend (g n ((s.party.reg a).toNat % 2 ^ n) ((s.party.reg b).toNat % 2 ^ n)))

/-- div: truncated toward zero, all ones by 0, −2^(n−1) by −1 wrapping to a (R89). -/
def divSigned (n a b : Nat) : Nat := if b = 0 then 2 ^ n - 1 else lowBits n ((signedOf n a).tdiv (signedOf n b))

/-- rem: a − b × q (R89). -/
def remSigned (n a b : Nat) : Nat := if b = 0 then a else lowBits n ((signedOf n a).tmod (signedOf n b))

/-! ### The integer family (R89) -/

/-- ADD: low_n of the sum (R89). -/
def execAdd (_k : Bool) (d a b : Reg) (z : Size) (s : State) : Result :=
  intOp s d a b z (fun n a b => (a + b) % 2 ^ n)

/-- SUB: low_n of the difference (R89). -/
def execSub (_k : Bool) (d a b : Reg) (z : Size) (s : State) : Result :=
  intOp s d a b z (fun n a b => lowBits n ((a : Int) - b))

/-- MUL: low_n of the product (R89). -/
def execMul (_k : Bool) (d a b : Reg) (z : Size) (s : State) : Result :=
  intOp s d a b z (fun n a b => a * b % 2 ^ n)

/-- MULHI: the high half of the signed product (R89). -/
def execMulhi (_k : Bool) (d a b : Reg) (z : Size) (s : State) : Result :=
  intOp s d a b z (fun n a b => lowBits n (signedOf n a * signedOf n b / 2 ^ n))

/-- MULHIN: the high half of the natural product (R89). -/
def execMulhin (_k : Bool) (d a b : Reg) (z : Size) (s : State) : Result :=
  intOp s d a b z (fun n a b => a * b / 2 ^ n)

/-- DIV: truncated toward zero; all ones by 0; the overflowing quotient wraps to a (R89). -/
def execDiv (_k : Bool) (d a b : Reg) (z : Size) (s : State) : Result :=
  intOp s d a b z divSigned

/-- DIVN: all ones by 0 (R89). -/
def execDivn (_k : Bool) (d a b : Reg) (z : Size) (s : State) : Result :=
  intOp s d a b z (fun n a b => if b = 0 then 2 ^ n - 1 else a / b)

/-- REM: the sign of a; a by 0 (R89). -/
def execRem (_k : Bool) (d a b : Reg) (z : Size) (s : State) : Result :=
  intOp s d a b z remSigned

/-- REMN: a by 0 (R89). -/
def execRemn (_k : Bool) (d a b : Reg) (z : Size) (s : State) : Result :=
  intOp s d a b z (fun _ a b => if b = 0 then a else a % b)

/-- MIN: the lesser by sv (R89). -/
def execMin (_k : Bool) (d a b : Reg) (z : Size) (s : State) : Result :=
  intOp s d a b z (fun n a b => if signedOf n a ≤ signedOf n b then a else b)

/-- MAX: the greater by sv (R89). -/
def execMax (_k : Bool) (d a b : Reg) (z : Size) (s : State) : Result :=
  intOp s d a b z (fun n a b => if signedOf n a ≤ signedOf n b then b else a)

/-- MINN: the lesser by nv (R89). -/
def execMinn (_k : Bool) (d a b : Reg) (z : Size) (s : State) : Result :=
  intOp s d a b z (fun _ a b => if a ≤ b then a else b)

/-- MAXN: the greater by nv (R89). -/
def execMaxn (_k : Bool) (d a b : Reg) (z : Size) (s : State) : Result :=
  intOp s d a b z (fun _ a b => if a ≤ b then b else a)

/-- AND: bitwise (R89). -/
def execAnd (_k : Bool) (d a b : Reg) (z : Size) (s : State) : Result :=
  intOp s d a b z (fun _ a b => a &&& b)

/-- OR: bitwise (R89). -/
def execOr (_k : Bool) (d a b : Reg) (z : Size) (s : State) : Result :=
  intOp s d a b z (fun _ a b => a ||| b)

/-- XOR: bitwise (R89). -/
def execXor (_k : Bool) (d a b : Reg) (z : Size) (s : State) : Result :=
  intOp s d a b z (fun _ a b => a ^^^ b)

/-- ANDN: a AND NOT b (R89). -/
def execAndn (_k : Bool) (d a b : Reg) (z : Size) (s : State) : Result :=
  intOp s d a b z (fun n a b => a &&& bitNot n b)

/-- SHL: left by nv(b) mod n (R89). -/
def execShl (_k : Bool) (d a b : Reg) (z : Size) (s : State) : Result :=
  intOp s d a b z shiftLeft

/-- SHR: right with zeros by nv(b) mod n (R89). -/
def execShr (_k : Bool) (d a b : Reg) (z : Size) (s : State) : Result :=
  intOp s d a b z shiftRight

/-- SRA: right with copies of the top bit by nv(b) mod n (R89). -/
def execSra (_k : Bool) (d a b : Reg) (z : Size) (s : State) : Result :=
  intOp s d a b z shiftArith

/-- SLT: 1 if less by sv (R89). -/
def execSlt (_k : Bool) (d a b : Reg) (z : Size) (s : State) : Result :=
  intOp s d a b z (fun n a b => if signedOf n a < signedOf n b then 1 else 0)

/-- SLTN: 1 if less by nv (R89). -/
def execSltn (_k : Bool) (d a b : Reg) (z : Size) (s : State) : Result :=
  intOp s d a b z (fun _ a b => if a < b then 1 else 0)

/-- SEQ: 1 if equal (R89). -/
def execSeq (_k : Bool) (d a b : Reg) (z : Size) (s : State) : Result :=
  intOp s d a b z (fun _ a b => if a = b then 1 else 0)

/-- POPC: the number of 1 bits (R89). -/
def execPopc (_k : Bool) (d a : Reg) (z : Size) (s : State) : Result := intOp s d a 0 z (fun n a _ => popCount n a)

/-- CLZ: the number of 0 bits above the highest 1 bit (R89). -/
def execClz (_k : Bool) (d a : Reg) (z : Size) (s : State) : Result := intOp s d a 0 z (fun n a _ => leadingZeros n a)

/-- CTZ: the number of 0 bits below the lowest 1 bit (R89). -/
def execCtz (_k : Bool) (d a : Reg) (z : Size) (s : State) : Result := intOp s d a 0 z (fun n a _ => trailingZeros n a)

/-! ### Immediates (R49, R90, R91) -/

/-- The immediate operand i: the 13-bit field sign-extended (R49). -/
def immOf (imm : BitVec 13) : Word := imm.signExtend 64

/-- ADDI (R90). -/
def execAddi (_k : Bool) (d a : Reg) (imm : BitVec 13) (s : State) : Result :=
  let x := s.party.reg a
  let i := immOf imm
  writeReg s d (x + i)

/-- ANDI (R90). -/
def execAndi (_k : Bool) (d a : Reg) (imm : BitVec 13) (s : State) : Result :=
  let x := s.party.reg a
  let i := immOf imm
  writeReg s d (x &&& i)

/-- ORI (R90). -/
def execOri (_k : Bool) (d a : Reg) (imm : BitVec 13) (s : State) : Result :=
  let x := s.party.reg a
  let i := immOf imm
  writeReg s d (x ||| i)

/-- XORI (R90). -/
def execXori (_k : Bool) (d a : Reg) (imm : BitVec 13) (s : State) : Result :=
  let x := s.party.reg a
  let i := immOf imm
  writeReg s d (x ^^^ i)

/-- SLTI (R90). -/
def execSlti (_k : Bool) (d a : Reg) (imm : BitVec 13) (s : State) : Result :=
  let x := s.party.reg a
  let i := immOf imm
  writeReg s d (if x.slt i then 1 else 0)

/-- SLTNI (R90). -/
def execSltni (_k : Bool) (d a : Reg) (imm : BitVec 13) (s : State) : Result :=
  let x := s.party.reg a
  let i := immOf imm
  writeReg s d (if x < i then 1 else 0)

/-- MULI (R90). -/
def execMuli (_k : Bool) (d a : Reg) (imm : BitVec 13) (s : State) : Result :=
  let x := s.party.reg a
  let i := immOf imm
  writeReg s d (x * i)

/-- SHLI (R90). -/
def execShli (_k : Bool) (d a : Reg) (c : BitVec 6) (s : State) : Result := writeReg s d (s.party.reg a <<< c.toNat)

/-- SHRI (R90). -/
def execShri (_k : Bool) (d a : Reg) (c : BitVec 6) (s : State) : Result := writeReg s d (s.party.reg a >>> c.toNat)

/-- SRAI (R90). -/
def execSrai (_k : Bool) (d a : Reg) (c : BitVec 6) (s : State) : Result := writeReg s d ((s.party.reg a).sshiftRight c.toNat)

/-- LUI: the immediate, sign-extended, 13 bits up (R49, R91). -/
def execLui (_k : Bool) (d : Reg) (imm : BitVec 19) (s : State) : Result :=
  writeReg s d (imm.signExtend 64 <<< (13 : Nat))

/-- LPC: the address of the LPC and four times the immediate (R49, R91). -/
def execLpc (_k : Bool) (d : Reg) (imm : BitVec 19) (s : State) : Result :=
  writeReg s d (s.party.pc + (imm.signExtend 64 <<< (2 : Nat)))

/-- LCAT: sd is read before it is written (R49, R91). -/
def execLcat (_k : Bool) (d : Reg) (imm : BitVec 19) (s : State) : Result :=
  writeReg s d ((s.party.reg d <<< (19 : Nat)) ||| imm.setWidth 64)

end Sys2Proof.Machine
end

