-- ==== Sys2Proof/Machine/Width.lean ====
section
/-!
DEFINITION. SPLIT and WIDTH, and the state of parties across SPLIT and FUSE (R35, R104 to R109, R261).
-/
namespace Sys2Proof.Machine

/-- `n` lanes of a mask from lane `at_` up, renumbered from 0 (R35). -/
def cutMask (m : Mask) (at_ n : Nat) : Mask := (m >>> at_) &&& BitVec.ofNat 1024 (2 ^ n - 1)

/-- One half of a party: the lanes `[first + at_, first + at_ + n)` (R35). -/
def Party.half (p : Party) (at_ n : Nat) : Party :=
  { p.certain with
      first := p.first + at_
      width := n
      p := p.p.map fun m => cutMask m at_ n
      ls := cutMask p.ls at_ n
      tokens := p.tokens.map fun t => { t with image := cutMask t.image at_ n }
      regs := p.regs.filter fun e => decide (p.first + at_ ≤ e.1 / 1024) && decide (e.1 / 1024 < p.first + at_ + n) }

/-- Everything accepted for a party counts for both halves: fences, TWAIT and batches (R35, R261, R305). -/
def State.shareWork (s : State) (old new : Nat) : State :=
  let both (l : List Nat) : List Nat := if l.contains old then l ++ [new] else l
  { s with
      commands := s.commands.map fun c => { c with owners := both c.owners }
      tasks := s.tasks.map fun t => { t with owners := both t.owners, members := both t.members }
      collectives := s.collectives.map fun c => { c with owners := both c.owners } }

/-- The lowest free slot of a quad. -/
def State.freeSlot (s : State) (core quad : Nat) : Option Nat :=
  (upTo 0 Config.slotsPerQuad).find? fun i =>
    !s.parties.any fun p => p.present && p.core == core && p.quad == quad && p.slot == i

/-- A spilled token of a stack written to the spill block of its party. -/
def State.writeToken (s : State) (l : Launch) (p : Party) (slot : Nat) : Except Deny State :=
  match p.tokens[p.tokens.length - 1 - slot]? with
  | some t => s.arenaWrite l.space (l.header.tokensAt p.group p.first + 144 * slot) t.bytes
  | none => pure s

/-- The spilled tokens of the stack copied to the upper half's spill block, each read in the block of the party before the SPLIT,
which began where the lower half does (R104 step 5). -/
def State.copyTokens (s : State) (l : Launch) (up : Party) : Except Deny State :=
  (upTo 0 up.spilled).foldlM (fun s slot => do
    let _ ← s.arenaRead l.space (l.header.tokensAt up.group (up.first - up.width) + 144 * slot) 144
    s.writeToken l up slot) s

/-- A party whose spilled tokens are as its spill block gives them: each word the spilled one or what was stored over it (R32). -/
def State.rereadTokens (s : State) (l : Launch) (p : Party) : Party :=
  let depth := p.tokens.length
  { p with tokens := p.tokens.zipIdx.map fun e =>
      let slot := depth - 1 - e.2
      if p.spilled ≤ slot then e.1
      else match s.arenaRead l.space (l.header.tokensAt p.group p.first + 144 * slot) 144 with
        | .ok bs => s.filledToken p slot e.1 bs
        | .error _ => e.1 }

/-- A copy of the party in focus meets a fault, reported against an instruction that it follows or comes before; it is made
again after a repair or a retry (R104, R108, R151). -/
def State.failCopy (s : State) (c : Copying) (d : Deny) : State :=
  { s with party := { s.party with copying := some c } }.takeTrap
    { (Trap.scalar d.cause c.pc s.party.pc).denied d 0 with src := 3 }

/-- SPLIT divides the party in focus; the upper half takes the slot (R104). -/
def State.divide (s : State) (d : Reg) (slot : Nat) : State :=
  let p := s.party
  let n := p.width / 2
  let t := s.finish ((p.setSt stOk).setReg d 0)
  let q := t.party
  let up := { (s.rereadTokens (s.home p) q).half n n with pid := s.ids, slot := slot }
  let t := ({ t with party := q.half 0 n, others := t.others ++ [up], ids := s.ids + 1 }.shareWork p.pid up.pid).endFuses p stFuseWidth
  let t := t.splitCopies p.pid up.pid
  match t.copyTokens (t.home p) up with
  | .ok t => t
  | .error d => ((t.focus up.pid).failCopy { pc := q.pc, join := none } d).focus p.pid

/-- SPLIT (R104, R105). -/
def execSplit (_k : Bool) (d : Reg) (s : State) : Result :=
  doubleInHandler s <|
    let p := s.party
    if !p.drained then hold s
    else
      match if p.width = 32 then none else s.freeSlot p.core p.quad with
      | none => .next (s.finish ((p.certain.setSt stSplitRoom).setReg d stSplitRoom))
      | some slot => .next (s.divide d slot)

/-- WIDTH (R109). -/
def execWidth (_k : Bool) (d : Reg) (s : State) : Result := writeReg s d (BitVec.ofNat 64 s.party.width)

/-! ### FUSE's effect (R35, R108) -/

/-- A mask of the joined party. -/
def joinMask (lo hi : Mask) (n : Nat) : Mask := (lo &&& BitVec.ofNat 1024 (2 ^ n - 1)) ||| (hi <<< n)

/-- Positions from `m` up that still read zero are listed as zeros. -/
def Party.listFresh (p : Party) (m : Nat) : Party :=
  if p.fresh ≤ m then p
  else
    let zeros := p.positions.flatMap fun q => (upTo m (p.fresh - m)).map fun i => (regKey q i, (0 : BitVec 32))
    { p with regs := mergeEntries (p.regs.length + zeros.length) p.regs zeros, fresh := m }

/-- The joined party before its registers are matched to the lower resident base. -/
def Party.join (lo hi : Party) : Party :=
  let n := lo.width
  let m := Nat.min lo.fresh hi.fresh
  let lo := lo.listFresh m
  let hi := hi.listFresh m
  { lo.certain with
      width := 2 * n
      p := Vector.ofFn fun i : Fin 8 => joinMask lo.p[i] hi.p[i] n
      ls := joinMask lo.ls hi.ls n
      tokens := lo.tokens.map fun t => { t with image := joinMask t.image hi.p[0] n }
      regs := mergeEntries (lo.regs.length + hi.regs.length) lo.regs hi.regs
      regTag := Nat.max lo.regTag hi.regTag + 1
      pt := Nat.max lo.pt hi.pt }

/-- The positions of some lanes at and above `top` without content. -/
def Party.dropAbove (p : Party) (lanes : List Nat) (top : Nat) : Party :=
  let p := p.listFresh top
  { p with regs := p.regs.filter fun e => e.1 % 1024 < top || !lanes.contains (e.1 / 1024) }

/-- The upper lanes' registers matched to the lower party's resident base: spilled below it, filled above (R108); their
positions at and above its end have no content from now on, as after a slide (R31; log 65). -/
def State.matchLo (s : State) (l : Launch) (p : Party) (lanes : List Nat) (lo : Nat) : Except Deny (State × Party) :=
  if lo < p.lo then do
    let s ← (upTo 0 ((p.lo - lo) / 8)).foldlM (fun s i => s.spillEight l p lanes (lo + 8 * i)) s
    pure (s, p)
  else do
    let q ← s.fill l p lanes p.lo (lo - p.lo)
    pure (s, if p.lo < lo then q.dropAbove lanes (p.lo + l.header.depth8) else q)

/-- The spilled tokens written again, with the images of the joined party.  That they are rewritten in memory, and that a denied
write of them is reported as a fault of the registers' spill is, is the model's choice (R108; log 26). -/
def State.rewriteTokens (s : State) (l : Launch) (p : Party) : Except Deny State :=
  (upTo 0 p.spilled).foldlM (fun s slot => s.writeToken l p slot) s

/-- The copies of a fuse in the joined party, whose upper lanes start at `first` with resident base `lo`. -/
def State.matchJoined (s : State) (l : Launch) (first lo : Nat) : Except Deny State := do
  let (t, x) ← s.matchLo l s.party (upTo first (s.party.width / 2)) lo
  { t with party := x }.rewriteTokens l x

/-- A copy that is still to be made, before the next instruction of the party in focus (R104, R108, R151). -/
def State.finishCopy (s : State) (c : Copying) : State :=
  let l := s.home s.party
  match (match c.join with
    | none => s.copyTokens l s.party
    | some (first, lo) => s.matchJoined l first lo) with
  | .ok t => { t with party := { t.party with copying := none } }
  | .error d => s.failCopy c d

/-- Work of the upper party is covered by the fences of the joined one (R35, R305); its batches are not (R261).  A replay turn
of the upper one is that of the joined party, which has the lower one's place (R352). -/
def State.adoptWork (s : State) (lo hi : Nat) : State :=
  let both (l : List Nat) : List Nat := if l.contains hi && !l.contains lo then l ++ [lo] else l
  { s with
      commands := s.commands.map fun c => { c with owners := both c.owners }
      tasks := s.tasks.map fun t => { t with owners := both t.owners }
      collectives := s.collectives.map fun c => { c with owners := both c.owners }
      launches := s.launches.map fun l => { l with turn := if l.turn = hi then lo else l.turn } }

end Sys2Proof.Machine
end

