-- ==== Sys2Proof/Machine/Waits.lean ====
section
/-!
DEFINITION. Waiting: what a wait tests, how it ends, expires and is withdrawn (R37, R41, R96, R106 to R108, R161, R203,
R207, R209, R211, R216, R222, R263).
-/
namespace Sys2Proof.Machine

/-! ### Conditions -/

/-- What one test of a wait comes to: it ends with a status, it goes on, its own access raises a cause, or it goes on in a
changed state. -/
inductive Attempt where
  | ended (s : State) (st : Word)
  | waiting
  | trapped (d : Deny) (addr : Word)
  | held (s : State)

/-- A set field names a flag of a set. -/
def setsIn (flags : BitVec 12) (set : BitVec 4) : Bool := match setFlag set with | some n => flags.getLsbD n | none => false

/-- WAITF's setters that are incomplete: enqueued before the wait, with a set-flag in `flags`, and not yet discarded, though
they may be ILLEGAL.  Of an instruction whose fetch is denied now no set-flag is known, so it counts (R66, R96; log 66). -/
def State.settersBusy (s : State) (p : Party) (flags : BitVec 12) (order : Nat) : Bool :=
  ((s.unissued p).any fun q => decide (q.1.order ≤ order) && match q.2 with
    | .unread => true
    | .illegal w => setsIn flags (w.extractLsb' 20 4)
    | .instr _ f => setsIn flags f.set) ||
    p.inflight.any fun i => decide (i.order ≤ order) && setsIn flags i.f.set

/-- A lane instruction that accesses memory (R140). -/
def laneAccesses (op : LaneOp) (f : LaneF) : Bool :=
  match op with
  | .ld | .st | .atom | .ared | .acas => true
  | .mma | .mmas => f.imm.getLsbD 3 || f.imm.getLsbD 4
  | _ => false

/-- A fence path is drained for a party: 0 ordinary, 1 copy, 2 gather, 3 tile, 4 collective, 5 host (R211). -/
def State.pathDrained (s : State) (p : Party) (order seq path : Nat) : Bool :=
  match path with
  | 0 => !((s.unissued p).any fun q => decide (q.1.order ≤ order) && match q.2 with
        | .unread => true
        | .illegal _ => false
        | .instr op f => laneAccesses op f) &&
      !(p.inflight.any fun i => decide (i.order ≤ order))
  | 1 => !(s.commands.any fun c => c.owners.contains p.pid && decide (c.id < seq) && c.kind == 0)
  | 2 => !(s.commands.any fun c => c.owners.contains p.pid && decide (c.id < seq) && (c.kind == 1 || c.kind == 2))
  | 3 => !(s.tasks.any fun t => t.owners.contains p.pid && decide (t.id < seq))
  | 4 => !(s.collectives.any fun c => c.owners.contains p.pid && decide (c.id < seq))
  | _ => true

/-- The paths that a fence covers. -/
def fencePaths (w : Wait) : List Nat :=
  match w.instr with
  | .fence _ _ m _ => (upTo 0 6).filter fun i => m.getLsbD i
  | .xfence _ _ ca _ _ => [ca.toNat]
  | _ => upTo 0 6

/-- The batch's status is known: every task of it that the party counts and that was accepted before has retired (R263). -/
def State.batchBusy (s : State) (p : Party) (n seq : Nat) : Bool :=
  s.tasks.any fun t => t.members.contains p.pid && t.batch == n && decide (t.id < seq)

/-- The status of a batch; 256 batches or more ago, OK (R261, R263). -/
def Party.batchStatus (p : Party) (n : Nat) : Word :=
  if 256 ≤ (p.openBatch.toNat + 2 ^ 16 - n) % 2 ^ 16 then 0 else (Table.get 0 p.batches (n % 256)).setWidth 64

/-- The status of a batch as the part acts on it: of a party that is away, the words of its record (R290, R296). -/
def State.batchState (s : State) (p : Party) (n : Nat) : Word :=
  let l := s.home p
  if !p.evicted then p.batchStatus n
  else match s.arenaRead l.space (l.header.partyRecordAt p.group p.first + 0x800) 1032 with
    | .ok bs =>
      let status : BitVec 32 := BitVec.ofNat 32 (ofBytes ((bs.drop (8 + 4 * (n % 256))).take 4))
      { p with openBatch := BitVec.ofNat 16 (ofBytes (bs.take 2)), batches := [(n % 256, status)] }.batchStatus n
    | .error _ => p.batchStatus n

/-! ### Acceptance (R216, R241, R370) -/

/-- An undecided request of another resident party on the same queue that came first; one that is away is made anew at its
return (R299). -/
def State.behind (s : State) (p : Party) (w : Wait) (same : Party → Work → Bool) : Bool :=
  s.parties.any fun q => q.pid != p.pid && !q.evicted && match q.wait with
    | some v => v.kind == .accept && v.decided.isNone && decide (v.seq < w.seq) && same q v.work
    | none => false

/-- The request of a wait is granted, if it is the oldest and there is room. -/
def State.grant (s : State) (p : Party) (w : Wait) : Option State :=
  match w.work with
  | .none => none
  | .commands l =>
    if s.behind p w fun q v => q.core == p.core && match v with | .commands _ => true | _ => false then none
    else s.acceptCommands p l
  | .task t =>
    let isTask (v : Work) : Bool := match v with | .task _ => true | _ => false
    -- a request of another core that waits for the table alone comes first where this one needs room there too
    let tableFirst (q : Party) (v : Work) : Bool := match v with
      | .task u => q.core != p.core && clusterOfCore q.core == clusterOfCore p.core && s.galleryRoom q.core && !s.tableRoom u &&
          !((s.handlesOf t).all fun h => (s.heldHandles (clusterOfCore p.core)).contains h)
      | _ => false
    if s.behind p w (fun q v => (q.core == p.core && isTask v) || tableFirst q v) then none else s.acceptTask p t
  | .collective c =>
    if s.behind p w fun q v => match v with | .collective _ => dieOf q.core == dieOf p.core | _ => false then none
    else s.acceptCollective p c

/-! ### CPYW and LAUNCH (R222, R348) -/

/-- LAUNCH's ring takes 256-byte slots. -/
def Wait.isLaunch (w : Wait) : Bool := match w.instr with | .launch .. => true | _ => false
/-- CPYW's direction: it takes. -/
def Wait.takes (w : Wait) : Bool := !w.isLaunch && w.w1.getLsbD 0

/-- CPYW's copy as a command of the copy path: it is numbered when its instruction ends (R304, R308). -/
def State.ringAgent (s : State) : Agent :=
  { path := 1, unit := s.party.core, cmd := s.ids, pid := s.party.pid, owners := [s.party.pid], time := s.party.pt
    replay := (s.home s.party).header.replay }

/-- The next `n` bytes copied between a claimed slot and the buffer, at whatever alignment the buffer lies; poison goes with the
bytes (R220, R222; logs 32 and 73). -/
def State.ringCopy (s : State) (ac : Accessor) (w : Wait) (r : RingSlot) (n : Nat) : Except (Deny × Word) State := do
  let from_ := BitVec.ofNat 64 r.moved
  let sp ← s.engineRead ac s.ringAgent ((if w.takes then r.at_ + 16 else w.w2) + from_) n 8
  let x ← s.engineWrite ac s.ringAgent ((if w.takes then w.w2 else r.at_ + 16) + from_) sp
  pure (x.s.atTime x.time)

/-- The wait of the party in focus replaced. -/
def State.setWait (s : State) (w : Option Wait) : State := { s with party := { s.party with wait := w } }

/-- A claimed slot: the payload, once the party's earlier copies are complete (R212), and then the sequence word.  A fault of
either is offered (R220). -/
def State.fillSlot (s : State) (ac : Accessor) (w : Wait) (r : RingSlot) : Attempt :=
  let keep (t : State) (done : Bool) : State := t.setWait (some { w with claim := some { r with copied := done } })
  let offered (t : State) (done : Bool) (e : Deny × Word) : Attempt :=
    if t.party.offer.isSome then .held (keep t done) else .held ((keep t done).offerTrap (w.trap s.party.pc e.1 e.2))
  let publish (t : State) : Attempt := match t.signalWord ac t.ringAgent r.at_ r.seq.toNat with
    | .ok x => .ended (x.1.atTime x.2) stOk
    | .error d => offered t true (d, r.at_)
  if r.copied then publish s
  else if s.commands.any fun c => c.pid == s.party.pid && c.kind == 0 then .held (keep s false)
  else match s.ringCopy ac w r (r.size - r.moved) with
    | .ok t => publish t
    | .error e => offered s false e

/-- At most `n` of the 8-byte units of the payload of a claimed slot copied, between which other agents act (R301). -/
def State.fillSome (s : State) (ac : Accessor) (w : Wait) (r : RingSlot) (n : Nat) : State :=
  let k := Nat.min (8 * n) (r.size - r.moved)
  if r.copied || s.party.offer.isSome || s.commands.any (fun c => c.pid == s.party.pid && c.kind == 0) then s
  else match s.ringCopy ac w r k with
    | .ok t => t.setWait (some { w with claim := some { r with moved := r.moved + k } })
    | .error e => s.offerTrap (w.trap s.party.pc e.1 e.2)

/-- The words of a ring header, read by the party in focus. -/
def State.observeRing (s : State) (ac : Accessor) (hdr : Word) : State :=
  (upTo 0 5).foldl (fun s i => s.observe ac (hdr + BitVec.ofNat 64 (8 * i)) 8) s

/-- The claim of CPYW or LAUNCH, and what `fill` makes of the claimed slot. -/
def State.claimRing (s : State) (w : Wait) (fill : State → Accessor → Wait → RingSlot → Attempt) : Attempt :=
  let ac := accessorOf (s.home s.party) s.party
  let core := s.party.core
  let hdr := w.w1 &&& ~~~1
  match s.ring ac hdr with
  | .error e => .trapped e.1 e.2
  | .ok r =>
    let s := s.observeRing ac hdr
    if !r.ok || (w.isLaunch && r.z != 256) then .ended s stMalformed
    else match if w.takes then s.claimTake s.party.agent core ac hdr r else s.claimPut s.party.agent core ac hdr r with
      | .error e => .trapped e.1 e.2
      | .ok .full => .waiting
      | .ok (.slot t time slot seq) => fill (t.atTime time) ac w { at_ := slot, seq := seq, size := r.z, copied := false }

/-- One attempt of CPYW or LAUNCH: the claim, and then the copy, for which the header is not read again. -/
def State.tryRing (s : State) (w : Wait) : Attempt :=
  match w.claim with
  | some r => s.fillSlot (accessorOf (s.home s.party) s.party) w r
  | none => s.claimRing w State.fillSlot

/-- What the last look of CPYW or LAUNCH at its ring read (R318). -/
def State.lookedAt (s : State) (w : Wait) : State :=
  let ac := accessorOf (s.home s.party) s.party
  let hdr := w.w1 &&& ~~~1
  match w.kind, s.ring ac hdr with
  | .cpyw, .ok r => (s.observeRing ac hdr).observe ac (r.slotAt (if w.takes then r.q else r.e)) 8
  | _, _ => s

/-! ### SEMACQ and WADDR (R207, R209) -/

/-- One test-and-subtract. -/
def State.tryAcquire (s : State) (w : Wait) : Attempt :=
  match s.semaphore s.party w with
  | .error d => .trapped d w.w1
  | .ok none => .waiting
  | .ok (some (p, old)) => .ended ((s.partyRead p 8).partyStore p (toBytes 8 (old - w.w2.toNat))) stOk

/-- One look at the watched word; the first one after a restore is that of R299. -/
def State.tryWatch (s : State) (ac : Accessor) (w : Wait) : Attempt :=
  if w.met then .ended s stOk
  else match s.access ac w.w1 8 8 .read with
    | .error d => .trapped d w.w1
    | .ok p =>
      if s.unreachable p || BitVec.ofNat 64 (s.valueAt p 8) = w.w2 then
        (if w.restored then .held (s.setWait (some { w with restored := false })) else .waiting)
      else .ended (s.partyRead p 8) (if w.restored then stChanged else stOk)

/-- Lane writers of masks that the flags of a WAITF that ends OK make certain (R34). -/
def Party.sureOf (p : Party) (flags : BitVec 12) (order : Nat) : Party :=
  { p with looseMasks := certify (fun e => (e.flag.any fun n => flags.getLsbD n) && decide (e.order ≤ order)) p.looseMasks }

/-- XFENCE's effect once path `ca` is drained (R311). -/
def State.crossed (s : State) (w : Wait) : State :=
  match w.instr with
  | .xfence _ _ ca _ cb => s.crossBar s.party ca.toNat cb.toNat
  | _ => s

/-- One test of a wait of the party in focus. -/
def State.attempt (s : State) (w : Wait) : Attempt :=
  let p := s.party
  let l := s.home p
  let ac := accessorOf l p
  let when_ (c : Bool) (t : State) : Attempt := if c then .ended t stOk else .waiting
  let drained (path : Nat) : Bool := s.pathDrained p w.order w.seq path
  match w.kind with
  | .waitf =>
    let flags : BitVec 12 := match w.instr with | .waitf _ _ f _ => f | _ => 0
    when_ (!s.settersBusy p flags w.order) { s with party := p.sureOf flags w.order }
  | .barrier => when_ (!s.barrierLost l p.group (barLevel w.w1) (barIndex w.w1) &&
      (s.barrier l p.group (barLevel w.w1) (barIndex w.w1)).phase.setWidth 64 != w.w2) s
  | .semacq => s.tryAcquire w
  | .waddr => s.tryWatch ac w
  | .fence => when_ ((fencePaths w).all drained) s
  | .sysfence | .sysfenceArray => when_ ((fencePaths w).all drained) (s.hostBar p)
  | .xfence => when_ ((fencePaths w).all drained) (s.crossed w)
  | .fuse => .waiting
  | .twait =>
    let n := w.w1.toNat % 2 ^ 16
    if s.batchBusy p n w.seq then .waiting else .ended s (s.batchState p n)
  | .accept => match s.grant p w with
    | some t => .ended t stOk
    | none => .waiting
  | .cpyw => s.tryRing w

/-! ### Ends -/

/-- The code of a wait that its deadline ends (R40, R41). -/
def State.expiryCode (s : State) (p : Party) (w : Wait) : Word :=
  match w.kind with
  | .fence | .xfence | .sysfence | .sysfenceArray =>
    (fencePaths w).foldl (fun st i =>
      if s.pathDrained p w.order w.seq i then st ||| ((1 : Word) <<< (8 + i)) else st) stPartial
  | .fuse => stFuseTime ||| w.deadline.detail
  | .accept => stFull ||| w.deadline.detail
  | .cpyw => (if w.takes then stEmpty else stFull) ||| w.deadline.detail
  | _ => stTimeout ||| w.deadline.detail

/-- A code that only an expiry gives. -/
def isExpiry (st : Word) : Bool :=
  let c := codeOf st
  c == stTimeout || c == stPartial || c == stFull || c == stEmpty || c == stFuseTime

/-- What an expiry or a withdrawal takes back: a barrier arrival (R203, R204). -/
def State.takeBack (s : State) (p : Party) (w : Wait) : State :=
  match w.kind with
  | .barrier => s.barrWithdraw (s.home p) p w.w1
  | _ => s

/-- Whether the end of a wait comes after signals that it does not read: a phase, the retirement of tasks, the paths that a
fence found drained (R308, R309). -/
def Wait.joins (w : Wait) (st : Word) : Bool :=
  match w.kind with
  | .barrier | .twait => codeOf st != stTimeout
  | .fence | .xfence | .sysfence | .sysfenceArray => st != stPartial
  | _ => false

/-- The party in focus comes after every arrival and signal so far (log 67). -/
def State.catchUp (s : State) : State := s.atTime (Nat.max s.party.pt s.synced)

/-- The wait of the party in focus ends with a status. -/
def State.endWith (s : State) (w : Wait) (st : Word) : State :=
  (if w.joins st then s.catchUp else s).endWait w.dest w.deadline st (isExpiry st)

/-- The deadline of the wait of the party in focus ends it; an XFENCE that ends PARTIAL with its path drained has its effect
(R311). -/
def State.expire (s : State) (w : Wait) : State :=
  let st := s.expiryCode s.party w
  let s := if w.kind = .xfence ∧ st ≠ stPartial then s.crossed w else s
  ((s.takeBack s.party w).lookedAt w).endWith w st

/-- The wait of an instruction of the party in focus, its effective deadline fixed now (R37). -/
def State.newWait (s : State) (kind : WaitKind) (instr : Instr) (dest : Reg) (dl : BitVec 2) (w1 w2 : Word) : Wait :=
  { kind := kind, instr := instr, dest := dest,
    deadline := deadlineOf s (s.home s.party) s.party (s.party.deadlineReg dl) dl
    w1 := w1, w2 := w2, order := s.party.lruns, seq := s.ids, met := false, decided := none, work := .none, claim := none }

/-- A wait at a barrier stands to the end of the tick of its issue at least, so that a phase that completes in the tick of its
deadline wins: a poll tests its condition once, for that tick (R37, R203). -/
def Wait.standing (w : Wait) (s : State) : Wait :=
  { w with deadline := { w.deadline with ticks := Nat.max w.deadline.ticks (baseCounter s s.party w.deadline.party) } }

/-- A wait issues: it ends at once, is a poll that tested once, or begins.  A FUSE that polls is withdrawn at once, whoever arrives
later in the same tick, which is the model's choice (R107; log 55). -/
def State.startWait (s : State) (w : Wait) : Result :=
  match s.attempt w with
  | .ended t st => .next (t.endWith w st)
  | .trapped d a => raiseWait (s.takeBack s.party w) w d a
  | .held t => .next { t with ids := t.ids + 1 }
  | .waiting =>
    if w.kind = .barrier then .next { s.setWait (some (w.standing s)) with ids := s.ids + 1 }
    else if w.deadline.poll then .next (s.expire w)
    else .next { s.setWait (some w) with ids := s.ids + 1 }

/-- A waiting instruction: DOUBLE in handler mode (R155), and a hold while a queued lane instruction reads its
destination (R34). -/
def waiting (s : State) (d : Reg) (r : Result) : Result :=
  doubleInHandler s (if s.holdsReg s.party d then hold s else r)

/-- The instruction ends at once with OK and is no poll (R96, R203, R263). -/
def State.endAtOnce (s : State) (w : Wait) : Result :=
  .next (s.endWith { w with deadline := { w.deadline with poll := false } } stOk)

/-- Withdrawal by a trap or a repair (R161): a wait whose condition is met now ends; else what it did is taken back and it
will be executed again.  A claimed ring slot is not given back. -/
def State.withdraw (s : State) (arrived : Bool) : State :=
  match s.party.wait with
  | none => s
  | some w =>
    if w.claim.isSome then s
    else match w.decided with
      | some st => s.endWith w st
      | none => match s.attempt w with
        | .ended t st => t.endWith w st
        | .held t => t
        | _ => (if arrived then s.takeBack s.party w else s).setWait none

/-- Whether the waiting instruction made the arrival it waits for: BSYNC (R161). -/
def Wait.arrives (w : Wait) : Bool := match w.instr with | .bsync .. => true | _ => false

/-! ### Fuse (R106 to R108) -/

/-- The end of a standing arrival of another party. -/
def State.decideWait (s : State) (q : Party) (st : Word) : State :=
  s.putParty { q with wait := q.wait.map fun w => { w with decided := some st } }

/-- Two parties of equal width fuse; the party in focus is one of them (R35, R108). -/
def State.fuse (s : State) (w : Wait) (q : Party) : State :=
  let p := s.party
  let lo := if p.first < q.first then p else q
  let hi := if p.first < q.first then q else p
  let lw := if p.first < q.first then w else q.wait.getD w
  let joined := lo.join hi
  let s : State := { s with party := joined, others := s.others.filter fun x => x.pid != lo.pid && x.pid != hi.pid }
  let s := ((s.adoptWork lo.pid hi.pid).fuseCopies lo.pid hi.pid).endWith lw stOk
  -- a fault is reported against the FUSE, which has taken effect: a retry goes on after it (R108; log 26)
  match s.matchJoined (s.home s.party) hi.first hi.lo with
  | .ok t => t
  | .error d => s.failCopy { pc := lo.pc, join := some (hi.first, hi.lo) } d

/-- A FUSE arrives (R106). -/
def State.arriveFuse (s : State) (w : Wait) : Result :=
  let p := s.party
  let l := s.home p
  let na := p.neighbour
  let covers (x : Party) : Bool :=
    x.pid != p.pid && x.launch == p.launch && x.group == p.group && x.live && rangesMeet x.first x.width na p.width
  let near := s.parties.filter covers
  let fail (st : Word) : Result := .next (s.endWith w st)
  if l.header.lanes < na + p.width then fail stFuseAlign
  else if p.width = 1024 ∨ near.any (fun x => decide (x.width < p.width)) then fail stFuseWidth
  else match near with
    | [] => fail stFuseGone
    | q :: _ =>
      if q.evicted then fail stFuseAway
      else match q.wait with
        | some v =>
          if v.kind ≠ .fuse ∨ v.decided.isSome then s.startWait w
          else if v.w1 ≠ w.w1 then .next ((s.decideWait q stFuseSite).endWith w stFuseSite)
          else if q.b ≠ p.b then .next ((s.decideWait q stFuseWindow).endWith w stFuseWindow)
          else .next (s.fuse w q)
        | none => s.startWait w

end Sys2Proof.Machine
end

