-- ==== Sys2Proof/Machine/PartyEvents.lean ====
section
/-!
DEFINITION. The events of a party: a lane memory instruction completes, a pending trap is taken, a wait ends, an access
reaches its bound (R37, R148, R152, R160, R161, R194, R216, R241, R328).
-/
namespace Sys2Proof.Machine

/-- What a party does while in focus; the focus then returns.  Without such a party nothing happens. -/
def onParty (s : State) (pid : Nat) (g : State → State) : Result :=
  if (s.party? pid).isSome then .next ((g (s.focus pid)).focus s.party.pid) else .next s

/-- The party runs, is resident, and is not stopped (R156, R160, R298). -/
def Party.ready (p : Party) : Bool := p.live && !p.evicted && !p.stopped

/-! ### LANE_MEMORY_COMPLETION and ACCESS_BOUND_EXPIRY -/

/-- The oldest instruction in flight whose lanes have all ended. -/
def Party.completable (p : Party) : Option InFlight :=
  match p.inflight with
  | i :: _ => if i.remotes.isEmpty then some i else none
  | [] => none

/-- LANE_MEMORY_COMPLETION (R42, R182, R194). -/
def execLaneMemoryCompletion (pid : Nat) (s : State) : Result :=
  onParty s pid fun s =>
    match s.party.completable with
    | some i => { s with party := (s.completeMemory { s.party with inflight := s.party.inflight.drop 1 } i).pruneRecent }
    | none => s

/-- The ticks within which another part answers an access (R328). -/
def accessBound : Nat := 2 ^ 24

/-- The access bound of an instruction with outstanding lanes is reached (R328). -/
def State.boundReached (s : State) (i : InFlight) : Bool :=
  !i.remotes.isEmpty && decide (accessBound ≤ (s.lantern - BitVec.ofNat 64 i.issuedAt).toNat)

/-- The deadline of an instruction has passed, and it fell before the bound of its accesses (R183, R328). -/
def State.deadlineFirst (s : State) (p : Party) (i : InFlight) : Bool :=
  let elapsed := (s.lantern - BitVec.ofNat 64 i.issuedAt).toNat
  i.deadline.passed s p && decide (elapsed < accessBound + (baseCounter s p i.deadline.party - i.deadline.ticks))

/-- Outstanding lanes whose bound is reached end with cause POISON (R328). -/
def State.endAtBound (s : State) : State :=
  match s.party.inflight.find? s.boundReached with
  | some i => { s with party := s.party.resolveRemotes i true }
  | none => s

/-- ACCESS_BOUND_EXPIRY (R328). -/
def execAccessBoundExpiry (pid : Nat) (s : State) : Result := onParty s pid State.endAtBound

/-! ### TRAP_DELIVERY -/

/-- An offer concerns the pending lane cause. -/
def Offer.ofLane (o : Offer) : Bool := o.trap.lane && !o.trap.ofRecord && o.trap.cause != .stuck

/-- A cause waits to be taken or delivered at the boundary of the scalar stream (R148, R160). -/
def Party.due (p : Party) : Bool :=
  p.ready && !p.hmode && p.offer.isNone && (p.raised.isSome || !p.stucks.isEmpty || p.pendingLane.isSome)

/-- The wait in progress is withdrawn, with the arrival that it made itself. -/
def State.withdrawWait (s : State) : State :=
  s.withdraw (match s.party.wait with | some w => w.arrives || w.kind == .fuse | none => false)

/-- A lane cause is delivered once every lane instruction that has issued is complete and the wait in progress is withdrawn
(R152, R161); a STUCK of that wait comes first, and the lane cause stays to be delivered after it, as it was answered (R148,
R151). -/
def State.deliverLane (s : State) (t : Trap) (sdec : Bool) : State :=
  if s.party.laneBusy then { s with party := { s.party with raised := some (t, sdec) } }
  else
    let s := s.withdrawWait
    if s.party.wait.isSome || !s.party.ready then { s with party := { s.party with raised := some (t, sdec) } }
    else match s.party.stucks with
      | _ :: _ => { s with party := { s.party with raised := some (t, sdec) } }
      | [] => s.deliver t sdec

/-- The next STUCK of the party in focus is taken, once its wait is withdrawn. -/
def State.takeStuck (s : State) (t : Trap) : State :=
  let s := s.withdrawWait
  if s.party.wait.isSome || !s.party.ready then s
  else { s with party := { s.party with stucks := s.party.stucks.drop 1 } }.stick t

/-- The due cause is taken.  A wait in progress is withdrawn first (R161), but for a lane cause that is offered: its wait goes
on until the answer (R151). -/
def State.takeDue (s : State) : State :=
  let p := s.party
  if !p.due then s
  else match p.raised, p.stucks, p.pendingLane with
    | some (t, sdec), [], _ => if t.lane then s.deliverLane t sdec else s.deliver t sdec
    | some (t, sdec), u :: _, _ => if t.lane && !p.laneBusy then s.takeStuck u else s.deliver t sdec
    | none, t :: _, _ => s.takeStuck t
    | none, [], some t => if t.cause = .permission ∨ t.cause = .translation then s.offerTrap t else s.deliverLane t false
    | none, [], none => s

/-- TRAP_DELIVERY (R148, R152). -/
def execTrapDelivery (pid : Nat) (s : State) : Result := onParty s pid State.takeDue

/-! ### The end of a wait -/

/-- A wait in progress is tested, and ends where its condition is met; an evicted party's end is kept until it resumes.  Where
its own access raises a cause it is withdrawn, and executed again after it (R161). -/
def State.testWait (s : State) : State :=
  match s.party.wait with
  | none => s
  | some w =>
    if w.decided.isSome then s
    else match s.attempt w with
      | .ended t st => if t.party.evicted then t.setWait (some { w with decided := some st }) else t.endWith w st
      | .held t => t
      | .waiting => s
      | .trapped d a => if s.party.evicted then s
        else ((s.setWait none).sawPoison (accessorOf (s.home s.party) s.party) d a).takeTrap (w.trap s.party.pc d a)

/-- WAIT_CONDITION_MET (R37): a wait whose deadline's tick has not passed is tested. -/
def execWaitConditionMet (pid : Nat) (s : State) : Result :=
  onParty s pid fun s =>
    match s.party.wait with
    | none => s
    | some w =>
      if !s.party.ready then s
      else match w.decided with
        | some st => if isExpiry st then s else s.endWith w st
        | none => if w.claim.isNone && w.deadline.passed s s.party then s else s.testWait

/-- DEADLINE_EXPIRY (R37, R38): the tick of the deadline has passed, or the expiry was decided while the party was away. -/
def execDeadlineExpiry (pid : Nat) (s : State) : Result :=
  onParty s pid fun s =>
    match s.party.wait with
    | none => s
    | some w =>
      if !s.party.ready then s
      else match w.decided with
        | some st => if isExpiry st then s.endWith w st else s
        | none => if w.claim.isNone && w.deadline.passed s s.party then s.expire w else s

/-! ### Granting queue entries (R216, R241) -/

/-- The oldest undecided request of a core's resident parties for a kind of work. -/
def State.oldestRequest (s : State) (core : Nat) (kind : Work → Bool) : Option Party :=
  s.parties.foldl (fun best p => match p.wait with
    | some w =>
      if w.kind == .accept && w.decided.isNone && p.core == core && p.live && !p.evicted && kind w.work then
        match best with
        | some b => match b.wait with
          | some v => if w.seq < v.seq then some p else best
          | none => some p
        | none => some p
      else best
    | none => best) none

/-- The oldest request of a kind on a core is granted, if it can be; in a replay launch only in its party's turn (R352). -/
def grantOldest (s : State) (core : Nat) (kind : Work → Bool) : Result :=
  match s.oldestRequest core kind with
  | some p => if s.turnAllows p.pid then onParty s p.pid State.testWait else .next s
  | none => .next s

/-- SIPHON_ENTRY_GRANT (R216). -/
def execSiphonEntryGrant (core : Nat) (s : State) : Result :=
  grantOldest s core fun w => match w with | .commands _ => true | _ => false

/-- GALLERY_ENTRY_GRANT (R241). -/
def execGalleryEntryGrant (core : Nat) (s : State) : Result :=
  grantOldest s core fun w => match w with | .task _ => true | _ => false

end Sys2Proof.Machine
end

