-- ==== Sys2Proof/Machine/Settle.lean ====
section
/-!
DEFINITION. What the part does of its own accord at the end of a step: dependence entries, events and tickets, the passing of
time and what it decides, and the rotation of a replay launch (R36, R37, R183, R296, R319, R328, R349, R352, R356; log 3, 4).
-/
namespace Sys2Proof.Machine

/-! ### Held launches (R349) -/

/-- The time of the write that a dependence word shows. -/
def State.entryTime (s : State) (sp : Space) (a : Word) : Nat :=
  match s.access (accessorIn sp) a 8 8 .read with
  | .ok p => s.writtenAt p 8
  | .error _ => 0

/-- A dependence entry holds now. -/
def State.entryHolds (s : State) (sp : Space) (e : Word × Word) : Bool :=
  match s.load (accessorIn sp) e.1 8 with
  | .ok v => decide (e.2.toNat ≤ v)
  | .error _ => false

/-- A held launch whose entries are met as `now` says, beside those that were: it comes after the words that met them (R349). -/
def State.meetEntries (s : State) (l : Launch) (now : List Bool) : Launch :=
  { l with met := (l.met.zip now).map fun e => e.1 || e.2
           time := ((l.met.zip now).zip l.header.after).foldl (fun t e =>
             if !e.1.1 && e.1.2 then Nat.max t (s.entryTime l.space e.2.1) else t) l.time }

/-- The dependence entries of the held launches, read again (R349). -/
def State.retestLaunches (s : State) : State :=
  { s with launches := s.launches.map fun l =>
      if l.placed = 0 then s.meetEntries l (l.header.after.map (s.entryHolds l.space)) else l }

/-! ### Offers that still wait for a ticket (R356) -/

/-- A party's offer asks again. -/
def State.askAgain (s : State) (pid : Nat) : State :=
  let f := s.focus pid
  match f.party.offer with
  | some o =>
    if f.party.pid == pid && o.ticket.isNone then (f.offerTrap o.trap).focus s.party.pid else s
  | none => s

/-- The event of an engine's fault: the agent in bits 14:13 of the where word. -/
def engineEvent (t : Trap) (core agent : Nat) (record : Word) : Event := t.event (core % 128 + agent * 2 ^ 13) record.toNat

/-- A Siphon command asks about its fault (R220). -/
def State.askCommand (s : State) (id : Nat) : State :=
  match s.commands.find? fun c => c.id == id with
  | some c => match c.offer with
    | some o =>
      if o.ticket.isSome then s
      else
        let r := s.ask (s.ctxOf c.launch) (.command id) (engineEvent o.trap c.core 1 c.desc)
        { r.2 with commands := r.2.commands.map fun x =>
            if x.id = id then { x with offer := some { o with ticket := r.1 } } else x }
    | none => s
  | none => s

/-- The image of a task's record (R256). -/
def Task.image (t : Task) : List Byte :=
  toBytes 8 (t.op % 32 + t.nvr % 4 * 2 ^ 8 + t.batch % 2 ^ 16 * 2 ^ 16 + t.slot % 16 * 2 ^ 32 + t.quad % 4 * 2 ^ 36 +
    t.core % 8 * 2 ^ 38) ++
  (toBytes 8 t.seq ++ (((upTo 0 4).flatMap fun i => toBytes 8 (t.val i).toNat) ++ (toBytes 8 t.ctl.toNat ++ toBytes 8 0)))

/-- A tile task asks about its fault (R242).  The event names the image of its record; where that lies the manual does not say
(R256, R356; log 31). -/
def State.askTask (s : State) (id : Nat) : State :=
  match s.tasks.find? fun t => t.id == id with
  | some t => match t.offer with
    | some o =>
      if o.ticket.isSome then s
      else
        let at_ := ((s.taskImages.find? fun i => i.1 == id).map fun i => i.2.1).getD (Config.freeWord s.free 11)
        let r := s.ask (s.ctxOf t.launch) (.task id) (engineEvent o.trap t.core 2 at_)
        { r.2 with
            taskImages := (id, at_, t.image) :: r.2.taskImages.filter fun i => i.1 != id
            tasks := r.2.tasks.map fun x => if x.id = id then { x with offer := some { o with ticket := r.1 } } else x }
    | none => s
  | none => s

/-- A collective asks about its fault (R373). -/
def State.askCollective (s : State) (id : Nat) : State :=
  match s.collectives.find? fun c => c.id == id with
  | some c => match c.offer with
    | some o =>
      if o.ticket.isSome then s
      else
        let r := s.ask (s.ctxOf c.launch) (.collective id) (engineEvent o.trap (32 * c.die) 1 c.desc)
        { r.2 with collectives := r.2.collectives.map fun x =>
            if x.id = id then { x with offer := some { o with ticket := r.1 } } else x }
    | none => s
  | none => s

def State.retryOffers (s : State) : State :=
  let s := (s.parties.map fun p => p.pid).foldl State.askAgain s
  let s := (s.commands.map fun c => c.id).foldl State.askCommand s
  let s := (s.tasks.map fun t => t.id).foldl State.askTask s
  (s.collectives.map fun c => c.id).foldl State.askCollective s

/-! ### Time (R36, R37, R115, R183) -/

/-- Time passes: the Lantern, the clock counts, and party time of the residents. -/
def State.advance (s : State) (ticks clocks : Nat) : State :=
  let p (x : Party) : Party := if x.live && !x.evicted then { x with ptime := x.ptime + BitVec.ofNat 64 ticks } else x
  { s with lantern := s.lantern + BitVec.ofNat 64 ticks, clock := s.clock + BitVec.ofNat 64 clocks
           party := p s.party, others := s.others.map p }

/-- The state word of a party that is away, in its record (R288, R296). -/
def State.noteAway (s : State) (p : Party) : State :=
  let l := s.home p
  match s.arenaWrite l.space (l.header.partyRecordAt p.group p.first + 0x250) (toBytes 8 p.stateWord) with
  | .ok t => t
  | .error _ => s

/-- A wait whose deadline's tick has passed is decided: met at that tick, or expired and taken back (R37, R206). -/
def State.timeOut (s : State) (pid : Nat) : State :=
  let f := s.focus pid
  let p := f.party
  match p.wait with
  | some w =>
    if p.pid == pid && p.live && w.decided.isNone && w.claim.isNone && w.deadline.passed f p then
      -- a waiter that is away takes, re-reads and enqueues nothing at its deadline (R299), nor does a replay party out of its turn
      let acts := w.kind == .semacq || w.kind == .accept || w.kind == .cpyw
      let idle := (s.away p && (acts || w.kind == .waddr)) || (acts && !s.turnAllows pid)
      let t := match if idle then Attempt.waiting else f.attempt w with
        | .ended t st => t.setWait (some { w with decided := some st })
        | .held t => t
        | _ =>
          -- what its last look at a ring read counts, unless it was made before the party went away (R318)
          let u := f.takeBack p w
          (if s.away p then u else u.lookedAt w).setWait (some { w with decided := some (f.expiryCode p w) })
      (if p.evicted then t.noteAway t.party else t).focus s.party.pid
    else s
  | none => s

/-- Lanes outstanding at an absent part end TIMEOUT where the instruction's deadline fell before the bound, or POISON at the bound
(R183, R328). -/
def State.expireRemotes (s : State) (pid : Nat) : State :=
  let f := s.focus pid
  let bounded (i : InFlight) : Bool := i.op == .ld || i.op == .atom || i.op == .acas
  if f.party.pid != pid then s
  else match f.party.inflight.find? fun i => !i.remotes.isEmpty && bounded i && f.deadlineFirst f.party i with
    | some i => { f with party := f.party.resolveRemotes i false }.focus s.party.pid
    | none => f.endAtBound.focus s.party.pid

def State.decideAll (s : State) : State :=
  let ids := s.parties.map fun p => p.pid
  ids.foldl State.expireRemotes (ids.foldl State.timeOut s)

/-- The high-water marks of logical time follow the parties of each core (R319). -/
def State.noteTimes (s : State) : State :=
  { s with marks := s.parties.foldl (fun m p => Table.set 0 m p.core (Nat.max (Table.get 0 m p.core) p.pt)) s.marks }

/-! ### Replay turns (R352) -/

/-- A party's place in the rotation: by group, then by first position. -/
def Party.before (a b : Party) : Bool := decide (a.group < b.group) || (a.group == b.group && decide (a.first < b.first))

/-- The rotation of a launch: its parties that have not exited. -/
def State.rotation (s : State) (l : Launch) : List Party :=
  (s.parties.filter fun p => p.launch == l.id && p.present).foldl
    (fun sorted p => sorted.filter (fun x => x.before p) ++ (p :: sorted.filter fun x => !x.before p)) []

/-- Everything that the party started in its turn has completed; a lane instruction whose cause is pending counts as complete,
and those after it are not waited for.  A party that can do nothing gives its turn up; one that is away stops the rotation. -/
def State.turnOver (s : State) (l : Launch) : Bool :=
  match s.parties.find? fun p => p.pid == l.turn with
  | none => true
  | some p =>
    if p.evicted && p.live then false
    else if p.life != .running || p.stopped then true
    else (l.turnUsed || p.offer.isSome) && !p.laneBusy && (p.pendingLane.isSome || p.hmode || p.drained) &&
      !l.turnCmds.any fun id => (s.commands.any fun c => c.id == id) || (s.tasks.any fun t => t.id == id) ||
        s.collectives.any fun c => c.id == id

/-- Every party of a suspended replay launch that has not exited is at a park point (R361). -/
def State.allParked (s : State) (l : Launch) : Bool :=
  (s.context l.space.ctx).state == 2 && s.parties.all fun p => p.launch != l.id || !p.live || p.evicted || s.atPark p

/-- The party of a rotation that comes after the place of the present turn, whose party may have left it. -/
def State.nextTurn (s : State) (l : Launch) : Option Party :=
  let r := s.rotation l
  match s.parties.find? fun p => p.pid == l.turn with
  | some p => (r.find? fun x => p.before x).or r.head?
  | none => r.head?

/-- The turn passes to the next party of the rotation. -/
def State.passTurn (s : State) (l : Launch) : State :=
  if l.header.replay && decide (0 < l.placed) && s.turnOver l then
    match s.nextTurn l with
    | some p => s.putLaunch { l with turn := p.pid, turnUsed := false, turnCmds := [], gather := s.allParked l }
    | none => s
  else s

/-- The party whose turn is over has every flag raised, so that its scalar stream reads what its lane instructions wrote (R34,
R352). -/
def State.raiseTurn (s : State) (l : Launch) : State :=
  match s.party? l.turn with
  | some p => if l.header.replay && s.turnOver l then s.putParty { p with looseMasks := [] } else s
  | none => s

/-- The party whose turn it is has used its turn, also where the instruction was a FUSE that gave the turn to the joined party;
`from_` is the number that the first of its commands would have. -/
def State.useTurn (s : State) (launch from_ : Nat) : State :=
  match s.launch? launch with
  | some l =>
    if l.header.replay then
      s.putLaunch { l with
        turnUsed := true
        turnCmds := ((s.commands.map fun c => c.id) ++ (s.tasks.map fun t => t.id) ++ s.collectives.map fun c => c.id).filter
          fun id => decide (from_ ≤ id) }
    else s
  | none => s

/-! ### All of it -/

/-- The end of a step.  A waiter looks at its word after the part's own updates of memory too (R207, R209, R296). -/
def State.settle (s : State) (ticks clocks : Nat) : State :=
  let s := ((s.quiesce.watchAll.retestAll.retestLaunches.flushEvents.retryOffers).advance ticks clocks).decideAll
  let s := s.launches.foldl (fun s l =>
    let l := (s.launch? l.id).getD l
    (s.raiseTurn l).passTurn l) s
  { s.noteHeads.noticeCommands.noteTimes with free := s.free + 1 }

end Sys2Proof.Machine
end

