-- ==== Sys2Proof/Machine/Sync.lean ====
section
/-!
DEFINITION. Barriers, semaphores, monitors, fences, WAITF, FUSE, TWAIT and TBAT (R96, R106, R202 to R211, R262, R263).
-/
namespace Sys2Proof.Machine

/-! ### Barriers (R202 to R205, R293) -/

/-- BARR (R202). -/
def execBarr (_k : Bool) (a : Reg) (s : State) : Result :=
  let t := s.barrArrive (s.home s.party) s.party (s.party.reg a)
  .next (t.finish t.party)

/-- BDROP (R205). -/
def execBdrop (_k : Bool) (a : Reg) (s : State) : Result :=
  let t := s.barrDrop (s.home s.party) s.party (s.party.reg a)
  .next (t.finish t.party)

/-- The wait of a barrier instruction in the phase that `s` shows. -/
def State.barrierWait (s : State) (i : Instr) (d a : Reg) (dl : BitVec 2) : Wait :=
  let sel := s.party.reg a
  let b := s.barrier (s.home s.party) s.party.group (barLevel sel) (barIndex sel)
  s.newWait .barrier i d dl sel (b.phase.setWidth 64)

/-- BWAIT's waiting: at once OK, and no poll, where no arrival of the party stands (R203). -/
def awaitPhase (s : State) (w : Wait) : Result :=
  if s.barrStands (s.home s.party) s.party w.w1 then s.startWait w else s.endAtOnce w

/-- BWAIT (R203). -/
def execBwait (k : Bool) (d a : Reg) (dl : BitVec 2) (s : State) : Result :=
  waiting s d (awaitPhase s (s.barrierWait (.bwait k d a dl) d a dl))

/-- BSYNC: BARR and BWAIT with one t0 (R204). -/
def execBsync (k : Bool) (d a : Reg) (dl : BitVec 2) (s : State) : Result :=
  waiting s d (awaitPhase (s.barrArrive (s.home s.party) s.party (s.party.reg a)) (s.barrierWait (.bsync k d a dl) d a dl))

/-! ### Semaphores and monitors (R207 to R209) -/

/-- SEMACQ (R207). -/
def execSemacq (k : Bool) (d a : Reg) (dl : BitVec 2) (b : Reg) (s : State) : Result :=
  waiting s d (s.startWait (s.newWait .semacq (.semacq k d a dl b) d dl (s.party.reg a) (s.party.reg b)))

/-- WADDR (R209). -/
def execWaddr (k : Bool) (d a : Reg) (dl : BitVec 2) (b : Reg) (s : State) : Result :=
  waiting s d (s.startWait (s.newWait .waddr (.waddr k d a dl b) d dl (s.party.reg a) (s.party.reg b)))

/-- SEMREL (R208). -/
def execSemrel (_k : Bool) (a b : Reg) (s : State) : Result :=
  let p := s.party
  match s.release (accessorOf (s.home p) p) p.agent (p.reg a) (p.reg b).toNat with
  | .error d => raiseDeny s d (p.reg a)
  | .ok (t, time) => .next ((t.atTime time).finish (t.atTime time).party)

/-! ### Fences (R211) -/

/-- FENCE (R211). -/
def execFence (k : Bool) (d : Reg) (mask : BitVec 6) (dl : BitVec 2) (s : State) : Result :=
  waiting s d (s.startWait (s.newWait .fence (.fence k d mask dl) d dl 0 0))

/-- XFENCE (R211, R311). -/
def execXfence (k : Bool) (d : Reg) (ca : BitVec 6) (dl : BitVec 2) (cb : BitVec 6) (s : State) : Result :=
  waiting s d (s.startWait (s.newWait .xfence (.xfence k d ca dl cb) d dl 0 0))

/-- SYSFENCE (R211). -/
def execSysfence (k : Bool) (d : Reg) (dl : BitVec 2) (s : State) : Result :=
  waiting s d (s.startWait (s.newWait .sysfence (.sysfence k d dl) d dl 0 0))

/-- SYSFENCE.ARRAY (R211). -/
def execSysfenceArray (k : Bool) (d : Reg) (dl : BitVec 2) (s : State) : Result :=
  waiting s d (s.startWait (s.newWait .sysfenceArray (.sysfenceArray k d dl) d dl 0 0))

/-! ### Flags, width, batches -/

/-- WAITF (R96). -/
def execWaitf (k : Bool) (d : Reg) (flags : BitVec 12) (dl : BitVec 2) (s : State) : Result :=
  let w := s.newWait .waitf (.waitf k d flags dl) d dl 0 0
  waiting s d (if flags = 0 then s.endAtOnce w else s.startWait w)

/-- FUSE (R106): it holds until the party is drained, and then arrives. -/
def execFuse (k : Bool) (d : Reg) (dl : BitVec 2) (s : State) : Result :=
  doubleInHandler s <|
    if !s.party.drained then hold s
    else
      let t : State := { s with party := s.party.certain }
      t.arriveFuse (t.newWait .fuse (.fuse k d dl) d dl t.party.pc 0)

/-- TWAIT (R263): a batch 256 or more ago ends at once with OK, and this is no poll. -/
def execTwait (k : Bool) (d a : Reg) (dl : BitVec 2) (s : State) : Result :=
  let v := s.party.reg a
  let w := s.newWait .twait (.twait k d a dl) d dl v 0
  waiting s d (if 256 ≤ (s.party.openBatch.toNat + 2 ^ 16 - v.toNat % 2 ^ 16) % 2 ^ 16 then s.endAtOnce w else s.startWait w)

/-- TBAT (R262): it holds while the batch 256 before the next one still has tasks, whose status it then forgets. -/
def execTbat (_k : Bool) (d : Reg) (s : State) : Result :=
  let p := s.party
  let next := p.openBatch + 1
  if s.holdsReg p d || s.tasks.any (fun t => t.members.contains p.pid && t.batch == (next - 256).toNat) then hold s
  else .next (s.finish ({ p with openBatch := next
                                 batches := Table.set 0 p.batches (next.toNat % 256) 0
                                 batchBy := Table.set 0 p.batchBy (next.toNat % 256) 0 }.setReg d (p.openBatch.setWidth 64)))

end Sys2Proof.Machine
end

