-- ==== Sys2Proof/Machine/Siphon.lean ====
section
/-!
DEFINITION. The Siphon: what a queued command moves, and how it completes (R212, R217 to R221).
-/
namespace Sys2Proof.Machine

/-! ### Commands in the queue -/

def State.putCommand (s : State) (c : Command) : State :=
  { s with commands := s.commands.map fun x => if x.id = c.id then c else x }

/-- The accessor of a command's own accesses. -/
def State.commandAccessor (s : State) (c : Command) : Accessor :=
  let l := (s.launch? c.launch).getD Launch.blank
  { space := l.space, launch := some l, group := c.group, q := 0 }

/-- A command may start: no predecessor, and no earlier command of its party on its path, is incomplete (R212, R221).  A party's
number does not change with SPLIT and FUSE, so what another number issued is not of its party (log 73). -/
def State.mayStart (s : State) (c : Command) : Bool :=
  c.kind != 3 && !c.executed && c.offer.isNone &&
    !s.commands.any fun x => c.pred == some x.id ||
      (x.kind != 3 && x.pid == c.pid && x.path == c.path && decide (x.id < c.id))

/-- `n` arrivals of rows at the command's barrier, at a time above their writes (R201, R309). -/
def State.arrivals (s : State) (c : Command) (n : Nat) : State :=
  match c.rbar, s.launch? c.launch with
  | some i, some l => (upTo 0 n).foldl (fun s _ => s.rowArrival l c.group i) (s.signalAt (c.time + 1))
  | _, _ => s

/-! ### Events of a row (R214, R301) -/

/-- The events of one element: one, or two of eight bytes for a complex element of sixteen. -/
def elementEvents (a : Word) (elem : Nat) : List (Word × Nat) :=
  if elem = 4 then [(a, 8), (a + 8, 8)] else [(a, 2 ^ elem)]

/-- The events of a logical row. -/
def Layout.rowEvents (l : Layout) (base : Word) (i : Nat) : List (Word × Nat) :=
  (upTo 0 l.shape.2).flatMap fun j => elementEvents (l.at_ base i j) l.elem

/-- The fault of an engine's access as what is offered. -/
def engineTrap (e : Deny × Word) : Trap := (Trap.scalar e.1.cause 0 0).denied e.1 e.2

/-- What a command's work so far comes to: the state, the command, and the fault that stopped it. -/
structure Moved where
  s : State
  c : Command
  fault : Option (Deny × Word)

/-- A row is begun: it reads `src`, or zeros, and writes `dst`. -/
def Command.openRow (c : Command) (src : Option (List (Word × Nat))) (dst : List (Word × Nat)) : Command :=
  { c with
      loads := src.getD []
      got := if src.isSome then [] else dst.flatMap fun e => List.replicate e.2 (0, false)
      stores := dst
      rowOpen := true }

/-- Row `i` of a command (R217, R218). -/
def Command.startRow (c : Command) (i : Nat) : Command :=
  let src := c.slay.rowEvents c.src
  let dst := c.dlay.rowEvents c.dst
  let x := (c.held[i]?).getD 0
  match c.kind with
  | 0 => c.openRow (some (src i)) (dst i)
  | 1 => c.openRow (if x < c.slay.shape.1 then some (src x) else none) (dst i)
  | _ => c.openRow (some (src i)) (if x < c.dlay.shape.1 then dst x else [])

/-- The next read event of a command. -/
def Moved.read (m : Moved) (a : Word) (n : Nat) (rest : List (Word × Nat)) : Moved :=
  let c := m.c
  match m.s.engineRead (m.s.commandAccessor c) c.agent a n n with
  | .error e => { m with fault := some e }
  | .ok sp =>
    let bad := if sp.bad.isEmpty then List.replicate n false else sp.bad
    { m with c := { c with loads := rest, got := c.got ++ sp.bytes.zip bad, time := sp.time } }

/-- One event of the row in progress: a read of it, else a write of it, else its end, whose arrivals follow. -/
def Moved.event (m : Moved) : Moved :=
  let c := m.c
  match c.loads, c.stores with
  | (a, n) :: rest, _ => m.read a n rest
  | [], (a, n) :: rest =>
    let now := c.got.take n
    match m.s.engineWrite (m.s.commandAccessor c) c.agent a { bytes := now.map Prod.fst, bad := now.map Prod.snd, time := c.time } with
    | .error e => { m with fault := some e }
    | .ok w =>
      let spoilt := w.lost || now.any fun x => x.2
      { m with s := w.s, c := { c with
          stores := rest, got := c.got.drop n, time := w.time
          failed := if spoilt then some Cause.poison.code else c.failed } }
  | [], [] =>
    let n := if c.sparse.isSome then c.rows else 1
    { m with s := m.s.arrivals c n, c := { c with rowOpen := false, got := [], progress := c.progress + n } }

/-! ### What a command reads before its first write (R218, R219) -/

/-- The read events of `n` numbers of 4 bytes, and the numbers that bytes read hold. -/
def numberEvents (a : Word) (n : Nat) : List (Word × Nat) := (upTo 0 n).map fun i => (a + BitVec.ofNat 64 (4 * i), 4)
def numbersOf (got : List (Byte × Bool)) (n : Nat) : List Nat :=
  (upTo 0 n).map fun i => ofBytes (((got.drop (4 * i)).take 4).map Prod.fst)

/-- Some of the bytes read are poisoned. -/
def spoilt (got : List (Byte × Bool)) : Bool := got.any fun x => x.2

/-- The index entries of a dense GATH or SCAT: their read events, and then their numbers.  A poisoned one is used as it was
read, and marks the command (log 73). -/
def Command.nextIndices (c : Command) : Command :=
  if c.got.isEmpty then { c with loads := numberEvents c.aux c.count }
  else { c with
    held := numbersOf c.got c.count, got := []
    failed := if spoilt c.got then some Cause.poison.code else c.failed }

/-! ### Sparse windows (R219) -/

/-- The first major of the window. -/
def Command.major (c : Command) : Nat := c.aux.toNat % 2 ^ 32

/-- The ptr entries that a sparse command has read, and the entries of its window by them: the first, and how many. -/
def Command.ptrs (c : Command) : List Nat := numbersOf c.got (c.rows + 1)
def Command.firstEntry (c : Command) : Nat := c.ptrs.headD 0
def Command.entryCount (c : Command) : Nat := c.ptrs.getLastD 0 - c.firstEntry

/-- The ptr entries decrease, or the window has too many entries. -/
def Command.badPtrs (c : Command) : Bool :=
  (c.ptrs.zip (c.ptrs.drop 1)).any (fun p => decide (p.2 < p.1)) || decide (65536 < c.entryCount)

/-- The bytes read after the ptr entries, and after the idx entries too. -/
def Command.idxBytes (c : Command) : List (Byte × Bool) := c.got.drop (4 * (c.rows + 1))
def Command.valBytes (c : Command) : List (Byte × Bool) := c.idxBytes.drop (4 * c.entryCount)

/-- The window's entries, each with its major, its number and its minor index. -/
def Command.windowEntries (c : Command) : List (Nat × Nat × Nat) :=
  let minor := numbersOf c.idxBytes c.entryCount
  (c.ptrs.zip (c.ptrs.drop 1)).zipIdx.flatMap fun e =>
    (upTo e.1.1 (e.1.2 - e.1.1)).map fun p => (c.major + e.2, p, (minor[p - c.firstEntry]?).getD 0)

/-- The dense element (row, column) of a window entry, if it lies in the window. -/
def windowElement (c : Command) (h : Sparse) (major minor : Nat) : Option (Nat × Nat) :=
  let k0 := c.aux.toNat / 2 ^ 32
  let width := if h.csc then c.slay.shape.1 else c.slay.shape.2
  if k0 ≤ minor ∧ minor < k0 + width then
    some (if h.csc then (minor - k0, major - c.major) else (major - c.major, minor - k0))
  else none

/-- The address of a value, and the elements of bytes read. -/
def Sparse.valAt (h : Sparse) (p : Nat) : Word := h.val + BitVec.ofNat 64 (p * 2 ^ h.elem)
def Sparse.pieces (h : Sparse) (got : List (Byte × Bool)) (n : Nat) : List (List (Byte × Bool)) :=
  (upTo 0 n).map fun i => (got.drop (2 ^ h.elem * i)).take (2 ^ h.elem)

/-- The entries whose value SCAT writes, with the dense elements that it takes. -/
def Command.scattered (c : Command) (h : Sparse) : List (Nat × Nat × Nat) :=
  c.windowEntries.filterMap fun e => (windowElement c h e.1 e.2.2).map fun x => (e.2.1, x)

/-- The writes of GATH, row by row: the value of the last entry of each dense element, or zero. -/
def Command.gatherPlan (c : Command) (h : Sparse) : Command :=
  let found := c.windowEntries.zip (h.pieces c.valBytes c.entryCount)
  let cells := (upTo 0 c.dlay.shape.1).flatMap fun i => (upTo 0 c.dlay.shape.2).map fun j => (i, j)
  { c with
      rowOpen := true
      stores := cells.flatMap fun x => elementEvents (c.dlay.at_ c.dst x.1 x.2) h.elem
      got := cells.flatMap fun x => found.foldl (fun (last : List (Byte × Bool)) e =>
        if windowElement c h e.1.1 e.1.2.2 = some x then e.2 else last) (List.replicate (2 ^ h.elem) (0, false))
      failed := if spoilt (c.got.take (4 * (c.rows + 1 + c.entryCount))) then some Cause.poison.code else c.failed }

/-- The writes of SCAT, in the order of its entries. -/
def Command.scatterPlan (c : Command) (h : Sparse) : Command :=
  let read := 4 * (c.rows + 1 + c.entryCount) + c.entryCount * 2 ^ h.elem
  { c with
      rowOpen := true
      stores := (c.scattered h).flatMap fun e => elementEvents (h.valAt e.1) h.elem
      got := c.got.drop read
      failed := if spoilt (c.got.take read) then some Cause.poison.code else c.failed }

/-- The next reads of a sparse command, all of them before its first write, or then its writes, which stand as events.  Every
value entry of the window's majors is read, by SCAT too. -/
def Moved.nextSparse (m : Moved) (h : Sparse) : Moved :=
  let c := m.c
  let ask (l : List (Word × Nat)) : Moved := { m with c := { c with stage := c.stage + 1, loads := l } }
  let fails : Moved := { m with
    s := m.s.arrivals c c.rows, c := { c with failed := some Cause.arith.code, progress := c.rows, got := [] } }
  match c.stage with
  | 0 =>
    if h.nmaj < c.major + c.rows then fails
    else ask (numberEvents (h.ptr + BitVec.ofNat 64 (4 * c.major)) (c.rows + 1))
  | 1 =>
    if c.badPtrs then fails else ask (numberEvents (h.idx + BitVec.ofNat 64 (4 * c.firstEntry)) c.entryCount)
  | 2 => ask (c.windowEntries.flatMap fun e => elementEvents (h.valAt e.2.1) h.elem)
  | 3 =>
    if c.kind = 1 then { m with c := c.gatherPlan h }
    else ask ((c.scattered h).flatMap fun e => elementEvents (c.slay.at_ c.src e.2.1 e.2.2) h.elem)
  | _ => { m with c := c.scatterPlan h }

/-! ### Execution (R217 to R220) -/

/-- Nothing is left to move. -/
def Command.moved (c : Command) : Bool := !c.rowOpen && decide (c.rows ≤ c.progress)

/-- One move of a command: an event of the row in progress, a read that comes before its first write, or the start of the next
row. -/
def Moved.step (m : Moved) : Moved :=
  if m.fault.isSome ∨ m.c.moved then m
  else if m.c.rowOpen then m.event
  else match m.c.loads, m.c.sparse with
    | (a, n) :: rest, _ => m.read a n rest
    | [], some h => m.nextSparse h
    | [], none =>
      { m with c := if m.c.kind ≠ 0 ∧ m.c.held.isEmpty then m.c.nextIndices else m.c.startRow m.c.progress }

/-- `n` moves. -/
def Moved.steps : (n : Nat) → Moved → Moved
  | 0, m => m
  | n + 1, m => if m.fault.isSome ∨ m.c.moved then m else Moved.steps n m.step

/-- The moves of one row or window with the reads before it, and those of the whole command, at most. -/
def Command.rowMoves (c : Command) : Nat :=
  4 * (c.slay.shape.1 + c.dlay.shape.1 + 1) * (c.slay.shape.2 + c.dlay.shape.2 + 1) + 8 * 65536 + 16
def Command.maxMoves (c : Command) : Nat := (c.rows + 1) * c.rowMoves

/-- A command moves at most `n` times; a fault is offered and the rest waits for the answer. -/
def State.runCommand (s : State) (c : Command) (n : Nat) : State :=
  let m := Moved.steps n { s := s, c := c, fault := none }
  match m.fault with
  | some e => (m.s.putCommand { m.c with offer := some { trap := engineTrap e, ticket := none } }).askCommand c.id
  | none => m.s.putCommand { m.c with executed := m.c.moved }

/-- SIPHON_COMMAND_EXECUTE (R217 to R220): the rest of the payload moves. -/
def execSiphonCommandExecute (cmd : Nat) (s : State) : Result :=
  match s.commands.find? fun c => c.id == cmd with
  | none => .next s
  | some c => .next (if s.mayStart c then s.runCommand c c.maxMoves else s)

/-- Some of a command's events, between which other agents act (R301). -/
def State.moveSome (s : State) (cmd n : Nat) : State :=
  match s.commands.find? fun c => c.id == cmd with
  | none => s
  | some c => if s.mayStart c then s.runCommand c n else s

/-! ### Completion (R220, R221) -/

/-- The completion word's value. -/
def Command.signal (c : Command) : Nat :=
  match c.failed with
  | some k => 2 ^ 63 + k
  | none => c.cwval.toNat

/-- The commands and tasks that come after a command: its chained successor, or the tasks that a gate on it holds (R221). -/
def State.successors (s : State) (c : Command) : List Nat :=
  (s.commands.filter fun x => x.pred == some c.id).flatMap fun x =>
    if x.kind = 3 then
      (s.tasks.filter fun t => t.owners.contains x.pid && t.batch == x.batch && !t.started).map fun t => t.id
    else [x.id]

/-- Work that comes after other work starts at a logical time no earlier. -/
def State.raiseTimes (s : State) (ids : List Nat) (t : Nat) : State :=
  { s with
      commands := s.commands.map fun c => if ids.contains c.id then { c with time := Nat.max c.time t } else c
      tasks := s.tasks.map fun x => if ids.contains x.id then { x with time := Nat.max x.time t } else x }

/-- The command leaves the queue; a gate on it opens, and what comes after it sees its writes (R312). -/
def State.retireCommand (s : State) (c : Command) : State :=
  let after := s.successors c
  let s := ((s.signalAt (c.time + 1)).dependBar c.id after).raiseTimes after (c.time + 1)
  { s with commands := s.commands.filter fun x => x.id != c.id && !(x.pred == some c.id && x.kind == 3) }

/-- COMMAND_COMPLETION (R220): the completion word, then the semaphore, both on the command's path, then the entry is free. -/
def execCommandCompletion (cmd : Nat) (s : State) : Result :=
  match s.commands.find? fun c => c.id == cmd with
  | none => .next s
  | some c =>
    if !c.executed || c.offer.isSome then .next s
    else
      let ac := s.commandAccessor c
      let ask (s : State) (c : Command) (d : Deny) (a : Word) : Result :=
        .next ((s.putCommand { c with offer := some { trap := engineTrap (d, a), ticket := none } }).askCommand cmd)
      match if c.cwaddr = 0 then .ok (s, c.time) else s.signalWord ac c.agent c.cwaddr c.signal with
      | .error d => ask s c d c.cwaddr
      | .ok (s, time) =>
        let c := { c with cwaddr := 0, time := time }
        match if c.semaddr = 0 then .ok (s, c.time) else s.release ac { c.agent with time := c.time + 1 } c.semaddr 1 with
        | .error d => ask s c d c.semaddr
        | .ok (s, time) => .next (s.retireCommand { c with time := time })

/-- A fault of a command was declined: before its end the rest of its rows arrive and its completion word carries the cause;
afterwards the write that met it is dropped and reported as an event of kind 4 (R220, R356). -/
def State.declineCommand (s : State) (c : Command) (t : Trap) : State :=
  if c.executed then
    let c' := if c.cwaddr ≠ 0 then { c with cwaddr := 0, offer := none } else { c with semaddr := 0, offer := none }
    (s.putCommand c').report (s.ctxOf c.launch) (t.dropped (c.core % 128 + 2 ^ 13))
  else
    (s.arrivals c (c.rows - c.progress)).putCommand { c with
      executed := true, failed := some t.cause.code, offer := none, rowOpen := false, loads := [], stores := [], got := [] }

end Sys2Proof.Machine
end

