-- ==== Sys2Proof/Machine/Domain.lean ====
section
/-!
DEFINITION. The Itval domain: packets and their retransmission, absent parts, and the collective engines (R368 to R373).
-/
namespace Sys2Proof.Machine

/-! ### Packets (R368) -/

/-- Acknowledgements that come back with a packet from a part: how many, the manual leaves open (log 47). -/
def State.acknowledge (s : State) (part : Nat) : State :=
  { s with sends := s.sends.map fun x =>
      if x.dst = part then { x with unacked := x.unacked.drop (Config.freeNat s.free % (x.unacked.length + 1)) } else x }

/-- The number that the next packet of a stream is accepted under. -/
def State.expected (s : State) (src cls : Nat) : BitVec 32 :=
  ((s.accepts.find? fun e => e.1 == src && e.2.1 == cls).map fun e => e.2.2).getD 0

/-- A part that a packet comes from is there: a route reaches it in this tick (R320, R369). -/
def State.sees (s : State) (part : Nat) : State :=
  { s with
      contacts := Table.set 0 s.contacts part s.lantern.toNat
      absentParts := s.absentParts.filter fun x => x != part
      joined := if s.joined.contains part then s.joined else part :: s.joined }

/-- PACKET_RECEIVE (R368, R369): only the number that follows the last accepted is accepted. -/
def execPacketReceive (packet : Packet) (s : State) : Result :=
  if packet.dst ≠ s.bar.part ∨ packet.src = s.bar.part ∨ 3071 < packet.src ∨ 3 < packet.cls then .next s
  else
    let s := (s.sees packet.src).acknowledge packet.src
    if packet.seq = s.expected packet.src packet.cls then
      .next { s with accepts := s.accepts.filter (fun e => !(e.1 == packet.src && e.2.1 == packet.cls)) ++
        [(packet.src, packet.cls, packet.seq + 1)] }
    else .next s

/-- RETRANSMISSION (R368): 2,000 ticks after the oldest packet was sent, every unacknowledged one is sent again. -/
def execRetransmission (dst cls : Nat) (s : State) : Result :=
  let now := s.lantern.toNat
  .next { s with sends := s.sends.map fun x =>
    if x.dst = dst ∧ x.cls = cls ∧ (x.unacked.head?.any fun e => decide (e.2 + 2000 ≤ now)) then
      { x with unacked := x.unacked.map fun e => (e.1, now) }
    else x }

/-! ### Absent parts (R369, R373) -/

/-- A collective fails with a code, unless it has failed already. -/
def Collective.fail (c : Collective) (code : Nat) : Collective := if c.finished then c else { c with failed := c.failed.or (some code) }

/-- No route has reached a part for 2^16 ticks: since the last packet from it, or since power-on (R369). -/
def State.outOfReach (s : State) (part : Nat) : Bool := decide (Table.get 0 s.contacts part + 2 ^ 16 ≤ s.lantern.toNat)

/-- PART_ABSENT (R369): a part that no route has reached for 2^16 ticks is taken as absent, and collectives that it is a member
of fail. -/
def execPartAbsent (part : Nat) (s : State) : Result :=
  if part = s.bar.part ∨ 3071 < part ∨ s.absentParts.contains part ∨ !s.outOfReach part then .next s
  else .next { s with
    absentParts := part :: s.absentParts
    joined := s.joined.filter fun x => x != part
    collectives := s.collectives.map fun c => if c.members.contains part then c.fail 0x0103 else c }

/-! ### Collectives (R371, R373) -/

def State.putCollective (s : State) (c : Collective) : State :=
  { s with collectives := s.collectives.map fun x => if x.id = c.id then c else x }

/-- COLL_TIMEOUT (R373): the timeout has passed without every member joining. -/
def execCollTimeout (cmd : Nat) (s : State) : Result :=
  match s.collectives.find? fun c => c.id == cmd with
  | none => .next s
  | some c => .next (if c.acceptedAt + c.timeout ≤ s.lantern.toNat ∧ !c.allJoined then s.putCollective (c.fail 0x0101) else s)

/-- The rank of this part. -/
def Collective.rank (c : Collective) (part : Nat) : Nat := c.members.idxOf part

/-- Elements of src and of dst. -/
def Collective.srcLen (c : Collective) : Nat := if c.kind = 0 then c.members.length * c.count else c.count
def Collective.dstLen (c : Collective) : Nat := if c.kind = 1 then c.members.length * c.count else c.count

/-- The combination of one element of every rank, in ascending rank with one rounding a step. -/
def Collective.combined (c : Collective) (ys : List Nat) : Nat :=
  match ys with
  | [] => 0
  | y :: rest => rest.foldl (combine c.ty .rn c.op) y

/-- The dst of rank `r` from the src of every rank. -/
def Collective.result (c : Collective) (r : Nat) (srcs : List (List Nat)) : List Nat :=
  if c.kind = 1 then srcs.flatten
  else
    let from_ := if c.kind = 0 then r * c.count else 0
    (upTo from_ c.count).map fun i => c.combined (srcs.map fun x => (x[i]?).getD 0)

/-- The elements of some bytes. -/
def Collective.elements (c : Collective) (bs : List Byte) (n : Nat) : List Nat :=
  (upTo 0 n).map fun i => ofBytes ((bs.drop (c.ty.bytes * i)).take c.ty.bytes)

/-- The accessor of a collective: its addresses name the windows of the issuing party's group (R164, R170). -/
def State.collectiveAccessor (s : State) (c : Collective) : Accessor :=
  let l := (s.launch? c.launch).getD Launch.blank
  { space := l.space, launch := some l, group := c.group, q := 0 }

/-- A fault of a collective is offered. -/
def State.offerCollective (s : State) (c : Collective) (e : Deny × Word) : State :=
  (s.putCollective { c with offer := some { trap := engineTrap e, ticket := none } }).askCollective c.id

/-- The collective leaves its queue, after everything that it wrote (R309). -/
def State.retireCollective (s : State) (c : Collective) : State :=
  let s := s.signalAt (c.time + 1)
  { s with
      collectives := s.collectives.filter fun x => x.id != c.id
      tickets := s.tickets.filter fun t => t.asker != .collective c.id }

/-- The value of the completion word. -/
def Collective.signal (c : Collective) : Nat :=
  match c.failed with
  | some code => 2 ^ 63 + code
  | none => c.cwval.toNat

/-- The completion word is written, and the collective ends; what it had asked about is withdrawn. -/
def State.signalCollective (s : State) (c : Collective) : State :=
  if c.cwaddr = 0 then s.retireCollective c
  else match s.signalWord (s.collectiveAccessor c) c.agent c.cwaddr c.signal with
    | .ok (s, time) => s.retireCollective { c with time := time }
    | .error d =>
      { s with tickets := s.tickets.filter fun t => t.asker != Asker.collective c.id }.offerCollective
        { c with finished := true } (d, c.cwaddr)

/-- The src of every rank, this part's own in its place; none where the members that joined do not match. -/
def Collective.sources (c : Collective) (r : Nat) (own : List Nat) (inputs : List (List Nat)) : Option (List (List Nat)) :=
  if inputs.length = c.members.length ∧ (inputs.zipIdx.all fun x => x.2 == r || x.1.length == c.srcLen) then
    some (inputs.zipIdx.map fun x => if x.2 = r then own else x.1.map fun v => v % 2 ^ (8 * c.ty.bytes))
  else none

/-- The elements of dst, each at its address. -/
def Collective.writes (c : Collective) (values : List Nat) : List (Word × List Byte) :=
  values.zipIdx.map fun x => (c.dst + BitVec.ofNat 64 (c.ty.bytes * x.2), toBytes c.ty.bytes x.1)

/-- The src of a member as far as it has read it, with the next `n` bytes of it, in events of an element or eight bytes (R301). -/
def State.restOfSrc (s : State) (c : Collective) (n : Nat) : Except (Deny × Word) Span :=
  (s.engineRead (s.collectiveAccessor c) c.agent (c.src + BitVec.ofNat 64 c.got.length) n c.ty.bytes).map fun sp =>
    { sp with
        bytes := c.got.map (fun b => b.1) ++ sp.bytes
        bad := if c.got.isEmpty then sp.bad else (c.got ++ sp.marked).map fun b => b.2 }

/-- The next `n` elements of src are read, between which other agents act (R301). -/
def State.readSrc (s : State) (c : Collective) (n : Nat) : State :=
  let k := Nat.min (n * c.ty.bytes) (c.srcLen * c.ty.bytes - c.got.length)
  match s.restOfSrc c k with
  | .error e => s.offerCollective c e
  | .ok sp =>
    s.putCollective { c with time := sp.time, got := sp.marked }

/-- The dst of a member once the src of every rank is known: what it is to write, or that it has failed by poison; none where
the members that joined do not match, and its fault otherwise. -/
def State.planCollective (s : State) (c : Collective) (inputs : List (List Nat)) : Except (Deny × Word) (Option Collective) :=
  if c.plan.isSome then .ok (some c)
  else do
    let sp ← s.restOfSrc c (c.srcLen * c.ty.bytes - c.got.length)
    let r := c.rank s.bar.part
    let c := { c with time := sp.time, got := [] }
    if sp.poisoned then pure (some (c.fail Cause.poison.code))
    else pure ((c.sources r (c.elements sp.bytes c.srcLen) inputs).map fun srcs =>
      { c with allJoined := true, plan := some (c.writes (c.result r srcs)) })

/-- At most `n` elements of dst are written.  After poison, or at a part that does not answer, the member writes no further
(R328, R373). -/
def State.writeCollective (s : State) (ac : Accessor) (c : Collective) : (n : Nat) → State × Collective × Option (Deny × Word)
  | 0 => (s, c, none)
  | n + 1 => match if c.failed.isSome then none else c.plan with
    | none | some [] => (s, c, none)
    | some ((a, bs) :: rest) =>
      match s.engineWrite ac c.agent a (Span.clean bs c.time) with
      | .error e => (s, c, some e)
      | .ok w =>
        let c := { c with time := w.time, plan := some rest }
        w.s.writeCollective ac (if w.lost then c.fail Cause.poison.code else c) n

/-- A member goes on with at most `n` of its writes; a fault is offered. -/
def State.moveCollective (s : State) (c : Collective) (inputs : List (List Nat)) (n : Nat) : State × Option Collective :=
  match s.planCollective c inputs with
  | .error e => (s.offerCollective c e, none)
  | .ok none => (s, none)
  | .ok (some c) =>
    match s.writeCollective (s.collectiveAccessor c) c n with
    | (s, c, some e) => (s.offerCollective c e, none)
    | (s, c, none) => (s, some c)

/-- Normal completion of a member with the src of every rank: the rest of its dst, and then the completion word (R373).  Poison,
or a part that does not answer, fails it (R220, R328). -/
def State.runCollective (s : State) (c : Collective) (inputs : List (List Nat)) : State :=
  match s.moveCollective c inputs (c.dstLen + 1) with
  | (s, some c) => s.signalCollective c
  | (s, none) => s

/-- An earlier collective of the same party is incomplete (R212, R370). -/
def State.collectiveWaits (s : State) (c : Collective) : Bool :=
  s.collectives.any fun x => x.pid == c.pid && decide (x.id < c.id)

/-- COLLECTIVE_COMPLETION (R373): with the src of every rank the member's dst and its completion word; without, a member's
descriptor failed to match. -/
def execCollectiveCompletion (cmd : Nat) (inputs : Option (List (List Nat))) (s : State) : Result :=
  match s.collectives.find? fun c => c.id == cmd with
  | none => .next s
  | some c =>
    if s.collectiveWaits c then .next s
    else if c.finished then .next (if c.offer.isSome then s else s.signalCollective c)
    else match c.failed, inputs with
      | some _, _ => .next (s.signalCollective c)
      | none, none => .next (if c.allJoined then s else s.signalCollective (c.fail 0x0102))
      | none, some l => .next (if c.offer.isSome then s else s.runCollective c l)

/-- Some of a member's reads, while the src of the other ranks is not known, or of its writes, between which other agents act
(R301). -/
def State.collectiveSome (s : State) (cmd : Nat) (inputs : List (List Nat)) (n : Nat) : State :=
  match s.collectives.find? fun c => c.id == cmd with
  | none => s
  | some c =>
    if s.collectiveWaits c || c.finished || c.offer.isSome || c.failed.isSome then s
    else if inputs.isEmpty && c.plan.isNone then s.readSrc c n
    else match s.moveCollective c inputs n with
      | (s, some c) => s.putCollective c
      | (s, none) => s

end Sys2Proof.Machine
end

