-- ==== Sys2Proof/Machine/LaneMatrix.lean ====
section
/-!
DEFINITION. The matrix instructions MMA, MMAS and MMAB (R78, R79, R82 to R85, R137 to R143).
-/
namespace Sys2Proof.Machine

/-! ### Operand images (R137) -/

/-- A byte image as its 32-bit words by index. -/
abbrev Image := Nat → Nat

/-- An image held in the registers of the lanes of word `w`. -/
def LaneCtx.image (c : LaneCtx) (w base : Nat) : Image := fun i => c.reg (32 * w + i % 32) (base + i / 32)

/-- The `e`-byte element at byte `o` of an image. -/
def elemAt (im : Image) (o e : Nat) : Nat :=
  if e = 2 then im (o / 4) / 2 ^ (8 * (o % 4)) % 2 ^ 16
  else (upTo 0 (e / 4)).foldl (fun v i => v + im (o / 4 + i) * 2 ^ (32 * i)) 0

/-- The lanes and registers of accumulator element `x` of word `w`: `g` registers. -/
def accPlace (w base g x : Nat) : Nat × Nat := (32 * w + x % 32, base + g * (x / 32))

/-- The 64 accumulator elements of word `w` written to its active lanes. -/
def LaneCtx.accEntries (c : LaneCtx) (w base : Nat) (t : Ty) (d : Nat → Nat) : Table (BitVec 32) :=
  let active := c.active
  (upTo 0 32).flatMap fun l =>
    if active.getLsbD (32 * w + l) then
      [l, l + 32].flatMap fun x =>
        let p := accPlace w base t.regs x
        entriesOf (c.p.first + p.1) (c.p.b + p.2) (placeValue t (d x))
    else []

/-- The words of a mask with a set lane. -/
def LaneCtx.words (c : LaneCtx) : List Nat := (upTo 0 (c.p.width / 32)).filter fun w => maskWord c.active w != 0

/-! ### Row steps (R82, R83) -/

/-- The format of an accumulator part. -/
def accFmt (t : Ty) : Fmt := if t = .f64 ∨ t = .c64 then .f64 else .f32
/-- The accumulator's type. -/
def accTy (t : Ty) : Ty := if t = .f64 ∨ t.isC then t else .f32

/-- One FMA of R83: a NaN operand by the rule of real operations (R74), its payload in the accumulator format. -/
def fmaStep (fa ft : Fmt) (m : Rounding) (x y acc : Nat) : Nat :=
  if ft.isNaN x then fa.convertNaN ft x
  else if ft.isNaN y then fa.convertNaN ft y
  else if fa.isNaN acc then fa.quiet acc
  else fa.round m (sumTerms m [(ft.value x).mul (ft.value y), fa.value acc])

/-- The terms of one real row step onto an accumulator. -/
def realStep (t : Ty) (m : Rounding) (nvr : Nat) (terms : List (Nat × Nat)) (acc : Nat) : Nat :=
  let fa := accFmt t
  if nvr = 1 then terms.foldl (fun acc p => fmaStep fa t.fmt m p.1 p.2 acc) acc
  else fa.round m (sumTerms m (fa.value acc :: terms.map fun p => (t.fmt.value p.1).mul (t.fmt.value p.2)))

/-- The terms of one complex row step onto an accumulator.  Under nvr 1 the closing subtraction and addition take a NaN as real
operations do (R74), which R83 and R138 say of the FMA steps alone (log 71). -/
def complexStep (t : Ty) (m : Rounding) (nvr : Nat) (terms : List (Nat × Nat)) (acc : Nat) : Nat :=
  let f := t.fmt
  if nvr = 1 then
    let chain (pa pb : Fmt → Nat → Nat) (start : Nat) : Nat :=
      terms.foldl (fun r p => fmaStep f f m (pa f p.1) (pb f p.2) r) start
    let rr := chain rePart rePart (rePart f acc)
    let ii := chain imPart imPart 0
    let ri := chain rePart imPart (imPart f acc)
    let ir := chain imPart rePart 0
    pairOf f (f.sub m rr ii) (f.add m ri ir)
  else
    let v (x : Nat) : FVal := f.value x
    let re := terms.flatMap fun p =>
      [(v (rePart f p.1)).mul (v (rePart f p.2)), ((v (imPart f p.1)).mul (v (imPart f p.2))).neg]
    let im := terms.flatMap fun p =>
      [(v (rePart f p.1)).mul (v (imPart f p.2)), (v (imPart f p.1)).mul (v (rePart f p.2))]
    pairOf f (roundTerms f m (v (rePart f acc) :: re)) (roundTerms f m (v (imPart f acc) :: im))

def rowStep (t : Ty) (m : Rounding) (nvr : Nat) (terms : List (Nat × Nat)) (acc : Nat) : Nat :=
  if t.isC then complexStep t m nvr terms acc else realStep t m nvr terms acc

/-- An element conjugated as read: the sign of its imaginary part inverted, a NaN's too (R138; log 71). -/
def conjIf (c : Bool) (t : Ty) (x : Nat) : Nat := if c then x ^^^ 2 ^ (2 * t.fmt.bits - 1) else x

/-! ### Operands in the cluster scratchpad (R139, R140) -/

/-- What a word of a matrix operation reads, with the places of its scratchpad reads and the causes that denied some. -/
structure Words where
  a : Image
  b : Image
  places : List Place := []
  denied : List (Deny × Word) := []

/-- Eight bytes of a row: where they are; a base, pitch or tile pitch that is no multiple of 16 misaligns each read. -/
def LaneCtx.readChunk (c : LaneCtx) (aligned : Bool) (addr : Word) : Except Deny Place :=
  match c.s.access (c.accessor 0) addr 8 1 .read with
  | .error d => .error (if !aligned && d.cause == .poison then { cause := .alignment } else d)
  | .ok p =>
    if !aligned then .error { cause := .alignment }
    else if c.s.unreachable p then .error { cause := .poison }
    else .ok p

/-- What the rows of an operand in the cluster scratchpad come to. -/
structure Rows where
  words : List Nat
  places : List Place
  denied : List (Deny × Word)

/-- One read event of a row: eight bytes at an address, whose operands are aligned or not; `key` numbers it within its
instruction. -/
structure RowRead where
  key : Nat
  addr : Word
  aligned : Bool

/-- The read events of an operand in the cluster scratchpad for word `w`: eight rows of `n` bytes.  `side` is 0 for the first
operand, 1 for the second. -/
def LaneCtx.rowReads (c : LaneCtx) (w side : Nat) (code : BitVec 8) (n : Nat) : List RowRead :=
  let r := code.toNat - 0x80
  let v := c.b.reg r
  let b0 := v % 2 ^ 32
  let rp := v / 2 ^ 32
  let tp := c.b.reg (r + 1) % 2 ^ 32
  (upTo 0 8).flatMap fun i => (upTo 0 (n / 8)).map fun k =>
    { key := ((2 * w + side) * 8 + i) * 16 + k
      addr := BitVec.ofNat 64 (0xFFFD * 2 ^ 48 + b0 + w * tp + i * rp + 8 * k)
      aligned := b0 % 16 == 0 && rp % 16 == 0 && tp % 16 == 0 }

/-- Rows of an operand for word `w`, those read before (R301) as they were. -/
def LaneCtx.scratchImage (c : LaneCtx) (w side : Nat) (code : BitVec 8) (n : Nat) : Rows :=
  (c.rowReads w side code n).foldl (fun acc e =>
    match c.part.rows.find? fun x => x.1 == e.key with
    | some x => { acc with words := acc.words ++ [x.2 % 2 ^ 32, x.2 / 2 ^ 32] }
    | none => match c.readChunk e.aligned e.addr with
      | .ok p =>
        let x := c.s.valueAt p 8
        { acc with words := acc.words ++ [x % 2 ^ 32, x / 2 ^ 32], places := acc.places ++ [p] }
      | .error d => { acc with words := acc.words ++ [0, 0], denied := acc.denied ++ [(d, e.addr)] })
    { words := [], places := [], denied := [] }

/-- An operand of word `w`, from registers or from the scratchpad in rows of `n` bytes. -/
def LaneCtx.operand (c : LaneCtx) (w side : Nat) (scratch : Bool) (code : BitVec 8) (n : Nat) : Image × Rows :=
  if scratch then
    let r := c.scratchImage w side code n
    (fun i => (r.words[i]?).getD 0, r)
  else (c.image w code.toNat, { words := [], places := [], denied := [] })

/-- The two operands of word `w` of MMA and MMAS. -/
def LaneCtx.operands (c : LaneCtx) (w na nb : Nat) : Words :=
  let a := c.operand w 0 (c.f.imm.getLsbD 3) c.f.a na
  let b := c.operand w 1 (c.f.imm.getLsbD 4) c.f.b nb
  { a := a.1, b := b.1, places := a.2.places ++ b.2.places, denied := a.2.denied ++ b.2.denied }

/-- The row reads of MMA and MMAS. -/
def LaneCtx.allRows (c : LaneCtx) (na nb : Nat) : List RowRead :=
  c.words.flatMap fun w =>
    (if c.f.imm.getLsbD 3 then c.rowReads w 0 c.f.a na else []) ++ (if c.f.imm.getLsbD 4 then c.rowReads w 1 c.f.b nb else [])

/-- Some of the row reads of MMA or MMAS at the head of the queue, from number `from_` on (R301). -/
def State.rowsSome (s : State) (op : LaneOp) (f : LaneF) (na nb from_ n : Nat) : State :=
  s.someEvents op f (fun _ => .ok []) fun c r =>
    (((c.allRows na nb).filter fun e => decide (from_ ≤ e.key) && !r.rows.any fun x => x.1 == e.key).take n).foldl
      (fun r e => match c.readChunk e.aligned e.addr with
        | .ok p => (r.1.partyRead p 8, { r.2 with rows := r.2.rows ++ [(e.key, r.1.valueAt p 8)] })
        | .error _ => r)
      (c.s, r)

/-- The first cause of a word's reads in the order of R150. -/
def firstCause (l : List (Deny × Word)) : Option (Deny × Word) :=
  (reported (l.map fun e => (0, e.1, e.2))).map fun e => e.2

/-- What a word of a matrix instruction adds: its accumulator elements `d`, or, where a read was denied, the cause of its active
lanes (R140).  The reads are ordinary accesses of the party. -/
def LaneAcc.word (acc : LaneAcc) (c : LaneCtx) (w base : Nat) (t : Ty) (r : Words) (d : Nat → Nat) : LaneAcc :=
  let lanes := (upTo (32 * w) 32).filter fun l => c.active.getLsbD l
  let acc := { acc with s := r.places.foldl (fun s p => s.partyRead p 8) acc.s }
  match firstCause r.denied with
  | some e =>
    lanes.foldl (fun acc l => acc.fault l e.1 e.2) { acc with s := acc.s.sawPoison (c.accessor 0) e.1 e.2 }
  | none => { acc with entries := acc.entries ++ c.accEntries w base t d
                       ends := acc.ends ++ lanes.map fun l => (l, LaneEnd.ok) }

/-- A matrix instruction over the words of its mask: `d` gives the accumulator elements of a word.  With every read well it
writes neither `ls` nor `st`, in its scratchpad forms too (R140; log 71). -/
def runMatrix (s : State) (op : LaneOp) (f : LaneF) (t : Ty) (base : Nat)
    (read : LaneCtx → Nat → Words) (d : LaneCtx → Nat → Words → Nat → Nat) : Result :=
  let p := s.party
  match p.queue with
  | [] => hold s
  | b :: _ =>
    if p.laneFrozen then hold s
    else if (op.check f).isSome || !op.inWindow f (s.home p).header.window then .next (s.illegalLane b)
    else if !p.flagsAdmit f then hold s
    else
      let c := s.laneCtx b op f
      let acc := c.words.foldl (fun acc w =>
        let r := read c w
        acc.word c w base t r (d c w r))
        c.start
      if acc.denied.isEmpty && p.redo.isNone then
        .next { acc.s with party := { c with p := acc.s.party }.finish { entries := acc.entries, mask := none } }
      else c.conclude acc

/-! ### MMA (R138) -/

/-- An accumulator element as the instruction reads it. -/
def LaneCtx.accIn (c : LaneCtx) (w : Nat) (code : BitVec 8) (t : Ty) (x : Nat) : Nat :=
  if code.toNat = 0xC0 then 0
  else
    let p := accPlace w code.toNat t.regs x
    c.regs p.1 p.2 t.regs

/-- MMA (R138). -/
def execMma (f : LaneF) (s : State) : Result :=
  runMatrix s .mma f (accTy f.ty) f.dst.toNat
    (fun c w => c.operands w 48 48)
    fun c w r x =>
      let e := f.ty.bytes
      let terms := (upTo 0 (48 / e)).map fun k =>
        (conjIf (f.imm.getLsbD 5) f.ty (elemAt r.a (x / 8 * 48 + k * e) e),
         conjIf (f.imm.getLsbD 6) f.ty (elemAt r.b (x % 8 * 48 + k * e) e))
      rowStep f.ty c.mode c.nvr terms (c.accIn w f.c (accTy f.ty) x)

/-! ### MMAS (R84, R141) -/

/-- The logical positions of the two kept values of a group (R141). -/
def keptPair (nibble g : Nat) : Nat × Nat := (4 * g + nibble % 4, 4 * g + nibble / 4 % 4)

/-- The kept terms of some groups in ascending logical k, the first value of a group first where the two meet. -/
def keptTerms {α : Type} (nibble : Nat → Nat) (val : (u k : Nat) → α) (groups : List Nat) : List α :=
  groups.flatMap fun g =>
    let p := keptPair (nibble g) g
    let t0 := val (2 * g) p.1
    let t1 := val (2 * g + 1) p.2
    if p.2 < p.1 then [t1, t0] else [t0, t1]

/-- MMAS (R141). -/
def execMmas (f : LaneF) (s : State) : Result :=
  runMatrix s .mmas f .f32 f.dst.toNat
    (fun c w => c.operands w 48 96)
    fun c w r x =>
      let vm := f.imm.toNat / 2 ^ 8 % 128
      let sel := (f.imm.getLsbD 5).toNat
      let i := x / 8
      let nibble (g : Nat) : Nat :=
        let t := 48 * i + 4 * g
        c.reg (32 * w + t / 16) vm / 2 ^ (16 * sel + t % 16) % 16
      let val (u k : Nat) : Nat × Nat := (elemAt r.a (i * 48 + u * 2) 2, elemAt r.b (x % 8 * 96 + k * 2) 2)
      let low := keptTerms nibble val (upTo 0 6)
      let high := keptTerms nibble val (upTo 6 6)
      rowStep f.ty c.mode c.nvr high (rowStep f.ty c.mode c.nvr low (c.accIn w f.c .f32 x))

/-! ### MMAB (R85, R142, R143) -/

/-- Mantissas of a 48-byte row by width (R78). -/
def mantissas (w : Nat) : Nat := 384 / w

/-- Row `i` of an image as a 384-bit string. -/
def rowBits (im : Image) (i : Nat) : Nat := elemAt im (48 * i) 48

/-- Mantissa `k` of a row (R78). -/
def mantissa (row w k : Nat) : Int := signedOf w (row / 2 ^ (w * k))

/-- One output of a block-floating-point segment: the accumulator and the exact scaled sum, rounded once (R85).  A sum of zero
counts as +0, whatever the signs of its products (log 71). -/
def blockStep (sum : Int) (ea eb wa wb : Nat) (acc : Nat) : Nat :=
  if ea = 255 ∨ eb = 255 ∨ Fmt.f32.isNaN acc then Fmt.f32.defaultNaN
  else if Fmt.f32.isInf acc then acc
  else
    let p : FVal := .fin (decide (sum < 0)) sum.natAbs ((ea : Int) + eb - 254 - (wa - 1) - (wb - 1))
    Fmt.f32.round .rn (sumTerms .rn [Fmt.f32.value acc, p])

/-- MMAB (R142, R143). -/
def execMmab (f : LaneF) (s : State) : Result :=
  runMatrix s .mmab f .f32 f.dst.toNat
    (fun c w => { a := c.image w f.a.toNat, b := c.image w f.b.toNat })
    fun c w r x =>
      let i := x / 8
      let j := x % 8
      let wa := f.imm.toNat % 8 + 2
      let wb := f.imm.toNat / 8 % 8 + 2
      let k := Nat.min (mantissas wa) (mantissas wb)
      let ks := k / 4 * 4
      let ra := rowBits r.a i
      let rb := rowBits r.b j
      let nibble (g : Nat) : Nat :=
        let t := i * ks + 4 * g
        c.reg (32 * w + t % 1024 / 32) (f.a.toNat + 4 + t / 1024) / 2 ^ (t % 32) % 16
      let products : List Int :=
        if f.imm.getLsbD 6 then
          keptTerms nibble (fun u q => mantissa ra wa u * mantissa rb wb q) (upTo 0 (ks / 4))
        else (upTo 0 k).map fun q => mantissa ra wa q * mantissa rb wb q
      let sum := products.foldl (· + ·) 0
      blockStep sum (c.reg (32 * w + i) (f.a.toNat + 3) % 256) (c.reg (32 * w + j) (f.b.toNat + 3) % 256) wa wb
        (c.accIn w f.c .f32 x)

end Sys2Proof.Machine
end

