-- ==== Sys2Proof/Machine/TileNum.lean ====
section
/-!
DEFINITION. The arithmetic of tiles: exact elements, factor work, dense sums and products, factorisation and solves (R227,
R237, R238, R246 to R254).  Matrices are flat and column-major; an element is a bit pattern of its type.
-/
namespace Sys2Proof.Machine

/-! ### Types and elements -/

/-- The element type of a format number (R227, R228). -/
def tileTy : Nat → Ty
  | 0 => .f64
  | 1 => .c64
  | 2 => .f32
  | 3 => .c32
  | _ => .bf16

/-- The type of factor work (R238). -/
def wideTy (t : Ty) : Ty := if t.isC then .c64 else .f64
/-- The accumulator's type, and the working format of R250. -/
def workTy (t : Ty) : Ty := if t = .bf16 then .f32 else t
/-- Elements on a side of a shape number. -/
def tileDim (shape : Nat) : Nat := 16 * 2 ^ shape

/-- An element converted to another type of its domain, per part in .rn (R77). -/
def recast (dst src : Ty) (x : Nat) : Nat := cvtElem dst src .rn false x
/-- The conjugate; the identity on real types. -/
def conjOf (t : Ty) (x : Nat) : Nat := if t.isC then conjIf true t x else x
/-- The exact negative, part by part. -/
def negOf (t : Ty) (x : Nat) : Nat := if t.isC then partwise t.fmt t.fmt.flip x else t.fmt.flip x
/-- 1 and the default NaN. -/
def oneOf (t : Ty) : Nat := t.fmt.bias * 2 ^ t.fmt.frac
def nanOf (t : Ty) : Nat := if t.isC then complexNaN t.fmt else t.fmt.defaultNaN

/-- The exact terms of a value, part by part; a real value has no imaginary terms. -/
structure Terms where
  re : List FVal
  im : List FVal

def Terms.none : Terms := { re := [], im := [] }
def Terms.add (a b : Terms) : Terms := { re := a.re ++ b.re, im := a.im ++ b.im }
def Terms.neg (a : Terms) : Terms := { re := a.re.map FVal.neg, im := a.im.map FVal.neg }

/-- One value as a single term. -/
def elemTerms (t : Ty) (x : Nat) : Terms :=
  if t.isC then { re := [t.fmt.value (rePart t.fmt x)], im := [t.fmt.value (imPart t.fmt x)] }
  else { re := [t.fmt.value x], im := [] }

/-- The terms of a product. -/
def prodTerms (t : Ty) (x y : Nat) : Terms :=
  let v (n : Nat) : FVal := t.fmt.value n
  if t.isC then
    let f := t.fmt
    { re := [(v (rePart f x)).mul (v (rePart f y)), ((v (imPart f x)).mul (v (imPart f y))).neg]
      im := [(v (rePart f x)).mul (v (imPart f y)), (v (imPart f x)).mul (v (rePart f y))] }
  else { re := [(v x).mul (v y)], im := [] }

/-- One rounding per part. -/
def roundElem (t : Ty) (ts : Terms) : Nat :=
  if t.isC then pairOf t.fmt (roundTerms t.fmt .rn ts.re) (roundTerms t.fmt .rn ts.im) else roundTerms t.fmt .rn ts.re

/-! ### Matrices -/

/-- Element (i, j) of a flat matrix with `m` rows. -/
def entry (a : Array Nat) (m i j : Nat) : Nat := a.getD (j * m + i) 0

/-- The matrix of `m` rows and `n` columns given by its elements. -/
def tabulate (m n : Nat) (f : Nat → Nat → Nat) : List Nat := (upTo 0 n).flatMap fun j => (upTo 0 m).map fun i => f i j

/-- The conjugate transpose of a matrix of `m` rows and `n` columns. -/
def adjoint (t : Ty) (m n : Nat) (a : List Nat) : List Nat :=
  let a := a.toArray
  tabulate n m fun i j => conjOf t (entry a m j i)

/-- The identity. -/
def identity (t : Ty) (m : Nat) : List Nat := tabulate m m fun i j => if i = j then oneOf t else 0

/-- A tile with its storage in arrays. -/
structure Tile where
  kind : Nat
  rank : Nat
  a : Array Nat         -- dense elements, or U
  b : Array Nat         -- V

def TileVal.tile : TileVal → Tile
  | .zero => { kind := 0, rank := 0, a := #[], b := #[] }
  | .dense e => { kind := 1, rank := 0, a := e.toArray, b := #[] }
  | .low r u v => { kind := 2, rank := r, a := u.toArray, b := v.toArray }

/-- The exact element (i, j) of a tile as terms; a zero tile contributes none (R227). -/
def Tile.terms (x : Tile) (t : Ty) (m i j : Nat) : Terms :=
  if x.kind = 0 then Terms.none
  else if x.kind = 1 then elemTerms t (entry x.a m i j)
  else (upTo 0 x.rank).foldl (fun ts k => ts.add (prodTerms t (entry x.a m i k) (conjOf t (entry x.b m j k)))) Terms.none

/-- A tile as a dense matrix of type `w`: a dense one widened exactly, another rounded once from its exact elements. -/
def TileVal.expand (v : TileVal) (t w : Ty) (m : Nat) : List Nat :=
  match v with
  | .dense e => e.map (recast w t)
  | _ =>
    let x := v.tile
    tabulate m m fun i j => roundElem w (x.terms t m i j)

/-- A conjugate transpose, exact (R237). -/
def TileVal.op (v : TileVal) (h : Bool) (t : Ty) (m : Nat) : TileVal :=
  if !h then v
  else match v with
    | .zero => .zero
    | .dense e => .dense (adjoint t m m e)
    | .low r u w => .low r w u

/-- A tile widened to the type of factor work. -/
def TileVal.recast (v : TileVal) (dst src : Ty) : TileVal :=
  match v with
  | .zero => .zero
  | .dense e => .dense (e.map (Machine.recast dst src))
  | .low r u w => .low r (u.map (Machine.recast dst src)) (w.map (Machine.recast dst src))

/-! ### Row steps (R82, R83, R238) -/

/-- Row steps of `k` products each, an absent accumulator contributing no term. -/
def chainSteps (t : Ty) (k : Nat) : (fuel : Nat) → List (Nat × Nat) → Option Nat → Option Nat
  | 0, _, acc => acc
  | n + 1, ps, acc =>
    if ps.isEmpty then acc
    else
      let start := (acc.map (elemTerms t)).getD Terms.none
      chainSteps t k n (ps.drop k)
        (some (roundElem t ((ps.take k).foldl (fun ts p => ts.add (prodTerms t p.1 p.2)) start)))

/-- One real chain of R83 on some parts of the products, with the special values of multi-term sums. -/
def chainParts (f : Fmt) (x y : Nat → Nat) (ps : List (Nat × Nat)) (acc : Option Nat) : Nat :=
  (ps.foldl (fun (acc : Option Nat) p =>
    some (roundTerms f .rn ((f.value (x p.1)).mul (f.value (y p.2)) :: (acc.map f.value).toList))) acc).getD 0

/-- An element of a product: row steps of depth `k` under `nvr` 2, chains of single products under 1. -/
def chain (t : Ty) (k nvr : Nat) (ps : List (Nat × Nat)) (acc : Option Nat) : Nat :=
  let f := t.fmt
  if nvr ≠ 1 then (chainSteps t k ps.length ps acc).getD 0
  else if t.isC then
    let rr := chainParts f (rePart f) (rePart f) ps (acc.map (rePart f))
    let ii := chainParts f (imPart f) (imPart f) ps (some 0)
    let ri := chainParts f (rePart f) (imPart f) ps (acc.map (imPart f))
    let ir := chainParts f (imPart f) (rePart f) ps (some 0)
    pairOf f (roundTerms f .rn [f.value rr, (f.value ii).neg]) (roundTerms f .rn [f.value ri, f.value ir])
  else chainParts f id id ps acc

/-- Factor work: an `m` × `p` matrix times a `p` × `n` one, from +0. -/
def factorProduct (t : Ty) (nvr m p n : Nat) (a b : List Nat) : List Nat :=
  let a := a.toArray
  let b := b.toArray
  tabulate m n fun i j => chain t (48 / t.bytes) nvr ((upTo 0 p).map fun q => (entry a m i q, entry b p q j)) (some 0)

/-! ### Results -/

/-- What a tile operation forms: a tile, or factors that pass through Flowstone. -/
inductive Formed where
  | tile (v : TileVal)
  | factors (u v : List Nat)

/-- A tile that passes through Flowstone unless it is zero. -/
def Formed.ofLow (t : Ty) : TileVal → Formed
  | .low _ u v => .factors (u.map (recast (wideTy t) t)) (v.map (recast (wideTy t) t))
  | v => .tile v

/-- TLADD: A + s·B (R237, R238, R247). -/
def tileAdd (t : Ty) (m : Nat) (neg : Bool) (a b : TileVal) : Formed :=
  let w := wideTy t
  let scaled (u : List Nat) : List Nat := u.map fun x => let y := recast w t x; if neg then negOf w y else y
  match a, b with
  | .dense _, _ | _, .dense _ =>
    let x := a.tile
    let y := b.tile
    .tile (.dense (tabulate m m fun i j =>
      let ts := y.terms t m i j
      roundElem t ((x.terms t m i j).add (if neg then ts.neg else ts))))
  | .zero, .zero => .tile .zero
  | .zero, .low _ u v => .factors (scaled u) (v.map (recast w t))
  | .low _ u v, .zero => .factors (u.map (recast w t)) (v.map (recast w t))
  | .low _ u v, .low _ u' v' => .factors (u.map (recast w t) ++ scaled u') ((v ++ v').map (recast w t))

/-- The product of two tiles of which one at least is low-rank and none is zero: its factors (R237, R238). -/
def lowProduct (t : Ty) (m nvr : Nat) (a b : TileVal) : List Nat × List Nat :=
  let w := wideTy t
  match a.recast w t, b.recast w t with
  | .dense e, .low r u v => (factorProduct w nvr m m r e u, v)
  | .low r u v, .dense e => (u, factorProduct w nvr m m r (adjoint w m m e) v)
  | .low ra u v, .low rb u' v' =>
    let inner := factorProduct w nvr ra m rb (adjoint w m ra v) u'
    if ra ≤ rb then (u, factorProduct w nvr m rb ra v' (adjoint w ra rb inner))
    else (factorProduct w nvr m ra rb u inner, v')
  | _, _ => ([], [])

/-- The dense product s·A·B with accumulator input C (R238). -/
def denseProduct (t : Ty) (m nvr : Nat) (neg : Bool) (a b : List Nat) (c : TileVal) : List Nat :=
  let w := workTy t
  let a := (a.map fun x => let y := recast w t x; if neg then negOf w y else y).toArray
  let b := (b.map (recast w t)).toArray
  let acc : Option (Array Nat) := match c with
    | .zero => none
    | _ => some (c.expand t w m).toArray
  tabulate m m fun i j =>
    recast t w (chain w (48 / t.bytes) nvr ((upTo 0 m).map fun q => (entry a m i q, entry b m q j))
      (acc.map fun x => entry x m i j))

/-- TLMUL: C + s·op(A)·op(B) (R237, R238, R248). -/
def tileMul (t : Ty) (m nvr : Nat) (neg : Bool) (a b c : TileVal) : Formed :=
  match a, b with
  | .zero, _ | _, .zero => match c with
    | .dense e =>
      let x := (TileVal.dense e).tile
      .tile (.dense (tabulate m m fun i j => roundElem t (x.terms t m i j)))
    | _ => Formed.ofLow t c
  | .dense x, .dense y => .tile (.dense (denseProduct t m nvr neg x y c))
  | _, _ =>
    let w := wideTy t
    let p := lowProduct t m nvr a b
    let u := if neg then p.1.map (negOf w) else p.1
    match c with
    | .zero => .factors u p.2
    | .dense _ =>
      let x := c.tile
      let y := (TileVal.low (u.length / m) u p.2).tile
      .tile (.dense (tabulate m m fun i j => roundElem t ((x.terms t m i j).add (y.terms w m i j))))
    | .low _ cu cv => .factors (cu.map (recast w t) ++ u) (cv.map (recast w t) ++ p.2)

/-! ### Factorisation and solves (R250 to R252) -/

/-- The exact numerator a − Σ x·y. -/
def numerator (t : Ty) (a : Nat) (ps : List (Nat × Nat)) : Terms :=
  ps.foldl (fun ts p => ts.add (prodTerms t p.1 p.2).neg) (elemTerms t a)

/-- The exact quotient of a numerator by an element, rounded once (R86, R124, R250). -/
def quotientElem (t : Ty) (num : Terms) (d : Nat) : Nat :=
  let f := t.fmt
  if t.isC then
    complexDivVal f .rn (sumTerms .rn num.re) (sumTerms .rn num.im) (f.value (rePart f d)) (f.value (imPart f d))
  else f.divVal .rn (sumTerms .rn num.re) (f.value d)

/-- Row and column `i` of the factorisation. -/
def luStep (t : Ty) (m i : Nat) (a : Array Nat) : Array Nat :=
  let a := (upTo i (m - i)).foldl (fun (a : Array Nat) j =>
    a.setIfInBounds (j * m + i)
      (roundElem t (numerator t (entry a m i j) ((upTo 0 i).map fun q => (entry a m i q, entry a m q j))))) a
  (upTo (i + 1) (m - i - 1)).foldl (fun (a : Array Nat) j =>
    a.setIfInBounds (i * m + j)
      (quotientElem t (numerator t (entry a m j i) ((upTo 0 i).map fun q => (entry a m j q, entry a m q i))) (entry a m i i))) a

/-- The factors of X without pivoting: u on and above the diagonal, l below (R250). -/
def factorise (t : Ty) (m : Nat) (x : List Nat) : Array Nat := (upTo 0 m).foldl (fun a i => luStep t m i a) x.toArray

/-- One column solved with a triangle, whose diagonal is 1 where `unit` (R251). -/
def solveColumn (t : Ty) (m : Nat) (tri : Array Nat) (upper unit : Bool) (b : List Nat) : List Nat :=
  let order := if upper then (upTo 0 m).reverse else upTo 0 m
  (order.foldl (fun (x : Array Nat) i =>
    let qs := if upper then upTo (i + 1) (m - i - 1) else upTo 0 i
    let num := numerator t (x.getD i 0) (qs.map fun q => (entry tri m i q, x.getD q 0))
    x.setIfInBounds i (quotientElem t num (if unit then oneOf t else entry tri m i i))) b.toArray).toList

/-- The left solve of a matrix of `n` columns. -/
def solve (t : Ty) (m n : Nat) (tri : Array Nat) (upper unit : Bool) (b : List Nat) : List Nat :=
  (upTo 0 n).flatMap fun j => solveColumn t m tri upper unit ((b.drop (j * m)).take m)

/-- TLTRS (R237, R251): the solve of B with the triangle of T, from the right where `right`. -/
def tileSolve (t : Ty) (m : Nat) (right upper unit : Bool) (tri b : TileVal) : Formed :=
  match b with
  | .zero => .tile .zero
  | .dense e =>
    let w := workTy t
    let x := e.map (recast w t)
    let a := tri.expand t w m
    let r :=
      if right then adjoint w m m (solve w m m (adjoint w m m a).toArray (!upper) unit (adjoint w m m x))
      else solve w m m a.toArray upper unit x
    .tile (.dense (r.map (recast t w)))
  | .low n u v =>
    let w := wideTy t
    let a := tri.expand t w m
    let u := u.map (recast w t)
    let v := v.map (recast w t)
    if right then .factors u (solve w m n (adjoint w m m a).toArray (!upper) unit v)
    else .factors (solve w m n a.toArray upper unit u) v

/-- TLLU (R250). -/
def tileLu (t : Ty) (m : Nat) (x : TileVal) : TileVal :=
  let w := workTy t
  .dense ((factorise w m (x.expand t w m)).toList.map (recast t w))

/-- TLINV (R252). -/
def tileInverse (t : Ty) (m : Nat) (x : TileVal) : TileVal :=
  let w := workTy t
  let a := factorise w m (x.expand t w m)
  .dense ((solve w m m a true false (solve w m m a false true (identity w m))).map (recast t w))

/-- TLNORM: the rounded root of the exact sum of squares (R254). -/
def tileNorm (t : Ty) (m : Nat) (v : TileVal) : Nat :=
  let x := v.tile
  let square (ts : List FVal) : List FVal := if ts.isEmpty then [] else let s := sumTerms .rn ts; [s.mul s]
  Fmt.f64.sqrtVal .rn (sumTerms .rn ((upTo 0 m).flatMap fun j => (upTo 0 m).flatMap fun i =>
    let ts := x.terms t m i j
    square ts.re ++ square ts.im))

/-- The bits that TLSTORE writes for a tile, column by column (R246). -/
def tileImage (t : Ty) (m : Nat) (conj : Bool) (v : TileVal) : List Nat :=
  let e := match v with | .dense e => e | _ => v.expand t t m
  if conj then e.map (conjOf t) else e

end Sys2Proof.Machine
end

