-- ==== Sys2Proof/Machine/Flowstone.lean ====
section
/-!
DEFINITION. Flowstone: recompression of a pair of factors, with rank rounding and the storage limit (R265 to R276).
-/
namespace Sys2Proof.Machine

/-! ### Values (R266, R267) -/

/-- A binary64 value or pair, exact; the imaginary part of a real value is not used. -/
abbrev Cx := FVal × FVal

def FVal.zero : FVal := .fin false 0 0
def Cx.zero : Cx := (FVal.zero, FVal.zero)
def Cx.one : Cx := (.fin false 1 0, FVal.zero)

/-- The value of a binary64 pattern; none where it is a NaN or infinite (R267). -/
def finite (x : Nat) : Option FVal :=
  match Fmt.f64.value x with
  | .fin s m e => some (.fin s m e)
  | _ => none

/-- rd: the exact sum of some terms, rounded once. -/
def rd (ts : List FVal) : Option FVal := finite (roundTerms .f64 .rn ts)
/-- rd of the root of an exact sum. -/
def rdRoot (ts : List FVal) : Option FVal := finite (Fmt.f64.sqrtVal .rn (sumTerms .rn ts))
/-- rd of an exact quotient. -/
def rdQuotient (a b : FVal) : Option FVal := finite (Fmt.f64.divVal .rn a b)

/-- rd per part. -/
def rdPair (cx : Bool) (ts : Terms) : Option Cx := do
  let re ← rd ts.re
  let im ← if cx then rd ts.im else some FVal.zero
  pure (re, im)

def termsOf (cx : Bool) (x : Cx) : Terms := { re := [x.1], im := if cx then [x.2] else [] }

/-- The exact terms of a product, the first factor conjugated where `conj`. -/
def timesTerms (cx conj : Bool) (x y : Cx) : Terms :=
  if cx then
    let xi := if conj then x.2.neg else x.2
    { re := [x.1.mul y.1, (xi.mul y.2).neg], im := [x.1.mul y.2, xi.mul y.1] }
  else { re := [x.1.mul y.1], im := [] }

/-- Terms scaled by a real value. -/
def Terms.scale (ts : Terms) (k : FVal) : Terms := { re := ts.re.map k.mul, im := ts.im.map k.mul }

/-- The terms of sq(x). -/
def squares (cx : Bool) (x : List Cx) : List FVal :=
  x.flatMap fun c => if cx then [c.1.mul c.1, c.2.mul c.2] else [c.1.mul c.1]

def nrm (cx : Bool) (x : List Cx) : Option FVal := rdRoot (squares cx x)

def dot (cx : Bool) (x y : List Cx) : Option Cx :=
  rdPair cx ((x.zip y).foldl (fun ts p => ts.add (timesTerms cx true p.1 p.2)) Terms.none)

/-- x ≤ y of finite values. -/
def FVal.le (x y : FVal) : Bool :=
  match sumTerms .rn [y, x.neg] with
  | .fin s m _ => !s || m == 0
  | _ => false

/-! ### Orthogonal bases (R268 to R270) -/

/-- A reflector: v and w, or none. -/
abbrev Reflector := Option (List Cx × FVal)

/-- A column with a reflector applied from row `j` down. -/
def reflect (cx : Bool) (v : List Cx) (w : FVal) (j : Nat) (col : List Cx) : Option (List Cx) := do
  let y := col.drop j
  let s ← dot cx v y
  let two : FVal := .fin false 1 1
  let fr ← rdQuotient (two.mul s.1) w
  let fi ← if cx then rdQuotient (two.mul s.2) w else some FVal.zero
  let r ← (y.zip v).mapM fun p => rdPair cx ((termsOf cx p.1).add (timesTerms cx false p.2 (fr, fi)).neg)
  pure (col.take j ++ r)

/-- The phase of the first element (R268, R271): ±1, or the parts divided by the modulus. -/
def phase (cx : Bool) (x : Cx) : Option Cx :=
  if x.1.isZero && (!cx || x.2.isZero) then some Cx.one
  else if !cx then some (.fin x.1.negative 1 0, FVal.zero)
  else do
    let ax ← nrm cx [x]
    let re ← rdQuotient x.1 ax
    let im ← rdQuotient x.2 ax
    pure (re, im)

/-- Householder QR from column `j` on: the columns of R below which all is zero, and the reflectors. -/
def houseQr (cx : Bool) : (n j : Nat) → List (List Cx) → Option (List (List Cx) × List Reflector)
  | n + 1, j, a :: rest => do
    let x := a.drop j
    let nx ← nrm cx x
    if nx.isZero then
      let r ← houseQr cx n (j + 1) rest
      pure (a :: r.1, none :: r.2)
    else
      let x0 := x.headD Cx.zero
      let ph ← phase cx x0
      let b ← rdPair cx ((termsOf cx ph).scale nx)
      let beta : Cx := (b.1.neg, b.2.neg)
      let v0 ← rdPair cx ((termsOf cx x0).add (termsOf cx beta).neg)
      let v := v0 :: x.drop 1
      let w ← rd (squares cx v)
      let rest ← rest.mapM (reflect cx v w j)
      let r ← houseQr cx n (j + 1) rest
      pure ((a.take j ++ beta :: List.replicate (x.length - 1) Cx.zero) :: r.1, some (v, w) :: r.2)
  | _, _, _ => some ([], [])

/-- Q applied to a vector (R269). -/
def applyQ (cx : Bool) (refl : List Reflector) (y : List Cx) : Option (List Cx) :=
  refl.zipIdx.reverse.foldlM (fun y r => match r.1 with
    | none => some y
    | some (v, w) => reflect cx v w r.2 y) y

/-- The coupling matrix by columns (R270). -/
def coupling (cx : Bool) (n : Nat) (ru rv : List (List Cx)) : Option (List (List Cx)) :=
  (upTo 0 n).mapM fun j => (upTo 0 n).mapM fun i =>
    rdPair cx ((ru.zip rv).foldl (fun ts c =>
      ts.add (timesTerms cx true ((c.2[j]?).getD Cx.zero) ((c.1[i]?).getD Cx.zero))) Terms.none)

/-! ### Singular values (R271, R272) -/

/-- A column of g with the column of vj beneath it. -/
structure Pair where
  g : List Cx
  v : List Cx
  deriving Inhabited

/-- The rotation of two columns. -/
def rotate (cx : Bool) (cs sn : FVal) (e : Cx) (x y : List Cx) : Option (List Cx × List Cx) := do
  let p ← (x.zip y).mapM fun z =>
    rdPair cx (((termsOf cx z.1).scale cs).add ((timesTerms cx true e z.2).scale sn).neg)
  let q ← (x.zip y).mapM fun z =>
    rdPair cx (((timesTerms cx false e z.1).scale sn).add ((termsOf cx z.2).scale cs))
  pure (p, q)

/-- One pair of a sweep. -/
def jacobiPair (cx : Bool) (m : Array Pair) (pq : Nat × Nat) : Option (Array Pair) := do
  let p := m.getD pq.1 default
  let q := m.getD pq.2 default
  let a ← rd (squares cx p.g)
  let b ← rd (squares cx q.g)
  let c ← dot cx p.g q.g
  if c.1.isZero && (!cx || c.2.isZero) then pure m
  else
    let e ← phase cx c
    let ac ← if cx then nrm cx [c] else some (if c.1.negative then c.1.neg else c.1)
    let two : FVal := .fin false 1 1
    match Fmt.f64.value (Fmt.f64.divVal .rn (sumTerms .rn [b, a.neg]) (two.mul ac)) with
    | .nan => none
    | .inf _ => pure m
    | zeta =>
      let below := zeta.negative && !zeta.isZero
      let mag := if zeta.negative then zeta.neg else zeta
      let one : FVal := .fin false 1 0
      let h ← rdRoot [one, zeta.mul zeta]
      let d ← rd [mag, h]
      let t ← rdQuotient (.fin below 1 0) d
      let r ← rdRoot [one, t.mul t]
      let cs ← rdQuotient one r
      let sn ← rd [cs.mul t]
      let g ← rotate cx cs sn e p.g q.g
      let v ← rotate cx cs sn e p.v q.v
      pure ((m.setIfInBounds pq.1 ⟨g.1, v.1⟩).setIfInBounds pq.2 ⟨g.2, v.2⟩)

/-- The pairs of a sweep in cyclic row order. -/
def sweepPairs (n : Nat) : List (Nat × Nat) := (upTo 0 (n - 1)).flatMap fun p => (upTo (p + 1) (n - p - 1)).map fun q => (p, q)

/-- Eight sweeps. -/
def jacobi (cx : Bool) (n : Nat) (g : List (List Cx)) : Option (List Pair) := do
  let start : List Pair := g.zipIdx.map fun c => ⟨c.1, (upTo 0 n).map fun i => if i = c.2 then Cx.one else Cx.zero⟩
  let m ← (upTo 0 8).foldlM (fun m _ => (sweepPairs n).foldlM (jacobiPair cx) m) start.toArray
  pure m.toList

/-- The columns by descending singular value, equal ones in their order. -/
def sortValues (l : List (FVal × Pair)) : List (FVal × Pair) :=
  l.foldl (fun sorted x =>
    sorted.takeWhile (fun y => x.1.le y.1) ++ (x :: sorted.dropWhile fun y => x.1.le y.1)) []

/-! ### Rank rounding (R273, R274) -/

/-- The tail sums t_0 … t_n. -/
def tailSums : List FVal → Option (List FVal)
  | [] => some [FVal.zero]
  | x :: xs => do
    let r ← tailSums xs
    let t ← rd [r.headD FVal.zero, x.mul x]
    pure (t :: r)

/-- The tolerance τ of a control word. -/
def tolerance (ctl : Nat) (t0 : FVal) : Option FVal :=
  let tol := match Fmt.f32.value (ctl % 2 ^ 31) with
    | .fin _ m e => FVal.fin false m e
    | v => v
  if bitsOf ctl 38 1 = 0 then some tol
  else do
    let fro ← rdRoot [t0]
    rd [tol.mul fro]

/-- cap_e (R240, R274). -/
def effectiveCap (ctl m : Nat) : Nat :=
  let cap := bitsOf ctl 32 6
  if cap = 0 then m / 2 else Nat.min cap (m / 2)

/-! ### The result (R272, R275, R276) -/

/-- What Flowstone hands back: a tile, the rank kept below the tolerance's, and whether R267 fixed it. -/
structure Recompressed where
  v : TileVal
  capped : Option Nat
  invalid : Bool

/-- The columns of a flat binary64 matrix as values; none where an element is a NaN or infinite. -/
def columnsOf (cx : Bool) (m : Nat) : (n : Nat) → List Nat → Option (List (List Cx))
  | 0, _ => some []
  | n + 1, l => do
    let c ← (l.take m).mapM fun x => do
      let re ← finite (if cx then rePart .f64 x else x)
      let im ← if cx then finite (imPart .f64 x) else some FVal.zero
      pure (re, im)
    let r ← columnsOf cx m n (l.drop m)
    pure (c :: r)

/-- A value narrowed to an element of the tile's format. -/
def narrow (t : Ty) (x : Cx) : Nat := roundElem t (termsOf t.isC x)

/-- Recompression of U·Vᴴ in the format `t`; `keep` holds for TLFAC of a dense tile, which keeps its own bits where it densifies, so
that its U′ and V′ are not computed (R249; log 75); `limit` is the rank that a held block can store (R276). -/
def recompress (t : Ty) (m ctl : Nat) (keep : Bool) (limit : Option Nat) (u v : List Nat) : Option Recompressed := do
  let cx := t.isC
  let n := u.length / m
  let us ← columnsOf cx m n u
  let vs ← columnsOf cx m n v
  let qu ← houseQr cx n 0 us
  let qv ← houseQr cx n 0 vs
  let g ← coupling cx n (qu.1.map fun c => c.take n) (qv.1.map fun c => c.take n)
  let pairs ← jacobi cx n g
  let sigma ← pairs.mapM fun p => nrm cx p.g
  let order := sortValues (sigma.zip pairs)
  let tails ← tailSums (order.map fun x => x.1)
  let tau ← tolerance ctl (tails.headD FVal.zero)
  let ktol := (tails.takeWhile fun x => !x.le (tau.mul tau)).length
  let dense := limit.isNone && decide (m / 2 < ktol)
  let k := Nat.min (Nat.min ktol (effectiveCap ctl m)) (limit.getD (m / 2))
  if dense && keep then pure { v := .dense (us.flatten.map (narrow t)), capped := none, invalid := false }
  else
    let pad := List.replicate (m - n) Cx.zero
    let cols := (order.take (if dense then ktol else k)).map fun x => x.2
    let u' ← cols.mapM fun p => applyQ cx qu.2 (p.g ++ pad)
    let v' ← cols.mapM fun p => applyQ cx qv.2 (p.v ++ pad)
    if dense then
      let e := (upTo 0 m).flatMap fun j => (upTo 0 m).map fun i =>
        roundElem t ((u'.zip v').foldl (fun ts c =>
          ts.add (timesTerms cx true ((c.2[j]?).getD Cx.zero) ((c.1[i]?).getD Cx.zero))) Terms.none)
      pure { v := .dense e, capped := none, invalid := false }
    else
      let w := if k = 0 then .zero else .low k (u'.flatten.map (narrow t)) (v'.flatten.map (narrow t))
      pure { v := w, capped := if k < ktol then some k else none, invalid := false }

/-- The same, a non-finite value anywhere giving the default-NaN tile (R267). -/
def flowstone (t : Ty) (m ctl : Nat) (keep : Bool) (limit : Option Nat) (u v : List Nat) : Recompressed :=
  (recompress t m ctl keep limit u v).getD { v := .dense (List.replicate (m * m) (nanOf t)), capped := none, invalid := true }

end Sys2Proof.Machine
end

