-- ==== Sys2Proof/Machine/ScalarMemory.lean ====
section
/-!
DEFINITION. Scalar loads and stores (R191).
-/
namespace Sys2Proof.Machine

/-- The address of a scalar access (R49). -/
def Party.dataAddress (p : Party) (a : Reg) (imm : BitVec 13) : Word := p.reg a + immOf imm

/-- SLD of `n` bytes, whose value is placed in sd by `f`. -/
def scalarLoad (s : State) (d a : Reg) (imm : BitVec 13) (n : Nat) (f : Nat → Word) : Result :=
  let p := s.party
  let addr := p.dataAddress a imm
  if s.holdsReg p d then hold s
  else match s.access (accessorOf (s.home p) p) addr n n .read with
    | .error e => raiseDeny s e addr
    | .ok place =>
      if s.unreachable place then raiseDeny s { cause := .poison } addr
      else
        let t := (s.noteMiss addr).partyRead place n
        .next (t.finish (t.party.setReg d (f (s.valueAt place n))))

/-- SST of the `n` low bytes of the d register. -/
def scalarStore (s : State) (d a : Reg) (imm : BitVec 13) (n : Nat) : Result :=
  let p := s.party
  let addr := p.dataAddress a imm
  match s.access (accessorOf (s.home p) p) addr n n .write with
  | .error e => raiseDeny s e addr
  | .ok place =>
    if s.unreachable place then raiseDeny s { cause := .poison } addr
    else
      let t := (s.noteMiss addr).partyStore place (toBytes n (p.reg d).toNat)
      .next (t.finish t.party)

/-- SLD.I8 (R191). -/
def execSldI8 (_k : Bool) (d a : Reg) (imm : BitVec 13) (s : State) : Result :=
  scalarLoad s d a imm 1 fun v => (BitVec.ofNat 8 v).signExtend 64

/-- SLD.N8 (R191). -/
def execSldN8 (_k : Bool) (d a : Reg) (imm : BitVec 13) (s : State) : Result :=
  scalarLoad s d a imm 1 (BitVec.ofNat 64)

/-- SLD.I16 (R191). -/
def execSldI16 (_k : Bool) (d a : Reg) (imm : BitVec 13) (s : State) : Result :=
  scalarLoad s d a imm 2 fun v => (BitVec.ofNat 16 v).signExtend 64

/-- SLD.N16 (R191). -/
def execSldN16 (_k : Bool) (d a : Reg) (imm : BitVec 13) (s : State) : Result :=
  scalarLoad s d a imm 2 (BitVec.ofNat 64)

/-- SLD.I32 (R191). -/
def execSldI32 (_k : Bool) (d a : Reg) (imm : BitVec 13) (s : State) : Result :=
  scalarLoad s d a imm 4 fun v => (BitVec.ofNat 32 v).signExtend 64

/-- SLD.N32 (R191). -/
def execSldN32 (_k : Bool) (d a : Reg) (imm : BitVec 13) (s : State) : Result :=
  scalarLoad s d a imm 4 (BitVec.ofNat 64)

/-- SLD.N64 (R191). -/
def execSldN64 (_k : Bool) (d a : Reg) (imm : BitVec 13) (s : State) : Result :=
  scalarLoad s d a imm 8 (BitVec.ofNat 64)

/-- SST.N8 (R191). -/
def execSstN8 (_k : Bool) (d a : Reg) (imm : BitVec 13) (s : State) : Result := scalarStore s d a imm 1

/-- SST.N16 (R191). -/
def execSstN16 (_k : Bool) (d a : Reg) (imm : BitVec 13) (s : State) : Result := scalarStore s d a imm 2

/-- SST.N32 (R191). -/
def execSstN32 (_k : Bool) (d a : Reg) (imm : BitVec 13) (s : State) : Result := scalarStore s d a imm 4

/-- SST.N64 (R191). -/
def execSstN64 (_k : Bool) (d a : Reg) (imm : BitVec 13) (s : State) : Result := scalarStore s d a imm 8

end Sys2Proof.Machine
end

