-- ==== Sys2Proof/Machine/Tiles.lean ====
section
/-!
DEFINITION. Tile tasks: what an engine reads and forms, Flowstone, retirement with its storage and batch status, and TLINFO
(R227 to R230, R235, R242 to R263, R277, R296).
-/
namespace Sys2Proof.Machine

/-! ### Headers (R228, R229) -/

/-- Bytes of an element of a format. -/
def elemBytes (fmt : Nat) : Nat := (tileTy fmt).bytes

/-- Bytes that a tile of a kind needs (R230). -/
def needBytes (kind rank fmt m : Nat) : Nat := if kind = 1 then m * m * elemBytes fmt else 2 * m * rank * elemBytes fmt

/-- A header read from its 64 bytes; none where it is malformed. -/
def TileHead.ofBytes (pools : Nat) (bs : List Byte) : Option TileHead :=
  let w := Machine.ofBytes (bs.take 8)
  let h : TileHead := { kind := bitsOf w 0 2, fmt := bitsOf w 2 3, shape := bitsOf w 5 2, rank := bitsOf w 8 6
                        cls := bitsOf w 16 3, pool := bitsOf w 19 3, gen := bitsOf w 32 16
                        block := BitVec.ofNat 64 (Machine.ofBytes ((bs.drop 8).take 8)) }
  let m := tileDim h.shape
  if h.kind = 3 ∨ 4 < h.fmt ∨ h.shape = 3 ∨ bitsOf w 7 1 ≠ 0 ∨ bitsOf w 14 2 ≠ 0 ∨ bitsOf w 22 10 ≠ 0 ∨
      Machine.ofBytes (bs.drop 16) ≠ 0 ∨ pools ≤ h.pool then none
  else if h.kind = 0 then if h.rank = 0 ∧ h.cls = 0 ∧ h.block = 0 then some h else none
  else if h.kind = 1 then if h.rank = 0 ∧ classFor (needBytes 1 0 h.fmt m) ≤ h.cls then some h else none
  else if h.rank = 0 ∨ m / 2 < h.rank ∨ h.cls < classFor (needBytes 2 h.rank h.fmt m) then none
  else some h

/-- The 64 bytes of a header that a task of a batch writes. -/
def TileHead.bytes (h : TileHead) (batch : Nat) : List Byte :=
  toBytes 8 (h.kind + h.fmt * 4 + h.shape * 2 ^ 5 + h.rank * 2 ^ 8 + h.cls * 2 ^ 16 + h.pool * 2 ^ 19 +
    h.gen % 2 ^ 16 * 2 ^ 32 + batch % 2 ^ 16 * 2 ^ 48) ++ (toBytes 8 h.block.toNat ++ List.replicate 48 0)

/-! ### What a task reads (R242) -/

/-- Why a task stops: an access that is offered, the status that it ends with, or, in a move that makes its reads one by one, that
it has made one, with the time after it. -/
inductive Stop where
  | offered (d : Deny) (addr : Word)
  | ended (st : Word)
  | paused (read : List (Byte × Bool)) (time : Nat)

def State.taskLaunch (s : State) (t : Task) : Launch := (s.launch? t.launch).getD Launch.blank

/-- The accessor of a task's accesses. -/
def State.taskAccessor (s : State) (t : Task) : Accessor :=
  let l := s.taskLaunch t
  { space := l.space, launch := some l, group := t.group, q := t.first }

/-- A denied access: poisoned data ends the task, every other cause is offered. -/
def stopOf (e : Deny × Word) : Stop := if e.1.cause = .poison then .ended stPoison else .offered e.1 e.2

/-- Bytes of an operand, whose address is a multiple of `align`, in events of `unit` bytes; the task comes after what it read, and
does not read again what it has read in moves before (R301, R318). -/
def State.taskRead (s : State) (t : Task) (a : Word) (n align unit : Nat) : Except Stop (Task × List Byte) :=
  let old := t.log.take n
  let rest := n - old.length
  if a.toNat % align ≠ 0 then .error (.offered { cause := .alignment } a)
  else match s.engineRead (s.taskAccessor t) t.agent (a + BitVec.ofNat 64 old.length) (if t.parts then Nat.min rest unit else rest)
      unit with
    | .error e => .error (stopOf e)
    | .ok sp =>
      if t.parts && decide (0 < rest) then .error (.paused sp.marked sp.time)
      else if sp.poisoned || old.any (fun b => b.2) then .error (.ended stPoison)
      else .ok ({ t with time := sp.time, log := t.log.drop n }, old.map (fun b => b.1) ++ sp.bytes)

def State.readHead (s : State) (t : Task) (h : Word) : Except Stop (Task × TileHead) := do
  let (t, bs) ← s.taskRead t h 64 64 64
  match TileHead.ofBytes (s.taskLaunch t).header.pools.length bs with
  | some r => pure (t, r)
  | none => .error (.ended stMalformed)

/-- Elements of `e` bytes. -/
def elements (e : Nat) : (n : Nat) → List Byte → List Nat
  | 0, _ => []
  | n + 1, bs => ofBytes (bs.take e) :: elements e n (bs.drop e)

/-- The content of a tile (R230). -/
def State.readTile (s : State) (t : Task) (h : TileHead) : Except Stop (Task × TileVal) := do
  let m := tileDim h.shape
  let e := elemBytes h.fmt
  if h.kind = 0 then pure (t, .zero)
  else if h.kind = 1 then do
    let (t, bs) ← s.taskRead t h.block (m * m * e) e (Nat.min e 8)
    pure (t, .dense (elements e (m * m) bs))
  else do
    let (t, bs) ← s.taskRead t h.block (2 * m * h.rank * e) e (Nat.min e 8)
    let l := elements e (2 * m * h.rank) bs
    pure (t, .low h.rank (l.take (m * h.rank)) (l.drop (m * h.rank)))

/-- Things read one after the other by a task. -/
def readEach {α β : Type} (g : Task → α → Except Stop (Task × β)) : Task → List α → Except Stop (Task × List β)
  | t, [] => .ok (t, [])
  | t, x :: xs => do
    let (t, y) ← g t x
    let (t, ys) ← readEach g t xs
    pure (t, y :: ys)

/-- The addresses of a memory matrix, column by column (R246). -/
def memoryAddresses (m e : Nat) (base word : Word) : List Word :=
  let pitch := word.toNat % 2 ^ 32
  (upTo 0 m).flatMap fun j => (upTo 0 m).map fun i =>
    base + BitVec.ofNat 64 (if word.getLsbD 32 then i * pitch + j * e else j * pitch + i * e)

/-- A memory matrix of a format is misaligned, or asks for a conjugate that the format does not have (R242, R244). -/
def badMemory (fmt : Nat) (base word : Word) : Bool :=
  let e := elemBytes fmt
  base.toNat % e != 0 || word.toNat % 2 ^ 32 % e != 0 || (word.getLsbD 33 && !(tileTy fmt).isC)

/-- A task once its engine has formed its result. -/
def Task.formed (t : Task) (fmt shape : Nat) : Formed → Task
  | .tile v => { t with fmt := fmt, shape := shape, stage := .result v [] [] stOk }
  | .factors u v => { t with fmt := fmt, shape := shape, stage := .flow u v }

def Task.bit (t : Task) (i : Nat) : Bool := t.ctl.getLsbD i

/-- The header of an operand; a zero register stands for the zero tile of the format and shape given. -/
def State.operandHead (s : State) (zero : Option TileHead) (t : Task) (i : Nat) : Except Stop (Task × TileHead) :=
  if t.val i = 0 then match zero with
    | some h => .ok (t, { h with kind := 0 })
    | none => .error (.ended stMalformed)
  else s.readHead t (t.val i)

/-- The headers of some operands, which agree in format and shape, with their tiles. -/
def State.readOperands (s : State) (t : Task) (places : List Nat) (zero : Option TileHead) :
    Except Stop (Task × Nat × Nat × List TileVal) := do
  let (t, hs) ← readEach (s.operandHead zero) t places
  let first := hs.headD { kind := 0, fmt := 0, shape := 0, rank := 0, cls := 0, pool := 0, gen := 0, block := 0 }
  if hs.any fun h => h.fmt != first.fmt || h.shape != first.shape then .error (.ended stMalformed)
  else do
    let (t, vs) ← readEach s.readTile t hs
    pure (t, first.fmt, first.shape, vs)

/-- What a task forms from its operands. -/
def Task.form (t : Task) (fmt m : Nat) (vs : List TileVal) : Formed :=
  let ty := tileTy fmt
  let v (i : Nat) : TileVal := (vs[i]?).getD .zero
  match t.op with
  | 4 => match v 0 with
    | .dense e => .factors (e.map (recast (wideTy ty) ty)) (identity (wideTy ty) m)
    | x => Formed.ofLow ty x
  | 5 => tileAdd ty m (t.bit 40) (v 0) (v 1)
  | 6 => tileMul ty m t.nvr (t.bit 40) ((v 0).op (t.bit 41) ty m) ((v 1).op (t.bit 42) ty m) (v 2)
  | 7 => .tile (tileLu ty m (v 0))
  | 8 => .tile (tileInverse ty m (v 0))
  | 9 => tileSolve ty m (t.bit 43) (t.bit 44) (t.bit 45) (v 0) (v 1)
  | _ => Formed.ofLow ty (v 0)

/-- The writes of one element: one, or two of eight bytes for a complex element of sixteen (R301). -/
def elementWrites (size : Nat) (a : Word) (v : Nat) : List (Nat × Nat) :=
  if size = 16 then [(a.toNat, v % 2 ^ 64), ((a + 8).toNat, v / 2 ^ 64)] else [(a.toNat, v)]

/-- TLLOAD's elements (R246). -/
def State.loadMatrix (s : State) (t : Task) (fmt : Nat) (m : Nat) : Except Stop (Task × List Nat) := do
  let e := elemBytes fmt
  let (t, l) ← readEach (fun t a => (s.taskRead t a e e (Nat.min e 8)).map fun r => (r.1, ofBytes r.2)) t
    (memoryAddresses m e (t.val 1) (t.val 2))
  pure (t, if (t.val 2).getLsbD 33 then l.map (conjOf (tileTy fmt)) else l)

/-- The work of an engine on a task: every operand is read, and the result formed (R237 to R254). -/
def State.engineWork (s : State) (t : Task) : Except Stop Task :=
  if t.op = 0 then
    if (s.taskLaunch t).header.pools.length ≤ bitsOf t.ctl.toNat 8 3 then .error (.ended stMalformed)
    else .ok (t.formed (t.ctl.toNat % 8) (bitsOf t.ctl.toNat 4 2) (.tile .zero))
  else if t.op = 3 then do
    let (t, fmt, shape, vs) ← s.readOperands t [0] none
    if badMemory fmt (t.val 1) (t.val 2) then .error (.ended stMalformed)
    else
      let m := tileDim shape
      let e := elemBytes fmt
      let image := tileImage (tileTy fmt) m ((t.val 2).getLsbD 33) (vs.headD .zero)
      pure { t with fmt := fmt, shape := shape
                    stage := .image (Nat.min e 8) (((memoryAddresses m e (t.val 1) (t.val 2)).zip image).flatMap fun w =>
                      elementWrites e w.1 w.2) }
  else if t.op = 12 then do
    let (t, fmt, shape, vs) ← s.readOperands t [1] none
    pure { t with fmt := fmt, shape := shape
                  stage := .image 8 [((t.val 0).toNat, tileNorm (tileTy fmt) (tileDim shape) (vs.headD .zero))] }
  else do
    let (t, h) ← s.readHead t (t.val 0)
    let t := { t with head := some h }
    if t.op = 1 then pure (t.formed h.fmt h.shape (.tile .zero))
    else if t.op = 2 then
      if badMemory h.fmt (t.val 1) (t.val 2) then .error (.ended stMalformed)
      else do
        let (t, l) ← s.loadMatrix t h.fmt (tileDim h.shape)
        pure (t.formed h.fmt h.shape (.tile (.dense l)))
    else if t.op = 11 then do
      let (t, from_, shape, vs) ← s.readOperands t [1] none
      let fmt := (t.val 2).toNat % 8
      if (tileTy fmt).isC != (tileTy from_).isC then .error (.ended stMalformed)
      else pure (t.formed fmt shape (.tile ((vs.headD .zero).recast (tileTy fmt) (tileTy from_))))
    else do
      let (t, fmt, shape, vs) ← s.readOperands t
        (if t.op = 5 ∨ t.op = 9 then [1, 2] else if t.op = 6 then [1, 2, 3] else [1]) (some h)
      pure (t.formed fmt shape (t.form fmt (tileDim shape) vs))

/-! ### Starting (R257 to R259) -/

def State.putTask (s : State) (t : Task) : State :=
  { s with tasks := s.tasks.map fun x => if x.id = t.id then t else x }

/-- A task may start: every task that it depends on has retired, and no gate holds it. -/
def State.taskReady (s : State) (t : Task) : Bool :=
  !t.started && !s.tasks.any (s.depends t) &&
    !s.commands.any fun c => c.kind == 3 && c.batch == t.batch && t.members.contains c.pid

/-- A task holds its engine until it retires, or until a Flowstone unit has its factors (R257). -/
def Task.holdsEngine (t : Task) : Bool := t.started && !t.released

/-- An engine is free. -/
def State.engineIdle (s : State) (engine : Nat) : Bool := !s.tasks.any fun t => t.holdsEngine && t.engine == engine

/-- The task that an idle engine takes: its own core's oldest, else the nearest core's; a replay task only on the engine of
its party's slot. -/
def State.nextTask (s : State) (engine : Nat) : Option Task :=
  let core := engine / 4
  let cluster := clusterOfCore core
  (upTo 0 8).findSome? fun d =>
    let c := 8 * cluster + (core + d) % 8
    s.tasks.find? fun t => t.core == c && s.taskReady t &&
      (if (s.taskLaunch t).header.replay then c == core && t.slot % 4 == engine % 4 else true)

/-- A task's access is offered to system software. -/
def State.offerTask (s : State) (t : Task) (d : Deny) (a : Word) : State :=
  (s.putTask { t with offer := some { trap := engineTrap (d, a), ticket := none } }).askTask t.id

/-- A task whose factors are formed waits for a Flowstone unit. -/
def Task.awaitsUnit (t : Task) : Bool := t.unit.isNone && match t.stage with | .flow .. => true | _ => false

/-- A Flowstone unit of a cluster holds no task. -/
def State.unitFree (s : State) (cluster k : Nat) : Bool :=
  !s.tasks.any fun t => clusterOfCore t.core == cluster && t.unit == some k

/-- The units that may take a task: the first free one, in replay that of its core (R257, R259). -/
def State.unitsFor (s : State) (t : Task) : List Nat := if (s.taskLaunch t).header.replay then [t.core % 2] else [0, 1]

/-- Waiting tasks move to free units, the earliest accepted first (log 69), and their engines are released (R257, R277). -/
def State.assignUnits (s : State) : State :=
  s.tasks.foldl (fun s t =>
    if t.awaitsUnit then
      match (s.unitsFor t).find? (s.unitFree (clusterOfCore t.core)) with
      | some k => s.putTask { t with unit := some k, released := true }
      | none => s
    else s) s

/-- An engine works on a task that it has taken. -/
def State.runTask (s : State) (t : Task) : State :=
  match s.engineWork t with
  | .ok u => (s.putTask u).assignUnits
  | .error (.ended st) => s.putTask { t with stage := .ended st }
  | .error (.offered d a) => s.offerTask t d a
  | .error (.paused new time) => s.putTask { t with time := time, log := t.log ++ new }

/-- One read event of a task; where it has made them all, its result is formed. -/
def State.readOne (s : State) (t : Task) : State :=
  match s.engineWork { t with parts := true } with
  | .error (.paused new time) => s.putTask { t with time := time, log := t.log ++ new }
  | _ => s.runTask t

/-- A task that an engine has taken and that has not read all its operands. -/
def Task.reading (t : Task) : Bool := t.started && t.offer.isNone && t.stage == .queued

/-- At most `n` read events of the task that an engine has taken, or now takes, between which other agents act (R301). -/
def State.taskReads (s : State) (engine n : Nat) : State :=
  let next := if decide (engine < 4 * Config.cores) then s.nextTask engine else none
  match if s.engineIdle engine then next.map fun t => { t with started := true, engine := engine }
    else s.tasks.find? fun t => t.reading && t.engine == engine with
  | none => s
  | some t => (upTo 0 n).foldl (fun s _ => match s.tasks.find? fun x => x.id == t.id && x.reading with
      | some x => s.readOne x
      | none => s) (s.putTask t)

/-- TASK_START (R242, R257). -/
def execTaskStart (engine : Nat) (s : State) : Result :=
  if !s.engineIdle engine || decide (4 * Config.cores ≤ engine) then .next s
  else match s.nextTask engine with
    | none => .next s
    | some t =>
      let t := { t with started := true, engine := engine }
      .next ((s.putTask t).runTask t)

/-! ### Flowstone (R265, R277) -/

/-- RANK_CAPPED with the rank kept, and whether storage forced it (R40, R274, R276). -/
def stCapped (k : Nat) (forced : Bool) : Word := stRankCapped ||| BitVec.ofNat 64 (k * 2 ^ 8 + forced.toNat * 2 ^ 14)

/-- FLOWSTONE_RECOMPRESSION: the unit of a task hands its result back, and takes the next task. -/
def execFlowstoneRecompression (task : Nat) (s : State) : Result :=
  match s.tasks.find? fun t => t.id == task with
  | none => .next s
  | some t =>
    match t.stage, t.unit with
    | .flow u v, some _ =>
      let r := flowstone (tileTy t.fmt) (tileDim t.shape) t.ctl.toNat (t.op == 4) none u v
      let stage : TaskStage :=
        if r.invalid then .result r.v [] [] stOk
        else .result r.v u v ((r.capped.map fun k => stCapped k false).getD stOk)
      .next (s.putTask { t with stage := stage, unit := none }).assignUnits
    | _, _ => .next s

/-! ### Storage (R235, R243) -/

def TileVal.kind : TileVal → Nat
  | .zero => 0
  | .dense _ => 1
  | .low .. => 2

def TileVal.rank : TileVal → Nat
  | .low r _ _ => r
  | _ => 0

/-- The elements of a tile's storage. -/
def TileVal.elements : TileVal → List Nat
  | .zero => []
  | .dense l => l
  | .low _ u w => u ++ w

/-- The pool of a header. -/
def State.poolOf (s : State) (t : Task) (h : TileHead) : Pool :=
  ((s.taskLaunch t).header.pools[h.pool]?).getD { base := 0, nchunks := 0, state := 0 }

/-- The values of `size` bytes that stand at some addresses, each where it lies. -/
def State.standing (s : State) (t : Task) (size : Nat) (ws : List (Nat × Nat)) : List (Nat × Place × Nat) :=
  ws.filterMap fun w => match s.windowSpan (s.taskAccessor t) w.1 size .write with
    | .ok (p, _) => some (w.1, p, s.valueAt p size)
    | .error _ => none

/-- A tile of a task is to be written to a block, then the header, and then the old block is freed (R243).  A block, a header
or a state of the old block's chunk that cannot be written stops the task before anything is; of storage that is written in place the task keeps what stood there,
as it leaves the tile unchanged where it fails (R242). -/
def State.planTile (s : State) (t : Task) (h : TileHead) (v : TileVal) (block : Word) (cls : Nat) (freed : Bool) (st : Word) :
    Except (Deny × Word) (State × Task) := do
  let e := elemBytes t.fmt
  let ws := v.elements.zipIdx.flatMap fun x => elementWrites e (block + BitVec.ofNat 64 (x.2 * e)) x.1
  (at_ (t.val 0) (s.windowSpan (s.taskAccessor t) (t.val 0).toNat 64 .write)).map fun _ => ()
  if !ws.isEmpty then (at_ block (s.windowSpan (s.taskAccessor t) block.toNat 1 .write)).map fun _ => ()
  match if freed then (s.poolOf t h).nodeOf h.block h.cls else none with
  | some x => (s.chunkPlace (s.taskAccessor t) ((s.poolOf t h).stateAt x.1) .update).map fun _ => ()
  | none => pure ()
  let new : TileHead := { kind := v.kind, fmt := t.fmt, shape := t.shape, rank := v.rank, cls := cls, pool := h.pool
                          gen := h.gen + 1, block := block }
  let old := if h.kind ≠ 0 ∧ block = h.block then s.standing t (Nat.min e 8) ws else []
  pure (s, { t with stage := .commit (Nat.min e 8) ws (some new) (if freed then some (h.block, h.cls) else none) st old })

/-- A request of a task for a block of a class (R233). -/
def State.taskBlock (s : State) (t : Task) (h : TileHead) (need : Nat) : Except (Deny × Word) (Option (State × Task × Word)) :=
  (s.requestBlock t.agent (s.taskAccessor t) (s.poolOf t h) need).map fun r => r.map fun x => (x.1, { t with time := x.2.1 }, x.2.2)

/-- The class that a result needs, and whether its block is to be requested (R235). -/
def Task.needClass (t : Task) (v : TileVal) : Nat := classFor (needBytes v.kind v.rank t.fmt (tileDim t.shape))
def Task.requests (t : Task) (h : TileHead) (v : TileVal) : Bool := v.kind != 0 && !(h.kind != 0 && t.needClass v == h.cls)

/-- Where the destination of a task is to be written under R235: the state and the task with its writes, or a status that ends
it without any. -/
def State.placeTile (s : State) (t : Task) (h : TileHead) (v : TileVal) (u w : List Nat) (st : Word) :
    Except (Deny × Word) (State × Task) := do
  let m := tileDim t.shape
  let holds := h.kind != 0
  let need := t.needClass v
  if v.kind = 0 then s.planTile t h v 0 0 holds st
  else if holds && decide (need ≤ h.cls) then
    if need = h.cls then s.planTile t h v h.block h.cls false st
    else match ← s.taskBlock t h need with
      | some (s, t, b) => s.planTile t h v b need true st
      | none => s.planTile t h v h.block h.cls false st
  else match ← s.taskBlock t h need with
    | some (s, t, b) => s.planTile t h v b need holds st
    | none =>
      let empty : Word := stPoolEmpty ||| BitVec.ofNat 64 (need * 2 ^ 8)
      let none_ : State × Task := (s, { t with stage := .ended empty })
      if u.isEmpty || !t.bit 39 then pure none_
      else
        let fits := if holds then Nat.min (classBytes h.cls / (2 * m * elemBytes t.fmt)) (m / 2) else 0
        let r := flowstone (tileTy t.fmt) m t.ctl.toNat false (some fits) u w
        if r.invalid then pure none_
        else if r.v.kind = 0 then s.planTile t h .zero 0 0 holds (stCapped 0 true)
        else s.planTile t h r.v h.block h.cls false (stCapped r.v.rank true)

/-! ### Batches (R261, R296) -/

/-- The order in which R261 ranks codes; other codes last. -/
def batchOrder (st : Nat) : Nat :=
  match st % 256 with
  | 0x08 => 0
  | 0x06 => 1
  | 0x07 => 2
  | 0x20 => 3
  | 0x21 => 4
  | _ => 5

/-- A batch's status and the task that gave it, after another task of it retired. -/
def rankStatus (old by_ st id : Nat) : Nat × Nat :=
  if batchOrder st = 5 then (old, by_)
  else if batchOrder st < batchOrder old ∨ (batchOrder st = batchOrder old ∧ id < by_) then (st % 2 ^ 32, id)
  else (old, by_)

/-- A task's status is ranked into its batch in one party's batch state, in the party's record while it is evicted; a record
that cannot be read or written there does not get it (R261, R284; log 64). -/
def State.rankInto (s : State) (t : Task) (st : Word) (p : Party) : State :=
  let i := t.batch % 256
  let by_ := Table.get 0 p.batchBy i
  if p.evicted then
    let l := s.home p
    let a := l.header.partyRecordAt p.group p.first + 0x808 + 4 * i
    match s.arenaRead l.space a 4 with
    | .error _ => s
    | .ok bs =>
      let r := rankStatus (ofBytes bs) by_ st.toNat t.id
      match s.arenaWrite l.space a (toBytes 4 r.1) with
      | .error _ => s
      | .ok s => s.putParty { p with batchBy := Table.set 0 p.batchBy i r.2 }
  else
    let r := rankStatus (Table.get 0 p.batches i).toNat by_ st.toNat t.id
    s.putParty { p with batches := Table.set 0 p.batches i (BitVec.ofNat 32 r.1), batchBy := Table.set 0 p.batchBy i r.2 }

/-- A task leaves its Gallery with a status, which is a signal above its writes; tasks that depend on it come after it (R258,
R260, R309). -/
def State.retireTask (s : State) (t : Task) (st : Word) : State :=
  let after := (s.tasks.filter fun u => s.depends u t).map fun u => u.id
  let s := (((s.signalAt (t.time + 1)).dependBar t.id after).oweHandles t.id (s.handleUses t)).raiseTimes after (t.time + 1)
  let s : State := { s with tasks := s.tasks.filter fun x => x.id != t.id }
  (t.members.filterMap s.party?).foldl (fun s p => s.rankInto t st p) s

/-! ### Writing and retirement (R243, R259) -/

/-- What writing values comes to: the state, the time, what is left, and the fault that stopped it. -/
structure Writing where
  s : State
  time : Nat
  left : List (Nat × Nat)
  fault : Option (Deny × Word)

/-- At most `n` of some values written by an agent, each of `size` bytes. -/
def writeValues (ac : Accessor) (size : Nat) : (n : Nat) → State → Agent → List (Nat × Nat) → Writing
  | n + 1, s, a, (x, v) :: rest =>
    match s.engineWrite ac a (BitVec.ofNat 64 x) (Span.clean (toBytes size v) a.time) with
    | .error e => { s := s, time := a.time, left := (x, v) :: rest, fault := some e }
    | .ok w =>
      if w.lost then { s := w.s, time := w.time, left := rest, fault := some ({ cause := .poison }, BitVec.ofNat 64 x) }
      else writeValues ac size n w.s { a with time := w.time } rest
  | _, s, a, ws => { s := s, time := a.time, left := ws, fault := none }

/-- A value put back where it stood, whatever the rights of its page are now; of a scratchpad that is away, in its backing. -/
def State.putBack (s : State) (t : Task) (size : Nat) (x : Nat × Place × Nat) : State :=
  let bs := toBytes size x.2.2
  match x.2.1 with
  | .phys pa key _ => (s.storeAs t.agent (s.holder pa key) bs).1
  | .spad l g off =>
    if s.groupResident l g then (s.storeAs t.agent (.spad l g off) bs).1
    else (writeValues (s.taskAccessor t) size 1 s t.agent [(x.1, x.2.2)]).s

/-- A task that has not written its header is undone: what it overwrote of its destination stands again, and a block that it has
taken is freed (R234, R242, R359). -/
def State.undoTask (s : State) (t : Task) : State :=
  match t.stage, t.head with
  | .commit size _ (some new) _ _ put, some old =>
    let s := put.foldl (fun s x => s.putBack t size x) s
    if new.kind = 0 ∨ new.block = old.block then s
    else match s.freeBlock t.agent (s.taskAccessor t) (s.taskLaunch t) (s.poolOf t new) new.block new.cls with
      | .ok (some (s, _)) => s
      | _ => s
  | _, _ => s

/-- A denied write of a task: on a part that does not answer it fails the task, else it is offered (R242, R328). -/
def State.stopTask (s : State) (t : Task) (e : Deny × Word) : State :=
  if e.1.cause = .poison then (s.undoTask t).retireTask t stPoison else s.offerTask t e.1 e.2

/-- The stage of a task with other values left to write. -/
def TaskStage.withLeft (g : TaskStage) (ws : List (Nat × Nat)) : TaskStage :=
  match g with
  | .image size _ => .image size ws
  | .commit size _ h f st old => .commit size ws h f st old
  | g => g

/-- The size of the values that a task writes, and those it has still to write. -/
def TaskStage.left : TaskStage → Nat × List (Nat × Nat)
  | .image size ws => (size, ws)
  | .commit size ws _ _ _ _ => (size, ws)
  | _ => (0, [])

/-- At most `n` of a task's values written: the state and the task, or the state in which it stopped. -/
def State.writeSome (s : State) (t : Task) (n : Nat) : Except State (State × Task) :=
  let w := t.stage.left
  let r := writeValues (s.taskAccessor t) w.1 n s t.agent w.2
  let t := { t with time := r.time, stage := t.stage.withLeft r.left }
  match r.fault with
  | some e => .error (r.s.stopTask t e)
  | none => .ok (r.s, t)

/-- The header of a tile written, as one event (R301). -/
def State.writeHead (s : State) (t : Task) (h : TileHead) : Except (Deny × Word) (State × Task) := do
  let w ← s.engineWrite (s.taskAccessor t) t.agent (t.val 0) (Span.clean (h.bytes t.batch) t.time)
  if w.lost then .error ({ cause := .poison }, t.val 0) else pure (w.s, { t with time := w.time })

/-- The end of a task that has written its values: its header, its old block, its status (R243).  Where the old block's state is
denied the header is not written either, so that a task that fails leaves it unchanged (R242). -/
def State.endWrites (s : State) (t : Task) : State :=
  match t.stage with
  | .commit _ _ (some new) freed st _ =>
    match s.writeHead t new with
    | .error e => s.stopTask t e
    | .ok (u, t) => match freed with
      | none => u.retireTask t st
      | some (b, c) => match u.freeBlock t.agent (u.taskAccessor t) (u.taskLaunch t) (u.poolOf t new) b c with
        | .error e => s.stopTask t e
        | .ok (some (v, time)) => v.retireTask { t with time := time } st
        | .ok none => u.retireTask t stMalformed
  | _ => s.retireTask t stOk

/-- The rest of a task's writes, and its end. -/
def State.writeAll (s : State) (t : Task) : State :=
  match s.writeSome t t.stage.left.2.length with
  | .error s => s
  | .ok (s, t) => s.endWrites t

/-- A replay task's requests wait for those of the cluster's earlier tasks (R259). -/
def State.requestsWait (s : State) (t : Task) : Bool :=
  (s.taskLaunch t).header.replay && s.tasks.any fun u =>
    decide (u.id < t.id) && clusterOfCore u.core == clusterOfCore t.core && !([0, 1, 3, 12].contains u.op) &&
      match u.stage with | .queued | .flow .. | .result .. => true | _ => false

/-- A task whose result is known takes the place of its destination; none while it waits, or the state in which it stopped. -/
def State.planTask (s : State) (t : Task) : Except State (State × Task) :=
  match t.stage, t.head with
  | .result v u w st, some h =>
    if t.requests h v && s.requestsWait t then .error s
    else match s.placeTile t h v u w st with
      | .error e => .error (s.stopTask t e)
      | .ok r => .ok (r.1.putTask r.2, r.2)
  | .result .., none =>
    let h : TileHead := { kind := 0, fmt := t.fmt, shape := t.shape, rank := 0, cls := 0
                          pool := bitsOf t.ctl.toNat 8 3, gen := 0, block := 0 }
    .ok (s, { t with stage := .commit 8 [] (some h) none stOk [] })
  | _, _ => .ok (s, t)

/-- Some of a task's writes, between which other agents act. -/
def State.storeSome (s : State) (task n : Nat) : State :=
  match s.tasks.find? fun t => t.id == task with
  | none => s
  | some t =>
    if t.offer.isSome then s
    else match s.planTask t with
      | .error s => s
      | .ok (s, t) => match s.writeSome t n with
        | .error s => s
        | .ok (s, t) => s.putTask t

/-- The rest of a task once its result is known. -/
def State.finishTask (s : State) (t : Task) : State :=
  match s.planTask t with
  | .error s => s
  | .ok (s, t) => match t.stage with
    | .image .. | .commit .. => s.writeAll t
    | .ended st => s.retireTask t st
    | _ => s

/-- TASK_RETIRE. -/
def execTaskRetire (task : Nat) (s : State) : Result :=
  match s.tasks.find? fun t => t.id == task with
  | none => .next s
  | some t => if t.offer.isSome then .next s else .next (s.finishTask t)

/-- The fault of a task was repaired: its engine goes on, or its writes are tried again. -/
def State.repairTask (s : State) (t : Task) : State :=
  let t := { t with offer := none }
  match t.stage with
  | .queued => (s.putTask t).runTask t
  | _ => s.putTask t

/-- The fault of a task was declined: it fails (R242), and a Flowstone unit that it held takes the next task (R277). -/
def State.declineTask (s : State) (t : Task) (d : Trap) : State :=
  ((s.undoTask t).putTask { t with offer := none, unit := none, stage := .ended (stFault d.cause) }).assignUnits

/-! ### TLINFO (R255) -/

/-- TLINFO: bytes 0 to 7 of a header, as SLD.N64 reads them. -/
def execTlinfo (_k : Bool) (d a : Reg) (s : State) : Result := scalarLoad s d a 0 8 (BitVec.ofNat 64)

end Sys2Proof.Machine
end

