-- ==== Sys2Proof/Machine/Answers.lean ====
section
/-!
DEFINITION. The answers of system software to offered faults and to STUCK (R151, R158, R160, R220, R242, R356).
-/
namespace Sys2Proof.Machine

/-- The answers that a ticket permits. -/
def Asker.permits (a : Asker) (v : Nat) : Bool :=
  match a with
  | .stuck _ => v == 3
  | _ => v == 1 || v == 2

/-- The answer means a repair: a fault out of a window's extent counts as declined (R166). -/
def Offer.repairedBy (o : Offer) (answer : Bool) : Bool := answer && !o.trap.extent

/-- CPYW or LAUNCH whose copy met a declined fault: its sequence word is written, and it ends with the cause.  A declined fault
of the sequence word itself drops that write and is reported; the copy is done (R220, R222). -/
def State.declineRing (s : State) (w : Wait) (r : RingSlot) (t : Trap) : State :=
  let p := s.party
  let s : State := { s with party := { p with offer := none } }
  let dropped (s : State) (d : Trap) : State := s.report (s.ctxOf p.launch) (d.dropped p.place)
  if r.copied then (dropped s t).endWith w stOk
  else match s.signalWord (accessorOf (s.home p) p) s.ringAgent r.at_ r.seq.toNat with
    | .ok u => (u.1.atTime u.2).endWith w (stFault t.cause)
    | .error d => (dropped s (w.trap p.pc d r.at_)).endWith w (stFault t.cause)

/-- The party in focus goes on after its offer `o` was repaired or declined; none while it cannot yet.  A declined fault of a trap record, or of a reload, halts the party (R299, R345).
Every other declined cause is delivered with sdec at the next boundary (R151). -/
def State.answerParty (s : State) (o : Offer) (answer : Bool) : Option State :=
  let p := s.party
  let repaired := o.repairedBy answer
  let free : State := { s with party := { p with offer := none } }
  if o.trap.ofRecord || p.evicted then some (if repaired then free else free.halt)
  else if o.ofLane && p.pendingLane.isSome then
    if !repaired then some { free with party := { free.party with raised := some (o.trap, true) } }
    else
      let s := s.withdrawWait
      if s.party.wait.isSome || !s.party.ready then none
      else
        let q := { s.party with offer := none }
        some { s with party := if o.trap.src = 1 then q.reissue o.trap.done else { q with pendingLane := none } }
  else match p.wait.map fun w => (w, w.claim) with
    | some (w, some r) => some (if repaired then free else s.declineRing w r o.trap)
    | _ => some (if repaired then free else { free with party := { free.party with raised := some (o.trap, true) } })

/-- A party stopped by STUCK goes on at its record's resume address; the wait stays the instruction that led there (R153,
R160). -/
def State.resumeStuck (s : State) : State :=
  let p := s.party
  let l := s.home p
  let at_ := match s.arenaRead l.space (p.recordAt l + 0x10) 8 with
    | .ok bs => BitVec.ofNat 64 (ofBytes bs) &&& ~~~3
    | .error _ => p.pc
  { s with party := { p with stopped := false, offer := none, pc := at_ } }

/-- A collective's fault was declined: it fails with the cause, or the write of its completion word is dropped and reported
(R220, R373). -/
def State.declineCollective (s : State) (c : Collective) (t : Trap) : State :=
  if c.finished then
    (s.putCollective { c with cwaddr := 0, offer := none }).report (s.ctxOf c.launch)
      (t.dropped (32 * c.die + 2 ^ 13))
  else s.putCollective { c.fail t.cause.code with offer := none }

/-- What an answer to a ticket does; none where its party cannot act on it yet. -/
def State.answer (s : State) (t : Ticket) (repaired : Bool) : Option State :=
  match t.asker with
  | .party pid =>
    let f := s.focus pid
    if f.party.pid != pid then none
    else match f.party.offer with
      | none => some s
      | some o => (f.answerParty o repaired).map fun f => f.focus s.party.pid
  | .stuck pid =>
    let f := s.focus pid
    if f.party.pid != pid || f.party.evicted then none else some (f.resumeStuck.focus s.party.pid)
  | .command id => match s.commands.find? fun c => c.id == id with
    | some c => match c.offer with
      | some o => some (if o.repairedBy repaired then s.putCommand { c with offer := none } else s.declineCommand c o.trap)
      | none => some s
    | none => some s
  | .task id => match s.tasks.find? fun x => x.id == id with
    | some x => match x.offer with
      | some o =>
        let s : State := { s with taskImages := s.taskImages.filter fun i => i.1 != id }
        some (if o.repairedBy repaired then s.repairTask x else s.declineTask x o.trap)
      | none => some s
    | none => some s
  | .collective id =>
    match s.collectives.find? fun c => c.id == id with
    | some c => match c.offer with
      | some o => some (if o.repairedBy repaired then s.putCollective { c with offer := none } else s.declineCollective c o.trap)
      | none => some s
    | none => some s

/-- REPLY_ANSWER (R356): the part sees a permitted value in a reply word, acts on it, and clears the word. -/
def execReplyAnswer (ctx ticket : Nat) (s : State) : Result :=
  match s.tickets.find? fun t => t.ctx == ctx && t.number == ticket, s.replyAt ctx ticket with
  | some t, some (sp, a) =>
    match s.load (accessorIn sp) a 8 with
    | .error _ => .next s
    | .ok v =>
      if !t.asker.permits v then .next s
      else match s.answer t (v == 1) with
        | none => .next s
        | some s =>
          let s : State := { s with tickets := s.tickets.filter fun x => !(x.ctx == ctx && x.number == ticket) }
          match s.save (accessorIn sp) a 8 0 with
          | .ok s => .next s
          | .error _ => .next s
  | _, _ => .next s

end Sys2Proof.Machine
end

