-- ==== Sys2Proof/Machine/Launches.lean ====
section
/-!
DEFINITION. The front end: launch headers and their checks, queues, dependences, placement, aging and the end of a launch
(R25, R43, R231, R284, R285, R344 to R352).
-/
namespace Sys2Proof.Machine

/-! ### Headers (R344, R345) -/

/-- A 64-bit word of some bytes. -/
def wordAt (bs : List Byte) (off : Nat) : Nat := ofBytes ((bs.drop off).take 8)

/-- An extension block is required. -/
def needsExt (hdr : List Byte) : Bool :=
  let ctl := wordAt hdr 0x70
  bitsOf ctl 32 3 != 0 || decide (4 < bitsOf ctl 26 4)

/-- The 32 bytes of a pool descriptor. -/
def poolBytes (hdr ext : List Byte) (i : Nat) : List Byte :=
  if i < 4 then (hdr.drop (0x80 + 32 * i)).take 32 else (ext.drop (0x40 + 32 * (i - 4))).take 32

def Pool.ofBytes (bs : List Byte) : Pool :=
  { base := BitVec.ofNat 64 (wordAt bs 0), nchunks := wordAt bs 8 % 2 ^ 32, state := BitVec.ofNat 64 (wordAt bs 16) }

/-- The width of field `k` of a work identifier. -/
def widthField (wdef k : Nat) : Nat := bitsOf wdef (8 * k) 8

/-- The header of a launch with its extension. -/
def Header.ofBytes (hdr ext : List Byte) : Header :=
  let w (off : Nat) : Word := BitVec.ofNat 64 (wordAt hdr off)
  let shape := wordAt hdr 0x28
  let counts := wordAt hdr 0x30
  let ctl := wordAt hdr 0x70
  { scalar := w 0, lane := w 8, handler := w 0x10, data := w 0x18, wdef := w 0x20, width := 32 * 2 ^ bitsOf shape 0 3
    parties := bitsOf shape 4 5, depth := bitsOf shape 12 8, local_ := 256 * bitsOf shape 24 12
    private_ := 16 * bitsOf shape 36 17, groups := bitsOf counts 0 32, laneLen := bitsOf counts 32 20, arena := w 0x38
    brec := w 0x40, layout := w 0x48, ceiling := bitsOf (wordAt hdr 0x50) 0 41, done := w 0x58, doneval := w 0x60
    prio := bitsOf ctl 0 3, nvr := BitVec.ofNat 64 (bitsOf ctl 4 2), replay := bitsOf ctl 6 1 == 1
    brecs := bitsOf ctl 8 9, layouts := bitsOf ctl 17 9
    pools := (upTo 0 (bitsOf ctl 26 4)).map fun i => Pool.ofBytes (poolBytes hdr ext i)
    after := (upTo 0 (bitsOf ctl 32 3)).map fun i =>
      (BitVec.ofNat 64 (wordAt ext (16 * i)), BitVec.ofNat 64 (wordAt ext (16 * i + 8))) }

/-- A reserved bit is set (reason 0x01). -/
def reservedSet (hdr ext : List Byte) (hasExt : Bool) : Bool :=
  let shape := wordAt hdr 0x28
  let ctl := wordAt hdr 0x70
  let pools := (upTo 0 (bitsOf ctl 26 4)).filter fun i => decide (i < 4) || hasExt
  bitsOf shape 53 11 != 0 || bitsOf shape 20 4 != 0 || bitsOf shape 9 3 != 0 || bitsOf shape 3 1 != 0 ||
    bitsOf (wordAt hdr 0x20) 48 16 != 0 || bitsOf (wordAt hdr 0x30) 52 12 != 0 || bitsOf (wordAt hdr 0x50) 41 23 != 0 ||
    wordAt hdr 0x78 != 0 || bitsOf ctl 35 29 != 0 || bitsOf ctl 30 2 != 0 || bitsOf ctl 7 1 != 0 || bitsOf ctl 3 1 != 0 ||
    (hasExt && ofBytes (ext.drop 0xC0) != 0) ||
    pools.any fun i => bitsOf (wordAt (poolBytes hdr ext i) 8) 32 32 != 0 || wordAt (poolBytes hdr ext i) 24 != 0

/-- An address is global and aligned. -/
def goodAddress (a : Word) (align : Nat) : Bool := a.toNat % align == 0 && windowOf a.toNat == .global

/-- The reasons that R345 finds against a header.  More than 16 parties are out of R17's range, and are reported under 0x02 even
where the same number also fails a check of 0x03 or 0x04 (log 70). -/
def refusals (hdr ext : List Byte) (hasExt : Bool) : List Nat :=
  let h := Header.ofBytes hdr ext
  let wcode := bitsOf (wordAt hdr 0x28) 0 3
  let nafter := h.after.length
  let ws := (upTo 0 6).map (widthField h.wdef.toNat)
  let w (k : Nat) : Nat := (ws[k]?).getD 0
  let when_ (n : Nat) (c : Bool) : List Nat := if c then [n] else []
  let need (a : Word) (align : Nat) (required : Bool) : Bool := if a = 0 then required else !goodAddress a align
  when_ 1 (reservedSet hdr ext hasExt) ++
  when_ 2 (decide (5 < wcode) || h.parties == 0 || decide (16 < h.parties) || h.groups == 0 || decide (h.depth < 8) ||
    decide (65536 * 16 < h.private_) || decide (524288 < h.laneLen) || decide (2 ^ 40 < h.ceiling) ||
    decide (256 < h.brecs) || decide (256 < h.layouts) || decide (8 < h.pools.length) || decide (4 < nafter)) ++
  when_ 3 (ws.any (fun x => decide (64 < x)) || decide (64 < ws.sum) || 2 ^ w 0 != h.width || decide (2 ^ w 1 < h.parties) ||
    decide (3 < w 2) || decide (2 ^ (w 2 + w 3 + w 4 + w 5) < h.groups)) ++
  when_ 4 (decide (4096 < h.parties * h.width) || decide (Config.bankBytes < h.bankBytes h.width) ||
    decide (Config.scratchBytes < h.local_)) ++
  when_ 5 (h.pools.zipIdx.any fun p => (decide (p.2 < 4) || hasExt) &&
    (!goodAddress p.1.base 65536 || p.1.nchunks == 0 || decide (2 ^ 24 < p.1.nchunks) || !goodAddress p.1.state 64)) ++
  when_ 6 (need h.scalar 4 true || need h.lane 16 (h.laneLen != 0) || need h.handler 4 false || need h.data 65536 true ||
    need h.arena 65536 true || need h.brec 8 (h.brecs != 0) || need h.layout 16 (h.layouts != 0) || need h.done 8 false ||
    need (BitVec.ofNat 64 (wordAt hdr 0x68)) 64 (needsExt hdr) || (hasExt && h.after.any fun e => !goodAddress e.1 8)) ++
  when_ 7 (h.nvr == 0 || h.nvr == 3) ++
  when_ 8 (h.replay && decide (16 ≤ (h.groups - 1) / 2 ^ w 2)) ++
  when_ 9 (needsExt hdr && !hasExt)

/-! ### Queues (R347, R349) -/

/-- The owner of an enabled queue whose entry can be read, with its ring header (R338). -/
def State.queueOf (s : State) (queue : Nat) : Option (Nat × Word) :=
  let e := s.bar.qtbase.toNat / 65536 * 65536 + 16 * queue
  let w := (s.tableWord (e + 8)).toNat
  if s.bar.ready && decide (queue < 4096) && bitsOf w 12 1 == 1 && !s.tableLost e 16 then some (bitsOf w 0 12, s.tableWord e) else none

/-- The where word of the front end. -/
def frontPlace (queue : Nat) : Nat := 3 * 2 ^ 13 + queue % 4096 * 2 ^ 15

/-- A launch is refused (R345). -/
def State.refuse (s : State) (ctx queue reason : Nat) : State :=
  s.report ctx { kind := 5, cause := reason, place := frontPlace queue }

/-- The dependence entries as they stand; none where a word cannot be read. -/
def State.readEntries (s : State) (sp : Space) (l : List (Word × Word)) : Option (List Bool) :=
  l.mapM fun e => match s.load (accessorIn sp) e.1 8 with
    | .ok v => some (decide (e.2.toNat ≤ v))
    | .error _ => none

/-- A header taken from a queue: refused, or a launch that is held until its entries are met. -/
def State.enrol (s : State) (sp : Space) (queue time : Nat) (hdr : List Byte) : State :=
  let at_ := wordAt hdr 0x68
  let ext : Option (List Byte) :=
    if needsExt hdr && goodAddress (BitVec.ofNat 64 at_) 64 && at_ != 0 then (s.arenaRead sp at_ 256).toOption else none
  let reasons := refusals hdr (ext.getD []) ext.isSome
  match reasons with
  | r :: _ => s.refuse sp.ctx queue r
  | [] =>
    let h := Header.ofBytes hdr (ext.getD [])
    match s.readEntries sp h.after with
    | none => s.refuse sp.ctx queue 9
    | some met =>
      let l : Launch := { Launch.blank with
        id := s.ids, queue := queue, space := sp, header := h, met := met.map fun _ => false, time := time, since := s.lantern.toNat }
      { s with launches := s.launches ++ [s.meetEntries l met], ids := s.ids + 1 }

/-- The next slot of a queue's ring, if it has one: the state after the take, the time of the take, which follows the slot's
sequence word, and the header's bytes; none where they cannot be read. -/
def State.takeSlot (s : State) (sp : Space) (hdr : Word) (r : Ring) : Option (State × Nat × Option (List Byte)) :=
  match s.claimTake .part 0 (accessorIn sp) hdr r with
  | .ok (.slot t time slot seq) =>
    let bs := (t.arenaRead sp (slot + 16).toNat 256).toOption
    match t.save (accessorIn sp) slot 8 seq.toNat with
    | .ok t => some (t, time, bs)
    | .error _ => some (t, time, bs)
  | _ => none

/-- The ring of a queue takes 256-byte slots (R347). -/
def Ring.forLaunches (r : Ring) : Bool := r.ok && r.z == 256

/-- LAUNCH_TAKE (R347, R349). -/
def execLaunchTake (queue : Nat) (s : State) : Result :=
  match s.queueOf queue with
  | none => .next s
  | some (ctx, hdr) =>
    if s.held || !s.served ctx || s.launches.any (fun l => l.queue == queue && l.placed == 0) then .next s
    else match s.spaceOf ctx with
      | none => .next s
      | some sp => match s.ring (accessorIn sp) hdr with
        | .error _ => .next s
        | .ok r =>
          if !r.forLaunches then .next (s.refuse ctx queue 2)
          else match s.takeSlot sp hdr r with
            | none => .next s
            | some (t, _, none) => .next (t.refuse ctx queue 9)
            | some (t, time, some bs) => .next (t.enrol sp queue time bs)

/-- DEPENDENCE_MET (R349): the entries of a held launch are read again. -/
def execDependenceMet (id : Nat) (s : State) : Result :=
  match s.launch? id with
  | none => .next s
  | some l =>
    if l.placed ≠ 0 then .next s
    else match s.readEntries l.space l.header.after with
      | none => .next s
      | some now => .next (s.putLaunch (s.meetEntries l now))

/-- Zeros over a range of a context, where it is mapped; `fuel` bounds its pages. -/
def zeroSpans (sp : Space) : (fuel : Nat) → State → (va n : Nat) → State
  | 0, s, _, _ => s
  | fuel + 1, s, va, n =>
    if n = 0 then s
    else match s.globalSpan sp va n .write with
      | .ok (p, k) => zeroSpans sp fuel (s.layBytes p (List.replicate k 0)) (va + k) (n - k)
      | .error _ =>
        let k := Nat.min n (65536 - va % 65536)
        zeroSpans sp fuel s (va + k) (n - k)

def State.zeroRange (s : State) (sp : Space) (va n : Nat) : State := zeroSpans sp (n + 1) s va n

/-! ### Placing a group (R43, R346, R351) -/

/-- A party as R43 leaves it, at a logical time: no earlier than its core's mark (log 67) and than what its launch follows
(R349). -/
def Launch.newParty (l : Launch) (pid g core quad slot k pt : Nat) : Party :=
  let h := l.header
  { Party.blank with
      pid := pid, launch := l.id, group := g, core := core, quad := quad, slot := slot, first := k * h.width, width := h.width
      life := .running, pc := h.scalar, lastPc := h.scalar, s := Party.blank.s.set 1 h.data
      p := Party.blank.p.set 0 (BitVec.ofNat 1024 (2 ^ h.width - 1)), nvr := h.nvr, fresh := h.window, pt := pt }

/-- The part's latched view of the context is read again when a group is placed (R354). -/
def State.latch (s : State) (l : Launch) : Launch :=
  if l.placed ≠ 0 then l
  else match s.spaceOf l.space.ctx with
    | some sp => { l with space := sp }
    | none => l

/-- The size of a group's backing area (R287). -/
def Header.backingBytes (h : Header) : Nat := (h.local_ + 4095) / 4096 * 4096

/-- The zeros that precede the first group: backing areas, barrier and party record slots of every group (R346). -/
def State.zeroArena (s : State) (l : Launch) : State :=
  let h := l.header
  (upTo 0 h.groups).foldl (fun s g =>
    (s.zeroRange l.space (h.saveAt g) (0x1000 + 4096 * (h.lanes / 32))).zeroRange l.space (h.backingAt g) h.backingBytes) s

/-- The next group of a launch placed on a core with its parties on some quads. -/
def State.placeGroup (s : State) (l : Launch) (core : Nat) (quads : List Nat) : State :=
  let l := s.latch l
  let h := l.header
  let s := if l.placed = 0 then s.zeroArena l else s
  let g := l.placed
  let c := h.clusterOf g
  let s := s.zeroRange l.space (h.privateAt g 0) (h.lanes * h.private_)
  let roots := if (l.clusters.find? fun e => e.1 == c).isNone then h.freshRoots c
    else if s.clusterResident l c then Table.get [] l.roots c else (orDefault (s.storedRoots l c) (h.freshRoots c)).1
  let gr : Group := { launch := l.id, number := g, core := core, spad := [], bad := [], lost := []
                      leaf := List.replicate 16 (Barrier.fresh h.lanes), cleaf := List.replicate 16 (Barrier.fresh h.lanes)
                      backing := [], ended := false }
  let (s, gr, _) := s.loadScratch l gr
  let mark := Nat.max (Table.get 0 s.marks core) l.time
  let s := quads.zipIdx.foldl (fun (s : State) q =>
    let p := l.newParty s.ids g core q.1 ((s.freeSlots core q.1).headD 0) q.2 mark
    { s with others := s.others ++ [p], ids := s.ids + 1 }) s
  let l := { l with placed := g + 1, targets := l.targets.filter fun e => e.1 != core, aged := false, since := s.lantern.toNat
                    clusters := if (l.clusters.find? fun e => e.1 == c).isNone then l.clusters ++ [(c, clusterOfCore core)]
                      else l.clusters
                    roots := Table.set [] l.roots c roots }
  let s : State := { s.putLaunch l with groups := s.groups ++ [gr], lastQueue := l.queue }
  let s := if (s.context l.space.ctx).state = 0 then s.enterState l.space.ctx 1 else s
  -- a focus without a party moves to the first party placed
  if s.party.life = .absent ∨ s.party.life = .exited then
    match s.others.find? fun p => p.launch == l.id && p.group == g with
    | some p => s.focus p.pid
    | none => s
  else s

/-! ### Which group, and where (R351, R352) -/

/-- A group of the launch has waited 2^20 ticks at the head. -/
def State.hasAged (s : State) (l : Launch) : Bool := l.aged || decide (l.since + 2 ^ 20 ≤ s.lantern.toNat)

/-- An aged launch keeps others of no higher priority off its cluster, or off every cluster while none is bound. -/
def State.agingBlocks (s : State) (l : Launch) (cluster : Nat) : Bool :=
  s.launches.any fun x => x.id != l.id && s.hasAged x && s.awaitsPlacement x && decide (s.priority l ≤ s.priority x) &&
    match x.clusters.find? fun e => e.1 == x.header.clusterOf x.placed with
    | some e => e.2 == cluster
    | none => x.targets.isEmpty || x.targets.any fun t => clusterOfCore t.1 == cluster

/-- A cluster may take the launch's next group. -/
def State.clusterAllowed (s : State) (l : Launch) (cluster : Nat) : Bool :=
  decide (cluster < Config.clusters) && !s.agingBlocks l cluster &&
    match l.clusters.find? fun e => e.1 == l.header.clusterOf l.placed with
    | some e => e.2 == cluster
    | none => true

/-- The first element of a list at which a measure is greatest. -/
def firstMost {α : Type} (measure : α → Nat) : List α → Option α
  | [] => none
  | x :: xs => match firstMost measure xs with
    | some y => if measure x < measure y then some y else some x
    | none => some x

/-- How far the front end looks in choosing a place: at what is free; at what eviction may free as well; or, where the group fits
nowhere so, at every place. -/
inductive Reach where
  | free | evicting | anywhere
  deriving DecidableEq, Repr

/-- Lanes of a core that no group holds. -/
def State.freeLanes (s : State) (core : Nat) : Nat :=
  Config.lanesPerCore - ((s.groupsOn core).map fun g => (s.headerOf g).lanes).sum

/-- Bytes of a quad's bank that count as free for a launch (R297, R351). -/
def State.bankFor (s : State) (l : Launch) (reach : Reach) (core quad : Nat) : Nat :=
  s.bankFree core quad + if reach = .free then 0 else ((s.lesserParties l core quad).map s.bankOf).sum

/-- A core may take the launch's next group, apart from its parties' quads. -/
def State.coreFor (s : State) (l : Launch) (reach : Reach) (core : Nat) : Bool :=
  match reach with
  | .free => s.coreRoom l.header core
  | .evicting =>
    let h := l.header
    let gs := s.groupsOn core
    decide (gs.length < Config.groupsPerCore) && decide (h.lanes ≤ s.freeLanes core) &&
      decide ((s.parties.filter fun p => p.present && p.core == core).length + h.parties ≤ 64) &&
      decide (h.local_ ≤ s.scratchFree core + ((s.lesserGroups l core).map fun g => (s.headerOf g).local_).sum)
  | .anywhere => true

/-- Quads for `n` parties beside those taken: for each the one with the most bytes that count as free, the lower at a tie (R351). -/
def State.quadsFor (s : State) (l : Launch) (reach : Reach) (core : Nat) : (n : Nat) → (taken : List Nat) → Option (List Nat)
  | 0, _ => some []
  | n + 1, taken =>
    let size := l.header.bankBytes l.header.width
    let bytes (q : Nat) : Nat := s.bankFor l reach core q + l.header.parties * size - taken.count q * size
    let ok (q : Nat) : Bool := reach == .anywhere ||
      (decide (taken.count q < (s.freeSlots core q).length) && decide (size + l.header.parties * size ≤ bytes q))
    match firstMost bytes ((upTo 0 4).filter ok) with
    | none => none
    | some q => (s.quadsFor l reach core n (q :: taken)).map fun qs => q :: qs

/-- The place that the front end chooses for the launch's next group: of the clusters that have one the cluster with the most free
lanes, then its core with the most free lanes, then the quads; the lower number at a tie (R351; log 23). -/
def State.choosePlace (s : State) (l : Launch) (reach : Reach) : Option (Nat × List Nat) :=
  let quads (core : Nat) : Option (List Nat) := s.quadsFor l reach core l.header.parties []
  let cores := (upTo 0 Config.cores).filter fun c => s.clusterAllowed l (clusterOfCore c) && s.coreFor l reach c && (quads c).isSome
  let lanes (cluster : Nat) : Nat := ((upTo (8 * cluster) 8).map s.freeLanes).sum
  match firstMost lanes ((cores.map clusterOfCore).eraseDups) with
  | none => none
  | some k => (firstMost s.freeLanes (cores.filter fun c => clusterOfCore c == k)).bind fun c => (quads c).map fun qs => (c, qs)

/-- Where the launch's next group is placed now: at its target, once it fits there, else at the place that is chosen. -/
def State.placeFor (s : State) (l : Launch) : Option (Nat × List Nat) :=
  match l.targets with
  | [] => s.choosePlace l .free
  | t :: _ => if s.clusterAllowed l (clusterOfCore t.1) && s.fits l.header t.1 t.2 then some t else none

/-- The target of a group that fits nowhere. -/
def State.targetFor (s : State) (l : Launch) : Option (Nat × List Nat) := (s.choosePlace l .evicting).or (s.choosePlace l .anywhere)

/-- The core and quads of each group of a replay launch. -/
def Header.replayPlan (h : Header) : List (Nat × List Nat) :=
  (upTo 0 h.groups).map fun g => (8 * h.clusterOf g + h.field2 g, (upTo 0 h.parties).map fun k => k % 4)

/-- A replay launch placed as a whole, if all of it fits. -/
def State.placeReplay (s : State) (l : Launch) : Option State :=
  if l.header.replayPlan.any fun e => s.agingBlocks l (clusterOfCore e.1) then none
  else
    let r := l.header.replayPlan.foldl (fun (acc : Option State) e => match acc with
      | none => none
      | some s => match s.launch? l.id with
        | none => none
        | some l => if decide (e.1 < Config.cores) && s.fits l.header e.1 e.2 then some (s.placeGroup l e.1 e.2) else none)
      (some s)
    r.map fun s => match s.launch? l.id, s.parties.find? fun p => p.launch == l.id && p.group == 0 && p.first == 0 with
      | some l, some p => s.putLaunch { l with turn := p.pid, turnUsed := false, turnCmds := [] }
      | _, _ => s

/-- The launch's next group fits, at its target where it has one. -/
def State.fitsSomewhere (s : State) (l : Launch) : Bool :=
  if l.header.replay then (s.placeReplay l).isSome else (s.placeFor l).isSome

/-- Another launch comes first: it precedes this one and fits. -/
def State.overtaken (s : State) (l : Launch) : Bool :=
  s.launches.any fun x => x.id != l.id && s.awaitsPlacement x && s.before x l && s.fitsSomewhere x

/-- GROUP_PLACEMENT (R351, R352): the next group is placed on the core and quads, where they are the front end's choice, or, where
it fits nowhere, they become its target, on which alone it is placed then.  A replay launch is placed as a whole, and its places
are its targets. -/
def execGroupPlacement (id core : Nat) (quads : List Nat) (s : State) : Result :=
  match s.launch? id with
  | none => .next s
  | some l =>
    if s.held || !s.awaitsPlacement l || s.overtaken l then .next s
    else if l.header.replay then
      .next ((s.placeReplay l).getD (s.putLaunch { l with targets := l.header.replayPlan }))
    else match s.placeFor l with
      | some place => .next (if place = (core, quads) then s.placeGroup l core quads else s)
      | none => .next (if l.targets.isEmpty ∧ s.targetFor l = some (core, quads) then
          s.putLaunch { l with targets := [(core, quads)] } else s)

/-- PLACEMENT_AGING (R351): a group has waited 2^20 ticks at the head. -/
def execPlacementAging (id : Nat) (s : State) : Result :=
  match s.launch? id with
  | none => .next s
  | some l =>
    if s.awaitsPlacement l && s.hasAged l then .next (s.putLaunch { l with aged := true })
    else .next s

/-! ### The end of a launch (R350) -/

/-- Everything that a launch's parties issued has completed. -/
def State.launchOver (s : State) (l : Launch) : Bool :=
  l.placed == l.header.groups && (s.groups.all fun g => g.launch != l.id || g.ended) &&
    !(s.commands.any fun c => c.launch == l.id) && !(s.tasks.any fun t => t.launch == l.id) &&
    !s.collectives.any fun c => c.launch == l.id

/-- What the part holds of a launch is gone, but for the bytes of its scratchpads, which stay in their backing (R284, R359); a
party of it in focus gives way to another. -/
def State.forget (s : State) (id : Nat) : State :=
  let s := (s.groups.filter fun g => g.launch == id && !g.ended).foldl State.keepScratch s
  let rest := s.parties.filter fun p => p.launch != id
  let live := (rest.find? fun p => p.live).getD (rest.headD Party.blank)
  { s with
      party := live
      others := rest.filter fun p => p.pid != live.pid
      groups := s.groups.filter fun g => g.launch != id
      launches := s.launches.filter fun l => l.id != id }

/-- The completion word of a launch is stored, at a time above everything that the launch did (R307, R309). -/
def State.signalLaunch (s : State) (p : Place) (v : Word) : State :=
  (s.storeAs { Agent.part with time := s.marks.foldl (fun m e => Nat.max m e.2) s.synced + 1 } p (toBytes 8 v.toNat)).1

/-- LAUNCH_END (R350): the completion word is written; a denied one, or one whose line is poisoned, is dropped and reported. -/
def execLaunchEnd (id : Nat) (s : State) : Result :=
  match s.launch? id with
  | none => .next s
  | some l =>
    if !s.launchOver l then .next s
    else if l.header.done = 0 then .next (s.forget id)
    else
      let drop (d : Deny) : Result := .next ((s.report l.space.ctx
        (((Trap.scalar d.cause 0 0).denied d l.header.done).dropped (frontPlace l.queue))).forget id)
      match s.writePlaceOf (accessorIn l.space) l.header.done 8 .write with
      | .error d => drop d
      | .ok p =>
        if s.poisonedPlace p.line 128 then drop { cause := .poison }
        else .next ((s.signalLaunch p l.header.doneval).forget id)

end Sys2Proof.Machine
end

