-- ==== Sys2Proof/Machine/Eviction.lean ====
section
/-!
DEFINITION. Eviction and restore: the images of a party, who is evicted and who is restored, and the resolution of a wait
(R284, R287 to R290, R296 to R299).
-/
namespace Sys2Proof.Machine

/-! ### What a restored word holds (R290) -/

/-- Each word of an image as it was saved, or freely as a store has left it. -/
def State.chooseWords (s : State) (tag size : Nat) : (n : Nat) → List Byte → List Byte → List Byte
  | 0, _, _ => []
  | n + 1, kept, found =>
    let a := kept.take size
    let b := found.take size
    (if a = b then a else if Config.freeBit (s.seed s.party) ((n * 16 + tag) * 8 + 4) then b else a) ++
      s.chooseWords tag size n (kept.drop size) (found.drop size)

/-- A mask image read back for a party. -/
def maskFrom (bs : List Byte) (off : Nat) (lanes : Mask) : Mask := BitVec.ofNat 1024 (ofBytes ((bs.drop (off + 4)).take 128)) &&& lanes

def wordsFrom (bs : List Byte) (off n : Nat) : Vector Word n :=
  Vector.ofFn fun i => BitVec.ofNat 64 (ofBytes ((bs.drop (off + 8 * i)).take 8))

def masksFrom (bs : List Byte) (off : Nat) (lanes : Mask) : Vector Mask 8 := Vector.ofFn fun i => maskFrom bs (off + 132 * i) lanes

/-- A state word that R290 calls malformed for a header.  That a `b` or an `lo` that is no multiple of 8 breaks R31 is the model's
choice (log 80). -/
def badStateWord (h : Header) (w : Nat) : Bool :=
  let b := bitsOf w 3 10
  let lo := bitsOf w 13 10
  decide (5 < bitsOf w 0 3) || decide (11 < bitsOf w 33 4) || decide (256 < bitsOf w 54 9) ||
    decide (b < lo) || decide (lo + h.depth8 < b + h.window) || decide (1024 < b + h.window) || b % 8 != 0 || lo % 8 != 0

/-- The state word that a restore goes by; one of another width is not taken. -/
def State.chooseState (s : State) (h : Header) (kept found : Nat) : Nat :=
  if kept = found then kept
  else if (badStateWord h found || bitsOf found 0 3 == bitsOf kept 0 3) && Config.freeBit (s.seed s.party) 12 then found
  else kept

/-- How a restored wait was decided: as its state word says, with the detail that the part keeps for that code; a FUSE did not
stand while its party was away (R290, R299). -/
def decidedAs (kept : Option Word) (state : Nat) : Option Word :=
  let code : Word := BitVec.ofNat 64 (bitsOf state 46 8)
  if state.testBit 45 then (if kept.any fun st => codeOf st == code then kept else some code)
  else if bitsOf state 33 4 = 8 then some stFuseAway
  else none

/-- The wait of a restored party: the one it left with, in the fields that its record gives. -/
def State.restoredWait (s : State) (p : Party) (state : Nat) (edl w1 w2 : Word) : Option Wait :=
  let kind := bitsOf state 33 4
  if kind = 0 then none
  else
    let instr : Instr := match s.fetchWord (s.home p) p.pc with
      | .ok w => match decodeScalar w with
        | .ok i => i
        | .error _ => .yield false
      | .error _ => .yield false
    let d : Deadline := { party := false, ticks := 0, ceiling := false, poll := false, esc := false, sel := 0 }
    let fresh : Wait := { kind := WaitKind.ofCode kind, instr := instr, dest := 0, deadline := d, w1 := 0, w2 := 0, order := p.lruns
                          seq := s.ids, met := false, decided := none, work := .none, claim := none }
    let w := match p.wait with
      | some w => if w.kind.code = kind then w else fresh
      | none => fresh
    let named := w.kind == .barrier || w.kind == .semacq || w.kind == .waddr || w.kind == .twait
    some { w with
      dest := BitVec.ofNat 6 (bitsOf state 39 6)
      deadline := { w.deadline with sel := BitVec.ofNat 2 (bitsOf state 37 2), ticks := edl.toNat % 2 ^ 62, party := edl.getLsbD 62 }
      w1 := if named then w1 else w.w1
      w2 := if named && w.kind != .twait then w2 else w.w2
      decided := decidedAs w.decided state }

/-- The party that a record's bytes give, apart from its tokens, registers and lane queue.  A stored `nvr` other than 1 and 2
is taken as it is (R81, R290; log 72). -/
def State.partyFrom (s : State) (p : Party) (bs : List Byte) (state : Nat) : Party :=
  let word (off : Nat) : Word := BitVec.ofNat 64 (wordAt bs off)
  let q := { p with
    s := (wordsFrom bs 0 64).set 0 0
    dl := wordsFrom bs 0x200 4
    pc := word 0x220 &&& ~~~3
    retired := word 0x228, ptime := word 0x230, st := word 0x238, rnd := word 0x240, nvr := word 0x248
    b := bitsOf state 3 10, lo := bitsOf state 13 10, xcount := BitVec.ofNat 8 (bitsOf state 23 8)
    hmode := state.testBit 31, stopped := state.testBit 32
    p := masksFrom bs 0x300 p.allLanes
    ls := maskFrom bs 0x720 p.allLanes }
  { q with wait := s.restoredWait q state (word 0x258) (word 0x260) (word 0x268) }

/-- The batch state that a record's bytes give. -/
def Party.withBatches (p : Party) (bs : List Byte) : Party :=
  { p with
      openBatch := BitVec.ofNat 16 (ofBytes (bs.take 2))
      batches := (upTo 0 256).foldl (fun t i => Table.set 0 t i (BitVec.ofNat 32 (ofBytes ((bs.drop (8 + 4 * i)).take 4)))) [] }

/-- A lane-queue image that R290 calls malformed for a header. -/
def badQueueImage (h : Header) (bs : List Byte) : Bool :=
  let w0 := wordAt bs 0
  let n := w0 % 8
  let block (j : Nat) : Nat := wordAt bs (0x10 + 8 * j)
  let pending := wordAt bs 0x1980
  let access := (Cause.ofCode (pending % 256)).any Cause.isAccess
  decide (4 < n) || bitsOf w0 11 53 != 0 || bitsOf (wordAt bs 8) 48 16 != 0 ||
    ((upTo 0 4).any fun j => bitsOf (block j) 38 26 != 0 ||
      (decide (j < n) && decide (h.laneLen < bitsOf (block j) 0 32 + bitsOf (block j) 32 6 + 1))) ||
    ofBytes ((bs.drop 0x30).take 16) != 0 || bitsOf pending 14 50 != 0 || ofBytes ((bs.drop 0x1A1C).take 4) != 0 ||
    ofBytes (bs.drop 0x1C20) != 0 || (w0.testBit 10 && !access)

/-- The lane queue, flags and pending cause that an image's bytes give. -/
def Party.withQueue (p : Party) (bs : List Byte) : Party :=
  let w0 := wordAt bs 0
  let block (j : Nat) : Block :=
    let w := wordAt bs (0x10 + 8 * j)
    let at_ := 0x40 + 1616 * j
    let old := p.queue[j]?
    { first := bitsOf w 0 32, len := bitsOf w 32 6 + 1, lrun := (old.map Block.lrun).getD p.pc
      s := (wordsFrom bs at_ 64).set 0 0, p := masksFrom bs (at_ + 512) p.allLanes, dl := wordsFrom bs (at_ + 1568) 4
      rnd := BitVec.ofNat 64 (wordAt bs (at_ + 1600)), nvr := BitVec.ofNat 64 (wordAt bs (at_ + 1608))
      order := (old.map Block.order).getD p.lruns, unseen := (old.map Block.unseen).getD [] }
  let pending := wordAt bs 0x1980
  let trap : Trap := { Trap.scalar ((Cause.ofCode (pending % 256)).getD .poison) (BitVec.ofNat 64 (wordAt bs 0x1988)) p.pc with
    src := 1, lane := true, boff := bitsOf pending 8 6, addr := BitVec.ofNat 64 (wordAt bs 0x1990), done := maskFrom bs 0x1998 p.allLanes
    causes := BitVec.ofNat 4096 (ofBytes ((bs.drop 0x1A20).take 512)) }
  { p with
      queue := (upTo 0 (w0 % 8)).map block
      -- what was fetched of the head stands where the image names the same instruction as before
      headOp := if p.queue.head?.any (fun b => b.first + p.laneCtr == bitsOf (wordAt bs 0x10) 0 32 + bitsOf w0 3 6) then p.headOp
        else none
      laneCtr := bitsOf w0 3 6
      handlingLane := w0.testBit 9
      pendingLane := if w0.testBit 10 then some trap else none
      flags := Vector.ofFn fun i => BitVec.ofNat 4 (wordAt bs 8 / 2 ^ (4 * (i : Nat))) }

/-! ### Eviction (R284, R298) -/

/-- The steps of R298 for the party in focus; an arrival of its neighbour at a FUSE ends (R107). -/
def State.saveParty (s : State) : Except Deny State := do
  let p := s.party
  let l := s.home p
  let h := l.header
  let s ← (upTo 0 (h.depth8 / 8)).foldlM (fun s i => s.spillEight l p p.positions (p.lo + 8 * i)) s
  let s ← (upTo 0 p.tokens.length).foldlM (fun (s : State) slot =>
    match p.tokens[p.tokens.length - 1 - slot]? with
    | some t => if slot < p.spilled then pure s else s.arenaWrite l.space (h.tokensAt p.group p.first + 144 * slot) t.bytes
    | none => pure s) s
  let at_ := h.partyRecordAt p.group p.first
  let s ← s.arenaWrite l.space at_ (p.fixedImage ++ p.batchImage)
  let s ← if p.savesQueue then s.arenaWrite l.space (h.queueImageAt p.group p.first) p.queueImage else pure s
  let q := { p with evicted := true, evictedAt := s.ids, spilled := p.tokens.length
                    wait := p.wait.map fun w => { w with decided := w.awayCode, met := false } }
  let s : State := { s with party := q, ids := s.ids + 1 }
  (s.endFuses p stFuseAway).leaveCore l p.group

/-! ### Who is evicted (R297) -/

/-- Candidates in the order of R297: effective priority ascending, then footprint descending, then slot descending. -/
def sortedBy {α : Type} (first : α → α → Bool) (l : List α) : List α :=
  l.foldl (fun sorted x => sorted.takeWhile (fun y => !first x y) ++ (x :: sorted.dropWhile fun y => !first x y)) []

/-- The shortest start of a list whose sizes cover a need; none where the whole list does not. -/
def covering {α : Type} (size : α → Nat) : (need : Nat) → List α → List α
  | _, [] => []
  | need, x :: xs => if need = 0 then [] else x :: covering size (need - size x) xs

def enough {α : Type} (size : α → Nat) (need : Nat) (l : List α) : List α :=
  if need ≤ (l.map size).sum then covering size need l else []

/-- The parties of a quad that a waiting launch may have evicted, in order. -/
def State.candidates (s : State) (l : Launch) (core quad : Nat) : List Party :=
  sortedBy (fun a b =>
    let pa := s.partyPriority a
    let pb := s.partyPriority b
    decide (pa < pb) || (pa == pb && (decide (s.bankOf b < s.bankOf a) || (s.bankOf a == s.bankOf b && decide (b.slot < a.slot)))))
    (s.lesserParties l core quad)

/-- The whole groups of a core that a waiting launch may have evicted for scratchpad, in order.  That a group counts with the bank
bytes of all its residents and with their highest slot is the model's choice (R297; log 79). -/
def State.candidateGroups (s : State) (l : Launch) (core : Nat) : List Group :=
  let bank (g : Group) : Nat := ((s.residents g).map s.bankOf).sum
  let slot (g : Group) : Nat := (s.residents g).foldl (fun m p => Nat.max m p.slot) 0
  let prio (g : Group) : Nat := s.groupPriority g
  sortedBy (fun a b => decide (prio a < prio b) || (prio a == prio b &&
      (decide (bank b < bank a) || (bank a == bank b && decide (slot b < slot a))))) (s.lesserGroups l core)

/-- The victims that a launch asks for which waits for its place on a core and quads, in the order in which they leave: of each
quad parties one by one, and whole groups one by one. -/
def State.victimsAt (s : State) (l : Launch) (core : Nat) (quads : List Nat) : List (List (List Nat)) :=
  let size := l.header.bankBytes l.header.width
  let fromQuads := (upTo 0 4).map fun q =>
    let n := quads.count q
    if decide (n ≤ (s.freeSlots core q).length) && 0 < n then
      (enough s.bankOf (n * size - s.bankFree core q) (s.candidates l core q)).map fun p => [p.pid]
    else []
  let groups := enough (fun g => (s.headerOf g).local_) (l.header.local_ - s.scratchFree core) (s.candidateGroups l core)
  fromQuads ++ [groups.map fun g => (s.residents g).map fun p => p.pid]

/-- Who may leave next for a waiting launch's assignment, or for each place of a replay launch: the first of each order. -/
def State.victims (s : State) (l : Launch) : List (List Nat) :=
  l.targets.flatMap fun t => (s.victimsAt l t.1 t.2).filterMap List.head?

/-- The parties that leave with a party, if it is to be evicted: those of its suspended replay launch, gathered at the end of a turn
(R361), itself alone where its context is suspended (R358), or those that a launch of higher priority asks for next. -/
def State.leavers (s : State) (p : Party) : List Nat :=
  if !s.mustLeave p then
    ((s.launches.filter s.awaitsPlacement).flatMap s.victims).find? (fun v => v.contains p.pid) |>.getD []
  else if (s.home p).header.replay then
    (s.parties.filter fun q => q.launch == p.launch && q.live && !q.evicted).map fun q => q.pid
  else [p.pid]

/-- A party that leaves: at a park point, or gathered at one (R361). -/
def State.mayLeave (s : State) (p : Party) : Bool := p.live && !p.evicted && (s.gathered p || s.atPark p)

/-- Parties evicted one after the other, as of one moment; none of them where a save fails. -/
def State.evictAll (s : State) (pids : List Nat) : Except Deny State := do
  let now := s.ids
  let t ← pids.foldlM (fun (s : State) pid => (s.focus pid).saveParty) s
  let t := t.focus s.party.pid
  let stamp (p : Party) : Party := if pids.contains p.pid then { p with evictedAt := now } else p
  pure { t with party := stamp t.party, others := t.others.map stamp }

/-- EVICTION (R297, R298). -/
def execEviction (pid : Nat) (s : State) : Result :=
  match s.party? pid with
  | none => .next s
  | some p =>
    if (s.leavers p).isEmpty || !(s.leavers p).all (fun i => (s.party? i).all s.mayLeave) then .next s
    else match s.evictAll (s.leavers p) with
      | .ok t => .next t
      | .error _ => .next s

/-! ### Restore (R289, R290, R299) -/

/-- The scratchpad and records of a group come back with its first party, and the root records with the first of its cluster:
the state, and what denied some of it.  Where a fault of it is offered the state does not count. -/
def State.reloadGroup (s : State) (l : Launch) (g : Nat) : State × List Deny :=
  match s.group? l.id g with
  | none => (s, [])
  | some gr =>
    if s.groupResident l.id g then (s, [])
    else
      let c := l.header.clusterOf g
      let fresh := List.replicate 16 (Barrier.fresh l.header.lanes)
      let roots := if s.clusterResident l c then (Table.get [] l.roots c, []) else orDefault (s.storedRoots l c) (l.header.freshRoots c)
      let leaf := orDefault (s.storedBarriers l g 0) fresh
      let cleaf := orDefault (s.storedBarriers l g 0x400) fresh
      let x := s.loadScratch l gr
      let now := (x.1.launch? l.id).getD l
      ((x.1.putGroup { x.2.1 with leaf := leaf.1, cleaf := cleaf.1 }).putLaunch { now with roots := Table.set [] now.roots c roots.1 },
        x.2.2 ++ leaf.2 ++ cleaf.2 ++ roots.2)

/-- The token stack of a restored party: `depth` slots, the innermost brought into hardware. -/
def State.reloadTokens (s : State) (l : Launch) (p : Party) (depth : Nat) : Except Deny Party := do
  let spilled := depth - Config.hardwareTokens
  let slots ← (upTo 0 depth).mapM fun slot => do
    let kept := if slot < p.tokens.length then p.tokens[p.tokens.length - 1 - slot]? else none
    match kept with
    | some t =>
      if slot < spilled then pure t
      else
        let bs ← s.arenaRead l.space (l.header.tokensAt p.group p.first + 144 * slot) 144
        pure (s.filledToken p slot t bs)
    | none =>
      let bs ← s.arenaRead l.space (l.header.tokensAt p.group p.first + 144 * slot) 144
      pure (s.filledToken p slot { isBreak := false, addr := 0, image := 0 } bs)
  pure { p with tokens := slots.reverse, spilled := spilled }

/-- The party in focus with its saved state back; none where an image is malformed.  It left with every flag raised, so that
what its lane instructions wrote is certain (R34, R298). -/
def State.reloadParty (s : State) : Except Deny (Option Party) := do
  let p := { s.party with looseMasks := [] }
  let l := s.home p
  let h := l.header
  let bs ← s.arenaRead l.space (h.partyRecordAt p.group p.first) 4096
  let kept := p.fixedImage
  let words := s.chooseWords 0 8 96 kept bs ++ s.chooseWords 1 4 320 (kept.drop 0x300) (bs.drop 0x300)
  let state := s.chooseState h p.stateWord (wordAt bs 0x250)
  if badStateWord h state then pure none
  else
    let q := (if words = kept ∧ state = p.stateWord then p else s.partyFrom p words state).withBatches (bs.drop 0x800)
    let q ← s.reloadTokens l q (bitsOf state 54 9)
    let q ← s.fill l q q.positions q.lo h.depth8
    if !state.testBit 63 then
      pure (some (if p.savesQueue then
        { q with queue := [], laneCtr := 0, flags := Vector.replicate 12 0, pendingLane := none, handlingLane := false } else q))
    else
      let im ← s.arenaRead l.space (h.queueImageAt p.group p.first) 8192
      let saved := if p.savesQueue then p.queueImage else zeros 8192
      let chosen := s.chooseWords 2 8 2048 saved im
      if chosen = saved then pure (some q)
      else if badQueueImage h chosen then pure none
      else pure (some (q.withQueue chosen))

/-- A restored party's wait goes on: a request is made anew, for the work that its instruction read at issue (log 78), and a wait
that was decided, or now is, ends.  In a replay launch it is tested, and ends, in its party's turn (R352, R353; log 74). -/
def State.resumeWait (s : State) : State :=
  match s.party.wait with
  | none => s
  | some w => match w.decided with
    | some st => if (s.home s.party).header.replay then s else s.endWith w st
    | none =>
      let w := if w.kind == .accept then { w with seq := s.ids } else w
      let t : State := { s.setWait (some w) with ids := s.ids + 1 }
      if (s.home s.party).header.replay then t.setWait (some { w with restored := true })
      else if w.deadline.passed t t.party then t
      else if w.kind == .waddr && !w.met then match t.attempt w with
        | .ended u _ => u.endWith w stChanged
        | .trapped .. => t.testWait
        | _ => t
      else t.testWait

/-- A fault met while a party comes back, against the instruction at its pc, with src 3 (R299). -/
def Party.reloadTrap (p : Party) (d : Deny) : Trap :=
  { (Trap.scalar d.cause p.pc p.pc).denied d 0 with src := 3 }

/-- A fault that system software is asked about (R151). -/
def Deny.offered (d : Deny) : Bool := d.cause == .permission || d.cause == .translation

/-- The party in focus is back with its group, and takes a fault that its restore met and that is not offered. -/
def State.failRestore (s : State) (d : Deny) : State :=
  let t := s.withdrawWait
  t.takeTrap (t.party.reloadTrap d)

/-- The steps of R299 for the party in focus; its logical time is its core's high-water mark (R319).  A fault that is offered
leaves the party away until the answer: the restore is then tried again, or the party halts.  After poison the party is back
with what could be read, as it was saved where its own record could not, and takes the cause (R31; log 24). -/
def State.restoreParty (s : State) : State :=
  let r := s.reloadGroup (s.home s.party) s.party.group
  let t := r.1
  let back (q : Party) : State := { t with party := { q with evicted := false, pt := Nat.max q.pt (Table.get 0 t.marks q.core) } }
  match r.2.find? Deny.offered with
  | some d => s.offerTrap (s.party.reloadTrap d)
  | none => match t.reloadParty, r.2 with
    | .error d, _ => if d.offered then s.offerTrap (s.party.reloadTrap d) else (back t.party).failRestore d
    | .ok none, _ => (back t.party).halt
    | .ok (some q), [] => (back q).resumeWait
    | .ok (some q), d :: _ => (back q).failRestore d

/-- The part may restore a party: its quad, and for a group that is wholly away its core, has room, and nothing of higher
effective priority waits for the quad (R297). -/
def State.restorable (s : State) (p : Party) : Bool :=
  let l := s.home p
  let prio := s.priority l
  let here (t : Nat × List Nat) : Bool := t.1 == p.core && t.2.contains p.quad
  p.live && p.evicted && p.offer.all (fun o => o.trap.cause == .stuck) && s.served l.space.ctx && !s.held &&
    decide (s.bankOf p ≤ s.bankFree p.core p.quad) &&
    (s.groupResident p.launch p.group || decide (l.header.local_ ≤ s.scratchFree p.core)) &&
    !(s.launches.any fun x => s.awaitsPlacement x && decide (prio < s.priority x) && x.targets.any here) &&
    !s.parties.any fun x => x.pid != p.pid && x.live && x.evicted && x.core == p.core && x.quad == p.quad &&
      s.served (s.home x).space.ctx && (decide (prio < s.partyPriority x) ||
        (s.partyPriority x == prio && decide (x.evictedAt < p.evictedAt)))

/-- The parties that come back with a party: those of a replay launch that left with it (R361). -/
def State.returners (s : State) (p : Party) : List Nat :=
  if (s.home p).header.replay then
    (s.parties.filter fun q => q.launch == p.launch && q.live && q.evicted && q.evictedAt == p.evictedAt).map fun q => q.pid
  else [p.pid]

/-- Parties restored one after the other, where each finds its place. -/
def State.restoreAll (s : State) (pids : List Nat) : Option State :=
  (pids.foldlM (fun (s : State) pid =>
    let f := s.focus pid
    if f.restorable f.party then some f.restoreParty else none) s).map fun t => t.focus s.party.pid

/-- RESTORE (R297, R299): what was gathered for a suspension of a replay launch is over (R361). -/
def execRestore (pid : Nat) (s : State) : Result :=
  match s.party? pid with
  | none => .next s
  | some p => match s.restoreAll (s.returners p) with
    | none => .next s
    | some t => .next { t with launches := t.launches.map fun l => if l.id = p.launch then { l with gather := false } else l }

end Sys2Proof.Machine
end

