-- ==== Sys2Proof/Machine/ContextCommands.lean ====
section
/-!
DEFINITION. Context commands: invalidation, Reset, Suspend and Resume (R326, R354, R357 to R359).
-/
namespace Sys2Proof.Machine

/-! ### The protocol (R357) -/

/-- The pending command is complete: its word is stored, and once the host can read it vector 1 is raised (R357, R367). -/
def State.completeCommand (s : State) (ctx result : Nat) : State :=
  let c := s.context ctx
  let code := c.cmd.getD 0
  let s := s.putContext { c with cmd := none, begun := false }
  match s.ctxEntry ctx with
  | some e =>
    let word := toBytes 8 (2 ^ 63 + result * 2 ^ 56 + code)
    ((s.store (.phys (e.record + 0x28) 0) word).showHost (.phys e.record 0) 128).interrupt e.fn 1
  | none => s

/-- The states that permit a command. -/
def Context.permits (c : Context) (code : Nat) : Bool :=
  match code with
  | 1 | 2 | 3 => decide (c.state ≤ 2)
  | 4 => decide (c.state ≤ 1) || c.begun
  | 5 => c.state == 2
  | _ => false

/-- The part looks at a context's command word for a command of a code: it performs one that is permitted, and refuses one
that is not, or whose code is unknown. -/
def contextCommand (ctx code : Nat) (s : State) (perform : CtxEntry → State → State) : Result :=
  let s := s.noticeCommand ctx
  match s.ctxEntry ctx, (s.context ctx).cmd with
  | some e, some c =>
    if c = code then
      .next (if (s.context ctx).permits code then perform e s else s.completeCommand ctx 1)
    else if c = 0 ∨ 5 < c then .next (s.completeCommand ctx 1)
    else .next s
  | _, _ => .next s

/-! ### Invalidation (R326) -/

/-- A lane access of the context is outstanding at an absent part, or a lane instruction of it has made some of its events and
not yet the rest. -/
def State.remoteBusy (s : State) (ctx : Nat) : Bool :=
  s.parties.any fun p => p.live && (s.home p).space.ctx == ctx &&
    (p.part.isSome || p.inflight.any fun i => !i.remotes.isEmpty)

/-- No entry of a walk of an ASID stays cached, at any level, that serves a range of addresses. -/
def State.dropTranslations (s : State) (asid lo n : Nat) : State :=
  { s with copies := s.copies.filter fun c => match c with
      | .translation a k base _ =>
        !(a == asid && decide (base * 2 ^ levelShift k < lo + n) && decide (lo < (base + 1) * 2 ^ levelShift k))
      | _ => true }

/-- Bytes of the page that Invalidate page names; none for an `arg2` of 3, whose result the manual leaves open (log 45). -/
def pageBytes (arg2 : Word) : Option Nat :=
  match arg2.toNat % 4 with
  | 0 => some (2 ^ 16)
  | 1 => some (2 ^ 21)
  | 2 => some (2 ^ 30)
  | _ => none

/-- INVALIDATE_PAGE (R326, R357). -/
def execInvalidatePage (ctx : Nat) (s : State) : Result :=
  contextCommand ctx 1 s fun e s =>
    if s.remoteBusy ctx then s
    else
      let va := (s.ctxField e 0x30).toNat
      match pageBytes (s.ctxField e 0x38) with
      | some n => (s.dropTranslations e.asid (va / n * n) n).completeCommand ctx 0
      | none => s.completeCommand ctx (if Config.freeBit s.free 13 then 1 else 0)

/-- INVALIDATE_ALL (R326, R357). -/
def execInvalidateAll (ctx : Nat) (s : State) : Result :=
  contextCommand ctx 2 s fun e s =>
    if s.remoteBusy ctx then s else (s.dropTranslations e.asid 0 (2 ^ 64)).completeCommand ctx 0

/-! ### Reset (R359) -/

/-- The event of a launch that a reset ends. -/
def State.reportReset (s : State) (ctx queue : Nat) : State :=
  s.report ctx { kind := 5, cause := 0x0A, place := frontPlace queue }

/-- Every remaining slot of a queue is taken, and its launch reported. -/
def State.drainQueue (s : State) (ctx queue : Nat) (sp : Space) (hdr : Word) : (fuel : Nat) → State
  | 0 => s
  | n + 1 => match s.ring (accessorIn sp) hdr with
    | .error _ => s
    | .ok r =>
      if !r.forLaunches then s
      else match s.takeSlot sp hdr r with
        | none => s
        | some (t, _, _) => (t.reportReset ctx queue).drainQueue ctx queue sp hdr n

/-- The enabled queues of a context. -/
def State.queuesOf (s : State) (ctx : Nat) : List Nat :=
  (s.entriesAt (s.bar.qtbase.toNat / 65536 * 65536) 16 9 4096).filter fun q => (s.queueOf q).any fun e => e.1 == ctx

/-- A tile task ends ABORTED: its destination stays or stands again as it was, the block that it has taken goes back, and its batch
is told (R242, R296, R359). -/
def State.abortTask (s : State) (id : Nat) : State :=
  match s.tasks.find? fun t => t.id == id with
  | some t => (s.undoTask t).retireTask t stAborted
  | none => s

/-- Steps 1 to 6 of R359. -/
def State.resetContext (s : State) (ctx : Nat) : State :=
  let s := (s.putContext { s.context ctx with begun := false }).enterState ctx 3
  let s := match s.spaceOf ctx with
    | some sp => (s.queuesOf ctx).foldl (fun (s : State) q => match s.queueOf q with
        | some e => s.drainQueue ctx q sp e.2 65536
        | none => s) s
    | none => s
  let mine := s.launches.filter fun l => l.space.ctx == ctx
  let s := (mine.filter fun l => l.placed == 0).foldl (fun (s : State) l => (s.forget l.id).reportReset ctx l.queue) s
  let running := mine.filter fun l => l.placed != 0
  let gone (id : Nat) : Bool := running.any fun l => l.id == id
  let s : State := { s with
    commands := s.commands.filter fun c => !gone c.launch
    collectives := s.collectives.filter fun c => !gone c.launch }
  let aborted := (s.tasks.filter fun t => gone t.launch).map fun t => t.id
  let s := aborted.foldl State.abortTask { s with taskImages := s.taskImages.filter fun i => !aborted.contains i.1 }
  let s := s.assignUnits
  let s := running.foldl (fun (s : State) l => s.forget l.id) s
  let s := running.foldl (fun (s : State) l => s.reportReset ctx l.queue) s
  let asks (e : Nat × List Byte) : Bool := e.1 == ctx && (e.2.head? == some 1 || e.2.head? == some 3)
  let s : State := { s with
    tickets := s.tickets.filter fun t => t.ctx != ctx
    events := s.events.filter fun e => !asks e
    instances := s.instances.filter fun e => e.1 != ctx }
  let s := match s.replyAt ctx 0 with
    | some (sp, a) => (s.zeroRange sp a.toNat 2048).watchAll
    | none => s
  s.enterState ctx 1

/-- RESET (R359). -/
def execReset (ctx : Nat) (s : State) : Result :=
  contextCommand ctx 3 s fun _ s => (s.resetContext ctx).completeCommand ctx 0

/-! ### Suspend and Resume (R358) -/

/-- Every party of a context has been evicted, has halted or has exited. -/
def State.allAway (s : State) (ctx : Nat) : Bool :=
  s.parties.all fun p => !(p.live && !p.evicted && (s.home p).space.ctx == ctx)

/-- SUSPEND (R358): the part serves the context no longer; once every party has been evicted, the state word becomes 2 and the
command completes in one step, so that a Resume written when that word reads 2 meets no pending command (R360; log 76). -/
def execSuspend (ctx : Nat) (s : State) : Result :=
  contextCommand ctx 4 s fun _ s =>
    let s := if (s.context ctx).begun then s else s.putContext { s.context ctx with state := 2, begun := true }
    if s.allAway ctx then (s.enterState ctx 2).completeCommand ctx 0 else s

/-- RESUME (R358): what was gathered for a suspension is over (R361). -/
def execResume (ctx : Nat) (s : State) : Result :=
  contextCommand ctx 5 s fun _ s =>
    let t := s.enterState ctx 1
    { t with launches := t.launches.map fun (l : Launch) =>
        if l.space.ctx = ctx then { l with gather := false } else l }.completeCommand ctx 0

end Sys2Proof.Machine
end

