-- ==== Sys2Proof/Machine/HostPort.lean ====
section
/-!
DEFINITION. The host port: the registers of BAR0, the aperture of BAR2, function-level reset and MSI-X (R364 to R367).
-/
namespace Sys2Proof.Machine

/-! ### BAR0 (R365) -/

/-- A byte of the mailboxes; zero outside them. -/
def Bar0.boxByte (b : Bar0) (off : Nat) : Byte :=
  if 0x200 ≤ off ∧ off < 0x400 then byteAt b.gmbox (off - 0x200)
  else if 0x400 ≤ off ∧ off < 0x600 then byteAt b.mcbox (off - 0x400)
  else 0

/-- The mailboxes after a write of some bytes; what falls outside them is discarded. -/
def Bar0.boxWrite (b : Bar0) (off : Nat) (bs : List Byte) : Bar0 :=
  { b with
      gmbox := if 0x200 ≤ off ∧ off < 0x400 then writeBytes b.gmbox (off - 0x200) (bs.take (0x400 - off)) else b.gmbox
      mcbox := if 0x400 ≤ off + bs.length ∧ off < 0x600 then
          writeBytes b.mcbox (off - 0x400) ((bs.drop (0x400 - off)).take (0x600 - Nat.max off 0x400))
        else b.mcbox }

/-- The value of a register as a function reads it; zero at an offset that is not listed for it. -/
def State.register (s : State) (fn off : Nat) : Word :=
  let b := s.bar
  match off with
  | 0x0000 => BitVec.ofNat 64 (b.ready.toNat + 2 * b.trip.toNat + 4 * (b.part % 4096))
  | 0x0010 => Table.get 0 b.apctx fn
  | 0x0018 => Table.get 0 b.apbase fn
  | 0x0100 => if fn = 0 then b.qtbase else 0
  | 0x0108 => if fn = 0 then b.ctxbase else 0
  | 0x0110 => if fn = 0 then b.rngbase else 0
  | 0x0118 => if fn = 0 then b.pwrcap else 0
  | _ =>
    if fn ≠ 0 ∨ off < 0x200 then 0
    else BitVec.ofNat 64 (ofBytes ((upTo off 8).map b.boxByte))

/-- The power cap that a write stores: the nearer limit where it lies outside 1,200 to 3,400. -/
def clampPower (v : Word) : Word := if v.toNat < 1200 then 1200 else if 3400 < v.toNat then 3400 else v

/-- BAR0 after a write of eight bytes by a function. -/
def Bar0.write (b : Bar0) (fn off : Nat) (v : Word) : Bar0 :=
  match off with
  | 0x0010 => { b with apctx := Table.set 0 b.apctx fn (v &&& 0x1FFF) }
  | 0x0018 => { b with apbase := Table.set 0 b.apbase fn v }
  | 0x0100 => if fn = 0 then { b with qtbase := v } else b
  | 0x0108 => if fn = 0 then { b with ctxbase := v } else b
  | 0x0110 => if fn = 0 then { b with rngbase := v } else b
  | 0x0118 => if fn = 0 then { b with pwrcap := clampPower v } else b
  | _ =>
    if fn ≠ 0 ∨ off < 0x200 then b else b.boxWrite off (toBytes 8 v.toNat)

/-- The port answers a function (R364, R374). -/
def State.answers (s : State) (fn : Nat) : Bool := s.bar.ready && decide (fn ≤ 192)

/-- REGISTER_WRITE (R365). -/
def execRegisterWrite (fn off : Nat) (value : Word) (s : State) : Result :=
  .next (if s.answers fn then { s with bar := s.bar.write fn off value } else s)

/-- DOORBELL (R365): a ring only hastens the front end's next look at the queue, which LAUNCH_TAKE is. -/
def execDoorbell (_fn : Nat) (_value : Word) (s : State) : Result := .next s

/-! ### The aperture (R366) -/

/-- The context that a function's APCTX names. -/
def State.aperture (s : State) (fn : Nat) : Option (Nat × Space) :=
  let v := (Table.get 0 s.bar.apctx fn).toNat
  if s.answers fn && bitsOf v 12 1 == 1 then
    match s.spaceOf (bitsOf v 0 12) with
    | some sp => if sp.fn = fn then some (bitsOf v 0 12, sp) else none
    | none => none
  else none

/-- The virtual address of a byte of the aperture. -/
def State.apertureAddress (s : State) (fn off : Nat) : Nat :=
  ((Table.get 0 s.bar.apbase fn).toNat / 65536 * 65536 + off) % 2 ^ 64

/-- The holders of a range of addresses in a context with the bytes of each, or the first fault with its address; `fuel` bounds
them. -/
def State.hostSpans (s : State) (sp : Space) (need : Rights) : (fuel va n : Nat) → Except (Deny × Nat) (List (Place × Nat))
  | 0, _, _ => .ok []
  | fuel + 1, va, n =>
    if n = 0 then .ok []
    else match s.globalSpan sp va n need with
      | .error d => .error (d, va)
      | .ok (p, k) =>
        if need.w && s.unreachable p then .error ({ cause := .poison }, va)
        else (s.hostSpans sp need fuel (va + k) (n - k)).map fun r => (p, k) :: r

/-- The bytes of an access lie in BAR2 (R364). -/
def inAperture (off n : Nat) : Bool := decide (off + n ≤ 2 ^ 36)

/-- The where word of an event that no core, engine or queue raised (log 46). -/
def State.openPlace (s : State) : Nat := (Config.freeWord s.free 21).toNat % 2 ^ 27

/-- The event of a host access that faulted. -/
def State.hostFault (s : State) (ctx : Nat) (e : Deny × Nat) : State :=
  s.report ctx { kind := 4, cause := e.1.cause.code, extent := e.1.extent, keyFault := e.1.keyFault
                 malformed := e.1.malformed, addr := BitVec.ofNat 64 e.2, place := s.openPlace }

def State.logHost (s : State) (e : HostEnd) : State := { s with hostLog := s.hostLog ++ [e] }

/-- HOST_READ (R366): reads are performed in the order of the script, and what is seen bounds what a later one may miss (R315).  One
request acts in one step, read in aligned units of up to eight bytes, which is the model's choice (R301; log 82). -/
def execHostRead (fn off len : Nat) (s : State) : Result :=
  if !s.answers fn || !inAperture off len then .next s
  else match s.aperture fn with
    | none => .next (s.logHost (.abort fn))
    | some (ctx, sp) => match s.hostSpans sp .read len (s.apertureAddress fn off) len with
      | .error e => .next ((s.hostFault ctx e).logHost (.abort fn))
      | .ok ps =>
        let got := ps.map fun p => s.agentRead .host 8 p.1 p.2
        let t := ps.foldl (fun (s : State) p => s.hostSaw p.1 p.2) s
        .next (t.logHost (.data fn (got.flatMap Served.bytes) (got.any fun r => r.bad.any id)))

/-- HOST_WRITE (R316, R366): one on a part that does not answer is discarded and reported as poison (R328; log 46).  One request acts
in one step, which is the model's choice (R301; log 82). -/
def execHostWrite (fn off : Nat) (bytes : List Byte) (s : State) : Result :=
  if !inAperture off bytes.length then .next s
  else match s.aperture fn with
    | none => .next s
    | some (ctx, sp) => match s.hostSpans sp .write bytes.length (s.apertureAddress fn off) bytes.length with
      | .error e => .next (s.hostFault ctx e)
      | .ok ps =>
        .next (ps.foldl (fun (acc : State × List Byte) p =>
          ((acc.1.storeAs .host p.1 (acc.2.take p.2)).1, acc.2.drop p.2)) (s, bytes)).1

/-! ### Function-level reset and MSI-X (R367) -/

/-- What a function-level reset of a VF does. -/
def State.resetFunction (s : State) (fn : Nat) : State :=
  let mine := s.validContexts.filter fun i => (s.ctxEntry i).any fun e => e.fn == fn
  let s := mine.foldl State.resetContext s
  { s with bar := { s.bar with apctx := Table.set 0 s.bar.apctx fn (Table.get 0 s.bar.apctx fn &&& ~~~0x1000) } }

/-- FUNCTION_LEVEL_RESET (R367): that of the PF does the same for every function. -/
def execFunctionLevelReset (fn : Nat) (s : State) : Result :=
  .next (if fn = 0 then (upTo 0 193).foldl State.resetFunction s
    else if fn ≤ 192 then s.resetFunction fn else s)

/-- VECTOR_UNMASK (R367): an interrupt held pending is sent. -/
def execVectorUnmask (fn vector : Nat) (s : State) : Result :=
  let v := (fn, vector)
  if 192 < fn ∨ 1 < vector ∨ s.unmasked.contains v then .next s
  else
    let held := s.pendingIrq.contains v
    .next { s with
      unmasked := v :: s.unmasked
      pendingIrq := s.pendingIrq.filter fun x => x != v
      sentIrq := if held then s.sentIrq ++ [v] else s.sentIrq }

end Sys2Proof.Machine
end

