-- ==== Sys2Proof/Machine/Dram.lean ====
section
/-!
DEFINITION. Where a byte of HBM lies: its stack, the hash of its stack offset, its channel and pseudo-channel, and the address
there (R320, R321, R329, R330).
-/
namespace Sys2Proof.Machine

/-! ### The hash masks (R329) -/

/-- The default of HMASKj. -/
def defaultMask (j : Nat) : Word := (1 : Word) <<< (6 + j)

/-- HMASKj of a stack. -/
def State.hashMask (s : State) (stack j : Nat) : Word := Table.get 0 s.hmask (6 * stack + j) ^^^ defaultMask j

/-- The masks are valid: every res0 bit zero, and the rows of H independent (R329). -/
def masksValid (ms : List Word) : Bool :=
  (ms.all fun m => bitsOf m.toNat 0 6 == 0 && bitsOf m.toNat 36 28 == 0) &&
    (upTo 1 63).all fun pick => (ms.zipIdx.foldl (fun x m => if pick.testBit m.2 then x ^^^ bitsOf m.1.toNat 6 6 else x) 0) != 0

/-- Output j of the hash: the parity of the stack offset's bits that HMASKj selects. -/
def hashBit (mask : Word) (offset : Nat) : Nat := ((upTo 0 64).filter fun i => mask.getLsbD i && offset.testBit i).length % 2

/-- The six outputs of a stack for an offset; output 0 is bit 0. -/
def State.stackHash (s : State) (stack offset : Nat) : Nat :=
  (upTo 0 6).foldl (fun h j => h + hashBit (s.hashMask stack j) offset * 2 ^ j) 0

/-! ### The place of a byte (R320, R330) -/

/-- A byte of HBM: its part and stack, its channel and pseudo-channel, and the fields of the address there. -/
structure DramPlace where
  part : Nat
  stack : Nat
  channel : Nat
  pseudoChannel : Nat
  row : Nat
  bank : Nat
  column : Nat
  byte : Nat
  deriving DecidableEq, Repr

/-- The pseudo-channel address of a stack offset. -/
def pseudoAddress (offset : Nat) : Nat := bitsOf offset 12 24 * 2 ^ 6 + bitsOf offset 0 6

/-- Where the byte of a domain physical address lies. -/
def State.dramPlace (s : State) (pa : Nat) : DramPlace :=
  let offset := bitsOf pa 0 36
  let stack := bitsOf pa 36 4
  let h := s.stackHash stack offset
  let p := pseudoAddress offset
  { part := bitsOf pa 44 12, stack := stack, channel := h % 32, pseudoChannel := h / 32
    row := bitsOf p 14 16, bank := bitsOf p 10 4, column := bitsOf p 6 4, byte := bitsOf p 0 6 }

end Sys2Proof.Machine
end

