-- ==== Sys2Proof/Machine/Hub.lean ====
section
/-!
DEFINITION. The hub: bring-up, Gnomer, the management controller, power and cooling, soft errors, scrubbing and the halving
of scores (R196, R331, R337, R374 to R377).
-/
namespace Sys2Proof.Machine

/-! ### Bring-up (R374) -/

/-- The stacks of a part read zero, in the clear and without poison, and no copy of them stays (R331). -/
def State.eraseStacks (s : State) (part : Nat) : State :=
  let lo := part * 2 ^ 44
  let inside (x : Nat) : Bool := decide (lo / 64 ≤ x) && decide (x < (lo + 2 ^ 44) / 64)
  { s with
      mem := clearBytes s.mem lo (2 ^ 44)
      tags := s.tags.filter fun e => !inside e.1
      poison := s.poison.filter fun x => !inside x }

/-- BRING_UP from power-on or a module reset: the firmware is measured, and where the images verify every stack of the part is
initialised, the part takes its number and joins the Lantern, and STATUS bit 0 is set.  The memory of other parts keeps its
contents (log 58), and the model's own script, counters and logs go on. -/
def execBringUp (verified : Bool) (part : Nat) (s : State) : Result :=
  let joined := Config.freeWord s.free 30
  let up : State := { State.reset with
    lantern := if joined.toNat < s.lantern.toNat then s.lantern else joined
    measurements := (upTo 0 4).map Config.measurement
    mem := s.mem
    tags := s.tags
    poison := s.poison
    sentIrq := s.sentIrq
    hostLog := s.hostLog
    agenda := s.agenda
    free := s.free
    ids := s.ids }
  if 3071 < part then .next s
  else .next (if verified then { up.eraseStacks part with bar := { Bar0.powerOn with ready := true, part := part } } else up)

/-! ### Mailboxes (R375, R376) -/

/-- A request stands in a mailbox. -/
def requested (box : List Host.Cell) : Bool := byteAt box 0x1F8 == 1

/-- A number of eight bytes of a request. -/
def requestNat (box : List Host.Cell) (off : Nat) : Nat := ofBytes (readBytes box off 8)

/-- A response is written, then 2 to byte 0x1F8. -/
def respond (box : List Host.Cell) (bs : List Byte) : List Host.Cell :=
  writeBytes (writeBytes box 0x100 (bs.take 248)) 0x1F8 [2]

/-- A status that refuses. -/
def State.refusalStatus (s : State) : Nat :=
  let w := (Config.freeWord s.free 31).toNat
  if w = 0 then 1 else w

/-- Gnomer serves a request for a command; a command that it does not know is refused. -/
def gnomer (s : State) (command : Nat) (serve : List Host.Cell → State × List Byte) : Result :=
  let box := s.bar.gmbox
  let asked := requestNat box 0
  if !s.bar.ready || !requested box then .next s
  else if asked = command then
    let r := serve box
    .next { r.1 with bar := { r.1.bar with gmbox := respond box r.2 } }
  else if asked = 0 ∨ 3 < asked then
    .next { s with bar := { s.bar with gmbox := respond box (toBytes 8 s.refusalStatus) } }
  else .next s

/-- The report: nonce, measurements, part number, fused serial, the occupied slots, and then the signature with the
certificate's address (R375). -/
def State.reportBytes (s : State) (nonce : List Byte) : List Byte :=
  let signed := nonce ++ (s.measurements.flatMap fun m => toBytes 64 m.toNat) ++ toBytes 2 s.bar.part ++
    toBytes 8 Config.fusedSerial.toNat ++ toBytes 32 (s.keys.foldl (fun n k => n ||| 2 ^ (k.1 % 256)) 0)
  signed ++ (upTo 0 1288).map (Config.attestTail signed)

/-- ATTEST (R375): the response holds the report as far as it has room (log 14). -/
def execAttest (s : State) : Result :=
  gnomer s 1 fun box =>
    let report := s.reportBytes (readBytes box 8 32)
    ({ s with attested := report }, report.take 248)

/-- A key slot that a request may name. -/
def goodSlot (n : Nat) : Bool := decide (1 ≤ n) && decide (n ≤ 255)

def State.occupied (s : State) (slot : Nat) : Bool := s.keys.any fun k => k.1 == slot

/-- Some valid context's key mask names a slot. -/
def State.slotNamed (s : State) (slot : Nat) : Bool :=
  s.validContexts.any fun i => (s.ctxEntry i).any fun e => e.keyMask.getLsbD slot

/-- KEYLOAD (R375). -/
def execKeyload (s : State) : Result :=
  gnomer s 2 fun box =>
    let slot := requestNat box 8
    if !goodSlot slot || s.occupied slot || !s.slotNamed slot then (s, toBytes 8 s.refusalStatus)
    else
      let number (off : Nat) : BitVec 256 := BitVec.ofNat 256 (ofBytes (readBytes box off 32))
      let k := Config.deriveKey (number 16) (number 48) slot
      ({ s with keys := s.keys.filter (fun e => e.1 < slot) ++ ((slot, k) :: s.keys.filter fun e => slot < e.1) }, toBytes 8 0)

/-- The copies that a test on sectors or key slots picks leave every cache. -/
def State.dropSectors (s : State) (p : (sector key : Nat) → Bool) : State :=
  let hit (q : Place) (n : Nat) : Bool := match q with
    | .phys pa key _ => (sectorsOf pa n).any fun x => p x key
    | .spad .. => false
  { s with copies := s.copies.filter fun c => match c with
      | .engine e => !hit e.place e.content.length
      | .bytes _ spans _ => !spans.any fun e => hit e.1 e.2
      | _ => true }

/-- A slot's sectors as they lie in DRAM: what no key has is kept as ciphertext. -/
def State.sealSlot (s : State) (slot : Nat) : State :=
  let mine := (s.tags.filter fun e => e.2 == slot).map fun e => e.1
  mine.foldl (fun s x => s.rekey x 0) (s.dropSectors fun x key => mine.contains x || key == slot)

/-- KEYCLEAR (R375): copies are written back under the key and dropped before the slot is emptied. -/
def execKeyclear (s : State) : Result :=
  gnomer s 3 fun box =>
    let slot := requestNat box 8
    if !goodSlot slot then (s, toBytes 8 s.refusalStatus)
    else
      let t := s.sealSlot slot
      ({ t with keys := t.keys.filter fun e => e.1 != slot }, toBytes 8 0)

/-! ### The management controller (R329, R331, R376) -/

/-- Work is in flight: a launch taken and not ended, or a command, task or collective. -/
def State.workInFlight (s : State) : Bool :=
  !s.launches.isEmpty || !s.commands.isEmpty || !s.tasks.isEmpty || !s.collectives.isEmpty

/-- The masks are put in force and every byte of the stack reads zero, in the clear and without poison (R331). -/
def State.initStack (s : State) (stack : Nat) (ms : List Word) : State :=
  let lo := s.bar.part * 2 ^ 44 + stack * 2 ^ 36
  let inside (x : Nat) : Bool := decide (lo / 64 ≤ x) && decide (x < (lo + 2 ^ 36) / 64)
  { s.dropSectors (fun x _ => inside x) with
    hmask := ms.zipIdx.foldl (fun t m => Table.set 0 t (6 * stack + m.2) (m.1 ^^^ defaultMask m.2)) s.hmask
    mem := clearBytes s.mem lo (2 ^ 36)
    tags := s.tags.filter fun e => !inside e.1
    poison := s.poison.filter fun x => !inside x }

/-- The management controller serves a request for a command; one that it does not know is refused. -/
def management (s : State) (command : Nat) (serve : List Host.Cell → State × List Byte) : Result :=
  let box := s.bar.mcbox
  let asked := requestNat box 0
  if !s.bar.ready || !requested box then .next s
  else if asked = command then
    let r := serve box
    .next { r.1 with bar := { r.1.bar with mcbox := respond box r.2 } }
  else if asked = 0 ∨ 2 < asked then .next { s with bar := { s.bar with mcbox := respond box (toBytes 8 1) } }
  else .next s

/-- A stack number above 11, or a bit set past the request's last field. -/
def badRequest (box : List Host.Cell) (size : Nat) : Bool :=
  decide (11 < requestNat box 8) || (readBytes box size (256 - size)).any fun b => b != 0

/-- STACKINIT (R331, R376). -/
def execStackinit (s : State) : Result :=
  management s 1 fun box =>
    let ms := (upTo 0 6).map fun j => BitVec.ofNat 64 (requestNat box (16 + 8 * j))
    if badRequest box 64 then (s, toBytes 8 1)
    else if !masksValid ms then (s, toBytes 8 2)
    else if s.workInFlight then (s, toBytes 8 3)
    else (s.initStack (requestNat box 8) ms, toBytes 8 0)

/-- STACKINFO (R376). -/
def execStackinfo (s : State) : Result :=
  management s 2 fun box =>
    if badRequest box 16 then (s, toBytes 8 1)
    else (s, toBytes 8 0 ++ (upTo 0 6).flatMap fun j => toBytes 8 (s.hashMask (requestNat box 8) j).toNat)

/-! ### Power and cooling (R377) -/

/-- THERMAL_THROTTLE: the clock is lowered, which changes timing only. -/
def execThermalThrottle (s : State) : Result := .next { s with throttled := true }

/-- THERMAL_TRIP: STATUS bit 1, every context reset and told, and the part held; memory keeps its contents. -/
def execThermalTrip (s : State) : Result :=
  let all := s.validContexts
  let s := all.foldl State.resetContext { s with bar := { s.bar with trip := true } }
  let s := all.foldl (fun (s : State) i => s.report i { kind := 4, cause := 0, place := s.openPlace }) s
  .next { s with held := true }

/-- TRIP_CLEAR: the management controller releases the part. -/
def execTripClear (s : State) : Result := .next { s with held := false, bar := { s.bar with trip := false } }

/-! ### Soft errors and scrubbing (R337, R338) -/

/-- A context is told of an uncorrectable error; the cause the manual leaves open. -/
def State.reportSoft (s : State) (ctx place : Nat) (addr : Word) : State :=
  s.report ctx { kind := 4, cause := (Config.freeWord s.free 20).toNat % 256, soft := true, addr := addr, place := place }

/-- The contexts that are told of an error in memory: one at least, and which others the manual leaves open (log 46). -/
def State.reportSoftMemory (s : State) (addr : Word) : State :=
  let all := s.validContexts
  let first := all[Config.freeNat s.free % all.length]?
  (all.filter fun i => first == some i || Config.freeBit s.free (64 * i + 40)).foldl
    (fun (s : State) i => s.reportSoft i s.openPlace addr) s

/-- The registered backing address of an offset of a scratchpad. -/
def Group.backingOf (g : Group) (off : Nat) : Nat :=
  ((g.backing.find? fun r => decide (r.off ≤ off) && decide (off < r.off + r.len)).map fun r => r.base + (off - r.off)).getD 0

/-- A party struck in its registers, tokens or flags halts (R156). -/
def State.strikeParty (s : State) : State := if s.party.ready || (s.party.resident && s.party.live) then s.halt true else s

/-- SOFT_ERROR (R337). -/
def execSoftError (what : SoftError) (s : State) : Result :=
  match what with
  | .party pid => onParty s pid State.strikeParty
  | .cleanCopy =>
    .next ({ s with copies := s.copies.eraseIdx (Config.freeNat s.free % (s.copies.length + 1)) }.reportSoftMemory
      (Config.freeWord s.free 22))
  | .scratch launch group unit => match s.group? launch group with
    | none => .next s
    | some g =>
      if (s.headerOf g).local_ ≤ 4 * unit ∨ !s.groupResident launch group ∨ g.ended then .next s
      else .next ((s.poisonByte (.spad launch group (4 * unit))).reportSoft (s.ctxOf launch) g.core
        (BitVec.ofNat 64 (g.backingOf (4 * unit))))
  | .sector n => .next ((s.poisonByte (.phys (64 * n) 0)).reportSoftMemory (BitVec.ofNat 64 (64 * n)))
  | .task id => match s.tasks.find? fun t => t.id == id with
    | none => .next s
    | some t =>
      if !t.started then .next s
      else
        let s := s.declineTask t (Trap.scalar .poison 0 0)
        let s : State := { s with tickets := s.tickets.filter fun x => x.asker != .task id }
        .next (s.reportSoft (s.ctxOf t.launch) (t.core % 128 + 2 ^ 14) 0)

/-- PATROL_SCRUB (R337): every sector of the stack is read; what it corrects is no write. -/
def execPatrolScrub (stack : Nat) (s : State) : Result :=
  .next (if stack < 12 then { s with scrubbed := Table.set 0 s.scrubbed stack s.lantern.toNat } else s)

/-! ### Scores (R196) -/

/-- SCORE_HALVING: every party's locality score is halved. -/
def execScoreHalving (s : State) : Result :=
  let half (p : Party) : Party := { p with score := p.score / 2 }
  .next { s with party := half s.party, others := s.others.map half }

end Sys2Proof.Machine
end

