-- ==== Sys2Proof/Machine/Transcendental.lean ====
section
/-!
DEFINITION. EXP2, LOG2, SIN and COS, correctly rounded (R76): each is enclosed between two dyadic numbers at rising
precision until both round alike.  What a bounded precision does not decide is a free value (log 17).
-/
namespace Sys2Proof.Machine

/-- An enclosure: a sign, and a magnitude between `lo` and `hi` times 2^e. -/
structure Enclosure where
  neg : Bool
  lo : Nat
  hi : Nat
  e : Int
  deriving DecidableEq, Repr

/-- Guard against truncation in the series below, in units of the last place. -/
def slack : Nat := 2 ^ 20

def enclose (neg : Bool) (v : Int) (e : Int) : Enclosure :=
  { neg := neg, lo := (v - slack).toNat, hi := (v + slack).toNat, e := e }

/-- Σ y^k / k! in fixed point with `n` fraction bits, from term `k` on. -/
def expSeries (n y : Nat) : (fuel k term acc : Nat) → Nat
  | 0, _, _, acc => acc
  | fuel + 1, k, term, acc =>
    let t := term * y / 2 ^ n / k
    if t = 0 then acc else expSeries n y fuel (k + 1) t (acc + t)

/-- Σ ± z^(2k+1) / (2k+1): the inverse hyperbolic tangent, or with alternating signs the inverse tangent; `p` is the power of z
last used, with `z2` the square of z. -/
def oddSeries (alternate : Bool) (n z2 : Nat) : (fuel k p : Nat) → (plus : Bool) → (acc : Int) → Int
  | 0, _, _, _, acc => acc
  | fuel + 1, k, p, plus, acc =>
    let p := p * z2 / 2 ^ n
    let t := p / (2 * k + 1)
    if p = 0 then acc
    else oddSeries alternate n z2 fuel (k + 1) p (if alternate then !plus else true) (if plus then acc + t else acc - t)

def atanh (n z : Nat) : Int := oddSeries false n (z * z / 2 ^ n) n 1 z true z
def atanInv (n q : Nat) : Int :=
  let z := 2 ^ n / q
  oddSeries true n (z * z / 2 ^ n) n 1 z false z

/-- ln 2 = 2 atanh(1/3), and π by Machin's formula, with `n` fraction bits. -/
def ln2 (n : Nat) : Int := 2 * atanh n (2 ^ n / 3)
def piFixed (n : Nat) : Int := 16 * atanInv n 5 - 4 * atanInv n 239

/-- The alternating series of sine (from x) and cosine (from 1): each term is the last times x² over two more factors. -/
def trigSeries (n r2 : Nat) : (fuel k term : Nat) → (plus : Bool) → (acc : Int) → Int
  | 0, _, _, _, acc => acc
  | fuel + 1, k, term, plus, acc =>
    let t := term * r2 / 2 ^ n / (k * (k + 1))
    if t = 0 then acc else trigSeries n r2 fuel (k + 2) t (!plus) (if plus then acc + t else acc - t)

def sinFixed (n r : Nat) : Int := trigSeries n (r * r / 2 ^ n) n 2 r false r
def cosFixed (n r : Nat) : Int := trigSeries n (r * r / 2 ^ n) n 1 (2 ^ n) false (2 ^ n)

/-- m × 2^e in fixed point with `n` fraction bits, rounded toward minus infinity. -/
def fixed (n : Nat) (neg : Bool) (m : Nat) (e : Int) : Int :=
  let v : Int := if neg then -(m : Int) else m
  let k := e + n
  if 0 ≤ k then v * 2 ^ k.toNat else v / 2 ^ (-k).toNat

def exp2At (neg : Bool) (m : Nat) (e : Int) (n : Nat) : Enclosure :=
  let x := fixed n neg m e
  let whole := x / 2 ^ n
  let y := (x % 2 ^ n).toNat * (ln2 n).toNat / 2 ^ n
  enclose false (expSeries n y n 1 (2 ^ n) (2 ^ n)) (whole - n)

def log2At (m : Nat) (e : Int) (n : Nat) : Enclosure :=
  let k := bitLen m - 1
  let t := m * 2 ^ n / 2 ^ k
  let z := (t - 2 ^ n) * 2 ^ n / (t + 2 ^ n)
  let v := 2 * atanh n z * 2 ^ n / ln2 n + (e + k) * 2 ^ n
  enclose (decide (v < 0)) v.natAbs (-n)

/-- Sine or cosine of a non-negative number; `n` fraction bits beyond those its exponent takes. -/
def trigAt (sine : Bool) (m : Nat) (e : Int) (n : Nat) : Enclosure :=
  let top := bitLen m + e
  let n := n + (if top < 0 then (-top).toNat else 0)
  let guard := n + (if 0 < top then top.toNat else 0) + 8
  let half := piFixed guard / 2
  let x := fixed guard false m e
  let quadrant := x / half
  let r := ((x % half) / 2 ^ (guard - n)).toNat
  let q := ((quadrant + if sine then 0 else 1) % 4).toNat
  let v := if q % 2 = 0 then sinFixed n r else cosFixed n r
  enclose ((decide (2 ≤ q)) != decide (v < 0)) v.natAbs (-n)

/-- The rounding that both ends of an enclosure agree on. -/
def Enclosure.agree (f : Fmt) (c : Enclosure) : Option Nat :=
  if c.lo = 0 then none
  else
    let a := f.roundMag .rn c.neg c.lo c.e
    if a = f.roundMag .rn c.neg c.hi c.e then some a else none

/-- Precision raised until the ends agree. -/
def refine (f : Fmt) (g : Nat → Enclosure) (else_ : Nat) : List Nat → Nat
  | [] => else_
  | n :: ns => match (g n).agree f with
    | some r => r
    | none => refine f g else_ ns

def precisions : List Nat := [96, 160, 320, 640]

/-- EXP2 (R76). -/
def exp2Elem (f : Fmt) (a : Nat) : Nat := f.nanFirst [a] <|
  match f.value a with
  | .nan => f.defaultNaN
  | .inf neg => if neg then 0 else f.infinity
  | .fin neg m e =>
    let x := fixed 0 neg m e
    if m = 0 then f.bias * 2 ^ f.frac
    else if (f.bias : Int) + 1 ≤ x then f.infinity
    else if x < -((f.bias : Int) + f.frac + 4) then 0
    else if fixed 0 neg m e * 2 ^ (-e).toNat = (if neg then -(m : Int) else m) * 2 ^ e.toNat then f.roundMag .rn false 1 x
    else refine f (exp2At neg m e) (Config.transcendental 0 f.frac a) precisions

/-- LOG2 (R76). -/
def log2Elem (f : Fmt) (a : Nat) : Nat := f.nanFirst [a] <|
  match f.value a with
  | .nan => f.defaultNaN
  | .inf neg => if neg then f.defaultNaN else f.infinity
  | .fin neg m e =>
    if m = 0 then f.sign true + f.infinity
    else if neg then f.defaultNaN
    else if m = 2 ^ (bitLen m - 1) then
      let x : Int := e + bitLen m - 1
      f.round .rn (.fin (decide (x < 0)) x.natAbs 0)
    else refine f (log2At m e) (Config.transcendental 1 f.frac a) precisions

/-- SIN and COS of radians (R76). -/
def trigElem (f : Fmt) (sine : Bool) (a : Nat) : Nat := f.nanFirst [a] <|
  match f.value a with
  | .nan | .inf _ => f.defaultNaN
  | .fin neg m e =>
    if m = 0 then (if sine then f.sign neg else f.bias * 2 ^ f.frac)
    else
      let r := refine f (trigAt sine m e) (Config.transcendental (if sine then 2 else 3) f.frac a) precisions
      if sine && neg then f.flip r else r

def sinElem (f : Fmt) (a : Nat) : Nat := trigElem f true a
def cosElem (f : Fmt) (a : Nat) : Nat := trigElem f false a

end Sys2Proof.Machine
end

