-- ==== Sys2Proof/Machine/LaneElement.lean ====
section
/-!
DEFINITION. The element-wise lane instructions: integer and bit operations, real and complex floating point, comparison,
selection, moves and conversion (R123 to R129).
-/
namespace Sys2Proof.Machine

/-- LANE_ADD (R123 to R125). -/
def execLaneAdd (f : LaneF) (s : State) : Result :=
  runLane s .add f fun c => c.elementwise fun l => addElem f.ty c.mode (c.a l) (c.b' l)

/-- LANE_SUB (R123 to R125). -/
def execLaneSub (f : LaneF) (s : State) : Result :=
  runLane s .sub f fun c => c.elementwise fun l => subElem f.ty c.mode (c.a l) (c.b' l)

/-- LANE_MUL (R86, R123 to R125). -/
def execLaneMul (f : LaneF) (s : State) : Result :=
  runLane s .mul f fun c => c.elementwise fun l => mulElem f.ty c.mode c.nvr (c.a l) (c.b' l)

/-- LANE_MULHI (R123). -/
def execLaneMulhi (f : LaneF) (s : State) : Result :=
  runLane s .mulhi f fun c => c.elementwise fun l => mulhiElem f.ty (c.a l) (c.b' l)

/-- LANE_MAD (R123). -/
def execLaneMad (f : LaneF) (s : State) : Result :=
  runLane s .mad f fun c => c.elementwise fun l => madElem f.ty (c.a l) (c.b' l) (c.c' l)

/-- LANE_FMA (R76, R86, R124, R125). -/
def execLaneFma (f : LaneF) (s : State) : Result :=
  runLane s .fma f fun c => c.elementwise fun l => fmaElem f.ty c.mode c.nvr (c.a l) (c.b' l) (c.c' l)

/-- LANE_MIN (R123, R124). -/
def execLaneMin (f : LaneF) (s : State) : Result :=
  runLane s .min f fun c => c.elementwise fun l => minElem f.ty (c.a l) (c.b' l)

/-- LANE_MAX (R123, R124). -/
def execLaneMax (f : LaneF) (s : State) : Result :=
  runLane s .max f fun c => c.elementwise fun l => maxElem f.ty (c.a l) (c.b' l)

/-- LANE_ABS (R123, R124). -/
def execLaneAbs (f : LaneF) (s : State) : Result :=
  runLane s .abs f fun c => c.elementwise fun l => absElem f.ty (c.a l)

/-- LANE_NEG (R123 to R125). -/
def execLaneNeg (f : LaneF) (s : State) : Result :=
  runLane s .neg f fun c => c.elementwise fun l => negElem f.ty (c.a l)

/-- LANE_ADDS: the sum clamped (R123). -/
def execLaneAdds (f : LaneF) (s : State) : Result :=
  runLane s .adds f fun c => c.elementwise fun l => addsElem f.ty (c.a l) (c.b' l)

/-- LANE_SUBS: the difference clamped (R123). -/
def execLaneSubs (f : LaneF) (s : State) : Result :=
  runLane s .subs f fun c => c.elementwise fun l => subsElem f.ty (c.a l) (c.b' l)

/-- LANE_AND (R123). -/
def execLaneAnd (f : LaneF) (s : State) : Result :=
  runLane s .and f fun c => c.elementwise fun l => c.a l &&& c.b' l

/-- LANE_OR (R123). -/
def execLaneOr (f : LaneF) (s : State) : Result :=
  runLane s .or f fun c => c.elementwise fun l => c.a l ||| c.b' l

/-- LANE_XOR (R123). -/
def execLaneXor (f : LaneF) (s : State) : Result :=
  runLane s .xor f fun c => c.elementwise fun l => c.a l ^^^ c.b' l

/-- LANE_ANDN (R123). -/
def execLaneAndn (f : LaneF) (s : State) : Result :=
  runLane s .andn f fun c => c.elementwise fun l => c.a l &&& bitNot f.ty.width (c.b' l)

/-- LANE_NOT (R123). -/
def execLaneNot (f : LaneF) (s : State) : Result :=
  runLane s .not f fun c => c.elementwise fun l => bitNot f.ty.width (c.a l)

/-- LANE_SHL (R123). -/
def execLaneShl (f : LaneF) (s : State) : Result :=
  runLane s .shl f fun c => c.elementwise fun l => shiftLeft f.ty.width (c.a l) (c.b' l)

/-- LANE_SHR (R123). -/
def execLaneShr (f : LaneF) (s : State) : Result :=
  runLane s .shr f fun c => c.elementwise fun l => shiftRight f.ty.width (c.a l) (c.b' l)

/-- LANE_SRA (R123). -/
def execLaneSra (f : LaneF) (s : State) : Result :=
  runLane s .sra f fun c => c.elementwise fun l => shiftArith f.ty.width (c.a l) (c.b' l)

/-- LANE_POPC (R123). -/
def execLanePopc (f : LaneF) (s : State) : Result :=
  runLane s .popc f fun c => c.elementwise fun l => popCount f.ty.width (c.a l)

/-- LANE_CLZ (R123). -/
def execLaneClz (f : LaneF) (s : State) : Result :=
  runLane s .clz f fun c => c.elementwise fun l => leadingZeros f.ty.width (c.a l)

/-- LANE_BREV (R123). -/
def execLaneBrev (f : LaneF) (s : State) : Result :=
  runLane s .brev f fun c => c.elementwise fun l => reverseBits f.ty.width (c.a l)

/-- LANE_DIV (R76, R86, R124). -/
def execLaneDiv (f : LaneF) (s : State) : Result :=
  runLane s .div f fun c => c.elementwise fun l => divElem f.ty c.mode (c.a l) (c.b' l)

/-- LANE_SQRT (R76, R124). -/
def execLaneSqrt (f : LaneF) (s : State) : Result :=
  runLane s .sqrt f fun c => c.elementwise fun l => f.ty.fmt.sqrt c.mode (c.a l)

/-- LANE_RCP (R76, R124). -/
def execLaneRcp (f : LaneF) (s : State) : Result :=
  runLane s .rcp f fun c => c.elementwise fun l => f.ty.fmt.rcp c.mode (c.a l)

/-- LANE_RSQRT (R76, R124). -/
def execLaneRsqrt (f : LaneF) (s : State) : Result :=
  runLane s .rsqrt f fun c => c.elementwise fun l => f.ty.fmt.rsqrt c.mode (c.a l)

/-- LANE_EXP2 (R76). -/
def execLaneExp2 (f : LaneF) (s : State) : Result :=
  runLane s .exp2 f fun c => c.elementwise fun l => exp2Elem f.ty.fmt (c.a l)

/-- LANE_LOG2 (R76). -/
def execLaneLog2 (f : LaneF) (s : State) : Result :=
  runLane s .log2 f fun c => c.elementwise fun l => log2Elem f.ty.fmt (c.a l)

/-- LANE_SIN (R76). -/
def execLaneSin (f : LaneF) (s : State) : Result :=
  runLane s .sin f fun c => c.elementwise fun l => sinElem f.ty.fmt (c.a l)

/-- LANE_COS (R76). -/
def execLaneCos (f : LaneF) (s : State) : Result :=
  runLane s .cos f fun c => c.elementwise fun l => cosElem f.ty.fmt (c.a l)

/-- LANE_RINT (R124). -/
def execLaneRint (f : LaneF) (s : State) : Result :=
  runLane s .rint f fun c => c.elementwise fun l => f.ty.fmt.rint c.mode (c.a l)

/-- LANE_CONJ (R125). -/
def execLaneConj (f : LaneF) (s : State) : Result :=
  runLane s .conj f fun c => c.elementwise fun l => conjElem f.ty (c.a l)

/-- The bit of CMP for a lane whose mask bit was `old` (R126). -/
def cmpBit (f : LaneF) (old r : Bool) : Bool :=
  match f.imm.toNat / 8 % 4 with
  | 0 => r
  | 1 => old && r
  | _ => old || r

/-- LANE_CMP (R126). -/
def execLaneCmp (f : LaneF) (s : State) : Result :=
  runLane s .cmp f fun c =>
    let old := if f.imm.toNat / 8 % 4 = 0 then 0 else c.mask f.dst.toNat
    c.toMask fun l => cmpBit f (old.getLsbD l) (testElem f.ty (f.imm.toNat % 8) (c.a l) (c.b' l))

/-- LANE_SEL (R127). -/
def execLaneSel (f : LaneF) (s : State) : Result :=
  runLane s .sel f fun c =>
    let n := f.imm.toNat % 8
    let m := if n = 0 then c.p.allLanes else c.mask n
    c.elementwise fun l => if m.getLsbD l != f.imm.getLsbD 3 then c.a l else c.b' l

/-- LANE_MOV (R128). -/
def execLaneMov (f : LaneF) (s : State) : Result :=
  runLane s .mov f fun c => c.elementwise fun l => c.a l

/-- LANE_CVT (R77, R129). -/
def execLaneCvt (f : LaneF) (s : State) : Result :=
  runLane s .cvt f fun c =>
    let src := Ty.ofCode (f.imm.extractLsb' 0 4)
    c.elementwise fun l => cvtElem f.ty src c.mode (f.imm.getLsbD 7) (c.value l f.a src)

end Sys2Proof.Machine
end

