-- ==== Sys2Proof/Machine/LaneMemory.lean ====
section
/-!
DEFINITION. LD, ST, ATOM, ARED and ACAS, with buffer records and their conversion stage (R174 to R190).
-/
namespace Sys2Proof.Machine

/-! ### Buffer records (R174 to R177) -/

structure Record where
  base : Word
  extent : Nat
  stride : Nat
  ilv : Nat
  scale : Nat
  enc : Ty
  trans : Bool
  conj : Bool

/-- The record that 40 bytes hold, for an instruction of type `t`; none where it is malformed (R174, R177). -/
def Record.ofBytes (bs : List Byte) (t : Ty) : Option Record :=
  let v := Machine.ofBytes bs
  let r : Record := {
    base := BitVec.ofNat 64 v, extent := bitsOf v 64 32, stride := bitsOf v 96 32, ilv := bitsOf v 128 32
    scale := bitsOf v 160 32, enc := if bitsOf v 192 4 = 15 then t else Ty.ofCode (BitVec.ofNat 4 (bitsOf v 192 4))
    trans := bitsOf v 196 1 == 1, conj := bitsOf v 197 1 == 1 }
  let e := r.scale / 2 ^ 23 % 256
  if bitsOf v 198 122 ≠ 0 ∨ e = 0 ∨ e = 255 ∨ (r.trans ∧ r.ilv = 0) then none else some r

/-- The address of an element in range (R175). -/
def Record.address (r : Record) (x : Nat) : Word :=
  if r.ilv = 0 then r.base + BitVec.ofNat 64 (x * r.stride)
  else
    let rows := (r.extent + r.ilv - 1) / r.ilv
    let row := if r.trans then x % rows else x / r.ilv
    let col := if r.trans then x / rows else x % r.ilv
    r.base + BitVec.ofNat 64 (row * r.stride + col * r.enc.bytes)

/-! ### The conversion stage (R176) -/

def isIntTy (t : Ty) : Bool := !t.isF && !t.isC

/-- A part of an element as an exact value. -/
def exactPart (t : Ty) (x : Nat) : FVal :=
  if isIntTy t then (let v := intOf t x; .fin (decide (v < 0)) v.natAbs 0) else t.fmt.value x

/-- A quotient of exact magnitudes rounded to a natural number, ties to even. -/
def ratioNat (m : Nat) (e : Int) (n : Nat) (g : Int) : Nat :=
  let a := m * 2 ^ (e - g).toNat
  let b := n * 2 ^ (g - e).toNat
  let q := a / b
  let r := a % b
  if b < 2 * r ∨ (2 * r = b ∧ q % 2 = 1) then q + 1 else q

/-- One real part, times or over the scale, rounded once to a real type; a NaN converts as one (R77). -/
def scalePart (dst src : Ty) (divide : Bool) (scale : FVal) (x : Nat) : Nat :=
  let v := exactPart src x
  if v.isNaN then cvtReal dst src .rn (isIntTy dst) x
  else if dst.isF then (if divide then dst.fmt.divVal .rn v scale else dst.fmt.round .rn (v.mul scale))
  else
    let clamp (neg : Bool) (n : Nat) : Nat := lowBits dst.width (clampTo dst (if neg then -(n : Int) else n))
    match v, scale with
    | .fin a m e, .fin b n g =>
      clamp (a != b) (if divide then ratioNat m e n g else roundNat .rn (a != b) (m * n) (e + g))
    | .inf a, .fin b _ _ => lowBits dst.width (if a != b then tyMin dst else tyMax dst)
    | _, _ => 0

/-- The sign of an imaginary part inverted. -/
def conjBits (t : Ty) (x : Nat) : Nat := if t.isC then x ^^^ 2 ^ (2 * t.fmt.bits - 1) else x

/-- An element of type `src` brought to type `dst`, by a scale. -/
def convertScaled (dst src : Ty) (divide : Bool) (scale x : Nat) : Nat :=
  if scale = 0x3F800000 ∨ (isIntTy dst ∧ isIntTy src) then
    (if dst = src then x % 2 ^ dst.width else cvtElem dst src .rn (isIntTy dst) x)
  else
    let k := Fmt.f32.value scale
    let part := scalePart (partTy dst) (partTy src) divide k
    let re := if src.isC then rePart src.fmt x else x
    if dst.isC then pairOf dst.fmt (part re) (if src.isC then part (imPart src.fmt x) else 0) else part re

/-- The load direction. -/
def Record.load (r : Record) (t : Ty) (m : Nat) : Nat :=
  convertScaled t r.enc false r.scale (if r.conj then conjBits r.enc m else m)

/-- The store direction. -/
def Record.store (r : Record) (t : Ty) (v : Nat) : Nat :=
  convertScaled r.enc t true r.scale (if r.conj then conjBits t v else v)

/-! ### Addresses (R178, R179, R186) -/

/-- The base register of a memory opcode. -/
def LaneCtx.baseReg (c : LaneCtx) (code : BitVec 8) : Word := BitVec.ofNat 64 (c.b.reg (code.toNat - 0x80))

/-- The address of form 0, with an offset field of `n` bits, or of form 1. -/
def LaneCtx.address (c : LaneCtx) (lane : Nat) (base off : BitVec 8) (n : Nat) : Word :=
  c.baseReg base +
    (if c.f.imm.toNat / 16384 = 0 then BitVec.ofInt 64 (signedOf n c.f.imm.toNat)
     else BitVec.ofNat 64 (c.value lane off .n32))

/-- What a memory form names for a lane: an element, nothing (an index out of range), or a cause. -/
inductive Element where
  | at_ (addr : Word) (rec : Option Record)
  | outside
  | denied (d : Deny) (addr : Word)

/-- The element of LD and ST; `rec` is what the instruction read of its record.  A denied read of the record is the cause of
every active lane, with the record's address, and a malformed record's ARITH has the address 0 (R150, R177; log 72). -/
def LaneCtx.element (c : LaneCtx) (lane : Nat) (base off : BitVec 8) (rec : Except Deny (Option Record)) : Element :=
  if c.f.imm.toNat / 16384 < 2 then .at_ (c.address lane base off 14) none
  else match rec with
    | .error d => .denied d ((c.s.home c.p).header.brec + BitVec.ofNat 64 (40 * (c.f.imm.toNat % 256)))
    | .ok none => .denied { cause := .arith } 0
    | .ok (some r) =>
      let x := c.value lane off .n32
      if r.extent ≤ x then .outside else .at_ (r.address x) (some r)

/-- The bytes of the record of a form 2 instruction, read once; none where it reads no record, or one outside the table. -/
def LaneCtx.recordBytes (c : LaneCtx) : Except Deny (List Byte) :=
  let l := c.s.home c.p
  let index := c.f.imm.toNat % 256
  match c.part.record with
  | some bs => .ok bs
  | none =>
    if c.f.imm.toNat / 16384 < 2 ∨ l.header.brecs ≤ index then .ok []
    else c.s.tableBytes l (l.header.brec.toNat + 40 * index) 40

/-- The record of a form 2 instruction; none where it is malformed, or lies outside the table. -/
def LaneCtx.theRecord (c : LaneCtx) : Except Deny (Option Record) :=
  c.recordBytes.map fun bs => if bs.isEmpty then none else Record.ofBytes bs c.f.ty

/-! ### LD and ST -/

/-- The bytes of an element of LD and ST in memory. -/
def memoryBytes (t : Ty) (rec : Option Record) : Nat := match rec with | some r => r.enc.bytes | none => t.bytes

/-- An element as LD converts it, and a value as ST converts it (R176). -/
def loaded (t : Ty) (rec : Option Record) (m : Nat) : Nat := match rec with | some r => r.load t m | none => m
def stored (t : Ty) (rec : Option Record) (v : Nat) : Nat := match rec with | some r => r.store t v | none => v

/-- LD's access of an element; of 16 bytes the first event may be behind it (R301). -/
def LaneAcc.ld (acc : LaneAcc) (c : LaneCtx) (lane : Nat) (addr : Word) (rec : Option Record) : LaneAcc :=
  let t := c.f.ty
  match c.part.halves.find? fun h => h.1 == lane with
  | some (_, p, low) =>
    let q := p.shift 8
    let acc := { acc with s := acc.s.partyRead q 8 }
    if acc.s.poisonedPlace q 8 then acc.fault lane { cause := .poison } addr
    else acc.ok c lane (placeValue t (loaded t rec (low + 2 ^ 64 * acc.s.valueAt q 8)))
  | none =>
    let e := memoryBytes t rec
    acc.touch c lane addr e .read true false fun s p => (s.partyRead p e, placeValue t (loaded t rec (s.valueAt p e)))

/-- A lane of LD. -/
def LaneCtx.ldLane (c : LaneCtx) (acc : LaneAcc) (lane : Nat) : LaneAcc :=
  match c.element lane c.f.a c.f.b c.theRecord with
  | .denied d addr => acc.fault lane d addr
  | .outside => acc.ok c lane (placeValue c.f.ty 0)
  | .at_ addr rec => acc.ld c lane addr rec

/-- LANE_LD (R179). -/
def execLaneLd (f : LaneF) (s : State) : Result := runLaneMemory s .ld f LaneCtx.ldLane

/-- What ST stores for a lane. -/
def LaneCtx.storedBytes (c : LaneCtx) (lane : Nat) (rec : Option Record) : List Byte :=
  toBytes (memoryBytes c.f.ty rec) (stored c.f.ty rec (c.value lane c.f.b c.f.ty))

/-- ST's access of an element; of 16 bytes the first event may be behind it (R301). -/
def LaneAcc.st (acc : LaneAcc) (c : LaneCtx) (lane : Nat) (addr : Word) (rec : Option Record) : LaneAcc :=
  let bs := c.storedBytes lane rec
  match c.part.halves.find? fun h => h.1 == lane with
  | some (_, p, _) => { acc with s := acc.s.partyStore (p.shift 8) (bs.drop 8) }.ok c lane []
  | none => acc.touch c lane addr bs.length .write false false fun s p => (s.partyStore p bs, [])

/-- A lane of ST. -/
def LaneCtx.stLane (c : LaneCtx) (acc : LaneAcc) (lane : Nat) : LaneAcc :=
  match c.element lane c.f.dst c.f.a c.theRecord with
  | .denied d addr => acc.fault lane d addr
  | .outside => acc.ok c lane []
  | .at_ addr rec => acc.st c lane addr rec

/-- LANE_ST (R180). -/
def execLaneSt (f : LaneF) (s : State) : Result := runLaneMemory s .st f LaneCtx.stLane

/-- The first event of a lane's 16-byte element, where its checks pass (R301). -/
def LaneCtx.firstHalf (c : LaneCtx) (r : State × LanePart) (lane : Nat) : State × LanePart :=
  let s := r.1
  let (base, off, need) : BitVec 8 × BitVec 8 × Rights := if c.op = .ld then (c.f.a, c.f.b, .read) else (c.f.dst, c.f.a, .write)
  match c.element lane base off c.theRecord with
  | .at_ addr rec =>
    if memoryBytes c.f.ty rec != 16 then r
    else match s.access (c.accessor lane) addr 16 16 need with
      | .error _ => r
      | .ok p =>
        if s.remote p then r
        else
          let s := s.noteMiss addr
          let low := s.valueAt p 8
          let s := if c.op = .ld then s.partyRead p 8 else s.partyStore p ((c.storedBytes lane rec).take 8)
          (s, { r.2 with halves := r.2.halves ++ [(lane, p, low)] })
  | _ => r

/-- The place of the bytes that a memory instruction is still to access for a lane, and how many; none where it accesses
nothing. -/
def LaneCtx.pending (c : LaneCtx) (lane : Nat) : Option (Place × Nat) :=
  match c.part.halves.find? fun h => h.1 == lane with
  | some (_, p, _) => some (p.shift 8, 8)
  | none =>
    let (base, off, need) : BitVec 8 × BitVec 8 × Rights := match c.op with
      | .ld => (c.f.a, c.f.b, .read)
      | .st => (c.f.dst, c.f.a, .write)
      | .ared => (c.f.dst, c.f.a, .update)
      | _ => (c.f.a, c.f.b, .update)
    let at_ (addr : Word) (n : Nat) : Option (Place × Nat) :=
      match c.s.lanePlace (c.accessor lane) addr n need with
      | .ok (p, _) => some (p, n)
      | .error _ => none
    if c.op = .ld ∨ c.op = .st then
      match c.element lane base off c.theRecord with
      | .at_ addr rec => at_ addr (memoryBytes c.f.ty rec)
      | _ => none
    else at_ (c.address lane base off 8) c.f.ty.bytes

/-- Of the lanes with events left, those that may go on before the ones below them: the lanes of an instruction that meet in a
location act in ascending order (R180, R305). -/
def LaneCtx.free (c : LaneCtx) : List Nat :=
  let all := c.left.map fun l => (l, c.pending l)
  (all.filter fun e => !all.any fun x => decide (x.1 < e.1) && match x.2, e.2 with
    | some a, some b => a.1.meets a.2 b.1 b.2
    | _, _ => false).map fun e => e.1

/-- Of the lanes that nothing is done of, `n` from lane `from_` up. -/
def LaneCtx.chosen (c : LaneCtx) (from_ n : Nat) : List Nat :=
  (c.free.filter fun l => decide (from_ ≤ l) && !c.part.halves.any fun h => h.1 == l).take n

/-- Some first events of the 16-byte elements of the lane instruction at the head of the queue, which then goes on (R301). -/
def State.laneHalf (s : State) (op : LaneOp) (f : LaneF) (from_ n : Nat) : State :=
  if op = .ld ∨ op = .st then
    s.someEvents op f LaneCtx.recordBytes fun c r => (c.chosen from_ n).foldl c.firstHalf (c.s, r)
  else s

/-- A lane whose access ends at once; one that may have to wait for another part is left. -/
def LaneCtx.oneLane (c : LaneCtx) (body : LaneCtx → LaneAcc → Nat → LaneAcc) (acc : LaneAcc) (lane : Nat) : LaneAcc :=
  let next := body c acc lane
  if next.anyRemote || !next.remotes.isEmpty then acc else next

/-- Some lanes of a memory instruction at the head of the queue, between which and the rest other agents act (R190, R302). -/
def State.someLanes (s : State) (op : LaneOp) (f : LaneF) (body : LaneCtx → LaneAcc → Nat → LaneAcc) (which : LaneCtx → List Nat) :
    State :=
  s.someEvents op f LaneCtx.recordBytes fun c r =>
    let acc := (which c).foldl (c.oneLane body) c.start
    (acc.s, { r with entries := acc.entries, ends := acc.ends, denied := acc.denied })

/-- Of LD or ST, up to `n` lanes from lane `from_` up. -/
def State.lanesSome (s : State) (op : LaneOp) (f : LaneF) (body : LaneCtx → LaneAcc → Nat → LaneAcc) (from_ n : Nat) : State :=
  s.someLanes op f body fun c => (c.free.filter fun l => decide (from_ ≤ l)).take n

/-- Of an atomic, all lanes on the line of the first lane from `from_` up, in ascending order (R187). -/
def State.lineSome (s : State) (op : LaneOp) (f : LaneF) (body : LaneCtx → LaneAcc → Nat → LaneAcc) (from_ : Nat) : State :=
  let t := s.someLanes op f body fun c =>
    let line (l : Nat) : Option Place := (c.pending l).map fun e => e.1.line
    match c.left.find? fun l => decide (from_ ≤ l) with
    | none => []
    | some l => match line l with
      | none => [l]
      | some x => c.left.filter fun k => line k == some x
  t.retestAll

/-! ### Atomics (R185, R186) -/

/-- The new value of ATOM and ARED. -/
def atomicValue (t : Ty) (op old v : Nat) : Nat :=
  if op = 6 then v else combine t .rn op old v

/-- An atomic of a lane: `g` gives the new value from the old, or none where nothing is written.  Its read ends POISON on a
poisoned location, for ARED too (R147, R186; log 68). -/
def LaneAcc.atomic (acc : LaneAcc) (c : LaneCtx) (lane : Nat) (base off : BitVec 8) (returns : Bool)
    (g : Nat → Option Nat) : LaneAcc :=
  let e := c.f.ty.bytes
  acc.touch c lane (c.address lane base off 8) e .update returns returns fun s p =>
    let old := s.valueAt p e
    let s := s.partyRead p e
    let s := match g old with
      | some v => (s.partyWrite p (toBytes e v)).watchAll
      | none => s
    (s, if returns then placeValue c.f.ty old else [])

/-- A lane of ATOM. -/
def LaneCtx.atomLane (c : LaneCtx) (acc : LaneAcc) (lane : Nat) : LaneAcc :=
  acc.atomic c lane c.f.a c.f.b true fun old =>
    some (atomicValue c.f.ty (c.f.imm.toNat / 256 % 8) old (c.value lane c.f.c c.f.ty))

/-- ATOM (R186). -/
def execAtom (f : LaneF) (s : State) : Result := runLaneMemory s .atom f LaneCtx.atomLane

/-- A lane of ARED. -/
def LaneCtx.aredLane (c : LaneCtx) (acc : LaneAcc) (lane : Nat) : LaneAcc :=
  acc.atomic c lane c.f.dst c.f.a false fun old =>
    some (atomicValue c.f.ty (c.f.imm.toNat / 256 % 8) old (c.value lane c.f.b c.f.ty))

/-- ARED (R186). -/
def execAred (f : LaneF) (s : State) : Result := runLaneMemory s .ared f LaneCtx.aredLane

/-- A lane of ACAS. -/
def LaneCtx.acasLane (c : LaneCtx) (acc : LaneAcc) (lane : Nat) : LaneAcc :=
  let r := c.f.ty.regs
  acc.atomic c lane c.f.a c.f.b true fun old =>
    if old = c.regs lane c.f.c.toNat r then some (c.regs lane (c.f.c.toNat + r) r) else none

/-- ACAS (R186). -/
def execAcas (f : LaneF) (s : State) : Result := runLaneMemory s .acas f LaneCtx.acasLane

end Sys2Proof.Machine
end

