-- ==== Sys2Proof/Machine/Masks.lean ====
section
/-!
DEFINITION. Mask instructions and reconvergence tokens (R51, R97 to R103).
-/
namespace Sys2Proof.Machine

/-! ### Mask instructions (R97) -/

/-- A mask written to pd, once no queued lane instruction reads it (R34). -/
def writePd (s : State) (d : BitVec 3) (m : Mask) : Result :=
  if s.holdsMask s.party d then hold s else .next (s.finish (s.party.writeMask (s.seed s.party) d m))

/-- MSET (R97). -/
def execMset (_k : Bool) (d : BitVec 3) (a : Reg) (s : State) : Result :=
  writePd s d (BitVec.ofNat 1024 (2 ^ Nat.min (s.party.reg a).toNat s.party.width - 1))

/-- MAND (R97). -/
def execMand (_k : Bool) (d a b : BitVec 3) (s : State) : Result :=
  writePd s d (s.scalarMask s.party a &&& s.scalarMask s.party b)

/-- MANDN (R97). -/
def execMandn (_k : Bool) (d a b : BitVec 3) (s : State) : Result :=
  writePd s d (s.scalarMask s.party a &&& ~~~s.scalarMask s.party b)

/-- MOR (R97). -/
def execMor (_k : Bool) (d a b : BitVec 3) (s : State) : Result :=
  writePd s d (s.scalarMask s.party a ||| s.scalarMask s.party b)

/-- MXOR (R97). -/
def execMxor (_k : Bool) (d a b : BitVec 3) (s : State) : Result :=
  writePd s d (s.scalarMask s.party a ^^^ s.scalarMask s.party b)

/-- MANY (R97). -/
def execMany (_k : Bool) (d : Reg) (a : BitVec 3) (s : State) : Result :=
  writeReg s d (if s.scalarMask s.party a = 0 then 0 else 1)

/-- MALL (R97). -/
def execMall (_k : Bool) (d : Reg) (a : BitVec 3) (s : State) : Result :=
  writeReg s d (if s.scalarMask s.party a = s.party.allLanes then 1 else 0)

/-- MCOUNT (R97). -/
def execMcount (_k : Bool) (d : Reg) (a : BitVec 3) (s : State) : Result :=
  writeReg s d (BitVec.ofNat 64 (popCount s.party.width (s.scalarMask s.party a).toNat))

/-! ### Tokens (R99 to R103) -/

/-- A token pushed; none where it would be the 257th. -/
def Party.push (p : Party) (t : Token) : Option Party :=
  if Config.maxTokens ≤ p.tokens.length then none else some { p with tokens := t :: p.tokens }

/-- A token instruction ends: its stack, at most 32 tokens of it in hardware, and the counter. -/
def endToken (s : State) (p : Party) (next : Word) : Result :=
  let l := s.home p
  match s.spillTokens l p.settleTokens 256 with
  | .error d => raiseSpill s d
  | .ok (t, p) => .next (t.finishAt p next)

/-- MPUSH (R99). -/
def execMpush (_k : Bool) (a : BitVec 3) (off : BitVec 15) (s : State) : Result :=
  if s.holdsMask s.party 0 then hold s
  else
    let p := s.party
    let p0 := s.scalarMask p 0
    let label := targetOf p.pc (off.signExtend 64)
    match p.push { isBreak := false, addr := label, image := p0 } with
    | none => raiseStack s
    | some q =>
      let m := p0 &&& s.scalarMask p a
      endToken s (q.writeMask (s.seed s.party) 0 m) (if m = 0 then label else p.pc + 4)

/-- The stack of MBRK: the lanes `x` break out to `label`. -/
def Party.breakOut (p : Party) (label : Word) (x : Mask) : Option Party :=
  if x = 0 then some p
  else match p.tokens with
    | t :: rest =>
      if t.isBreak && t.addr == label then some { p with tokens := { t with image := t.image &&& ~~~x } :: rest }
      else p.push { isBreak := true, addr := label, image := p.allLanes &&& ~~~x }
    | [] => p.push { isBreak := true, addr := label, image := p.allLanes &&& ~~~x }

/-- MBRK (R100). -/
def execMbrk (_k : Bool) (a : BitVec 3) (off : BitVec 15) (s : State) : Result :=
  if s.holdsMask s.party 0 then hold s
  else
    let p0 := s.scalarMask s.party 0
    let x := p0 &&& s.scalarMask s.party a
    let left := p0 &&& ~~~x
    let label := targetOf s.party.pc (off.signExtend 64)
    match s.fillBreaks (s.home s.party) s.party 0 256 with
    | .error d => raiseSpill s d
    | .ok p =>
      match p.breakOut label x with
      | none => raiseStack s
      | some q =>
        let q := q.writeMask (s.seed s.party) 0 left
        if left = 0 then
          match q.tokens.find? fun t => !t.isBreak with
          | none => raiseStack s
          | some j => endToken s q j.addr
        else endToken s q (p.pc + 4)

/-- The BREAK tokens popped by an MJOIN at `h`: those set aside, the last appended first, and the rest of the stack. -/
def popBreaks (h : Word) (aside : List Token) : List Token → List Token × List Token
  | [] => (aside, [])
  | t :: rest =>
    if t.isBreak then popBreaks h (if t.addr = h then aside else t :: aside) rest
    else (aside, t :: rest)

/-- A token set aside goes back, merged into an equal BREAK at the top. -/
def pushBack (stack : List Token) (t : Token) : List Token :=
  match stack with
  | u :: rest =>
    if u.isBreak && u.addr == t.addr then { u with image := u.image &&& t.image } :: rest else t :: u :: rest
  | [] => [t]

/-- MJOIN (R101). -/
def execMjoin (_k : Bool) (s : State) : Result :=
  if s.holdsMask s.party 0 then hold s
  else
    match s.fillBreaks (s.home s.party) s.party 0 256 with
    | .error d => raiseSpill s d
    | .ok p =>
      let r := popBreaks p.pc [] p.tokens
      match r.2 with
      | [] => raiseStack s
      | j :: rest =>
        if j.addr != p.pc then raiseStack s
        else
          let m := r.1.foldl (fun m t => m &&& t.image) j.image
          endToken s ({ p with tokens := r.1.foldl pushBack rest }.writeMask (s.seed s.party) 0 m) (p.pc + 4)

/-- MPOP (R102). -/
def execMpop (_k : Bool) (d : BitVec 3) (s : State) : Result :=
  if s.holdsMask s.party d then hold s
  else
    match s.fillToken (s.home s.party) s.party 0 with
    | .error d => raiseSpill s d
    | .ok p =>
      match p.tokens with
      | [] => raiseStack s
      | t :: rest => endToken s ({ p with tokens := rest }.writeMask (s.seed s.party) d t.image) (p.pc + 4)

end Sys2Proof.Machine
end

