-- ==== Sys2Proof/Machine/Requests.lean ====
section
/-!
DEFINITION. Engine commands and tile commands as the scalar stream issues them (R215, R216, R221, R222, R239, R241, R348,
R370).
-/
namespace Sys2Proof.Machine

/-- What was read at issue, with the work that it gives. -/
def Issue.map {α β : Type} (g : α → β) : Issue α → Issue β
  | .work w => .work (g w)
  | .malformed => .malformed
  | .trap d a => .trap d a

/-- A request for a queue entry, after what it reads at issue: DOUBLE in handler mode, a trap of a read, FAULT with detail 0x15
where malformed, else the wait for acceptance (R155, R215, R216). -/
def request (s : State) (i : Instr) (d : Reg) (dl : BitVec 2) (read : State × Issue Work) : Result :=
  waiting s d <|
    let s := read.1
    let w := s.newWait .accept i d dl 0 0
    match read.2 with
    | .trap e a => raiseWait s w e a
    | .malformed => .next (s.endWith w stMalformed)
    | .work x => s.startWait { w with work := x }

/-- A single Siphon command of a kind. -/
def State.oneCommand (s : State) (kind : Nat) (a b : Reg) : State × Issue Work :=
  let r := s.readCommand [kind] (s.party.reg a) (s.party.reg b)
  (r.1, r.2.map fun c => .commands [c])

/-- CPYT (R217). -/
def execCpyt (k : Bool) (d a : Reg) (dl : BitVec 2) (b : Reg) (s : State) : Result :=
  request s (.cpyt k d a dl b) d dl (s.oneCommand 0 a b)

/-- GATH (R218, R219). -/
def execGath (k : Bool) (d a : Reg) (dl : BitVec 2) (b : Reg) (s : State) : Result :=
  request s (.gath k d a dl b) d dl (s.oneCommand 1 a b)

/-- SCAT (R218, R219). -/
def execScat (k : Bool) (d a : Reg) (dl : BitVec 2) (b : Reg) (s : State) : Result :=
  request s (.scat k d a dl b) d dl (s.oneCommand 2 a b)

/-- CHAIN's predecessor and successor (R221). -/
def State.chained (s : State) (a b : Reg) : State × Issue Work :=
  match s.readCommand [0, 1, 2] (s.party.reg a) 0 with
  | (s, .trap d x) => (s, .trap d x)
  | (s, .malformed) => (s, .malformed)
  | (s, .work c) =>
    let r := s.readCommand [0, 1, 2, 3] (s.party.reg b) 0
    (r.1, r.2.map fun e => .commands [c, e])

/-- CHAIN (R221). -/
def execChain (k : Bool) (d a : Reg) (dl : BitVec 2) (b : Reg) (s : State) : Result :=
  request s (.chain k d a dl b) d dl (s.chained a b)

/-- CPYW, whose wait begins as `start` says. -/
def startCpyw (start : State → Wait → Result) (k : Bool) (d a : Reg) (dl : BitVec 2) (b : Reg) (s : State) : Result :=
  waiting s d <|
    let v := s.party.reg a
    let w := s.newWait .cpyw (.cpyw k d a dl b) d dl v (s.party.reg b)
    if v.toNat % 64 / 2 ≠ 0 then raiseWait s w { cause := .alignment } v
    else start s w

/-- CPYW (R222). -/
def execCpyw (k : Bool) (d a : Reg) (dl : BitVec 2) (b : Reg) (s : State) : Result := startCpyw State.startWait k d a dl b s

/-- The ring header of a queue of the context, if it is enabled and its entry can be read (R338, R347). -/
def State.queueRing (s : State) (ctx queue : Nat) : Option Word :=
  let e := s.bar.qtbase.toNat / 65536 * 65536 + 16 * queue
  let w := (s.tableWord (e + 8)).toNat
  if bitsOf w 12 1 = 1 ∧ bitsOf w 0 12 = ctx ∧ !s.tableLost e 16 then some (s.tableWord e) else none

/-- LAUNCH, whose wait begins as `start` says. -/
def startLaunch (start : State → Wait → Result) (k : Bool) (d a : Reg) (dl : BitVec 2) (b : Reg) (s : State) : Result :=
  waiting s d <|
    let hdr := s.party.reg a
    let w := s.newWait .cpyw (.launch k d a dl b) d dl 0 hdr
    match s.queueRing (s.home s.party).space.ctx ((s.party.reg b).toNat % 4096) with
    | none => .next (s.endWith w stMalformed)
    | some ring =>
      if hdr.toNat % 16 ≠ 0 ∨ windowOf hdr.toNat ≠ .global then .next (s.endWith w stMalformed)
      else start s { w with w1 := ring }

/-- LAUNCH (R348). -/
def execLaunch (k : Bool) (d a : Reg) (dl : BitVec 2) (b : Reg) (s : State) : Result := startLaunch State.startWait k d a dl b s

/-- CPYW or LAUNCH claims its slot, where it finds one, and goes on to copy in a later step; else nothing happens. -/
def State.startClaim (s : State) (w : Wait) : Result :=
  match s.claimRing w fun t _ w r => .held (t.setWait (some { w with claim := some r })) with
  | .held t => .next { t with ids := t.ids + 1 }
  | _ => .next s

/-- COLL (R370). -/
def execColl (k : Bool) (d a : Reg) (dl : BitVec 2) (b : Reg) (s : State) : Result :=
  let r := s.readCollective (s.party.reg a) (s.party.reg b)
  request s (.coll k d a dl b) d dl (r.1, r.2.map .collective)

/-! ### Tile commands (R239 to R245) -/

/-- The task of a tile command that reads `n` registers from sa on, and the control register where it has one. -/
def State.tileWork (s : State) (op n : Nat) (a : Reg) (ctl : Word) : State × Issue Work :=
  let p := s.party
  let t : Task := {
    id := 0, seq := 0, time := 0, core := p.core, quad := p.quad, slot := p.slot, launch := p.launch, group := p.group
    first := p.first, pid := p.pid, owners := [p.pid], replay := (s.home p).header.replay, members := [p.pid], op := op, nvr := p.nvr.toNat, batch := 0
    vals := (upTo 0 4).map fun i => if i < n then p.reg (a + BitVec.ofNat 6 i) else 0
    ctl := ctl, started := false, engine := 0, released := false, unit := none, head := none
    fmt := 0, shape := 0, stage := .queued, offer := none }
  (s, if t.wellFormed then .work (.task t) else .malformed)

/-- TLNEW (R241, R244). -/
def execTlnew (k : Bool) (d a : Reg) (dl : BitVec 2) (b : Reg) (s : State) : Result :=
  request s (.tlnew k d a dl b) d dl (s.tileWork 0 1 a (s.party.reg b))

/-- TLFREE (R241, R244). -/
def execTlfree (k : Bool) (d a : Reg) (dl : BitVec 2) (s : State) : Result :=
  request s (.tlfree k d a dl) d dl (s.tileWork 1 1 a 0)

/-- TLLOAD (R241, R244). -/
def execTlload (k : Bool) (d a : Reg) (dl : BitVec 2) (s : State) : Result :=
  request s (.tlload k d a dl) d dl (s.tileWork 2 3 a 0)

/-- TLSTORE (R241, R244). -/
def execTlstore (k : Bool) (d a : Reg) (dl : BitVec 2) (s : State) : Result :=
  request s (.tlstore k d a dl) d dl (s.tileWork 3 3 a 0)

/-- TLFAC (R241, R244). -/
def execTlfac (k : Bool) (d a : Reg) (dl : BitVec 2) (b : Reg) (s : State) : Result :=
  request s (.tlfac k d a dl b) d dl (s.tileWork 4 2 a (s.party.reg b))

/-- TLADD (R241, R244). -/
def execTladd (k : Bool) (d a : Reg) (dl : BitVec 2) (b : Reg) (s : State) : Result :=
  request s (.tladd k d a dl b) d dl (s.tileWork 5 3 a (s.party.reg b))

/-- TLMUL (R241, R244). -/
def execTlmul (k : Bool) (d a : Reg) (dl : BitVec 2) (b : Reg) (s : State) : Result :=
  request s (.tlmul k d a dl b) d dl (s.tileWork 6 4 a (s.party.reg b))

/-- TLLU (R241, R244). -/
def execTllu (k : Bool) (d a : Reg) (dl : BitVec 2) (s : State) : Result :=
  request s (.tllu k d a dl) d dl (s.tileWork 7 2 a 0)

/-- TLINV (R241, R244). -/
def execTlinv (k : Bool) (d a : Reg) (dl : BitVec 2) (s : State) : Result :=
  request s (.tlinv k d a dl) d dl (s.tileWork 8 2 a 0)

/-- TLTRS (R241, R244). -/
def execTltrs (k : Bool) (d a : Reg) (dl : BitVec 2) (b : Reg) (s : State) : Result :=
  request s (.tltrs k d a dl b) d dl (s.tileWork 9 3 a (s.party.reg b))

/-- TLRND (R241, R244). -/
def execTlrnd (k : Bool) (d a : Reg) (dl : BitVec 2) (b : Reg) (s : State) : Result :=
  request s (.tlrnd k d a dl b) d dl (s.tileWork 10 2 a (s.party.reg b))

/-- TLCVT (R241, R244). -/
def execTlcvt (k : Bool) (d a : Reg) (dl : BitVec 2) (s : State) : Result :=
  request s (.tlcvt k d a dl) d dl (s.tileWork 11 3 a 0)

/-- TLNORM (R241, R244). -/
def execTlnorm (k : Bool) (d a : Reg) (dl : BitVec 2) (s : State) : Result :=
  request s (.tlnorm k d a dl) d dl (s.tileWork 12 2 a 0)

end Sys2Proof.Machine
end

