-- ==== Sys2Proof/Machine/System.lean ====
section
/-!
DEFINITION. Deadlines, control registers, counters, YIELD, TRAP, RETT, XRD and XWR (R56, R110 to R117, R157 to R159).
-/
namespace Sys2Proof.Machine

/-! ### Deadlines (R110 to R112) -/

/-- A deadline register written, once no queued lane instruction reads it. -/
def writeDl (s : State) (d : BitVec 2) (v : Word) : Result :=
  if s.holdsDl s.party d then hold s else .next (s.finish (s.party.setDeadlineReg d v))

/-- DLSET (R110). -/
def execDlset (_k : Bool) (d : BitVec 2) (a : Reg) (s : State) : Result := writeDl s d (s.party.reg a)

/-- The ticks field of a deadline register moved by a signed amount, clamped (R111). -/
def addTicks (v : Word) (by_ : Int) : Word :=
  let t : Int := v.toNat % 2 ^ 62 + by_
  let t := if t < 0 then 0 else if 2 ^ 62 - 1 < t then 2 ^ 62 - 1 else t.toNat
  BitVec.ofNat 64 (v.toNat / 2 ^ 62 * 2 ^ 62 + t)

/-- DLADD (R111). -/
def execDladd (_k : Bool) (d : BitVec 2) (a : Reg) (s : State) : Result :=
  writeDl s d (addTicks (s.party.deadlineReg d) (s.party.reg a).toInt)

/-- DLNOW (R112). -/
def execDlnow (_k : Bool) (d : Reg) (base : Bool) (s : State) : Result :=
  writeReg s d (if base then s.party.ptime else s.lantern)

/-! ### Control registers (R56, R113) -/

/-- A control register as CSRR reads it. -/
def State.csr (s : State) (n : Nat) : Word :=
  let p := s.party
  if n = 0 then s.scalarSt p
  else if n = 1 then p.rnd
  else if n = 2 then p.nvr
  else if n = 3 then (s.home p).header.wdef
  else if n = 4 then BitVec.ofNat 64 (p.first / p.width % 2)
  else if n = 5 then p.ptime
  else if n = 6 then p.xcount.setWidth 64
  else if 8 ≤ n ∧ n < 12 then p.deadlineReg (BitVec.ofNat 2 n)
  else if n = 0x10 then (summary (s.scalarLs p &&& p.allLanes)).setWidth 64
  else (maskWord (s.scalarLs p &&& p.allLanes) (n - 0x20)).setWidth 64

/-- CSRR (R113). -/
def execCsrr (_k : Bool) (d : Reg) (csr : BitVec 13) (s : State) : Result := writeReg s d (s.csr csr.toNat)

/-- A data word of `ls` written by the scalar stream (R27, R34, R113). -/
def Party.writeLs (p : Party) (i : Nat) (v : Word) : Party :=
  if i < p.width / 32 then
    { p with ls := setMaskWord p.ls i (v.setWidth 32)
             inflight := p.inflight.map fun x => { x with lsWritten := i :: x.lsWritten } }
  else p

/-- CSRW (R113). -/
def execCsrw (_k : Bool) (a : Reg) (csr : BitVec 13) (s : State) : Result :=
  let p := s.party
  let v := p.reg a
  let n := csr.toNat
  if n = 0 then .next (s.finish (p.setSt (v &&& 0xFFFFFFFF)))
  else if n = 1 then if s.holdsRnd p then hold s else .next (s.finish { p with rnd := v &&& 3 })
  else if n = 2 then
    if p.holdsNvr then hold s else .next (s.finish (if v = 1 ∨ v = 2 then { p with nvr := v } else p))
  else if n = 0x10 then .next (s.finish p)
  else .next (s.finish (p.writeLs (n - 0x20) v))

/-! ### YIELD and the counters (R114 to R117) -/

/-- YIELD: it holds as a marked word does, and the party is then at a park point; in handler mode every boundary is one
(R114, R155, R198).  Whom the quad chooses next is the script's affair (log 3). -/
def execYield (_k : Bool) (s : State) : Result :=
  if !s.party.hmode && !s.party.drained then hold s
  else
    let s' := s.finish s.party.seen
    .next { s' with party := { s'.party with yielded := !s.party.hmode } }

/-- RDCLK: the core's clock count, or in replay the retired count (R115). -/
def execRdclk (_k : Bool) (d : Reg) (s : State) : Result :=
  let p := s.party
  writeReg s d (if (s.home p).header.replay then p.retired
    else s.clock + BitVec.ofNat 64 (Config.clockSkew p.core))

/-- RDRET (R116). -/
def execRdret (_k : Bool) (d : Reg) (s : State) : Result := writeReg s d s.party.retired

/-! ### Traps (R157, R158) -/

/-- TRAP (R157). -/
def execTrap (_k : Bool) (a : Reg) (s : State) : Result :=
  doubleInHandler s <|
    raise s { Trap.scalar .soft s.party.pc (s.party.pc + 4) with code := s.party.reg a }

/-- RETT (R158). -/
def execRett (_k : Bool) (s : State) : Result := if s.party.hmode then .next s.returnTrap else raiseIllegal s

/-! ### Lane registers from the scalar stream (R159) -/

/-- Whether XRD and XWR reach a register of a lane. -/
def State.laneInReach (s : State) (lane : Nat) (n : Nat) : Bool :=
  decide (lane < s.party.width) && decide (n < (s.home s.party).header.window)

/-- XRD (R159). -/
def execXrd (_k : Bool) (d a : Reg) (n : BitVec 7) (s : State) : Result :=
  let p := s.party
  if !p.hmode && !p.drained then hold s
  else
    let lane := (p.reg a).toNat
    .next (s.finish (p.seen.setReg d
      (if s.laneInReach lane n.toNat then (p.laneReg (regKey (p.first + lane) (p.b + n.toNat))).setWidth 64 else 0)))

/-- A lane register written by the scalar stream: every later reader sees it. -/
def Party.writeLaneReg (p : Party) (key : Nat) (v : BitVec 32) : Party :=
  { p.putRegs [(key, v)] with recent := p.recent.map fun r => { r with regs := r.regs.filter fun e => e.1 != key } }

/-- XWR (R159). -/
def execXwr (_k : Bool) (a b : Reg) (n : BitVec 7) (s : State) : Result :=
  let p := s.party
  if !p.hmode && !p.drained then hold s
  else
    let lane := (p.reg a).toNat
    .next (s.finish (if s.laneInReach lane n.toNat then
      p.seen.writeLaneReg (regKey (p.first + lane) (p.b + n.toNat)) ((p.reg b).setWidth 32) else p.seen))

end Sys2Proof.Machine
end

