-- ==== Sys2Proof/Machine/Dispatch.lean ====
section
/-!
DEFINITION. One arm per constructor of Instr: what each instruction does (R5).
-/
namespace Sys2Proof.Machine

def exec (i : Instr) (s : State) : Host.Outcome State Fault Refusal :=
  match i with
  | .add k d a b z => Sys2Proof.Machine.execAdd k d a b z s
  | .sub k d a b z => Sys2Proof.Machine.execSub k d a b z s
  | .mul k d a b z => Sys2Proof.Machine.execMul k d a b z s
  | .mulhi k d a b z => Sys2Proof.Machine.execMulhi k d a b z s
  | .mulhin k d a b z => Sys2Proof.Machine.execMulhin k d a b z s
  | .div k d a b z => Sys2Proof.Machine.execDiv k d a b z s
  | .divn k d a b z => Sys2Proof.Machine.execDivn k d a b z s
  | .rem k d a b z => Sys2Proof.Machine.execRem k d a b z s
  | .remn k d a b z => Sys2Proof.Machine.execRemn k d a b z s
  | .min k d a b z => Sys2Proof.Machine.execMin k d a b z s
  | .max k d a b z => Sys2Proof.Machine.execMax k d a b z s
  | .minn k d a b z => Sys2Proof.Machine.execMinn k d a b z s
  | .maxn k d a b z => Sys2Proof.Machine.execMaxn k d a b z s
  | .and k d a b z => Sys2Proof.Machine.execAnd k d a b z s
  | .or k d a b z => Sys2Proof.Machine.execOr k d a b z s
  | .xor k d a b z => Sys2Proof.Machine.execXor k d a b z s
  | .andn k d a b z => Sys2Proof.Machine.execAndn k d a b z s
  | .shl k d a b z => Sys2Proof.Machine.execShl k d a b z s
  | .shr k d a b z => Sys2Proof.Machine.execShr k d a b z s
  | .sra k d a b z => Sys2Proof.Machine.execSra k d a b z s
  | .slt k d a b z => Sys2Proof.Machine.execSlt k d a b z s
  | .sltn k d a b z => Sys2Proof.Machine.execSltn k d a b z s
  | .seq k d a b z => Sys2Proof.Machine.execSeq k d a b z s
  | .popc k d a z => Sys2Proof.Machine.execPopc k d a z s
  | .clz k d a z => Sys2Proof.Machine.execClz k d a z s
  | .ctz k d a z => Sys2Proof.Machine.execCtz k d a z s
  | .addi k d a imm => Sys2Proof.Machine.execAddi k d a imm s
  | .andi k d a imm => Sys2Proof.Machine.execAndi k d a imm s
  | .ori k d a imm => Sys2Proof.Machine.execOri k d a imm s
  | .xori k d a imm => Sys2Proof.Machine.execXori k d a imm s
  | .shli k d a c => Sys2Proof.Machine.execShli k d a c s
  | .shri k d a c => Sys2Proof.Machine.execShri k d a c s
  | .srai k d a c => Sys2Proof.Machine.execSrai k d a c s
  | .slti k d a imm => Sys2Proof.Machine.execSlti k d a imm s
  | .sltni k d a imm => Sys2Proof.Machine.execSltni k d a imm s
  | .muli k d a imm => Sys2Proof.Machine.execMuli k d a imm s
  | .lui k d imm => Sys2Proof.Machine.execLui k d imm s
  | .lpc k d imm => Sys2Proof.Machine.execLpc k d imm s
  | .lcat k d imm => Sys2Proof.Machine.execLcat k d imm s
  | .beq k a off => Sys2Proof.Machine.execBeq k a off s
  | .bne k a off => Sys2Proof.Machine.execBne k a off s
  | .blt k a off => Sys2Proof.Machine.execBlt k a off s
  | .bge k a off => Sys2Proof.Machine.execBge k a off s
  | .bgt k a off => Sys2Proof.Machine.execBgt k a off s
  | .ble k a off => Sys2Proof.Machine.execBle k a off s
  | .bra k off => Sys2Proof.Machine.execBra k off s
  | .mpush k p off => Sys2Proof.Machine.execMpush k p off s
  | .mbrk k p off => Sys2Proof.Machine.execMbrk k p off s
  | .jmp k off => Sys2Proof.Machine.execJmp k off s
  | .call k n a off => Sys2Proof.Machine.execCall k n a off s
  | .callr k d a n => Sys2Proof.Machine.execCallr k d a n s
  | .ret k a n => Sys2Proof.Machine.execRet k a n s
  | .exit k => Sys2Proof.Machine.execExit k s
  | .lrun k len idx => Sys2Proof.Machine.execLrun k len idx s
  | .bwait k d a dl => Sys2Proof.Machine.execBwait k d a dl s
  | .bsync k d a dl => Sys2Proof.Machine.execBsync k d a dl s
  | .semacq k d a dl b => Sys2Proof.Machine.execSemacq k d a dl b s
  | .waddr k d a dl b => Sys2Proof.Machine.execWaddr k d a dl b s
  | .fence k d mask dl => Sys2Proof.Machine.execFence k d mask dl s
  | .xfence k d ca dl cb => Sys2Proof.Machine.execXfence k d ca dl cb s
  | .sysfence k d dl => Sys2Proof.Machine.execSysfence k d dl s
  | .sysfenceArray k d dl => Sys2Proof.Machine.execSysfenceArray k d dl s
  | .fuse k d dl => Sys2Proof.Machine.execFuse k d dl s
  | .twait k d a dl => Sys2Proof.Machine.execTwait k d a dl s
  | .waitf k d flags dl => Sys2Proof.Machine.execWaitf k d flags dl s
  | .barr k a => Sys2Proof.Machine.execBarr k a s
  | .bdrop k a => Sys2Proof.Machine.execBdrop k a s
  | .semrel k a b => Sys2Proof.Machine.execSemrel k a b s
  | .split k d => Sys2Proof.Machine.execSplit k d s
  | .width k d => Sys2Proof.Machine.execWidth k d s
  | .mset k d a => Sys2Proof.Machine.execMset k d a s
  | .mand k d a b => Sys2Proof.Machine.execMand k d a b s
  | .mandn k d a b => Sys2Proof.Machine.execMandn k d a b s
  | .mor k d a b => Sys2Proof.Machine.execMor k d a b s
  | .mxor k d a b => Sys2Proof.Machine.execMxor k d a b s
  | .mpop k d => Sys2Proof.Machine.execMpop k d s
  | .mjoin k => Sys2Proof.Machine.execMjoin k s
  | .many k d a => Sys2Proof.Machine.execMany k d a s
  | .mall k d a => Sys2Proof.Machine.execMall k d a s
  | .mcount k d a => Sys2Proof.Machine.execMcount k d a s
  | .dlset k d a => Sys2Proof.Machine.execDlset k d a s
  | .dladd k d a => Sys2Proof.Machine.execDladd k d a s
  | .dlnow k d base => Sys2Proof.Machine.execDlnow k d base s
  | .sldI8 k d a imm => Sys2Proof.Machine.execSldI8 k d a imm s
  | .sldN8 k d a imm => Sys2Proof.Machine.execSldN8 k d a imm s
  | .sldI16 k d a imm => Sys2Proof.Machine.execSldI16 k d a imm s
  | .sldN16 k d a imm => Sys2Proof.Machine.execSldN16 k d a imm s
  | .sldI32 k d a imm => Sys2Proof.Machine.execSldI32 k d a imm s
  | .sldN32 k d a imm => Sys2Proof.Machine.execSldN32 k d a imm s
  | .sldN64 k d a imm => Sys2Proof.Machine.execSldN64 k d a imm s
  | .sstN8 k d a imm => Sys2Proof.Machine.execSstN8 k d a imm s
  | .sstN16 k d a imm => Sys2Proof.Machine.execSstN16 k d a imm s
  | .sstN32 k d a imm => Sys2Proof.Machine.execSstN32 k d a imm s
  | .sstN64 k d a imm => Sys2Proof.Machine.execSstN64 k d a imm s
  | .cpyt k d a dl b => Sys2Proof.Machine.execCpyt k d a dl b s
  | .gath k d a dl b => Sys2Proof.Machine.execGath k d a dl b s
  | .scat k d a dl b => Sys2Proof.Machine.execScat k d a dl b s
  | .chain k d a dl b => Sys2Proof.Machine.execChain k d a dl b s
  | .cpyw k d a dl b => Sys2Proof.Machine.execCpyw k d a dl b s
  | .coll k d a dl b => Sys2Proof.Machine.execColl k d a dl b s
  | .launch k d a dl b => Sys2Proof.Machine.execLaunch k d a dl b s
  | .tlnew k d a dl b => Sys2Proof.Machine.execTlnew k d a dl b s
  | .tlfree k d a dl => Sys2Proof.Machine.execTlfree k d a dl s
  | .tlload k d a dl => Sys2Proof.Machine.execTlload k d a dl s
  | .tlstore k d a dl => Sys2Proof.Machine.execTlstore k d a dl s
  | .tlfac k d a dl b => Sys2Proof.Machine.execTlfac k d a dl b s
  | .tladd k d a dl b => Sys2Proof.Machine.execTladd k d a dl b s
  | .tlmul k d a dl b => Sys2Proof.Machine.execTlmul k d a dl b s
  | .tllu k d a dl => Sys2Proof.Machine.execTllu k d a dl s
  | .tlinv k d a dl => Sys2Proof.Machine.execTlinv k d a dl s
  | .tltrs k d a dl b => Sys2Proof.Machine.execTltrs k d a dl b s
  | .tlrnd k d a dl b => Sys2Proof.Machine.execTlrnd k d a dl b s
  | .tlcvt k d a dl => Sys2Proof.Machine.execTlcvt k d a dl s
  | .tlnorm k d a dl => Sys2Proof.Machine.execTlnorm k d a dl s
  | .tbat k d => Sys2Proof.Machine.execTbat k d s
  | .tlinfo k d a => Sys2Proof.Machine.execTlinfo k d a s
  | .csrr k d csr => Sys2Proof.Machine.execCsrr k d csr s
  | .csrw k a csr => Sys2Proof.Machine.execCsrw k a csr s
  | .xrd k d a n => Sys2Proof.Machine.execXrd k d a n s
  | .xwr k a b n => Sys2Proof.Machine.execXwr k a b n s
  | .trap k a => Sys2Proof.Machine.execTrap k a s
  | .rett k => Sys2Proof.Machine.execRett k s
  | .yield k => Sys2Proof.Machine.execYield k s
  | .rdclk k d => Sys2Proof.Machine.execRdclk k d s
  | .rdret k d => Sys2Proof.Machine.execRdret k d s
  | .laneAdd f => Sys2Proof.Machine.execLaneAdd f s
  | .laneSub f => Sys2Proof.Machine.execLaneSub f s
  | .laneMul f => Sys2Proof.Machine.execLaneMul f s
  | .laneMulhi f => Sys2Proof.Machine.execLaneMulhi f s
  | .laneMad f => Sys2Proof.Machine.execLaneMad f s
  | .laneFma f => Sys2Proof.Machine.execLaneFma f s
  | .laneMin f => Sys2Proof.Machine.execLaneMin f s
  | .laneMax f => Sys2Proof.Machine.execLaneMax f s
  | .laneAbs f => Sys2Proof.Machine.execLaneAbs f s
  | .laneNeg f => Sys2Proof.Machine.execLaneNeg f s
  | .laneAdds f => Sys2Proof.Machine.execLaneAdds f s
  | .laneSubs f => Sys2Proof.Machine.execLaneSubs f s
  | .laneAnd f => Sys2Proof.Machine.execLaneAnd f s
  | .laneOr f => Sys2Proof.Machine.execLaneOr f s
  | .laneXor f => Sys2Proof.Machine.execLaneXor f s
  | .laneAndn f => Sys2Proof.Machine.execLaneAndn f s
  | .laneNot f => Sys2Proof.Machine.execLaneNot f s
  | .laneShl f => Sys2Proof.Machine.execLaneShl f s
  | .laneShr f => Sys2Proof.Machine.execLaneShr f s
  | .laneSra f => Sys2Proof.Machine.execLaneSra f s
  | .lanePopc f => Sys2Proof.Machine.execLanePopc f s
  | .laneClz f => Sys2Proof.Machine.execLaneClz f s
  | .laneBrev f => Sys2Proof.Machine.execLaneBrev f s
  | .laneDiv f => Sys2Proof.Machine.execLaneDiv f s
  | .laneSqrt f => Sys2Proof.Machine.execLaneSqrt f s
  | .laneRcp f => Sys2Proof.Machine.execLaneRcp f s
  | .laneRsqrt f => Sys2Proof.Machine.execLaneRsqrt f s
  | .laneExp2 f => Sys2Proof.Machine.execLaneExp2 f s
  | .laneLog2 f => Sys2Proof.Machine.execLaneLog2 f s
  | .laneSin f => Sys2Proof.Machine.execLaneSin f s
  | .laneCos f => Sys2Proof.Machine.execLaneCos f s
  | .laneRint f => Sys2Proof.Machine.execLaneRint f s
  | .laneConj f => Sys2Proof.Machine.execLaneConj f s
  | .laneCmp f => Sys2Proof.Machine.execLaneCmp f s
  | .laneSel f => Sys2Proof.Machine.execLaneSel f s
  | .laneMov f => Sys2Proof.Machine.execLaneMov f s
  | .laneCvt f => Sys2Proof.Machine.execLaneCvt f s
  | .laneShfl f => Sys2Proof.Machine.execLaneShfl f s
  | .laneBcast f => Sys2Proof.Machine.execLaneBcast f s
  | .laneRed f => Sys2Proof.Machine.execLaneRed f s
  | .laneScan f => Sys2Proof.Machine.execLaneScan f s
  | .laneMatch f => Sys2Proof.Machine.execLaneMatch f s
  | .laneVote f => Sys2Proof.Machine.execLaneVote f s
  | .mma f => Sys2Proof.Machine.execMma f s
  | .mmas f => Sys2Proof.Machine.execMmas f s
  | .mmab f => Sys2Proof.Machine.execMmab f s
  | .laneLd f => Sys2Proof.Machine.execLaneLd f s
  | .laneSt f => Sys2Proof.Machine.execLaneSt f s
  | .atom f => Sys2Proof.Machine.execAtom f s
  | .ared f => Sys2Proof.Machine.execAred f s
  | .acas f => Sys2Proof.Machine.execAcas f s
  | .laneMemoryCompletion pid => Sys2Proof.Machine.execLaneMemoryCompletion pid s
  | .trapDelivery pid => Sys2Proof.Machine.execTrapDelivery pid s
  | .replyAnswer ctx ticket => Sys2Proof.Machine.execReplyAnswer ctx ticket s
  | .deadlineExpiry pid => Sys2Proof.Machine.execDeadlineExpiry pid s
  | .waitConditionMet pid => Sys2Proof.Machine.execWaitConditionMet pid s
  | .siphonEntryGrant core => Sys2Proof.Machine.execSiphonEntryGrant core s
  | .siphonCommandExecute cmd => Sys2Proof.Machine.execSiphonCommandExecute cmd s
  | .commandCompletion cmd => Sys2Proof.Machine.execCommandCompletion cmd s
  | .galleryEntryGrant core => Sys2Proof.Machine.execGalleryEntryGrant core s
  | .taskStart engine => Sys2Proof.Machine.execTaskStart engine s
  | .flowstoneRecompression task => Sys2Proof.Machine.execFlowstoneRecompression task s
  | .taskRetire task => Sys2Proof.Machine.execTaskRetire task s
  | .cavernQuiescence => Sys2Proof.Machine.execCavernQuiescence s
  | .launchTake queue => Sys2Proof.Machine.execLaunchTake queue s
  | .dependenceMet id => Sys2Proof.Machine.execDependenceMet id s
  | .groupPlacement id core quads => Sys2Proof.Machine.execGroupPlacement id core quads s
  | .placementAging id => Sys2Proof.Machine.execPlacementAging id s
  | .launchEnd id => Sys2Proof.Machine.execLaunchEnd id s
  | .eviction pid => Sys2Proof.Machine.execEviction pid s
  | .restore pid => Sys2Proof.Machine.execRestore pid s
  | .invalidatePage ctx => Sys2Proof.Machine.execInvalidatePage ctx s
  | .invalidateAll ctx => Sys2Proof.Machine.execInvalidateAll ctx s
  | .reset ctx => Sys2Proof.Machine.execReset ctx s
  | .suspend ctx => Sys2Proof.Machine.execSuspend ctx s
  | .resume ctx => Sys2Proof.Machine.execResume ctx s
  | .accessBoundExpiry pid => Sys2Proof.Machine.execAccessBoundExpiry pid s
  | .softError what => Sys2Proof.Machine.execSoftError what s
  | .patrolScrub stack => Sys2Proof.Machine.execPatrolScrub stack s
  | .doorbell fn value => Sys2Proof.Machine.execDoorbell fn value s
  | .registerWrite fn off value => Sys2Proof.Machine.execRegisterWrite fn off value s
  | .hostRead fn off len => Sys2Proof.Machine.execHostRead fn off len s
  | .hostWrite fn off bytes => Sys2Proof.Machine.execHostWrite fn off bytes s
  | .functionLevelReset fn => Sys2Proof.Machine.execFunctionLevelReset fn s
  | .attest => Sys2Proof.Machine.execAttest s
  | .keyload => Sys2Proof.Machine.execKeyload s
  | .keyclear => Sys2Proof.Machine.execKeyclear s
  | .stackinit => Sys2Proof.Machine.execStackinit s
  | .stackinfo => Sys2Proof.Machine.execStackinfo s
  | .bringUp verified part => Sys2Proof.Machine.execBringUp verified part s
  | .packetReceive packet => Sys2Proof.Machine.execPacketReceive packet s
  | .retransmission dst cls => Sys2Proof.Machine.execRetransmission dst cls s
  | .partAbsent part => Sys2Proof.Machine.execPartAbsent part s
  | .collectiveCompletion cmd inputs => Sys2Proof.Machine.execCollectiveCompletion cmd inputs s
  | .collTimeout cmd => Sys2Proof.Machine.execCollTimeout cmd s
  | .thermalThrottle => Sys2Proof.Machine.execThermalThrottle s
  | .thermalTrip => Sys2Proof.Machine.execThermalTrip s
  | .tripClear => Sys2Proof.Machine.execTripClear s
  | .scoreHalving => Sys2Proof.Machine.execScoreHalving s
  | .vectorUnmask fn vector => Sys2Proof.Machine.execVectorUnmask fn vector s

end Sys2Proof.Machine
end

