-- ==== Sys2Proof/Machine/Issue.lean ====
section
/-!
DEFINITION. What the next move is, and how the two streams of a party fetch and issue (R44, R57, R66, R88, R147, R153, R192,
R198; log 3).
-/
namespace Sys2Proof.Machine

/-- What an agent's move comes to before an instruction runs: nothing to run, or an instruction. -/
inductive Issued where
  | done (s : State)
  | run (i : Instr) (s : State)

/-- The park marker of a scalar word (R88). -/
def parked (w : BitVec 32) : Bool := w.getLsbD 31

/-- The scalar stream of the party in focus: its next instruction, a trap of its fetch or word, a cause that is due at this
boundary, or nothing while it waits, holds, is away or is to leave, or has a trap pending. -/
def State.issueScalar (s : State) : Issued :=
  let p := s.party
  let l := s.home p
  if !p.ready || s.held || p.wait.isSome || !s.turnAllows p.pid then .done s
  else if p.due then .done s.takeDue
  else if p.offer.isSome || p.raised.isSome || s.mustLeave p then .done s
  else match if p.hmode then none else p.copying with
  | some c => .done (s.finishCopy c)
  | none => match s.fetchWord l p.pc with
    | .error d =>
      .done (s.takeTrap { (Trap.scalar d.cause p.lastPc p.pc).denied d p.pc with src := 2 })
    | .ok w => match decodeFor l.header.laneLen w with
      | .error _ => .done (s.takeTrap (Trap.scalar .illegal p.pc (p.pc + 4)))
      | .ok i =>
        if !parked w || p.hmode then .run i s
        else if p.drained then .run i { s with party := p.certain }
        else .done s

/-- The lane stream of the party in focus: the instruction at the head of its queue. -/
def State.issueLane (s : State) : Issued :=
  let p := s.party
  match p.queue with
  | [] => .done s
  | b :: _ =>
    if !p.ready || s.held || p.laneFrozen then .done s
    else match p.begun with
    | some h => .run (h.op.instr h.f) s
    | none => match s.fetchLane (s.home p) (b.first + p.laneCtr) with
      | .error d =>
        -- the address field names the fetched word (R153)
        let at_ : Word := BitVec.ofNat 64 ((s.home p).laneAt (b.first + p.laneCtr))
        .done { s with party := { p with
          pendingLane := some { (Trap.scalar d.cause b.lrun p.pc).denied d at_ with src := 2, lane := true } } }
      | .ok w => match decodeLane w with
        | .error _ => .done (s.illegalLane b)
        | .ok i => .run i s

/-- Whether the head lane instruction would do more than hold. -/
def State.laneReady (s : State) : Bool :=
  match s.issueLane with
  | .run i _ => match i.lane? with
    | some (op, f) => s.party.flagsAdmit f || (op.check f).isSome
    | none => false
  | .done t => t.party.pendingLane != s.party.pendingLane

/-- The move of an empty agenda: the party in focus goes on, completions first (log 3). -/
def State.defaultAct (s : State) : Act :=
  let p := s.party
  if !p.ready || s.held then .idle
  else if p.completable.isSome then .event (.laneMemoryCompletion p.pid)
  else if p.due && !(p.raised.isSome && p.laneBusy) then .event (.trapDelivery p.pid)
  else if s.laneReady then .lane p.pid
  else if s.mustLeave p then .event (.eviction p.pid)
  else match p.wait with
    | some w => match w.decided with
      | some st => if isExpiry st then .event (.deadlineExpiry p.pid) else .event (.waitConditionMet p.pid)
      | none => match s.attempt w with
        | .waiting => if (s.home p).header.replay && s.turnAllows p.pid then .event (.waitConditionMet p.pid) else .idle
        | _ => .event (.waitConditionMet p.pid)
    | none => .scalar p.pid

/-- The next move, taken off the agenda. -/
def State.nextMove (s : State) : Move × State :=
  match s.agenda with
  | m :: rest => (m, { s with agenda := rest })
  | [] => ({ act := s.defaultAct, ticks := Config.freeTicks s.free, clocks := Config.freeClocks s.free }, s)

/-- A party's own events of a replay launch wait for its turn. -/
def State.eventWaits (s : State) (i : Instr) : Bool :=
  match i with
  | .trapDelivery pid | .waitConditionMet pid | .deadlineExpiry pid => !s.turnAllows pid
  | _ => false

/-- WAIT_CONDITION_MET would test or end a wait; DEADLINE_EXPIRY would end it. -/
def State.testable (s : State) (p : Party) (w : Wait) : Bool :=
  match w.decided with
  | some st => !isExpiry st
  | none => w.claim.isSome || !w.deadline.passed s p
def State.expirable (s : State) (p : Party) (w : Wait) : Bool :=
  match w.decided with
  | some st => isExpiry st
  | none => w.claim.isNone && w.deadline.passed s p

/-- The launch whose turn an act uses: it executes an instruction or is held at one, has a trap taken, or has its
wait tested or ended (R352). -/
def State.turnOf (s : State) (a : Act) : Option Nat :=
  let of (pid : Nat) (acts : Party → Bool) : Option Nat :=
    match s.party? pid with
    | some p => if p.ready && acts p && s.turnAllows pid then some p.launch else none
    | none => none
  let granted (core : Nat) (kind : Work → Bool) : Option Nat :=
    (s.oldestRequest core kind).bind fun p => of p.pid fun _ => true
  match a with
  | .scalar pid => of pid fun p => !s.held && p.wait.isNone
  | .event (.trapDelivery pid) => of pid Party.due
  | .event (.waitConditionMet pid) => of pid fun p => p.wait.any (s.testable p)
  | .event (.deadlineExpiry pid) => of pid fun p => p.wait.any (s.expirable p)
  | .event (.siphonEntryGrant core) => granted core fun w => match w with | .commands _ => true | _ => false
  | .event (.galleryEntryGrant core) => granted core fun w => match w with | .task _ => true | _ => false
  | _ => none

/-! ### Caches (R67, R177, R310, R326) -/

/-- The entries of the present walk to an address are cached, each as it is used (R326). -/
def State.cacheTranslation (s : State) (launch : Nat) (va : Word) : State :=
  match s.launch? launch with
  | none => s
  | some l =>
    let entry (e : Nat × Word) : Copy := .translation l.space.asid e.1 (va.toNat / 2 ^ levelShift e.1) e.2
    { s with copies := (s.walkTrace l.space va.toNat 4 l.space.root.toNat).map entry ++ s.copies }

/-- Bytes of code or of a record are cached as they stand (R67, R177). -/
def State.cacheBytes (s : State) (launch : Nat) (va : Word) (len : Nat) : State :=
  match s.launch? launch with
  | none => s
  | some l =>
    match (s.unitSpans l.space .fetch len va.toNat len).toOption.or (s.unitSpans l.space .read len va.toNat len).toOption with
    | some spans => { s with copies := .bytes launch spans (s.readSpans spans) :: s.copies }
    | none => s

/-- The agent of a command, a task or a collective; that of the host port for 0. -/
def State.agentOf (s : State) (id : Nat) : Option Agent :=
  if id = 0 then some .host
  else match s.commands.find? (fun c => c.id == id), s.tasks.find? (fun t => t.id == id), s.collectives.find? (fun c => c.id == id) with
    | some c, _, _ => some c.agent
    | _, some t, _ => some t.agent
    | _, _, some c => some c.agent
    | _, _, _ => none

/-- The cache of an engine path takes bytes of a line (R310, R318). -/
def State.prefetch (s : State) (id : Nat) (place : Place) (len : Nat) : State :=
  match s.agentOf id with
  | some a => s.fillCopy a place len
  | none => s

/-- A line leaves L1 with the slot that filled it; 4,096 tags a core are kept, the newest first (R196). -/
def State.victimTag (s : State) (core line slot : Nat) : State :=
  let mine (c : Copy) : Bool := match c with | .victim k _ _ => k == core | _ => false
  let kept := (s.copies.filter mine).filter fun c => c != .victim core line slot
  { s with copies := (.victim core line slot :: kept.take 4095) ++ s.copies.filter fun c => !mine c }

end Sys2Proof.Machine
end

