-- ==== Sys2Proof/Machine/Install.lean ====
section
/-!
DEFINITION. One instruction placed where the next step fetches it (log 1): for a party that runs, at its counter or at the
head of its lane queue; else in a small launch that stands for the loading of a program from outside the machine.
-/
namespace Sys2Proof.Machine

/-- Context 1 with ASID 1 of the physical function; one leaf maps the first GiB onto itself. -/
def installSpace : Space :=
  { ctx := 1, asid := 1, fn := 0, root := 0x30000, keyMask := 1, dlceil := 2 ^ 40, xlim := 0 }

/-- A kernel of one group and one party of width 32 and depth 128, without a handler. -/
def installHeader : Header := {
  Launch.blank.header with
    scalar := 0x100000, lane := 0x110000, data := 0x300000, wdef := 5, depth := 128, laneLen := 64
    arena := 0x200000, brec := 0x120000, layout := 0x130000, brecs := 1, layouts := 1, local_ := 4096, private_ := 256 }

/-- The launch placed. -/
def installLaunch : Launch :=
  { Launch.blank with id := 1, space := installSpace, header := installHeader, placed := 1, clusters := [(0, 0)]
                      roots := [(0, installHeader.freshRoots 0)] }

/-- Its group on core 0. -/
def installGroup : Group :=
  { launch := 1, number := 0, core := 0, spad := [], bad := [], lost := [], leaf := List.replicate 16 (Barrier.fresh 32)
    cleaf := List.replicate 16 (Barrier.fresh 32), backing := [], ended := false }

/-- Its party as R43 leaves it. -/
def installParty : Party :=
  { Party.blank with pid := 2, launch := 1, life := .running, pc := 0x100000, lastPc := 0x100000, s := Party.blank.s.set 1 0x300000
                     fresh := 128 }

/-- 64-bit words of the context table, the ranges, the context record and the two page tables. -/
def installWords : List (Nat × Nat) :=
  [(0x10040, 0x40000), (0x10048, 1 + 2 ^ 31), (0x20008, 2 ^ 40), (0x30000, 0x31001), (0x31000, 0x1F), (0x40000, 0x30000)]

/-- The launch installed with nothing placed yet. -/
def State.install (s : State) : State :=
  { s with
      party := installParty, others := [], groups := [installGroup], launches := [installLaunch]
      contexts := [{ index := 1, state := 1, cmd := none, seen := (0x40000, 0), begun := false }]
      mem := installWords.foldl (fun m w => writeBytes m w.1 (toBytes 8 w.2)) s.mem
      bar := { s.bar with ready := true, ctxbase := 0x10000, rngbase := 0x20000 }
      copies := [], agenda := [], held := false, ids := 3 }

/-- Whether the stream of the party in focus could fetch at its counter. -/
def State.canFetch (s : State) : Bool :=
  s.party.ready && s.party.wait.isNone && s.agenda.isEmpty && !s.held && !s.mustLeave s.party &&
    (s.launch? s.party.launch).isSome && (s.fetchWord (s.home s.party) s.party.pc).toBool

/-- A scalar word stored at the counter. -/
def State.placeScalar (s : State) (w : Nat) : State :=
  match s.globalPlace (s.home s.party).space s.party.pc.toNat .fetch with
  | .ok p => s.writePlace p (toBytes 4 w)
  | .error _ => s

/-- A lane instruction stored first in the lane section, and alone in the queue. -/
def State.placeLane (s : State) (w : Nat) : State :=
  let p := s.party
  let l := s.home p
  match s.globalPlace l.space l.header.lane.toNat .fetch with
  | .ok place =>
    { s.writePlace place (toBytes 12 w) with party := { p with
        queue := [{ first := 0, len := 1, lrun := p.pc, s := p.s, p := p.p, dl := p.dl, rnd := p.rnd, nvr := p.nvr
                    order := p.lruns + 1 }]
        lruns := p.lruns + 1, laneCtr := 0 } }
  | .error _ => s

/-- The instruction of `nbits` bits placed where the next step fetches it. -/
def State.placeWord (s : State) (nbits w : Nat) : State :=
  let s := if s.canFetch then { s with copies := [] } else s.install
  if nbits ≤ 32 then s.placeScalar w else s.placeLane w

end Sys2Proof.Machine
end

