-- ==== Sys2Proof/Machine/Parts.lean ====
section
/-!
DEFINITION. The moves of the agenda that make some of a lane instruction's events, so that other agents act between them and
the rest (R190, R301, R302).
-/
namespace Sys2Proof.Machine

/-- Some lanes of LD or ST, the lanes of an atomic on one line, or some row reads of MMA or MMAS (log 7). -/
def State.laneSome (s : State) (op : LaneOp) (f : LaneF) (from_ n : Nat) : State :=
  if op = .ld then s.lanesSome op f LaneCtx.ldLane from_ n
  else if op = .st then s.lanesSome op f LaneCtx.stLane from_ n
  else if op = .atom then s.lineSome op f LaneCtx.atomLane from_
  else if op = .ared then s.lineSome op f LaneCtx.aredLane from_
  else if op = .acas then s.lineSome op f LaneCtx.acasLane from_
  else if op = .mma then s.rowsSome op f 48 48 from_ n
  else if op = .mmas then s.rowsSome op f 48 96 from_ n
  else s

/-- CPYW or LAUNCH of the party in focus claims its slot, or copies at most `n` of the 8-byte units of its payload. -/
def State.ringSome (s : State) (n : Nat) : State :=
  match s.party.wait with
  | some w => match w.claim with
    | some r =>
      if s.party.ready && s.turnAllows s.party.pid then s.fillSome (accessorOf (s.home s.party) s.party) w r n else s
    | none => s
  | none =>
    match (match s.issueScalar with
      | .run (.cpyw k d a dl b) t => startCpyw State.startClaim k d a dl b t
      | .run (.launch k d a dl b) t => startLaunch State.startClaim k d a dl b t
      | _ => .next s) with
    | .next t => if t.party.wait.any fun w => w.claim.isSome then t else s
    | _ => s

/-- Some events of the lane instruction that the lane stream issues next, or that has begun. -/
def partIssued (some_ : State → LaneOp → LaneF → State) : Issued → State
  | .done s => s
  | .run i s => match i.lane? with
    | some (op, f) => some_ s op f
    | none => s

end Sys2Proof.Machine
end

