-- ==== Sys2Proof/Machine/Step.lean ====
section
/-!
DEFINITION. One step of the machine, and the placing of an instruction where it is fetched next.
-/
namespace Sys2Proof.Machine

/-- An instruction runs, or the agent had none. -/
def runIssued : Issued → Host.Outcome State Fault Refusal
  | .done s => .next s
  | .run i s => exec i s


/-- An agent's move. -/
def perform (a : Act) (s : State) : Host.Outcome State Fault Refusal :=
  match a with
  | .scalar pid => runIssued (s.focus pid).issueScalar
  | .lane pid => runIssued (s.focus pid).issueLane
  | .laneHalf pid from_ n => .next (partIssued (fun s op f => s.laneHalf op f from_ n) (s.focus pid).issueLane)
  | .laneSome pid from_ n => .next (partIssued (fun s op f => s.laneSome op f from_ n) (s.focus pid).issueLane)
  | .event i => if s.eventWaits i then .next s else exec i s
  | .cacheTranslation launch va => .next (s.cacheTranslation launch va)
  | .cacheBytes launch va len => .next (s.cacheBytes launch va len)
  | .prefetch agent place len => .next (s.prefetch agent place len)
  | .dropCopy index => .next { s with copies := s.copies.eraseIdx index }
  | .siphonEvents cmd n => .next (s.moveSome cmd n)
  | .ringSome pid n => .next ((s.focus pid).ringSome n)
  | .taskReads engine n => .next (s.taskReads engine n)
  | .storeSome task n => .next (s.storeSome task n)
  | .collectiveSome cmd inputs n => .next (s.collectiveSome cmd inputs n)
  | .evictLine core line slot => .next (s.victimTag core line slot)
  | .dropCopies => .next { s with copies := [] }
  | .idle => .next s

/-- What follows a move: the replay turn it used, and the end of the step. -/
def conclude (a : Act) (m : Move) (before after : State) : State :=
  let t := match before.turnOf a with
    | some launch => after.useTurn launch before.ids
    | none => after
  t.settle m.ticks m.clocks

/-- One step: the next move of the script, or of the default order where the script is empty (log 3). -/
def step (s : State) : Host.Outcome State Fault Refusal :=
  if s.party.live && (s.launch? s.party.launch).isNone then .fault .noLaunch
  else
    let m := s.nextMove
    match perform m.1.act m.2 with
    | .next t => .next (conclude m.1.act m.1 m.2 t)
    | .fault e => .fault e
    | .refused r => .refused r

/-- `s` with the instruction of `nbits` bits that the next step runs (log 1). -/
def State.withFetchWord (s : State) (nbits w : Nat) : State := s.placeWord nbits w

end Sys2Proof.Machine
end

