-- ==== Sys2Proof/Exact.lean ====
section
/-!
DEFINITION. What the spec asks of a floating-point result, in exact rational numbers: rounding, sums of terms, quotients and
roots (R69 to R77, R82 to R86).  The meanings compute these results; here they are only described.
-/
namespace Sys2Proof.Exact

open Machine

/-- A term of one rounding step: a NaN, an infinity, or an exact number with the sign that it has where it is zero (R73,
R74). -/
inductive Term where
  | nan
  | inf (neg : Bool)
  | num (neg : Bool) (v : ℚ)
  deriving DecidableEq

namespace Term

def neg : Term → Term
  | .nan => .nan
  | .inf s => .inf !s
  | .num s v => .num (!s) (-v)

/-- The exact product; 0 × ∞ is invalid (R73, R74). -/
def mul : Term → Term → Term
  | .num s v, .num t w => .num (s != t) (v * w)
  | .inf s, .inf t => .inf (s != t)
  | .inf s, .num t v | .num t v, .inf s => if v = 0 then .nan else .inf (s != t)
  | _, _ => .nan

def value : Term → ℚ
  | .num _ v => v
  | _ => 0

end Term

/-! ### Values of patterns (R69) -/

/-- The magnitude of a pattern without its sign, its exponent unbounded. -/
def size (f : Fmt) (x : Nat) : ℚ :=
  (if x < 2 ^ f.frac then (x : ℚ) else (2 ^ f.frac + x % 2 ^ f.frac : Nat) * 2 ^ (x / 2 ^ f.frac - 1)) *
    2 ^ (1 - (f.bias : Int) - f.frac)

/-- The value of a pattern. -/
def term (f : Fmt) (x : Nat) : Term :=
  let m := f.magnitude x
  if f.infinity < m then .nan
  else if m = f.infinity then .inf (f.negative x)
  else .num (f.negative x) (if f.negative x then -size f m else size f m)

/-! ### One rounding (R72) -/

/-- `r` is round_fmt, in a mode, of a number of sign `neg` whose magnitude is known by how numbers compare with it: `side u` is
`.lt` below it and `.gt` above. -/
def Rounds (f : Fmt) (m : Rounding) (neg : Bool) (side : ℚ → Ordering) (r : Nat) : Prop :=
  ∃ x : Nat, side (size f x) ≠ .gt ∧ side (size f (x + 1)) = .gt ∧
    let up : Bool := match m with
      | .rz => false
      | .rp => !neg
      | .rm => neg
      | .rn => match side ((size f x + size f (x + 1)) / 2) with
        | .lt => true
        | .gt => false
        | .eq => x % 2 == 1
    let y := if side (size f x) = .eq then x else if up then x + 1 else x
    r = f.sign neg + if y < f.infinity then y else if m = .rn ∨ (m = .rp ∧ neg = false) ∨ (m = .rm ∧ neg = true)
      then f.infinity else f.largest

/-- `r` is an exact number rounded, with the sign `zero` where it is zero. -/
def RoundsTo (f : Fmt) (m : Rounding) (zero : Bool) (v : ℚ) (r : Nat) : Prop :=
  if v = 0 then r = f.sign zero else Rounds f m (decide (v < 0)) (fun u => compare u |v|) r

/-- The sign of an exact sum of terms that is zero (R73). -/
def zeroSign (m : Rounding) (ts : List Term) : Bool :=
  if ts.all fun t => t == .num false 0 then false else if ts.all fun t => t == .num true 0 then true else m == .rm

/-- The exact sum of the terms of one rounding step, in a mode (R73, R74). -/
def total (m : Rounding) (ts : List Term) : Term :=
  if .nan ∈ ts ∨ (.inf false ∈ ts ∧ .inf true ∈ ts) then .nan
  else if .inf false ∈ ts then .inf false
  else if .inf true ∈ ts then .inf true
  else
    let v := (ts.map Term.value).sum
    .num (if v = 0 then zeroSign m ts else decide (v < 0)) v

/-- `r` is a term rounded. -/
def RoundsTerm (f : Fmt) (m : Rounding) (x : Term) (r : Nat) : Prop :=
  match x with
  | .nan => r = f.defaultNaN
  | .inf s => r = f.sign s + f.infinity
  | .num s v => RoundsTo f m s v r

/-- `r` is the sum of the terms of one rounding step. -/
def Sums (f : Fmt) (m : Rounding) (ts : List Term) (r : Nat) : Prop := RoundsTerm f m (total m ts) r

/-! ### Real operations (R74, R76, R124) -/

/-- `r` is the first NaN of the operands, made quiet, or what `P` asks where none is a NaN. -/
def RealOp (f : Fmt) (xs : List Nat) (P : Nat → Prop) (r : Nat) : Prop :=
  match xs.find? fun x => term f x == .nan with
  | some x => r = x ||| 2 ^ (f.frac - 1)
  | none => P r

def Adds (f : Fmt) (m : Rounding) (x y : Nat) (r : Nat) : Prop :=
  RealOp f [x, y] (Sums f m [term f x, term f y]) r
def Subtracts (f : Fmt) (m : Rounding) (x y : Nat) (r : Nat) : Prop :=
  RealOp f [x, y] (Sums f m [term f x, (term f y).neg]) r
def Multiplies (f : Fmt) (m : Rounding) (x y : Nat) (r : Nat) : Prop :=
  RealOp f [x, y] (Sums f m [(term f x).mul (term f y)]) r
def Fuses (f : Fmt) (m : Rounding) (x y z : Nat) (r : Nat) : Prop :=
  RealOp f [x, y, z] (Sums f m [(term f x).mul (term f y), term f z]) r

/-- `r` is the quotient of two terms. -/
def Divides (f : Fmt) (m : Rounding) (a b : Term) (r : Nat) : Prop :=
  match a, b with
  | .num s v, .num t w =>
    if w = 0 then (if v = 0 then r = f.defaultNaN else r = f.sign (s != t) + f.infinity) else RoundsTo f m (s != t) (v / w) r
  | .inf s, .num t _ => r = f.sign (s != t) + f.infinity
  | .num s _, .inf t => r = f.sign (s != t)
  | _, _ => r = f.defaultNaN

/-- `r` is the square root of a term. -/
def Roots (f : Fmt) (m : Rounding) (a : Term) (r : Nat) : Prop :=
  match a with
  | .num s v =>
    if v = 0 then r = f.sign s else if v < 0 then r = f.defaultNaN
    else Rounds f m false (fun u => compare (u * u) v) r
  | .inf false => r = f.infinity
  | _ => r = f.defaultNaN

/-- `r` is the reciprocal of the square root of a term. -/
def InverseRoots (f : Fmt) (m : Rounding) (a : Term) (r : Nat) : Prop :=
  match a with
  | .num s v =>
    if v = 0 then r = f.sign s + f.infinity else if v < 0 then r = f.defaultNaN
    else Rounds f m false (fun u => compare (u * u * v) 1) r
  | .inf false => r = 0
  | _ => r = f.defaultNaN

/-- A number rounded to an integer in a mode. -/
def roundInt (m : Rounding) (v : ℚ) : Int :=
  let n := ⌊v⌋
  match m with
  | .rz => if v < 0 then ⌈v⌉ else n
  | .rp => ⌈v⌉
  | .rm => n
  | .rn => if v - n < 1 / 2 then n else if 1 / 2 < v - n then n + 1 else n + n % 2

/-- `r` is the integral value nearest a term. -/
def Integral (f : Fmt) (m : Rounding) (x : Nat) (r : Nat) : Prop :=
  match term f x with
  | .num s v => RoundsTo f .rn s (roundInt m v) r
  | _ => r = x

/-- A NaN of one format converted to another: its sign, the quiet bit, and its payload padded with low zeros or cut to its top
bits (R74, R77). -/
def nanAs (dst src : Fmt) (x : Nat) : Nat :=
  (dst.sign (src.negative x) + dst.infinity + x % 2 ^ src.frac * 2 ^ dst.frac / 2 ^ src.frac) ||| 2 ^ (dst.frac - 1)

/-! ### Row steps (R82, R83) -/

/-- `r` is one FMA of R83: factors in format `ft`, the sum in `fa`; a NaN operand is converted to `fa` (R74, R77). -/
def Step (fa ft : Fmt) (m : Rounding) (x y acc : Nat) (r : Nat) : Prop :=
  if term ft x = .nan then r = nanAs fa ft x
  else if term ft y = .nan then r = nanAs fa ft y
  else if term fa acc = .nan then r = acc ||| 2 ^ (fa.frac - 1)
  else Sums fa m [(term ft x).mul (term ft y), term fa acc] r

/-- `r` is an FMA for each pair of factors in turn, onto an accumulator. -/
def Chain (fa ft : Fmt) (m : Rounding) : List (Nat × Nat) → (acc r : Nat) → Prop
  | [], acc, r => r = acc
  | p :: ps, acc, r => ∃ g, Step fa ft m p.1 p.2 acc g ∧ Chain fa ft m ps g r

/-- The products of pairs of factors. -/
def products (f : Fmt) (ps : List (Nat × Nat)) : List Term := ps.map fun p => (term f p.1).mul (term f p.2)

/-- `r` is one real row step onto an accumulator, under a value of `nvr`. -/
def RowStep (fa ft : Fmt) (m : Rounding) (nvr : Nat) (ps : List (Nat × Nat)) (acc r : Nat) : Prop :=
  if nvr = 1 then Chain fa ft m ps acc r else Sums fa m (term fa acc :: products ft ps) r

/-- `re` and `im` are one complex row step onto an accumulator, each factor a pair of parts. -/
def ComplexRowStep (f : Fmt) (m : Rounding) (nvr : Nat) (ps : List ((Nat × Nat) × (Nat × Nat))) (acc : Nat × Nat)
    (re im : Nat) : Prop :=
  let rr := ps.map fun p => (p.1.1, p.2.1)
  let ii := ps.map fun p => (p.1.2, p.2.2)
  let ri := ps.map fun p => (p.1.1, p.2.2)
  let ir := ps.map fun p => (p.1.2, p.2.1)
  if nvr = 1 then
    ∃ a b c d, Chain f f m rr acc.1 a ∧ Chain f f m ii 0 b ∧ Chain f f m ri acc.2 c ∧ Chain f f m ir 0 d ∧
      Subtracts f m a b re ∧ Adds f m c d im
  else
    Sums f m (term f acc.1 :: products f rr ++ (products f ii).map Term.neg) re ∧
    Sums f m (term f acc.2 :: products f ri ++ products f ir) im

/-! ### Complex operations (R86) -/

/-- `re` and `im` are the product of two pairs, and of FMA the sum with a third. -/
def ComplexFuses (f : Fmt) (m : Rounding) (nvr : Nat) (a b : Nat × Nat) (c : Option (Nat × Nat)) (re im : Nat) : Prop :=
  let nan (x : Nat × Nat) : Bool := term f x.1 == .nan || term f x.2 == .nan
  if nan a || nan b || c.any nan then re = f.defaultNaN ∧ im = f.defaultNaN
  else
    let prod (x y : Nat) : Term := (term f x).mul (term f y)
    let more (part : Nat × Nat → Nat) : List Term := (c.map fun x => term f (part x)).toList
    if nvr = 1 then
      ∃ t u, Sums f m [prod a.2 b.2] t ∧ Sums f m [prod a.2 b.1] u ∧
        match c with
        | none => Sums f m [prod a.1 b.1, (term f t).neg] re ∧ Sums f m [prod a.1 b.2, term f u] im
        | some x => ∃ v w, Sums f m [term f x.1, (term f t).neg] v ∧ Sums f m [term f x.2, term f u] w ∧
          Sums f m [prod a.1 b.1, term f v] re ∧ Sums f m [prod a.1 b.2, term f w] im
    else
      Sums f m ([prod a.1 b.1, (prod a.2 b.2).neg] ++ more Prod.fst) re ∧
      Sums f m ([prod a.1 b.2, prod a.2 b.1] ++ more Prod.snd) im

/-- `re` and `im` are the quotient of a pair of exact parts by a pair (R86, R250). -/
def ComplexDivides (f : Fmt) (m : Rounding) (a : Term × Term) (b : Nat × Nat) (re im : Nat) : Prop :=
  let br := term f b.1
  let bi := term f b.2
  let finite (x : Term) : Bool := match x with | .num _ _ => true | _ => false
  let q := br.value * br.value + bi.value * bi.value
  if [a.1, a.2, br, bi].all finite ∧ q ≠ 0 then
    let part (x y : Term) (r : Nat) : Prop := RoundsTo f m (zeroSign m [x, y]) ((x.value + y.value) / q) r
    part (a.1.mul br) (a.2.mul bi) re ∧ part (a.2.mul br) (a.1.mul bi).neg im
  else re = f.defaultNaN ∧ im = f.defaultNaN

/-! ### Conversions (R77) -/

/-- `r` is a float converted to a float format; with `sat` a narrower result does not become infinite. -/
def FloatToFloat (dst src : Fmt) (m : Rounding) (sat : Bool) (x r : Nat) : Prop :=
  match term src x with
  | .nan => r = nanAs dst src x
  | t => ∃ g, Sums dst m [t] g ∧
    r = if sat = true ∧ ¬(src.frac ≤ dst.frac ∧ src.exp ≤ dst.exp) ∧ dst.magnitude g = dst.infinity then g - 1 else g

/-- `r` is a float converted to the integers from `lo` to `hi`, held in `n` bits. -/
def FloatToInt (n : Nat) (lo hi : Int) (src : Fmt) (m : Rounding) (sat : Bool) (x r : Nat) : Prop :=
  let bad : Int := if lo < 0 then lo else hi
  r = (BitVec.ofInt n (match term src x with
    | .nan => if sat then 0 else bad
    | .inf s => if sat then (if s then lo else hi) else bad
    | .num _ v =>
      let k := roundInt m v
      if lo ≤ k ∧ k ≤ hi then k else if sat then max lo (min hi k) else bad)).toNat

/-- `r` is an integer converted to a float format. -/
def IntToFloat (dst : Fmt) (m : Rounding) (sat : Bool) (v : Int) (r : Nat) : Prop :=
  ∃ g, RoundsTo dst m false v g ∧ r = if sat = true ∧ dst.magnitude g = dst.infinity then g - 1 else g

end Sys2Proof.Exact
end

