-- ==== Sys2Proof/ExactTiles.lean ====
section
/-!
DEFINITION. What the spec asks of tile arithmetic, in exact numbers: elements, sums, products, factorisations and solves (R227,
R237, R238, R246 to R254), and of the roundings of Flowstone (R266).  Matrices are flat and column-major.
-/
namespace Sys2Proof.Exact

open Machine

/-! ### Elements -/

/-- The pattern of a part of an element; a real element has one part. -/
def partBits (t : Ty) (im : Bool) (x : Nat) : Nat :=
  if !t.isC then x else if im then x / 2 ^ t.fmt.bits % 2 ^ t.fmt.bits else x % 2 ^ t.fmt.bits

def part (t : Ty) (im : Bool) (x : Nat) : Term := term t.fmt (partBits t im x)

/-- Each part of an element is as `P` asks. -/
def Parts (t : Ty) (P : Bool → Nat → Prop) (r : Nat) : Prop :=
  if t.isC then P false (r % 2 ^ t.fmt.bits) ∧ P true (r / 2 ^ t.fmt.bits) else P false r

/-- The terms of a part of a product of two elements. -/
def prod (t : Ty) (im : Bool) (x y : Nat) : List Term :=
  let a (i : Bool) : Term := part t i x
  let b (i : Bool) : Term := part t i y
  if !t.isC then [(a false).mul (b false)]
  else if im then [(a false).mul (b true), (a true).mul (b false)]
  else [(a false).mul (b false), ((a true).mul (b true)).neg]

/-- A conjugate, and a negative: signs of parts inverted. -/
def conj (t : Ty) (x : Nat) : Nat := if t.isC then x ^^^ 2 ^ (2 * t.fmt.bits - 1) else x
def minus (t : Ty) (x : Nat) : Nat := conj t (x ^^^ 2 ^ (t.fmt.bits - 1))

/-- An element whose parts are the sums of some terms, rounded once each. -/
def Rounded (t : Ty) (ts : Bool → List Term) (r : Nat) : Prop := Parts t (fun im => Sums t.fmt .rn (ts im)) r

/-- An element converted between types of one domain, part by part (R77). -/
def Converted (dst src : Ty) (x r : Nat) : Prop :=
  Parts dst (fun im => FloatToFloat dst.fmt src.fmt .rn false (partBits src im x)) r

def ConvertedAll (dst src : Ty) : List Nat → List Nat → Prop := List.Forall₂ (Converted dst src)

/-! ### Tiles (R227, R238) -/

/-- Element (i, j) of a matrix with `m` rows, and the conjugate transpose of one with `n` columns. -/
def entry (a : List Nat) (m i j : Nat) : Nat := a.getD (j * m + i) 0
def adjoint (t : Ty) (m n : Nat) (a : List Nat) : List Nat :=
  (List.range m).flatMap fun i => (List.range n).map fun j => conj t (entry a m i j)

/-- The storage of a tile has the size of its kind, and each element that of its type. -/
def sized (t : Ty) (m : Nat) (v : TileVal) : Prop :=
  let ok (n : Nat) (l : List Nat) : Prop := l.length = n ∧ ∀ x ∈ l, x < 2 ^ t.width
  match v with
  | .zero => True
  | .dense e => ok (m * m) e
  | .low r u w => 0 < r ∧ r ≤ m ∧ ok (m * r) u ∧ ok (m * r) w

/-- The exact element (i, j) of a tile; a zero tile contributes no term. -/
def elem (t : Ty) (m : Nat) (v : TileVal) (im : Bool) (i j : Nat) : List Term :=
  match v with
  | .zero => []
  | .dense e => [part t im (entry e m i j)]
  | .low r u w => (List.range r).flatMap fun k => prod t im (entry u m i k) (conj t (entry w m j k))

/-- A matrix of `m` rows and `n` columns whose elements are as `P` asks. -/
def Matrix (m n : Nat) (P : (i j r : Nat) → Prop) (l : List Nat) : Prop :=
  l.length = m * n ∧ ∀ i j, i < m → j < n → P i j (entry l m i j)

/-- A tile as a dense matrix of type `w`: a dense one converted, another rounded once from its exact elements. -/
def Expanded (w t : Ty) (m : Nat) (v : TileVal) (l : List Nat) : Prop :=
  match v with
  | .dense e => ConvertedAll w t e l
  | _ => Matrix m m (fun i j => Rounded w fun im => elem t m v im i j) l

/-- `r` sums terms in steps of `k`, each with one rounding, an absent accumulator contributing no term. -/
def Steps (f : Fmt) (k : Nat) : (n : Nat) → List Term → Option Nat → Nat → Prop
  | 0, _, acc, r => r = acc.getD 0
  | n + 1, ts, acc, r =>
    if ts = [] then r = acc.getD 0
    else ∃ g, Sums f .rn ((acc.map (term f)).toList ++ ts.take k) g ∧ Steps f k n (ts.drop k) (some g) r

/-- `r` is an element of a product under a value of `nvr`: row steps of `k` products (R82), or chains of single ones (R83). -/
def Product (t : Ty) (k nvr : Nat) (ps : List (Nat × Nat)) (acc : Option Nat) (r : Nat) : Prop :=
  let f := t.fmt
  if nvr = 1 ∧ t.isC = true then
    let chain (a b : Bool) (start : Option Nat) : Nat → Prop :=
      Steps f 1 ps.length (ps.map fun p => (part t a p.1).mul (part t b p.2)) start
    ∃ rr ii ri ir, chain false false (acc.map (partBits t false)) rr ∧ chain true true (some 0) ii ∧
      chain false true (acc.map (partBits t true)) ri ∧ chain true false (some 0) ir ∧
      Parts t (fun im => Sums f .rn (if im then [term f ri, term f ir] else [term f rr, (term f ii).neg])) r
  else
    let n := if nvr = 1 then 1 else if t.isC then 2 * k else k
    Parts t (fun im => Steps f n (2 * ps.length) (ps.flatMap fun p => prod t im p.1 p.2) (acc.map (partBits t im))) r

/-- Factor work: an `m` × `p` matrix times a `p` × `n` one, from +0. -/
def FactorProduct (w : Ty) (nvr m p n : Nat) (a b l : List Nat) : Prop :=
  Matrix m n (fun i j => Product w (48 / w.bytes) nvr ((List.range p).map fun q => (entry a m i q, entry b p q j)) (some 0)) l

/-! ### Factorisations and solves (R250 to R252) -/

/-- `r` is an exact numerator over an element, rounded once per part. -/
def Quotient (w : Ty) (num : Bool → List Term) (d r : Nat) : Prop :=
  if w.isC then
    ComplexDivides w.fmt .rn (total .rn (num false), total .rn (num true)) (partBits w false d, partBits w true d)
      (r % 2 ^ w.fmt.bits) (r / 2 ^ w.fmt.bits)
  else Divides w.fmt .rn (total .rn (num false)) (term w.fmt d) r

/-- The terms of an element less some products. -/
def less (w : Ty) (im : Bool) (x : Nat) (ps : List (Nat × Nat)) : List Term :=
  part w im x :: ps.flatMap fun p => (prod w im p.1 p.2).map Term.neg

/-- `a` holds the factors of `x` without pivoting: u on and above the diagonal, l below it. -/
def Factors (w : Ty) (m : Nat) (x a : List Nat) : Prop :=
  Matrix m m (fun i j r =>
    let num (im : Bool) : List Term :=
      less w im (entry x m i j) ((List.range (min i j)).map fun q => (entry a m i q, entry a m q j))
    if i ≤ j then Rounded w num r else Quotient w num (entry a m j j) r) a

/-- `x` solves `b`, of `n` columns, with a triangle whose diagonal counts as 1 where `unit`. -/
def Solves (w : Ty) (m n : Nat) (tri : List Nat) (upper unit : Bool) (b x : List Nat) : Prop :=
  Matrix m n (fun i j r =>
    let qs := (List.range m).filter fun q => if upper then decide (i < q) else decide (q < i)
    Quotient w (fun im => less w im (entry b m i j) (qs.map fun q => (entry tri m i q, entry x m q j)))
      (if unit then w.one else entry tri m i i) r) x

/-- `x` solves `b` with a triangle from the left, or from the right: then its conjugate transpose does from the left. -/
def SolvesSide (w : Ty) (m : Nat) (tri : List Nat) (right upper unit : Bool) (b x : List Nat) : Prop :=
  if right then ∃ y, Solves w m m (adjoint w m m tri) (!upper) unit (adjoint w m m b) y ∧ x = adjoint w m m y
  else Solves w m m tri upper unit b x

/-! ### Operations (R237, R238, R247 to R254) -/

/-- A dense tile whose elements are those of `P`, narrowed to type `t`. -/
def DenseFrom (t w : Ty) (P : List Nat → Prop) (v : TileVal) : Prop := ∃ l e, P l ∧ ConvertedAll t w l e ∧ v = .dense e

/-- What Flowstone is handed for a low-rank tile, widened exactly; a tile of another kind passes as it is. -/
def Passed (w t : Ty) (v : TileVal) (r : Formed) : Prop :=
  match v with
  | .low _ u x => ∃ u' x', ConvertedAll w t u u' ∧ ConvertedAll w t x x' ∧ r = .factors u' x'
  | v => r = .tile v

/-- A + s·B. -/
def AddsTiles (t w : Ty) (m : Nat) (neg : Bool) (a b : TileVal) (r : Formed) : Prop :=
  let scaled (u : List Nat) : List Nat := if neg then u.map (minus w) else u
  let wide := ConvertedAll w t
  match a, b with
  | .zero, .zero => r = .tile .zero
  | .low _ u v, .zero => ∃ u' v', wide u u' ∧ wide v v' ∧ r = .factors u' v'
  | .zero, .low _ u v => ∃ u' v', wide u u' ∧ wide v v' ∧ r = .factors (scaled u') v'
  | .low _ u v, .low _ x y => ∃ u' v' x' y', wide u u' ∧ wide v v' ∧ wide x x' ∧ wide y y' ∧
      r = .factors (u' ++ scaled x') (v' ++ y')
  | _, _ => ∃ e, r = .tile (.dense e) ∧ Matrix m m (fun i j => Rounded t fun im =>
      elem t m a im i j ++ (elem t m b im i j).map fun x => if neg then x.neg else x) e

/-- The factors of the product of two tiles of which none is zero and one is low-rank, in the wide type. -/
def LowProduct (t w : Ty) (m nvr : Nat) (a b : TileVal) (u v : List Nat) : Prop :=
  let wide := ConvertedAll w t
  match a, b with
  | .dense e, .low n x y => ∃ e' x', wide e e' ∧ wide x x' ∧ wide y v ∧ FactorProduct w nvr m m n e' x' u
  | .low n x y, .dense e => ∃ e' y', wide e e' ∧ wide y y' ∧ wide x u ∧ FactorProduct w nvr m m n (adjoint w m m e') y' v
  | .low n x y, .low k p q => ∃ x' y' p' q' c, wide x x' ∧ wide y y' ∧ wide p p' ∧ wide q q' ∧
      FactorProduct w nvr n m k (adjoint w m n y') p' c ∧
      if n ≤ k then u = x' ∧ FactorProduct w nvr m k n q' (adjoint w n k c) v
      else v = q' ∧ FactorProduct w nvr m n k x' c u
  | _, _ => False

/-- C + s·A·B, of operands already conjugated and transposed; `k` is the work type of dense products. -/
def MultipliesTiles (t k w : Ty) (m nvr : Nat) (neg : Bool) (a b c : TileVal) (r : Formed) : Prop :=
  let wide := ConvertedAll w t
  let dense (P : (i j x : Nat) → Prop) : Prop := ∃ e, r = .tile (.dense e) ∧ Matrix m m P e
  match a, b with
  | .zero, _ | _, .zero => match c with
    | .dense _ => dense fun i j => Rounded t fun im => elem t m c im i j
    | c => Passed w t c r
  | .dense x, .dense y => ∃ x' y' acc l e, ConvertedAll k t x x' ∧ ConvertedAll k t y y' ∧
      (c ≠ .zero → Expanded k t m c acc) ∧ ConvertedAll t k l e ∧ r = .tile (.dense e) ∧
      Matrix m m (fun i j => Product k (48 / t.bytes) nvr
        ((List.range m).map fun q => ((if neg then minus k (entry x' m i q) else entry x' m i q), entry y' m q j))
        (if c = .zero then none else some (entry acc m i j))) l
  | a, b => ∃ u v, LowProduct t w m nvr a b u v ∧
      let u := if neg then u.map (minus w) else u
      match c with
      | .zero => r = .factors u v
      | .low _ p q => ∃ p' q', wide p p' ∧ wide q q' ∧ r = .factors (p' ++ u) (q' ++ v)
      | .dense _ => dense fun i j => Rounded t fun im => elem t m c im i j ++ elem w m (.low (u.length / m) u v) im i j

/-- The conjugate transpose of a tile, exact. -/
def transposed (t : Ty) (m : Nat) (v : TileVal) : TileVal :=
  match v with
  | .zero => .zero
  | .dense e => .dense (adjoint t m m e)
  | .low r u w => .low r w u

/-- T⁻¹ applied to B, from a side. -/
def SolvesTile (t k w : Ty) (m : Nat) (right upper unit : Bool) (tri b : TileVal) (r : Formed) : Prop :=
  match b with
  | .zero => r = .tile .zero
  | .dense e => ∃ a x v, Expanded k t m tri a ∧ ConvertedAll k t e x ∧ r = .tile v ∧
      DenseFrom t k (SolvesSide k m a right upper unit x) v
  | .low n u v => ∃ a u' v' y, Expanded w t m tri a ∧ ConvertedAll w t u u' ∧ ConvertedAll w t v v' ∧
      if right then Solves w m n (adjoint w m m a) (!upper) unit v' y ∧ r = .factors u' y
      else Solves w m n a upper unit u' y ∧ r = .factors y v'

/-- The root of the exact sum of the squares of a tile's elements. -/
def NormOf (t : Ty) (m : Nat) (v : TileVal) (r : Nat) : Prop :=
  let square (ts : List Term) : List Term := if ts = [] then [] else [(total .rn ts).mul (total .rn ts)]
  Roots .f64 .rn (total .rn ((List.range m).flatMap fun j => (List.range m).flatMap fun i =>
    (if t.isC then [false, true] else [false]).flatMap fun im => square (elem t m v im i j))) r

end Sys2Proof.Exact
end

