-- ==== Sys2Proof/Safety.lean ====
section
/-!
DEFINITION. What counts as a safe run, the invariants, and the terms that claims use.
-/
namespace Sys2Proof

/-- R89: a function at width n applied to the low n bits of two registers, and its result extended as the size states. -/
def Size.result (z : Size) (f : (n : Nat) → BitVec n → BitVec n → BitVec n) (a b : BitVec 64) : BitVec 64 :=
  match z with
  | .w64 => f 64 a b
  | .i32 => (f 32 (a.setWidth 32) (b.setWidth 32)).signExtend 64
  | .n32 => (f 32 (a.setWidth 32) (b.setWidth 32)).setWidth 64

end Sys2Proof
namespace Sys2Proof.Machine

/-! ### Invariants -/

/-- The step ends in a next state: the machine neither faults nor refuses. -/
def State.steps (s : State) : Prop := ∃ t, step s = .next t

/-- Memory is in its canonical form: addresses strictly rising, and no byte listed that equals an unlisted one. -/
def State.canonical (s : State) : Prop := Memory.wf s.mem

/-- The party in focus belongs to a launch that the part holds. -/
def State.housed (s : State) : Prop := s.party.live = true → (s.launch? s.party.launch).isSome = true

/-! ### The party in focus -/

/-- The accessor of the scalar accesses of the party in focus. -/
def State.accessor (s : State) : Accessor := accessorOf (s.home s.party) s.party

/-- No lane instruction of the party in focus is queued or outstanding, and nothing the lane stream wrote is uncertain. -/
def State.calm (s : State) : Prop :=
  s.party.drained = true ∧ s.party.looseMasks = [] ∧ s.party.recent = []

/-- The party in focus may begin a wait or an engine command whose destination is `d`: it is not in handler mode (R155) and
no queued lane instruction reads the register (R34). -/
def State.mayWait (s : State) (d : Reg) : Prop := s.party.hmode = false ∧ s.holdsReg s.party d = false

/-- A lane instruction is at the head of the queue of the party in focus and nothing keeps it from issuing: the queue's
head block is `b`, the lane stream is not frozen, the word passes R66, its wait mask is raised and its set-flag has room. -/
def State.laneIssues (s : State) (b : Block) (op : LaneOp) (f : LaneF) : Prop :=
  (∃ rest, s.party.queue = b :: rest) ∧ s.party.laneFrozen = false ∧ op.check f = none ∧
    op.inWindow f (s.home s.party).header.window = true ∧ s.party.flagsAdmit f = true

/-- Register `n` of a lane of the party in focus, in the window of R30. -/
def State.laneRegister (s : State) (lane n : Nat) : BitVec 32 :=
  s.party.laneReg (regKey (s.party.first + lane) (s.party.b + n))

/-! ### Ends of waits -/

/-- The effective deadline of a wait of the party in focus that names `dl` (R37). -/
def State.deadline (s : State) (dl : BitVec 2) : Deadline :=
  deadlineOf s (s.home s.party) s.party (s.party.deadlineReg dl) dl

/-- The state once a wait that issued in `s`, whose effect left `t`, has ended with a status that is no expiry: `st` holds
the status and `d` its code, the expiry count is 0 unless the wait was a poll, and control is at the next word (R38, R39). -/
def State.endedWith (s t : State) (d : Reg) (dl : BitVec 2) (st : Word) : State :=
  t.finish (({ t.party with
    xcount := if (s.deadline dl).poll then t.party.xcount else 0, wait := none }.setSt st).setReg d (st &&& 0xFF))

/-- No other party waits for anything: the request of the party in focus is the oldest on every queue (R216, R241). -/
def State.alone (s : State) : Prop := ∀ q ∈ s.others, q.wait = none

/-! ### Events of an engine (R301, R318) -/

/-- What an agent reads at some places one after the other, each byte with its poison, and its time afterwards. -/
def State.readRow (s : State) (ac : Accessor) : Agent → List (Word × Nat) → Except (Deny × Word) (List (Byte × Bool) × Nat)
  | a, [] => .ok ([], a.time)
  | a, (at_, n) :: rest => do
    let sp ← s.engineRead ac a at_ n n
    let r ← s.readRow ac { a with time := sp.time } rest
    pure (sp.bytes.zip (if sp.bad.isEmpty then List.replicate n false else sp.bad) ++ r.1, r.2)

/-- Bytes with their poison, written by an agent at some places one after the other; `lost` where poison was among them or an
absent part was to receive some. -/
def writeRow (ac : Accessor) : State → Agent → List (Word × Nat) → List (Byte × Bool) → Except (Deny × Word) Written
  | s, a, [], _ => .ok { s := s, time := a.time, lost := false }
  | s, a, (at_, n) :: rest, bs => do
    let now := bs.take n
    let w ← s.engineWrite ac a at_ { bytes := now.map Prod.fst, bad := now.map Prod.snd, time := a.time }
    let r ← writeRow ac w.s { a with time := w.time } rest (bs.drop n)
    pure { r with lost := w.lost || r.lost || now.any fun x => x.2 }

/-- Values of `size` bytes written by an agent at some places one after the other. -/
def writeCells (ac : Accessor) (size : Nat) : State → Agent → List (Nat × Nat) → Except (Deny × Word) Written
  | s, a, [] => .ok { s := s, time := a.time, lost := false }
  | s, a, (at_, v) :: rest => do
    let w ← s.engineWrite ac a (BitVec.ofNat 64 at_) (Span.clean (toBytes size v) a.time)
    let r ← writeCells ac size w.s { a with time := w.time } rest
    pure { r with lost := w.lost || r.lost }

/-- The 64 bytes of the header of a tile (R229). -/
def headerBytes (kind fmt shape rank cls pool gen batch : Nat) (block : Word) : List Byte :=
  toBytes 8 (kind + fmt * 2 ^ 2 + shape * 2 ^ 5 + rank * 2 ^ 8 + cls * 2 ^ 16 + pool * 2 ^ 19 + gen % 2 ^ 16 * 2 ^ 32 +
    batch % 2 ^ 16 * 2 ^ 48) ++ (toBytes 8 block.toNat ++ List.replicate 48 0)

end Sys2Proof.Machine
end

