-- ==== Sys2Proof/Certificates/Slice0/Obligations.lean ====
section
/-!
DEFINITION. The statements for the provers: each names the rules of the spec it formalises.
-/
open Sys2Proof Sys2Proof.Machine

/-! ### Encodings -/

/-- Words that the spec writes out, family by family, decode to the instruction beside which they stand. -/
def Obligations.DecodeWords : Prop :=
  decodeScalar 0x0220A345 = .ok (.div false 4 5 6 .i32) ∧
  decodeScalar 0x04380028 = .ok (.addi false 7 0 40) ∧
  decodeScalar 0x0C49201E = .ok (.shli false 9 9 30) ∧
  decodeScalar 0x265FFFEC = .ok (.call false 2 63 0x7FEC) ∧
  decodeScalar 0x2A07E002 = .ok (.ret false 63 2) ∧
  decodeScalar 0x2221800C = .ok (.mbrk false 3 12) ∧
  decodeScalar 0x2C000000 = .ok (.exit false) ∧
  decodeScalar 0x30200000 = .ok (.lrun false 4 0) ∧
  decodeScalar 0x3428F103 = .ok (.waddr false 5 7 2 8) ∧
  decodeScalar 0x3428C800 = .ok (.bwait false 5 6 1) ∧
  decodeScalar 0x34281008 = .ok (.fuse false 5 2) ∧
  decodeScalar 0x36508800 = .ok (.waitf false 10 4 1) ∧
  decodeScalar 0x38200003 = .ok (.split false 4) ∧
  decodeScalar 0x3A484007 = .ok (.many false 9 2) ∧
  decodeScalar 0x3C402002 = .ok (.dlnow false 8 true) ∧
  decodeScalar 0x4A202160 = .ok (.sldN32 false 4 1 0x160) ∧
  decodeScalar 0xD6502160 = .ok (.sstN64 true 10 1 0x160) ∧
  decodeScalar 0x5828E906 = .ok (.launch false 5 7 1 8) ∧
  decodeScalar 0x60180001 = .ok (.csrr false 3 1) ∧
  decodeScalar 0x6600E289 = .ok (.xwr false 7 5 9) ∧
  decodeScalar 0x7800A000 = .ok (.trap false 5) ∧
  decodeScalar 0x78000001 = .ok (.rett false) ∧
  decodeLane 0x402C0A080401000080000800 = .ok (.laneLd
    { ty := .f32, dst := 0x02, a := 0x82, b := 0x01, c := 0, imm := 0x4000, pred := 1, neg := false, dl := 0, hint := 0
      set := 0, wait := 8, gap := 0 }) ∧
  decodeLane 0x40981A241015200000200000 = .ok (.atom
    { ty := .n32, dst := 0x06, a := 0x89, b := 0x04, c := 0x05, imm := 0x4800, pred := 0, neg := false, dl := 0, hint := 0
      set := 2, wait := 0, gap := 0 }) ∧
  decodeLane 0x12AC080F0000000800000000 = .ok (.laneCmp
    { ty := .f32, dst := 0x02, a := 0x03, b := 0xC0, c := 0, imm := 2, pred := 0, neg := false, dl := 0, hint := 0
      set := 0, wait := 0, gap := 0 }) ∧
  decodeLane 0x303040001040000000F00000 = .ok (.mma
    { ty := .f64, dst := 0x10, a := 0x00, b := 0x04, c := 0x10, imm := 0, pred := 0, neg := false, dl := 0, hint := 0
      set := 15, wait := 0, gap := 0 })

/-- Every scalar instruction that passes the checks of R57 is four bytes that decode to it, every operand at every value. -/
def Obligations.EncodeDecodeScalar : Prop :=
  ∀ (i : Instr) (w : BitVec 32), encodeScalar i = some w → i.wellFormed = true →
    encode i = bytesOf 4 w.toNat ∧ decodeScalarBytes (encode i) = .ok i

/-- Every lane instruction that passes the checks of R66 is twelve bytes that decode to it, every field at every value. -/
def Obligations.EncodeDecodeLane : Prop :=
  ∀ (i : Instr) (op : LaneOp) (f : LaneF), i.lane? = some (op, f) → i.wellFormed = true →
    (encode i).length = 12 ∧ decodeLaneBytes (encode i) = .ok i

/-- A scalar word, or the 96 bits of a lane instruction, that decodes is the encoding of what it decodes to, and that is well
formed: no bit of an instruction is ignored. -/
def Obligations.WordsAreEncodings : Prop :=
  (∀ (w : BitVec 32) (i : Instr), decodeScalar w = .ok i → encodeScalar i = some w ∧ i.wellFormed = true) ∧
  ∀ (w : BitVec 96) (i : Instr), decodeLane w = .ok i → encodeLane i = some w ∧ i.wellFormed = true

/-! ### The step -/

/-- When the next move is the scalar stream of the party in focus, which runs, is resident, waits for nothing, has no cause or
offer pending and no copy of a SPLIT or FUSE to make again (R104, R108), and need not leave for a suspension (R358), and
the word at its counter decodes to `i`, the step is `exec i`, with what ends every step after it: the replay turn used, and
`settle`. A parked word is held until the lane stream is drained; what that stream wrote is then certain (R34; log 19). -/
def Obligations.StepRunsScalarWord : Prop :=
  ∀ (s t : State) (m : Move) (w : BitVec 32) (i : Instr),
    (s.party.live = true → (s.launch? s.party.launch).isSome = true) →
    s.nextMove = (m, t) → m.act = .scalar t.party.pid →
    t.party.ready = true → t.held = false → t.party.wait = none → t.party.offer = none → t.party.raised = none →
    t.party.due = false → t.turnAllows t.party.pid = true →
    t.mustLeave t.party = false → (t.party.hmode = true ∨ t.party.copying = none) →
    t.fetchWord (t.home t.party) t.party.pc = .ok w →
    decodeFor (t.home t.party).header.laneLen w = .ok i →
    step s =
      if parked w && !t.party.hmode && !t.party.drained then .next (conclude m.act m t t)
      else match exec i (if parked w && !t.party.hmode then
          { t with party := { t.party with looseMasks := [], recent := [] } } else t) with
        | .next u => .next (conclude m.act m t u)
        | .fault e => .fault e
        | .refused r => .refused r

/-- When the next move is the lane stream of the party in focus and the lane instruction at the head of its queue decodes to
`i`, the step is `exec i`, with `settle` after it. A head that has begun, by some of its events or by an issue before, is
the instruction that was fetched then (R67). -/
def Obligations.StepRunsLaneHead : Prop :=
  ∀ (s t : State) (m : Move) (b : Block) (rest : List Block) (i : Instr),
    (s.party.live = true → (s.launch? s.party.launch).isSome = true) →
    s.nextMove = (m, t) → m.act = .lane t.party.pid →
    t.party.ready = true → t.held = false → t.party.laneFrozen = false → t.party.queue = b :: rest →
    (t.party.redo = none → t.party.part = none →
      ∃ w, t.fetchLane (t.home t.party) (b.first + t.party.laneCtr) = .ok w ∧ decodeLane w = .ok i) →
    (t.party.redo ≠ none ∨ t.party.part ≠ none → ∃ h, t.party.headOp = some h ∧ h.op.instr h.f = i) →
    step s =
      match exec i t with
        | .next u => .next (u.settle m.ticks m.clocks)
        | .fault e => .fault e
        | .refused r => .refused r

/-- When the next move is an event of the part, the step is that event, with what ends every step after it; a replay party's
own event waits for the party's turn. -/
def Obligations.StepRunsEvent : Prop :=
  ∀ (s t : State) (m : Move) (i : Instr),
    (s.party.live = true → (s.launch? s.party.launch).isSome = true) →
    s.nextMove = (m, t) → m.act = .event i →
    step s =
      if t.eventWaits i then .next (conclude m.act m t t)
      else match exec i t with
        | .next u => .next (conclude m.act m t u)
        | .fault e => .fault e
        | .refused r => .refused r

/-- R57: a word that is no instruction traps ILLEGAL against its own address before it changes anything. -/
def Obligations.IllegalWordTraps : Prop :=
  ∀ (s t : State) (m : Move) (w : BitVec 32) (r : Reject),
    (s.party.live = true → (s.launch? s.party.launch).isSome = true) →
    s.nextMove = (m, t) → m.act = .scalar t.party.pid →
    t.party.ready = true → t.held = false → t.party.wait = none → t.party.offer = none → t.party.raised = none →
    t.party.due = false → t.turnAllows t.party.pid = true →
    t.mustLeave t.party = false → (t.party.hmode = true ∨ t.party.copying = none) →
    t.fetchWord (t.home t.party) t.party.pc = .ok w → decodeFor (t.home t.party).header.laneLen w = .error r →
    step s = .next (conclude m.act m t (t.takeTrap (Trap.scalar .illegal t.party.pc (t.party.pc + 4))))

/-! ### Invariants and reset -/

/-- Every step from a state whose memory is in canonical form leaves memory in canonical form. -/
def Obligations.MemoryCanonicalKept : Prop :=
  ∀ s t : State, s.canonical → step s = .next t → t.canonical

/-- R374, R365: the part right after power-on. No context, queue, launch, group, party or key is there; no part is ready; no
function reads a register set, but for the PF's power cap of 3,400. That memory reads zero, with no key and no poison,
already before BRING_UP, from which on R331 has it so, is the model's choice (log 9), as are the registers' values that
R365 does not give (log 15). -/
def Obligations.PowerOn : Prop :=
  let s := State.reset
  s.canonical ∧ (∀ a, byteAt s.mem a = 0) ∧ s.tags = [] ∧ s.poison = [] ∧ s.keys = [] ∧ s.launches = [] ∧ s.groups = [] ∧
    s.contexts = [] ∧ s.others = [] ∧ s.party.life = .absent ∧ s.commands = [] ∧ s.tasks = [] ∧ s.collectives = [] ∧
    s.retiring = [] ∧ s.tickets = [] ∧ s.copies = [] ∧ s.validContexts = [] ∧ s.held = false ∧ s.throttled = false ∧
    (∀ fn, s.answers fn = false) ∧ s.register 0 0 = 0 ∧ s.register 0 0x118 = 3400 ∧
    (∀ fn off, off ≠ 0x118 → s.register fn off = 0)

/-- Reading back what was written: a byte within a write reads as written, every other byte as before. -/
def Obligations.ReadAfterWrite : Prop :=
  ∀ (m : List Host.Cell) (a b : Nat) (bs : List Byte),
    byteAt (writeBytes m a bs) b =
      if a ≤ b ∧ b < a + bs.length then (bs[b - a]?).getD 0 else byteAt m b

/-! ### The integer family (R89) and the immediates (R90, R91) -/

/-- R89: what each instruction of the integer family leaves in sd, at every size; nothing else of the state changes but sd, the
counter and the retired count, and no instruction traps or writes `st`. R90, R91: the same of each immediate instruction.
-/
def Obligations.IntegerResults : Prop :=
  (∀ (s : State) (k : Bool) (d a b : Reg) (z : Size), s.holdsReg s.party d = false →
    let x := s.party.reg a
    let y := s.party.reg b
    let gives (i : Instr) (f : (n : Nat) → BitVec n → BitVec n → BitVec n) : Prop :=
      exec i s = .next (s.finish (s.party.setReg d (z.result f x y)))
    gives (.add k d a b z) (fun _ x y => x + y) ∧
    gives (.sub k d a b z) (fun _ x y => x - y) ∧
    gives (.mul k d a b z) (fun _ x y => x * y) ∧
    gives (.mulhi k d a b z) (fun n x y => (x.signExtend (2 * n) * y.signExtend (2 * n)).extractLsb' n n) ∧
    gives (.mulhin k d a b z) (fun n x y => (x.setWidth (2 * n) * y.setWidth (2 * n)).extractLsb' n n) ∧
    gives (.div k d a b z) (fun n x y => if y = 0 then BitVec.allOnes n else x.sdiv y) ∧
    gives (.divn k d a b z) (fun n x y => if y = 0 then BitVec.allOnes n else x / y) ∧
    gives (.rem k d a b z) (fun _ x y => if y = 0 then x else x.srem y) ∧
    gives (.remn k d a b z) (fun _ x y => if y = 0 then x else x % y) ∧
    gives (.min k d a b z) (fun _ x y => if x.toInt ≤ y.toInt then x else y) ∧
    gives (.max k d a b z) (fun _ x y => if x.toInt ≤ y.toInt then y else x) ∧
    gives (.minn k d a b z) (fun _ x y => if x.toNat ≤ y.toNat then x else y) ∧
    gives (.maxn k d a b z) (fun _ x y => if x.toNat ≤ y.toNat then y else x) ∧
    gives (.and k d a b z) (fun _ x y => x &&& y) ∧
    gives (.or k d a b z) (fun _ x y => x ||| y) ∧
    gives (.xor k d a b z) (fun _ x y => x ^^^ y) ∧
    gives (.andn k d a b z) (fun _ x y => x &&& ~~~y) ∧
    gives (.shl k d a b z) (fun n x y => x <<< (y.toNat % n)) ∧
    gives (.shr k d a b z) (fun n x y => x >>> (y.toNat % n)) ∧
    gives (.sra k d a b z) (fun n x y => x.sshiftRight (y.toNat % n)) ∧
    gives (.slt k d a b z) (fun n x y => if x.toInt < y.toInt then BitVec.ofNat n 1 else 0) ∧
    gives (.sltn k d a b z) (fun n x y => if x.toNat < y.toNat then BitVec.ofNat n 1 else 0) ∧
    gives (.seq k d a b z) (fun n x y => if x = y then BitVec.ofNat n 1 else 0) ∧
    gives (.popc k d a z) (fun n x _ => BitVec.ofNat n ((List.range n).countP fun i => x.getLsbD i)) ∧
    gives (.clz k d a z) (fun n x _ => BitVec.ofNat n
      (((List.range n).find? fun i => x.getLsbD (n - 1 - i)).getD n)) ∧
    gives (.ctz k d a z) (fun n x _ => BitVec.ofNat n (((List.range n).find? fun i => x.getLsbD i).getD n))) ∧
  ∀ (s : State) (k : Bool) (d a : Reg) (i : BitVec 13) (c : BitVec 6) (l : BitVec 19), s.holdsReg s.party d = false →
    let x := s.party.reg a
    let v : Word := i.signExtend 64
    let gives (j : Instr) (r : Word) : Prop := exec j s = .next (s.finish (s.party.setReg d r))
    gives (.addi k d a i) (x + v) ∧
    gives (.andi k d a i) (x &&& v) ∧
    gives (.ori k d a i) (x ||| v) ∧
    gives (.xori k d a i) (x ^^^ v) ∧
    gives (.shli k d a c) (x <<< c) ∧
    gives (.shri k d a c) (x >>> c) ∧
    gives (.srai k d a c) (x.sshiftRight' c) ∧
    gives (.slti k d a i) (if x.toInt < v.toInt then 1 else 0) ∧
    gives (.sltni k d a i) (if x.toNat < v.toNat then 1 else 0) ∧
    gives (.muli k d a i) (x * v) ∧
    gives (.lui k d l) (l.signExtend 51 ++ (0 : BitVec 13)) ∧
    gives (.lpc k d l) (s.party.pc + 4 * l.signExtend 64) ∧
    gives (.lcat k d l) ((s.party.reg d).extractLsb' 0 45 ++ l)

/-- R33, R88, R117: what the completion of a scalar instruction changes besides its own effect. s0 reads zero and a write to it
is discarded; any other register written reads back, the others keep their values. The counter moves, the retired count
rises outside handler mode, and every other part of the state stands. -/
def Obligations.CompletionFrame : Prop :=
  (∀ (p : Party) (v : Word), p.reg 0 = 0 ∧ p.setReg 0 v = p) ∧
  (∀ (p : Party) (d r : Reg) (v : Word), d ≠ 0 → (p.setReg d v).reg r = if r = d then v else p.reg r) ∧
  (∀ (p : Party) (d : Reg) (v : Word), p.setReg d v = { p with s := (p.setReg d v).s }) ∧
  (∀ (s : State) (p : Party), s.finish p = s.finishAt p (p.pc + 4)) ∧
  (∀ (s : State) (p : Party) (next : Word), s.finishAt p next = { s with party := { p with
      pc := next, lastPc := p.pc, retired := p.retired + (if p.hmode then 0 else 1), yielded := false } })

/-- R34: a scalar register, mask register, deadline register or `rnd` that a queued lane instruction reads, and `nvr` while
anything is queued, is not written until that instruction has issued: every instruction that writes it holds, and nothing
changes. What a queued instruction reads: the scalar registers of its operands, p0 and its predicate, the mask that SEL or
a combining CMP names, the deadline register of LD, ATOM and ACAS, and `rnd` where its rounding is .dyn. -/
def Obligations.WritesHold : Prop :=
  ∀ (s : State) (k : Bool),
    let holds (i : Instr) : Prop := exec i s = .next s
    (∀ (d a b : Reg) (z : Size) (i : BitVec 13) (c m n : BitVec 6) (l : BitVec 19) (pa : BitVec 3) (base : Bool) (w : BitVec 4)
        (off : BitVec 15) (dl : BitVec 2) (fl : BitVec 12) (x : BitVec 7), s.holdsReg s.party d = true →
      (holds (.add k d a b z) ∧ holds (.sub k d a b z) ∧ holds (.mul k d a b z) ∧ holds (.mulhi k d a b z) ∧
        holds (.mulhin k d a b z) ∧ holds (.div k d a b z) ∧ holds (.divn k d a b z) ∧ holds (.rem k d a b z) ∧
        holds (.remn k d a b z) ∧ holds (.min k d a b z) ∧ holds (.max k d a b z) ∧ holds (.minn k d a b z) ∧
        holds (.maxn k d a b z) ∧ holds (.and k d a b z) ∧ holds (.or k d a b z) ∧ holds (.xor k d a b z) ∧
        holds (.andn k d a b z) ∧ holds (.shl k d a b z) ∧ holds (.shr k d a b z) ∧ holds (.sra k d a b z) ∧
        holds (.slt k d a b z) ∧ holds (.sltn k d a b z) ∧ holds (.seq k d a b z) ∧ holds (.popc k d a z) ∧
        holds (.clz k d a z) ∧ holds (.ctz k d a z)) ∧
      (holds (.addi k d a i) ∧ holds (.andi k d a i) ∧ holds (.ori k d a i) ∧ holds (.xori k d a i) ∧ holds (.shli k d a c) ∧
        holds (.shri k d a c) ∧ holds (.srai k d a c) ∧ holds (.slti k d a i) ∧ holds (.sltni k d a i) ∧ holds (.muli k d a i) ∧
        holds (.lui k d l) ∧ holds (.lpc k d l) ∧ holds (.lcat k d l)) ∧
      (holds (.many k d pa) ∧ holds (.mall k d pa) ∧ holds (.mcount k d pa) ∧ holds (.csrr k d i) ∧ holds (.dlnow k d base) ∧
        holds (.rdclk k d) ∧ holds (.rdret k d) ∧ holds (.width k d) ∧ holds (.xrd k d a x) ∧ holds (.tbat k d)) ∧
      (holds (.sldI8 k d a i) ∧ holds (.sldN8 k d a i) ∧ holds (.sldI16 k d a i) ∧ holds (.sldN16 k d a i) ∧
        holds (.sldI32 k d a i) ∧ holds (.sldN32 k d a i) ∧ holds (.sldN64 k d a i) ∧ holds (.tlinfo k d a)) ∧
      (holds (.call k w d off) ∧ holds (.callr k d a w) ∧ holds (.split k d) ∧ holds (.fuse k d dl) ∧ holds (.waitf k d fl dl) ∧
        holds (.bwait k d a dl) ∧ holds (.bsync k d a dl) ∧ holds (.semacq k d a dl b) ∧ holds (.waddr k d a dl b) ∧
        holds (.fence k d m dl) ∧ holds (.xfence k d m dl n) ∧ holds (.sysfence k d dl) ∧ holds (.sysfenceArray k d dl) ∧
        holds (.twait k d a dl)) ∧
      (holds (.cpyt k d a dl b) ∧ holds (.gath k d a dl b) ∧ holds (.scat k d a dl b) ∧ holds (.chain k d a dl b) ∧
        holds (.cpyw k d a dl b) ∧ holds (.coll k d a dl b) ∧ holds (.launch k d a dl b) ∧ holds (.tlnew k d a dl b) ∧
        holds (.tlfree k d a dl) ∧ holds (.tlload k d a dl) ∧ holds (.tlstore k d a dl) ∧ holds (.tlfac k d a dl b) ∧
        holds (.tladd k d a dl b) ∧ holds (.tlmul k d a dl b) ∧ holds (.tllu k d a dl) ∧ holds (.tlinv k d a dl) ∧
        holds (.tltrs k d a dl b) ∧ holds (.tlrnd k d a dl b) ∧ holds (.tlcvt k d a dl) ∧ holds (.tlnorm k d a dl))) ∧
    (∀ (d pa pb : BitVec 3) (a : Reg), s.holdsMask s.party d = true →
      holds (.mset k d a) ∧ holds (.mand k d pa pb) ∧ holds (.mandn k d pa pb) ∧ holds (.mor k d pa pb) ∧ holds (.mxor k d pa pb) ∧
        holds (.mpop k d)) ∧
    (∀ (pa : BitVec 3) (off : BitVec 15), s.holdsMask s.party 0 = true →
      holds (.mpush k pa off) ∧ holds (.mbrk k pa off) ∧ holds (.mjoin k)) ∧
    (∀ (n : BitVec 2) (a : Reg), s.holdsDl s.party n = true → holds (.dlset k n a) ∧ holds (.dladd k n a)) ∧
    (∀ a : Reg, (s.holdsRnd s.party = true → holds (.csrw k a 1)) ∧
      (s.party.hmode = false → s.party.queue ≠ [] → holds (.csrw k a 2))) ∧
    ∀ (b : Block) (op : LaneOp) (f : LaneF), s.party.hmode = false → s.party.queue ≠ [] →
      (b, Queued.instr op f) ∈ s.unissued s.party →
      (∀ r : Reg, r ≠ 0 → (∃ code, (code = f.dst ∨ code = f.a ∨ code = f.b ∨ code = f.c) ∧ code.toNat = 0x80 + r.toNat) →
        s.holdsReg s.party r = true) ∧
      s.holdsMask s.party 0 = true ∧ s.holdsMask s.party f.pred = true ∧
      (∀ n : BitVec 3, (op = .sel ∧ f.imm.toNat % 8 = n.toNat) ∨ (op = .cmp ∧ f.imm.toNat / 8 % 4 ≠ 0 ∧ f.dst.toNat = n.toNat) →
        s.holdsMask s.party n = true) ∧
      ((op = .ld ∨ op = .atom ∨ op = .acas) → s.holdsDl s.party f.dl = true) ∧
      (op.roundingCode f = some 4 → s.holdsRnd s.party = true)

/-! ### Branches, calls, EXIT, LRUN (R92 to R95) -/

/-- R50, R92: the branches and JMP test sa of the party as a whole; a taken one moves the counter to its target, which is the
instruction's address and four times its offset, and nothing else changes but the retired count. R31, R93: once drained and
outside handler mode, a call or return whose new window base is in range and whose slide succeeds (R31) writes its link,
read after its target register, and moves the counter; CALL and CALLR add 8k to the base, RET takes 8k from it. Where the
new base would leave the stack of 1,024 registers the cause is STACK. -/
def Obligations.BranchesAndCalls : Prop :=
  (∀ (s : State) (k : Bool) (a : Reg) (off : BitVec 15) (far : BitVec 25),
    let x := (s.party.reg a).toInt
    let goes (i : Instr) (taken : Prop) [Decidable taken] (dest : Word) : Prop :=
      exec i s = .next (s.finishAt s.party (if taken then dest else s.party.pc + 4))
    let target : Word := s.party.pc + 4 * off.signExtend 64
    goes (.beq k a off) (x = 0) target ∧ goes (.bne k a off) (x ≠ 0) target ∧ goes (.blt k a off) (x < 0) target ∧
    goes (.bge k a off) (0 ≤ x) target ∧ goes (.bgt k a off) (0 < x) target ∧ goes (.ble k a off) (x ≤ 0) target ∧
    goes (.bra k off) True target ∧ goes (.jmp k far) True (s.party.pc + 4 * far.signExtend 64)) ∧
  ∀ (s t : State) (q : Party) (k : Bool) (n : BitVec 4) (d a : Reg) (off : BitVec 15),
    s.party.hmode = false → s.party.drained = true →
    let room := 1024 - (s.home s.party).header.window
    let up := s.party.b + 8 * n.toNat
    let link : Word := s.party.pc + 4
    (up ≤ room → s.slide (s.home s.party) s.party.certain up = .ok (t, q) →
      q.b = up ∧
      exec (.call k n a off) s = .next (t.finishAt (q.setReg a link) (s.party.pc + 4 * off.signExtend 64)) ∧
      exec (.callr k d a n) s = .next (t.finishAt (q.setReg d link) (s.party.reg a &&& ~~~3))) ∧
    (8 * n.toNat ≤ s.party.b → s.party.b - 8 * n.toNat ≤ room →
      s.slide (s.home s.party) s.party.certain (s.party.b - 8 * n.toNat) = .ok (t, q) →
      q.b = s.party.b - 8 * n.toNat ∧
      exec (.ret k a n) s = .next (t.finishAt q (s.party.reg a &&& ~~~3))) ∧
    (1024 < up + (s.home s.party).header.window →
      exec (.call k n a off) s = raiseStack s ∧ exec (.callr k d a n) s = raiseStack s) ∧
    (s.party.b < 8 * n.toNat → exec (.ret k a n) s = raiseStack s)

/-- R95: LRUN appends the block with its snapshot of the scalar, mask and deadline registers, `rnd` and `nvr`, and changes
nothing else; it holds while four blocks are queued. -/
def Obligations.LrunQueues : Prop :=
  ∀ (s : State) (k : Bool) (len : BitVec 6) (idx : BitVec 19), s.party.hmode = false →
    idx.toNat + len.toNat + 1 ≤ (s.home s.party).header.laneLen →
    (s.party.queue.length < 4 → s.party.looseMasks = [] →
      exec (.lrun k len idx) s = .next (s.finish { s.party with
        queue := s.party.queue ++ [{ first := idx.toNat, len := len.toNat + 1, lrun := s.party.pc, s := s.party.s, p := s.party.p
                                     dl := s.party.dl, rnd := s.party.rnd, nvr := s.party.nvr, order := s.party.lruns + 1 }]
        lruns := s.party.lruns + 1 })) ∧
    (4 ≤ s.party.queue.length → exec (.lrun k len idx) s = .next s)

/-! ### Masks and tokens (R27, R97 to R103) -/

/-- R27, R97: what each mask instruction writes, lane by lane, limited to the party's lanes; a mask instruction changes no
other mask register and nothing else of the state, and MANY, MALL and MCOUNT write a scalar register. -/
def Obligations.MaskResults : Prop :=
  ∀ (s : State) (k : Bool) (pd pa pb : BitVec 3) (a d : Reg), s.party.looseMasks = [] →
    let x (n : BitVec 3) (l : Nat) : Bool := (s.party.mask n).getLsbD l
    let gives (i : Instr) (bit : Nat → Bool) : Prop :=
      ∃ t, exec i s = .next t ∧
        (∀ l, l < 1024 → (t.party.mask pd).getLsbD l = (decide (l < s.party.width) && bit l)) ∧
        (∀ n, n ≠ pd → t.party.mask n = s.party.mask n) ∧
        t = s.finish { s.party with p := t.party.p, recent := t.party.recent }
    let sets (i : Instr) (v : Word) : Prop := exec i s = .next (s.finish (s.party.setReg d v))
    (s.holdsMask s.party pd = false →
      gives (.mset k pd a) (fun l => decide (l < (s.party.reg a).toNat)) ∧
      gives (.mand k pd pa pb) (fun l => x pa l && x pb l) ∧
      gives (.mandn k pd pa pb) (fun l => x pa l && !x pb l) ∧
      gives (.mor k pd pa pb) (fun l => x pa l || x pb l) ∧
      gives (.mxor k pd pa pb) (fun l => x pa l != x pb l)) ∧
    (s.holdsReg s.party d = false →
      sets (.many k d pa) (if summary (s.party.mask pa) = 0 then 0 else 1) ∧
      sets (.mall k d pa) (if s.party.mask pa = s.party.allLanes then 1 else 0) ∧
      sets (.mcount k d pa) (BitVec.ofNat 64 ((List.range s.party.width).countP fun l => x pa l))) ∧
    (∀ l, l < 1024 → s.party.allLanes.getLsbD l = decide (l < s.party.width)) ∧
    ∀ (m : Mask) (i : Nat), i < 32 → (summary m).getLsbD i = (List.range 32).any fun j => m.getLsbD (32 * i + j)

/-- R99 to R103: the four token instructions on the token stack, innermost first. `f` is the party once the tokens that the
instruction looks at are in hardware, and `t`, `q` what spilling the stack beyond 32 tokens leaves. R31, R103: a stack of
at most 32 tokens, none of them in the spill block, fills and spills nothing, and a slide that stays within the hardware
depth moves the window base alone. -/
def Obligations.TokenInstructions : Prop :=
  (∀ (s : State) (k : Bool) (pa d : BitVec 3) (off : BitVec 15), s.party.looseMasks = [] →
    let l := s.home s.party
    let pc := s.party.pc
    let p0 := s.party.mask 0
    let x := p0 &&& s.party.mask pa
    let label : Word := pc + 4 * off.signExtend 64
    let ends (i : Instr) (p : Party) (next : Word) : Prop :=
      ∀ t q, s.spillTokens (s.home p) { p with spilled := min p.spilled p.tokens.length } 256 = .ok (t, q) →
        exec i s = .next (t.finishAt q next)
    (s.holdsMask s.party 0 = false → s.party.tokens.length < 256 →
      ends (.mpush k pa off)
        ({ s.party with tokens := { isBreak := false, addr := label, image := p0 } :: s.party.tokens }.writeMask (s.seed s.party) 0 x)
        (if x = 0 then label else pc + 4)) ∧
    (s.holdsMask s.party 0 = false → s.party.tokens.length = 256 → exec (.mpush k pa off) s = raiseStack s) ∧
    (∀ f, s.holdsMask s.party 0 = false → s.fillBreaks l s.party 0 256 = .ok f →
      let left := p0 &&& ~~~x
      let fresh : Token := { isBreak := true, addr := label, image := f.allLanes &&& ~~~x }
      let stack : List Token :=
        if x = 0 then f.tokens
        else match f.tokens with
          | t :: rest => if t.isBreak = true ∧ t.addr = label then { t with image := t.image &&& ~~~x } :: rest
              else fresh :: t :: rest
          | [] => [fresh]
      stack.length ≤ 256 →
        (left ≠ 0 → ends (.mbrk k pa off) ({ f with tokens := stack }.writeMask (s.seed s.party) 0 left) (f.pc + 4)) ∧
        (∀ j, left = 0 → (stack.find? fun t => !t.isBreak) = some j →
          ends (.mbrk k pa off) ({ f with tokens := stack }.writeMask (s.seed s.party) 0 left) j.addr) ∧
        (left = 0 → (stack.all fun t => t.isBreak) = true → exec (.mbrk k pa off) s = raiseStack s)) ∧
    (∀ f breaks j rest, s.holdsMask s.party 0 = false → s.fillBreaks l s.party 0 256 = .ok f →
      f.tokens = breaks ++ j :: rest → (breaks.all fun t => t.isBreak) = true → j.isBreak = false → j.addr = f.pc →
      let aside := breaks.filter fun t => t.addr != f.pc
      ∃ m : Mask, (∀ i, m.getLsbD i = (j.image.getLsbD i && aside.all fun t => t.image.getLsbD i)) ∧
        ends (.mjoin k) ({ f with tokens := aside.reverse.foldl pushBack rest }.writeMask (s.seed s.party) 0 m) (f.pc + 4)) ∧
    (∀ f t rest, s.holdsMask s.party d = false → s.fillToken l s.party 0 = .ok f → f.tokens = t :: rest →
      ends (.mpop k d) ({ f with tokens := rest }.writeMask (s.seed s.party) d t.image) (f.pc + 4)) ∧
    (s.holdsMask s.party 0 = false → s.holdsMask s.party d = false → s.party.tokens = [] →
      exec (.mjoin k) s = raiseStack s ∧ exec (.mpop k d) s = raiseStack s)) ∧
  ∀ (s : State) (l : Launch) (p : Party) (b n : Nat),
    (p.lo ≤ b → b + l.header.window ≤ p.lo + l.header.depth8 → s.slide l p b = .ok (s, { p with b := b })) ∧
    (p.spilled = 0 → s.fillToken l p 0 = .ok p ∧ s.fillBreaks l p 0 n = .ok p ∧
      (p.tokens.length ≤ 32 → s.spillTokens l p n = .ok (s, p)))

/-! ### Deadlines, control registers, counters (R110 to R116) -/

/-- R110 to R112: DLSET writes the register whole; DLADD moves the ticks field alone, clamped; DLNOW reads the Lantern or party
time. R109, R114 to R116: WIDTH reads the party's width, RDRET the retired count, RDCLK the core's clock count or, in
replay, the retired count; YIELD holds until the party is drained, and then leaves it at a park point, but for handler mode
(R114, R198); what the lane stream wrote is then certain (log 19). How far a core's clock stands from another's is open
(log 4). -/
def Obligations.DeadlinesAndCounters : Prop :=
  (∀ (s : State) (k : Bool) (n : BitVec 2) (d a : Reg),
    let v := s.party.deadlineReg n
    (s.holdsDl s.party n = false →
      exec (.dlset k n a) s = .next (s.finish (s.party.setDeadlineReg n (s.party.reg a))) ∧
      exec (.dladd k n a) s = .next (s.finish (s.party.setDeadlineReg n (v.extractLsb' 62 2 ++
        BitVec.ofInt 62 (max 0 (min (2 ^ 62 - 1) ((v.extractLsb' 0 62).toNat + (s.party.reg a).toInt))))))) ∧
    (s.holdsReg s.party d = false →
      exec (.dlnow k d false) s = .next (s.finish (s.party.setReg d s.lantern)) ∧
      exec (.dlnow k d true) s = .next (s.finish (s.party.setReg d s.party.ptime)))) ∧
  ∀ (s : State) (k : Bool) (d : Reg),
    let sets (i : Instr) (v : Word) : Prop := exec i s = .next (s.finish (s.party.setReg d v))
    (s.holdsReg s.party d = false →
      sets (.width k d) (BitVec.ofNat 64 s.party.width) ∧ sets (.rdret k d) s.party.retired ∧
      ((s.home s.party).header.replay = true → sets (.rdclk k d) s.party.retired) ∧
      ((s.home s.party).header.replay = false →
        sets (.rdclk k d) (s.clock + BitVec.ofNat 64 (Config.clockSkew s.party.core)))) ∧
    (s.party.hmode = false → s.party.drained = false → exec (.yield k) s = .next s) ∧
    (s.party.hmode = true ∨ s.party.drained = true →
      let seen : Party := if s.party.hmode then s.party else { s.party with looseMasks := [], recent := [] }
      exec (.yield k) s = .next { s.finish seen with party := { (s.finish seen).party with yielded := !s.party.hmode } })

/-- R113: what CSRR reads of each control register, where no lane instruction that writes it is incomplete (R34), and what CSRW
leaves in each; the summary word of `ls` is never stored, and a data word of `ls` beyond the party's width is discarded. -/
def Obligations.ControlRegisters : Prop :=
  (∀ (s : State) (k : Bool) (d : Reg), s.holdsReg s.party d = false → s.party.inflight = [] →
    let reads (n : BitVec 13) (v : Word) : Prop := exec (.csrr k d n) s = .next (s.finish (s.party.setReg d v))
    reads 0x00 s.party.st ∧ reads 0x01 s.party.rnd ∧ reads 0x02 s.party.nvr ∧
    reads 0x03 (s.home s.party).header.wdef ∧ reads 0x04 (BitVec.ofNat 64 (s.party.first / s.party.width % 2)) ∧
    reads 0x05 s.party.ptime ∧ reads 0x06 (s.party.xcount.setWidth 64) ∧
    (∀ n : BitVec 2, reads (8 + n.setWidth 13) (s.party.deadlineReg n)) ∧
    reads 0x10 ((summary (s.party.ls &&& s.party.allLanes)).setWidth 64) ∧
    (∀ i : Nat, i < 32 → reads (BitVec.ofNat 13 (0x20 + i))
      (((s.party.ls &&& s.party.allLanes).extractLsb' (32 * i) 32).setWidth 64))) ∧
  ∀ (s : State) (k : Bool) (a : Reg), s.party.inflight = [] →
    let v := s.party.reg a
    exec (.csrw k a 0) s = .next (s.finish { s.party with st := (v.setWidth 32).setWidth 64 }) ∧
    (s.holdsRnd s.party = false →
      exec (.csrw k a 1) s = .next (s.finish { s.party with rnd := (v.setWidth 2).setWidth 64 })) ∧
    (s.party.holdsNvr = false →
      exec (.csrw k a 2) s = .next (s.finish { s.party with nvr := if v = 1 ∨ v = 2 then v else s.party.nvr })) ∧
    exec (.csrw k a 0x10) s = .next (s.finish s.party) ∧
    ∀ i : Nat, i < 32 → ∃ m : Mask,
      exec (.csrw k a (BitVec.ofNat 13 (0x20 + i))) s = .next (s.finish { s.party with ls := m }) ∧
      ∀ l, l < 1024 → m.getLsbD l =
        if l / 32 = i ∧ i < s.party.width / 32 then v.getLsbD (l % 32) else s.party.ls.getLsbD l

/-- R159: XRD reads, and XWR writes, one lane register in the window; outside the party or the window XRD gives 0 and XWR
writes nothing. Outside handler mode both act once the lane stream is drained. XWR changes no other lane register. -/
def Obligations.LaneRegisterAccess : Prop :=
  ∀ (s : State) (k : Bool) (d a b : Reg) (n : BitVec 7),
    s.party.hmode = true ∨ s.party.drained = true → s.party.looseMasks = [] → s.party.recent = [] →
    let lane := (s.party.reg a).toNat
    let within := lane < s.party.width ∧ n.toNat < (s.home s.party).header.window
    exec (.xrd k d a n) s = .next (s.finish (s.party.setReg d
      (if within then (s.laneRegister lane n.toNat).setWidth 64 else 0))) ∧
    ∃ t, exec (.xwr k a b n) s = .next t ∧ t = s.finish { s.party with regs := t.party.regs } ∧
      (within → t.laneRegister lane n.toNat = (s.party.reg b).setWidth 32) ∧
      ∀ key, ¬ (within ∧ key = regKey (s.party.first + lane) (s.party.b + n.toNat)) →
        t.party.laneReg key = s.party.laneReg key

/-! ### Traps (R148 to R158) -/

/-- R148, R151 to R153: a cause other than PERMISSION and TRANSLATION, taken by a party with a handler outside handler mode,
with no other trap pending: while a lane instruction that has issued is not complete it is latched; else the 1,024-byte
record is written with s60 to s63, which then hold its address, its word 0, the fault address and the resume address;
handler mode is set and the counter moves to the handler; what the lane stream wrote to masks is certain (R34; log 19).
Everything else of the party stands. A PERMISSION or TRANSLATION is offered. While another trap is pending nothing happens.
-/
def Obligations.TakingATrap : Prop :=
  (∀ (s u : State) (cause : Trap), s.party.hmode = false → s.party.offer = none → s.party.raised = none →
    cause.cause ≠ .permission → cause.cause ≠ .translation →
    let p := s.party
    let t : Trap := { cause with resume := if cause.lane then p.pc else cause.resume }
    let at_ := p.recordAt (s.home p)
    let v := s.takeTrap cause
    (p.inflight ≠ [] ∨ p.part ≠ none → v = { s with party := { p with raised := some (t, false) } }) ∧
    (p.inflight = [] → p.part = none → (s.home p).header.handler ≠ 0 →
      s.arenaWrite (s.home p).space at_ (recordBytes t false (p.reg 60) (p.reg 61) (p.reg 62) (p.reg 63)) = .ok u →
      v = { u with party := v.party } ∧
      v.party = { u.party with
        s := (((u.party.s.set 60 (BitVec.ofNat 64 at_)).set 61 (t.word0 false)).set 62 t.addr).set 63 t.resume
        hmode := true, pc := (s.home p).header.handler, lastPc := (s.home p).header.handler, wait := none, raised := none
        looseMasks := []
        faulted := some { dest := t.dest, wait := t.wait }
        pendingLane := if t.lane then none else u.party.pendingLane
        handlingLane := t.src == 1 && decide (0x10 ≤ t.cause.code) && decide (t.cause.code ≤ 0x15) } ∧
      (recordBytes t false (p.reg 60) (p.reg 61) (p.reg 62) (p.reg 63)).length = 1024)) ∧
  ∀ (s : State) (t : Trap), s.party.hmode = false →
    (s.party.offer = none → s.party.raised = none → t.cause = .permission ∨ t.cause = .translation →
      s.takeTrap t = s.offerTrap t ∧ ∃ n, (s.takeTrap t).party.offer = some { trap := t, ticket := n }) ∧
    (s.party.offer ≠ none ∨ s.party.raised ≠ none → s.takeTrap t = s)

/-- R157: TRAP raises SOFT: word 0 of the record is the cause 3, its pc the TRAP, its resume address the next word, its code
the value of sa; the saved registers follow the action word, and everything else of the record is zero. That TRAP itself is
not counted as retired is the model's reading (log 33). -/
def Obligations.TrapRaisesSoft : Prop :=
  ∀ (s u : State) (k : Bool) (a : Reg), s.party.hmode = false → s.party.offer = none → s.party.raised = none →
    s.party.inflight = [] → s.party.part = none → (s.home s.party).header.handler ≠ 0 →
    let p := s.party
    let at_ := p.recordAt (s.home p)
    s.arenaWrite (s.home p).space at_
      (toBytes 8 3 ++ toBytes 8 p.pc.toNat ++ toBytes 8 (p.pc + 4).toNat ++ toBytes 8 0 ++ toBytes 8 (p.reg a).toNat ++
        toBytes 8 0 ++ toBytes 8 (p.reg 60).toNat ++ toBytes 8 (p.reg 61).toNat ++ toBytes 8 (p.reg 62).toNat ++
        toBytes 8 (p.reg 63).toNat ++ List.replicate 944 0) = .ok u →
    ∃ v, exec (.trap k a) s = .next v ∧ v = { u with party := v.party } ∧ v.party.hmode = true ∧
      v.party.pc = (s.home p).header.handler ∧
      v.party.s = (((u.party.s.set 60 (BitVec.ofNat 64 at_)).set 61 3).set 62 0).set 63 (p.pc + 4) ∧
      v.party.retired = u.party.retired ∧ v.party.p = u.party.p ∧ v.party.st = u.party.st ∧ v.party.ls = u.party.ls ∧
      v.party.flags = u.party.flags ∧ v.party.tokens = u.party.tokens ∧ v.party.queue = u.party.queue ∧
      v.party.regs = u.party.regs

/-- R158: RETT in handler mode reads the record back, restores s60 to s63, leaves handler mode and counts. Where the cause is
no declined access, no declined fetch or fill, and no access cause of a lane instruction, control goes to the record's
resume address. An access cause of a lane instruction that is not declined makes it issue again without the lanes done; one
of a scalar instruction that is declined ends it FAULT or POISON at the next word; a declined fetch or fill halts the
party. Bits 1:0 of the address that the record gives are taken as zero (log 72). Outside handler mode RETT is ILLEGAL. -/
def Obligations.RettReturns : Prop :=
  ∀ (s : State) (k : Bool) (bs : List Byte),
    s.arenaRead (s.home s.party).space (s.party.recordAt (s.home s.party)) 1024 = .ok bs → bs.length = 1024 →
    let word (off : Nat) : Word := BitVec.ofNat 64 (ofBytes ((bs.drop off).take 8))
    let cause := ofBytes (bs.take 1)
    let src := ofBytes ((bs.drop 1).take 1) % 4
    let decline := (word 0x28).getLsbD 0
    let regs := (((s.party.s.set 60 (word 0x30)).set 61 (word 0x38)).set 62 (word 0x40)).set 63 (word 0x48)
    (s.party.hmode = true → decline = false →
      ∃ t, exec (.rett k) s = .next t ∧ t = { s with party := t.party } ∧ t.party = { s.party with
        s := regs, hmode := false, pc := word 0x10 &&& ~~~3, lastPc := s.party.pc, retired := s.party.retired + 1
        yielded := false, handlingLane := t.party.handlingLane, redo := t.party.redo, pendingLane := t.party.pendingLane } ∧
        if src = 1 ∧ 0x10 ≤ cause ∧ cause ≤ 0x15 then
          t.party.handlingLane = false ∧ t.party.pendingLane = none ∧ ∃ m : Mask, t.party.redo = some m ∧
            ∀ l, l < 1024 → m.getLsbD l = (decide (l < s.party.width) && (ofBytes ((bs.drop 0x84).take 128)).testBit l)
        else t.party.redo = s.party.redo ∧ t.party.pendingLane = s.party.pendingLane) ∧
    (s.party.hmode = true → decline = true → src = 0 → 0x10 ≤ cause → cause ≤ 0x15 → s.party.inflight = [] →
      ∃ t, exec (.rett k) s = .next t ∧ t = { s with party := t.party } ∧ t.party = { s.party with
        s := t.party.s, hmode := false, pc := (word 8 &&& ~~~3) + 4, lastPc := s.party.pc, retired := s.party.retired + 1
        st := if cause = 0x14 then 0x07 else BitVec.ofNat 64 (0x06 + 256 * cause), xcount := t.party.xcount } ∧
        (∀ r, s.party.faulted.bind Faulted.dest ≠ some r → r ≠ 0 → t.party.reg r = (regs[r.toNat]?).getD 0) ∧
        ∀ r, s.party.faulted.bind Faulted.dest = some r → r ≠ 0 → t.party.reg r = if cause = 0x14 then 0x07 else 0x06) ∧
    (s.party.hmode = true → decline = true → src = 2 ∨ src = 3 → ∃ t, exec (.rett k) s = .next t ∧ t.party.life = .halted) ∧
    (s.party.hmode = false → exec (.rett k) s = raiseIllegal s)

/-- R155, R156: in handler mode the instructions of its table, and every other cause, raise DOUBLE, and the party halts: it
waits for nothing and its lane queue is empty. -/
def Obligations.DoubleInHandlerMode : Prop :=
  ∀ (s : State) (k : Bool) (d a b : Reg) (dl : BitVec 2) (f : BitVec 12) (m : BitVec 6) (len : BitVec 6) (idx : BitVec 19)
    (n : BitVec 4) (off : BitVec 15), s.party.hmode = true →
    let doubles (i : Instr) : Prop := exec i s = .next s.halt
    doubles (.lrun k len idx) ∧ doubles (.waitf k d f dl) ∧ doubles (.split k d) ∧ doubles (.fuse k d dl) ∧
    doubles (.exit k) ∧ doubles (.trap k a) ∧ doubles (.bwait k d a dl) ∧ doubles (.bsync k d a dl) ∧
    doubles (.semacq k d a dl b) ∧ doubles (.waddr k d a dl b) ∧ doubles (.fence k d m dl) ∧ doubles (.xfence k d m dl m) ∧
    doubles (.sysfence k d dl) ∧ doubles (.sysfenceArray k d dl) ∧ doubles (.twait k d a dl) ∧ doubles (.cpyt k d a dl b) ∧
    doubles (.cpyw k d a dl b) ∧ doubles (.coll k d a dl b) ∧ doubles (.launch k d a dl b) ∧ doubles (.tlnew k d a dl b) ∧
    doubles (.gath k d a dl b) ∧ doubles (.scat k d a dl b) ∧ doubles (.chain k d a dl b) ∧ doubles (.tlfree k d a dl) ∧
    doubles (.tlload k d a dl) ∧ doubles (.tlstore k d a dl) ∧ doubles (.tlfac k d a dl b) ∧ doubles (.tladd k d a dl b) ∧
    doubles (.tllu k d a dl) ∧ doubles (.tlinv k d a dl) ∧ doubles (.tltrs k d a dl b) ∧ doubles (.tlrnd k d a dl b) ∧
    doubles (.tlcvt k d a dl) ∧ doubles (.tlnorm k d a dl) ∧ doubles (.tlmul k d a dl b) ∧
    doubles (.call k n a off) ∧ doubles (.callr k d a n) ∧ doubles (.ret k a n) ∧
    (∀ t, s.takeTrap t = s.halt) ∧
    s.halt.party.life = .halted ∧ s.halt.party.queue = [] ∧ s.halt.party.wait = none ∧ s.halt.party.pid = s.party.pid

/-! ### Memory (R150, R164 to R166, R181, R191) -/

/-- R150, R164 to R166, R181: the checks of one access in their order. An access in one window takes the denial of its window,
else ALIGNMENT, else for a read POISON; an access that starts in the global window and ends elsewhere or beyond the address
space is WINDOW_SPLIT, as the example of R165 has it; the local and the private window end at the launch's extents, and a
private address is the arena's byte of the accessor's position. Where an element runs into a second page, PERMISSION comes
before TRANSLATION. A scalar access that is denied only takes its trap (R158, R191), a POISON after it has raised the
logical time as a read does (R338). -/
def Obligations.AccessChecks : Prop :=
  ∀ (s : State) (ac : Accessor) (a : Word) (n align : Nat) (need : Rights) (l : Launch) (p : Place) (d : Deny),
    let lo := a.toNat
    let hi := lo + n - 1
    let off := lo % 2 ^ 48
    (windowOf lo = windowOf hi → hi < 2 ^ 64 →
      (s.windowPlace ac lo n need = .error d → s.access ac a n align need = .error d) ∧
      (s.windowPlace ac lo n need = .ok p → lo % align ≠ 0 → s.access ac a n align need = .error { cause := .alignment }) ∧
      (s.windowPlace ac lo n need = .ok p → lo % align = 0 → need.r = true → s.poisonedPlace p n = true →
        s.access ac a n align need = .error { cause := .poison }) ∧
      (s.windowPlace ac lo n need = .ok p → lo % align = 0 → (need.r && s.poisonedPlace p n) = false →
        s.access ac a n align need = .ok p)) ∧
    (windowOf lo = .global → (windowOf hi ≠ .global ∨ 2 ^ 64 ≤ hi) →
      s.access ac a n align need = .error { cause := .windowSplit }) ∧
    (ac.launch = some l →
      (windowOf lo = .local_ → l.header.local_ < off + n →
        s.windowPlace ac lo n need = .error { cause := .permission, extent := true }) ∧
      (windowOf lo = .private_ → l.header.private_ < off + n →
        s.windowPlace ac lo n need = .error { cause := .permission, extent := true }) ∧
      (windowOf lo = .private_ → off + n ≤ l.header.private_ →
        s.windowPlace ac lo n need = s.elementPlace ac.space (l.header.privateAt ac.group ac.q + off) n need)) ∧
    (∀ va, 1 < n → va / 65536 ≠ (va + n - 1) / 65536 →
      let first := s.globalPlace ac.space va need
      let last := s.globalPlace ac.space (va + n - 1) need
      (∀ q, first = .ok p → last = .ok q → s.elementPlace ac.space va n need = .ok p) ∧
      (∀ q, first = .ok q → last = .error d → s.elementPlace ac.space va n need = .error d) ∧
      (first = .error d → d.cause = .permission → s.elementPlace ac.space va n need = .error d) ∧
      (∀ e, first = .error e → e.cause ≠ .permission → last = .error d → d.cause = .permission →
        s.elementPlace ac.space va n need = .error d)) ∧
    ∀ (k : Bool) (r b : Reg) (imm : BitVec 13), s.holdsReg s.party r = false →
      let addr : Word := s.party.reg b + imm.signExtend 64
      let cause : Trap := (Trap.scalar d.cause s.party.pc s.party.pc).denied d addr
      let u := if d.cause = .poison then s.sawPoison s.accessor d addr else s
      (s.access s.accessor addr 8 8 .read = .error d → exec (.sldN64 k r b imm) s = .next (u.takeTrap cause)) ∧
      (s.access s.accessor addr 8 8 .write = .error d → exec (.sstN64 k r b imm) s = .next (u.takeTrap cause))

/-- R191: each scalar load that its access admits leaves the element in sd, sign-extended for the .i forms and zero-extended
for the .n forms; TLINFO (R255) loads the word at sa. Nothing else changes, memory least of all, but for the read's logical
side (R318) and the party's score, which rises where its own slot had the line (R196). -/
def Obligations.ScalarLoads : Prop :=
  ∀ (s : State) (k : Bool) (d a : Reg) (imm : BitVec 13) (p : Place), s.holdsReg s.party d = false →
    s.unreachable p = false →
    let addr : Word := s.party.reg a + imm.signExtend 64
    let loads (i : Instr) (addr : Word) (n : Nat) (v : Word) : Prop :=
      s.access s.accessor addr n n .read = .ok p → ∃ t : State, exec i s = .next (t.finish (t.party.setReg d v)) ∧
        t = { s with lines := t.lines, copies := t.copies, party := { s.party with pt := t.party.pt, score := t.party.score } } ∧
        s.party.pt ≤ t.party.pt ∧ s.writtenAt p n ≤ t.party.pt
    let bits (n : Nat) : BitVec n := BitVec.ofNat n (ofBytes (s.readPlace p (n / 8)))
    loads (.sldI8 k d a imm) addr 1 ((bits 8).signExtend 64) ∧
    loads (.sldN8 k d a imm) addr 1 (BitVec.ofNat 64 (ofBytes (s.readPlace p 1))) ∧
    loads (.sldI16 k d a imm) addr 2 ((bits 16).signExtend 64) ∧
    loads (.sldN16 k d a imm) addr 2 (BitVec.ofNat 64 (ofBytes (s.readPlace p 2))) ∧
    loads (.sldI32 k d a imm) addr 4 ((bits 32).signExtend 64) ∧
    loads (.sldN32 k d a imm) addr 4 (BitVec.ofNat 64 (ofBytes (s.readPlace p 4))) ∧
    loads (.sldN64 k d a imm) addr 8 (bits 64) ∧
    loads (.tlinfo k d a) (s.party.reg a) 8 (bits 64)

/-- R191: each scalar store that its access admits stores the low bytes of its d register at the place of its address, the
lowest byte first, and no other byte of memory or of any scratchpad changes (where a sector's key slot is another than the
access's, the whole sector is written again, R336); of a scratchpad's poison only that of units wholly written is gone
(R338). No register, mask or status changes; the party's logical time follows the write (R318), and its score rises where
its own slot had the line (R196). A store may let a waiting SEMACQ take its count (R207): the statement is of a state where
none waits. -/
def Obligations.ScalarStores : Prop :=
  ∀ (s : State) (k : Bool) (d a : Reg) (imm : BitVec 13) (p : Place), s.unreachable p = false →
    (∀ q ∈ s.parties, ∀ w, q.wait = some w → w.kind ≠ .semacq) →
    let addr : Word := s.party.reg a + imm.signExtend 64
    let v := s.party.reg d
    let stores (i : Instr) (n : Nat) : Prop :=
      s.access s.accessor addr n n .write = .ok p → ∃ t, exec i s = .next t ∧
        t.party = { (s.finish s.party).party with wait := t.party.wait, pt := t.party.pt, score := t.party.score } ∧
        s.party.pt ≤ t.party.pt ∧
        t = { s with party := t.party, others := t.others, mem := t.mem, tags := t.tags
                     groups := t.groups, copies := t.copies, lines := t.lines, hostFlags := t.hostFlags } ∧
        match p with
        | .phys pa key _ =>
          t.groups = s.groups ∧
          (∀ b, (b / 64 < pa / 64 ∨ (pa + n - 1) / 64 < b / 64) → byteAt t.mem b = byteAt s.mem b) ∧
          (s.sameKey pa n key = true → ∀ b, byteAt t.mem b =
            if pa ≤ b ∧ b < pa + n then v.extractLsb' (8 * (b - pa)) 8 else byteAt s.mem b)
        | .spad l g off =>
          t.mem = s.mem ∧ t.tags = s.tags ∧ (∀ l' g', l' ≠ l ∨ g' ≠ g → t.group? l' g' = s.group? l' g') ∧
          ∀ gr, s.group? l g = some gr → ∃ gr', t.group? l g = some gr' ∧
            gr' = { gr with spad := gr'.spad
                            bad := gr.bad.filter fun u => !(decide (off ≤ 4 * u) && decide (4 * u + 4 ≤ off + n)) } ∧
            ∀ b, byteAt gr'.spad b = if off ≤ b ∧ b < off + n then v.extractLsb' (8 * (b - off)) 8 else byteAt gr.spad b
    stores (.sstN8 k d a imm) 1 ∧ stores (.sstN16 k d a imm) 2 ∧ stores (.sstN32 k d a imm) 4 ∧ stores (.sstN64 k d a imm) 8

/-! ### Waits (R36 to R41) and synchronisation (R199 to R211) -/

/-- R36, R37: the effective deadline of a wait that names a deadline register of value `v`. -/
def Obligations.EffectiveDeadline : Prop :=
  ∀ (s : State) (l : Launch) (p : Party) (v : Word) (sel : BitVec 2),
    let d := deadlineOf s l p v sel
    let t0 := if v.getLsbD 62 then p.ptime.toNat else s.lantern.toNat
    let c := if l.header.ceiling = 0 then l.space.dlceil else min l.header.ceiling l.space.dlceil
    let named := (v.extractLsb' 0 62).toNat
    d.ticks = min named (t0 + c) ∧ (d.poll = true ↔ d.ticks ≤ t0) ∧ (d.ceiling = true ↔ t0 + c < named) ∧
      d.esc = v.getLsbD 63 ∧ d.party = v.getLsbD 62

/-- R37 to R39: how a wait ends and issues. `st` holds the status and the destination its code; a poll leaves the expiry count,
an expiry adds 1 up to 255, any other end sets it to 0; the counter moves to the next word; where the end comes after
arrivals or signals that it does not read, the logical time follows them (R309; the model takes every one, log 67). Where
the expiry escalates the party stops with STUCK, or has it still to take while another trap is pending. A wait whose
condition holds as it issues ends at once; where it does not, a poll ends with its expiry code, and any other wait stands
with the deadline fixed at issue; one at a barrier, a poll too, stands to the end of the tick at least, in which a
completion wins (R203; log 55); an access of it that is denied raises its cause. -/
def Obligations.WaitEnds : Prop :=
  ∀ (s : State) (w : Wait) (st : Word),
    let u : State := if w.joins st then { s with party := { s.party with pt := max s.party.pt s.synced } } else s
    let x := s.party.xcount
    let count : BitVec 8 := if w.deadline.poll then x else if isExpiry st then (if x = 255 then 255 else x + 1) else 0
    let ended : State := u.finish (({ u.party with xcount := count, wait := none }.setSt st).setReg w.dest (st &&& 0xFF))
    let limit := (s.home s.party).space.xlim
    let stuck : Bool := !w.deadline.poll && isExpiry st && (w.deadline.esc || (limit != 0 && decide (limit < count.toNat)))
    (stuck = false → s.endWith w st = ended) ∧
    (stuck = true → (s.endWith w st).party.st = st ∧ (s.endWith w st).party.pc = s.party.pc + 4 ∧
      (s.party.offer = none → s.party.raised = none → (s.endWith w st).party.stopped = true) ∧
      (s.party.offer ≠ none ∨ s.party.raised ≠ none →
        ∃ t : Trap, t.cause = .stuck ∧ t.pc = s.party.pc ∧ (s.endWith w st).party.stucks = s.party.stucks ++ [t])) ∧
    (∀ t st, s.attempt w = .ended t st → s.startWait w = .next (t.endWith w st)) ∧
    (s.attempt w = .waiting → w.deadline.poll = true → w.kind ≠ .barrier → s.startWait w = .next (s.expire w)) ∧
    (s.attempt w = .waiting → w.deadline.poll = false → w.kind ≠ .barrier →
      s.startWait w = .next { s with party := { s.party with wait := some w }, ids := s.ids + 1 }) ∧
    (s.attempt w = .waiting → w.kind = .barrier →
      let t0 := if w.deadline.party then s.party.ptime.toNat else s.lantern.toNat
      s.startWait w = .next { s with
        party := { s.party with wait := some { w with deadline := { w.deadline with ticks := max w.deadline.ticks t0 } } }
        ids := s.ids + 1 }) ∧
    (∀ d addr, s.attempt w = .trapped d addr → d.cause ≠ .poison → w.kind ≠ .barrier →
      s.startWait w = .next (s.takeTrap { (Trap.scalar d.cause s.party.pc s.party.pc).denied d addr with
        dest := some w.dest, wait := some w.deadline }))

/-- R199 to R205: BARR sets, and BDROP clears with the membership, the bits of the party's blocks in the named leaf barrier of
its group, and a phase that this completes completes: no member missing, every engine row in, and something arrived or
expected. R292, R293: the cluster barrier of the group changes in the same way; where its members have all arrived the
group arrives at the root, where none is left it leaves the root; and a root whose groups have all arrived ends the phase,
which the group's record then takes from it. Of the party only the counter moves. -/
def Obligations.BarrierArrivals : Prop :=
  ∀ (s : State) (k : Bool) (a : Reg) (l : Launch) (gr : Group),
    s.party.resident = true → s.launch? s.party.launch = some l → s.group? s.party.launch s.party.group = some gr →
    let i := (s.party.reg a).toNat % 16
    let blocks := s.party.blocks
    let after (b : Barrier) : Barrier :=
      if b.member &&& ~~~b.arrived = 0 ∧ b.earr = b.eexp ∧ (b.arrived ≠ 0 ∨ b.eexp ≠ 0) then
        { b with arrived := 0, eexp := 0, earr := 0, phase := b.phase + 1 }
      else b
    let arrive (b : Barrier) : Barrier := { b with arrived := b.arrived ||| (blocks &&& b.member) }
    let drop (b : Barrier) : Barrier := { b with member := b.member &&& ~~~blocks, arrived := b.arrived &&& ~~~blocks }
    let noted : State := { s with synced := max s.synced s.party.pt }
    let c := l.header.clusterOf s.party.group
    let bit : BitVec 8 := 1 <<< (s.party.group % 2 ^ l.header.w2)
    let r := s.root l c i
    let ends (j : Instr) (b' : Barrier) (r' : Root) : Prop := ∃ t, exec j s = .next t ∧ t.party = (s.finish s.party).party ∧
      if r'.member &&& ~~~r'.arrived = 0 ∧ r'.arrived ≠ 0 then
        t.root l c i = { r' with arrived := 0, phase := r'.phase + 1 } ∧
          t.barrier l s.party.group true i = { b' with arrived := 0, phase := r'.phase + 1 }
      else t.root l c i = r' ∧ t.barrier l s.party.group true i = b'
    (∀ b, gr.leaf[i]? = some b → (s.party.reg a).getLsbD 4 = false →
      exec (.barr k a) s = .next ((noted.putGroup { gr with leaf := gr.leaf.set i (after (arrive b)) }).finish s.party) ∧
      exec (.bdrop k a) s = .next ((s.putGroup { gr with leaf := gr.leaf.set i (after (drop b)) }).finish s.party)) ∧
    (∀ b, gr.cleaf[i]? = some b → (s.party.reg a).getLsbD 4 = true →
      ((arrive b).member &&& ~~~(arrive b).arrived ≠ 0 →
        exec (.barr k a) s = .next ((noted.putGroup { gr with cleaf := gr.cleaf.set i (arrive b) }).finish s.party)) ∧
      ((drop b).member &&& ~~~(drop b).arrived ≠ 0 →
        exec (.bdrop k a) s = .next ((s.putGroup { gr with cleaf := gr.cleaf.set i (drop b) }).finish s.party)) ∧
      (s.party.group < l.header.groups → l.header.w2 ≤ 3 →
        (Table.get [] l.roots c = [] ∨ (Table.get [] l.roots c).length = 16) →
        let up : Root := { r with arrived := r.arrived ||| bit }
        ((arrive b).member ≠ 0 → (arrive b).member &&& ~~~(arrive b).arrived = 0 → ends (.barr k a) (arrive b) up) ∧
        ((drop b).member ≠ 0 → (drop b).member &&& ~~~(drop b).arrived = 0 → ends (.bdrop k a) (drop b) up) ∧
        ((drop b).member = 0 → ends (.bdrop k a) (drop b)
          { r with member := r.member &&& ~~~bit, arrived := r.arrived &&& ~~~bit }))) ∧
    (∀ j, j < 128 → blocks.getLsbD j =
      decide (s.party.first / 32 ≤ j ∧ j < s.party.first / 32 + s.party.width / 32))

/-- R203, R204: BWAIT with no arrival of the party standing ends OK at once; with one standing it waits for the phase to
change, whatever the deadline allows. BSYNC arrives first; where its arrival completed the phase it ends OK at once, and
where it stands it waits for the phase that was current to change. A poll waits to the end of its tick (R203; log 55). An
end at once sets the expiry count to 0 (log 55), and comes, as the model has it, after every arrival in the part (R309; log
67). -/
def Obligations.BarrierWaits : Prop :=
  ∀ (s : State) (k : Bool) (d a : Reg) (dl : BitVec 2), s.mayWait d →
    let l := s.home s.party
    let v := s.party.reg a
    let arrived := s.barrArrive l s.party v
    let atOnce (t : State) : State := t.catchUp.finish (({ t.catchUp.party with xcount := 0, wait := none }.setSt 0).setReg d 0)
    (s.barrStands l s.party v = false → exec (.bwait k d a dl) s = .next (atOnce s)) ∧
    let phase (t : State) : BitVec 16 := (t.barrier (t.home t.party) t.party.group (v.getLsbD 4) (v.toNat % 16)).phase
    let t0 := if (s.deadline dl).party then s.party.ptime.toNat else s.lantern.toNat
    let waits (i : Instr) (t : State) : Prop :=
      ∃ w, exec i s = .next { t with party := { t.party with wait := some w }, ids := t.ids + 1 } ∧
        w.kind = .barrier ∧ w.dest = d ∧ w.w1 = v ∧ w.w2 = (phase s).setWidth 64 ∧
        w.deadline = { s.deadline dl with ticks := max (s.deadline dl).ticks t0 }
    (s.barrStands l s.party v = true → waits (.bwait k d a dl) s) ∧
    (arrived.barrStands (arrived.home arrived.party) arrived.party v = false →
      exec (.bsync k d a dl) s = .next (atOnce arrived)) ∧
    (arrived.barrStands (arrived.home arrived.party) arrived.party v = true → phase arrived = phase s →
      waits (.bsync k d a dl) arrived)

/-- R207 to R209, R325: SEMACQ takes its count from a word that holds enough and ends OK, or waits and takes nothing, for which
R is right enough; SEMREL adds its count as one atomic, writes no status and does not wait; WADDR ends OK at once where the
word differs from its value, and waits where it does not. -/
def Obligations.Semaphores : Prop :=
  ∀ (s : State) (k : Bool) (d a b : Reg) (dl : BitVec 2) (p : Place), s.unreachable p = false →
    let at_ := s.party.reg a
    let n := s.party.reg b
    let word := s.valueAt p 8
    let waits (i : Instr) (kind : WaitKind) : Prop := (s.deadline dl).poll = false →
      ∃ w, exec i s = .next { s with party := { s.party with wait := some w }, ids := s.ids + 1 } ∧
        w.kind = kind ∧ w.dest = d ∧ w.w1 = at_ ∧ w.w2 = n ∧ w.deadline = s.deadline dl
    (s.mayWait d → s.access s.accessor at_ 8 8 .read = .ok p → s.access s.accessor at_ 8 8 .update = .ok p →
      n.toNat ≤ word → exec (.semacq k d a dl b) s =
        .next (s.endedWith ((s.partyRead p 8).partyStore p (toBytes 8 (word - n.toNat))) d dl 0)) ∧
    (s.mayWait d → s.access s.accessor at_ 8 8 .read = .ok p → word < n.toNat → waits (.semacq k d a dl b) .semacq) ∧
    (s.access s.accessor at_ 8 8 .update = .ok p →
      ∃ t : State, exec (.semrel k a b) s = .next (t.finish t.party) ∧ s.writtenAt p 8 ≤ t.party.pt ∧
        t = { (s.storeAs { s.party.agent with time := max s.party.pt (s.writtenAt p 8) } p
          (toBytes 8 (word + n.toNat))).1 with party := t.party } ∧
        t.party = { (s.storeAs { s.party.agent with time := max s.party.pt (s.writtenAt p 8) } p
          (toBytes 8 (word + n.toNat))).1.party with pt := t.party.pt }) ∧
    (s.mayWait d → s.access s.accessor at_ 8 8 .read = .ok p →
      (BitVec.ofNat 64 word ≠ n → exec (.waddr k d a dl b) s = .next (s.endedWith (s.partyRead p 8) d dl 0)) ∧
      (BitVec.ofNat 64 word = n → waits (.waddr k d a dl b) .waddr))

/-- R211: a fence whose paths are drained ends OK: FENCE the paths of its mask, XFENCE its class, the system fences all six.
XFENCE then bars to the party's later commands of class cb the copies that show none of what it covers on class ca (R311),
the system fences have those of the host path end with the party's next flag (R315). A path is drained for a party once no
lane instruction that accesses memory, Siphon command, tile task or collective of it that the party started before is left;
the host path always is. The end of a fence comes after those (R308; log 67). -/
def Obligations.Fences : Prop :=
  (∀ (s : State) (k : Bool) (d : Reg) (m ca cb : BitVec 6) (dl : BitVec 2), s.mayWait d →
    let drained (path : Nat) : Prop := s.pathDrained s.party s.party.lruns s.ids path = true
    let barred : State := { s with copies := s.copies.map fun x => match x with
      | .engine e => .engine (if e.path = cb.toNat ∧
            e.passed.any (fun w => w.path == ca.toNat && (w.owners.contains s.party.pid || decide (w.time < s.party.pt)))
          then { e with bars := (s.party.pid, s.ids) :: e.bars } else e)
      | _ => x }
    let host : State := { s with copies := s.copies.map fun x => match x with
      | .engine e => .engine (if e.path = 5 ∧ e.passed.any (fun w => w.owners.contains s.party.pid)
          then { e with due := s.party.pid :: e.due } else e)
      | _ => x }
    ((∀ i, i < 6 → m.getLsbD i = true → drained i) →
      exec (.fence k d m dl) s = .next (s.endedWith s.catchUp d dl 0)) ∧
    (drained ca.toNat →
      exec (.xfence k d ca dl cb) s = .next (s.endedWith barred.catchUp d dl 0)) ∧
    ((∀ i, i < 6 → drained i) →
      exec (.sysfence k d dl) s = .next (s.endedWith host.catchUp d dl 0) ∧
      exec (.sysfenceArray k d dl) s = .next (s.endedWith host.catchUp d dl 0))) ∧
  ∀ (s : State) (p : Party) (order seq : Nat), p.queue = [] →
    (s.pathDrained p order seq 0 = true ↔ ∀ i ∈ p.inflight, order < i.order) ∧
    (s.pathDrained p order seq 1 = true ↔ ∀ c ∈ s.commands, p.pid ∈ c.owners → c.kind = 0 → seq ≤ c.id) ∧
    (s.pathDrained p order seq 2 = true ↔
      ∀ c ∈ s.commands, p.pid ∈ c.owners → (c.kind = 1 ∨ c.kind = 2) → seq ≤ c.id) ∧
    (s.pathDrained p order seq 3 = true ↔ ∀ t ∈ s.tasks, p.pid ∈ t.owners → seq ≤ t.id) ∧
    (s.pathDrained p order seq 4 = true ↔ ∀ c ∈ s.collectives, p.pid ∈ c.owners → seq ≤ c.id) ∧
    s.pathDrained p order seq 5 = true

/-- R96, R262, R263: WAITF ends OK once no setter of its flags is incomplete, at once for the empty set; TWAIT ends at once for
a batch 256 or more ago, setting the expiry count to 0 (log 55), and with the batch's status once none of its tasks is
left; TBAT closes the open batch, gives its number, and forgets the status of the one 256 before the next, but holds while
a task of that one which the party counts is left. What the setters of a WAITF wrote to mask registers is certain after it
(R34); a TWAIT comes after the tasks' ends (R309; log 67). -/
def Obligations.FlagAndBatchWaits : Prop :=
  ∀ (s : State) (k : Bool) (d a : Reg) (fl : BitVec 12) (dl : BitVec 2),
    let n := (s.party.reg a).toNat % 2 ^ 16
    let age := (s.party.openBatch - BitVec.ofNat 16 n).toNat
    let status : Word := (Table.get 0 s.party.batches (n % 256)).setWidth 64
    let atOnce (u : State) : State := u.finish (({ u.party with xcount := 0, wait := none }.setSt 0).setReg d 0)
    (s.mayWait d →
      exec (.waitf k d 0 dl) s = .next (atOnce s) ∧
      (fl ≠ 0 → s.settersBusy s.party fl s.party.lruns = false → ∃ masks,
        exec (.waitf k d fl dl) s = .next (s.endedWith { s with party := { s.party with looseMasks := masks } } d dl 0) ∧
        (∀ e ∈ masks, ∃ x ∈ s.party.looseMasks, x.reg = e.reg ∧ x.flag = e.flag ∧
          ¬ (∃ n, x.flag = some n ∧ fl.getLsbD n = true ∧ x.order ≤ s.party.lruns))) ∧
      (256 ≤ age → exec (.twait k d a dl) s = .next (atOnce s.catchUp)) ∧
      (age < 256 → s.party.evicted = false → s.batchBusy s.party n s.ids = false → isExpiry status = false →
        exec (.twait k d a dl) s = .next (s.endedWith s.catchUp d dl status))) ∧
    let old : BitVec 16 := s.party.openBatch + 1 - 256
    (s.holdsReg s.party d = false → (∃ t ∈ s.tasks, s.party.pid ∈ t.members ∧ t.batch = old.toNat) →
      exec (.tbat k d) s = .next s) ∧
    (s.holdsReg s.party d = false → (∀ t ∈ s.tasks, s.party.pid ∈ t.members → t.batch ≠ old.toNat) →
      exec (.tbat k d) s = .next (s.finish ({ s.party with
        openBatch := s.party.openBatch + 1
        batches := Table.set 0 s.party.batches ((s.party.openBatch + 1).toNat % 256) 0
        batchBy := Table.set 0 s.party.batchBy ((s.party.openBatch + 1).toNat % 256) 0 }.setReg d
          (s.party.openBatch.setWidth 64))))

/-! ### SPLIT and FUSE (R104 to R108) -/

/-- R104, R105: SPLIT of a drained party of more than 32 lanes with a free slot in its quad divides it: the lower half keeps
its number and slot, the upper half is a new party in the free slot; each has its half of the lanes with their registers
and its half of each mask, both go on at the next word with sd and `st` 0, and both count it; both have the logical time of
the party (R319). Without room it ends SPLIT_ROOM. -/
def Obligations.SplitDivides : Prop :=
  ∀ (s : State) (k : Bool) (d : Reg), s.party.hmode = false → s.party.drained = true → s.party.spilled = 0 →
    let p := s.party
    let n := p.width / 2
    (∀ slot, p.width ≠ 32 → s.freeSlot p.core p.quad = some slot →
      ∃ t up, exec (.split k d) s = .next t ∧ up ∈ t.others ∧ up.pid = s.ids ∧ up.slot = slot ∧
        t.party.pid = p.pid ∧ t.party.slot = p.slot ∧ t.party.width = n ∧ up.width = n ∧
        t.party.first = p.first ∧ up.first = p.first + n ∧
        t.party.pc = p.pc + 4 ∧ up.pc = p.pc + 4 ∧ t.party.retired = p.retired + 1 ∧ up.retired = p.retired + 1 ∧
        t.party.pt = p.pt ∧ up.pt = p.pt ∧ t.party.st = 0 ∧ up.st = 0 ∧ (d ≠ 0 → t.party.reg d = 0 ∧ up.reg d = 0) ∧
        (∀ r, r ≠ d → t.party.reg r = p.reg r ∧ up.reg r = p.reg r) ∧
        (∀ m l, l < n → (t.party.mask m).getLsbD l = (p.mask m).getLsbD l ∧
          (up.mask m).getLsbD l = (p.mask m).getLsbD (n + l)) ∧
        (∀ q pos, pos < 1024 → (p.first ≤ q → q < p.first + n → t.party.laneReg (regKey q pos) = p.laneReg (regKey q pos)) ∧
          (p.first + n ≤ q → q < p.first + 2 * n → up.laneReg (regKey q pos) = p.laneReg (regKey q pos)))) ∧
    (p.width = 32 ∨ s.freeSlot p.core p.quad = none → exec (.split k d) s =
      .next (s.finish (({ p with looseMasks := [], recent := [] }.setSt 0x18).setReg d 0x18)))

/-- R106, R108: a FUSE whose aligned neighbour of equal width already waits in a FUSE at the same address, with the same window
base, joins the two, whichever half arrives and whatever other parties there are: the lower party goes on with the lanes,
registers and masks of both, its own scalar registers, and at its next word, with `st` 0 and the later of both logical
times (R319); the upper party is gone, and the others stand. No token of either half is spilled and both have the same
resident base, so that the join copies nothing. -/
def Obligations.FuseJoins : Prop :=
  ∀ (s : State) (k : Bool) (d : Reg) (dl : BitVec 2) (q : Party) (v : Wait), s.calm → s.party.hmode = false →
    let p := s.party
    let near := p.first ^^^ p.width
    let own (x : Party) : Prop := x.regs.Pairwise (fun a b => a.1 < b.1) ∧
      ∀ e ∈ x.regs, x.first ≤ e.1 / 1024 ∧ e.1 / 1024 < x.first + x.width
    q ∈ s.others → (s.parties.map fun x => x.pid).Nodup →
    (∀ x ∈ s.others, x.pid ≠ q.pid → x.live = true → x.launch = p.launch → x.group = p.group →
      rangesMeet x.first x.width near p.width = false) →
    p.width = q.width → 0 < p.width → p.width < 1024 → near = q.first → near + p.width ≤ (s.home p).header.lanes →
    (p.first + p.width = q.first ∨ q.first + q.width = p.first) → own p → own q →
    q.launch = p.launch → q.group = p.group → q.live = true → q.evicted = false → q.hmode = false →
    q.wait = some v → v.kind = .fuse → v.decided = none → v.w1 = p.pc → q.b = p.b → q.lo = p.lo →
    p.spilled = 0 → q.spilled = 0 →
    let lo := if p.first < q.first then p else q
    let hi := if p.first < q.first then q else p
    let dest := if p.first < q.first then d else v.dest
    ∃ t, exec (.fuse k d dl) s = .next t ∧ t.others = s.others.filter (fun x => x.pid != q.pid) ∧
      t.party.pid = lo.pid ∧ t.party.first = lo.first ∧ t.party.width = 2 * p.width ∧ t.party.pc = lo.pc + 4 ∧
      t.party.st = 0 ∧ t.party.retired = lo.retired + 1 ∧ t.party.b = p.b ∧ t.party.lo = p.lo ∧ t.party.wait = none ∧
      t.party.pt = max p.pt q.pt ∧ t.party.tokens.length = lo.tokens.length ∧
      (dest ≠ 0 → t.party.reg dest = 0) ∧ (∀ r, r ≠ dest → t.party.reg r = lo.reg r) ∧
      (∀ m l, (l < p.width → (t.party.mask m).getLsbD l = (lo.mask m).getLsbD l) ∧
        (p.width + l < 1024 → (t.party.mask m).getLsbD (p.width + l) = (hi.mask m).getLsbD l)) ∧
      ∀ (x : Party) (lane pos : Nat), (x = lo ∨ x = hi) → x.first ≤ lane → lane < x.first + x.width → pos < 1024 →
        ((∃ e ∈ x.regs, e.1 = regKey lane pos) ∨ pos < min p.fresh q.fresh) →
        t.party.laneReg (regKey lane pos) = x.laneReg (regKey lane pos)

/-- R94: EXIT of a drained party outside handler mode ends it: it has exited, its token stack is discarded and its slot is
free; its registers hold what they held. -/
def Obligations.ExitEnds : Prop :=
  ∀ (s : State) (k : Bool), s.party.hmode = false → s.party.drained = true →
    ∃ t, exec (.exit k) s = .next t ∧ t.party.pid = s.party.pid ∧ t.party.life = .exited ∧ t.party.tokens = [] ∧
      t.party.present = false ∧ t.party.s = s.party.s

/-! ### Requests of the engines (R212 to R222, R239 to R245, R348, R370) -/

/-- R215, R216, R221, R370: an engine command whose descriptors are well formed, being the oldest request of its queue, is
accepted and ends OK; without room it waits, or as a poll ends FULL; a malformed descriptor ends it with FAULT, detail
0x15, and a denied read of a descriptor traps, in each case after what was read, of which only the party's logical time
tells (R318). Acceptance needs an entry of the core's 64 for each command that is no gate and, where the command names a
leaf barrier, room in its eexp, to which its rows are added; the second of a CHAIN is held by the first; a command has its
party's logical time (R318). A collective takes the pair's present count as its instance number, 0 at the first, and the
count rises by one (R372); it fails with 0x0103 where a member is absent (R373). A field that a kind does not use may make its descriptor malformed as log 73 says. -/
def Obligations.EngineRequests : Prop :=
  ∀ (s : State) (k : Bool) (d a b : Reg) (dl : BitVec 2),
    let p := s.party
    let sa := p.reg a
    let sb := p.reg b
    -- what a request comes to in `r`, the state after what it read
    let waits (i : Instr) (r : State) : Prop :=
      ∃ w, exec i s = .next { r with party := { r.party with wait := some w }, ids := r.ids + 1 } ∧
        w.kind = .accept ∧ w.dest = d ∧ w.deadline = s.deadline dl
    let requests (i : Instr) (r : State) (granted : Option State) : Prop :=
      (∀ t, granted = some t → exec i s = .next (s.endedWith t d dl 0)) ∧
      (granted = none → (s.deadline dl).poll = false → waits i r) ∧
      (granted = none → (s.deadline dl).poll = true → exec i s =
        .next (s.endedWith r d dl (0x203 ||| (if (s.deadline dl).ceiling then 0x100 else 0))))
    let reads {α : Type} (i : Instr) (x : State × Issue α) (works : State → α → Prop) : Prop :=
      (∀ c, x.2 = .work c → works x.1 c) ∧
      (x.2 = .malformed → exec i s = .next (s.endedWith x.1 d dl 0x1506)) ∧
      ∀ e a, x.2 = .trap e a → exec i s = .next ((if e.cause = .poison then x.1.sawPoison s.accessor e a else x.1).takeTrap
        { (Trap.scalar e.cause p.pc p.pc).denied e a with dest := some d, wait := some (s.deadline dl) })
    let accepted (c : Command) (n : Nat) (pred : Option Nat) : Command := { c with id := s.ids + n, time := p.pt, pred := pred }
    let one (kind : Nat) (i : Instr) : Prop :=
      reads i (s.readCommand [kind] sa sb) fun r c => requests i r (r.acceptCommands r.party [c])
    let used := (s.commands.filter fun c => c.core == p.core && c.kind != 3).length
    (s.mayWait d → s.alone →
      one 0 (.cpyt k d a dl b) ∧ one 1 (.gath k d a dl b) ∧ one 2 (.scat k d a dl b) ∧
      (reads (.chain k d a dl b) (s.readCommand [0, 1, 2] sa 0) fun r c =>
        reads (.chain k d a dl b) (r.readCommand [0, 1, 2, 3] sb 0) fun u e =>
          requests (.chain k d a dl b) u (u.acceptCommands u.party [c, e])) ∧
      (reads (.coll k d a dl b) (s.readCollective sa sb) fun r c =>
        requests (.coll k d a dl b) r (r.acceptCollective r.party c))) ∧
    (∀ r : State, ((∃ kinds, r = (s.readCommand kinds sa sb).1) ∨ r = (s.readCollective sa sb).1) →
      r = { s with lines := r.lines, party := { p with pt := r.party.pt } } ∧ p.pt ≤ r.party.pt) ∧
    (∀ c, c.kind ≠ 3 → c.rbar = none → s.acceptCommands p [c] =
      if used + 1 ≤ 64 then some { s with commands := s.commands ++ [accepted c 0 none], ids := s.ids + 1 } else none) ∧
    (∀ c i l gr r, c.kind ≠ 3 → c.rbar = some i → i < 16 → 0 < c.rows → used + 1 ≤ 64 → p.resident = true →
      s.launch? p.launch = some l → s.group? p.launch p.group = some gr → gr.leaf[i]? = some r →
      s.acceptCommands p [c] =
        if r.eexp + c.rows < 2 ^ 24 then
          some { s.putGroup { gr with leaf := gr.leaf.set i { r with eexp := r.eexp + c.rows } } with
            commands := s.commands ++ [accepted c 0 none], ids := s.ids + 1 }
        else none) ∧
    (∀ c e, c.kind ≠ 3 → c.rbar = none → e.rbar = none → s.acceptCommands p [c, e] =
      if used + (if e.kind = 3 then 1 else 2) ≤ 64 then
        some { s with
          commands := s.commands ++ [accepted c 0 none, accepted e 1 (some s.ids)], ids := s.ids + 2 }
      else none) ∧
    ∀ c t, s.acceptCollective p c = some t →
      let n := ((s.instances.find? fun e => e.1 == (s.home p).space.ctx && e.2.1 == c.tag && e.2.2.1 == c.members).map
        fun e => e.2.2.2).getD 0
      t.collectives = s.collectives ++ [{ c with id := s.ids, time := p.pt, instance_ := n, acceptedAt := s.lantern.toNat
                                                 failed := if ∃ m ∈ c.members, m ∈ s.absentParts then some 0x0103 else c.failed }] ∧
      t.instances = s.instances.filter (fun e => !(e.1 == (s.home p).space.ctx && e.2.1 == c.tag &&
        e.2.2.1 == c.members)) ++ [((s.home p).space.ctx, c.tag, c.members, n + 1)] ∧
      t = { s with collectives := t.collectives, instances := t.instances, sends := t.sends, ids := s.ids + 1 }

/-- R212, R222, R348: CPYW puts its buffer into the ring's slot, or takes the slot's payload into its buffer, and then
publishes the slot's sequence word; it ends OK. With a CPYT of the party still in the queue it waits with its slot claimed.
LAUNCH puts a header of 256 bytes on the ring of an enabled queue of its context in the same way. A ring with no slot to
claim, or whose slot's word is ahead (log 73), makes it wait, or as a poll end FULL or EMPTY. A bad ring, queue or header ends it with FAULT, detail 0x15 (for
LAUNCH a ring whose slots are not of 256 bytes too: log 38); a misaligned ring address, or a denied access of the ring
before the copy, traps. That a poisoned payload is copied with its poison and ends OK, and that a slot is claimed before
the wait for an earlier CPYT, are the model's readings (log 32); what was read of the ring tells on the party's logical
time alone. -/
def Obligations.RingCopies : Prop :=
  ∀ (s : State) (k : Bool) (d a b : Reg) (dl : BitVec 2), s.mayWait d →
    let p := s.party
    let sa := p.reg a
    let sb := p.reg b
    let ac := s.accessor
    let deadline := s.deadline dl
    let copier (t : State) : Agent :=
      { path := 1, unit := t.party.core, cmd := t.ids, pid := t.party.pid, owners := [t.party.pid], time := t.party.pt
        replay := (t.home t.party).header.replay }
    let trapped (i : Instr) (e : Deny) (x : Word) : Prop :=
      exec i s = .next ((if e.cause = .poison then s.sawPoison ac e x else s).takeTrap
        { (Trap.scalar e.cause p.pc p.pc).denied e x with dest := some d, wait := some deadline })
    let at_ (t : State) (time : Nat) : State := { t with party := { t.party with pt := time } }
    let moves (i : Instr) (hdr buf : Word) (takes : Bool) (r : Ring) : Prop :=
      let seen := s.observeRing ac hdr
      let claim := if takes then seen.claimTake seen.party.agent p.core ac hdr r
        else seen.claimPut seen.party.agent p.core ac hdr r
      (∀ t time slot seq, claim = .ok (.slot t time slot seq) →
        let u := at_ t time
        ((∃ c ∈ t.commands, c.pid = u.party.pid ∧ c.kind = 0) → ∃ w,
          exec i s = .next { u with party := { u.party with wait := some w }, ids := u.ids + 1 } ∧
            w.kind = .cpyw ∧ w.dest = d ∧ w.claim = some { at_ := slot, seq := seq, size := r.z, copied := false }) ∧
        ((∀ c ∈ t.commands, c.pid = u.party.pid → c.kind ≠ 0) → ∀ sp w v,
          u.engineRead ac (copier u) (if takes then slot + 16 else buf) r.z 8 = .ok sp →
          u.engineWrite ac (copier u) (if takes then buf else slot + 16) sp = .ok w →
          let x := at_ w.s w.time
          x.signalWord ac (copier x) slot seq.toNat = .ok v →
          exec i s = .next (s.endedWith (at_ v.1 v.2) d dl 0))) ∧
      (∀ e x, claim = .error (e, x) → trapped i e x) ∧
      (claim = .ok .full →
        (deadline.poll = false → ∃ w, exec i s = .next { s with party := { p with wait := some w }, ids := s.ids + 1 } ∧
          w.kind = .cpyw ∧ w.dest = d ∧ w.deadline = deadline) ∧
        (deadline.poll = true → exec i s = .next (s.endedWith (seen.observe ac (r.slotAt (if takes then r.q else r.e)) 8) d dl
          ((if takes then 0x204 else 0x203) ||| (if deadline.ceiling then 0x100 else 0)))))
    let refused (i : Instr) (hdr : Word) : Prop := exec i s = .next (s.endedWith (s.observeRing ac hdr) d dl 0x1506)
    (sa.toNat % 64 / 2 = 0 → ∀ r, s.ring ac (sa &&& ~~~1) = .ok r →
      (r.ok = true → moves (.cpyw k d a dl b) (sa &&& ~~~1) sb (sa.getLsbD 0) r) ∧
      (r.ok = false → refused (.cpyw k d a dl b) (sa &&& ~~~1))) ∧
    (sa.toNat % 64 / 2 = 0 → ∀ e x, s.ring ac (sa &&& ~~~1) = .error (e, x) → trapped (.cpyw k d a dl b) e x) ∧
    (sa.toNat % 64 / 2 ≠ 0 → exec (.cpyw k d a dl b) s = .next (s.takeTrap { Trap.scalar .alignment p.pc p.pc with
      addr := sa, offerAddr := sa, dest := some d, wait := some deadline })) ∧
    (∀ ring r, s.queueRing (s.home p).space.ctx (sb.toNat % 4096) = some ring → sa.toNat % 16 = 0 →
      windowOf sa.toNat = .global → s.ring ac (ring &&& ~~~1) = .ok r →
      (r.ok = true → r.z = 256 → moves (.launch k d a dl b) (ring &&& ~~~1) sa false r) ∧
      (r.ok = false ∨ r.z ≠ 256 → refused (.launch k d a dl b) (ring &&& ~~~1))) ∧
    (s.queueRing (s.home p).space.ctx (sb.toNat % 4096) = none ∨ sa.toNat % 16 ≠ 0 ∨ windowOf sa.toNat ≠ .global →
      exec (.launch k d a dl b) s = .next (s.endedWith s d dl 0x1506))

/-- R241, R244: a tile command reads its registers from sa on, and its control word where it has one; being the oldest request
of its Gallery it is accepted and ends OK, in the party's open batch, once the core's Gallery has one of its 256 records
free and the cluster's table room for its handles, with the cluster's next sequence number (R256) and the party's logical
time; copies that an earlier task on its handles has overtaken are barred to it (R258); without room, it waits, or as a
poll ends FULL; malformed it ends with FAULT, detail 0x15. -/
def Obligations.TileRequests : Prop :=
  ∀ (s : State) (k : Bool) (d a b : Reg) (dl : BitVec 2), s.mayWait d → s.alone →
    let p := s.party
    let deadline := s.deadline dl
    let requests (i : Instr) (op n : Nat) (ctl : Word) : Prop :=
      ∃ task : Task, task.op = op ∧ task.ctl = ctl ∧ task.core = p.core ∧ task.launch = p.launch ∧ task.members = [p.pid] ∧
        task.owners = [p.pid] ∧ task.nvr = p.nvr.toNat ∧ task.started = false ∧
        (∀ j, j < 4 → task.val j = if j < n then p.reg (a + BitVec.ofNat 6 j) else 0) ∧
        (task.wellFormed = false → exec i s = .next (s.endedWith s d dl 0x1506)) ∧
        (task.wellFormed = true →
          let room : Bool := decide ((s.tasks.filter fun t => t.core == p.core).length < 256) && s.tableRoom task
          (room = true →
            let seq := Table.get 0 s.accepted (p.core / 8)
            exec i s = .next (s.endedWith { s.claimOwed s.ids (s.handleUses task) with
              tasks := s.tasks ++ [{ task with id := s.ids, seq := seq, time := p.pt, batch := p.openBatch.toNat }]
              accepted := Table.set 0 s.accepted (p.core / 8) (seq + 1), ids := s.ids + 1 } d dl 0)) ∧
          (room = false → deadline.poll = false → ∃ w,
            exec i s = .next { s with party := { p with wait := some w }, ids := s.ids + 1 } ∧
            w.kind = .accept ∧ w.dest = d ∧ w.deadline = deadline) ∧
          (room = false → deadline.poll = true → exec i s =
            .next (s.endedWith s d dl (0x203 ||| (if deadline.ceiling then 0x100 else 0)))))
    requests (.tlnew k d a dl b) 0 1 (p.reg b) ∧ requests (.tlfree k d a dl) 1 1 0 ∧
    requests (.tlload k d a dl) 2 3 0 ∧ requests (.tlstore k d a dl) 3 3 0 ∧
    requests (.tlfac k d a dl b) 4 2 (p.reg b) ∧ requests (.tladd k d a dl b) 5 3 (p.reg b) ∧
    requests (.tlmul k d a dl b) 6 4 (p.reg b) ∧ requests (.tllu k d a dl) 7 2 0 ∧
    requests (.tlinv k d a dl) 8 2 0 ∧ requests (.tltrs k d a dl b) 9 3 (p.reg b) ∧
    requests (.tlrnd k d a dl b) 10 2 (p.reg b) ∧ requests (.tlcvt k d a dl) 11 3 0 ∧
    requests (.tlnorm k d a dl) 12 2 0

/-! ### Lane instructions (R120 to R146) -/

/-- R28, R120, R121, R137, R194: a lane instruction that passes its checks, with its wait mask raised and its set-flag free,
issues and completes: it writes the registers from vd on of the lanes of its effective mask, or their bits of its mask
register, and leaves the queue. A matrix operand in the scratchpad must be granted (R140), and is read as an ordinary
access (R318); that MMA and MMAS then leave `ls` and `st` as they were is the model's reading (log 71). No other lane register, no other mask register, no scalar register, no status, nothing of the scalar stream
and nothing outside the party changes. -/
def Obligations.LaneInstructionsComplete : Prop :=
  (∀ (s : State) (b : Block) (f : LaneF),
    let done (op : LaneOp) (n : Nat) (i : Instr) : Prop := s.laneIssues b op f →
      let c := s.laneCtx b op f
      ∃ e : LaneEffect, exec i s = .next { s with party := c.finish e } ∧ e.mask = none ∧
        ∀ x ∈ e.entries, ∃ lane j, lane < s.party.width ∧ c.active.getLsbD lane = true ∧ j < n ∧
          x.1 = regKey (s.party.first + lane) (s.party.b + (f.dst.toNat + j))
    let each (op : LaneOp) (i : Instr) : Prop := done op f.ty.regs i
    let marks (op : LaneOp) (i : Instr) : Prop := s.laneIssues b op f →
      let c := s.laneCtx b op f
      ∃ v, exec i s = .next { s with party := c.finish { entries := [], mask := some (f.dst.toNat, c.active, v) } }
    each .add (.laneAdd f) ∧ each .sub (.laneSub f) ∧ each .mul (.laneMul f) ∧ each .mulhi (.laneMulhi f) ∧
    each .mad (.laneMad f) ∧ each .fma (.laneFma f) ∧ each .min (.laneMin f) ∧ each .max (.laneMax f) ∧
    each .abs (.laneAbs f) ∧ each .neg (.laneNeg f) ∧ each .adds (.laneAdds f) ∧ each .subs (.laneSubs f) ∧
    each .and (.laneAnd f) ∧ each .or (.laneOr f) ∧ each .xor (.laneXor f) ∧ each .andn (.laneAndn f) ∧
    each .not (.laneNot f) ∧ each .shl (.laneShl f) ∧ each .shr (.laneShr f) ∧ each .sra (.laneSra f) ∧
    each .popc (.lanePopc f) ∧ each .clz (.laneClz f) ∧ each .brev (.laneBrev f) ∧ each .div (.laneDiv f) ∧
    each .sqrt (.laneSqrt f) ∧ each .rcp (.laneRcp f) ∧ each .rsqrt (.laneRsqrt f) ∧ each .exp2 (.laneExp2 f) ∧
    each .log2 (.laneLog2 f) ∧ each .sin (.laneSin f) ∧ each .cos (.laneCos f) ∧ each .rint (.laneRint f) ∧
    each .conj (.laneConj f) ∧ each .sel (.laneSel f) ∧ each .mov (.laneMov f) ∧ each .cvt (.laneCvt f) ∧
    each .shfl (.laneShfl f) ∧ each .bcast (.laneBcast f) ∧ each .red (.laneRed f) ∧ each .scan (.laneScan f) ∧
    done .matchOp 1 (.laneMatch f) ∧ marks .cmp (.laneCmp f) ∧ marks .vote (.laneVote f) ∧
    (s.party.redo = none → s.party.part = none →
      let granted (op : LaneOp) (n m : Nat) : Prop :=
        ∀ w, 32 * w < s.party.width → ((s.laneCtx b op f).operands w n m).denied = []
      let reads (op : LaneOp) (n : Nat) (i : Instr) : Prop := s.laneIssues b op f →
        let c := s.laneCtx b op f
        ∃ (e : LaneEffect) (t : State), exec i s = .next t ∧ t = { s with party := t.party, lines := t.lines } ∧
          t.party = { c.finish e with pt := t.party.pt } ∧ s.party.pt ≤ t.party.pt ∧ e.mask = none ∧
          ∀ x ∈ e.entries, ∃ lane j, lane < s.party.width ∧ c.active.getLsbD lane = true ∧ j < n ∧
            x.1 = regKey (s.party.first + lane) (s.party.b + (f.dst.toNat + j))
      (granted .mma 48 48 → reads .mma (2 * f.ty.accRegs) (.mma f)) ∧
      (granted .mmas 48 96 → reads .mmas 2 (.mmas f)) ∧
      done .mmab 2 (.mmab f))) ∧
  ∀ (c : LaneCtx) (e : LaneEffect),
    let p := c.finish e
    p = { c.p with regs := p.regs, p := p.p, looseMasks := p.looseMasks, recent := p.recent, queue := p.queue
                   laneCtr := p.laneCtr, redo := none, part := none, headOp := none } ∧
    (∀ b rest, c.p.queue = b :: rest → (p.queue, p.laneCtr) =
      if c.p.laneCtr + 1 < b.len then (b :: rest, c.p.laneCtr + 1) else (rest, 0)) ∧
    (∀ key, (∀ x ∈ e.entries, x.1 ≠ key) → p.laneReg key = c.p.laneReg key) ∧
    (e.mask = none → p.p = c.p.p) ∧
    ∀ (n : BitVec 3) (lanes v : Mask), e.mask = some (n.toNat, lanes, v) → ∀ (m : BitVec 3) (l : Nat),
      (p.mask m).getLsbD l = if m = n ∧ lanes.getLsbD l = true then v.getLsbD l else (c.p.mask m).getLsbD l

/-- R123, R127, R128: what each integer and bit instruction leaves in vd of each active lane, at every type, where no earlier
lane write is still uncertain (R195); in the other lanes vd holds what it held. n is the width of the type; a 64-bit value
takes two registers, the lower one least significant (R68). -/
def Obligations.LaneIntegerResults : Prop :=
  ∀ (s : State) (b : Block) (f : LaneF), s.party.recent = [] → s.party.b + (s.home s.party).header.window ≤ 1024 →
    let value (t : State) (lane n : Nat) : Nat := (t.laneRegister lane n).toNat + 2 ^ 32 * (t.laneRegister lane (n + 1)).toNat
    let gives (op : LaneOp) (i : Instr) (g : (n : Nat) → BitVec n → BitVec n → BitVec n → BitVec n) : Prop :=
      s.laneIssues b op f →
      let c := s.laneCtx b op f
      let n := f.ty.width
      let x (code : BitVec 8) (lane : Nat) : BitVec n := BitVec.ofNat n (c.value lane code f.ty)
      ∃ t, exec i s = .next t ∧ ∀ lane, lane < s.party.width → BitVec.ofNat n (value t lane f.dst.toNat) =
        if c.active.getLsbD lane then g n (x f.a lane) (x f.b lane) (x f.c lane)
        else BitVec.ofNat n (value s lane f.dst.toNat)
    let clamp (n : Nat) (lo hi v : Int) : BitVec n := BitVec.ofInt n (max lo (min hi v))
    (f.ty.isL = true →
      gives .and (.laneAnd f) (fun _ x y _ => x &&& y) ∧
      gives .or (.laneOr f) (fun _ x y _ => x ||| y) ∧
      gives .xor (.laneXor f) (fun _ x y _ => x ^^^ y) ∧
      gives .andn (.laneAndn f) (fun _ x y _ => x &&& ~~~y) ∧
      gives .not (.laneNot f) (fun _ x _ _ => ~~~x) ∧
      gives .shl (.laneShl f) (fun n x y _ => x <<< (y.toNat % n)) ∧
      gives .shr (.laneShr f) (fun n x y _ => x >>> (y.toNat % n)) ∧
      gives .sra (.laneSra f) (fun n x y _ => x.sshiftRight (y.toNat % n)) ∧
      gives .popc (.lanePopc f) (fun n x _ _ => BitVec.ofNat n ((List.range n).countP fun i => x.getLsbD i)) ∧
      gives .clz (.laneClz f) (fun n x _ _ => BitVec.ofNat n
        (((List.range n).find? fun i => x.getLsbD (n - 1 - i)).getD n)) ∧
      gives .brev (.laneBrev f) (fun _ x _ _ => x.reverse)) ∧
    (f.ty = .b32 ∨ f.ty = .n64 → gives .mov (.laneMov f) (fun _ x _ _ => x)) ∧
    (f.ty.isZ = true →
      gives .add (.laneAdd f) (fun _ x y _ => x + y) ∧
      gives .sub (.laneSub f) (fun _ x y _ => x - y) ∧
      gives .mul (.laneMul f) (fun _ x y _ => x * y) ∧
      gives .mad (.laneMad f) (fun _ x y z => x * y + z) ∧
      gives .neg (.laneNeg f) (fun _ x _ _ => -x)) ∧
    (f.ty = .i32 ∨ f.ty = .i64 →
      gives .mulhi (.laneMulhi f) (fun n x y _ => (x.signExtend (2 * n) * y.signExtend (2 * n)).extractLsb' n n) ∧
      gives .min (.laneMin f) (fun _ x y _ => if x.toInt ≤ y.toInt then x else y) ∧
      gives .max (.laneMax f) (fun _ x y _ => if x.toInt ≤ y.toInt then y else x) ∧
      gives .abs (.laneAbs f) (fun _ x _ _ => if x.toInt < 0 then -x else x) ∧
      gives .adds (.laneAdds f) (fun n x y _ => clamp n (-2 ^ (n - 1)) (2 ^ (n - 1) - 1) (x.toInt + y.toInt)) ∧
      gives .subs (.laneSubs f) (fun n x y _ => clamp n (-2 ^ (n - 1)) (2 ^ (n - 1) - 1) (x.toInt - y.toInt))) ∧
    (f.ty = .n32 ∨ f.ty = .n64 →
      gives .mulhi (.laneMulhi f) (fun n x y _ => (x.setWidth (2 * n) * y.setWidth (2 * n)).extractLsb' n n) ∧
      gives .min (.laneMin f) (fun _ x y _ => if x.toNat ≤ y.toNat then x else y) ∧
      gives .max (.laneMax f) (fun _ x y _ => if x.toNat ≤ y.toNat then y else x) ∧
      gives .abs (.laneAbs f) (fun _ x _ _ => x) ∧
      gives .adds (.laneAdds f) (fun n x y _ => clamp n 0 (2 ^ n - 1) (x.toNat + y.toNat)) ∧
      gives .subs (.laneSubs f) (fun n x y _ => clamp n 0 (2 ^ n - 1) (x.toNat - y.toNat)))

/-- R87, R126, R127, R131 to R136: CMP, SEL and the instructions that read other lanes, at every type, where no earlier lane
write is still uncertain (R195). A float sum under nvr 2 is stated for four active lanes, where the tree and the doubling
scan differ from the running sum of nvr 1. SCAN min and max of one NaN give the default NaN (log 36), and a BCAST of a
special register reads it in the lowest active lane (log 71). An `nvr` that is not 2 counts as 1 here (log 72). -/
def Obligations.LaneCrossResults : Prop :=
  ∀ (s : State) (b : Block) (f : LaneF), s.party.recent = [] → s.party.redo = none → s.party.width ≤ 1024 →
    s.party.b + (s.home s.party).header.window ≤ 1024 →
    let w := s.party.width
    let n := f.ty.width
    let value (t : State) (lane k : Nat) : Nat :=
      ((List.range 4).map fun i => 2 ^ (32 * i) * (t.laneRegister lane (k + i)).toNat).sum
    let x (op : LaneOp) (code : BitVec 8) (lane : Nat) : BitVec n := BitVec.ofNat n ((s.laneCtx b op f).value lane code f.ty)
    let on (op : LaneOp) (lane : Nat) : Bool := decide (lane < w) && (s.laneCtx b op f).active.getLsbD lane
    let gives (op : LaneOp) (i : Instr) (m : Nat) (g : Nat → BitVec m) : Prop := s.laneIssues b op f →
      ∃ t, exec i s = .next t ∧ ∀ lane, on op lane = true → BitVec.ofNat m (value t lane f.dst.toNat) = g lane
    let marks (op : LaneOp) (i : Instr) (g : Nat → Bool) : Prop := s.laneIssues b op f →
      ∃ t, exec i s = .next t ∧ ∀ lane, lane < w → (t.party.mask (f.dst.setWidth 3)).getLsbD lane =
        if on op lane then g lane else (s.party.mask (f.dst.setWidth 3)).getLsbD lane
    let signed := decide (f.ty = .i32 ∨ f.ty = .i64)
    let sv (v : BitVec n) : Int := if signed then v.toInt else v.toNat
    -- patterns of a float format
    let frac := match f.ty with | .f16 => 10 | .bf16 => 7 | .f32 => 23 | _ => 52
    let inf := 2 ^ (n - 1) - 2 ^ frac
    let isNaN (v : BitVec n) : Bool := decide (inf < v.toNat % 2 ^ (n - 1))
    let nan : BitVec n := BitVec.ofNat n (inf + 2 ^ (frac - 1))
    let num (v : BitVec n) : Int := if v.msb then -((v.toNat - 2 ^ (n - 1) : Nat) : Int) else v.toNat
    let key (v : BitVec n) : Int := if v.msb then num v - 1 else num v
    -- CMP
    let test (lt eq : Bool) : Bool := match f.imm.toNat % 8 with
      | 0 => eq | 1 => !eq | 2 => lt | 3 => lt || eq | 4 => !(lt || eq) | _ => !lt
    let testF (a c : BitVec n) : Bool :=
      let bad := isNaN a || isNaN c
      match f.imm.toNat % 8 with
      | 1 => bad || num a != num c
      | 6 => !bad
      | 7 => bad
      | _ => !bad && test (decide (num a < num c)) (num a == num c)
    let combine (r : Bool) (lane : Nat) : Bool := match f.imm.toNat / 8 with
      | 0 => r | 1 => (b.p[(f.dst.setWidth 3).toNat]).getLsbD lane && r | _ => (b.p[(f.dst.setWidth 3).toNat]).getLsbD lane || r
    -- every active lane, and those before `lane`
    let all (op : LaneOp) : List Nat := (List.range w).filter fun l => on op l
    let before (op : LaneOp) (lane : Nat) : List Nat := (List.range lane).filter fun l => on op l
    let upTo (op : LaneOp) (lane : Nat) : List Nat := before op lane ++ if f.imm.getLsbD 6 then [] else [lane]
    let code := f.imm.toNat % 8
    -- RED and SCAN on Z
    let unit : BitVec n := match code with
      | 1 => if signed then BitVec.intMax n else BitVec.allOnes n
      | 2 => if signed then BitVec.intMin n else 0
      | 3 => BitVec.allOnes n
      | _ => 0
    let join (v y : BitVec n) : BitVec n := match code with
      | 0 => v + y | 1 => if sv v ≤ sv y then v else y | 2 => if sv v ≤ sv y then y else v | 3 => v &&& y | 4 => v ||| y | _ => v ^^^ y
    let folded (op : LaneOp) (ls : List Nat) : BitVec n := ls.foldl (fun v l => join v (x op f.a l)) unit
    -- RED and SCAN on F
    let best (v y : BitVec n) : BitVec n := if (key v ≤ key y) ↔ code = 1 then v else y
    let extreme (op : LaneOp) (ls : List Nat) : BitVec n := match (ls.map fun l => x op f.a l).filter fun v => !isNaN v with
      | [] => nan
      | v :: vs => vs.foldl best v
    let plus (op : LaneOp) (v y : BitVec n) : BitVec n :=
      BitVec.ofNat n (f.ty.fmt.add (s.laneCtx b op f).mode v.toNat y.toNat)
    let running (op : LaneOp) (ls : List Nat) : BitVec n := match ls.map fun l => x op f.a l with
      | [] => 0
      | v :: vs => vs.foldl (plus op) v
    (f.ty.isZ = true → marks .cmp (.laneCmp f) (fun l => combine
      (test (decide (sv (x .cmp f.a l) < sv (x .cmp f.b l))) (x .cmp f.a l == x .cmp f.b l)) l)) ∧
    (f.ty.isF = true → marks .cmp (.laneCmp f) (fun l => combine (testF (x .cmp f.a l) (x .cmp f.b l)) l)) ∧
    (∀ k : BitVec 3, f.imm.toNat % 8 = k.toNat → gives .sel (.laneSel f) n (fun l =>
      if (k = 0 ∨ (b.p[k.toNat]).getLsbD l = true) ↔ f.imm.getLsbD 3 = false then x .sel f.a l else x .sel f.b l)) ∧
    gives .shfl (.laneShfl f) n (fun l =>
      let d := (s.laneCtx b .shfl f).value l f.b .n32 % w
      x .shfl f.a (match f.imm.toNat with
        | 0 => d | 1 => if d ≤ l then l - d else l | 2 => if l + d < w then l + d else l | _ => l ^^^ d)) ∧
    gives .bcast (.laneBcast f) n (fun _ =>
      x .bcast f.a ((x .bcast f.b ((all .bcast).headD 0)).toNat % w)) ∧
    (f.ty.isZ = true →
      gives .red (.laneRed f) n (fun _ => folded .red (all .red)) ∧
      gives .scan (.laneScan f) n (fun l => folded .scan (upTo .scan l))) ∧
    (f.ty.isF = true → code ≠ 0 →
      gives .red (.laneRed f) n (fun _ => match all .red with | [l] => x .red f.a l | ls => extreme .red ls) ∧
      gives .scan (.laneScan f) n (fun l => if upTo .scan l = [] then 0 else extreme .scan (upTo .scan l))) ∧
    (f.ty.isF = true → code = 0 → b.nvr = 1 →
      gives .red (.laneRed f) n (fun _ => running .red (all .red)) ∧
      gives .scan (.laneScan f) n (fun l => running .scan (upTo .scan l))) ∧
    (f.ty.isF = true → code = 0 → b.nvr = 2 → ∀ l0 l1 l2 l3 : Nat,
      (all .red = [l0, l1, l2, l3] → gives .red (.laneRed f) n (fun _ =>
        plus .red (plus .red (x .red f.a l0) (x .red f.a l1)) (plus .red (x .red f.a l2) (x .red f.a l3)))) ∧
      (all .scan = [l0, l1, l2, l3] → gives .scan (.laneScan f) n (fun l =>
        let y := x .scan f.a
        match (upTo .scan l).length with
        | 0 => 0
        | 1 => y l0
        | 2 => plus .scan (y l0) (y l1)
        | 3 => plus .scan (y l0) (plus .scan (y l1) (y l2))
        | _ => plus .scan (plus .scan (y l0) (y l1)) (plus .scan (y l2) (y l3))))) ∧
    gives .matchOp (.laneMatch f) 32 (fun l =>
      let same := (all .matchOp).filter fun j => x .matchOp f.a j == x .matchOp f.a l
      BitVec.ofNat 32 (same.length * 2 ^ 16 + same.headD 0)) ∧
    marks .vote (.laneVote f) (fun _ => match f.imm.toNat with
      | 0 => (all .vote).any fun l => x .vote f.a l != 0
      | 1 => (all .vote).all fun l => x .vote f.a l != 0
      | _ => (all .vote).all fun l => x .vote f.a l == x .vote f.a ((all .vote).headD 0))

/-- R74, R76, R124: the results of the real floating-point instructions, at every format and in every rounding mode, where no
earlier lane write is still uncertain (R195): the first NaN operand made quiet, or the exact result rounded once; the
default NaN of an invalid operation. EXP2 and LOG2 are stated of operands whose exact result is a power of two or an
integer, SIN and COS of the values that R76 lists; elsewhere a bounded precision may leave the model's value open (log 17).
-/
def Obligations.LaneFloatResults : Prop :=
  ∀ (s : State) (b : Block) (f : LaneF), s.party.recent = [] → s.party.b + (s.home s.party).header.window ≤ 1024 →
    f.ty.isF = true →
    let n := f.ty.width
    let t := f.ty.fmt
    let m := Rounding.ofCode (if f.imm.toNat % 8 = 4 then b.rnd.toNat % 4 else f.imm.toNat % 8)
    let sgn := 2 ^ (n - 1)
    let value := Exact.term t
    let infinite (v : Nat) : Bool := v % sgn == t.infinity
    let key (v : Nat) : Int := if v < sgn then v else -((v - sgn : Nat) : Int) - 1
    let gives (op : LaneOp) (i : Instr) (P : Nat → Nat → Nat → Nat → Prop) : Prop :=
      s.laneIssues b op f →
      let x (code : BitVec 8) (lane : Nat) : Nat := (s.laneCtx b op f).value lane code f.ty
      ∃ u, exec i s = .next u ∧ ∀ lane, lane < s.party.width → (s.laneCtx b op f).active.getLsbD lane = true →
        P (x f.a lane) (x f.b lane) (x f.c lane)
          (((u.laneRegister lane f.dst.toNat).toNat + 2 ^ 32 * (u.laneRegister lane (f.dst.toNat + 1)).toNat) % 2 ^ n)
    let one (P : Nat → Nat → Prop) : Nat → Nat → Nat → Nat → Prop := fun x _ _ => Exact.RealOp t [x] (P x)
    gives .neg (.laneNeg f) (one fun x r => r = x ^^^ sgn) ∧
    gives .abs (.laneAbs f) (one fun x r => r = x % sgn) ∧
    gives .min (.laneMin f) (fun x y _ => Exact.RealOp t [x, y] fun r => r = if key x ≤ key y then x else y) ∧
    gives .max (.laneMax f) (fun x y _ => Exact.RealOp t [x, y] fun r => r = if key x ≤ key y then y else x) ∧
    gives .add (.laneAdd f) (fun x y _ => Exact.Adds t m x y) ∧
    gives .sub (.laneSub f) (fun x y _ => Exact.Subtracts t m x y) ∧
    gives .mul (.laneMul f) (fun x y _ => Exact.Multiplies t m x y) ∧
    gives .fma (.laneFma f) (fun x y z => Exact.Fuses t m x y z) ∧
    gives .div (.laneDiv f) (fun x y _ => Exact.RealOp t [x, y] (Exact.Divides t m (value x) (value y))) ∧
    gives .sqrt (.laneSqrt f) (one fun x => Exact.Roots t m (value x)) ∧
    gives .rcp (.laneRcp f) (one fun x => Exact.Divides t m (.num false 1) (value x)) ∧
    gives .rsqrt (.laneRsqrt f) (one fun x => Exact.InverseRoots t m (value x)) ∧
    gives .rint (.laneRint f) (one fun x => Exact.Integral t m x) ∧
    gives .exp2 (.laneExp2 f) (one fun x r =>
      (x = t.infinity → r = t.infinity) ∧ (x = sgn + t.infinity → r = 0) ∧
      ∀ (neg : Bool) (k : Int), value x = .num neg k → Exact.RoundsTo t .rn false (2 ^ k) r) ∧
    gives .log2 (.laneLog2 f) (one fun x r =>
      (x % sgn = 0 → r = sgn + t.infinity) ∧ (sgn < x → r = t.defaultNaN) ∧ (x = t.infinity → r = t.infinity) ∧
      ∀ k : Int, value x = .num false (2 ^ k) → Exact.RoundsTo t .rn false k r) ∧
    gives .sin (.laneSin f) (one fun x r => (x % sgn = 0 → r = x) ∧ (infinite x = true → r = t.defaultNaN)) ∧
    gives .cos (.laneCos f) (one fun x r => (x % sgn = 0 → r = f.ty.one) ∧ (infinite x = true → r = t.defaultNaN))

/-- R71, R77, R86, R125, R129: what the complex instructions leave in vd, part by part, under both values of `nvr`, and what
CVT leaves there, between every two types (R68), where no earlier lane write is still uncertain (R195). An `nvr` that is
neither 1 nor 2 counts as 2 (log 72). -/
def Obligations.ComplexAndConversionResults : Prop :=
  ∀ (s : State) (b : Block) (f : LaneF), s.party.recent = [] → s.party.b + (s.home s.party).header.window ≤ 1024 →
    let mode (code : Nat) : Rounding := Rounding.ofCode (if code = 4 then b.rnd.toNat % 4 else code)
    let gives (op : LaneOp) (i : Instr) (P : Nat → Nat → Prop) : Prop := s.laneIssues b op f →
      ∃ u, exec i s = .next u ∧ ∀ lane, lane < s.party.width → (s.laneCtx b op f).active.getLsbD lane = true →
        P lane (((List.range f.ty.regs).map fun k => 2 ^ (32 * k) * (u.laneRegister lane (f.dst.toNat + k)).toNat).sum)
    let x (op : LaneOp) (code : BitVec 8) (lane : Nat) : Nat := (s.laneCtx b op f).value lane code f.ty
    (f.ty.isC = true →
      let t := f.ty.fmt
      let h := f.ty.width / 2
      let m := mode (f.imm.toNat % 8)
      let parts (v : Nat) : Nat × Nat := (v % 2 ^ h, v / 2 ^ h)
      let pair (op : LaneOp) (i : Instr) (P : (x y z : Nat × Nat) → (re im : Nat) → Prop) : Prop :=
        gives op i fun lane r => P (parts (x op f.a lane)) (parts (x op f.b lane)) (parts (x op f.c lane)) (r % 2 ^ h) (r / 2 ^ h)
      let negated (v : Nat) : Nat → Prop := Exact.RealOp t [v] fun r => r = v ^^^ 2 ^ (h - 1)
      pair .add (.laneAdd f) (fun x y _ re im => Exact.Adds t m x.1 y.1 re ∧ Exact.Adds t m x.2 y.2 im) ∧
      pair .sub (.laneSub f) (fun x y _ re im => Exact.Subtracts t m x.1 y.1 re ∧ Exact.Subtracts t m x.2 y.2 im) ∧
      pair .neg (.laneNeg f) (fun x _ _ re im => negated x.1 re ∧ negated x.2 im) ∧
      pair .conj (.laneConj f) (fun x _ _ re im => re = x.1 ∧ negated x.2 im) ∧
      pair .mul (.laneMul f) (fun x y _ => Exact.ComplexFuses t m b.nvr.toNat x y none) ∧
      pair .fma (.laneFma f) (fun x y z => Exact.ComplexFuses t m b.nvr.toNat x y (some z)) ∧
      pair .div (.laneDiv f) (fun x y _ => Exact.ComplexDivides t m (Exact.term t x.1, Exact.term t x.2) y)) ∧
    (let src := Ty.ofCode (f.imm.extractLsb' 0 4)
     let m := mode (f.imm.toNat / 16 % 8)
     let sat := f.imm.getLsbD 7
     let signed (t : Ty) : Bool := decide (t = .i8 ∨ t = .i16 ∨ t = .i32 ∨ t = .i64)
     let lo (t : Ty) : Int := if signed t then -2 ^ (t.width - 1) else 0
     let hi (t : Ty) : Int := if signed t then 2 ^ (t.width - 1) - 1 else 2 ^ t.width - 1
     let part (t : Ty) : Ty := match t with | .c32 => .f32 | .c64 => .f64 | t => t
     let real (x r : Nat) : Prop :=
       let d := part f.ty
       let e := part src
       let v : Int := if signed e then (BitVec.ofNat e.width x).toInt else x
       if e.isF then
         if d.isF then Exact.FloatToFloat d.fmt e.fmt m sat x r
         else Exact.FloatToInt d.width (lo d) (hi d) e.fmt m sat x r
       else if d.isF then Exact.IntToFloat d.fmt m sat v r
       else r = (BitVec.ofInt d.width (if sat then max (lo d) (min (hi d) v) else v)).toNat
     gives .cvt (.laneCvt f) fun lane r =>
       let v := (s.laneCtx b .cvt f).value lane f.a src
       let half := src.width / 2
       if f.ty.isC then
         ∃ re im, r = re + 2 ^ (f.ty.width / 2) * im ∧ re < 2 ^ (f.ty.width / 2) ∧
           if src.isC then real (v % 2 ^ half) re ∧ real (v / 2 ^ half) im else real v re ∧ im = 0
       else ∃ y, real (if src.isC then v % 2 ^ half else v) y ∧
         r = if f.ty = .i8 ∨ f.ty = .i16 then ((BitVec.ofNat f.ty.width y).signExtend 32).toNat else y)

/-- R78, R82 to R85, R137 to R143: what MMA, MMAS and MMAB leave in element x = 8i + j of each word, in the lane that holds it
where that lane is active, under both values of `nvr`, with operands in registers or in the cluster scratchpad, where every
read is granted and no earlier lane write is still uncertain (R195). A closing subtraction or addition under nvr 1, and the
sign of an MMAB sum that is zero, are log 71; an `nvr` that is neither 1 nor 2 counts as 2 (log 72). -/
def Obligations.MatrixResults : Prop :=
  ∀ (s : State) (b : Block) (f : LaneF), s.party.recent = [] → s.party.redo = none → s.party.part = none →
    s.party.b + (s.home s.party).header.window ≤ 1024 →
    let code := f.imm.toNat % 8
    let m := Rounding.ofCode (if code = 4 then b.rnd.toNat % 4 else code)
    let nvr := b.nvr.toNat
    let total (n e : Nat) (g : Nat → Nat) : Nat := ((List.range n).map fun i => 2 ^ (e * i) * g i).sum
    -- byte `o` of an operand image of word `w`, in rows of `n` bytes, and the `e`-byte element there
    let byte (op : LaneOp) (w : Nat) (scratch : Bool) (field : BitVec 8) (n o : Nat) : Nat :=
      if scratch then
        let v := b.reg (field.toNat - 0x80)
        let addr := 0xFFFD * 2 ^ 48 + v % 2 ^ 32 + w * (b.reg (field.toNat - 0x80 + 1) % 2 ^ 32) + o / n * (v / 2 ^ 32) +
          8 * (o % n / 8)
        match s.access ((s.laneCtx b op f).accessor 0) (BitVec.ofNat 64 addr) 8 1 .read with
        | .ok p => s.valueAt p 8 / 2 ^ (8 * (o % 8)) % 256
        | .error _ => 0
      else (s.laneRegister (32 * w + o / 4 % 32) (field.toNat + o / 128)).toNat / 2 ^ (8 * (o % 4)) % 256
    let elem (byte : Nat → Nat) (o e : Nat) : Nat := total e 8 fun k => byte (o + k)
    let held (t : State) (w field g x : Nat) : Nat :=
      total g 32 fun k => (t.laneRegister (32 * w + x % 32) (field + g * (x / 32) + k)).toNat
    let acc (w g x : Nat) : Nat := if f.c = 0xC0 then 0 else held s w f.c.toNat g x
    let gives (op : LaneOp) (i : Instr) (g : Nat) (granted : Prop) (P : (w x r : Nat) → Prop) : Prop :=
      s.laneIssues b op f → granted →
      ∃ u, exec i s = .next u ∧ ∀ w x, x < 64 → 32 * w + x % 32 < s.party.width →
        (s.laneCtx b op f).active.getLsbD (32 * w + x % 32) = true → P w x (held u w f.dst.toNat g x)
    let reads (op : LaneOp) (na nb : Nat) : Prop :=
      ∀ w, 32 * w < s.party.width → ((s.laneCtx b op f).operands w na nb).denied = []
    -- the kept values of some groups, in ascending logical position
    let kept (nibble : Nat → Nat) (groups : List Nat) : List (Nat × Nat) := groups.flatMap fun g =>
      let p0 := 4 * g + nibble g % 4
      let p1 := 4 * g + nibble g / 4 % 4
      if p1 < p0 then [(2 * g + 1, p1), (2 * g, p0)] else [(2 * g, p0), (2 * g + 1, p1)]
    let e := f.ty.bytes
    let a (w i k : Nat) : Nat := elem (byte .mma w (f.imm.getLsbD 3) f.a 48) (48 * i + k * e) e
    let c (w j k : Nat) : Nat := elem (byte .mma w (f.imm.getLsbD 4) f.b 48) (48 * j + k * e) e
    (f.ty.isF = true → gives .mma (.mma f) f.ty.accRegs (reads .mma 48 48) fun w x =>
      Exact.RowStep (if f.ty = .f64 then .f64 else .f32) f.ty.fmt m nvr
        ((List.range (48 / e)).map fun k => (a w (x / 8) k, c w (x % 8) k)) (acc w f.ty.accRegs x)) ∧
    (f.ty.isC = true → gives .mma (.mma f) f.ty.accRegs (reads .mma 48 48) fun w x r =>
      let h := f.ty.width / 2
      let parts (v : Nat) : Nat × Nat := (v % 2 ^ h, v / 2 ^ h)
      let conj (on : Bool) (v : Nat × Nat) : Nat × Nat := (v.1, if on then v.2 ^^^ 2 ^ (h - 1) else v.2)
      Exact.ComplexRowStep f.ty.fmt m nvr
        ((List.range (48 / e)).map fun k => (conj (f.imm.getLsbD 5) (parts (a w (x / 8) k)),
          conj (f.imm.getLsbD 6) (parts (c w (x % 8) k)))) (parts (acc w f.ty.accRegs x)) (r % 2 ^ h) (r / 2 ^ h)) ∧
    (gives .mmas (.mmas f) 1 (reads .mmas 48 96) fun w x r =>
      let nibble (g : Nat) : Nat :=
        let t := 48 * (x / 8) + 4 * g
        (s.laneRegister (32 * w + t / 16) (f.imm.toNat / 256 % 128)).toNat /
          2 ^ (16 * (f.imm.getLsbD 5).toNat + t % 16) % 16
      let pairs (groups : List Nat) : List (Nat × Nat) := (kept nibble groups).map fun p =>
        (elem (byte .mmas w (f.imm.getLsbD 3) f.a 48) (48 * (x / 8) + 2 * p.1) 2,
         elem (byte .mmas w (f.imm.getLsbD 4) f.b 96) (96 * (x % 8) + 2 * p.2) 2)
      ∃ g, Exact.RowStep .f32 f.ty.fmt m nvr (pairs [0, 1, 2, 3, 4, 5]) (acc w 1 x) g ∧
        Exact.RowStep .f32 f.ty.fmt m nvr (pairs [6, 7, 8, 9, 10, 11]) g r) ∧
    gives .mmab (.mmab f) 1 True fun w x r =>
      let i := x / 8
      let j := x % 8
      let wa := f.imm.toNat % 8 + 2
      let wb := f.imm.toNat / 8 % 8 + 2
      let k := min (384 / wa) (384 / wb)
      let ks := k / 4 * 4
      let row (field : BitVec 8) (i : Nat) : Nat := elem (byte .mmab w false field 48) (48 * i) 48
      let mantissa (field : BitVec 8) (i n k : Nat) : Int := (BitVec.ofNat n (row field i / 2 ^ (n * k))).toInt
      let exponent (field : BitVec 8) (i : Nat) : Nat := (s.laneRegister (32 * w + i) (field.toNat + 3)).toNat % 256
      let nibble (g : Nat) : Nat :=
        let t := i * ks + 4 * g
        (s.laneRegister (32 * w + t % 1024 / 32) (f.a.toNat + 4 + t / 1024)).toNat / 2 ^ (t % 32) % 16
      let places : List (Nat × Nat) :=
        if f.imm.getLsbD 6 then kept nibble (List.range (ks / 4)) else (List.range k).map fun q => (q, q)
      let sum : Int := (places.map fun p => mantissa f.a i wa p.1 * mantissa f.b j wb p.2).sum
      let ea := exponent f.a i
      let eb := exponent f.b j
      let v := acc w 1 x
      if ea = 255 ∨ eb = 255 ∨ Exact.term .f32 v = .nan then r = Fmt.f32.defaultNaN
      else Exact.Sums .f32 .rn [Exact.term .f32 v,
        .num (decide (sum < 0)) (sum * 2 ^ ((ea : Int) + eb - 254 - (wa - 1) - (wb - 1)))] r

/-! ### Lane memory (R174 to R194) -/

/-- R147, R178 to R187, R194: what LD, ST, ATOM, ARED and ACAS do where no lane's part is absent. LD brings every active lane
its element, or zeros where its index lies outside its record, and changes nothing of memory. The others are stated of an
instruction with one active lane: ST stores its value there, an atomic reads the old value, writes the new one (a sum that
wraps or is rounded once, the lesser or greater, a bitwise result: R87, R123, R185), and ATOM and ACAS return the old; an
atomic is stated of a state where no SEMACQ waits (R207). The instruction is then in flight with its lanes ended OK and its
set-flag raised. A denied lane instead leaves it at the head of the queue, its cause pending, and stores nothing. -/
def Obligations.LaneMemory : Prop :=
  ∀ (s : State) (b : Block) (f : LaneF), s.party.recent = [] → s.party.redo = none → s.party.part = none → s.copies = [] →
    s.party.b + (s.home s.party).header.window ≤ 1024 →
    let c (op : LaneOp) : LaneCtx := s.laneCtx b op f
    let active (op : LaneOp) (lane : Nat) : Prop := lane < s.party.width ∧ (c op).active.getLsbD lane = true
    let only (op : LaneOp) (lane : Nat) : Prop := ∀ l, active op l ↔ l = lane
    let bytes (rec : Option Record) : Nat := match rec with | some r => r.enc.bytes | none => f.ty.bytes
    let grants (op : LaneOp) (lane : Nat) (addr : Word) (e : Nat) (need : Rights) (p : Place) : Prop :=
      s.access ((c op).accessor lane) addr e e need = .ok p ∧ s.remote p = false
    let inFlight (op : LaneOp) (t u : State) : Prop :=
      ∃ i : InFlight, t = { u with party := t.party } ∧ t.party.inflight = u.party.inflight ++ [i] ∧ i.op = op ∧ i.f = f ∧
        (∀ l, (l, LaneEnd.ok) ∈ i.ends ↔ active op l) ∧ (∀ x ∈ i.ends, x.2 = .ok) ∧ i.remotes = [] ∧
        t.party.queue.length + (if s.party.laneCtr + 1 < b.len then 0 else 1) = s.party.queue.length ∧
        t.party.flags = (u.party.raiseCount f.set).flags ∧ t.party.p = u.party.p ∧ t.party.s = u.party.s ∧
        t.party.ls = u.party.ls ∧ t.party.st = u.party.st ∧ t.party.pc = u.party.pc
    let holds (t : State) (lane : Nat) (ws : List (BitVec 32)) : Prop :=
      ∀ k, k < ws.length → t.laneRegister lane (f.dst.toNat + k) = (ws[k]?).getD 0
    let wrote (op : LaneOp) (t : State) : Prop := ∀ key, (∀ l k, active op l → k < f.ty.regs →
      key ≠ regKey (s.party.first + l) (s.party.b + (f.dst.toNat + k))) → t.party.laneReg key = s.party.laneReg key
    let address (op : LaneOp) (lane : Nat) (base off : BitVec 8) : Word := (c op).address lane base off 8
    let atomically (op : LaneOp) (i : Instr) (base off : BitVec 8) (returns : Bool) (new : Nat → Nat → Option Nat → Prop) :
        Prop :=
      s.laneIssues b op f → (∀ q ∈ s.parties, ∀ w, q.wait = some w → w.kind ≠ .semacq) →
      ∀ lane p, only op lane → grants op lane (address op lane base off) f.ty.bytes .update p →
        let old := s.valueAt p f.ty.bytes
        let u := s.partyRead p f.ty.bytes
        ∃ t v, exec i s = .next t ∧ new lane old v ∧
          inFlight op t (match v with | some v => (u.partyWrite p (toBytes f.ty.bytes v)).watchAll | none => u) ∧
          if returns then holds t lane (placeValue f.ty old) ∧ wrote op t else t.party.regs = s.party.regs
    (s.laneIssues b .ld f → ∀ el : Nat → Option (Place × Option Record),
      (∀ lane, active .ld lane → match el lane with
        | none => (c .ld).element lane f.a f.b (c .ld).theRecord = .outside
        | some (p, rec) => ∃ addr, (c .ld).element lane f.a f.b (c .ld).theRecord = .at_ addr rec ∧
            grants .ld lane addr (bytes rec) .read p) →
      ∃ t, exec (.laneLd f) s = .next t ∧ inFlight .ld t { s with lines := t.lines } ∧ wrote .ld t ∧
        ∀ lane, active .ld lane → holds t lane (placeValue f.ty (match el lane with
          | none => 0
          | some (p, rec) => match rec with
            | some r => r.load f.ty (s.valueAt p (bytes rec))
            | none => s.valueAt p f.ty.bytes))) ∧
    (s.laneIssues b .st f → ∀ lane, only .st lane →
      ((c .st).element lane f.dst f.a (c .st).theRecord = .outside →
        ∃ t, exec (.laneSt f) s = .next t ∧ inFlight .st t s ∧ t.party.regs = s.party.regs) ∧
      (∀ addr rec p, (c .st).element lane f.dst f.a (c .st).theRecord = .at_ addr rec →
        grants .st lane addr (bytes rec) .write p →
        let v := (c .st).value lane f.b f.ty
        ∃ t, exec (.laneSt f) s = .next t ∧ t.party.regs = s.party.regs ∧ inFlight .st t (s.partyStore p (toBytes (bytes rec)
          (match rec with | some r => r.store f.ty v | none => v)))) ∧
      ∀ addr rec d, (c .st).element lane f.dst f.a (c .st).theRecord = .at_ addr rec →
        s.access ((c .st).accessor lane) addr (bytes rec) (bytes rec) .write = .error d →
        ∃ t q, exec (.laneSt f) s = .next t ∧ t = { s with party := t.party, lines := t.lines } ∧ t.party.pendingLane = some q ∧
          q.cause = d.cause ∧ q.src = 1 ∧ q.addr = addr ∧ q.pc = b.lrun ∧ q.boff = s.party.laneCtr ∧ q.done = 0 ∧
          t.party.queue = s.party.queue ∧ t.party.inflight = s.party.inflight ∧ t.party.regs = s.party.regs) ∧
    (let op := f.imm.toNat / 256 % 8
     let both (ok : Prop) (g : Nat → Nat → Nat → Prop) : Prop := ok →
       atomically .atom (.atom f) f.a f.b true (fun lane old v => ∃ r, v = some r ∧ g old ((c .atom).value lane f.c f.ty) r) ∧
       atomically .ared (.ared f) f.dst f.a false (fun lane old v => ∃ r, v = some r ∧ g old ((c .ared).value lane f.b f.ty) r)
     let n := f.ty.width
     let num (v : Nat) : Int := if f.ty = .i32 ∨ f.ty = .i64 then (BitVec.ofNat n v).toInt else v
     let mag (v : Nat) : Nat := v % 2 ^ (n - 1)
     let nan (v : Nat) : Bool := decide (f.ty.fmt.infinity < mag v)
     let key (v : Nat) : Int := if v < 2 ^ (n - 1) then v else -(mag v : Int) - 1
     let best (x y : Nat) : Nat := if nan x && nan y then f.ty.fmt.defaultNaN else if nan x then y else if nan y then x
       else if (key x ≤ key y) ↔ op = 1 then x else y
     both (f.ty.isZ = true ∧ op = 0) (fun x y r => r = (x + y) % 2 ^ n) ∧
     both (f.ty.isZ = true ∧ op = 1) (fun x y r => r = if num x ≤ num y then x else y) ∧
     both (f.ty.isZ = true ∧ op = 2) (fun x y r => r = if num x ≤ num y then y else x) ∧
     both (f.ty.isF = true ∧ op = 0) (fun x y r => Exact.Adds f.ty.fmt .rn x y r) ∧
     both (f.ty.isF = true ∧ (op = 1 ∨ op = 2)) (fun x y r => r = best x y) ∧
     both (f.ty.isL = true ∧ 3 ≤ op ∧ op ≤ 5) (fun x y r =>
       r = if op = 3 then x &&& y else if op = 4 then x ||| y else x ^^^ y)) ∧
    (f.imm.toNat / 256 % 8 = 6 →
      atomically .atom (.atom f) f.a f.b true (fun lane _ v => v = some ((c .atom).value lane f.c f.ty))) ∧
    atomically .acas (.acas f) f.a f.b true (fun lane old v => v =
      if old = (c .acas).regs lane f.c.toNat f.ty.regs then some ((c .acas).regs lane (f.c.toNat + f.ty.regs) f.ty.regs)
      else none)

/-! ### Events of a party -/

/-- R42, R148, R151, R152, R160, R161, R182, R194, R328: the events of the party in focus. A lane memory instruction whose
lanes have all ended completes: `ls` takes a bit a lane, `st` the first FAULT, POISON or TIMEOUT, its set-flag falls, and
nothing else but what readers wait for changes. A due cause is taken: a latched scalar cause first, then STUCK, then the
lane stream's, which is offered where system software may repair it, latched while lane work is in flight, and otherwise
delivered with the wait in progress withdrawn, after a STUCK of that wait (log 63). A wait whose condition is met, or whose
deadline's tick has passed, ends; one whose own access is denied is withdrawn and its cause taken. Lanes outstanding at an
absent part end POISON at the access bound, and not before. -/
def Obligations.PartyEvents : Prop :=
  ∀ s : State,
    let p := s.party
    let pid := p.pid
    (∀ (i : InFlight) (rest : List InFlight), p.inflight = i :: rest → i.remotes = [] → i.lsWritten = [] → i.anyRemote = false →
      (i.ends.map fun e => e.1).Nodup →
      ∃ t, exec (.laneMemoryCompletion pid) s = .next t ∧ t = { s with party := t.party } ∧
        t.party = { p with inflight := rest, ls := t.party.ls, st := t.party.st, flags := (p.lowerCount i.f.set).flags
                           recent := t.party.recent } ∧
        (∀ l, l < 1024 → t.party.ls.getLsbD l = match i.ends.find? fun e => e.1 == l with
          | some e => e.2 != .ok
          | none => p.ls.getLsbD l) ∧
        ((∀ e ∈ i.ends, e.2 = .ok) → t.party.st = p.st) ∧
        (∀ l c, (i.ends.find? fun e => match e.2 with | .fault c => c != .poison | _ => false) = some (l, .fault c) →
          t.party.st = BitVec.ofNat 64 (0x06 + 256 * c.code)) ∧
        ((∀ e ∈ i.ends, e.2 = .ok ∨ e.2 = .poison) → (∃ e ∈ i.ends, e.2 = .poison) → t.party.st = 0x07)) ∧
    (let u := s.withdrawWait
     let delivers (t : State) : Prop := exec (.trapDelivery pid) s = .next t
     (p.due = false → delivers s) ∧
     (p.due = true → u.party.ready = true → u.party.wait = none →
      (∀ (t : Trap) (sdec : Bool), p.raised = some (t, sdec) → t.lane = false → delivers (s.deliver t sdec)) ∧
      (∀ (t : Trap) (sdec : Bool), p.raised = some (t, sdec) → t.lane = true → p.laneBusy = false → p.stucks = [] →
        delivers (if u.party.stucks = [] then u.deliver t sdec
          else { u with party := { u.party with raised := some (t, sdec) } })) ∧
      (∀ (t x : Trap) (sdec : Bool) (rest : List Trap), p.raised = some (t, sdec) → t.lane = true → p.laneBusy = false →
        p.stucks = x :: rest → u.party.stucks = p.stucks →
        delivers ({ u with party := { u.party with stucks := rest } }.stick x)) ∧
      (∀ t rest, p.raised = none → p.stucks = t :: rest → u.party.stucks = p.stucks →
        delivers ({ u with party := { u.party with stucks := rest } }.stick t)) ∧
      ∀ t, p.raised = none → p.stucks = [] → p.pendingLane = some t →
        if t.cause = .permission ∨ t.cause = .translation then delivers (s.offerTrap t)
        else if p.laneBusy = true then delivers { s with party := { p with raised := some (t, false) } }
        else delivers (if u.party.stucks = [] then u.deliver t false
          else { u with party := { u.party with raised := some (t, false) } }))) ∧
    (∀ (w : Wait) (t : State) (st : Word), p.wait = some w → p.ready = true → w.decided = none →
      w.deadline.passed s p = false → s.attempt w = .ended t st → t.party.evicted = false →
      exec (.waitConditionMet pid) s = .next (t.endWith w st)) ∧
    (∀ w : Wait, p.wait = some w → p.ready = true → w.decided = none → w.deadline.passed s p = false →
      (s.attempt w = .waiting → exec (.waitConditionMet pid) s = .next s) ∧
      ∀ d a, s.attempt w = .trapped d a → d.cause ≠ .poison → exec (.waitConditionMet pid) s = .next
        ({ s with party := { p with wait := none } }.takeTrap
          { (Trap.scalar d.cause p.pc p.pc).denied d a with dest := some w.dest, wait := some w.deadline })) ∧
    (∀ w : Wait, p.wait = some w → p.ready = true → w.decided = none → w.claim = none → w.deadline.passed s p = true →
      exec (.deadlineExpiry pid) s = .next (s.expire w)) ∧
    ∀ i : InFlight, p.inflight = [i] → i.remotes ≠ [] → i.denied = [] →
      let waited := (s.lantern - BitVec.ofNat 64 i.issuedAt).toNat
      (waited < 2 ^ 24 → exec (.accessBoundExpiry pid) s = .next s) ∧
      (2 ^ 24 ≤ waited →
        ∃ t q, exec (.accessBoundExpiry pid) s = .next t ∧ t = { s with party := t.party } ∧ t.party.inflight = [] ∧
          t.party.pendingLane = some q ∧ q.cause = .poison ∧ q.src = 1 ∧ q.pc = i.lrun ∧ q.boff = i.boff ∧
          (∀ x, i.remotes.head? = some x → q.addr = x.2) ∧ t.party.queue = p.queue)

/-- R151, R156, R160, R166, R220, R242, R299, R345, R356, R373: the part acts on a permitted value in a reply word, frees the
ticket and clears the word. Value 1 tries the access again, but for an address out of a window's extent, which counts as
declined (R166). A lane instruction repaired is issued again for the lanes not done. A declined cause is delivered with
`sdec` at the next boundary; one of a trap record or of a reload halts the party; CPYW or LAUNCH past its claim writes its
sequence word and ends FAULT; with its copy made it drops that write, reports it and ends OK, which is the model's reading
(log 32), as it is that a party halts where the fault of its own reload is declined (log 24). A command or task declined before its end fails with the cause, the command's rows arriving
and the task's destination as it was; afterwards the write alone is dropped and reported by an event of kind 4. Value 3
lets a party stopped by STUCK go on at its record's resume address, its bits 1:0 taken as zero (log 72). -/
def Obligations.Answers : Prop :=
  ∀ (s : State) (ctx n : Nat) (tk : Ticket) (sp : Space) (a : Word) (v : Nat),
    (s.tickets.find? fun t => t.ctx == ctx && t.number == n) = some tk → s.replyAt ctx n = some (sp, a) →
    s.load (accessorIn sp) a 8 = .ok v →
    let p := s.party
    let answered (u : State) : Prop := ∀ t,
      { u with tickets := u.tickets.filter fun x => !(x.ctx == ctx && x.number == n) }.save (accessorIn sp) a 8 0 = .ok t →
      exec (.replyAnswer ctx n) s = .next t
    let repaired (o : Offer) : Prop := v = 1 ∧ o.trap.extent = false
    let declined (o : Offer) : Prop := v = 2 ∨ (v = 1 ∧ o.trap.extent = true)
    -- a write dropped is reported in an event of kind 4
    let reported (o : Offer) (owner : Nat) (u : State) (then_ : State → State) : Prop := ∃ e : Event, e.kind = 4 ∧
      e.cause = o.trap.cause.code ∧ e.addr = o.trap.offerAddr ∧ answered (then_ (u.report owner e))
    let free : State := { s with party := { p with offer := none } }
    (∀ o, tk.asker = .party p.pid → p.offer = some o → o.trap.ofRecord = true ∨ p.evicted = true →
      (repaired o → answered free) ∧ (declined o → answered free.halt)) ∧
    (∀ o, tk.asker = .party p.pid → p.evicted = false → p.offer = some o → p.wait = none → p.ready = true →
      o.trap.ofRecord = false →
      ((o.ofLane = false ∨ p.pendingLane = none) → repaired o → answered free) ∧
      (o.ofLane = true → p.pendingLane.isSome = true → repaired o →
        answered { s with party := { p with
          offer := none, pendingLane := none
          redo := if o.trap.src = 1 then some o.trap.done else p.redo
          handlingLane := if o.trap.src = 1 then false else p.handlingLane } }) ∧
      (declined o → answered { s with party := { p with offer := none, raised := some (o.trap, true) } })) ∧
    (∀ o w r, tk.asker = .party p.pid → p.evicted = false → p.offer = some o → o.trap.ofRecord = false →
      (o.ofLane = false ∨ p.pendingLane = none) → p.wait = some w → w.claim = some r →
      (repaired o → answered free) ∧
      (declined o → r.copied = false → ∀ u time,
        free.signalWord (accessorOf (s.home p) p) s.ringAgent r.at_ r.seq.toNat = .ok (u, time) →
        answered ((u.atTime time).endWith w (BitVec.ofNat 64 (0x06 + 256 * o.trap.cause.code)))) ∧
      (declined o → r.copied = true → reported o (s.ctxOf p.launch) free fun u => u.endWith w 0)) ∧
    (tk.asker = .stuck p.pid → p.evicted = false → v = 3 →
      ∀ bs, s.arenaRead (s.home p).space (p.recordAt (s.home p) + 0x10) 8 = .ok bs →
      let at_ : Word := BitVec.ofNat 64 (ofBytes bs) &&& ~~~3
      answered { s with party := { p with stopped := false, offer := none, pc := at_ } }) ∧
    (∀ c o, tk.asker = .command c.id → (s.commands.find? fun x => x.id == c.id) = some c → c.offer = some o →
      let put (u : State) (d : Command) : State := { u with commands := u.commands.map fun x => if x.id = c.id then d else x }
      (repaired o → answered (put s { c with offer := none })) ∧
      (declined o → c.executed = false → answered (put (s.arrivals c (c.rows - c.progress)) { c with
        executed := true, failed := some o.trap.cause.code, offer := none, rowOpen := false, loads := [], stores := []
        got := [] })) ∧
      (declined o → c.executed = true → reported o (s.ctxOf c.launch)
        (put s { c with offer := none, cwaddr := 0, semaddr := if c.cwaddr = 0 then 0 else c.semaddr }) id)) ∧
    (∀ c o, tk.asker = .collective c.id → (s.collectives.find? fun x => x.id == c.id) = some c → c.offer = some o →
      let put (d : Collective) : State := { s with collectives := s.collectives.map fun x => if x.id = c.id then d else x }
      (repaired o → answered (put { c with offer := none })) ∧
      (declined o → c.finished = false →
        answered (put { c with failed := c.failed.or (some o.trap.cause.code), offer := none })) ∧
      (declined o → c.finished = true → reported o (s.ctxOf c.launch) (put { c with cwaddr := 0, offer := none }) id)) ∧
    (∀ t o, tk.asker = .task t.id → (s.tasks.find? fun x => x.id == t.id) = some t → t.offer = some o →
      let u : State := { s with taskImages := s.taskImages.filter fun i => i.1 != t.id }
      let put (u : State) (d : Task) : State := { u with tasks := u.tasks.map fun x => if x.id = t.id then d else x }
      let ended : Task := { t with offer := none, unit := none, stage := .ended (BitVec.ofNat 64 (0x06 + 256 * o.trap.cause.code)) }
      (repaired o → t.stage ≠ .queued → answered (put u { t with offer := none })) ∧
      (declined o → (∀ x ∈ s.tasks, x.id ≠ t.id → x.awaitsUnit = false) →
        ((∀ size ws h f st old, t.stage ≠ .commit size ws (some h) f st old) → answered (put u ended)) ∧
        (∀ size ws new f st old h, t.stage = .commit size ws (some new) f st old → t.head = some h →
          new.kind = 0 ∨ new.block = h.block → answered (put (old.foldl (fun x e => x.putBack t size e) u) ended)))) ∧
    -- a value that a task had overwritten in memory stands again where it stood
    (∀ (t : Task) (size a pa key home val : Nat), s.putBack t size (a, .phys pa key home, val) =
      (s.storeAs t.agent (s.holder pa key) (toBytes size val)).1) ∧
    ((∀ q, tk.asker ≠ .stuck q) → v ≠ 1 → v ≠ 2 → exec (.replyAnswer ctx n) s = .next s)

/-! ### Events of the engines -/

/-- R201, R216 to R218, R220, R221, R233 to R235, R241 to R246, R257, R261: the events of the Siphon and the tile engines. The
oldest request of a core is granted where there is room, in replay in its party's turn. A command that may start moves its
payload, stated of one row of CPYT, GATH and SCAT, and each row arrives; once executed it writes its completion word, then
adds to its semaphore, and leaves the queue. An idle engine takes the next task and works on it; Flowstone recompresses its
factors, and waiting tasks take free units, the earliest accepted first (log 69). A task whose result is known writes it
where R235 has it, then its header, and frees the old block; TLSTORE and TLNORM write their values; a task that ends leaves
its Gallery with its status ranked into its party's batch. A retiring node whose readers are gone becomes free. -/
def Obligations.EngineEvents : Prop :=
  ∀ s : State,
    let p := s.party
    (∀ (w : Wait) (l : List Command) (t : State), s.alone → p.live = true → p.evicted = false → s.turnAllows p.pid = true →
      p.wait = some w → w.kind = .accept → w.decided = none → w.work = .commands l → s.acceptCommands p l = some t →
      exec (.siphonEntryGrant p.core) s = .next (t.endWith w 0)) ∧
    (∀ (w : Wait) (k : Task) (t : State), s.alone → p.live = true → p.evicted = false → s.turnAllows p.pid = true →
      p.wait = some w → w.kind = .accept → w.decided = none → w.work = .task k → s.acceptTask p k = some t →
      exec (.galleryEntryGrant p.core) s = .next (t.endWith w 0)) ∧
    (∀ c : Command, (s.commands.find? fun x => x.id == c.id) = some c → s.mayStart c = true →
      c.sparse = none → c.rows = 1 → c.count = 1 → c.progress = 0 → c.rowOpen = false → c.loads = [] → c.stores = [] →
      c.got = [] → c.held = [] →
      let ac := s.commandAccessor c
      -- one row of `d`: what is read at `from_`, or zeros, is written at `to_`
      let moves (d : Command) (from_ : Option (List (Word × Nat))) (to_ : List (Word × Nat)) : Prop :=
        ∀ got time w,
          (match from_ with
            | some l => s.readRow ac d.agent l
            | none => .ok (to_.flatMap fun (e : Word × Nat) => List.replicate e.2 (0, false), d.time)) = .ok (got, time) →
          writeRow ac s { d.agent with time := time } to_ got = .ok w →
          exec (.siphonCommandExecute c.id) s = .next ((w.s.arrivals { d with time := w.time } 1).putCommand { d with
            progress := 1, executed := true, time := w.time, failed := if w.lost then some 0x14 else d.failed })
      -- the row that the index word names
      let indexed (g : Command → Nat → Prop) : Prop := ∀ got time, s.readRow ac c.agent [(c.aux, 4)] = .ok (got, time) →
        let x := ofBytes ((got.take 4).map Prod.fst)
        g { c with held := [x], time := time, failed := if got.any (fun b => b.2) then some 0x14 else c.failed } x
      (c.kind = 0 → moves c (some (c.slay.rowEvents c.src 0)) (c.dlay.rowEvents c.dst 0)) ∧
      (c.kind = 1 → indexed fun d x =>
        moves d (if x < c.slay.shape.1 then some (c.slay.rowEvents c.src x) else none) (c.dlay.rowEvents c.dst 0)) ∧
      (c.kind = 2 → indexed fun d x =>
        moves d (some (c.slay.rowEvents c.src 0)) (if x < c.dlay.shape.1 then c.dlay.rowEvents c.dst x else []))) ∧
    (∀ (c : Command), (s.commands.find? fun x => x.id == c.id) = some c → s.mayStart c = false →
      exec (.siphonCommandExecute c.id) s = .next s) ∧
    (∀ (c : Command) (u v : State) (time end_ : Nat), (s.commands.find? fun x => x.id == c.id) = some c → c.executed = true → c.offer = none →
      (if c.cwaddr = 0 then .ok (s, c.time) else s.signalWord (s.commandAccessor c) c.agent c.cwaddr
        (match c.failed with | some k => 2 ^ 63 + k | none => c.cwval.toNat)) = .ok (u, time) →
      (if c.semaddr = 0 then .ok (u, time) else
        u.release (s.commandAccessor c) { c.agent with time := time + 1 } c.semaddr 1) = .ok (v, end_) →
      (∀ x ∈ v.commands, x.pred ≠ some c.id) →
      exec (.commandCompletion c.id) s = .next { v with
        commands := v.commands.filter fun x => x.id != c.id, synced := Nat.max v.synced (end_ + 1) }) ∧
    (∀ (engine : Nat) (t : Task), s.engineIdle engine = true → engine < 512 → s.nextTask engine = some t →
      let r : Task := { t with started := true, engine := engine }
      (∀ u, (s.putTask r).engineWork r = .ok u →
        exec (.taskStart engine) s = .next ((s.putTask r).putTask u).assignUnits) ∧
      ∀ st, (s.putTask r).engineWork r = .error (.ended st) →
        exec (.taskStart engine) s = .next ((s.putTask r).putTask { r with stage := .ended st })) ∧
    (∀ (engine : Nat), s.nextTask engine = none → exec (.taskStart engine) s = .next s) ∧
    (∀ t ∈ s.tasks, (s.tasks.map fun x => x.id).Nodup → (∀ x ∈ s.tasks, x.awaitsUnit = true ↔ x = t) →
      let free (k : Nat) : Bool := !s.tasks.any fun x => clusterOfCore x.core == clusterOfCore t.core && x.unit == some k
      let units := if (s.taskLaunch t).header.replay then [t.core % 2] else [0, 1]
      s.assignUnits = match units.find? free with
        | some k => s.putTask { t with unit := some k, released := true }
        | none => s) ∧
    (∀ (t : Task) (u v : List Nat) (k : Nat), (s.tasks.find? fun x => x.id == t.id) = some t → t.stage = .flow u v →
      t.unit = some k →
      let r := flowstone (tileTy t.fmt) (tileDim t.shape) t.ctl.toNat (t.op == 4) none u v
      exec (.flowstoneRecompression t.id) s = .next (s.putTask { t with
        unit := none
        stage := if r.invalid then .result r.v [] [] 0 else .result r.v u v (match r.capped with
          | some k => 0x21 ||| BitVec.ofNat 64 (k * 2 ^ 8)
          | none => 0) }).assignUnits) ∧
    (∀ t : Task, (s.tasks.find? fun x => x.id == t.id) = some t → t.offer = none →
      let ac := s.taskAccessor t
      let retires (u : State) : Prop := exec (.taskRetire t.id) s = .next u
      (∀ st, t.stage = .ended st → retires (s.retireTask t st)) ∧
      (∀ size cells w, t.stage = .image size cells → writeCells ac size s t.agent cells = .ok w → w.lost = false →
        retires (w.s.retireTask { t with time := w.time } 0)) ∧
      (∀ (v : TileVal) (u w : List Nat) (st : Word), t.stage = .result v u w st → t.head = none →
        ∀ d, s.engineWrite ac t.agent (t.val 0) (Span.clean
          (headerBytes 0 t.fmt t.shape 0 0 (bitsOf t.ctl.toNat 8 3) 0 t.batch 0) t.time) = .ok d → d.lost = false →
        retires (d.s.retireTask { t with time := d.time } 0)) ∧
      ∀ (v : TileVal) (u w : List Nat) (st : Word) (h : TileHead), t.stage = .result v u w st → t.head = some h →
        (t.requests h v = true → s.requestsWait t = false) →
        let e := (tileTy t.fmt).bytes
        let need := t.needClass v
        let holds := h.kind != 0
        let pool := s.poolOf t h
        -- the tile written to `block` of class `cls`, and the old block freed or kept
        let stores (s0 : State) (t0 : Task) (block : Word) (cls : Nat) (freed : Bool) : Prop :=
          let cells := v.elements.zipIdx.flatMap fun x => elementWrites e (block + BitVec.ofNat 64 (x.2 * e)) x.1
          let new : TileHead := { kind := v.kind, fmt := t.fmt, shape := t.shape, rank := v.rank, cls := cls, pool := h.pool
                                  gen := h.gen + 1, block := block }
          let size := Nat.min e 8
          let old := if h.kind ≠ 0 ∧ block = h.block then s0.standing t0 size cells else []
          let t1 : Task := { t0 with
            stage := .commit size cells (some new) (if freed then some (h.block, h.cls) else none) st old }
          let s1 := s0.putTask t1
          (∃ x, s0.windowSpan (s0.taskAccessor t0) (t.val 0).toNat 64 .write = .ok x) →
          (freed = true → ∀ y, (s0.poolOf t0 h).nodeOf h.block h.cls = some y →
            ∃ z, s0.chunkPlace (s0.taskAccessor t0) ((s0.poolOf t0 h).stateAt y.1) .update = .ok z) →
          (cells ≠ [] → ∃ x, s0.windowSpan (s0.taskAccessor t0) block.toNat 1 .write = .ok x) →
          ∀ c d r, writeCells (s1.taskAccessor t) size s1 t0.agent cells = .ok c → c.lost = false →
            c.s.engineWrite (c.s.taskAccessor t) { t0.agent with time := c.time } (t.val 0) (Span.clean (headerBytes v.kind
              t.fmt t.shape v.rank cls h.pool (h.gen + 1) t.batch block) c.time) = .ok d → d.lost = false →
            (if freed then d.s.freeBlock { t0.agent with time := d.time } (d.s.taskAccessor t) (d.s.taskLaunch t)
              (d.s.poolOf t new) h.block h.cls else .ok (some (d.s, d.time))) = .ok (some r) →
            retires (r.1.retireTask { t with time := r.2 } st)
        let block := s.requestBlock t.agent ac pool need
        (v.kind = 0 → stores s t 0 0 holds) ∧
        (v.kind ≠ 0 → holds = true → need = h.cls → stores s t h.block h.cls false) ∧
        (v.kind ≠ 0 → (holds = false ∨ need ≠ h.cls) →
          ∀ s0 time b, block = .ok (some (s0, time, b)) → stores s0 { t with time := time } b need holds) ∧
        (v.kind ≠ 0 → holds = true → need < h.cls → block = .ok none → stores s t h.block h.cls false) ∧
        (v.kind ≠ 0 → (holds = false ∨ h.cls < need) → block = .ok none → (u = [] ∨ t.bit 39 = false) →
          let t1 : Task := { t with stage := .ended (0x20 ||| BitVec.ofNat 64 (need * 2 ^ 8)) }
          retires ((s.putTask t1).retireTask t1 (0x20 ||| BitVec.ofNat 64 (need * 2 ^ 8))))) ∧
    (∀ (t : Task) (st : Word), t.members = [p.pid] → p.evicted = false → (∀ x ∈ s.tasks, s.depends x t = false) →
      let u := s.retireTask t st
      let i := t.batch % 256
      let order (x : Nat) : Nat := [0x08, 0x06, 0x07, 0x20, 0x21].idxOf (x % 256)
      let old := (Table.get 0 p.batches i).toNat
      let better := order st.toNat < 5 ∧
        (order st.toNat < order old ∨ (order st.toNat = order old ∧ t.id < Table.get 0 p.batchBy i))
      u = { s with
        copies := u.copies
        tasks := s.tasks.filter fun x => x.id != t.id
        synced := Nat.max s.synced (t.time + 1)
        party := { p with batches := u.party.batches, batchBy := u.party.batchBy } } ∧
      ∀ j, Table.get 0 u.party.batches j = if j = i ∧ better then st.setWidth 32 else Table.get 0 p.batches j) ∧
    (s.retiring = [] → exec .cavernQuiescence s = .next s) ∧
    ∀ (r : Retiring) (w : Nat) (u : State × Nat), s.retiring = [r] → (∀ x ∈ s.tasks, x.id ∉ r.tasks) →
      s.chunkState (accessorIn r.space) r.state = .ok w →
      s.setChunk { Agent.part with path := 3 } (accessorIn r.space) r.state (mergeUp (setNode w r.node 0) r.node 7) = .ok u →
      let free := u.1.forgetBlock r.block
      exec .cavernQuiescence s = .next { free with retiring := free.retiring.filter fun x => x != r } ∧
      free = { u.1 with copies := free.copies } ∧ ∀ x ∈ free.copies, x ∈ u.1.copies

/-! ### Tiles and Flowstone (R227 to R277) -/

/-- R227, R237, R238, R246 to R254: what an engine forms of the tiles that a task reads, element by element: TLFAC, TLADD,
TLMUL, TLLU, TLINV, TLTRS and TLRND by kind, TLLOAD's and TLSTORE's elements at their addresses, TLCVT and TLNORM. Factors
are those handed to Flowstone. An `nvr` that is neither 1 nor 2 counts as 2 (log 72). -/
def Obligations.TileResults : Prop :=
  (∀ (t : Task) (fmt m : Nat) (vs : List TileVal), fmt ≤ 4 → 0 < m → (∀ v ∈ vs, Exact.sized (tileTy fmt) m v) →
    let ty := tileTy fmt
    let wide : Ty := if ty.isC then .c64 else .f64
    let work : Ty := if ty = .bf16 then .f32 else ty
    let r := t.form fmt m vs
    let v (i : Nat) : TileVal := (vs[i]?).getD .zero
    let side (on : Bool) (x : TileVal) : TileVal := if on then Exact.transposed ty m x else x
    let unit : List Nat := (List.range (m * m)).map fun i => if i / m = i % m then wide.one else 0
    (t.op = 4 → match v 0 with
      | .dense e => ∃ u, Exact.ConvertedAll wide ty e u ∧ r = .factors u unit
      | x => Exact.Passed wide ty x r) ∧
    (t.op = 5 → Exact.AddsTiles ty wide m (t.ctl.getLsbD 40) (v 0) (v 1) r) ∧
    (t.op = 6 → Exact.MultipliesTiles ty work wide m t.nvr (t.ctl.getLsbD 40) (side (t.ctl.getLsbD 41) (v 0))
      (side (t.ctl.getLsbD 42) (v 1)) (v 2) r) ∧
    (t.op = 7 → ∃ x d, Exact.Expanded work ty m (v 0) x ∧ r = .tile d ∧
      Exact.DenseFrom ty work (Exact.Factors work m x) d) ∧
    (t.op = 8 → ∃ x a y d, Exact.Expanded work ty m (v 0) x ∧ Exact.Factors work m x a ∧
      Exact.Solves work m m a false true ((List.range (m * m)).map fun i => if i / m = i % m then work.one else 0) y ∧
      r = .tile d ∧ Exact.DenseFrom ty work (Exact.Solves work m m a true false y) d) ∧
    (t.op = 9 → Exact.SolvesTile ty work wide m (t.ctl.getLsbD 43) (t.ctl.getLsbD 44) (t.ctl.getLsbD 45) (v 0) (v 1) r) ∧
    (t.op = 10 → Exact.Passed wide ty (v 0) r)) ∧
  ∀ (s : State) (t t1 t2 : Task) (fmt shape : Nat) (vs : List TileVal),
    let ty := tileTy fmt
    let m := 16 * 2 ^ shape
    let e := ty.bytes
    let word := t.val 2
    let address (i j : Nat) : Word := t.val 1 + BitVec.ofNat 64
      (if word.getLsbD 32 then i * (word.toNat % 2 ^ 32) + j * e else j * (word.toNat % 2 ^ 32) + i * e)
    let conj (x : Nat) : Nat := if word.getLsbD 33 then Exact.conj ty x else x
    let image (size : Nat) (cells : List (Nat × Nat)) : Prop :=
      s.engineWork t = .ok { t2 with fmt := fmt, shape := shape, stage := .image size cells }
    (∀ h, s.readHead t (t.val 0) = .ok (t1, h) →
      let u : Task := { t1 with head := some h }
      (4 ≤ t.op → t.op ≤ 10 → s.readOperands u (if t.op = 5 ∨ t.op = 9 then [1, 2] else if t.op = 6 then [1, 2, 3] else [1])
        (some h) = .ok (t2, fmt, shape, vs) → s.engineWork t = .ok (t2.formed fmt shape (t2.form fmt m vs))) ∧
      (t.op = 11 → s.readOperands u [1] none = .ok (t2, fmt, shape, vs) →
        let dst := tileTy (word.toNat % 8)
        dst.isC = ty.isC → (∀ v ∈ vs, Exact.sized ty m v) →
        ∃ v, s.engineWork t = .ok (t2.formed (word.toNat % 8) shape (.tile v)) ∧ match vs.headD .zero, v with
          | .zero, .zero => True
          | .dense x, .dense y => Exact.ConvertedAll dst ty x y
          | .low n x y, .low k p q => n = k ∧ Exact.ConvertedAll dst ty x p ∧ Exact.ConvertedAll dst ty y q
          | _, _ => False) ∧
      (t.op = 2 → badMemory h.fmt (t.val 1) word = false → h.fmt = fmt → h.shape = shape →
        ∀ l, s.loadMatrix u fmt m = .ok (t2, l) → s.engineWork t = .ok (t2.formed fmt shape (.tile (.dense l))) ∧
          l.length = m * m ∧ ∀ i j, i < m → j < m → ∃ time sp,
            s.engineRead (s.taskAccessor t) { t.agent with time := time } (address i j) e (min e 8) = .ok sp ∧
            Exact.entry l m i j = conj (ofBytes sp.bytes))) ∧
    (t.op = 3 → s.readOperands t [0] none = .ok (t2, fmt, shape, vs) → badMemory fmt (t.val 1) word = false →
      (∀ v ∈ vs, Exact.sized ty m v) →
      ∃ l, image (min e 8) ((List.range (m * m)).flatMap fun k =>
          elementWrites e (address (k % m) (k / m)) (conj (l.getD k 0))) ∧
        match vs.headD .zero with
        | .dense x => l = x
        | x => Exact.Matrix m m (fun i j => Exact.Rounded ty fun im => Exact.elem ty m x im i j) l) ∧
    (t.op = 12 → s.readOperands t [1] none = .ok (t2, fmt, shape, vs) → (∀ v ∈ vs, Exact.sized ty m v) →
      ∃ n, image 8 [((t.val 0).toNat, n)] ∧ Exact.NormOf ty m (vs.headD .zero) n)

/-- R249, R265 to R276: Flowstone's result. A factor that is not finite gives the default-NaN tile (R267); a pair whose first
factor is zero gives the zero tile. Whatever the factors, a result is dense only where no rank was forced, low-rank of at
most the cap and the forced rank, with factors of that size, capped where it reports its own rank, or zero; TLFAC of a
dense tile that stays dense keeps its bits. For a single pair of real columns every rounding is stated: the reflectors of
R268, the coupling of R270, the singular value and its tail (R272, R273), the rank (R274) and the columns of the result
(R269, R275). -/
def Obligations.FlowstoneResults : Prop :=
  (∀ (ty : Ty) (m ctl : Nat) (keep : Bool) (limit : Option Nat) (u v : List Nat),
    (∃ fmt ≤ 4, ty = tileTy fmt) → 0 < m → (∃ q, Exact.term .f32 (ctl % 2 ^ 31) = .num false q) →
    let wide : Ty := if ty.isC then .c64 else .f64
    let r := flowstone ty m ctl keep limit u v
    let nan : TileVal := .dense (List.replicate (m * m)
      (if ty.isC then ty.fmt.defaultNaN + 2 ^ ty.fmt.bits * ty.fmt.defaultNaN else ty.fmt.defaultNaN))
    let cap := if ctl / 2 ^ 32 % 2 ^ 6 = 0 then m / 2 else min (ctl / 2 ^ 32 % 2 ^ 6) (m / 2)
    let finite (x : Nat) : Bool := ([false, true].filter fun im => !im || ty.isC).all fun im =>
      match Exact.part wide im x with | .num _ _ => true | _ => false
    (∀ n, u.length = m * n → v.length = m * n → (u.any (fun x => !finite x) = true ∨ v.any (fun x => !finite x) = true) →
      r = { v := nan, capped := none, invalid := true }) ∧
    (r.invalid = true → r.v = nan ∧ r.capped = none) ∧
    (∀ n, 0 < n → n ≤ m → u = List.replicate (m * n) 0 → v.length = m * n → v.all finite = true → r.invalid = false →
      r.v = .zero) ∧
    (r.invalid = false → ∀ n, u.length = m * n → v.length = m * n → n ≤ m → match r.v with
      | .zero => True
      | .dense e => limit = none ∧ r.capped = none ∧ (keep = false → e.length = m * m)
      | .low k p q => 0 < k ∧ k ≤ cap ∧ k ≤ limit.getD (m / 2) ∧ p.length = m * k ∧ q.length = m * k ∧
          ∀ c, r.capped = some c → c = k) ∧
    (∀ e, Exact.ConvertedAll wide ty e u → e.length = m * m → (∀ x ∈ e, x < 2 ^ ty.width) → keep = true →
      r.invalid = false → ∀ d, r.v = .dense d → d = e)) ∧
  ∀ (ty : Ty) (m ctl : Nat) (u v : List Nat), ty = .f64 ∨ ty = .f32 ∨ ty = .bf16 → 1 < m / 2 →
    u.length = m → v.length = m → (∀ x ∈ u ++ v, x < 2 ^ 64) →
    let val (x : Nat) : Exact.Term := Exact.term .f64 x
    let sum (ts : List Exact.Term) : Nat → Prop := Exact.Sums .f64 .rn ts
    let root (ts : List Exact.Term) : Nat → Prop := Exact.Roots .f64 .rn (Exact.total .rn ts)
    let finite (x : Nat) : Prop := ∃ s q, val x = .num s q
    let squares (l : List Nat) : List Exact.Term := l.map fun x => (val x).mul (val x)
    -- the reflector of one column: β, v and w of R268
    let reflector (x : List Nat) (beta : Nat) (y : List Nat) (w : Nat) : Prop := ∃ n y0, root (squares x) n ∧
      beta = (if Fmt.f64.negative (x.headD 0) = true ∧ val (x.headD 0) ≠ .num true 0 then n else n ^^^ 2 ^ 63) ∧
      sum [val (x.headD 0), (val beta).neg] y0 ∧ y = y0 :: x.tail ∧ sum (squares y) w ∧ finite n ∧ finite y0 ∧ finite w
    -- a column with the reflector applied (R269), narrowed
    let applied (x y : List Nat) (w : Nat) (col : List Nat) : Prop := ∃ d f z,
      sum ((y.zip x).map fun p => (val p.1).mul (val p.2)) d ∧ Exact.Divides .f64 .rn ((Exact.Term.num false 2).mul (val d)) (val w) f ∧
      List.Forall₂ (fun p a => sum [val p.1, ((val p.2).mul (val f)).neg] a ∧ finite a) (x.zip y) z ∧ finite d ∧ finite f ∧
      List.Forall₂ (fun a b => Exact.Sums ty.fmt .rn [val a] b) z col
    let tol := Exact.term .f32 (ctl % 2 ^ 31)
    ∀ bu yu wu bv yv wv mu sigma tail tau, reflector u bu yu wu → reflector v bv yv wv →
      (Exact.total .rn (squares u)).value ≠ 0 → (Exact.total .rn (squares v)).value ≠ 0 →
      sum [(val bu).mul (val bv)] mu → root (squares [mu]) sigma →
      sum [.num false 0, (val sigma).mul (val sigma)] tail →
      (if ctl / 2 ^ 38 % 2 = 0 then tau = tol.value else ∃ fro, root [val tail] fro ∧ ∃ g, sum [tol.mul (val fro)] g ∧
        finite fro ∧ finite g ∧ tau = (val g).value) →
      (∃ q, tol = .num false q) → finite mu → finite sigma → finite tail →
      let r := flowstone ty m ctl false none u v
      if (val tail).value ≤ tau * tau then r = { v := .zero, capped := none, invalid := false }
      else ∀ p q, applied (mu :: List.replicate (m - 1) 0) yu wu p →
        applied (Fmt.f64.bias * 2 ^ 52 :: List.replicate (m - 1) 0) yv wv q →
        r = { v := .low 1 p q, capped := none, invalid := false }

/-! ### The front end (R43, R344 to R351) -/

/-- R347, R349: LAUNCH_TAKE takes the next slot of an enabled queue whose ring is good, and the launch is held until its
entries are met, or refused with its first reason; a bad ring is reported at each look (log 42). DEPENDENCE_MET reads the
entries again; the launch comes after the words that met them. R43, R297, R351: GROUP_PLACEMENT places the next group of a
launch whose turn it is at its target, once it fits there, else at the place that R351 chooses (log 23), and where it fits
nowhere gives it a target; each party starts as R43 leaves it, no earlier than the high-water mark of its core (R319; log
67). R350: LAUNCH_END writes the completion word, or drops that write and reports it where the word's line of 128 bytes is
poisoned (log 51), and drops the launch. -/
def Obligations.FrontEndEvents : Prop :=
  (∀ (s t u : State) (queue ctx time : Nat) (hdr slot seq : Word) (sp : Space) (r : Ring) (bs : List Byte),
    s.queueOf queue = some (ctx, hdr) → s.held = false → s.served ctx = true → s.spaceOf ctx = some sp →
    (s.launches.any fun l => l.queue == queue && l.placed == 0) = false → s.ring (accessorIn sp) hdr = .ok r →
    (r.ok = false ∨ r.z ≠ 256 → exec (.launchTake queue) s = .next (s.refuse ctx queue 2)) ∧
    (r.ok = true → r.z = 256 → s.claimTake .part 0 (accessorIn sp) hdr r = .ok (.slot t time slot seq) →
      t.arenaRead sp (slot + 16).toNat 256 = .ok bs → t.save (accessorIn sp) slot 8 seq.toNat = .ok u → needsExt bs = false →
      (refusals bs [] false = [] → exec (.launchTake queue) s = .next { u with
        launches := u.launches ++ [{ Launch.blank with
          id := u.ids, queue := queue, space := sp, header := Header.ofBytes bs [], time := time, since := u.lantern.toNat }]
        ids := u.ids + 1 }) ∧
      (∀ reason rest, refusals bs [] false = reason :: rest →
        exec (.launchTake queue) s = .next (u.refuse sp.ctx queue reason)))) ∧
  (∀ (s : State) (l : Launch), s.launch? l.id = some l →
    (∀ now, l.placed = 0 → s.readEntries l.space l.header.after = some now →
      ∃ x : Launch, exec (.dependenceMet l.id) s = .next (s.putLaunch x) ∧
        x = { l with met := (l.met.zip now).map (fun e => e.1 || e.2), time := x.time } ∧ l.time ≤ x.time ∧
        ∀ (i : Nat) (e : Word × Word) (p : Place), l.header.after[i]? = some e → l.met[i]? = some false → now[i]? = some true →
          s.access (accessorIn l.space) e.1 8 8 .read = .ok p → s.writtenAt p 8 ≤ x.time) ∧
    (s.held = false → s.awaitsPlacement l = true → s.overtaken l = false → l.header.replay = false → ∀ core quads,
      (s.placeFor l = some (core, quads) →
        ∃ t : State, (exec (.groupPlacement l.id core quads) s = .next t ∨
            ∃ pid, exec (.groupPlacement l.id core quads) s = .next (t.focus pid)) ∧
          (∀ k q, quads[k]? = some q → ∃ x ∈ t.parties, ∃ pid slot,
            x = l.newParty pid l.placed core q slot k (max (Table.get 0 s.marks core) l.time)) ∧
          (∃ g ∈ t.groups, g.launch = l.id ∧ g.number = l.placed ∧ g.core = core ∧ g.ended = false ∧
            g.leaf = List.replicate 16 (Barrier.fresh l.header.lanes)) ∧
          t.lastQueue = l.queue) ∧
      (∀ place, s.placeFor l = some place → place ≠ (core, quads) → exec (.groupPlacement l.id core quads) s = .next s) ∧
      (s.placeFor l = none → l.targets = [] → s.targetFor l = some (core, quads) →
        exec (.groupPlacement l.id core quads) s = .next (s.putLaunch { l with targets := [(core, quads)] })) ∧
      (s.placeFor l = none → l.targets ≠ [] → exec (.groupPlacement l.id core quads) s = .next s)) ∧
    -- a target that fits is the place; without one, the cluster and then the core with the most free lanes, the lower at a tie
    (∀ e rest, l.targets = e :: rest → s.clusterAllowed l (clusterOfCore e.1) = true → s.fits l.header e.1 e.2 = true →
      s.placeFor l = some e) ∧
    (∀ core quads, l.targets = [] → s.placeFor l = some (core, quads) →
      let lanes (k : Nat) : Nat := ((List.range 8).map fun i => s.freeLanes (8 * k + i)).sum
      s.fits l.header core quads = true ∧ s.clusterAllowed l (core / 8) = true ∧
      ∀ c, c < 128 → s.clusterAllowed l (c / 8) = true → s.coreRoom l.header c = true →
        (s.quadsFor l .free c l.header.parties []).isSome = true →
        (lanes (c / 8) < lanes (core / 8) ∨ (lanes (c / 8) = lanes (core / 8) ∧ core / 8 ≤ c / 8)) ∧
        (c / 8 = core / 8 → s.freeLanes c < s.freeLanes core ∨ (s.freeLanes c = s.freeLanes core ∧ core ≤ c))) ∧
    (s.awaitsPlacement l = true → l.since + 2 ^ 20 ≤ s.lantern.toNat →
      exec (.placementAging l.id) s = .next (s.putLaunch { l with aged := true })) ∧
    (s.launchOver l = true → l.header.done = 0 → exec (.launchEnd l.id) s = .next (s.forget l.id)) ∧
    (∀ p, s.launchOver l = true → l.header.done ≠ 0 → s.writePlaceOf (accessorIn l.space) l.header.done 8 .write = .ok p →
      (s.poisonedPlace p.line 128 = false → exec (.launchEnd l.id) s = .next ((s.signalLaunch p l.header.doneval).forget l.id)) ∧
      (s.poisonedPlace p.line 128 = true → ∃ e : Event, e.kind = 4 ∧ e.cause = 0x14 ∧ e.addr = l.header.done ∧
        exec (.launchEnd l.id) s = .next ((s.report l.space.ctx e).forget l.id))) ∧
    (s.launchOver l = false → exec (.launchEnd l.id) s = .next s) ∧
    (s.forget l.id).launch? l.id = none ∧ (∀ g ∈ (s.forget l.id).groups, g.launch ≠ l.id)) ∧
  ∀ (l : Launch) (pid g core quad slot k pt : Nat),
    let x := l.newParty pid g core quad slot k pt
    let h := l.header
    x.pc = h.scalar ∧ x.reg 1 = h.data ∧ (∀ r, r ≠ 1 → x.reg r = 0) ∧ x.mask 0 = BitVec.ofNat 1024 (2 ^ h.width - 1) ∧
    (∀ m, m ≠ 0 → x.mask m = 0) ∧ x.ls = 0 ∧ (∀ d, x.deadlineReg d = 0) ∧ x.ptime = 0 ∧ x.retired = 0 ∧ x.st = 0 ∧
    x.rnd = 0 ∧ x.nvr = h.nvr ∧ x.xcount = 0 ∧ x.b = 0 ∧ x.lo = 0 ∧ x.tokens = [] ∧ x.queue = [] ∧ x.inflight = [] ∧
    x.wait = none ∧ x.hmode = false ∧ x.openBatch = 1 ∧ x.batches = [] ∧ x.width = h.width ∧ x.first = k * h.width ∧
    x.group = g ∧ x.flags = Vector.replicate 12 0 ∧ x.pt = pt ∧
    ∀ q pos, pos < h.window → pos < 1024 → x.laneReg (regKey q pos) = 0

/-- R352, R361: a replay launch is placed as a whole, group g on core g mod 2^w2 of hardware cluster g / 2^w2 and party k on
quad k mod 4, the first turn being that of its first party; where it does not fit as a whole it waits with those places as
its targets. A turn that was used is over once the lane instructions of its party are done, or a cause of them is pending,
and what the turn issued is complete; a halted or stopped party gives its turn up, and at that of an evicted one the
rotation stops. The turn then passes to the next party in order of group and first position that has not exited, or to the
first; the launch is gathered where its context is suspended and all its parties are at park points. -/
def Obligations.ReplayLaunches : Prop :=
  ∀ (s : State) (l : Launch), s.launch? l.id = some l → l.header.replay = true →
    let h := l.header
    let core (g : Nat) : Nat := 8 * (g / 2 ^ h.w2) + g % 2 ^ h.w2
    let earlier (a b : Party) : Prop := a.group < b.group ∨ (a.group = b.group ∧ a.first < b.first)
    let mine (x : Party) : Prop := x ∈ s.parties ∧ x.launch = l.id ∧ x.present = true
    (∀ c quads, s.held = false → s.awaitsPlacement l = true → s.overtaken l = false → l.placed = 0 →
      (∀ p ∈ s.parties, p.launch ≠ l.id ∧ p.pid < s.ids) →
      (s.placeReplay l = none → exec (.groupPlacement l.id c quads) s = .next (s.putLaunch { l with
        targets := (List.range h.groups).map fun g => (core g, (List.range h.parties).map fun k => k % 4) })) ∧
      ∀ t, s.placeReplay l = some t → exec (.groupPlacement l.id c quads) s = .next t ∧
        (∀ g, g < h.groups → (∃ x ∈ t.groups, x.launch = l.id ∧ x.number = g ∧ x.core = core g ∧ x.ended = false) ∧
          ∀ k, k < h.parties → ∃ x ∈ t.parties, x.launch = l.id ∧ x.group = g ∧ x.first = k * h.width ∧ x.core = core g ∧
            x.quad = k % 4 ∧ x.pc = h.scalar) ∧
        ∃ x, t.launch? l.id = some x ∧ x.placed = h.groups ∧ (0 < h.parties → x.turnUsed = false ∧
          ∃ p ∈ t.parties, p.pid = x.turn ∧ p.launch = l.id ∧ p.group = 0 ∧ p.first = 0)) ∧
    (∀ from_, ∃ x : Launch, s.useTurn l.id from_ = s.putLaunch x ∧ x = { l with turnUsed := true, turnCmds := x.turnCmds } ∧
      ∀ id, id ∈ x.turnCmds ↔ from_ ≤ id ∧
        ((∃ c ∈ s.commands, c.id = id) ∨ (∃ t ∈ s.tasks, t.id = id) ∨ ∃ c ∈ s.collectives, c.id = id)) ∧
    (∀ p, s.party? l.turn = some p →
      (p.life = .running → p.evicted = true → s.turnOver l = false) ∧
      (p.life = .halted ∨ p.life = .exited → s.turnOver l = true) ∧
      (p.life = .running → p.evicted = false → p.stopped = true → s.turnOver l = true) ∧
      (p.life = .running → p.evicted = false → p.stopped = false →
        (s.turnOver l = true ↔ (l.turnUsed = true ∨ p.offer.isSome = true) ∧ p.laneBusy = false ∧
          (p.pendingLane.isSome = true ∨ p.hmode = true ∨ p.drained = true) ∧
          ∀ id ∈ l.turnCmds, (∀ c ∈ s.commands, c.id ≠ id) ∧ (∀ t ∈ s.tasks, t.id ≠ id) ∧ ∀ c ∈ s.collectives, c.id ≠ id))) ∧
    (0 < l.placed → s.turnOver l = true → ∀ x, s.nextTurn l = some x →
      s.passTurn l = s.putLaunch { l with turn := x.pid, turnUsed := false, turnCmds := [], gather := s.allParked l }) ∧
    (s.turnOver l = false → s.passTurn l = s) ∧
    (∀ p x, s.party? l.turn = some p → s.nextTurn l = some x → mine x ∧
      (earlier p x → ∀ y, mine y → earlier p y → ¬ earlier y x) ∧
      (¬ earlier p x → ∀ y, mine y → ¬ earlier p y ∧ ¬ earlier y x)) ∧
    (s.allParked l = true ↔ (s.context l.space.ctx).state = 2 ∧
      ∀ q ∈ s.parties, q.launch = l.id → q.life = .running → q.evicted = true ∨ s.atPark q = true)

/-- R107, R297 to R299, R319, R358, R361: who leaves, how, and what a restore leaves. A waiting launch's candidates on a quad
come in order of priority, footprint and slot. The parties that are to leave do so together where every save is granted, and
none does where one is denied, which is the model's reading (log 44): of a suspended context a party at a park point alone,
or the gathered parties of a replay launch. A
party that left is away, its tokens in the spill block, its wait kept, a standing FUSE of its own or of its neighbour ended
FUSE_AWAY. RESTORE brings a party back with what its record gives, no earlier than the mark of its core, and resolves its
wait: one that was decided ends so; one whose deadline's tick has passed stays to be ended; another is tested, a WADDR that
finds its word changed ending CHANGED and a request being made anew; else it goes on. In a replay launch RESTORE leaves the
wait to its party's turn (R352), whose first look at a WADDR's word is that of R299, so that it ends CHANGED there: the
model's reading (log 74). A permission or translation fault of
a reload is offered with src 3, a malformed image halts the party, and poison is taken by the restored party (log 24). -/
def Obligations.EvictionAndRestore : Prop :=
  ∀ (s : State),
    let p := s.party
    let l := s.home p
    let away (w : Wait) : Wait := { w with decided := w.decided.or (if w.kind = .fuse then some 0x15 else none) }
    let meets (q : Party) : Bool := q.launch == p.launch && q.group == p.group && rangesMeet q.neighbour q.width p.first p.width
    (∀ x core quad,
      let sooner (a b : Party) : Prop := s.partyPriority a < s.partyPriority b ∨ (s.partyPriority a = s.partyPriority b ∧
        (s.bankOf b < s.bankOf a ∨ (s.bankOf a = s.bankOf b ∧ b.slot < a.slot)))
      (s.candidates x core quad).Pairwise (fun a b => ¬ sooner b a) ∧ ∀ q, q ∈ s.candidates x core quad ↔
        q ∈ s.parties ∧ q.core = core ∧ q.quad = quad ∧ s.atPark q = true ∧ s.partyPriority q < s.priority x) ∧
    ((s.context l.space.ctx).state = 2 → l.header.replay = false → s.atPark p = true → s.leavers p = [p.pid]) ∧
    (s.gathered p = true →
      s.leavers p = (s.parties.filter fun q => q.launch == p.launch && q.live && !q.evicted).map fun q => q.pid) ∧
    (s.leavers p = [] → exec (.eviction p.pid) s = .next s) ∧
    (∀ t, s.leavers p ≠ [] → (∀ q ∈ s.parties, q.pid ∈ s.leavers p → s.mayLeave q = true) →
      (s.parties.map fun q => q.pid).Nodup → (∀ i ∈ s.leavers p, ∃ q ∈ s.parties, q.pid = i) →
      s.evictAll (s.leavers p) = .ok t → exec (.eviction p.pid) s = .next t ∧
        ∀ q ∈ t.parties, q.pid ∈ s.leavers p → q.evicted = true ∧ q.evictedAt = s.ids) ∧
    (∀ d, s.evictAll (s.leavers p) = .error d → exec (.eviction p.pid) s = .next s) ∧
    (∀ t, s.leavers p = [p.pid] → s.mayLeave p = true → s.saveParty = .ok t →
      ∃ u, exec (.eviction p.pid) s = .next u ∧ u.mem = t.mem ∧ u.party = { p with
        evicted := true, evictedAt := s.ids, spilled := p.tokens.length
        wait := p.wait.map fun w => { away w with met := false } } ∧
        ((∀ q ∈ s.others, q.pid ≠ p.pid) → u.others = s.others.map fun q =>
          if meets q then { q with wait := q.wait.map away } else q)) ∧
    (s.restorable p = false → s.returners p = [p.pid] → exec (.restore p.pid) s = .next s) ∧
    ∀ u ds, s.restorable p = true → s.returners p = [p.pid] → s.reloadGroup l p.group = (u, ds) →
      let returns (t : State) : Prop := exec (.restore p.pid) s = .next { t with
        launches := t.launches.map fun (x : Launch) => if x.id = p.launch then { x with gather := false } else x }
      let back (q : Party) : State := { u with party := { q with evicted := false, pt := Nat.max q.pt (Table.get 0 u.marks q.core) } }
      let against (q : Party) (d : Deny) : Trap := { (Trap.scalar d.cause q.pc q.pc).denied d 0 with src := 3 }
      let asks (d : Deny) : Bool := d.cause == .permission || d.cause == .translation
      (∀ d, ds.find? asks = some d → returns (s.offerTrap (against p d))) ∧
      (∀ d, ds.find? asks = none → u.reloadParty = .error d → asks d = true → returns (s.offerTrap (against p d))) ∧
      (ds.find? asks = none → u.reloadParty = .ok none → returns (back u.party).halt) ∧
      (∀ q d rest, ds.find? asks = none → ds = d :: rest → u.reloadParty = .ok (some q) → q.wait = none →
        returns ((back q).takeTrap (against q d))) ∧
      ∀ q, ds = [] → u.reloadParty = .ok (some q) →
        let replays := ((back q).home q).header.replay
        (q.wait = none → returns (back q)) ∧
        (∀ w st, q.wait = some w → w.decided = some st →
          returns (if replays then back q else (back q).endWith w st)) ∧
        ∀ w, q.wait = some w → w.decided = none →
          let v := if w.kind = .accept then { w with seq := u.ids } else w
          let t : State := { (back q).setWait (some v) with ids := u.ids + 1 }
          (replays = true → returns (t.setWait (some { v with restored := true })) ∧
            ∀ x st, v.kind = .waddr → v.met = false → t.attempt { v with restored := true } = .ended x st → st = 0x05) ∧
          (replays = false → v.deadline.passed t t.party = true → returns t) ∧
          (replays = false → v.deadline.passed t t.party = false →
            (t.attempt v = .waiting → returns t) ∧
            (∀ x, t.attempt v = .held x → v.kind ≠ .waddr → returns x) ∧
            (∀ x st, t.attempt v = .ended x st → x.party.evicted = false →
              returns (x.endWith v (if v.kind = .waddr ∧ v.met = false then 0x05 else st))) ∧
            ∀ d a, t.attempt v = .trapped d a → d.cause ≠ .poison → returns ((t.setWait none).takeTrap
              { (Trap.scalar d.cause q.pc q.pc).denied d a with dest := some v.dest, wait := some v.deadline }))

/-! ### Context commands (R326, R354 to R359) -/

/-- R326, R357 to R359: a pending command whose code the context's state permits is performed and completes: its word is stored
with bit 63 and the result, and vector 1 raised. INVALIDATE drops the cached entries of every level that serve its page, or
the whole ASID; RESET ends every launch of the context; SUSPEND and RESUME change the context's state. That the state word
reads 2 only once every party has left, in the step in which SUSPEND completes, is the model's reading (log 76). One that is
not permitted completes with result 1. -/
def Obligations.ContextCommands : Prop :=
  ∀ (s : State) (ctx code : Nat) (e : CtxEntry), s.noticeCommand ctx = s → s.ctxEntry ctx = some e →
    (s.context ctx).cmd = some code →
    let c := s.context ctx
    let permits : Bool := match code with
      | 1 | 2 | 3 => decide (c.state ≤ 2)
      | 4 => decide (c.state ≤ 1) || c.begun
      | 5 => c.state == 2
      | _ => false
    let va := (s.ctxField e 0x30).toNat
    let drops (lo n : Nat) : State := { s with copies := s.copies.filter fun x => match x with
      | .translation a k base _ =>
        !(a == e.asid && decide (base * 2 ^ levelShift k < lo + n) && decide (lo < (base + 1) * 2 ^ levelShift k))
      | _ => true }
    (permits = true → s.remoteBusy ctx = false →
      (∀ n, code = 1 → (match (s.ctxField e 0x38).toNat % 4 with
          | 0 => some (2 ^ 16) | 1 => some (2 ^ 21) | 2 => some (2 ^ 30) | _ => none) = some n →
        exec (.invalidatePage ctx) s = .next ((drops (va / n * n) n).completeCommand ctx 0)) ∧
      (code = 2 → exec (.invalidateAll ctx) s = .next ((drops 0 (2 ^ 64)).completeCommand ctx 0))) ∧
    (permits = true → code = 3 → ∃ t : State, exec (.reset ctx) s = .next (t.completeCommand ctx 0) ∧
      (∀ l ∈ t.launches, l.space.ctx ≠ ctx) ∧ (t.context ctx).state = 1) ∧
    (permits = true → code = 4 → c.begun = false →
      let t := s.putContext { c with state := 2, begun := true }
      (s.allAway ctx = true → exec (.suspend ctx) s = .next ((t.enterState ctx 2).completeCommand ctx 0)) ∧
      (s.allAway ctx = false → exec (.suspend ctx) s = .next t)) ∧
    (permits = true → code = 4 → c.begun = true →
      (s.allAway ctx = true → exec (.suspend ctx) s = .next ((s.enterState ctx 2).completeCommand ctx 0)) ∧
      (s.allAway ctx = false → exec (.suspend ctx) s = .next s)) ∧
    (permits = true → code = 5 →
      let t := s.enterState ctx 1
      exec (.resume ctx) s = .next ({ t with launches := t.launches.map fun (l : Launch) =>
        if l.space.ctx = ctx then { l with gather := false } else l }.completeCommand ctx 0)) ∧
    (permits = false → (code = 1 → exec (.invalidatePage ctx) s = .next (s.completeCommand ctx 1)) ∧
      (code = 2 → exec (.invalidateAll ctx) s = .next (s.completeCommand ctx 1)) ∧
      (code = 3 → exec (.reset ctx) s = .next (s.completeCommand ctx 1)) ∧
      (code = 4 → exec (.suspend ctx) s = .next (s.completeCommand ctx 1)) ∧
      (code = 5 → exec (.resume ctx) s = .next (s.completeCommand ctx 1))) ∧
    ∀ r, s.completeCommand ctx r = (((s.putContext { c with cmd := none, begun := false }).store (.phys (e.record + 0x28) 0)
      (toBytes 8 (2 ^ 63 + r * 2 ^ 56 + code))).showHost (.phys e.record 0) 128).interrupt e.fn 1

/-! ### The host port (R364 to R367) -/

/-- R365 to R367: a register write is read back, in the bits that the register keeps, by the function that wrote it, and the
PF's registers are the PF's alone; the mailboxes are read and written at any byte; a doorbell changes nothing. A read of
the aperture's 2^36 bytes returns the bytes of its context, or aborts where the function has none or the access faults; a
write stores them. The aperture's base has its low 16 bits taken as zero, though the register reads back as it was written
(log 54). A function-level reset clears the valid bit of its APCTX. Unmasking a vector sends the interrupt held pending. -/
def Obligations.HostPortEvents : Prop :=
  ∀ (s : State) (fn off : Nat) (v : Word),
    exec (.doorbell fn v) s = .next s ∧
    (s.bar.ready = true → fn ≤ 192 →
      (∃ t, exec (.registerWrite fn 0x10 v) s = .next t ∧ t.register fn 0x10 = v &&& 0x1FFF ∧
        ∀ g, g ≠ fn → t.register g 0x10 = s.register g 0x10) ∧
      (∃ t, exec (.registerWrite fn 0x18 v) s = .next t ∧ t.register fn 0x18 = v ∧
        ∀ g, g ≠ fn → t.register g 0x18 = s.register g 0x18) ∧
      (∀ r, r = 0x100 ∨ r = 0x108 ∨ r = 0x110 → ∃ t, exec (.registerWrite fn r v) s = .next t ∧
        (fn = 0 → t.register 0 r = v) ∧ (fn ≠ 0 → t = s ∧ t.register fn r = 0)) ∧
      (fn = 0 → ∃ t, exec (.registerWrite 0 0x118 v) s = .next t ∧ t.register 0 0x118 =
        if v.toNat < 1200 then 1200 else if 3400 < v.toNat then 3400 else v) ∧
      exec (.registerWrite fn 0 v) s = .next s) ∧
    (s.bar.ready = true → 0x200 ≤ off → off + 8 ≤ 0x600 →
      ∃ t, exec (.registerWrite 0 off v) s = .next t ∧ t.register 0 off = v ∧
        ∀ o, o < 0x200 → t.register 0 o = s.register 0 o) ∧
    (let at_ := ((Table.get 0 s.bar.apbase fn).toNat / 65536 * 65536 + off) % 2 ^ 64
     (s.answers fn = true → ∀ n,
      (2 ^ 36 < off + n → exec (.hostRead fn off n) s = .next s) ∧
      (off + n ≤ 2 ^ 36 → s.aperture fn = none →
        exec (.hostRead fn off n) s = .next { s with hostLog := s.hostLog ++ [.abort fn] }) ∧
      ∀ ctx sp, off + n ≤ 2 ^ 36 → s.aperture fn = some (ctx, sp) →
        (∀ p, s.hostSpans sp .read n at_ n = .ok [(p, n)] →
          let got := s.agentRead .host 8 p n
          let t := s.hostSaw p n
          exec (.hostRead fn off n) s = .next { t with hostLog := t.hostLog ++ [.data fn got.bytes (got.bad.any id)] }) ∧
        ∀ e, s.hostSpans sp .read n at_ n = .error e →
          exec (.hostRead fn off n) s = .next ((s.hostFault ctx e).logHost (.abort fn))) ∧
     ∀ bs : List Byte,
      (2 ^ 36 < off + bs.length → exec (.hostWrite fn off bs) s = .next s) ∧
      (s.aperture fn = none → exec (.hostWrite fn off bs) s = .next s) ∧
      ∀ ctx sp, off + bs.length ≤ 2 ^ 36 → s.aperture fn = some (ctx, sp) →
        (∀ p, s.hostSpans sp .write bs.length at_ bs.length = .ok [(p, bs.length)] →
          exec (.hostWrite fn off bs) s = .next (s.storeAs .host p bs).1) ∧
        ∀ e, s.hostSpans sp .write bs.length at_ bs.length = .error e →
          exec (.hostWrite fn off bs) s = .next (s.hostFault ctx e)) ∧
    (1 ≤ fn → fn ≤ 192 → ∃ t, exec (.functionLevelReset fn) s = .next t ∧
      t.register fn 0x10 = s.register fn 0x10 &&& ~~~0x1000 ∧ ∀ g, g ≠ fn → t.register g 0x10 = s.register g 0x10) ∧
    (∃ t, exec (.functionLevelReset 0) s = .next t ∧ ∀ g, g ≤ 192 → t.register g 0x10 = s.register g 0x10 &&& ~~~0x1000) ∧
    ∀ vector, fn ≤ 192 → vector ≤ 1 → s.unmasked.contains (fn, vector) = false →
      ∃ t, exec (.vectorUnmask fn vector) s = .next t ∧ (fn, vector) ∈ t.unmasked ∧ (fn, vector) ∉ t.pendingIrq ∧
        t.sentIrq = (if s.pendingIrq.contains (fn, vector) then s.sentIrq ++ [(fn, vector)] else s.sentIrq) ∧
        t = { s with unmasked := t.unmasked, pendingIrq := t.pendingIrq, sentIrq := t.sentIrq }

/-! ### The hub (R196, R331, R337, R374 to R377) -/

/-- R374 to R377, R329, R331, R337, R340, R196: what the events of the hub leave, and the hash of R340's two runs. BRING_UP
leaves a part right after power-on, ready and with its own memory erased where its firmware verified, with time no earlier;
the memory of other parts stays. ATTEST answers with the start of its report: the nonce, the measurements, the part, the
serial and the occupied slots. Gnomer and the management controller serve the command that stands in their mailbox and
write 2 to its byte 0x1F8: KEYLOAD fills an empty slot that a context names, KEYCLEAR empties a slot, STACKINIT leaves
every byte of the stack zero, in the clear and without poison, STACKINFO answers with the hash masks. An uncorrectable
error in a party's state halts it, one in memory poisons its sector. Where the manual does not say which contexts are told,
the model leaves it free (log 46). The offsets of the mailboxes' fields, the sizes in the attestation report and the status
of a refusal are the model's (logs 14, 16, 52). THERMAL_TRIP resets every valid context and reports an event of kind 4 to
it. -/
def Obligations.HubEvents : Prop :=
  ∀ s : State,
    let served (box : List Host.Cell) : Prop := byteAt box 0x1F8 = 2
    let gnomer (n : Nat) : Prop := s.bar.ready = true ∧ byteAt s.bar.gmbox 0x1F8 = 1 ∧ ofBytes (readBytes s.bar.gmbox 0 8) = n
    let manager (n : Nat) : Prop := s.bar.ready = true ∧ byteAt s.bar.mcbox 0x1F8 = 1 ∧ ofBytes (readBytes s.bar.mcbox 0 8) = n
    let slot := ofBytes (readBytes s.bar.gmbox 8 8)
    let stack := ofBytes (readBytes s.bar.mcbox 8 8)
    let status (box : List Host.Cell) : Nat := ofBytes (readBytes box 0x100 8)
    (∀ verified part, part ≤ 3071 → ∃ t, exec (.bringUp verified part) s = .next t ∧ s.lantern.toNat ≤ t.lantern.toNat ∧
      t.bar.ready = verified ∧ (verified = true → t.bar.part = part) ∧ t.keys = [] ∧ t.launches = [] ∧
      t.party = State.reset.party ∧ t.others = [] ∧ t.measurements = (List.range 4).map Config.measurement ∧
      let mine (a : Nat) : Prop := verified = true ∧ part * 2 ^ 44 ≤ a ∧ a < (part + 1) * 2 ^ 44
      (∀ a, mine a → byteAt t.mem a = 0 ∧ Table.get 0 t.tags (a / 64) = 0 ∧ a / 64 ∉ t.poison) ∧
      ∀ a, ¬ mine a → byteAt t.mem a = byteAt s.mem a ∧ Table.get 0 t.tags (a / 64) = Table.get 0 s.tags (a / 64)) ∧
    (∀ verified part, 3071 < part → exec (.bringUp verified part) s = .next s) ∧
    (gnomer 1 → ∃ t, exec .attest s = .next t ∧ served t.bar.gmbox ∧
      t = { s with attested := t.attested, bar := { s.bar with gmbox := t.bar.gmbox } } ∧
      readBytes t.bar.gmbox 0x100 248 = t.attested.take 248 ∧
      ∃ signature, t.attested = readBytes s.bar.gmbox 8 32 ++ (s.measurements.flatMap fun m => toBytes 64 m.toNat) ++
        toBytes 2 s.bar.part ++ toBytes 8 Config.fusedSerial.toNat ++
        toBytes 32 (s.keys.foldl (fun n k => n ||| 2 ^ (k.1 % 256)) 0) ++ signature) ∧
    (gnomer 2 → 1 ≤ slot → slot ≤ 255 → s.occupied slot = false → s.slotNamed slot = true →
      ∃ t, exec .keyload s = .next t ∧ served t.bar.gmbox ∧ status t.bar.gmbox = 0 ∧ t.occupied slot = true ∧
        t = { s with keys := t.keys, bar := { s.bar with gmbox := t.bar.gmbox } }) ∧
    (gnomer 2 → slot = 0 ∨ 255 < slot ∨ s.occupied slot = true ∨ s.slotNamed slot = false →
      ∃ t, exec .keyload s = .next t ∧ served t.bar.gmbox ∧ status t.bar.gmbox ≠ 0 ∧
        t = { s with bar := { s.bar with gmbox := t.bar.gmbox } }) ∧
    (gnomer 3 → 1 ≤ slot → slot ≤ 255 → ∃ t, exec .keyclear s = .next t ∧ served t.bar.gmbox ∧ status t.bar.gmbox = 0 ∧
      t.occupied slot = false ∧ ∀ k, k ≠ slot → t.occupied k = s.occupied k) ∧
    (manager 1 → badRequest s.bar.mcbox 64 = false → s.workInFlight = false →
      masksValid ((List.range 6).map fun j => BitVec.ofNat 64 (ofBytes (readBytes s.bar.mcbox (16 + 8 * j) 8))) = true →
      ∃ t, exec .stackinit s = .next t ∧ served t.bar.mcbox ∧ status t.bar.mcbox = 0 ∧
        let inside (a : Nat) : Prop := s.bar.part * 2 ^ 44 + stack * 2 ^ 36 ≤ a ∧ a < s.bar.part * 2 ^ 44 + (stack + 1) * 2 ^ 36
        (∀ a, inside a → byteAt t.mem a = 0 ∧ Table.get 0 t.tags (a / 64) = 0 ∧ a / 64 ∉ t.poison) ∧
        (∀ a, ¬ inside a → byteAt t.mem a = byteAt s.mem a) ∧
        ∀ j, j < 6 → t.hashMask stack j = BitVec.ofNat 64 (ofBytes (readBytes s.bar.mcbox (16 + 8 * j) 8))) ∧
    (manager 1 → s.workInFlight = true → ∃ t, exec .stackinit s = .next t ∧ served t.bar.mcbox ∧ status t.bar.mcbox ≠ 0 ∧
      t.mem = s.mem) ∧
    (manager 2 → badRequest s.bar.mcbox 16 = false → ∃ t, exec .stackinfo s = .next t ∧ served t.bar.mcbox ∧
      status t.bar.mcbox = 0 ∧ (∀ j, j < 6 → ofBytes (readBytes t.bar.mcbox (0x108 + 8 * j) 8) = (s.hashMask stack j).toNat) ∧
      t = { s with bar := { s.bar with mcbox := t.bar.mcbox } }) ∧
    (∀ k o, ((∀ j, j < 6 → s.hashMask k j = 1 <<< (6 + j)) → s.stackHash k o = o / 64 % 64) ∧
      ((∀ j, j < 6 → s.hashMask k j = (1 <<< (6 + j)) ||| (1 <<< (13 + j))) →
        s.stackHash k o = (o / 64 % 64) ^^^ (o / 2 ^ 13 % 64))) ∧
    exec .thermalThrottle s = .next { s with throttled := true } ∧
    (∃ t, exec .thermalTrip s = .next t ∧ t.held = true ∧ t.bar.trip = true ∧
      (∀ i ∈ s.validContexts, ∀ x ∈ t.launches, x.space.ctx ≠ i) ∧
      ∀ i, s.validContexts = [i] → ∃ e : Event, e.kind = 4 ∧
        t = { ({ s with bar := { s.bar with trip := true } }.resetContext i).report i e with held := true }) ∧
    exec .tripClear s = .next { s with held := false, bar := { s.bar with trip := false } } ∧
    (s.party.ready = true → exec (.softError (.party s.party.pid)) s = .next (s.halt true)) ∧
    (∀ n, ∃ u : State, exec (.softError (.sector n)) s = .next (u.reportSoftMemory (BitVec.ofNat 64 (64 * n))) ∧
      n ∈ u.poison ∧ u = { s with poison := u.poison, copies := u.copies } ∧
      ∀ i, u.validContexts = [i] → ∃ e : Event, e.kind = 4 ∧ e.soft = true ∧ e.addr = BitVec.ofNat 64 (64 * n) ∧
        u.reportSoftMemory (BitVec.ofNat 64 (64 * n)) = u.report i e) ∧
    (∀ k, k < 12 → ∃ t, exec (.patrolScrub k) s = .next t ∧ Table.get 0 t.scrubbed k = s.lantern.toNat ∧
      t = { s with scrubbed := t.scrubbed }) ∧
    ∃ t, exec .scoreHalving s = .next t ∧ t = { s with party := t.party, others := t.others } ∧
      t.party = { s.party with score := s.party.score / 2 } ∧
      t.others = s.others.map fun p => { p with score := p.score / 2 }

/-! ### The domain (R368 to R373) -/

/-- R368 to R373: only the packet that follows the last accepted of its stream is accepted, and a part that sends is not
absent; a stream's packets are sent again 2,000 ticks after the oldest was. A part that no route has reached for 2^16 ticks
is found absent, and no other; it fails the collectives that
it is a member of; a timeout fails one that its members have not all joined. The collectives of one party complete in their
order. A collective that failed writes its code with bit 63 to its completion word; one whose every member joined writes
its result and its completion value: an all-gather the members' blocks in rank order, and an all-reduce and a
reduce-scatter their combination in ascending rank. -/
def Obligations.DomainEvents : Prop :=
  ∀ s : State,
    let completes (c : Collective) (s : State) (v : Nat) (r : Result) : Prop := ∀ t time, c.cwaddr ≠ 0 →
      s.signalWord (s.collectiveAccessor c) c.agent c.cwaddr v = .ok (t, time) → r = .next { t with
        synced := Nat.max t.synced (time + 1)
        collectives := t.collectives.filter fun x => x.id != c.id
        tickets := t.tickets.filter fun x => x.asker != .collective c.id }
    let held (c : Collective) : Prop := (s.collectives.find? fun x => x.id == c.id) = some c
    let first (c : Collective) : Prop := held c ∧ ∀ x ∈ s.collectives, x.pid = c.pid → c.id ≤ x.id
    (∀ p : Packet, p.dst = s.bar.part → p.src ≠ s.bar.part → p.src ≤ 3071 → p.cls ≤ 3 →
      ∃ t, exec (.packetReceive p) s = .next t ∧ p.src ∉ t.absentParts ∧ p.src ∈ t.joined ∧ t.mem = s.mem ∧
        Table.get 0 t.contacts p.src = s.lantern.toNat ∧
        (p.seq = s.expected p.src p.cls → t.expected p.src p.cls = p.seq + 1) ∧
        (p.seq ≠ s.expected p.src p.cls → t.accepts = s.accepts) ∧
        ∀ src cls, src ≠ p.src ∨ cls ≠ p.cls → t.expected src cls = s.expected src cls) ∧
    (∀ dst cls, exec (.retransmission dst cls) s = .next { s with sends := s.sends.map fun x =>
      if x.dst = dst ∧ x.cls = cls ∧ (x.unacked.head?.any fun e => decide (e.2 + 2000 ≤ s.lantern.toNat)) then
        { x with unacked := x.unacked.map fun e => (e.1, s.lantern.toNat) }
      else x }) ∧
    (∀ part, part ≠ s.bar.part → part ≤ 3071 → part ∉ s.absentParts → Table.get 0 s.contacts part + 2 ^ 16 ≤ s.lantern.toNat →
      ∃ t, exec (.partAbsent part) s = .next t ∧ part ∈ t.absentParts ∧ part ∉ t.joined ∧ t.collectives = s.collectives.map fun c =>
        if c.members.contains part && !c.finished then { c with failed := c.failed.or (some 0x0103) } else c) ∧
    (∀ part, s.lantern.toNat < Table.get 0 s.contacts part + 2 ^ 16 → exec (.partAbsent part) s = .next s) ∧
    (∀ c, held c → c.acceptedAt + c.timeout ≤ s.lantern.toNat → c.finished = false → c.failed = none → c.allJoined = false →
      exec (.collTimeout c.id) s = .next { s with collectives := s.collectives.map fun x =>
        if x.id = c.id then { c with failed := some 0x0101 } else x }) ∧
    (∀ c, held c → s.lantern.toNat < c.acceptedAt + c.timeout ∨ c.allJoined = true → exec (.collTimeout c.id) s = .next s) ∧
    (∀ c inputs, held c → (∃ x ∈ s.collectives, x.pid = c.pid ∧ x.id < c.id) →
      exec (.collectiveCompletion c.id inputs) s = .next s) ∧
    (∀ c code inputs, first c → c.finished = false → c.failed = some code →
      completes c s (2 ^ 63 + code) (exec (.collectiveCompletion c.id inputs) s)) ∧
    (∀ c, first c → c.finished = false → c.failed = none → c.allJoined = false →
      completes c s (2 ^ 63 + 0x0102) (exec (.collectiveCompletion c.id none) s)) ∧
    ∀ (c : Collective) (inputs : List (List Nat)) (sp : Span), first c → c.finished = false →
      c.failed = none → c.offer = none → c.plan = none → c.got = [] → c.kind ≤ 2 →
      let ac := s.collectiveAccessor c
      let r := c.members.idxOf s.bar.part
      let n := c.members.length
      let len := if c.kind = 0 then n * c.count else c.count
      s.engineRead ac c.agent c.src (len * c.ty.bytes) c.ty.bytes = .ok sp →
      (sp.bad.any id = true →
        completes { c with time := sp.time } s (2 ^ 63 + 0x14) (exec (.collectiveCompletion c.id (some inputs)) s)) ∧
      ∀ (srcs : List (List Nat)) (w : Written), sp.bad.any id = false →
        c.sources r (c.elements sp.bytes len) inputs = some srcs →
        let combined (i : Nat) : Nat := match srcs.map fun x => (x[i]?).getD 0 with
          | [] => 0
          | y :: rest => rest.foldl (Machine.combine c.ty .rn c.op) y
        let out : List Nat := if c.kind = 1 then srcs.flatten
          else (List.range c.count).map fun i => combined ((if c.kind = 0 then r * c.count else 0) + i)
        writeCells ac c.ty.bytes s { c.agent with time := sp.time }
          (out.zipIdx.map fun x => ((c.dst + BitVec.ofNat 64 (c.ty.bytes * x.2)).toNat, x.1)) = .ok w → w.lost = false →
        completes { c with time := w.time } w.s c.cwval.toNat (exec (.collectiveCompletion c.id (some inputs)) s)
end

