-- ==== Sys2Proof/Laws/Encoding.lean ====
section
/-!
SUPPORT. What the decoder reads back from each format of the encoder: one lemma per field of a format, and where each
major opcode leads.
-/
namespace Sys2Proof.Laws

theorem extract_self {n : Nat} (x : BitVec n) : x.extractLsb' 0 n = x := by simp

section
variable (k : Bool) (m : BitVec 6) (d : BitVec 6) (a : BitVec 6) (b : BitVec 6) (f : BitVec 7)
theorem encS3_k : (encS3 k m d a b f).getLsbD 31 = k := by
  simp only [encS3, BitVec.getLsbD_append]; simp
theorem encS3_m : field (encS3 k m d a b f) 25 6 = m := by
  refine BitVec.eq_of_getLsbD_eq fun j hj => ?_
  simp only [field, encS3, BitVec.getLsbD_extractLsb', BitVec.getLsbD_append, hj, decide_true, Bool.true_and]
  repeat (first | rw [if_pos (by omega)] | rw [if_neg (by omega)])
  congr 1; omega
theorem encS3_d (i n : Nat) (h : i + n ≤ 6) : field (encS3 k m d a b f) (i + 19) n = d.extractLsb' i n := by
  refine BitVec.eq_of_getLsbD_eq fun j hj => ?_
  simp only [field, encS3, BitVec.getLsbD_extractLsb', BitVec.getLsbD_append, hj, decide_true, Bool.true_and]
  repeat (first | rw [if_pos (by omega)] | rw [if_neg (by omega)])
  congr 1; omega
theorem encS3_a (i n : Nat) (h : i + n ≤ 6) : field (encS3 k m d a b f) (i + 13) n = a.extractLsb' i n := by
  refine BitVec.eq_of_getLsbD_eq fun j hj => ?_
  simp only [field, encS3, BitVec.getLsbD_extractLsb', BitVec.getLsbD_append, hj, decide_true, Bool.true_and]
  repeat (first | rw [if_pos (by omega)] | rw [if_neg (by omega)])
  congr 1; omega
theorem encS3_b (i n : Nat) (h : i + n ≤ 6) : field (encS3 k m d a b f) (i + 7) n = b.extractLsb' i n := by
  refine BitVec.eq_of_getLsbD_eq fun j hj => ?_
  simp only [field, encS3, BitVec.getLsbD_extractLsb', BitVec.getLsbD_append, hj, decide_true, Bool.true_and]
  repeat (first | rw [if_pos (by omega)] | rw [if_neg (by omega)])
  congr 1; omega
theorem encS3_f (i n : Nat) (h : i + n ≤ 7) : field (encS3 k m d a b f) i n = f.extractLsb' i n := by
  refine BitVec.eq_of_getLsbD_eq fun j hj => ?_
  simp only [field, encS3, BitVec.getLsbD_extractLsb', BitVec.getLsbD_append, hj, decide_true, Bool.true_and]
  repeat (first | rw [if_pos (by omega)] | rw [if_neg (by omega)])
end

section
variable (k : Bool) (m : BitVec 6) (d : BitVec 6) (a : BitVec 6) (f : BitVec 13)
theorem encSI_k : (encSI k m d a f).getLsbD 31 = k := by
  simp only [encSI, BitVec.getLsbD_append]; simp
theorem encSI_m : field (encSI k m d a f) 25 6 = m := by
  refine BitVec.eq_of_getLsbD_eq fun j hj => ?_
  simp only [field, encSI, BitVec.getLsbD_extractLsb', BitVec.getLsbD_append, hj, decide_true, Bool.true_and]
  repeat (first | rw [if_pos (by omega)] | rw [if_neg (by omega)])
  congr 1; omega
theorem encSI_d (i n : Nat) (h : i + n ≤ 6) : field (encSI k m d a f) (i + 19) n = d.extractLsb' i n := by
  refine BitVec.eq_of_getLsbD_eq fun j hj => ?_
  simp only [field, encSI, BitVec.getLsbD_extractLsb', BitVec.getLsbD_append, hj, decide_true, Bool.true_and]
  repeat (first | rw [if_pos (by omega)] | rw [if_neg (by omega)])
  congr 1; omega
theorem encSI_a (i n : Nat) (h : i + n ≤ 6) : field (encSI k m d a f) (i + 13) n = a.extractLsb' i n := by
  refine BitVec.eq_of_getLsbD_eq fun j hj => ?_
  simp only [field, encSI, BitVec.getLsbD_extractLsb', BitVec.getLsbD_append, hj, decide_true, Bool.true_and]
  repeat (first | rw [if_pos (by omega)] | rw [if_neg (by omega)])
  congr 1; omega
theorem encSI_f (i n : Nat) (h : i + n ≤ 13) : field (encSI k m d a f) i n = f.extractLsb' i n := by
  refine BitVec.eq_of_getLsbD_eq fun j hj => ?_
  simp only [field, encSI, BitVec.getLsbD_extractLsb', BitVec.getLsbD_append, hj, decide_true, Bool.true_and]
  repeat (first | rw [if_pos (by omega)] | rw [if_neg (by omega)])
end

section
variable (k : Bool) (m : BitVec 6) (d : BitVec 6) (f : BitVec 19)
theorem encSL_k : (encSL k m d f).getLsbD 31 = k := by
  simp only [encSL, BitVec.getLsbD_append]; simp
theorem encSL_m : field (encSL k m d f) 25 6 = m := by
  refine BitVec.eq_of_getLsbD_eq fun j hj => ?_
  simp only [field, encSL, BitVec.getLsbD_extractLsb', BitVec.getLsbD_append, hj, decide_true, Bool.true_and]
  repeat (first | rw [if_pos (by omega)] | rw [if_neg (by omega)])
  congr 1; omega
theorem encSL_d (i n : Nat) (h : i + n ≤ 6) : field (encSL k m d f) (i + 19) n = d.extractLsb' i n := by
  refine BitVec.eq_of_getLsbD_eq fun j hj => ?_
  simp only [field, encSL, BitVec.getLsbD_extractLsb', BitVec.getLsbD_append, hj, decide_true, Bool.true_and]
  repeat (first | rw [if_pos (by omega)] | rw [if_neg (by omega)])
  congr 1; omega
theorem encSL_f (i n : Nat) (h : i + n ≤ 19) : field (encSL k m d f) i n = f.extractLsb' i n := by
  refine BitVec.eq_of_getLsbD_eq fun j hj => ?_
  simp only [field, encSL, BitVec.getLsbD_extractLsb', BitVec.getLsbD_append, hj, decide_true, Bool.true_and]
  repeat (first | rw [if_pos (by omega)] | rw [if_neg (by omega)])
end

section
variable (k : Bool) (m : BitVec 6) (c : BitVec 4) (a : BitVec 6) (f : BitVec 15)
theorem encSB_k : (encSB k m c a f).getLsbD 31 = k := by
  simp only [encSB, BitVec.getLsbD_append]; simp
theorem encSB_m : field (encSB k m c a f) 25 6 = m := by
  refine BitVec.eq_of_getLsbD_eq fun j hj => ?_
  simp only [field, encSB, BitVec.getLsbD_extractLsb', BitVec.getLsbD_append, hj, decide_true, Bool.true_and]
  repeat (first | rw [if_pos (by omega)] | rw [if_neg (by omega)])
  congr 1; omega
theorem encSB_c (i n : Nat) (h : i + n ≤ 4) : field (encSB k m c a f) (i + 21) n = c.extractLsb' i n := by
  refine BitVec.eq_of_getLsbD_eq fun j hj => ?_
  simp only [field, encSB, BitVec.getLsbD_extractLsb', BitVec.getLsbD_append, hj, decide_true, Bool.true_and]
  repeat (first | rw [if_pos (by omega)] | rw [if_neg (by omega)])
  congr 1; omega
theorem encSB_a (i n : Nat) (h : i + n ≤ 6) : field (encSB k m c a f) (i + 15) n = a.extractLsb' i n := by
  refine BitVec.eq_of_getLsbD_eq fun j hj => ?_
  simp only [field, encSB, BitVec.getLsbD_extractLsb', BitVec.getLsbD_append, hj, decide_true, Bool.true_and]
  repeat (first | rw [if_pos (by omega)] | rw [if_neg (by omega)])
  congr 1; omega
theorem encSB_f (i n : Nat) (h : i + n ≤ 15) : field (encSB k m c a f) i n = f.extractLsb' i n := by
  refine BitVec.eq_of_getLsbD_eq fun j hj => ?_
  simp only [field, encSB, BitVec.getLsbD_extractLsb', BitVec.getLsbD_append, hj, decide_true, Bool.true_and]
  repeat (first | rw [if_pos (by omega)] | rw [if_neg (by omega)])
end

section
variable (k : Bool) (m : BitVec 6) (f : BitVec 25)
theorem encSJ_k : (encSJ k m f).getLsbD 31 = k := by
  simp only [encSJ, BitVec.getLsbD_append]; simp
theorem encSJ_m : field (encSJ k m f) 25 6 = m := by
  refine BitVec.eq_of_getLsbD_eq fun j hj => ?_
  simp only [field, encSJ, BitVec.getLsbD_extractLsb', BitVec.getLsbD_append, hj, decide_true, Bool.true_and]
  repeat (first | rw [if_pos (by omega)] | rw [if_neg (by omega)])
  congr 1; omega
theorem encSJ_f (i n : Nat) (h : i + n ≤ 25) : field (encSJ k m f) i n = f.extractLsb' i n := by
  refine BitVec.eq_of_getLsbD_eq fun j hj => ?_
  simp only [field, encSJ, BitVec.getLsbD_extractLsb', BitVec.getLsbD_append, hj, decide_true, Bool.true_and]
  repeat (first | rw [if_pos (by omega)] | rw [if_neg (by omega)])
end

section
variable (k : Bool) (m : BitVec 6) (d : BitVec 6) (a : BitVec 6) (l : BitVec 2) (b : BitVec 6) (f : BitVec 5)
theorem encSW_k : (encSW k m d a l b f).getLsbD 31 = k := by
  simp only [encSW, BitVec.getLsbD_append]; simp
theorem encSW_m : field (encSW k m d a l b f) 25 6 = m := by
  refine BitVec.eq_of_getLsbD_eq fun j hj => ?_
  simp only [field, encSW, BitVec.getLsbD_extractLsb', BitVec.getLsbD_append, hj, decide_true, Bool.true_and]
  repeat (first | rw [if_pos (by omega)] | rw [if_neg (by omega)])
  congr 1; omega
theorem encSW_d (i n : Nat) (h : i + n ≤ 6) : field (encSW k m d a l b f) (i + 19) n = d.extractLsb' i n := by
  refine BitVec.eq_of_getLsbD_eq fun j hj => ?_
  simp only [field, encSW, BitVec.getLsbD_extractLsb', BitVec.getLsbD_append, hj, decide_true, Bool.true_and]
  repeat (first | rw [if_pos (by omega)] | rw [if_neg (by omega)])
  congr 1; omega
theorem encSW_a (i n : Nat) (h : i + n ≤ 6) : field (encSW k m d a l b f) (i + 13) n = a.extractLsb' i n := by
  refine BitVec.eq_of_getLsbD_eq fun j hj => ?_
  simp only [field, encSW, BitVec.getLsbD_extractLsb', BitVec.getLsbD_append, hj, decide_true, Bool.true_and]
  repeat (first | rw [if_pos (by omega)] | rw [if_neg (by omega)])
  congr 1; omega
theorem encSW_l (i n : Nat) (h : i + n ≤ 2) : field (encSW k m d a l b f) (i + 11) n = l.extractLsb' i n := by
  refine BitVec.eq_of_getLsbD_eq fun j hj => ?_
  simp only [field, encSW, BitVec.getLsbD_extractLsb', BitVec.getLsbD_append, hj, decide_true, Bool.true_and]
  repeat (first | rw [if_pos (by omega)] | rw [if_neg (by omega)])
  congr 1; omega
theorem encSW_b (i n : Nat) (h : i + n ≤ 6) : field (encSW k m d a l b f) (i + 5) n = b.extractLsb' i n := by
  refine BitVec.eq_of_getLsbD_eq fun j hj => ?_
  simp only [field, encSW, BitVec.getLsbD_extractLsb', BitVec.getLsbD_append, hj, decide_true, Bool.true_and]
  repeat (first | rw [if_pos (by omega)] | rw [if_neg (by omega)])
  congr 1; omega
theorem encSW_f (i n : Nat) (h : i + n ≤ 5) : field (encSW k m d a l b f) i n = f.extractLsb' i n := by
  refine BitVec.eq_of_getLsbD_eq fun j hj => ?_
  simp only [field, encSW, BitVec.getLsbD_extractLsb', BitVec.getLsbD_append, hj, decide_true, Bool.true_and]
  repeat (first | rw [if_pos (by omega)] | rw [if_neg (by omega)])
end

section
variable (k : Bool) (m : BitVec 6) (d : BitVec 6) (a : BitVec 6) (l : BitVec 2) (z : BitVec 5) (f : BitVec 6)
theorem encWF_k : (BitVec.ofBool k ++ m ++ d ++ a ++ l ++ z ++ f).getLsbD 31 = k := by
  simp only [BitVec.getLsbD_append]; simp
theorem encWF_m : field (BitVec.ofBool k ++ m ++ d ++ a ++ l ++ z ++ f) 25 6 = m := by
  refine BitVec.eq_of_getLsbD_eq fun j hj => ?_
  simp only [field, field, BitVec.getLsbD_extractLsb', BitVec.getLsbD_append, hj, decide_true, Bool.true_and]
  repeat (first | rw [if_pos (by omega)] | rw [if_neg (by omega)])
  congr 1; omega
theorem encWF_d (i n : Nat) (h : i + n ≤ 6) : field (BitVec.ofBool k ++ m ++ d ++ a ++ l ++ z ++ f) (i + 19) n = d.extractLsb' i n := by
  refine BitVec.eq_of_getLsbD_eq fun j hj => ?_
  simp only [field, field, BitVec.getLsbD_extractLsb', BitVec.getLsbD_append, hj, decide_true, Bool.true_and]
  repeat (first | rw [if_pos (by omega)] | rw [if_neg (by omega)])
  congr 1; omega
theorem encWF_a (i n : Nat) (h : i + n ≤ 6) : field (BitVec.ofBool k ++ m ++ d ++ a ++ l ++ z ++ f) (i + 13) n = a.extractLsb' i n := by
  refine BitVec.eq_of_getLsbD_eq fun j hj => ?_
  simp only [field, field, BitVec.getLsbD_extractLsb', BitVec.getLsbD_append, hj, decide_true, Bool.true_and]
  repeat (first | rw [if_pos (by omega)] | rw [if_neg (by omega)])
  congr 1; omega
theorem encWF_l (i n : Nat) (h : i + n ≤ 2) : field (BitVec.ofBool k ++ m ++ d ++ a ++ l ++ z ++ f) (i + 11) n = l.extractLsb' i n := by
  refine BitVec.eq_of_getLsbD_eq fun j hj => ?_
  simp only [field, field, BitVec.getLsbD_extractLsb', BitVec.getLsbD_append, hj, decide_true, Bool.true_and]
  repeat (first | rw [if_pos (by omega)] | rw [if_neg (by omega)])
  congr 1; omega
theorem encWF_z (i n : Nat) (h : i + n ≤ 5) : field (BitVec.ofBool k ++ m ++ d ++ a ++ l ++ z ++ f) (i + 6) n = z.extractLsb' i n := by
  refine BitVec.eq_of_getLsbD_eq fun j hj => ?_
  simp only [field, field, BitVec.getLsbD_extractLsb', BitVec.getLsbD_append, hj, decide_true, Bool.true_and]
  repeat (first | rw [if_pos (by omega)] | rw [if_neg (by omega)])
  congr 1; omega
theorem encWF_f (i n : Nat) (h : i + n ≤ 6) : field (BitVec.ofBool k ++ m ++ d ++ a ++ l ++ z ++ f) i n = f.extractLsb' i n := by
  refine BitVec.eq_of_getLsbD_eq fun j hj => ?_
  simp only [field, field, BitVec.getLsbD_extractLsb', BitVec.getLsbD_append, hj, decide_true, Bool.true_and]
  repeat (first | rw [if_pos (by omega)] | rw [if_neg (by omega)])
end

theorem encS3_flag (k : Bool) (m d a b : BitVec 6) (f : BitVec 7) : (encS3 k m d a b f).getLsbD 13 = a.getLsbD 0 := by
  simp only [encS3, BitVec.getLsbD_append]; simp
theorem low3_low (p : BitVec 3) : (low3 p).extractLsb' 0 3 = p := by revert p; decide
theorem low3_high (p : BitVec 3) : (low3 p).extractLsb' 3 3 = 0 := by revert p; decide
theorem low2_low (p : BitVec 2) : (low2 p).extractLsb' 0 2 = p := by revert p; decide
theorem low2_high (p : BitVec 2) : (low2 p).extractLsb' 2 4 = 0 := by revert p; decide
theorem count_low (c : BitVec 6) : (c.setWidth 13).extractLsb' 0 6 = c := by revert c; decide
theorem count_high (c : BitVec 6) : (c.setWidth 13).extractLsb' 6 7 = 0 := by revert c; decide
theorem saves_low (c : BitVec 4) : (c.setWidth 13).extractLsb' 0 4 = c := by revert c; decide
theorem saves_high (c : BitVec 4) : (c.setWidth 13).extractLsb' 4 9 = 0 := by revert c; decide
theorem flags_join (f : BitVec 12) : f.extractLsb' 6 6 ++ f.extractLsb' 0 6 = f := by
  refine BitVec.eq_of_getLsbD_eq fun j hj => ?_
  simp only [BitVec.getLsbD_append, BitVec.getLsbD_extractLsb']
  split
  · simp [*]
  · rw [show 6 + (j - 6) = j by omega]; simp; omega

theorem major_0x01 (w : BitVec 32) (h : field w 25 6 = 0x01) : decodeFields w =
    decodeInteger w := by
  unfold decodeFields; rw [h]; rfl
theorem major_0x02 (w : BitVec 32) (h : field w 25 6 = 0x02) : decodeFields w =
    .ok (.addi (w.getLsbD 31) (field w 19 6) (field w 13 6) (field w 0 13)) := by
  unfold decodeFields; rw [h]; rfl
theorem major_0x03 (w : BitVec 32) (h : field w 25 6 = 0x03) : decodeFields w =
    .ok (.andi (w.getLsbD 31) (field w 19 6) (field w 13 6) (field w 0 13)) := by
  unfold decodeFields; rw [h]; rfl
theorem major_0x04 (w : BitVec 32) (h : field w 25 6 = 0x04) : decodeFields w =
    .ok (.ori (w.getLsbD 31) (field w 19 6) (field w 13 6) (field w 0 13)) := by
  unfold decodeFields; rw [h]; rfl
theorem major_0x05 (w : BitVec 32) (h : field w 25 6 = 0x05) : decodeFields w =
    .ok (.xori (w.getLsbD 31) (field w 19 6) (field w 13 6) (field w 0 13)) := by
  unfold decodeFields; rw [h]; rfl
theorem major_0x06 (w : BitVec 32) (h : field w 25 6 = 0x06) : decodeFields w =
    res0 (field w 6 7 == 0) (.shli (w.getLsbD 31) (field w 19 6) (field w 13 6) (field w 0 6)) := by
  unfold decodeFields; rw [h]; rfl
theorem major_0x07 (w : BitVec 32) (h : field w 25 6 = 0x07) : decodeFields w =
    res0 (field w 6 7 == 0) (.shri (w.getLsbD 31) (field w 19 6) (field w 13 6) (field w 0 6)) := by
  unfold decodeFields; rw [h]; rfl
theorem major_0x08 (w : BitVec 32) (h : field w 25 6 = 0x08) : decodeFields w =
    res0 (field w 6 7 == 0) (.srai (w.getLsbD 31) (field w 19 6) (field w 13 6) (field w 0 6)) := by
  unfold decodeFields; rw [h]; rfl
theorem major_0x09 (w : BitVec 32) (h : field w 25 6 = 0x09) : decodeFields w =
    .ok (.slti (w.getLsbD 31) (field w 19 6) (field w 13 6) (field w 0 13)) := by
  unfold decodeFields; rw [h]; rfl
theorem major_0x0A (w : BitVec 32) (h : field w 25 6 = 0x0A) : decodeFields w =
    .ok (.sltni (w.getLsbD 31) (field w 19 6) (field w 13 6) (field w 0 13)) := by
  unfold decodeFields; rw [h]; rfl
theorem major_0x0B (w : BitVec 32) (h : field w 25 6 = 0x0B) : decodeFields w =
    .ok (.muli (w.getLsbD 31) (field w 19 6) (field w 13 6) (field w 0 13)) := by
  unfold decodeFields; rw [h]; rfl
theorem major_0x0C (w : BitVec 32) (h : field w 25 6 = 0x0C) : decodeFields w =
    .ok (.lui (w.getLsbD 31) (field w 19 6) (field w 0 19)) := by
  unfold decodeFields; rw [h]; rfl
theorem major_0x0D (w : BitVec 32) (h : field w 25 6 = 0x0D) : decodeFields w =
    .ok (.lpc (w.getLsbD 31) (field w 19 6) (field w 0 19)) := by
  unfold decodeFields; rw [h]; rfl
theorem major_0x0E (w : BitVec 32) (h : field w 25 6 = 0x0E) : decodeFields w =
    .ok (.lcat (w.getLsbD 31) (field w 19 6) (field w 0 19)) := by
  unfold decodeFields; rw [h]; rfl
theorem major_0x10 (w : BitVec 32) (h : field w 25 6 = 0x10) : decodeFields w =
    decodeBranch w := by
  unfold decodeFields; rw [h]; rfl
theorem major_0x12 (w : BitVec 32) (h : field w 25 6 = 0x12) : decodeFields w =
    .ok (.jmp (w.getLsbD 31) (field w 0 25)) := by
  unfold decodeFields; rw [h]; rfl
theorem major_0x13 (w : BitVec 32) (h : field w 25 6 = 0x13) : decodeFields w =
    .ok (.call (w.getLsbD 31) (field w 21 4) (field w 15 6) (field w 0 15)) := by
  unfold decodeFields; rw [h]; rfl
theorem major_0x14 (w : BitVec 32) (h : field w 25 6 = 0x14) : decodeFields w =
    res0 (field w 4 9 == 0) (.callr (w.getLsbD 31) (field w 19 6) (field w 13 6) (field w 0 4)) := by
  unfold decodeFields; rw [h]; rfl
theorem major_0x15 (w : BitVec 32) (h : field w 25 6 = 0x15) : decodeFields w =
    res0 ((field w 19 6) == 0 && field w 4 9 == 0) (.ret (w.getLsbD 31) (field w 13 6) (field w 0 4)) := by
  unfold decodeFields; rw [h]; rfl
theorem major_0x16 (w : BitVec 32) (h : field w 25 6 = 0x16) : decodeFields w =
    res0 (field w 0 25 == 0) (.exit (w.getLsbD 31)) := by
  unfold decodeFields; rw [h]; rfl
theorem major_0x18 (w : BitVec 32) (h : field w 25 6 = 0x18) : decodeFields w =
    .ok (.lrun (w.getLsbD 31) (field w 19 6) (field w 0 19)) := by
  unfold decodeFields; rw [h]; rfl
theorem major_0x1A (w : BitVec 32) (h : field w 25 6 = 0x1A) : decodeFields w =
    decodeWait w := by
  unfold decodeFields; rw [h]; rfl
theorem major_0x1B (w : BitVec 32) (h : field w 25 6 = 0x1B) : decodeFields w =
    res0 (field w 6 5 == 0) (.waitf (w.getLsbD 31) (field w 19 6) (decodeFlags w) (field w 11 2)) := by
  unfold decodeFields; rw [h]; rfl
theorem major_0x1C (w : BitVec 32) (h : field w 25 6 = 0x1C) : decodeFields w =
    decodeSync w := by
  unfold decodeFields; rw [h]; rfl
theorem major_0x1D (w : BitVec 32) (h : field w 25 6 = 0x1D) : decodeFields w =
    decodeMask w := by
  unfold decodeFields; rw [h]; rfl
theorem major_0x1E (w : BitVec 32) (h : field w 25 6 = 0x1E) : decodeFields w =
    decodeDeadline w := by
  unfold decodeFields; rw [h]; rfl
theorem major_0x20 (w : BitVec 32) (h : field w 25 6 = 0x20) : decodeFields w =
    .ok (.sldI8 (w.getLsbD 31) (field w 19 6) (field w 13 6) (field w 0 13)) := by
  unfold decodeFields; rw [h]; rfl
theorem major_0x21 (w : BitVec 32) (h : field w 25 6 = 0x21) : decodeFields w =
    .ok (.sldN8 (w.getLsbD 31) (field w 19 6) (field w 13 6) (field w 0 13)) := by
  unfold decodeFields; rw [h]; rfl
theorem major_0x22 (w : BitVec 32) (h : field w 25 6 = 0x22) : decodeFields w =
    .ok (.sldI16 (w.getLsbD 31) (field w 19 6) (field w 13 6) (field w 0 13)) := by
  unfold decodeFields; rw [h]; rfl
theorem major_0x23 (w : BitVec 32) (h : field w 25 6 = 0x23) : decodeFields w =
    .ok (.sldN16 (w.getLsbD 31) (field w 19 6) (field w 13 6) (field w 0 13)) := by
  unfold decodeFields; rw [h]; rfl
theorem major_0x24 (w : BitVec 32) (h : field w 25 6 = 0x24) : decodeFields w =
    .ok (.sldI32 (w.getLsbD 31) (field w 19 6) (field w 13 6) (field w 0 13)) := by
  unfold decodeFields; rw [h]; rfl
theorem major_0x25 (w : BitVec 32) (h : field w 25 6 = 0x25) : decodeFields w =
    .ok (.sldN32 (w.getLsbD 31) (field w 19 6) (field w 13 6) (field w 0 13)) := by
  unfold decodeFields; rw [h]; rfl
theorem major_0x26 (w : BitVec 32) (h : field w 25 6 = 0x26) : decodeFields w =
    .ok (.sldN64 (w.getLsbD 31) (field w 19 6) (field w 13 6) (field w 0 13)) := by
  unfold decodeFields; rw [h]; rfl
theorem major_0x28 (w : BitVec 32) (h : field w 25 6 = 0x28) : decodeFields w =
    .ok (.sstN8 (w.getLsbD 31) (field w 19 6) (field w 13 6) (field w 0 13)) := by
  unfold decodeFields; rw [h]; rfl
theorem major_0x29 (w : BitVec 32) (h : field w 25 6 = 0x29) : decodeFields w =
    .ok (.sstN16 (w.getLsbD 31) (field w 19 6) (field w 13 6) (field w 0 13)) := by
  unfold decodeFields; rw [h]; rfl
theorem major_0x2A (w : BitVec 32) (h : field w 25 6 = 0x2A) : decodeFields w =
    .ok (.sstN32 (w.getLsbD 31) (field w 19 6) (field w 13 6) (field w 0 13)) := by
  unfold decodeFields; rw [h]; rfl
theorem major_0x2B (w : BitVec 32) (h : field w 25 6 = 0x2B) : decodeFields w =
    .ok (.sstN64 (w.getLsbD 31) (field w 19 6) (field w 13 6) (field w 0 13)) := by
  unfold decodeFields; rw [h]; rfl
theorem major_0x2C (w : BitVec 32) (h : field w 25 6 = 0x2C) : decodeFields w =
    decodeEngine w := by
  unfold decodeFields; rw [h]; rfl
theorem major_0x2D (w : BitVec 32) (h : field w 25 6 = 0x2D) : decodeFields w =
    decodeTile w := by
  unfold decodeFields; rw [h]; rfl
theorem major_0x30 (w : BitVec 32) (h : field w 25 6 = 0x30) : decodeFields w =
    res0 ((field w 13 6) == 0) (.csrr (w.getLsbD 31) (field w 19 6) (field w 0 13)) := by
  unfold decodeFields; rw [h]; rfl
theorem major_0x31 (w : BitVec 32) (h : field w 25 6 = 0x31) : decodeFields w =
    res0 ((field w 19 6) == 0) (.csrw (w.getLsbD 31) (field w 13 6) (field w 0 13)) := by
  unfold decodeFields; rw [h]; rfl
theorem major_0x32 (w : BitVec 32) (h : field w 25 6 = 0x32) : decodeFields w =
    res0 (field w 7 6 == 0) (.xrd (w.getLsbD 31) (field w 19 6) (field w 13 6) (field w 0 7)) := by
  unfold decodeFields; rw [h]; rfl
theorem major_0x33 (w : BitVec 32) (h : field w 25 6 = 0x33) : decodeFields w =
    res0 ((field w 19 6) == 0) (.xwr (w.getLsbD 31) (field w 13 6) (field w 7 6) (field w 0 7)) := by
  unfold decodeFields; rw [h]; rfl
theorem major_0x3C (w : BitVec 32) (h : field w 25 6 = 0x3C) : decodeFields w =
    decodeSystem w := by
  unfold decodeFields; rw [h]; rfl
theorem major_0x11_0x0 (w : BitVec 32) (h : field w 25 6 = 0x11) (g : field w 21 4 = 0x0) : decodeFields w =
    res0 (field w 18 3 == 0) (.mpush (w.getLsbD 31) (field w 15 3) (field w 0 15)) := by
  unfold decodeFields; rw [h, g]; rfl
theorem major_0x11_0x1 (w : BitVec 32) (h : field w 25 6 = 0x11) (g : field w 21 4 = 0x1) : decodeFields w =
    res0 (field w 18 3 == 0) (.mbrk (w.getLsbD 31) (field w 15 3) (field w 0 15)) := by
  unfold decodeFields; rw [h, g]; rfl
theorem major_0x2E_0x00 (w : BitVec 32) (h : field w 25 6 = 0x2E) (g : field w 0 7 = 0x00) : decodeFields w =
    res0 ((field w 13 6) == 0 && field w 7 6 == 0) (.tbat (w.getLsbD 31) (field w 19 6)) := by
  unfold decodeFields; rw [h, g]; rfl
theorem major_0x2E_0x01 (w : BitVec 32) (h : field w 25 6 = 0x2E) (g : field w 0 7 = 0x01) : decodeFields w =
    res0 (field w 7 6 == 0) (.tlinfo (w.getLsbD 31) (field w 19 6) (field w 13 6)) := by
  unfold decodeFields; rw [h, g]; rfl

/-- A lane opcode's number names it. -/
theorem ofCode_code (op : LaneOp) : LaneOp.ofCode op.code.toNat = some op := by cases op <;> rfl

/-- A type's code names it. -/
theorem Ty_ofCode_code (t : Ty) : Ty.ofCode t.code = t := by cases t <;> rfl

end Sys2Proof.Laws
end

