-- ==== Sys2Proof/Laws/Lane.lean ====
section
/-!
SUPPORT. The order of lanes: the lanes of a mask ascend, and the ends of a lane instruction are put in that order without loss.
-/
namespace Sys2Proof.Machine

theorem mem_upTo (a n x : Nat) : x ∈ upTo a n ↔ a ≤ x ∧ x < a + n := by
  induction n generalizing a with
  | zero => simp [upTo]
  | succ n ih => simp [upTo, ih]; omega

theorem upTo_ascends (a n : Nat) : (upTo a n).Pairwise (· < ·) := by
  induction n generalizing a with
  | zero => exact .nil
  | succ n ih =>
    refine List.pairwise_cons.mpr ⟨fun x h => ?_, ih _⟩
    have := (mem_upTo _ _ _).mp h
    omega

theorem mem_lanesOf (m : Mask) (width l : Nat) : l ∈ lanesOf m width ↔ l < width ∧ m.getLsbD l = true := by
  simp [lanesOf, mem_upTo]

theorem lanesOf_ascends (m : Mask) (width : Nat) : (lanesOf m width).Pairwise (· < ·) := (upTo_ascends 0 width).filter _

theorem insertLane_perm {α : Type} (e : Nat × α) (l : Table α) : (insertLane e l).Perm (e :: l) := by
  induction l with
  | nil => exact .refl _
  | cons x xs ih =>
    unfold insertLane
    split
    · exact (ih.cons x).trans (.swap e x xs)
    · exact .refl _

/-- Putting ends in lane order loses none and adds none. -/
theorem inLaneOrder_perm {α : Type} (l : Table α) : (inLaneOrder l).Perm l := by
  induction l with
  | nil => exact .refl _
  | cons e l ih => exact (insertLane_perm e _).trans (ih.cons e)

theorem insertLane_ascends {α : Type} (e : Nat × α) {l : Table α} (h : l.Pairwise fun a b => a.1 ≤ b.1) :
    (insertLane e l).Pairwise fun a b => a.1 ≤ b.1 := by
  induction l with
  | nil => simp [insertLane]
  | cons x xs ih =>
    obtain ⟨hx, ht⟩ := List.pairwise_cons.mp h
    unfold insertLane
    split
    · refine List.pairwise_cons.mpr ⟨fun y hy => ?_, ih ht⟩
      rcases List.mem_cons.mp ((insertLane_perm e xs).mem_iff.mp hy) with rfl | hy
      · omega
      · exact hx y hy
    · refine List.pairwise_cons.mpr ⟨fun y hy => ?_, h⟩
      rcases List.mem_cons.mp hy with rfl | hy
      · omega
      · have := hx y hy; omega

/-- The ends of a lane instruction stand in lane order. -/
theorem inLaneOrder_ascends {α : Type} (l : Table α) : (inLaneOrder l).Pairwise fun a b => a.1 ≤ b.1 := by
  induction l with
  | nil => exact .nil
  | cons e l ih => exact insertLane_ascends e ih

/-- Ends that stand in lane order stay as they are. -/
theorem inLaneOrder_self {α : Type} {l : Table α} (h : l.Pairwise fun a b => a.1 ≤ b.1) : inLaneOrder l = l := by
  induction l with
  | nil => rfl
  | cons e l ih =>
    obtain ⟨he, ht⟩ := List.pairwise_cons.mp h
    show insertLane e (inLaneOrder l) = e :: l
    rw [ih ht]
    cases l with
    | nil => rfl
    | cons x xs => simp [insertLane, Nat.not_lt.mpr (he x (by simp))]

end Sys2Proof.Machine
end

