-- ==== Sys2Proof/Laws/Memory.lean ====
section
/-!
SUPPORT. Tables and memory: the canonical form and what keeps it, reads after writes, and byte order.
-/
namespace Sys2Proof.Machine

/-! ### The canonical form -/

theorem Table.wf_iff {α : Type} [DecidableEq α] (d : α) (t : Table α) :
    Table.wf d t = true ↔ t.Pairwise (fun a b => a.1 < b.1) ∧ ∀ e ∈ t, e.2 ≠ d := by
  induction t with
  | nil => simp [Table.wf]
  | cons e t ih =>
    obtain ⟨k, v⟩ := e
    cases t with
    | nil => simp [Table.wf]
    | cons f u =>
      obtain ⟨k', v'⟩ := f
      simp only [Table.wf, Bool.and_eq_true, bne_iff_ne, ne_eq, decide_eq_true_eq, ih, List.pairwise_cons,
        List.mem_cons, forall_eq_or_imp]
      constructor
      · rintro ⟨⟨hv, hk⟩, ⟨hp, hq⟩, hv', hr⟩
        exact ⟨⟨⟨hk, fun b hb => Nat.lt_trans hk (hp b hb)⟩, hp, hq⟩, hv, hv', hr⟩
      · rintro ⟨⟨⟨hk, -⟩, hp, hq⟩, hv, hv', hr⟩
        exact ⟨⟨hv, hk⟩, ⟨hp, hq⟩, hv', hr⟩

theorem Table.wf_filter {α : Type} [DecidableEq α] {d : α} {t : Table α} (p : Nat × α → Bool)
    (h : Table.wf d t = true) : Table.wf d (t.filter p) = true := by
  rw [Table.wf_iff] at *
  exact ⟨h.1.filter p, fun e he => h.2 e (List.mem_filter.mp he).1⟩

theorem Table.wf_append {α : Type} [DecidableEq α] {d : α} {t u : Table α} (ht : Table.wf d t = true)
    (hu : Table.wf d u = true) (h : ∀ a ∈ t, ∀ b ∈ u, a.1 < b.1) : Table.wf d (t ++ u) = true := by
  rw [Table.wf_iff] at *
  refine ⟨List.pairwise_append.mpr ⟨ht.1, hu.1, h⟩, fun e he => ?_⟩
  rcases List.mem_append.mp he with he | he
  · exact ht.2 e he
  · exact hu.2 e he

/-- A value put at a key keeps the canonical form. -/
theorem Table.wf_set {α : Type} [DecidableEq α] {d : α} {t : Table α} (n : Nat) (v : α)
    (h : Table.wf d t = true) : Table.wf d (Table.set d t n v) = true := by
  unfold Table.set
  refine Table.wf_append (Table.wf_filter _ h) (Table.wf_append ?_ (Table.wf_filter _ h) ?_) ?_
  · split
    · rfl
    · simp [Table.wf, *]
  · intro a ha b hb
    split at ha
    · simp at ha
    · simp at ha hb
      simp [ha, hb.2]
  · intro a ha b hb
    simp only [List.mem_filter, decide_eq_true_eq, List.mem_append] at ha hb
    rcases hb with hb | hb
    · split at hb
      · simp at hb
      · simp at hb
        simp [hb, ha.2]
    · exact Nat.lt_trans ha.2 hb.2

theorem mem_cellsFrom {a : Nat} {bs : List Byte} {e : Host.Cell} (h : e ∈ cellsFrom a bs) :
    a ≤ e.1 ∧ e.1 < a + bs.length ∧ e.2 ≠ unlistedByte := by
  induction bs generalizing a with
  | nil => simp [cellsFrom] at h
  | cons x xs ih =>
    unfold cellsFrom at h
    split at h
    · have := ih h
      simp only [List.length_cons]
      exact ⟨by omega, by omega, this.2.2⟩
    · rcases List.mem_cons.mp h with h | h
      · subst h
        simp only [List.length_cons]
        exact ⟨by omega, by omega, by assumption⟩
      · have := ih h
        simp only [List.length_cons]
        exact ⟨by omega, by omega, this.2.2⟩

theorem wf_cellsFrom (a : Nat) (bs : List Byte) : Memory.wf (cellsFrom a bs) := by
  rw [Memory.wf, Table.wf_iff]
  refine ⟨?_, fun e he => (mem_cellsFrom he).2.2⟩
  induction bs generalizing a with
  | nil => simp [cellsFrom]
  | cons x xs ih =>
    unfold cellsFrom
    split
    · exact ih _
    · refine List.pairwise_cons.mpr ⟨fun e he => ?_, ih _⟩
      have := (mem_cellsFrom he).1
      simp only
      omega

/-- Bytes written keep the canonical form. -/
theorem writeBytes_wf {m : List Host.Cell} (a : Nat) (bs : List Byte) (h : Memory.wf m) : Memory.wf (writeBytes m a bs) := by
  unfold writeBytes
  refine Table.wf_append (Table.wf_filter _ h) (Table.wf_append (wf_cellsFrom a bs) (Table.wf_filter _ h) ?_) ?_
  · intro x hx y hy
    have h1 := mem_cellsFrom hx
    simp only [List.mem_filter, decide_eq_true_eq] at hy
    omega
  · intro x hx y hy
    simp only [List.mem_filter, decide_eq_true_eq, List.mem_append] at hx hy
    rcases hy with hy | hy
    · have := mem_cellsFrom hy
      omega
    · omega

/-- Bytes cleared keep the canonical form. -/
theorem clearBytes_wf {m : List Host.Cell} (a n : Nat) (h : Memory.wf m) : Memory.wf (clearBytes m a n) :=
  Table.wf_filter _ h

/-! ### Reads after writes -/

/-- A table without the key reads as the default. -/
theorem Table.get_of_forall_ne {α : Type} {d : α} {t : Table α} {n : Nat} (h : ∀ e ∈ t, e.1 ≠ n) : Table.get d t n = d := by
  induction t with
  | nil => rfl
  | cons e t ih =>
    obtain ⟨k, v⟩ := e
    have h1 := h (k, v) (List.mem_cons_self ..)
    simp only [Table.get]
    rw [if_neg (fun hc => h1 hc.symm)]
    exact ih fun e he => h e (List.mem_cons_of_mem _ he)

/-- A table reads as its first part where that lists the key, else as its second. -/
theorem Table.get_append {α : Type} {d : α} {t u : Table α} {n : Nat} (h : ∀ e ∈ t, e.1 ≠ n) :
    Table.get d (t ++ u) n = Table.get d u n := by
  induction t with
  | nil => rfl
  | cons e t ih =>
    obtain ⟨k, v⟩ := e
    have h1 := h (k, v) (List.mem_cons_self ..)
    simp only [List.cons_append, Table.get]
    rw [if_neg (fun hc => h1 hc.symm)]
    exact ih fun e he => h e (List.mem_cons_of_mem _ he)

theorem Table.get_append_right {α : Type} {d : α} {t u : Table α} {n : Nat} (h : ∀ e ∈ u, e.1 ≠ n) :
    Table.get d (t ++ u) n = Table.get d t n := by
  induction t with
  | nil => simpa [Table.get] using Table.get_of_forall_ne h
  | cons e t ih =>
    obtain ⟨k, v⟩ := e
    simp only [List.cons_append, Table.get, ih]

/-- A filter that keeps a key leaves what the table reads there. -/
theorem Table.get_filter {α : Type} {d : α} {t : Table α} {n : Nat} (p : Nat × α → Bool)
    (h : ∀ v, p (n, v) = true) : Table.get d (t.filter p) n = Table.get d t n := by
  induction t with
  | nil => rfl
  | cons e t ih =>
    obtain ⟨k, v⟩ := e
    by_cases hk : n = k
    · subst hk
      rw [List.filter_cons_of_pos (h v)]
      simp [Table.get]
    · by_cases hp : p (k, v) = true
      · rw [List.filter_cons_of_pos hp]
        simp [Table.get, hk, ih]
      · rw [List.filter_cons_of_neg hp]
        simp [Table.get, hk, ih]

theorem byteAt_cellsFrom (a : Nat) (bs : List Byte) (i : Nat) (h : i < bs.length) : byteAt (cellsFrom a bs) (a + i) = bs[i] := by
  induction bs generalizing a i with
  | nil => simp at h
  | cons x xs ih =>
    cases i with
    | zero =>
      simp only [cellsFrom, Nat.add_zero, List.getElem_cons_zero]
      split
      · rename_i hx
        rw [byteAt, Table.get_of_forall_ne]
        · exact hx.symm
        · intro e he
          have := (mem_cellsFrom he).1
          omega
      · simp [byteAt, Table.get]
    | succ j =>
      simp only [List.length_cons, Nat.add_lt_add_iff_right] at h
      have h1 := ih (a + 1) j h
      rw [show a + 1 + j = a + (j + 1) by omega] at h1
      simp only [cellsFrom, List.getElem_cons_succ]
      split
      · exact h1
      · rw [byteAt, Table.get, if_neg (by omega)]
        exact h1

/-- A byte inside a write reads as written. -/
theorem byteAt_writeBytes_in (m : List Host.Cell) (a : Nat) (bs : List Byte) (i : Nat) (h : i < bs.length) :
    byteAt (writeBytes m a bs) (a + i) = bs[i] := by
  unfold writeBytes byteAt
  rw [Table.get_append, Table.get_append_right]
  · exact byteAt_cellsFrom a bs i h
  · intro e he
    simp only [List.mem_filter, decide_eq_true_eq] at he
    omega
  · intro e he
    simp only [List.mem_filter, decide_eq_true_eq] at he
    omega

/-- A byte outside a write reads as before. -/
theorem byteAt_writeBytes_out (m : List Host.Cell) (a : Nat) (bs : List Byte) (x : Nat) (h : x < a ∨ a + bs.length ≤ x) :
    byteAt (writeBytes m a bs) x = byteAt m x := by
  unfold writeBytes byteAt
  rcases h with h | h
  · rw [Table.get_append_right, Table.get_filter]
    · intro v; simpa using h
    · intro e he
      rcases List.mem_append.mp he with he | he
      · have := mem_cellsFrom he
        omega
      · simp only [List.mem_filter, decide_eq_true_eq] at he
        omega
  · rw [Table.get_append, Table.get_append, Table.get_filter]
    · intro v; simpa using h
    · intro e he
      have := mem_cellsFrom he
      omega
    · intro e he
      simp only [List.mem_filter, decide_eq_true_eq] at he
      omega

theorem readBytes_length (m : List Host.Cell) (a n : Nat) : (readBytes m a n).length = n := by
  induction n generalizing a with
  | zero => rfl
  | succ n ih => simp [readBytes, ih]

theorem readBytes_getElem (m : List Host.Cell) (a n i : Nat) (h : i < (readBytes m a n).length) :
    (readBytes m a n)[i] = byteAt m (a + i) := by
  induction n generalizing a i with
  | zero => simp [readBytes] at h
  | succ n ih =>
    cases i with
    | zero => simp [readBytes]
    | succ j =>
      simp only [readBytes, List.getElem_cons_succ]
      rw [ih, show a + 1 + j = a + (j + 1) by omega]

/-- A read of what was just written gives it back. -/
theorem readBytes_writeBytes (m : List Host.Cell) (a : Nat) (bs : List Byte) : readBytes (writeBytes m a bs) a bs.length = bs := by
  refine List.ext_getElem (by simp [readBytes_length]) fun i h1 h2 => ?_
  rw [readBytes_getElem, byteAt_writeBytes_in m a bs i h2]

/-- A read apart from a write gives what it gave before. -/
theorem readBytes_writeBytes_out (m : List Host.Cell) (a : Nat) (bs : List Byte) (x n : Nat)
    (h : x + n ≤ a ∨ a + bs.length ≤ x) : readBytes (writeBytes m a bs) x n = readBytes m x n := by
  refine List.ext_getElem (by simp [readBytes_length]) fun i h1 h2 => ?_
  rw [readBytes_length] at h2
  rw [readBytes_getElem, readBytes_getElem, byteAt_writeBytes_out]
  omega

/-! ### Byte order (R18) -/

theorem toBytes_length (n v : Nat) : (toBytes n v).length = n := by
  induction n generalizing v with
  | zero => rfl
  | succ n ih => simp [toBytes, ih]

/-- The bytes of a number read back give its low part. -/
theorem ofBytes_toBytes (n v : Nat) : ofBytes (toBytes n v) = v % 2 ^ (8 * n) := by
  induction n generalizing v with
  | zero => simp [toBytes, ofBytes, Nat.mod_one]
  | succ n ih =>
    simp only [toBytes, ofBytes, ih, BitVec.toNat_ofNat]
    rw [show 8 * (n + 1) = 8 + 8 * n by omega, Nat.pow_add, Nat.mod_mul]

/-! ### The state's memory -/

theorem State.rekey_wf {s : State} (x key : Nat) (h : Memory.wf s.mem) : Memory.wf (s.rekey x key).mem := by
  unfold State.rekey
  split
  · exact h
  · exact writeBytes_wf _ _ h

theorem State.rekeyAll_wf {s : State} (l : List Nat) (key : Nat) (h : Memory.wf s.mem) :
    Memory.wf (l.foldl (fun s x => s.rekey x key) s).mem := by
  induction l generalizing s with
  | nil => exact h
  | cons x l ih => exact ih (State.rekey_wf x key h)

theorem State.writePhys_wf {s : State} (pa : Nat) (bs : List Byte) (key : Nat) (h : Memory.wf s.mem) :
    Memory.wf (s.writePhys pa bs key).mem :=
  writeBytes_wf _ _ (State.rekeyAll_wf _ key h)

/-- A sector that carries the key already is left as it is. -/
theorem State.rekeyAll_same {s : State} {l : List Nat} {key : Nat} (h : ∀ x ∈ l, Table.get 0 s.tags x = key) :
    l.foldl (fun s x => s.rekey x key) s = s := by
  induction l with
  | nil => rfl
  | cons x l ih =>
    have hx : s.rekey x key = s := by
      unfold State.rekey
      exact if_pos (h x (List.mem_cons_self ..))
    rw [List.foldl_cons, hx]
    exact ih fun y hy => h y (List.mem_cons_of_mem _ hy)

/-- A write under the key that its sectors carry changes its bytes and the poison it covers, and nothing else. -/
theorem State.writePhys_same {s : State} {pa : Nat} {bs : List Byte} {key : Nat} (h : s.sameKey pa bs.length key = true) :
    s.writePhys pa bs key = { s with mem := writeBytes s.mem pa bs }.clearPoison pa bs.length := by
  unfold State.writePhys
  rw [State.rekeyAll_same]
  intro x hx
  simp only [State.sameKey, List.all_eq_true, beq_iff_eq] at h
  exact h x hx

theorem State.writePlace_wf {s : State} (p : Place) (bs : List Byte) (h : Memory.wf s.mem) :
    Memory.wf (s.writePlace p bs).mem := by
  unfold State.writePlace
  split
  · exact State.writePhys_wf _ _ _ h
  · split
    · exact h
    · exact h

end Sys2Proof.Machine
end

