-- ==== Sys2Proof/Laws/State.lean ====
section
/-!
SUPPORT. What each small update leaves of each field, so that no proof unfolds a record update.
-/
namespace Sys2Proof.Machine

/-! ### Retirement (R88, R117) -/

@[simp] theorem Party.retire_pid (p : Party) (next : Word) : (p.retire next).pid = p.pid := rfl
@[simp] theorem Party.retire_launch (p : Party) (next : Word) : (p.retire next).launch = p.launch := rfl
@[simp] theorem Party.retire_group (p : Party) (next : Word) : (p.retire next).group = p.group := rfl
@[simp] theorem Party.retire_core (p : Party) (next : Word) : (p.retire next).core = p.core := rfl
@[simp] theorem Party.retire_quad (p : Party) (next : Word) : (p.retire next).quad = p.quad := rfl
@[simp] theorem Party.retire_slot (p : Party) (next : Word) : (p.retire next).slot = p.slot := rfl
@[simp] theorem Party.retire_first (p : Party) (next : Word) : (p.retire next).first = p.first := rfl
@[simp] theorem Party.retire_width (p : Party) (next : Word) : (p.retire next).width = p.width := rfl
@[simp] theorem Party.retire_life (p : Party) (next : Word) : (p.retire next).life = p.life := rfl
@[simp] theorem Party.retire_stopped (p : Party) (next : Word) : (p.retire next).stopped = p.stopped := rfl
@[simp] theorem Party.retire_evicted (p : Party) (next : Word) : (p.retire next).evicted = p.evicted := rfl
@[simp] theorem Party.retire_evictedAt (p : Party) (next : Word) : (p.retire next).evictedAt = p.evictedAt := rfl
@[simp] theorem Party.retire_hmode (p : Party) (next : Word) : (p.retire next).hmode = p.hmode := rfl
@[simp] theorem Party.retire_handlingLane (p : Party) (next : Word) : (p.retire next).handlingLane = p.handlingLane := rfl
@[simp] theorem Party.retire_s (p : Party) (next : Word) : (p.retire next).s = p.s := rfl
@[simp] theorem Party.retire_p (p : Party) (next : Word) : (p.retire next).p = p.p := rfl
@[simp] theorem Party.retire_ls (p : Party) (next : Word) : (p.retire next).ls = p.ls := rfl
@[simp] theorem Party.retire_dl (p : Party) (next : Word) : (p.retire next).dl = p.dl := rfl
@[simp] theorem Party.retire_ptime (p : Party) (next : Word) : (p.retire next).ptime = p.ptime := rfl
@[simp] theorem Party.retire_st (p : Party) (next : Word) : (p.retire next).st = p.st := rfl
@[simp] theorem Party.retire_rnd (p : Party) (next : Word) : (p.retire next).rnd = p.rnd := rfl
@[simp] theorem Party.retire_nvr (p : Party) (next : Word) : (p.retire next).nvr = p.nvr := rfl
@[simp] theorem Party.retire_xcount (p : Party) (next : Word) : (p.retire next).xcount = p.xcount := rfl
@[simp] theorem Party.retire_b (p : Party) (next : Word) : (p.retire next).b = p.b := rfl
@[simp] theorem Party.retire_lo (p : Party) (next : Word) : (p.retire next).lo = p.lo := rfl
@[simp] theorem Party.retire_regs (p : Party) (next : Word) : (p.retire next).regs = p.regs := rfl
@[simp] theorem Party.retire_fresh (p : Party) (next : Word) : (p.retire next).fresh = p.fresh := rfl
@[simp] theorem Party.retire_regTag (p : Party) (next : Word) : (p.retire next).regTag = p.regTag := rfl
@[simp] theorem Party.retire_tokens (p : Party) (next : Word) : (p.retire next).tokens = p.tokens := rfl
@[simp] theorem Party.retire_spilled (p : Party) (next : Word) : (p.retire next).spilled = p.spilled := rfl
@[simp] theorem Party.retire_copying (p : Party) (next : Word) : (p.retire next).copying = p.copying := rfl
@[simp] theorem Party.retire_flags (p : Party) (next : Word) : (p.retire next).flags = p.flags := rfl
@[simp] theorem Party.retire_queue (p : Party) (next : Word) : (p.retire next).queue = p.queue := rfl
@[simp] theorem Party.retire_laneCtr (p : Party) (next : Word) : (p.retire next).laneCtr = p.laneCtr := rfl
@[simp] theorem Party.retire_pt (p : Party) (next : Word) : (p.retire next).pt = p.pt := rfl
@[simp] theorem Party.retire_redo (p : Party) (next : Word) : (p.retire next).redo = p.redo := rfl
@[simp] theorem Party.retire_inflight (p : Party) (next : Word) : (p.retire next).inflight = p.inflight := rfl
@[simp] theorem Party.retire_part (p : Party) (next : Word) : (p.retire next).part = p.part := rfl
@[simp] theorem Party.retire_recent (p : Party) (next : Word) : (p.retire next).recent = p.recent := rfl
@[simp] theorem Party.retire_looseMasks (p : Party) (next : Word) : (p.retire next).looseMasks = p.looseMasks := rfl
@[simp] theorem Party.retire_lruns (p : Party) (next : Word) : (p.retire next).lruns = p.lruns := rfl
@[simp] theorem Party.retire_wait (p : Party) (next : Word) : (p.retire next).wait = p.wait := rfl
@[simp] theorem Party.retire_pendingLane (p : Party) (next : Word) : (p.retire next).pendingLane = p.pendingLane := rfl
@[simp] theorem Party.retire_headOp (p : Party) (next : Word) : (p.retire next).headOp = p.headOp := rfl
@[simp] theorem Party.retire_stucks (p : Party) (next : Word) : (p.retire next).stucks = p.stucks := rfl
@[simp] theorem Party.retire_raised (p : Party) (next : Word) : (p.retire next).raised = p.raised := rfl
@[simp] theorem Party.retire_offer (p : Party) (next : Word) : (p.retire next).offer = p.offer := rfl
@[simp] theorem Party.retire_faulted (p : Party) (next : Word) : (p.retire next).faulted = p.faulted := rfl
@[simp] theorem Party.retire_openBatch (p : Party) (next : Word) : (p.retire next).openBatch = p.openBatch := rfl
@[simp] theorem Party.retire_batches (p : Party) (next : Word) : (p.retire next).batches = p.batches := rfl
@[simp] theorem Party.retire_batchBy (p : Party) (next : Word) : (p.retire next).batchBy = p.batchBy := rfl
@[simp] theorem Party.retire_score (p : Party) (next : Word) : (p.retire next).score = p.score := rfl
@[simp] theorem Party.retire_pc (p : Party) (next : Word) : (p.retire next).pc = next := rfl
@[simp] theorem Party.retire_lastPc (p : Party) (next : Word) : (p.retire next).lastPc = p.pc := rfl
@[simp] theorem Party.retire_yielded (p : Party) (next : Word) : (p.retire next).yielded = false := rfl
@[simp] theorem Party.retire_retired (p : Party) (next : Word) :
    (p.retire next).retired = if p.hmode then p.retired else p.retired + 1 :=
    rfl

/-! ### A scalar register written (R33) -/

@[simp] theorem Party.setReg_pid (p : Party) (r : Reg) (v : Word) : (p.setReg r v).pid = p.pid :=
    by unfold Party.setReg; split <;> rfl
@[simp] theorem Party.setReg_launch (p : Party) (r : Reg) (v : Word) : (p.setReg r v).launch = p.launch :=
    by unfold Party.setReg; split <;> rfl
@[simp] theorem Party.setReg_group (p : Party) (r : Reg) (v : Word) : (p.setReg r v).group = p.group :=
    by unfold Party.setReg; split <;> rfl
@[simp] theorem Party.setReg_core (p : Party) (r : Reg) (v : Word) : (p.setReg r v).core = p.core :=
    by unfold Party.setReg; split <;> rfl
@[simp] theorem Party.setReg_quad (p : Party) (r : Reg) (v : Word) : (p.setReg r v).quad = p.quad :=
    by unfold Party.setReg; split <;> rfl
@[simp] theorem Party.setReg_slot (p : Party) (r : Reg) (v : Word) : (p.setReg r v).slot = p.slot :=
    by unfold Party.setReg; split <;> rfl
@[simp] theorem Party.setReg_first (p : Party) (r : Reg) (v : Word) : (p.setReg r v).first = p.first :=
    by unfold Party.setReg; split <;> rfl
@[simp] theorem Party.setReg_width (p : Party) (r : Reg) (v : Word) : (p.setReg r v).width = p.width :=
    by unfold Party.setReg; split <;> rfl
@[simp] theorem Party.setReg_life (p : Party) (r : Reg) (v : Word) : (p.setReg r v).life = p.life :=
    by unfold Party.setReg; split <;> rfl
@[simp] theorem Party.setReg_stopped (p : Party) (r : Reg) (v : Word) : (p.setReg r v).stopped = p.stopped :=
    by unfold Party.setReg; split <;> rfl
@[simp] theorem Party.setReg_evicted (p : Party) (r : Reg) (v : Word) : (p.setReg r v).evicted = p.evicted :=
    by unfold Party.setReg; split <;> rfl
@[simp] theorem Party.setReg_evictedAt (p : Party) (r : Reg) (v : Word) : (p.setReg r v).evictedAt = p.evictedAt :=
    by unfold Party.setReg; split <;> rfl
@[simp] theorem Party.setReg_hmode (p : Party) (r : Reg) (v : Word) : (p.setReg r v).hmode = p.hmode :=
    by unfold Party.setReg; split <;> rfl
@[simp] theorem Party.setReg_handlingLane (p : Party) (r : Reg) (v : Word) : (p.setReg r v).handlingLane = p.handlingLane :=
    by unfold Party.setReg; split <;> rfl
@[simp] theorem Party.setReg_pc (p : Party) (r : Reg) (v : Word) : (p.setReg r v).pc = p.pc :=
    by unfold Party.setReg; split <;> rfl
@[simp] theorem Party.setReg_lastPc (p : Party) (r : Reg) (v : Word) : (p.setReg r v).lastPc = p.lastPc :=
    by unfold Party.setReg; split <;> rfl
@[simp] theorem Party.setReg_retired (p : Party) (r : Reg) (v : Word) : (p.setReg r v).retired = p.retired :=
    by unfold Party.setReg; split <;> rfl
@[simp] theorem Party.setReg_p (p : Party) (r : Reg) (v : Word) : (p.setReg r v).p = p.p :=
    by unfold Party.setReg; split <;> rfl
@[simp] theorem Party.setReg_ls (p : Party) (r : Reg) (v : Word) : (p.setReg r v).ls = p.ls :=
    by unfold Party.setReg; split <;> rfl
@[simp] theorem Party.setReg_dl (p : Party) (r : Reg) (v : Word) : (p.setReg r v).dl = p.dl :=
    by unfold Party.setReg; split <;> rfl
@[simp] theorem Party.setReg_ptime (p : Party) (r : Reg) (v : Word) : (p.setReg r v).ptime = p.ptime :=
    by unfold Party.setReg; split <;> rfl
@[simp] theorem Party.setReg_st (p : Party) (r : Reg) (v : Word) : (p.setReg r v).st = p.st :=
    by unfold Party.setReg; split <;> rfl
@[simp] theorem Party.setReg_rnd (p : Party) (r : Reg) (v : Word) : (p.setReg r v).rnd = p.rnd :=
    by unfold Party.setReg; split <;> rfl
@[simp] theorem Party.setReg_nvr (p : Party) (r : Reg) (v : Word) : (p.setReg r v).nvr = p.nvr :=
    by unfold Party.setReg; split <;> rfl
@[simp] theorem Party.setReg_xcount (p : Party) (r : Reg) (v : Word) : (p.setReg r v).xcount = p.xcount :=
    by unfold Party.setReg; split <;> rfl
@[simp] theorem Party.setReg_b (p : Party) (r : Reg) (v : Word) : (p.setReg r v).b = p.b :=
    by unfold Party.setReg; split <;> rfl
@[simp] theorem Party.setReg_lo (p : Party) (r : Reg) (v : Word) : (p.setReg r v).lo = p.lo :=
    by unfold Party.setReg; split <;> rfl
@[simp] theorem Party.setReg_regs (p : Party) (r : Reg) (v : Word) : (p.setReg r v).regs = p.regs :=
    by unfold Party.setReg; split <;> rfl
@[simp] theorem Party.setReg_fresh (p : Party) (r : Reg) (v : Word) : (p.setReg r v).fresh = p.fresh :=
    by unfold Party.setReg; split <;> rfl
@[simp] theorem Party.setReg_regTag (p : Party) (r : Reg) (v : Word) : (p.setReg r v).regTag = p.regTag :=
    by unfold Party.setReg; split <;> rfl
@[simp] theorem Party.setReg_tokens (p : Party) (r : Reg) (v : Word) : (p.setReg r v).tokens = p.tokens :=
    by unfold Party.setReg; split <;> rfl
@[simp] theorem Party.setReg_spilled (p : Party) (r : Reg) (v : Word) : (p.setReg r v).spilled = p.spilled :=
    by unfold Party.setReg; split <;> rfl
@[simp] theorem Party.setReg_copying (p : Party) (r : Reg) (v : Word) : (p.setReg r v).copying = p.copying :=
    by unfold Party.setReg; split <;> rfl
@[simp] theorem Party.setReg_flags (p : Party) (r : Reg) (v : Word) : (p.setReg r v).flags = p.flags :=
    by unfold Party.setReg; split <;> rfl
@[simp] theorem Party.setReg_queue (p : Party) (r : Reg) (v : Word) : (p.setReg r v).queue = p.queue :=
    by unfold Party.setReg; split <;> rfl
@[simp] theorem Party.setReg_laneCtr (p : Party) (r : Reg) (v : Word) : (p.setReg r v).laneCtr = p.laneCtr :=
    by unfold Party.setReg; split <;> rfl
@[simp] theorem Party.setReg_pt (p : Party) (r : Reg) (v : Word) : (p.setReg r v).pt = p.pt :=
    by unfold Party.setReg; split <;> rfl
@[simp] theorem Party.setReg_redo (p : Party) (r : Reg) (v : Word) : (p.setReg r v).redo = p.redo :=
    by unfold Party.setReg; split <;> rfl
@[simp] theorem Party.setReg_inflight (p : Party) (r : Reg) (v : Word) : (p.setReg r v).inflight = p.inflight :=
    by unfold Party.setReg; split <;> rfl
@[simp] theorem Party.setReg_part (p : Party) (r : Reg) (v : Word) : (p.setReg r v).part = p.part :=
    by unfold Party.setReg; split <;> rfl
@[simp] theorem Party.setReg_recent (p : Party) (r : Reg) (v : Word) : (p.setReg r v).recent = p.recent :=
    by unfold Party.setReg; split <;> rfl
@[simp] theorem Party.setReg_looseMasks (p : Party) (r : Reg) (v : Word) : (p.setReg r v).looseMasks = p.looseMasks :=
    by unfold Party.setReg; split <;> rfl
@[simp] theorem Party.setReg_lruns (p : Party) (r : Reg) (v : Word) : (p.setReg r v).lruns = p.lruns :=
    by unfold Party.setReg; split <;> rfl
@[simp] theorem Party.setReg_wait (p : Party) (r : Reg) (v : Word) : (p.setReg r v).wait = p.wait :=
    by unfold Party.setReg; split <;> rfl
@[simp] theorem Party.setReg_pendingLane (p : Party) (r : Reg) (v : Word) : (p.setReg r v).pendingLane = p.pendingLane :=
    by unfold Party.setReg; split <;> rfl
@[simp] theorem Party.setReg_headOp (p : Party) (r : Reg) (v : Word) : (p.setReg r v).headOp = p.headOp :=
    by unfold Party.setReg; split <;> rfl
@[simp] theorem Party.setReg_stucks (p : Party) (r : Reg) (v : Word) : (p.setReg r v).stucks = p.stucks :=
    by unfold Party.setReg; split <;> rfl
@[simp] theorem Party.setReg_raised (p : Party) (r : Reg) (v : Word) : (p.setReg r v).raised = p.raised :=
    by unfold Party.setReg; split <;> rfl
@[simp] theorem Party.setReg_offer (p : Party) (r : Reg) (v : Word) : (p.setReg r v).offer = p.offer :=
    by unfold Party.setReg; split <;> rfl
@[simp] theorem Party.setReg_faulted (p : Party) (r : Reg) (v : Word) : (p.setReg r v).faulted = p.faulted :=
    by unfold Party.setReg; split <;> rfl
@[simp] theorem Party.setReg_openBatch (p : Party) (r : Reg) (v : Word) : (p.setReg r v).openBatch = p.openBatch :=
    by unfold Party.setReg; split <;> rfl
@[simp] theorem Party.setReg_batches (p : Party) (r : Reg) (v : Word) : (p.setReg r v).batches = p.batches :=
    by unfold Party.setReg; split <;> rfl
@[simp] theorem Party.setReg_batchBy (p : Party) (r : Reg) (v : Word) : (p.setReg r v).batchBy = p.batchBy :=
    by unfold Party.setReg; split <;> rfl
@[simp] theorem Party.setReg_score (p : Party) (r : Reg) (v : Word) : (p.setReg r v).score = p.score :=
    by unfold Party.setReg; split <;> rfl
@[simp] theorem Party.setReg_yielded (p : Party) (r : Reg) (v : Word) : (p.setReg r v).yielded = p.yielded :=
    by unfold Party.setReg; split <;> rfl

/-! ### `st` written (R39) -/

@[simp] theorem Party.setSt_pid (p : Party) (v : Word) : (p.setSt v).pid = p.pid := rfl
@[simp] theorem Party.setSt_launch (p : Party) (v : Word) : (p.setSt v).launch = p.launch := rfl
@[simp] theorem Party.setSt_group (p : Party) (v : Word) : (p.setSt v).group = p.group := rfl
@[simp] theorem Party.setSt_core (p : Party) (v : Word) : (p.setSt v).core = p.core := rfl
@[simp] theorem Party.setSt_quad (p : Party) (v : Word) : (p.setSt v).quad = p.quad := rfl
@[simp] theorem Party.setSt_slot (p : Party) (v : Word) : (p.setSt v).slot = p.slot := rfl
@[simp] theorem Party.setSt_first (p : Party) (v : Word) : (p.setSt v).first = p.first := rfl
@[simp] theorem Party.setSt_width (p : Party) (v : Word) : (p.setSt v).width = p.width := rfl
@[simp] theorem Party.setSt_life (p : Party) (v : Word) : (p.setSt v).life = p.life := rfl
@[simp] theorem Party.setSt_stopped (p : Party) (v : Word) : (p.setSt v).stopped = p.stopped := rfl
@[simp] theorem Party.setSt_evicted (p : Party) (v : Word) : (p.setSt v).evicted = p.evicted := rfl
@[simp] theorem Party.setSt_evictedAt (p : Party) (v : Word) : (p.setSt v).evictedAt = p.evictedAt := rfl
@[simp] theorem Party.setSt_hmode (p : Party) (v : Word) : (p.setSt v).hmode = p.hmode := rfl
@[simp] theorem Party.setSt_handlingLane (p : Party) (v : Word) : (p.setSt v).handlingLane = p.handlingLane := rfl
@[simp] theorem Party.setSt_pc (p : Party) (v : Word) : (p.setSt v).pc = p.pc := rfl
@[simp] theorem Party.setSt_lastPc (p : Party) (v : Word) : (p.setSt v).lastPc = p.lastPc := rfl
@[simp] theorem Party.setSt_retired (p : Party) (v : Word) : (p.setSt v).retired = p.retired := rfl
@[simp] theorem Party.setSt_s (p : Party) (v : Word) : (p.setSt v).s = p.s := rfl
@[simp] theorem Party.setSt_p (p : Party) (v : Word) : (p.setSt v).p = p.p := rfl
@[simp] theorem Party.setSt_ls (p : Party) (v : Word) : (p.setSt v).ls = p.ls := rfl
@[simp] theorem Party.setSt_dl (p : Party) (v : Word) : (p.setSt v).dl = p.dl := rfl
@[simp] theorem Party.setSt_ptime (p : Party) (v : Word) : (p.setSt v).ptime = p.ptime := rfl
@[simp] theorem Party.setSt_rnd (p : Party) (v : Word) : (p.setSt v).rnd = p.rnd := rfl
@[simp] theorem Party.setSt_nvr (p : Party) (v : Word) : (p.setSt v).nvr = p.nvr := rfl
@[simp] theorem Party.setSt_xcount (p : Party) (v : Word) : (p.setSt v).xcount = p.xcount := rfl
@[simp] theorem Party.setSt_b (p : Party) (v : Word) : (p.setSt v).b = p.b := rfl
@[simp] theorem Party.setSt_lo (p : Party) (v : Word) : (p.setSt v).lo = p.lo := rfl
@[simp] theorem Party.setSt_regs (p : Party) (v : Word) : (p.setSt v).regs = p.regs := rfl
@[simp] theorem Party.setSt_fresh (p : Party) (v : Word) : (p.setSt v).fresh = p.fresh := rfl
@[simp] theorem Party.setSt_regTag (p : Party) (v : Word) : (p.setSt v).regTag = p.regTag := rfl
@[simp] theorem Party.setSt_tokens (p : Party) (v : Word) : (p.setSt v).tokens = p.tokens := rfl
@[simp] theorem Party.setSt_spilled (p : Party) (v : Word) : (p.setSt v).spilled = p.spilled := rfl
@[simp] theorem Party.setSt_copying (p : Party) (v : Word) : (p.setSt v).copying = p.copying := rfl
@[simp] theorem Party.setSt_flags (p : Party) (v : Word) : (p.setSt v).flags = p.flags := rfl
@[simp] theorem Party.setSt_queue (p : Party) (v : Word) : (p.setSt v).queue = p.queue := rfl
@[simp] theorem Party.setSt_laneCtr (p : Party) (v : Word) : (p.setSt v).laneCtr = p.laneCtr := rfl
@[simp] theorem Party.setSt_pt (p : Party) (v : Word) : (p.setSt v).pt = p.pt := rfl
@[simp] theorem Party.setSt_redo (p : Party) (v : Word) : (p.setSt v).redo = p.redo := rfl
@[simp] theorem Party.setSt_part (p : Party) (v : Word) : (p.setSt v).part = p.part := rfl
@[simp] theorem Party.setSt_recent (p : Party) (v : Word) : (p.setSt v).recent = p.recent := rfl
@[simp] theorem Party.setSt_looseMasks (p : Party) (v : Word) : (p.setSt v).looseMasks = p.looseMasks := rfl
@[simp] theorem Party.setSt_lruns (p : Party) (v : Word) : (p.setSt v).lruns = p.lruns := rfl
@[simp] theorem Party.setSt_wait (p : Party) (v : Word) : (p.setSt v).wait = p.wait := rfl
@[simp] theorem Party.setSt_pendingLane (p : Party) (v : Word) : (p.setSt v).pendingLane = p.pendingLane := rfl
@[simp] theorem Party.setSt_headOp (p : Party) (v : Word) : (p.setSt v).headOp = p.headOp := rfl
@[simp] theorem Party.setSt_stucks (p : Party) (v : Word) : (p.setSt v).stucks = p.stucks := rfl
@[simp] theorem Party.setSt_raised (p : Party) (v : Word) : (p.setSt v).raised = p.raised := rfl
@[simp] theorem Party.setSt_offer (p : Party) (v : Word) : (p.setSt v).offer = p.offer := rfl
@[simp] theorem Party.setSt_faulted (p : Party) (v : Word) : (p.setSt v).faulted = p.faulted := rfl
@[simp] theorem Party.setSt_openBatch (p : Party) (v : Word) : (p.setSt v).openBatch = p.openBatch := rfl
@[simp] theorem Party.setSt_batches (p : Party) (v : Word) : (p.setSt v).batches = p.batches := rfl
@[simp] theorem Party.setSt_batchBy (p : Party) (v : Word) : (p.setSt v).batchBy = p.batchBy := rfl
@[simp] theorem Party.setSt_score (p : Party) (v : Word) : (p.setSt v).score = p.score := rfl
@[simp] theorem Party.setSt_yielded (p : Party) (v : Word) : (p.setSt v).yielded = p.yielded := rfl
@[simp] theorem Party.setSt_st (p : Party) (v : Word) : (p.setSt v).st = v := rfl

/-! ### A mask register written (R27) -/

@[simp] theorem Party.setMask_pid (p : Party) (n : BitVec 3) (m : Mask) : (p.setMask n m).pid = p.pid := rfl
@[simp] theorem Party.setMask_launch (p : Party) (n : BitVec 3) (m : Mask) : (p.setMask n m).launch = p.launch := rfl
@[simp] theorem Party.setMask_group (p : Party) (n : BitVec 3) (m : Mask) : (p.setMask n m).group = p.group := rfl
@[simp] theorem Party.setMask_core (p : Party) (n : BitVec 3) (m : Mask) : (p.setMask n m).core = p.core := rfl
@[simp] theorem Party.setMask_quad (p : Party) (n : BitVec 3) (m : Mask) : (p.setMask n m).quad = p.quad := rfl
@[simp] theorem Party.setMask_slot (p : Party) (n : BitVec 3) (m : Mask) : (p.setMask n m).slot = p.slot := rfl
@[simp] theorem Party.setMask_first (p : Party) (n : BitVec 3) (m : Mask) : (p.setMask n m).first = p.first := rfl
@[simp] theorem Party.setMask_width (p : Party) (n : BitVec 3) (m : Mask) : (p.setMask n m).width = p.width := rfl
@[simp] theorem Party.setMask_life (p : Party) (n : BitVec 3) (m : Mask) : (p.setMask n m).life = p.life := rfl
@[simp] theorem Party.setMask_stopped (p : Party) (n : BitVec 3) (m : Mask) : (p.setMask n m).stopped = p.stopped := rfl
@[simp] theorem Party.setMask_evicted (p : Party) (n : BitVec 3) (m : Mask) : (p.setMask n m).evicted = p.evicted := rfl
@[simp] theorem Party.setMask_evictedAt (p : Party) (n : BitVec 3) (m : Mask) : (p.setMask n m).evictedAt = p.evictedAt := rfl
@[simp] theorem Party.setMask_hmode (p : Party) (n : BitVec 3) (m : Mask) : (p.setMask n m).hmode = p.hmode := rfl
@[simp] theorem Party.setMask_handlingLane (p : Party) (n : BitVec 3) (m : Mask) : (p.setMask n m).handlingLane = p.handlingLane :=
    rfl
@[simp] theorem Party.setMask_pc (p : Party) (n : BitVec 3) (m : Mask) : (p.setMask n m).pc = p.pc := rfl
@[simp] theorem Party.setMask_lastPc (p : Party) (n : BitVec 3) (m : Mask) : (p.setMask n m).lastPc = p.lastPc := rfl
@[simp] theorem Party.setMask_retired (p : Party) (n : BitVec 3) (m : Mask) : (p.setMask n m).retired = p.retired := rfl
@[simp] theorem Party.setMask_s (p : Party) (n : BitVec 3) (m : Mask) : (p.setMask n m).s = p.s := rfl
@[simp] theorem Party.setMask_ls (p : Party) (n : BitVec 3) (m : Mask) : (p.setMask n m).ls = p.ls := rfl
@[simp] theorem Party.setMask_dl (p : Party) (n : BitVec 3) (m : Mask) : (p.setMask n m).dl = p.dl := rfl
@[simp] theorem Party.setMask_ptime (p : Party) (n : BitVec 3) (m : Mask) : (p.setMask n m).ptime = p.ptime := rfl
@[simp] theorem Party.setMask_st (p : Party) (n : BitVec 3) (m : Mask) : (p.setMask n m).st = p.st := rfl
@[simp] theorem Party.setMask_rnd (p : Party) (n : BitVec 3) (m : Mask) : (p.setMask n m).rnd = p.rnd := rfl
@[simp] theorem Party.setMask_nvr (p : Party) (n : BitVec 3) (m : Mask) : (p.setMask n m).nvr = p.nvr := rfl
@[simp] theorem Party.setMask_xcount (p : Party) (n : BitVec 3) (m : Mask) : (p.setMask n m).xcount = p.xcount := rfl
@[simp] theorem Party.setMask_b (p : Party) (n : BitVec 3) (m : Mask) : (p.setMask n m).b = p.b := rfl
@[simp] theorem Party.setMask_lo (p : Party) (n : BitVec 3) (m : Mask) : (p.setMask n m).lo = p.lo := rfl
@[simp] theorem Party.setMask_regs (p : Party) (n : BitVec 3) (m : Mask) : (p.setMask n m).regs = p.regs := rfl
@[simp] theorem Party.setMask_fresh (p : Party) (n : BitVec 3) (m : Mask) : (p.setMask n m).fresh = p.fresh := rfl
@[simp] theorem Party.setMask_regTag (p : Party) (n : BitVec 3) (m : Mask) : (p.setMask n m).regTag = p.regTag := rfl
@[simp] theorem Party.setMask_tokens (p : Party) (n : BitVec 3) (m : Mask) : (p.setMask n m).tokens = p.tokens := rfl
@[simp] theorem Party.setMask_spilled (p : Party) (n : BitVec 3) (m : Mask) : (p.setMask n m).spilled = p.spilled := rfl
@[simp] theorem Party.setMask_copying (p : Party) (n : BitVec 3) (m : Mask) : (p.setMask n m).copying = p.copying := rfl
@[simp] theorem Party.setMask_flags (p : Party) (n : BitVec 3) (m : Mask) : (p.setMask n m).flags = p.flags := rfl
@[simp] theorem Party.setMask_queue (p : Party) (n : BitVec 3) (m : Mask) : (p.setMask n m).queue = p.queue := rfl
@[simp] theorem Party.setMask_laneCtr (p : Party) (n : BitVec 3) (m : Mask) : (p.setMask n m).laneCtr = p.laneCtr := rfl
@[simp] theorem Party.setMask_pt (p : Party) (n : BitVec 3) (m : Mask) : (p.setMask n m).pt = p.pt := rfl
@[simp] theorem Party.setMask_redo (p : Party) (n : BitVec 3) (m : Mask) : (p.setMask n m).redo = p.redo := rfl
@[simp] theorem Party.setMask_inflight (p : Party) (n : BitVec 3) (m : Mask) : (p.setMask n m).inflight = p.inflight := rfl
@[simp] theorem Party.setMask_part (p : Party) (n : BitVec 3) (m : Mask) : (p.setMask n m).part = p.part := rfl
@[simp] theorem Party.setMask_recent (p : Party) (n : BitVec 3) (m : Mask) : (p.setMask n m).recent = p.recent := rfl
@[simp] theorem Party.setMask_looseMasks (p : Party) (n : BitVec 3) (m : Mask) : (p.setMask n m).looseMasks = p.looseMasks :=
    rfl
@[simp] theorem Party.setMask_lruns (p : Party) (n : BitVec 3) (m : Mask) : (p.setMask n m).lruns = p.lruns := rfl
@[simp] theorem Party.setMask_wait (p : Party) (n : BitVec 3) (m : Mask) : (p.setMask n m).wait = p.wait := rfl
@[simp] theorem Party.setMask_pendingLane (p : Party) (n : BitVec 3) (m : Mask) : (p.setMask n m).pendingLane = p.pendingLane :=
    rfl
@[simp] theorem Party.setMask_headOp (p : Party) (n : BitVec 3) (m : Mask) : (p.setMask n m).headOp = p.headOp := rfl
@[simp] theorem Party.setMask_stucks (p : Party) (n : BitVec 3) (m : Mask) : (p.setMask n m).stucks = p.stucks := rfl
@[simp] theorem Party.setMask_raised (p : Party) (n : BitVec 3) (m : Mask) : (p.setMask n m).raised = p.raised := rfl
@[simp] theorem Party.setMask_offer (p : Party) (n : BitVec 3) (m : Mask) : (p.setMask n m).offer = p.offer := rfl
@[simp] theorem Party.setMask_faulted (p : Party) (n : BitVec 3) (m : Mask) : (p.setMask n m).faulted = p.faulted := rfl
@[simp] theorem Party.setMask_openBatch (p : Party) (n : BitVec 3) (m : Mask) : (p.setMask n m).openBatch = p.openBatch := rfl
@[simp] theorem Party.setMask_batches (p : Party) (n : BitVec 3) (m : Mask) : (p.setMask n m).batches = p.batches := rfl
@[simp] theorem Party.setMask_batchBy (p : Party) (n : BitVec 3) (m : Mask) : (p.setMask n m).batchBy = p.batchBy := rfl
@[simp] theorem Party.setMask_score (p : Party) (n : BitVec 3) (m : Mask) : (p.setMask n m).score = p.score := rfl
@[simp] theorem Party.setMask_yielded (p : Party) (n : BitVec 3) (m : Mask) : (p.setMask n m).yielded = p.yielded := rfl
@[simp] theorem Party.writeMask_pid (p : Party) (free : Nat) (n : BitVec 3) (m : Mask) : (p.writeMask free n m).pid = p.pid :=
    rfl
@[simp] theorem Party.writeMask_launch (p : Party) (free : Nat) (n : BitVec 3) (m : Mask) : (p.writeMask free n m).launch = p.launch :=
    rfl
@[simp] theorem Party.writeMask_group (p : Party) (free : Nat) (n : BitVec 3) (m : Mask) : (p.writeMask free n m).group = p.group :=
    rfl
@[simp] theorem Party.writeMask_core (p : Party) (free : Nat) (n : BitVec 3) (m : Mask) : (p.writeMask free n m).core = p.core :=
    rfl
@[simp] theorem Party.writeMask_quad (p : Party) (free : Nat) (n : BitVec 3) (m : Mask) : (p.writeMask free n m).quad = p.quad :=
    rfl
@[simp] theorem Party.writeMask_slot (p : Party) (free : Nat) (n : BitVec 3) (m : Mask) : (p.writeMask free n m).slot = p.slot :=
    rfl
@[simp] theorem Party.writeMask_first (p : Party) (free : Nat) (n : BitVec 3) (m : Mask) : (p.writeMask free n m).first = p.first :=
    rfl
@[simp] theorem Party.writeMask_width (p : Party) (free : Nat) (n : BitVec 3) (m : Mask) : (p.writeMask free n m).width = p.width :=
    rfl
@[simp] theorem Party.writeMask_life (p : Party) (free : Nat) (n : BitVec 3) (m : Mask) : (p.writeMask free n m).life = p.life :=
    rfl
@[simp] theorem Party.writeMask_stopped (p : Party) (free : Nat) (n : BitVec 3) (m : Mask) : (p.writeMask free n m).stopped = p.stopped :=
    rfl
@[simp] theorem Party.writeMask_evicted (p : Party) (free : Nat) (n : BitVec 3) (m : Mask) : (p.writeMask free n m).evicted = p.evicted :=
    rfl
@[simp] theorem Party.writeMask_evictedAt (p : Party) (free : Nat) (n : BitVec 3) (m : Mask) : (p.writeMask free n m).evictedAt = p.evictedAt :=
    rfl
@[simp] theorem Party.writeMask_hmode (p : Party) (free : Nat) (n : BitVec 3) (m : Mask) : (p.writeMask free n m).hmode = p.hmode :=
    rfl
@[simp] theorem Party.writeMask_handlingLane (p : Party) (free : Nat) (n : BitVec 3) (m : Mask) : (p.writeMask free n m).handlingLane = p.handlingLane :=
    rfl
@[simp] theorem Party.writeMask_pc (p : Party) (free : Nat) (n : BitVec 3) (m : Mask) : (p.writeMask free n m).pc = p.pc := rfl
@[simp] theorem Party.writeMask_lastPc (p : Party) (free : Nat) (n : BitVec 3) (m : Mask) : (p.writeMask free n m).lastPc = p.lastPc :=
    rfl
@[simp] theorem Party.writeMask_retired (p : Party) (free : Nat) (n : BitVec 3) (m : Mask) : (p.writeMask free n m).retired = p.retired :=
    rfl
@[simp] theorem Party.writeMask_s (p : Party) (free : Nat) (n : BitVec 3) (m : Mask) : (p.writeMask free n m).s = p.s := rfl
@[simp] theorem Party.writeMask_ls (p : Party) (free : Nat) (n : BitVec 3) (m : Mask) : (p.writeMask free n m).ls = p.ls := rfl
@[simp] theorem Party.writeMask_dl (p : Party) (free : Nat) (n : BitVec 3) (m : Mask) : (p.writeMask free n m).dl = p.dl := rfl
@[simp] theorem Party.writeMask_ptime (p : Party) (free : Nat) (n : BitVec 3) (m : Mask) : (p.writeMask free n m).ptime = p.ptime :=
    rfl
@[simp] theorem Party.writeMask_st (p : Party) (free : Nat) (n : BitVec 3) (m : Mask) : (p.writeMask free n m).st = p.st := rfl
@[simp] theorem Party.writeMask_rnd (p : Party) (free : Nat) (n : BitVec 3) (m : Mask) : (p.writeMask free n m).rnd = p.rnd :=
    rfl
@[simp] theorem Party.writeMask_nvr (p : Party) (free : Nat) (n : BitVec 3) (m : Mask) : (p.writeMask free n m).nvr = p.nvr :=
    rfl
@[simp] theorem Party.writeMask_xcount (p : Party) (free : Nat) (n : BitVec 3) (m : Mask) : (p.writeMask free n m).xcount = p.xcount :=
    rfl
@[simp] theorem Party.writeMask_b (p : Party) (free : Nat) (n : BitVec 3) (m : Mask) : (p.writeMask free n m).b = p.b := rfl
@[simp] theorem Party.writeMask_lo (p : Party) (free : Nat) (n : BitVec 3) (m : Mask) : (p.writeMask free n m).lo = p.lo := rfl
@[simp] theorem Party.writeMask_regs (p : Party) (free : Nat) (n : BitVec 3) (m : Mask) : (p.writeMask free n m).regs = p.regs :=
    rfl
@[simp] theorem Party.writeMask_fresh (p : Party) (free : Nat) (n : BitVec 3) (m : Mask) : (p.writeMask free n m).fresh = p.fresh :=
    rfl
@[simp] theorem Party.writeMask_regTag (p : Party) (free : Nat) (n : BitVec 3) (m : Mask) : (p.writeMask free n m).regTag = p.regTag :=
    rfl
@[simp] theorem Party.writeMask_tokens (p : Party) (free : Nat) (n : BitVec 3) (m : Mask) : (p.writeMask free n m).tokens = p.tokens :=
    rfl
@[simp] theorem Party.writeMask_spilled (p : Party) (free : Nat) (n : BitVec 3) (m : Mask) : (p.writeMask free n m).spilled = p.spilled :=
    rfl
@[simp] theorem Party.writeMask_copying (p : Party) (free : Nat) (n : BitVec 3) (m : Mask) : (p.writeMask free n m).copying = p.copying :=
    rfl
@[simp] theorem Party.writeMask_flags (p : Party) (free : Nat) (n : BitVec 3) (m : Mask) : (p.writeMask free n m).flags = p.flags :=
    rfl
@[simp] theorem Party.writeMask_queue (p : Party) (free : Nat) (n : BitVec 3) (m : Mask) : (p.writeMask free n m).queue = p.queue :=
    rfl
@[simp] theorem Party.writeMask_laneCtr (p : Party) (free : Nat) (n : BitVec 3) (m : Mask) : (p.writeMask free n m).laneCtr = p.laneCtr :=
    rfl
@[simp] theorem Party.writeMask_pt (p : Party) (free : Nat) (n : BitVec 3) (m : Mask) : (p.writeMask free n m).pt = p.pt := rfl
@[simp] theorem Party.writeMask_redo (p : Party) (free : Nat) (n : BitVec 3) (m : Mask) : (p.writeMask free n m).redo = p.redo :=
    rfl
@[simp] theorem Party.writeMask_inflight (p : Party) (free : Nat) (n : BitVec 3) (m : Mask) : (p.writeMask free n m).inflight = p.inflight :=
    rfl
@[simp] theorem Party.writeMask_part (p : Party) (free : Nat) (n : BitVec 3) (m : Mask) : (p.writeMask free n m).part = p.part :=
    rfl
@[simp] theorem Party.writeMask_lruns (p : Party) (free : Nat) (n : BitVec 3) (m : Mask) : (p.writeMask free n m).lruns = p.lruns :=
    rfl
@[simp] theorem Party.writeMask_wait (p : Party) (free : Nat) (n : BitVec 3) (m : Mask) : (p.writeMask free n m).wait = p.wait :=
    rfl
@[simp] theorem Party.writeMask_pendingLane (p : Party) (free : Nat) (n : BitVec 3) (m : Mask) : (p.writeMask free n m).pendingLane = p.pendingLane :=
    rfl
@[simp] theorem Party.writeMask_headOp (p : Party) (free : Nat) (n : BitVec 3) (m : Mask) : (p.writeMask free n m).headOp = p.headOp :=
    rfl
@[simp] theorem Party.writeMask_stucks (p : Party) (free : Nat) (n : BitVec 3) (m : Mask) : (p.writeMask free n m).stucks = p.stucks :=
    rfl
@[simp] theorem Party.writeMask_raised (p : Party) (free : Nat) (n : BitVec 3) (m : Mask) : (p.writeMask free n m).raised = p.raised :=
    rfl
@[simp] theorem Party.writeMask_offer (p : Party) (free : Nat) (n : BitVec 3) (m : Mask) : (p.writeMask free n m).offer = p.offer :=
    rfl
@[simp] theorem Party.writeMask_faulted (p : Party) (free : Nat) (n : BitVec 3) (m : Mask) : (p.writeMask free n m).faulted = p.faulted :=
    rfl
@[simp] theorem Party.writeMask_openBatch (p : Party) (free : Nat) (n : BitVec 3) (m : Mask) : (p.writeMask free n m).openBatch = p.openBatch :=
    rfl
@[simp] theorem Party.writeMask_batches (p : Party) (free : Nat) (n : BitVec 3) (m : Mask) : (p.writeMask free n m).batches = p.batches :=
    rfl
@[simp] theorem Party.writeMask_batchBy (p : Party) (free : Nat) (n : BitVec 3) (m : Mask) : (p.writeMask free n m).batchBy = p.batchBy :=
    rfl
@[simp] theorem Party.writeMask_score (p : Party) (free : Nat) (n : BitVec 3) (m : Mask) : (p.writeMask free n m).score = p.score :=
    rfl
@[simp] theorem Party.writeMask_yielded (p : Party) (free : Nat) (n : BitVec 3) (m : Mask) : (p.writeMask free n m).yielded = p.yielded :=
    rfl

/-! ### A deadline register written (R36) -/

@[simp] theorem Party.setDeadlineReg_pid (p : Party) (n : BitVec 2) (v : Word) : (p.setDeadlineReg n v).pid = p.pid := rfl
@[simp] theorem Party.setDeadlineReg_launch (p : Party) (n : BitVec 2) (v : Word) : (p.setDeadlineReg n v).launch = p.launch :=
    rfl
@[simp] theorem Party.setDeadlineReg_group (p : Party) (n : BitVec 2) (v : Word) : (p.setDeadlineReg n v).group = p.group := rfl
@[simp] theorem Party.setDeadlineReg_core (p : Party) (n : BitVec 2) (v : Word) : (p.setDeadlineReg n v).core = p.core := rfl
@[simp] theorem Party.setDeadlineReg_quad (p : Party) (n : BitVec 2) (v : Word) : (p.setDeadlineReg n v).quad = p.quad := rfl
@[simp] theorem Party.setDeadlineReg_slot (p : Party) (n : BitVec 2) (v : Word) : (p.setDeadlineReg n v).slot = p.slot := rfl
@[simp] theorem Party.setDeadlineReg_first (p : Party) (n : BitVec 2) (v : Word) : (p.setDeadlineReg n v).first = p.first := rfl
@[simp] theorem Party.setDeadlineReg_width (p : Party) (n : BitVec 2) (v : Word) : (p.setDeadlineReg n v).width = p.width := rfl
@[simp] theorem Party.setDeadlineReg_life (p : Party) (n : BitVec 2) (v : Word) : (p.setDeadlineReg n v).life = p.life := rfl
@[simp] theorem Party.setDeadlineReg_stopped (p : Party) (n : BitVec 2) (v : Word) : (p.setDeadlineReg n v).stopped = p.stopped :=
    rfl
@[simp] theorem Party.setDeadlineReg_evicted (p : Party) (n : BitVec 2) (v : Word) : (p.setDeadlineReg n v).evicted = p.evicted :=
    rfl
@[simp] theorem Party.setDeadlineReg_evictedAt (p : Party) (n : BitVec 2) (v : Word) : (p.setDeadlineReg n v).evictedAt = p.evictedAt :=
    rfl
@[simp] theorem Party.setDeadlineReg_hmode (p : Party) (n : BitVec 2) (v : Word) : (p.setDeadlineReg n v).hmode = p.hmode := rfl
@[simp] theorem Party.setDeadlineReg_handlingLane (p : Party) (n : BitVec 2) (v : Word) : (p.setDeadlineReg n v).handlingLane = p.handlingLane :=
    rfl
@[simp] theorem Party.setDeadlineReg_pc (p : Party) (n : BitVec 2) (v : Word) : (p.setDeadlineReg n v).pc = p.pc := rfl
@[simp] theorem Party.setDeadlineReg_lastPc (p : Party) (n : BitVec 2) (v : Word) : (p.setDeadlineReg n v).lastPc = p.lastPc :=
    rfl
@[simp] theorem Party.setDeadlineReg_retired (p : Party) (n : BitVec 2) (v : Word) : (p.setDeadlineReg n v).retired = p.retired :=
    rfl
@[simp] theorem Party.setDeadlineReg_s (p : Party) (n : BitVec 2) (v : Word) : (p.setDeadlineReg n v).s = p.s := rfl
@[simp] theorem Party.setDeadlineReg_p (p : Party) (n : BitVec 2) (v : Word) : (p.setDeadlineReg n v).p = p.p := rfl
@[simp] theorem Party.setDeadlineReg_ls (p : Party) (n : BitVec 2) (v : Word) : (p.setDeadlineReg n v).ls = p.ls := rfl
@[simp] theorem Party.setDeadlineReg_ptime (p : Party) (n : BitVec 2) (v : Word) : (p.setDeadlineReg n v).ptime = p.ptime := rfl
@[simp] theorem Party.setDeadlineReg_st (p : Party) (n : BitVec 2) (v : Word) : (p.setDeadlineReg n v).st = p.st := rfl
@[simp] theorem Party.setDeadlineReg_rnd (p : Party) (n : BitVec 2) (v : Word) : (p.setDeadlineReg n v).rnd = p.rnd := rfl
@[simp] theorem Party.setDeadlineReg_nvr (p : Party) (n : BitVec 2) (v : Word) : (p.setDeadlineReg n v).nvr = p.nvr := rfl
@[simp] theorem Party.setDeadlineReg_xcount (p : Party) (n : BitVec 2) (v : Word) : (p.setDeadlineReg n v).xcount = p.xcount :=
    rfl
@[simp] theorem Party.setDeadlineReg_b (p : Party) (n : BitVec 2) (v : Word) : (p.setDeadlineReg n v).b = p.b := rfl
@[simp] theorem Party.setDeadlineReg_lo (p : Party) (n : BitVec 2) (v : Word) : (p.setDeadlineReg n v).lo = p.lo := rfl
@[simp] theorem Party.setDeadlineReg_regs (p : Party) (n : BitVec 2) (v : Word) : (p.setDeadlineReg n v).regs = p.regs := rfl
@[simp] theorem Party.setDeadlineReg_fresh (p : Party) (n : BitVec 2) (v : Word) : (p.setDeadlineReg n v).fresh = p.fresh := rfl
@[simp] theorem Party.setDeadlineReg_regTag (p : Party) (n : BitVec 2) (v : Word) : (p.setDeadlineReg n v).regTag = p.regTag :=
    rfl
@[simp] theorem Party.setDeadlineReg_tokens (p : Party) (n : BitVec 2) (v : Word) : (p.setDeadlineReg n v).tokens = p.tokens :=
    rfl
@[simp] theorem Party.setDeadlineReg_spilled (p : Party) (n : BitVec 2) (v : Word) : (p.setDeadlineReg n v).spilled = p.spilled :=
    rfl
@[simp] theorem Party.setDeadlineReg_copying (p : Party) (n : BitVec 2) (v : Word) : (p.setDeadlineReg n v).copying = p.copying :=
    rfl
@[simp] theorem Party.setDeadlineReg_flags (p : Party) (n : BitVec 2) (v : Word) : (p.setDeadlineReg n v).flags = p.flags := rfl
@[simp] theorem Party.setDeadlineReg_queue (p : Party) (n : BitVec 2) (v : Word) : (p.setDeadlineReg n v).queue = p.queue := rfl
@[simp] theorem Party.setDeadlineReg_laneCtr (p : Party) (n : BitVec 2) (v : Word) : (p.setDeadlineReg n v).laneCtr = p.laneCtr :=
    rfl
@[simp] theorem Party.setDeadlineReg_pt (p : Party) (n : BitVec 2) (v : Word) : (p.setDeadlineReg n v).pt = p.pt := rfl
@[simp] theorem Party.setDeadlineReg_redo (p : Party) (n : BitVec 2) (v : Word) : (p.setDeadlineReg n v).redo = p.redo := rfl
@[simp] theorem Party.setDeadlineReg_inflight (p : Party) (n : BitVec 2) (v : Word) : (p.setDeadlineReg n v).inflight = p.inflight :=
    rfl
@[simp] theorem Party.setDeadlineReg_part (p : Party) (n : BitVec 2) (v : Word) : (p.setDeadlineReg n v).part = p.part := rfl
@[simp] theorem Party.setDeadlineReg_recent (p : Party) (n : BitVec 2) (v : Word) : (p.setDeadlineReg n v).recent = p.recent :=
    rfl
@[simp] theorem Party.setDeadlineReg_looseMasks (p : Party) (n : BitVec 2) (v : Word) : (p.setDeadlineReg n v).looseMasks = p.looseMasks :=
    rfl
@[simp] theorem Party.setDeadlineReg_lruns (p : Party) (n : BitVec 2) (v : Word) : (p.setDeadlineReg n v).lruns = p.lruns := rfl
@[simp] theorem Party.setDeadlineReg_wait (p : Party) (n : BitVec 2) (v : Word) : (p.setDeadlineReg n v).wait = p.wait := rfl
@[simp] theorem Party.setDeadlineReg_pendingLane (p : Party) (n : BitVec 2) (v : Word) : (p.setDeadlineReg n v).pendingLane = p.pendingLane :=
    rfl
@[simp] theorem Party.setDeadlineReg_headOp (p : Party) (n : BitVec 2) (v : Word) : (p.setDeadlineReg n v).headOp = p.headOp :=
    rfl
@[simp] theorem Party.setDeadlineReg_stucks (p : Party) (n : BitVec 2) (v : Word) : (p.setDeadlineReg n v).stucks = p.stucks :=
    rfl
@[simp] theorem Party.setDeadlineReg_raised (p : Party) (n : BitVec 2) (v : Word) : (p.setDeadlineReg n v).raised = p.raised :=
    rfl
@[simp] theorem Party.setDeadlineReg_offer (p : Party) (n : BitVec 2) (v : Word) : (p.setDeadlineReg n v).offer = p.offer := rfl
@[simp] theorem Party.setDeadlineReg_faulted (p : Party) (n : BitVec 2) (v : Word) : (p.setDeadlineReg n v).faulted = p.faulted :=
    rfl
@[simp] theorem Party.setDeadlineReg_openBatch (p : Party) (n : BitVec 2) (v : Word) : (p.setDeadlineReg n v).openBatch = p.openBatch :=
    rfl
@[simp] theorem Party.setDeadlineReg_batches (p : Party) (n : BitVec 2) (v : Word) : (p.setDeadlineReg n v).batches = p.batches :=
    rfl
@[simp] theorem Party.setDeadlineReg_batchBy (p : Party) (n : BitVec 2) (v : Word) : (p.setDeadlineReg n v).batchBy = p.batchBy :=
    rfl
@[simp] theorem Party.setDeadlineReg_score (p : Party) (n : BitVec 2) (v : Word) : (p.setDeadlineReg n v).score = p.score := rfl
@[simp] theorem Party.setDeadlineReg_yielded (p : Party) (n : BitVec 2) (v : Word) : (p.setDeadlineReg n v).yielded = p.yielded :=
    rfl

/-! ### Everything the lane stream wrote is certain (R93, R198) -/

@[simp] theorem Party.certain_pid (p : Party) : (p.certain).pid = p.pid := rfl
@[simp] theorem Party.certain_launch (p : Party) : (p.certain).launch = p.launch := rfl
@[simp] theorem Party.certain_group (p : Party) : (p.certain).group = p.group := rfl
@[simp] theorem Party.certain_core (p : Party) : (p.certain).core = p.core := rfl
@[simp] theorem Party.certain_quad (p : Party) : (p.certain).quad = p.quad := rfl
@[simp] theorem Party.certain_slot (p : Party) : (p.certain).slot = p.slot := rfl
@[simp] theorem Party.certain_first (p : Party) : (p.certain).first = p.first := rfl
@[simp] theorem Party.certain_width (p : Party) : (p.certain).width = p.width := rfl
@[simp] theorem Party.certain_life (p : Party) : (p.certain).life = p.life := rfl
@[simp] theorem Party.certain_stopped (p : Party) : (p.certain).stopped = p.stopped := rfl
@[simp] theorem Party.certain_evicted (p : Party) : (p.certain).evicted = p.evicted := rfl
@[simp] theorem Party.certain_evictedAt (p : Party) : (p.certain).evictedAt = p.evictedAt := rfl
@[simp] theorem Party.certain_hmode (p : Party) : (p.certain).hmode = p.hmode := rfl
@[simp] theorem Party.certain_handlingLane (p : Party) : (p.certain).handlingLane = p.handlingLane := rfl
@[simp] theorem Party.certain_pc (p : Party) : (p.certain).pc = p.pc := rfl
@[simp] theorem Party.certain_lastPc (p : Party) : (p.certain).lastPc = p.lastPc := rfl
@[simp] theorem Party.certain_retired (p : Party) : (p.certain).retired = p.retired := rfl
@[simp] theorem Party.certain_s (p : Party) : (p.certain).s = p.s := rfl
@[simp] theorem Party.certain_p (p : Party) : (p.certain).p = p.p := rfl
@[simp] theorem Party.certain_ls (p : Party) : (p.certain).ls = p.ls := rfl
@[simp] theorem Party.certain_dl (p : Party) : (p.certain).dl = p.dl := rfl
@[simp] theorem Party.certain_ptime (p : Party) : (p.certain).ptime = p.ptime := rfl
@[simp] theorem Party.certain_st (p : Party) : (p.certain).st = p.st := rfl
@[simp] theorem Party.certain_rnd (p : Party) : (p.certain).rnd = p.rnd := rfl
@[simp] theorem Party.certain_nvr (p : Party) : (p.certain).nvr = p.nvr := rfl
@[simp] theorem Party.certain_xcount (p : Party) : (p.certain).xcount = p.xcount := rfl
@[simp] theorem Party.certain_b (p : Party) : (p.certain).b = p.b := rfl
@[simp] theorem Party.certain_lo (p : Party) : (p.certain).lo = p.lo := rfl
@[simp] theorem Party.certain_regs (p : Party) : (p.certain).regs = p.regs := rfl
@[simp] theorem Party.certain_fresh (p : Party) : (p.certain).fresh = p.fresh := rfl
@[simp] theorem Party.certain_regTag (p : Party) : (p.certain).regTag = p.regTag := rfl
@[simp] theorem Party.certain_tokens (p : Party) : (p.certain).tokens = p.tokens := rfl
@[simp] theorem Party.certain_spilled (p : Party) : (p.certain).spilled = p.spilled := rfl
@[simp] theorem Party.certain_copying (p : Party) : (p.certain).copying = p.copying := rfl
@[simp] theorem Party.certain_flags (p : Party) : (p.certain).flags = p.flags := rfl
@[simp] theorem Party.certain_queue (p : Party) : (p.certain).queue = p.queue := rfl
@[simp] theorem Party.certain_laneCtr (p : Party) : (p.certain).laneCtr = p.laneCtr := rfl
@[simp] theorem Party.certain_pt (p : Party) : (p.certain).pt = p.pt := rfl
@[simp] theorem Party.certain_redo (p : Party) : (p.certain).redo = p.redo := rfl
@[simp] theorem Party.certain_inflight (p : Party) : (p.certain).inflight = p.inflight := rfl
@[simp] theorem Party.certain_part (p : Party) : (p.certain).part = p.part := rfl
@[simp] theorem Party.certain_lruns (p : Party) : (p.certain).lruns = p.lruns := rfl
@[simp] theorem Party.certain_wait (p : Party) : (p.certain).wait = p.wait := rfl
@[simp] theorem Party.certain_pendingLane (p : Party) : (p.certain).pendingLane = p.pendingLane := rfl
@[simp] theorem Party.certain_headOp (p : Party) : (p.certain).headOp = p.headOp := rfl
@[simp] theorem Party.certain_stucks (p : Party) : (p.certain).stucks = p.stucks := rfl
@[simp] theorem Party.certain_raised (p : Party) : (p.certain).raised = p.raised := rfl
@[simp] theorem Party.certain_offer (p : Party) : (p.certain).offer = p.offer := rfl
@[simp] theorem Party.certain_faulted (p : Party) : (p.certain).faulted = p.faulted := rfl
@[simp] theorem Party.certain_openBatch (p : Party) : (p.certain).openBatch = p.openBatch := rfl
@[simp] theorem Party.certain_batches (p : Party) : (p.certain).batches = p.batches := rfl
@[simp] theorem Party.certain_batchBy (p : Party) : (p.certain).batchBy = p.batchBy := rfl
@[simp] theorem Party.certain_score (p : Party) : (p.certain).score = p.score := rfl
@[simp] theorem Party.certain_yielded (p : Party) : (p.certain).yielded = p.yielded := rfl

/-! ### An instruction completes -/

@[simp] theorem State.finishAt_others (s : State) (p : Party) (next : Word) : (s.finishAt p next).others = s.others := rfl
@[simp] theorem State.finishAt_groups (s : State) (p : Party) (next : Word) : (s.finishAt p next).groups = s.groups := rfl
@[simp] theorem State.finishAt_launches (s : State) (p : Party) (next : Word) : (s.finishAt p next).launches = s.launches := rfl
@[simp] theorem State.finishAt_lastQueue (s : State) (p : Party) (next : Word) : (s.finishAt p next).lastQueue = s.lastQueue :=
    rfl
@[simp] theorem State.finishAt_contexts (s : State) (p : Party) (next : Word) : (s.finishAt p next).contexts = s.contexts := rfl
@[simp] theorem State.finishAt_commands (s : State) (p : Party) (next : Word) : (s.finishAt p next).commands = s.commands := rfl
@[simp] theorem State.finishAt_tasks (s : State) (p : Party) (next : Word) : (s.finishAt p next).tasks = s.tasks := rfl
@[simp] theorem State.finishAt_retiring (s : State) (p : Party) (next : Word) : (s.finishAt p next).retiring = s.retiring := rfl
@[simp] theorem State.finishAt_collectives (s : State) (p : Party) (next : Word) : (s.finishAt p next).collectives = s.collectives :=
    rfl
@[simp] theorem State.finishAt_instances (s : State) (p : Party) (next : Word) : (s.finishAt p next).instances = s.instances :=
    rfl
@[simp] theorem State.finishAt_tickets (s : State) (p : Party) (next : Word) : (s.finishAt p next).tickets = s.tickets := rfl
@[simp] theorem State.finishAt_events (s : State) (p : Party) (next : Word) : (s.finishAt p next).events = s.events := rfl
@[simp] theorem State.finishAt_mem (s : State) (p : Party) (next : Word) : (s.finishAt p next).mem = s.mem := rfl
@[simp] theorem State.finishAt_poison (s : State) (p : Party) (next : Word) : (s.finishAt p next).poison = s.poison := rfl
@[simp] theorem State.finishAt_tags (s : State) (p : Party) (next : Word) : (s.finishAt p next).tags = s.tags := rfl
@[simp] theorem State.finishAt_keys (s : State) (p : Party) (next : Word) : (s.finishAt p next).keys = s.keys := rfl
@[simp] theorem State.finishAt_hmask (s : State) (p : Party) (next : Word) : (s.finishAt p next).hmask = s.hmask := rfl
@[simp] theorem State.finishAt_copies (s : State) (p : Party) (next : Word) : (s.finishAt p next).copies = s.copies := rfl
@[simp] theorem State.finishAt_lantern (s : State) (p : Party) (next : Word) : (s.finishAt p next).lantern = s.lantern := rfl
@[simp] theorem State.finishAt_clock (s : State) (p : Party) (next : Word) : (s.finishAt p next).clock = s.clock := rfl
@[simp] theorem State.finishAt_scrubbed (s : State) (p : Party) (next : Word) : (s.finishAt p next).scrubbed = s.scrubbed := rfl
@[simp] theorem State.finishAt_bar (s : State) (p : Party) (next : Word) : (s.finishAt p next).bar = s.bar := rfl
@[simp] theorem State.finishAt_unmasked (s : State) (p : Party) (next : Word) : (s.finishAt p next).unmasked = s.unmasked := rfl
@[simp] theorem State.finishAt_pendingIrq (s : State) (p : Party) (next : Word) : (s.finishAt p next).pendingIrq = s.pendingIrq :=
    rfl
@[simp] theorem State.finishAt_sentIrq (s : State) (p : Party) (next : Word) : (s.finishAt p next).sentIrq = s.sentIrq := rfl
@[simp] theorem State.finishAt_measurements (s : State) (p : Party) (next : Word) : (s.finishAt p next).measurements = s.measurements :=
    rfl
@[simp] theorem State.finishAt_attested (s : State) (p : Party) (next : Word) : (s.finishAt p next).attested = s.attested := rfl
@[simp] theorem State.finishAt_sends (s : State) (p : Party) (next : Word) : (s.finishAt p next).sends = s.sends := rfl
@[simp] theorem State.finishAt_accepts (s : State) (p : Party) (next : Word) : (s.finishAt p next).accepts = s.accepts := rfl
@[simp] theorem State.finishAt_joined (s : State) (p : Party) (next : Word) : (s.finishAt p next).joined = s.joined := rfl
@[simp] theorem State.finishAt_absentParts (s : State) (p : Party) (next : Word) : (s.finishAt p next).absentParts = s.absentParts :=
    rfl
@[simp] theorem State.finishAt_contacts (s : State) (p : Party) (next : Word) : (s.finishAt p next).contacts = s.contacts :=
    rfl
@[simp] theorem State.finishAt_lines (s : State) (p : Party) (next : Word) : (s.finishAt p next).lines = s.lines := rfl
@[simp] theorem State.finishAt_marks (s : State) (p : Party) (next : Word) : (s.finishAt p next).marks = s.marks := rfl
@[simp] theorem State.finishAt_hostTime (s : State) (p : Party) (next : Word) : (s.finishAt p next).hostTime = s.hostTime := rfl
@[simp] theorem State.finishAt_synced (s : State) (p : Party) (next : Word) : (s.finishAt p next).synced = s.synced := rfl
@[simp] theorem State.finishAt_hostFlags (s : State) (p : Party) (next : Word) : (s.finishAt p next).hostFlags = s.hostFlags :=
    rfl
@[simp] theorem State.finishAt_accepted (s : State) (p : Party) (next : Word) : (s.finishAt p next).accepted = s.accepted := rfl
@[simp] theorem State.finishAt_taskImages (s : State) (p : Party) (next : Word) : (s.finishAt p next).taskImages = s.taskImages :=
    rfl
@[simp] theorem State.finishAt_throttled (s : State) (p : Party) (next : Word) : (s.finishAt p next).throttled = s.throttled :=
    rfl
@[simp] theorem State.finishAt_held (s : State) (p : Party) (next : Word) : (s.finishAt p next).held = s.held := rfl
@[simp] theorem State.finishAt_hostLog (s : State) (p : Party) (next : Word) : (s.finishAt p next).hostLog = s.hostLog := rfl
@[simp] theorem State.finishAt_agenda (s : State) (p : Party) (next : Word) : (s.finishAt p next).agenda = s.agenda := rfl
@[simp] theorem State.finishAt_free (s : State) (p : Party) (next : Word) : (s.finishAt p next).free = s.free := rfl
@[simp] theorem State.finishAt_ids (s : State) (p : Party) (next : Word) : (s.finishAt p next).ids = s.ids := rfl
@[simp] theorem State.finishAt_party (s : State) (p : Party) (next : Word) : (s.finishAt p next).party = p.retire next := rfl
@[simp] theorem State.finish_others (s : State) (p : Party) : (s.finish p).others = s.others := rfl
@[simp] theorem State.finish_groups (s : State) (p : Party) : (s.finish p).groups = s.groups := rfl
@[simp] theorem State.finish_launches (s : State) (p : Party) : (s.finish p).launches = s.launches := rfl
@[simp] theorem State.finish_lastQueue (s : State) (p : Party) : (s.finish p).lastQueue = s.lastQueue := rfl
@[simp] theorem State.finish_contexts (s : State) (p : Party) : (s.finish p).contexts = s.contexts := rfl
@[simp] theorem State.finish_commands (s : State) (p : Party) : (s.finish p).commands = s.commands := rfl
@[simp] theorem State.finish_tasks (s : State) (p : Party) : (s.finish p).tasks = s.tasks := rfl
@[simp] theorem State.finish_retiring (s : State) (p : Party) : (s.finish p).retiring = s.retiring := rfl
@[simp] theorem State.finish_collectives (s : State) (p : Party) : (s.finish p).collectives = s.collectives := rfl
@[simp] theorem State.finish_instances (s : State) (p : Party) : (s.finish p).instances = s.instances := rfl
@[simp] theorem State.finish_tickets (s : State) (p : Party) : (s.finish p).tickets = s.tickets := rfl
@[simp] theorem State.finish_events (s : State) (p : Party) : (s.finish p).events = s.events := rfl
@[simp] theorem State.finish_mem (s : State) (p : Party) : (s.finish p).mem = s.mem := rfl
@[simp] theorem State.finish_poison (s : State) (p : Party) : (s.finish p).poison = s.poison := rfl
@[simp] theorem State.finish_tags (s : State) (p : Party) : (s.finish p).tags = s.tags := rfl
@[simp] theorem State.finish_keys (s : State) (p : Party) : (s.finish p).keys = s.keys := rfl
@[simp] theorem State.finish_hmask (s : State) (p : Party) : (s.finish p).hmask = s.hmask := rfl
@[simp] theorem State.finish_copies (s : State) (p : Party) : (s.finish p).copies = s.copies := rfl
@[simp] theorem State.finish_lantern (s : State) (p : Party) : (s.finish p).lantern = s.lantern := rfl
@[simp] theorem State.finish_clock (s : State) (p : Party) : (s.finish p).clock = s.clock := rfl
@[simp] theorem State.finish_scrubbed (s : State) (p : Party) : (s.finish p).scrubbed = s.scrubbed := rfl
@[simp] theorem State.finish_bar (s : State) (p : Party) : (s.finish p).bar = s.bar := rfl
@[simp] theorem State.finish_unmasked (s : State) (p : Party) : (s.finish p).unmasked = s.unmasked := rfl
@[simp] theorem State.finish_pendingIrq (s : State) (p : Party) : (s.finish p).pendingIrq = s.pendingIrq := rfl
@[simp] theorem State.finish_sentIrq (s : State) (p : Party) : (s.finish p).sentIrq = s.sentIrq := rfl
@[simp] theorem State.finish_measurements (s : State) (p : Party) : (s.finish p).measurements = s.measurements := rfl
@[simp] theorem State.finish_attested (s : State) (p : Party) : (s.finish p).attested = s.attested := rfl
@[simp] theorem State.finish_sends (s : State) (p : Party) : (s.finish p).sends = s.sends := rfl
@[simp] theorem State.finish_accepts (s : State) (p : Party) : (s.finish p).accepts = s.accepts := rfl
@[simp] theorem State.finish_joined (s : State) (p : Party) : (s.finish p).joined = s.joined := rfl
@[simp] theorem State.finish_absentParts (s : State) (p : Party) : (s.finish p).absentParts = s.absentParts := rfl
@[simp] theorem State.finish_contacts (s : State) (p : Party) : (s.finish p).contacts = s.contacts := rfl
@[simp] theorem State.finish_lines (s : State) (p : Party) : (s.finish p).lines = s.lines := rfl
@[simp] theorem State.finish_marks (s : State) (p : Party) : (s.finish p).marks = s.marks := rfl
@[simp] theorem State.finish_hostTime (s : State) (p : Party) : (s.finish p).hostTime = s.hostTime := rfl
@[simp] theorem State.finish_synced (s : State) (p : Party) : (s.finish p).synced = s.synced := rfl
@[simp] theorem State.finish_hostFlags (s : State) (p : Party) : (s.finish p).hostFlags = s.hostFlags := rfl
@[simp] theorem State.finish_accepted (s : State) (p : Party) : (s.finish p).accepted = s.accepted := rfl
@[simp] theorem State.finish_taskImages (s : State) (p : Party) : (s.finish p).taskImages = s.taskImages := rfl
@[simp] theorem State.finish_throttled (s : State) (p : Party) : (s.finish p).throttled = s.throttled := rfl
@[simp] theorem State.finish_held (s : State) (p : Party) : (s.finish p).held = s.held := rfl
@[simp] theorem State.finish_hostLog (s : State) (p : Party) : (s.finish p).hostLog = s.hostLog := rfl
@[simp] theorem State.finish_agenda (s : State) (p : Party) : (s.finish p).agenda = s.agenda := rfl
@[simp] theorem State.finish_free (s : State) (p : Party) : (s.finish p).free = s.free := rfl
@[simp] theorem State.finish_ids (s : State) (p : Party) : (s.finish p).ids = s.ids := rfl
@[simp] theorem State.finish_party (s : State) (p : Party) : (s.finish p).party = p.retire (p.pc + 4) := rfl

/-! ### A wait set or cleared -/

@[simp] theorem State.setWait_others (s : State) (w : Option Wait) : (s.setWait w).others = s.others := rfl
@[simp] theorem State.setWait_groups (s : State) (w : Option Wait) : (s.setWait w).groups = s.groups := rfl
@[simp] theorem State.setWait_launches (s : State) (w : Option Wait) : (s.setWait w).launches = s.launches := rfl
@[simp] theorem State.setWait_lastQueue (s : State) (w : Option Wait) : (s.setWait w).lastQueue = s.lastQueue := rfl
@[simp] theorem State.setWait_contexts (s : State) (w : Option Wait) : (s.setWait w).contexts = s.contexts := rfl
@[simp] theorem State.setWait_commands (s : State) (w : Option Wait) : (s.setWait w).commands = s.commands := rfl
@[simp] theorem State.setWait_tasks (s : State) (w : Option Wait) : (s.setWait w).tasks = s.tasks := rfl
@[simp] theorem State.setWait_retiring (s : State) (w : Option Wait) : (s.setWait w).retiring = s.retiring := rfl
@[simp] theorem State.setWait_collectives (s : State) (w : Option Wait) : (s.setWait w).collectives = s.collectives := rfl
@[simp] theorem State.setWait_instances (s : State) (w : Option Wait) : (s.setWait w).instances = s.instances := rfl
@[simp] theorem State.setWait_tickets (s : State) (w : Option Wait) : (s.setWait w).tickets = s.tickets := rfl
@[simp] theorem State.setWait_events (s : State) (w : Option Wait) : (s.setWait w).events = s.events := rfl
@[simp] theorem State.setWait_mem (s : State) (w : Option Wait) : (s.setWait w).mem = s.mem := rfl
@[simp] theorem State.setWait_poison (s : State) (w : Option Wait) : (s.setWait w).poison = s.poison := rfl
@[simp] theorem State.setWait_tags (s : State) (w : Option Wait) : (s.setWait w).tags = s.tags := rfl
@[simp] theorem State.setWait_keys (s : State) (w : Option Wait) : (s.setWait w).keys = s.keys := rfl
@[simp] theorem State.setWait_hmask (s : State) (w : Option Wait) : (s.setWait w).hmask = s.hmask := rfl
@[simp] theorem State.setWait_copies (s : State) (w : Option Wait) : (s.setWait w).copies = s.copies := rfl
@[simp] theorem State.setWait_lantern (s : State) (w : Option Wait) : (s.setWait w).lantern = s.lantern := rfl
@[simp] theorem State.setWait_clock (s : State) (w : Option Wait) : (s.setWait w).clock = s.clock := rfl
@[simp] theorem State.setWait_scrubbed (s : State) (w : Option Wait) : (s.setWait w).scrubbed = s.scrubbed := rfl
@[simp] theorem State.setWait_bar (s : State) (w : Option Wait) : (s.setWait w).bar = s.bar := rfl
@[simp] theorem State.setWait_unmasked (s : State) (w : Option Wait) : (s.setWait w).unmasked = s.unmasked := rfl
@[simp] theorem State.setWait_pendingIrq (s : State) (w : Option Wait) : (s.setWait w).pendingIrq = s.pendingIrq := rfl
@[simp] theorem State.setWait_sentIrq (s : State) (w : Option Wait) : (s.setWait w).sentIrq = s.sentIrq := rfl
@[simp] theorem State.setWait_measurements (s : State) (w : Option Wait) : (s.setWait w).measurements = s.measurements := rfl
@[simp] theorem State.setWait_attested (s : State) (w : Option Wait) : (s.setWait w).attested = s.attested := rfl
@[simp] theorem State.setWait_sends (s : State) (w : Option Wait) : (s.setWait w).sends = s.sends := rfl
@[simp] theorem State.setWait_accepts (s : State) (w : Option Wait) : (s.setWait w).accepts = s.accepts := rfl
@[simp] theorem State.setWait_joined (s : State) (w : Option Wait) : (s.setWait w).joined = s.joined := rfl
@[simp] theorem State.setWait_absentParts (s : State) (w : Option Wait) : (s.setWait w).absentParts = s.absentParts := rfl
@[simp] theorem State.setWait_contacts (s : State) (w : Option Wait) : (s.setWait w).contacts = s.contacts := rfl
@[simp] theorem State.setWait_lines (s : State) (w : Option Wait) : (s.setWait w).lines = s.lines := rfl
@[simp] theorem State.setWait_marks (s : State) (w : Option Wait) : (s.setWait w).marks = s.marks := rfl
@[simp] theorem State.setWait_hostTime (s : State) (w : Option Wait) : (s.setWait w).hostTime = s.hostTime := rfl
@[simp] theorem State.setWait_synced (s : State) (w : Option Wait) : (s.setWait w).synced = s.synced := rfl
@[simp] theorem State.setWait_hostFlags (s : State) (w : Option Wait) : (s.setWait w).hostFlags = s.hostFlags := rfl
@[simp] theorem State.setWait_accepted (s : State) (w : Option Wait) : (s.setWait w).accepted = s.accepted := rfl
@[simp] theorem State.setWait_taskImages (s : State) (w : Option Wait) : (s.setWait w).taskImages = s.taskImages := rfl
@[simp] theorem State.setWait_throttled (s : State) (w : Option Wait) : (s.setWait w).throttled = s.throttled := rfl
@[simp] theorem State.setWait_held (s : State) (w : Option Wait) : (s.setWait w).held = s.held := rfl
@[simp] theorem State.setWait_hostLog (s : State) (w : Option Wait) : (s.setWait w).hostLog = s.hostLog := rfl
@[simp] theorem State.setWait_agenda (s : State) (w : Option Wait) : (s.setWait w).agenda = s.agenda := rfl
@[simp] theorem State.setWait_free (s : State) (w : Option Wait) : (s.setWait w).free = s.free := rfl
@[simp] theorem State.setWait_ids (s : State) (w : Option Wait) : (s.setWait w).ids = s.ids := rfl

/-! ### The logical time of the party in focus (R318) -/

@[simp] theorem State.atTime_others (s : State) (t : Nat) : (s.atTime t).others = s.others := rfl
@[simp] theorem State.atTime_groups (s : State) (t : Nat) : (s.atTime t).groups = s.groups := rfl
@[simp] theorem State.atTime_launches (s : State) (t : Nat) : (s.atTime t).launches = s.launches := rfl
@[simp] theorem State.atTime_lastQueue (s : State) (t : Nat) : (s.atTime t).lastQueue = s.lastQueue := rfl
@[simp] theorem State.atTime_contexts (s : State) (t : Nat) : (s.atTime t).contexts = s.contexts := rfl
@[simp] theorem State.atTime_commands (s : State) (t : Nat) : (s.atTime t).commands = s.commands := rfl
@[simp] theorem State.atTime_tasks (s : State) (t : Nat) : (s.atTime t).tasks = s.tasks := rfl
@[simp] theorem State.atTime_retiring (s : State) (t : Nat) : (s.atTime t).retiring = s.retiring := rfl
@[simp] theorem State.atTime_collectives (s : State) (t : Nat) : (s.atTime t).collectives = s.collectives := rfl
@[simp] theorem State.atTime_instances (s : State) (t : Nat) : (s.atTime t).instances = s.instances := rfl
@[simp] theorem State.atTime_tickets (s : State) (t : Nat) : (s.atTime t).tickets = s.tickets := rfl
@[simp] theorem State.atTime_events (s : State) (t : Nat) : (s.atTime t).events = s.events := rfl
@[simp] theorem State.atTime_mem (s : State) (t : Nat) : (s.atTime t).mem = s.mem := rfl
@[simp] theorem State.atTime_poison (s : State) (t : Nat) : (s.atTime t).poison = s.poison := rfl
@[simp] theorem State.atTime_tags (s : State) (t : Nat) : (s.atTime t).tags = s.tags := rfl
@[simp] theorem State.atTime_keys (s : State) (t : Nat) : (s.atTime t).keys = s.keys := rfl
@[simp] theorem State.atTime_hmask (s : State) (t : Nat) : (s.atTime t).hmask = s.hmask := rfl
@[simp] theorem State.atTime_copies (s : State) (t : Nat) : (s.atTime t).copies = s.copies := rfl
@[simp] theorem State.atTime_lantern (s : State) (t : Nat) : (s.atTime t).lantern = s.lantern := rfl
@[simp] theorem State.atTime_clock (s : State) (t : Nat) : (s.atTime t).clock = s.clock := rfl
@[simp] theorem State.atTime_scrubbed (s : State) (t : Nat) : (s.atTime t).scrubbed = s.scrubbed := rfl
@[simp] theorem State.atTime_bar (s : State) (t : Nat) : (s.atTime t).bar = s.bar := rfl
@[simp] theorem State.atTime_unmasked (s : State) (t : Nat) : (s.atTime t).unmasked = s.unmasked := rfl
@[simp] theorem State.atTime_pendingIrq (s : State) (t : Nat) : (s.atTime t).pendingIrq = s.pendingIrq := rfl
@[simp] theorem State.atTime_sentIrq (s : State) (t : Nat) : (s.atTime t).sentIrq = s.sentIrq := rfl
@[simp] theorem State.atTime_measurements (s : State) (t : Nat) : (s.atTime t).measurements = s.measurements := rfl
@[simp] theorem State.atTime_attested (s : State) (t : Nat) : (s.atTime t).attested = s.attested := rfl
@[simp] theorem State.atTime_sends (s : State) (t : Nat) : (s.atTime t).sends = s.sends := rfl
@[simp] theorem State.atTime_accepts (s : State) (t : Nat) : (s.atTime t).accepts = s.accepts := rfl
@[simp] theorem State.atTime_joined (s : State) (t : Nat) : (s.atTime t).joined = s.joined := rfl
@[simp] theorem State.atTime_absentParts (s : State) (t : Nat) : (s.atTime t).absentParts = s.absentParts := rfl
@[simp] theorem State.atTime_contacts (s : State) (t : Nat) : (s.atTime t).contacts = s.contacts := rfl
@[simp] theorem State.atTime_lines (s : State) (t : Nat) : (s.atTime t).lines = s.lines := rfl
@[simp] theorem State.atTime_marks (s : State) (t : Nat) : (s.atTime t).marks = s.marks := rfl
@[simp] theorem State.atTime_hostTime (s : State) (t : Nat) : (s.atTime t).hostTime = s.hostTime := rfl
@[simp] theorem State.atTime_synced (s : State) (t : Nat) : (s.atTime t).synced = s.synced := rfl
@[simp] theorem State.atTime_hostFlags (s : State) (t : Nat) : (s.atTime t).hostFlags = s.hostFlags := rfl
@[simp] theorem State.atTime_accepted (s : State) (t : Nat) : (s.atTime t).accepted = s.accepted := rfl
@[simp] theorem State.atTime_taskImages (s : State) (t : Nat) : (s.atTime t).taskImages = s.taskImages := rfl
@[simp] theorem State.atTime_throttled (s : State) (t : Nat) : (s.atTime t).throttled = s.throttled := rfl
@[simp] theorem State.atTime_held (s : State) (t : Nat) : (s.atTime t).held = s.held := rfl
@[simp] theorem State.atTime_hostLog (s : State) (t : Nat) : (s.atTime t).hostLog = s.hostLog := rfl
@[simp] theorem State.atTime_agenda (s : State) (t : Nat) : (s.atTime t).agenda = s.agenda := rfl
@[simp] theorem State.atTime_free (s : State) (t : Nat) : (s.atTime t).free = s.free := rfl
@[simp] theorem State.atTime_ids (s : State) (t : Nat) : (s.atTime t).ids = s.ids := rfl

/-! ### A launch, a group or a party put back -/

@[simp] theorem State.putLaunch_party (s : State) (l : Launch) : (s.putLaunch l).party = s.party := rfl
@[simp] theorem State.putLaunch_others (s : State) (l : Launch) : (s.putLaunch l).others = s.others := rfl
@[simp] theorem State.putLaunch_groups (s : State) (l : Launch) : (s.putLaunch l).groups = s.groups := rfl
@[simp] theorem State.putLaunch_lastQueue (s : State) (l : Launch) : (s.putLaunch l).lastQueue = s.lastQueue := rfl
@[simp] theorem State.putLaunch_contexts (s : State) (l : Launch) : (s.putLaunch l).contexts = s.contexts := rfl
@[simp] theorem State.putLaunch_commands (s : State) (l : Launch) : (s.putLaunch l).commands = s.commands := rfl
@[simp] theorem State.putLaunch_tasks (s : State) (l : Launch) : (s.putLaunch l).tasks = s.tasks := rfl
@[simp] theorem State.putLaunch_retiring (s : State) (l : Launch) : (s.putLaunch l).retiring = s.retiring := rfl
@[simp] theorem State.putLaunch_collectives (s : State) (l : Launch) : (s.putLaunch l).collectives = s.collectives := rfl
@[simp] theorem State.putLaunch_instances (s : State) (l : Launch) : (s.putLaunch l).instances = s.instances := rfl
@[simp] theorem State.putLaunch_tickets (s : State) (l : Launch) : (s.putLaunch l).tickets = s.tickets := rfl
@[simp] theorem State.putLaunch_events (s : State) (l : Launch) : (s.putLaunch l).events = s.events := rfl
@[simp] theorem State.putLaunch_mem (s : State) (l : Launch) : (s.putLaunch l).mem = s.mem := rfl
@[simp] theorem State.putLaunch_poison (s : State) (l : Launch) : (s.putLaunch l).poison = s.poison := rfl
@[simp] theorem State.putLaunch_tags (s : State) (l : Launch) : (s.putLaunch l).tags = s.tags := rfl
@[simp] theorem State.putLaunch_keys (s : State) (l : Launch) : (s.putLaunch l).keys = s.keys := rfl
@[simp] theorem State.putLaunch_hmask (s : State) (l : Launch) : (s.putLaunch l).hmask = s.hmask := rfl
@[simp] theorem State.putLaunch_copies (s : State) (l : Launch) : (s.putLaunch l).copies = s.copies := rfl
@[simp] theorem State.putLaunch_lantern (s : State) (l : Launch) : (s.putLaunch l).lantern = s.lantern := rfl
@[simp] theorem State.putLaunch_clock (s : State) (l : Launch) : (s.putLaunch l).clock = s.clock := rfl
@[simp] theorem State.putLaunch_scrubbed (s : State) (l : Launch) : (s.putLaunch l).scrubbed = s.scrubbed := rfl
@[simp] theorem State.putLaunch_bar (s : State) (l : Launch) : (s.putLaunch l).bar = s.bar := rfl
@[simp] theorem State.putLaunch_unmasked (s : State) (l : Launch) : (s.putLaunch l).unmasked = s.unmasked := rfl
@[simp] theorem State.putLaunch_pendingIrq (s : State) (l : Launch) : (s.putLaunch l).pendingIrq = s.pendingIrq := rfl
@[simp] theorem State.putLaunch_sentIrq (s : State) (l : Launch) : (s.putLaunch l).sentIrq = s.sentIrq := rfl
@[simp] theorem State.putLaunch_measurements (s : State) (l : Launch) : (s.putLaunch l).measurements = s.measurements := rfl
@[simp] theorem State.putLaunch_attested (s : State) (l : Launch) : (s.putLaunch l).attested = s.attested := rfl
@[simp] theorem State.putLaunch_sends (s : State) (l : Launch) : (s.putLaunch l).sends = s.sends := rfl
@[simp] theorem State.putLaunch_accepts (s : State) (l : Launch) : (s.putLaunch l).accepts = s.accepts := rfl
@[simp] theorem State.putLaunch_joined (s : State) (l : Launch) : (s.putLaunch l).joined = s.joined := rfl
@[simp] theorem State.putLaunch_absentParts (s : State) (l : Launch) : (s.putLaunch l).absentParts = s.absentParts := rfl
@[simp] theorem State.putLaunch_contacts (s : State) (l : Launch) : (s.putLaunch l).contacts = s.contacts := rfl
@[simp] theorem State.putLaunch_lines (s : State) (l : Launch) : (s.putLaunch l).lines = s.lines := rfl
@[simp] theorem State.putLaunch_marks (s : State) (l : Launch) : (s.putLaunch l).marks = s.marks := rfl
@[simp] theorem State.putLaunch_hostTime (s : State) (l : Launch) : (s.putLaunch l).hostTime = s.hostTime := rfl
@[simp] theorem State.putLaunch_synced (s : State) (l : Launch) : (s.putLaunch l).synced = s.synced := rfl
@[simp] theorem State.putLaunch_hostFlags (s : State) (l : Launch) : (s.putLaunch l).hostFlags = s.hostFlags := rfl
@[simp] theorem State.putLaunch_accepted (s : State) (l : Launch) : (s.putLaunch l).accepted = s.accepted := rfl
@[simp] theorem State.putLaunch_taskImages (s : State) (l : Launch) : (s.putLaunch l).taskImages = s.taskImages := rfl
@[simp] theorem State.putLaunch_throttled (s : State) (l : Launch) : (s.putLaunch l).throttled = s.throttled := rfl
@[simp] theorem State.putLaunch_held (s : State) (l : Launch) : (s.putLaunch l).held = s.held := rfl
@[simp] theorem State.putLaunch_hostLog (s : State) (l : Launch) : (s.putLaunch l).hostLog = s.hostLog := rfl
@[simp] theorem State.putLaunch_agenda (s : State) (l : Launch) : (s.putLaunch l).agenda = s.agenda := rfl
@[simp] theorem State.putLaunch_free (s : State) (l : Launch) : (s.putLaunch l).free = s.free := rfl
@[simp] theorem State.putLaunch_ids (s : State) (l : Launch) : (s.putLaunch l).ids = s.ids := rfl
@[simp] theorem State.putGroup_party (s : State) (g : Group) : (s.putGroup g).party = s.party := rfl
@[simp] theorem State.putGroup_others (s : State) (g : Group) : (s.putGroup g).others = s.others := rfl
@[simp] theorem State.putGroup_launches (s : State) (g : Group) : (s.putGroup g).launches = s.launches := rfl
@[simp] theorem State.putGroup_lastQueue (s : State) (g : Group) : (s.putGroup g).lastQueue = s.lastQueue := rfl
@[simp] theorem State.putGroup_contexts (s : State) (g : Group) : (s.putGroup g).contexts = s.contexts := rfl
@[simp] theorem State.putGroup_commands (s : State) (g : Group) : (s.putGroup g).commands = s.commands := rfl
@[simp] theorem State.putGroup_tasks (s : State) (g : Group) : (s.putGroup g).tasks = s.tasks := rfl
@[simp] theorem State.putGroup_retiring (s : State) (g : Group) : (s.putGroup g).retiring = s.retiring := rfl
@[simp] theorem State.putGroup_collectives (s : State) (g : Group) : (s.putGroup g).collectives = s.collectives := rfl
@[simp] theorem State.putGroup_instances (s : State) (g : Group) : (s.putGroup g).instances = s.instances := rfl
@[simp] theorem State.putGroup_tickets (s : State) (g : Group) : (s.putGroup g).tickets = s.tickets := rfl
@[simp] theorem State.putGroup_events (s : State) (g : Group) : (s.putGroup g).events = s.events := rfl
@[simp] theorem State.putGroup_mem (s : State) (g : Group) : (s.putGroup g).mem = s.mem := rfl
@[simp] theorem State.putGroup_poison (s : State) (g : Group) : (s.putGroup g).poison = s.poison := rfl
@[simp] theorem State.putGroup_tags (s : State) (g : Group) : (s.putGroup g).tags = s.tags := rfl
@[simp] theorem State.putGroup_keys (s : State) (g : Group) : (s.putGroup g).keys = s.keys := rfl
@[simp] theorem State.putGroup_hmask (s : State) (g : Group) : (s.putGroup g).hmask = s.hmask := rfl
@[simp] theorem State.putGroup_copies (s : State) (g : Group) : (s.putGroup g).copies = s.copies := rfl
@[simp] theorem State.putGroup_lantern (s : State) (g : Group) : (s.putGroup g).lantern = s.lantern := rfl
@[simp] theorem State.putGroup_clock (s : State) (g : Group) : (s.putGroup g).clock = s.clock := rfl
@[simp] theorem State.putGroup_scrubbed (s : State) (g : Group) : (s.putGroup g).scrubbed = s.scrubbed := rfl
@[simp] theorem State.putGroup_bar (s : State) (g : Group) : (s.putGroup g).bar = s.bar := rfl
@[simp] theorem State.putGroup_unmasked (s : State) (g : Group) : (s.putGroup g).unmasked = s.unmasked := rfl
@[simp] theorem State.putGroup_pendingIrq (s : State) (g : Group) : (s.putGroup g).pendingIrq = s.pendingIrq := rfl
@[simp] theorem State.putGroup_sentIrq (s : State) (g : Group) : (s.putGroup g).sentIrq = s.sentIrq := rfl
@[simp] theorem State.putGroup_measurements (s : State) (g : Group) : (s.putGroup g).measurements = s.measurements := rfl
@[simp] theorem State.putGroup_attested (s : State) (g : Group) : (s.putGroup g).attested = s.attested := rfl
@[simp] theorem State.putGroup_sends (s : State) (g : Group) : (s.putGroup g).sends = s.sends := rfl
@[simp] theorem State.putGroup_accepts (s : State) (g : Group) : (s.putGroup g).accepts = s.accepts := rfl
@[simp] theorem State.putGroup_joined (s : State) (g : Group) : (s.putGroup g).joined = s.joined := rfl
@[simp] theorem State.putGroup_absentParts (s : State) (g : Group) : (s.putGroup g).absentParts = s.absentParts := rfl
@[simp] theorem State.putGroup_contacts (s : State) (g : Group) : (s.putGroup g).contacts = s.contacts := rfl
@[simp] theorem State.putGroup_lines (s : State) (g : Group) : (s.putGroup g).lines = s.lines := rfl
@[simp] theorem State.putGroup_marks (s : State) (g : Group) : (s.putGroup g).marks = s.marks := rfl
@[simp] theorem State.putGroup_hostTime (s : State) (g : Group) : (s.putGroup g).hostTime = s.hostTime := rfl
@[simp] theorem State.putGroup_synced (s : State) (g : Group) : (s.putGroup g).synced = s.synced := rfl
@[simp] theorem State.putGroup_hostFlags (s : State) (g : Group) : (s.putGroup g).hostFlags = s.hostFlags := rfl
@[simp] theorem State.putGroup_accepted (s : State) (g : Group) : (s.putGroup g).accepted = s.accepted := rfl
@[simp] theorem State.putGroup_taskImages (s : State) (g : Group) : (s.putGroup g).taskImages = s.taskImages := rfl
@[simp] theorem State.putGroup_throttled (s : State) (g : Group) : (s.putGroup g).throttled = s.throttled := rfl
@[simp] theorem State.putGroup_held (s : State) (g : Group) : (s.putGroup g).held = s.held := rfl
@[simp] theorem State.putGroup_hostLog (s : State) (g : Group) : (s.putGroup g).hostLog = s.hostLog := rfl
@[simp] theorem State.putGroup_agenda (s : State) (g : Group) : (s.putGroup g).agenda = s.agenda := rfl
@[simp] theorem State.putGroup_free (s : State) (g : Group) : (s.putGroup g).free = s.free := rfl
@[simp] theorem State.putGroup_ids (s : State) (g : Group) : (s.putGroup g).ids = s.ids := rfl
@[simp] theorem State.putParty_groups (s : State) (p : Party) : (s.putParty p).groups = s.groups :=
    by unfold State.putParty; split <;> rfl
@[simp] theorem State.putParty_launches (s : State) (p : Party) : (s.putParty p).launches = s.launches :=
    by unfold State.putParty; split <;> rfl
@[simp] theorem State.putParty_lastQueue (s : State) (p : Party) : (s.putParty p).lastQueue = s.lastQueue :=
    by unfold State.putParty; split <;> rfl
@[simp] theorem State.putParty_contexts (s : State) (p : Party) : (s.putParty p).contexts = s.contexts :=
    by unfold State.putParty; split <;> rfl
@[simp] theorem State.putParty_commands (s : State) (p : Party) : (s.putParty p).commands = s.commands :=
    by unfold State.putParty; split <;> rfl
@[simp] theorem State.putParty_tasks (s : State) (p : Party) : (s.putParty p).tasks = s.tasks :=
    by unfold State.putParty; split <;> rfl
@[simp] theorem State.putParty_retiring (s : State) (p : Party) : (s.putParty p).retiring = s.retiring :=
    by unfold State.putParty; split <;> rfl
@[simp] theorem State.putParty_collectives (s : State) (p : Party) : (s.putParty p).collectives = s.collectives :=
    by unfold State.putParty; split <;> rfl
@[simp] theorem State.putParty_instances (s : State) (p : Party) : (s.putParty p).instances = s.instances :=
    by unfold State.putParty; split <;> rfl
@[simp] theorem State.putParty_tickets (s : State) (p : Party) : (s.putParty p).tickets = s.tickets :=
    by unfold State.putParty; split <;> rfl
@[simp] theorem State.putParty_events (s : State) (p : Party) : (s.putParty p).events = s.events :=
    by unfold State.putParty; split <;> rfl
@[simp] theorem State.putParty_mem (s : State) (p : Party) : (s.putParty p).mem = s.mem :=
    by unfold State.putParty; split <;> rfl
@[simp] theorem State.putParty_poison (s : State) (p : Party) : (s.putParty p).poison = s.poison :=
    by unfold State.putParty; split <;> rfl
@[simp] theorem State.putParty_tags (s : State) (p : Party) : (s.putParty p).tags = s.tags :=
    by unfold State.putParty; split <;> rfl
@[simp] theorem State.putParty_keys (s : State) (p : Party) : (s.putParty p).keys = s.keys :=
    by unfold State.putParty; split <;> rfl
@[simp] theorem State.putParty_hmask (s : State) (p : Party) : (s.putParty p).hmask = s.hmask :=
    by unfold State.putParty; split <;> rfl
@[simp] theorem State.putParty_copies (s : State) (p : Party) : (s.putParty p).copies = s.copies :=
    by unfold State.putParty; split <;> rfl
@[simp] theorem State.putParty_lantern (s : State) (p : Party) : (s.putParty p).lantern = s.lantern :=
    by unfold State.putParty; split <;> rfl
@[simp] theorem State.putParty_clock (s : State) (p : Party) : (s.putParty p).clock = s.clock :=
    by unfold State.putParty; split <;> rfl
@[simp] theorem State.putParty_scrubbed (s : State) (p : Party) : (s.putParty p).scrubbed = s.scrubbed :=
    by unfold State.putParty; split <;> rfl
@[simp] theorem State.putParty_bar (s : State) (p : Party) : (s.putParty p).bar = s.bar :=
    by unfold State.putParty; split <;> rfl
@[simp] theorem State.putParty_unmasked (s : State) (p : Party) : (s.putParty p).unmasked = s.unmasked :=
    by unfold State.putParty; split <;> rfl
@[simp] theorem State.putParty_pendingIrq (s : State) (p : Party) : (s.putParty p).pendingIrq = s.pendingIrq :=
    by unfold State.putParty; split <;> rfl
@[simp] theorem State.putParty_sentIrq (s : State) (p : Party) : (s.putParty p).sentIrq = s.sentIrq :=
    by unfold State.putParty; split <;> rfl
@[simp] theorem State.putParty_measurements (s : State) (p : Party) : (s.putParty p).measurements = s.measurements :=
    by unfold State.putParty; split <;> rfl
@[simp] theorem State.putParty_attested (s : State) (p : Party) : (s.putParty p).attested = s.attested :=
    by unfold State.putParty; split <;> rfl
@[simp] theorem State.putParty_sends (s : State) (p : Party) : (s.putParty p).sends = s.sends :=
    by unfold State.putParty; split <;> rfl
@[simp] theorem State.putParty_accepts (s : State) (p : Party) : (s.putParty p).accepts = s.accepts :=
    by unfold State.putParty; split <;> rfl
@[simp] theorem State.putParty_joined (s : State) (p : Party) : (s.putParty p).joined = s.joined :=
    by unfold State.putParty; split <;> rfl
@[simp] theorem State.putParty_absentParts (s : State) (p : Party) : (s.putParty p).absentParts = s.absentParts :=
    by unfold State.putParty; split <;> rfl
@[simp] theorem State.putParty_contacts (s : State) (p : Party) : (s.putParty p).contacts = s.contacts :=
    by unfold State.putParty; split <;> rfl
@[simp] theorem State.putParty_lines (s : State) (p : Party) : (s.putParty p).lines = s.lines :=
    by unfold State.putParty; split <;> rfl
@[simp] theorem State.putParty_marks (s : State) (p : Party) : (s.putParty p).marks = s.marks :=
    by unfold State.putParty; split <;> rfl
@[simp] theorem State.putParty_hostTime (s : State) (p : Party) : (s.putParty p).hostTime = s.hostTime :=
    by unfold State.putParty; split <;> rfl
@[simp] theorem State.putParty_synced (s : State) (p : Party) : (s.putParty p).synced = s.synced :=
    by unfold State.putParty; split <;> rfl
@[simp] theorem State.putParty_hostFlags (s : State) (p : Party) : (s.putParty p).hostFlags = s.hostFlags :=
    by unfold State.putParty; split <;> rfl
@[simp] theorem State.putParty_accepted (s : State) (p : Party) : (s.putParty p).accepted = s.accepted :=
    by unfold State.putParty; split <;> rfl
@[simp] theorem State.putParty_taskImages (s : State) (p : Party) : (s.putParty p).taskImages = s.taskImages :=
    by unfold State.putParty; split <;> rfl
@[simp] theorem State.putParty_throttled (s : State) (p : Party) : (s.putParty p).throttled = s.throttled :=
    by unfold State.putParty; split <;> rfl
@[simp] theorem State.putParty_held (s : State) (p : Party) : (s.putParty p).held = s.held :=
    by unfold State.putParty; split <;> rfl
@[simp] theorem State.putParty_hostLog (s : State) (p : Party) : (s.putParty p).hostLog = s.hostLog :=
    by unfold State.putParty; split <;> rfl
@[simp] theorem State.putParty_agenda (s : State) (p : Party) : (s.putParty p).agenda = s.agenda :=
    by unfold State.putParty; split <;> rfl
@[simp] theorem State.putParty_free (s : State) (p : Party) : (s.putParty p).free = s.free :=
    by unfold State.putParty; split <;> rfl
@[simp] theorem State.putParty_ids (s : State) (p : Party) : (s.putParty p).ids = s.ids :=
    by unfold State.putParty; split <;> rfl

/-! ### The focus -/

@[simp] theorem State.focus_groups (s : State) (pid : Nat) : (s.focus pid).groups = s.groups :=
    by unfold State.focus; (repeat' split) <;> rfl
@[simp] theorem State.focus_launches (s : State) (pid : Nat) : (s.focus pid).launches = s.launches :=
    by unfold State.focus; (repeat' split) <;> rfl
@[simp] theorem State.focus_lastQueue (s : State) (pid : Nat) : (s.focus pid).lastQueue = s.lastQueue :=
    by unfold State.focus; (repeat' split) <;> rfl
@[simp] theorem State.focus_contexts (s : State) (pid : Nat) : (s.focus pid).contexts = s.contexts :=
    by unfold State.focus; (repeat' split) <;> rfl
@[simp] theorem State.focus_commands (s : State) (pid : Nat) : (s.focus pid).commands = s.commands :=
    by unfold State.focus; (repeat' split) <;> rfl
@[simp] theorem State.focus_tasks (s : State) (pid : Nat) : (s.focus pid).tasks = s.tasks :=
    by unfold State.focus; (repeat' split) <;> rfl
@[simp] theorem State.focus_retiring (s : State) (pid : Nat) : (s.focus pid).retiring = s.retiring :=
    by unfold State.focus; (repeat' split) <;> rfl
@[simp] theorem State.focus_collectives (s : State) (pid : Nat) : (s.focus pid).collectives = s.collectives :=
    by unfold State.focus; (repeat' split) <;> rfl
@[simp] theorem State.focus_instances (s : State) (pid : Nat) : (s.focus pid).instances = s.instances :=
    by unfold State.focus; (repeat' split) <;> rfl
@[simp] theorem State.focus_tickets (s : State) (pid : Nat) : (s.focus pid).tickets = s.tickets :=
    by unfold State.focus; (repeat' split) <;> rfl
@[simp] theorem State.focus_events (s : State) (pid : Nat) : (s.focus pid).events = s.events :=
    by unfold State.focus; (repeat' split) <;> rfl
@[simp] theorem State.focus_mem (s : State) (pid : Nat) : (s.focus pid).mem = s.mem :=
    by unfold State.focus; (repeat' split) <;> rfl
@[simp] theorem State.focus_poison (s : State) (pid : Nat) : (s.focus pid).poison = s.poison :=
    by unfold State.focus; (repeat' split) <;> rfl
@[simp] theorem State.focus_tags (s : State) (pid : Nat) : (s.focus pid).tags = s.tags :=
    by unfold State.focus; (repeat' split) <;> rfl
@[simp] theorem State.focus_keys (s : State) (pid : Nat) : (s.focus pid).keys = s.keys :=
    by unfold State.focus; (repeat' split) <;> rfl
@[simp] theorem State.focus_hmask (s : State) (pid : Nat) : (s.focus pid).hmask = s.hmask :=
    by unfold State.focus; (repeat' split) <;> rfl
@[simp] theorem State.focus_copies (s : State) (pid : Nat) : (s.focus pid).copies = s.copies :=
    by unfold State.focus; (repeat' split) <;> rfl
@[simp] theorem State.focus_lantern (s : State) (pid : Nat) : (s.focus pid).lantern = s.lantern :=
    by unfold State.focus; (repeat' split) <;> rfl
@[simp] theorem State.focus_clock (s : State) (pid : Nat) : (s.focus pid).clock = s.clock :=
    by unfold State.focus; (repeat' split) <;> rfl
@[simp] theorem State.focus_scrubbed (s : State) (pid : Nat) : (s.focus pid).scrubbed = s.scrubbed :=
    by unfold State.focus; (repeat' split) <;> rfl
@[simp] theorem State.focus_bar (s : State) (pid : Nat) : (s.focus pid).bar = s.bar :=
    by unfold State.focus; (repeat' split) <;> rfl
@[simp] theorem State.focus_unmasked (s : State) (pid : Nat) : (s.focus pid).unmasked = s.unmasked :=
    by unfold State.focus; (repeat' split) <;> rfl
@[simp] theorem State.focus_pendingIrq (s : State) (pid : Nat) : (s.focus pid).pendingIrq = s.pendingIrq :=
    by unfold State.focus; (repeat' split) <;> rfl
@[simp] theorem State.focus_sentIrq (s : State) (pid : Nat) : (s.focus pid).sentIrq = s.sentIrq :=
    by unfold State.focus; (repeat' split) <;> rfl
@[simp] theorem State.focus_measurements (s : State) (pid : Nat) : (s.focus pid).measurements = s.measurements :=
    by unfold State.focus; (repeat' split) <;> rfl
@[simp] theorem State.focus_attested (s : State) (pid : Nat) : (s.focus pid).attested = s.attested :=
    by unfold State.focus; (repeat' split) <;> rfl
@[simp] theorem State.focus_sends (s : State) (pid : Nat) : (s.focus pid).sends = s.sends :=
    by unfold State.focus; (repeat' split) <;> rfl
@[simp] theorem State.focus_accepts (s : State) (pid : Nat) : (s.focus pid).accepts = s.accepts :=
    by unfold State.focus; (repeat' split) <;> rfl
@[simp] theorem State.focus_joined (s : State) (pid : Nat) : (s.focus pid).joined = s.joined :=
    by unfold State.focus; (repeat' split) <;> rfl
@[simp] theorem State.focus_absentParts (s : State) (pid : Nat) : (s.focus pid).absentParts = s.absentParts :=
    by unfold State.focus; (repeat' split) <;> rfl
@[simp] theorem State.focus_contacts (s : State) (pid : Nat) : (s.focus pid).contacts = s.contacts :=
    by unfold State.focus; (repeat' split) <;> rfl
@[simp] theorem State.focus_lines (s : State) (pid : Nat) : (s.focus pid).lines = s.lines :=
    by unfold State.focus; (repeat' split) <;> rfl
@[simp] theorem State.focus_marks (s : State) (pid : Nat) : (s.focus pid).marks = s.marks :=
    by unfold State.focus; (repeat' split) <;> rfl
@[simp] theorem State.focus_hostTime (s : State) (pid : Nat) : (s.focus pid).hostTime = s.hostTime :=
    by unfold State.focus; (repeat' split) <;> rfl
@[simp] theorem State.focus_synced (s : State) (pid : Nat) : (s.focus pid).synced = s.synced :=
    by unfold State.focus; (repeat' split) <;> rfl
@[simp] theorem State.focus_hostFlags (s : State) (pid : Nat) : (s.focus pid).hostFlags = s.hostFlags :=
    by unfold State.focus; (repeat' split) <;> rfl
@[simp] theorem State.focus_accepted (s : State) (pid : Nat) : (s.focus pid).accepted = s.accepted :=
    by unfold State.focus; (repeat' split) <;> rfl
@[simp] theorem State.focus_taskImages (s : State) (pid : Nat) : (s.focus pid).taskImages = s.taskImages :=
    by unfold State.focus; (repeat' split) <;> rfl
@[simp] theorem State.focus_throttled (s : State) (pid : Nat) : (s.focus pid).throttled = s.throttled :=
    by unfold State.focus; (repeat' split) <;> rfl
@[simp] theorem State.focus_held (s : State) (pid : Nat) : (s.focus pid).held = s.held :=
    by unfold State.focus; (repeat' split) <;> rfl
@[simp] theorem State.focus_hostLog (s : State) (pid : Nat) : (s.focus pid).hostLog = s.hostLog :=
    by unfold State.focus; (repeat' split) <;> rfl
@[simp] theorem State.focus_agenda (s : State) (pid : Nat) : (s.focus pid).agenda = s.agenda :=
    by unfold State.focus; (repeat' split) <;> rfl
@[simp] theorem State.focus_free (s : State) (pid : Nat) : (s.focus pid).free = s.free :=
    by unfold State.focus; (repeat' split) <;> rfl
@[simp] theorem State.focus_ids (s : State) (pid : Nat) : (s.focus pid).ids = s.ids :=
    by unfold State.focus; (repeat' split) <;> rfl

/-! ### Reading back -/

/-- s0 reads zero whatever is written (R33). -/
@[simp] theorem Party.reg_zero (p : Party) : p.reg 0 = 0 := if_pos rfl

/-- A register reads as written; s0 discards. -/
theorem Party.reg_setReg (p : Party) (r q : Reg) (v : Word) :
    (p.setReg r v).reg q = if q = r ∧ r ≠ 0 then v else p.reg q := by
  by_cases hr : r = 0
  · rw [Party.setReg, if_pos hr, if_neg (fun h => h.2 hr)]
  · rw [Party.setReg, if_neg hr]
    by_cases h0 : q = 0
    · subst h0
      rw [if_neg (fun h => hr h.1.symm), Party.reg_zero, Party.reg_zero]
    · simp only [Party.reg, if_neg h0]
      by_cases hq : q = r
      · subst hq
        rw [if_pos ⟨rfl, hr⟩]
        exact Vector.getElem_set_self ..
      · rw [if_neg (fun h => hq h.1)]
        exact Vector.getElem_set_ne _ _ (fun h => hq (BitVec.eq_of_toNat_eq h.symm))

/-- A mask register reads as written within the party's lanes. -/
theorem Party.mask_setMask (p : Party) (n k : BitVec 3) (m : Mask) :
    (p.setMask n m).mask k = if k = n then m &&& p.allLanes else p.mask k := by
  unfold Party.setMask Party.mask
  by_cases h : k = n
  · subst h
    simp
  · have hne : n.toNat ≠ k.toNat := fun e => h (BitVec.eq_of_toNat_eq e.symm)
    simp [h, hne]

/-- A deadline register reads as written. -/
theorem Party.deadlineReg_set (p : Party) (n k : BitVec 2) (v : Word) :
    (p.setDeadlineReg n v).deadlineReg k = if k = n then v else p.deadlineReg k := by
  unfold Party.setDeadlineReg Party.deadlineReg
  by_cases h : k = n
  · subst h
    simp
  · have hne : n.toNat ≠ k.toNat := fun e => h (BitVec.eq_of_toNat_eq e.symm)
    simp [h, hne]

end Sys2Proof.Machine
end

