-- ==== Sys2Proof/Laws/Lease.lean ====
section
/-!
SUPPORT. What the logical side of an access leaves alone: reads and writes change lines, copies and a party's time, and
nothing that a program holds.
-/
namespace Sys2Proof.Machine

/-- Two states that differ at most in what the logical side of an access may change: lines, copies, notes of the host path, and
the logical time of the party in focus. -/
structure SameBut (s t : State) : Prop where
  mem : t.mem = s.mem
  groups : t.groups = s.groups
  others : t.others = s.others
  launches : t.launches = s.launches
  tags : t.tags = s.tags
  keys : t.keys = s.keys
  poison : t.poison = s.poison
  party : ∃ n, t.party = { s.party with pt := n }

theorem SameBut.refl (s : State) : SameBut s s := ⟨rfl, rfl, rfl, rfl, rfl, rfl, rfl, s.party.pt, rfl⟩

theorem SameBut.trans {s t u : State} (h : SameBut s t) (k : SameBut t u) : SameBut s u := by
  obtain ⟨n, hn⟩ := h.party
  obtain ⟨m, hm⟩ := k.party
  exact ⟨k.mem.trans h.mem, k.groups.trans h.groups, k.others.trans h.others, k.launches.trans h.launches,
    k.tags.trans h.tags, k.keys.trans h.keys, k.poison.trans h.poison, m, by rw [hm, hn]⟩

/-- A fold of steps of this kind is one. -/
theorem SameBut.foldl {α : Type} {f : State → α → State} (hf : ∀ s a, SameBut s (f s a)) (l : List α) (s : State) :
    SameBut s (l.foldl f s) := by
  induction l generalizing s with
  | nil => exact .refl s
  | cons a l ih => exact (hf s a).trans (ih _)

theorem State.putLine_same (s : State) (l : Line) : SameBut s (s.putLine l) :=
  ⟨rfl, rfl, rfl, rfl, rfl, rfl, rfl, s.party.pt, rfl⟩

theorem State.noteRead_same (s : State) (core time : Nat) (p : Place) (n : Nat) : SameBut s (s.noteRead core time p n).1 := by
  unfold State.noteRead
  generalize p.lines n = ls
  suffices ∀ (r : State × Nat), SameBut s r.1 → SameBut s (ls.foldl (fun (r : State × Nat) x =>
      let l := (r.1.lineAt x).renewed r.2 (s.leaseOf core p)
      (r.1.putLine l, Nat.max r.2 l.wt)) r).1 from this _ (.refl s)
  induction ls with
  | nil => exact fun _ h => h
  | cons x ls ih => exact fun r h => ih _ (h.trans (State.putLine_same _ _))

/-- A read of the party in focus changes no more than that. -/
theorem State.partyRead_same (s : State) (p : Place) (n : Nat) : SameBut s (s.partyRead p n) := by
  have h := State.noteRead_same s s.party.core s.party.pt p n
  obtain ⟨m, hm⟩ := h.party
  exact ⟨h.mem, h.groups, h.others, h.launches, h.tags, h.keys, h.poison, _, by simp [State.partyRead, State.atTime, hm]; rfl⟩

theorem State.noteHost_same (s : State) (a : Agent) (t : Nat) : SameBut s (s.noteHost a t) := by
  unfold State.noteHost
  split <;> exact ⟨rfl, rfl, rfl, rfl, rfl, rfl, rfl, s.party.pt, rfl⟩

theorem State.noteWrite_same (s : State) (a : Agent) (p : Place) (n : Nat) : SameBut s (s.noteWrite a p n).1 := by
  let t := s.writeTime (s.earliest a) a.path p n
  have h : SameBut s (s.stampLines t p n) := SameBut.foldl (fun _ _ => State.putLine_same _ _) _ _
  have k : SameBut s (((s.stampLines t p n).passCopies a t p n).noteFlag a p n) :=
    ⟨h.mem, h.groups, h.others, h.launches, h.tags, h.keys, h.poison, h.party⟩
  exact k.trans (State.noteHost_same _ _ _)

theorem State.atTime_same (s : State) (n : Nat) : SameBut s (s.atTime n) := ⟨rfl, rfl, rfl, rfl, rfl, rfl, rfl, n, rfl⟩

theorem State.sawPoison_same (s : State) (ac : Accessor) (d : Deny) (a : Word) : SameBut s (s.sawPoison ac d a) := by
  unfold State.sawPoison
  split
  · split
    · exact State.partyRead_same _ _ _
    · exact .refl s
  · exact .refl s

/-! ### Writes -/

theorem State.writeAs_wf {s : State} (a : Agent) (p : Place) (bs : List Byte) (h : Memory.wf s.mem) :
    Memory.wf (s.writeAs a p bs).1.mem :=
  State.writePlace_wf _ _ (by rw [(State.noteWrite_same s a p bs.length).mem]; exact h)

theorem State.writePart_wf {s : State} (p : Place) (bs : List Byte) (h : Memory.wf s.mem) : Memory.wf (s.writePart p bs).mem :=
  State.writeAs_wf _ _ _ h

theorem State.putBytes_wf {s t : State} {sp : Space} {fuel va : Nat} {bs : List Byte} (h : Memory.wf s.mem)
    (e : s.putBytes sp fuel va bs = .ok t) : Memory.wf t.mem := by
  induction fuel generalizing s va bs with
  | zero => cases e; exact h
  | succ fuel ih =>
    unfold State.putBytes at e
    split at e
    · cases e; exact h
    · split at e
      · cases e
      · split at e
        · cases e
        · exact ih (State.writePart_wf _ _ h) e

/-- What the part writes in the arena keeps the canonical form. -/
theorem State.arenaWrite_wf {s t : State} {sp : Space} {va : Nat} {bs : List Byte} (h : Memory.wf s.mem)
    (e : s.arenaWrite sp va bs = .ok t) : Memory.wf t.mem := State.putBytes_wf h e

end Sys2Proof.Machine
end

