-- ==== Sys2Proof/Laws/Ops.lean ====
section
/-!
SUPPORT. What the shared operations do to memory: which leave it alone, and that the others keep its canonical form; and
what taking a trap answers, case by case.
-/
namespace Sys2Proof.Machine

/-! ### Operations that leave memory alone -/

/-- What a watcher sees changes lines, its logical time and its wait, and no memory. -/
@[simp] theorem State.watch_mem (s : State) (pid : Nat) : (s.watch pid).mem = s.mem := by
  unfold State.watch
  repeat' split
  all_goals first
    | rfl
    | simp [(State.noteRead_same ..).mem]

@[simp] theorem State.watchAll_mem (s : State) : s.watchAll.mem = s.mem := by
  unfold State.watchAll
  generalize (s.parties.filter Party.watches).map (fun p => p.pid) = l
  induction l generalizing s with
  | nil => rfl
  | cons a l ih => exact (ih _).trans (s.watch_mem a)

@[simp] theorem State.endFuses_mem (s : State) (p : Party) (code : Word) : (s.endFuses p code).mem = s.mem := rfl
@[simp] theorem State.clearPoison_mem (s : State) (pa n : Nat) : (s.clearPoison pa n).mem = s.mem := rfl
@[simp] theorem State.declineScalar_mem (s : State) (t : Trap) : (s.declineScalar t).mem = s.mem := rfl
@[simp] theorem State.moveLines_mem (s : State) (from_ to_ : Place) (n : Nat) : (s.moveLines from_ to_ n).mem = s.mem := rfl
@[simp] theorem State.showHost_mem (s : State) (p : Place) (n : Nat) : (s.showHost p n).mem = s.mem := rfl
@[simp] theorem State.signalAt_mem (s : State) (t : Nat) : (s.signalAt t).mem = s.mem := rfl

@[simp] theorem State.interrupt_mem (s : State) (fn vector : Nat) : (s.interrupt fn vector).mem = s.mem := by
  unfold State.interrupt
  split
  · rfl
  · split <;> rfl

@[simp] theorem State.poisonByte_mem (s : State) (p : Place) : (s.poisonByte p).mem = s.mem := by
  unfold State.poisonByte
  split
  · rfl
  · split <;> rfl

/-! ### Operations that keep the canonical form -/

/-- A fold of steps that each keep the canonical form keeps it. -/
theorem foldl_wf {α : Type} {f : State → α → State} (hf : ∀ s a, Memory.wf s.mem → Memory.wf (f s a).mem) (l : List α)
    {s : State} (h : Memory.wf s.mem) : Memory.wf (l.foldl f s).mem := by
  induction l generalizing s with
  | nil => exact h
  | cons a l ih => exact ih (hf s a h)

/-- The same of steps that may be denied. -/
theorem foldlM_wf {α : Type} {f : State → α → Except Deny State}
    (hf : ∀ s a t, Memory.wf s.mem → f s a = .ok t → Memory.wf t.mem) (l : List α) {s t : State} (h : Memory.wf s.mem)
    (e : l.foldlM f s = .ok t) : Memory.wf t.mem := by
  induction l generalizing s with
  | nil => cases e; exact h
  | cons a l ih =>
    rw [List.foldlM_cons] at e
    cases hs : f s a with
    | error d => rw [hs] at e; cases e
    | ok u => rw [hs] at e; exact ih (hf s a u h hs) e

/-- A waiter tested keeps the canonical form. -/
theorem State.retest_wf {s : State} (pid : Nat) (h : Memory.wf s.mem) : Memory.wf (s.retest pid).mem := by
  unfold State.retest
  split
  · exact h
  · split
    · exact h
    · split
      · split
        · simpa using State.writeAs_wf _ _ _ h
        · exact h
      · exact h

theorem State.retestAll_wf {s : State} (h : Memory.wf s.mem) : Memory.wf s.retestAll.mem :=
  foldl_wf (fun _ _ h => State.retest_wf _ h) _ h

/-- A store keeps the canonical form. -/
theorem State.storeAs_wf {s : State} (a : Agent) (p : Place) (bs : List Byte) (h : Memory.wf s.mem) :
    Memory.wf (s.storeAs a p bs).1.mem := State.retestAll_wf (by simpa using State.writeAs_wf a p bs h)

theorem State.store_wf {s : State} (p : Place) (bs : List Byte) (h : Memory.wf s.mem) : Memory.wf (s.store p bs).mem :=
  State.storeAs_wf _ _ _ h

theorem State.partyStore_wf {s : State} (p : Place) (bs : List Byte) (h : Memory.wf s.mem) :
    Memory.wf (s.partyStore p bs).mem := State.storeAs_wf _ _ _ h

theorem State.save_wf {s t : State} {ac : Accessor} {a : Word} {n v : Nat} (h : Memory.wf s.mem)
    (e : s.save ac a n v = .ok t) : Memory.wf t.mem := by
  unfold State.save at e
  cases hp : s.writePlaceOf ac a n .write with
  | error d => rw [hp] at e; cases e
  | ok p => rw [hp] at e; cases e; exact State.store_wf _ _ h

/-- A word read changes lines alone. -/
theorem State.loadAs_same {s t : State} {core time time' v : Nat} {ac : Accessor} {a : Word}
    (e : s.loadAs core time ac a = .ok (t, time', v)) : SameBut s t := by
  unfold State.loadAs at e
  repeat' split at e
  all_goals first
    | (cases e; done)
    | (cases e; exact State.noteRead_same _ _ _ _ _)

theorem at_ok {α : Type} {a : Word} {x : Except Deny α} {y : α} (e : at_ a x = .ok y) : x = .ok y := by
  cases x with
  | error d => cases e
  | ok z => cases e; rfl

/-- A claim keeps the canonical form. -/
theorem State.claim_wf {s t : State} {a : Agent} {core : Nat} {ac : Accessor} {slot counter q seq seq' : Word}
    {want old time : Nat} (h : Memory.wf s.mem)
    (e : s.claim a core ac slot counter want old seq = .ok (.slot t time q seq')) : Memory.wf t.mem := by
  unfold State.claim at e
  simp only [bind, Except.bind, pure, Except.pure] at e
  split at e
  · cases e
  · rename_i r hr
    have hm := (State.loadAs_same (at_ok hr)).mem
    repeat' split at e
    all_goals first
      | (cases e; done)
      | (cases e; exact State.storeAs_wf _ _ _ (by rw [hm]; exact h))

/-- An event record put on its ring keeps the canonical form. -/
theorem State.putEvent_wf {s t : State} {ctx : Nat} {bs : List Byte} (h : Memory.wf s.mem)
    (e : s.putEvent ctx bs = some t) : Memory.wf t.mem := by
  unfold State.putEvent at e
  dsimp only at e
  split at e
  · split at e
    · cases e
    · split at e
      · cases e
      · split at e
        · rename_i hc
          have hs := State.claim_wf h hc
          split at e
          · cases e
          · rename_i hw
            have hu := State.arenaWrite_wf hs hw
            split at e
            · rename_i hv _
              cases e
              rw [State.interrupt_mem]
              exact foldl_wf (f := fun s (x : Place × Nat) => s.showHost x.1 x.2) (fun _ _ h => h) _ (State.save_wf hu hv)
            · rename_i hv _
              cases e
              rw [State.interrupt_mem]
              exact State.save_wf hu hv
            · cases e
        · cases e
  · cases e

theorem State.flushEvents_wf {s : State} (h : Memory.wf s.mem) : Memory.wf s.flushEvents.mem := by
  suffices ∀ (l : List (Nat × List Byte)) (acc : State × List (Nat × List Byte)), Memory.wf acc.1.mem →
      Memory.wf (l.foldl (fun (acc : State × List (Nat × List Byte)) e =>
        if acc.2.any fun w => w.1 == e.1 then (acc.1, acc.2 ++ [e])
        else match acc.1.putEvent e.1 e.2 with
          | some s => (s, acc.2)
          | none => (acc.1, acc.2 ++ [e])) acc).1.mem from this _ _ h
  intro l
  induction l with
  | nil => exact fun _ h => h
  | cons e l ih =>
    intro acc ha
    rw [List.foldl_cons]
    refine ih _ ?_
    split
    · exact ha
    · split
      · rename_i hp
        exact State.putEvent_wf ha hp
      · exact ha

theorem State.report_wf {s : State} (ctx : Nat) (e : Event) (h : Memory.wf s.mem) : Memory.wf (s.report ctx e).mem :=
  State.flushEvents_wf h

theorem State.ask_wf {s : State} (ctx : Nat) (who : Asker) (e : Event) (h : Memory.wf s.mem) :
    Memory.wf (s.ask ctx who e).2.mem := by
  unfold State.ask
  split
  · exact h
  · exact State.report_wf _ _ h

/-! ### Groups that leave a core (R284, R296) -/

/-- A group's scratchpad left in its backing keeps the canonical form. -/
theorem State.keepScratch_wf {s : State} (g : Group) (h : Memory.wf s.mem) : Memory.wf (s.keepScratch g).mem := by
  unfold State.keepScratch
  refine foldl_wf (fun s u h => ?_) _ (foldl_wf (f := fun (t : State) (b : Backing) =>
    (t.moveLines (.spad g.launch g.number b.off) (.phys b.base 0) b.len).writePhys b.base (readBytes g.spad b.off b.len) b.key)
    (fun s b h => State.writePhys_wf _ _ _ h) _ h)
  split
  · simpa using h
  · exact h

theorem State.saveUnit_wf {s t : State} {l : Launch} {g : Group} {u : Nat} (h : Memory.wf s.mem)
    (e : s.saveUnit l g u = .ok t) : Memory.wf t.mem := by
  unfold State.saveUnit at e
  simp only [bind, Except.bind, pure, Except.pure] at e
  split at e
  · cases e
  · rename_i hw
    have hk := State.arenaWrite_wf h hw
    repeat' split at e
    all_goals (cases e; first | exact hk | simpa using hk)

theorem State.saveScratch_wf {s t : State} {l : Launch} {g : Group} (h : Memory.wf s.mem) (e : s.saveScratch l g = .ok t) :
    Memory.wf t.mem := by
  unfold State.saveScratch at e
  dsimp only at e
  split at e
  · cases e; exact State.keepScratch_wf _ h
  · exact foldlM_wf (fun _ _ _ h e => State.saveUnit_wf h e) _ (State.keepScratch_wf _ h) e

theorem State.saveRoots_wf {s t : State} {l : Launch} {c : Nat} (h : Memory.wf s.mem) (e : s.saveRoots l c = .ok t) :
    Memory.wf t.mem := foldlM_wf (fun _ _ _ h e => State.arenaWrite_wf h e) _ h e

theorem State.saveRecords_wf {s t : State} {l : Launch} {g : Group} (h : Memory.wf s.mem) (e : s.saveRecords l g = .ok t) :
    Memory.wf t.mem := by
  unfold State.saveRecords at e
  simp only [bind, Except.bind, pure, Except.pure] at e
  split at e
  · cases e
  · rename_i hu
    split at e
    · cases e
    · rename_i hv
      have h1 := foldlM_wf (fun _ _ _ h e => State.arenaWrite_wf h e) _ h hu
      have h2 := foldlM_wf (fun _ _ _ h e => State.arenaWrite_wf h e) _ h1 hv
      split at e
      · cases e; exact h2
      · exact State.saveRoots_wf h2 e

theorem State.leaveCore_wf {s t : State} {l : Launch} {g : Nat} (h : Memory.wf s.mem) (e : s.leaveCore l g = .ok t) :
    Memory.wf t.mem := by
  unfold State.leaveCore at e
  split at e
  · cases e; exact h
  · split at e
    · cases e; exact h
    · simp only [bind, Except.bind] at e
      split at e
      · cases e
      · rename_i hu
        exact State.saveRecords_wf (State.saveScratch_wf h hu) e

theorem State.goHome_wf {s : State} (l : Launch) (g : Group) (h : Memory.wf s.mem) : Memory.wf (s.goHome l g).mem := by
  unfold State.goHome
  extract_lets t c
  have ht : Memory.wf t.mem := by
    simp only [t]
    split
    · exact h
    · split
      · rename_i e; exact State.leaveCore_wf h e
      · exact h
  split
  · exact ht
  · split
    · rename_i e; exact State.saveRoots_wf ht e
    · exact ht

theorem State.closeGroup_wf {s : State} (launch number : Nat) (resident : Bool) (h : Memory.wf s.mem) :
    Memory.wf (s.closeGroup launch number resident).mem := by
  unfold State.closeGroup
  split
  · rename_i l g hl hg
    extract_lets over_ t
    have ht : Memory.wf t.mem := by
      simp only [t]
      split
      · simpa using State.keepScratch_wf _ h
      · exact h
    split
    · exact State.goHome_wf _ _ ht
    · exact ht
  · exact h

/-! ### Barriers (R199 to R205, R291 to R296) -/

theorem State.updateRecord_wf {s : State} (sp : Space) (va : Nat) (bs : List Byte) (h : Memory.wf s.mem) :
    Memory.wf (s.updateRecord sp va bs).mem := by
  unfold State.updateRecord
  split
  · rename_i e
    exact State.arenaWrite_wf h e
  · exact h

theorem State.setBarrier_wf {s : State} (l : Launch) (g : Nat) (level : Bool) (i : Nat) (b : Barrier) (h : Memory.wf s.mem) :
    Memory.wf (s.setBarrier l g level i b).mem := by
  unfold State.setBarrier
  split
  · split <;> exact h
  · exact State.updateRecord_wf _ _ _ h

theorem State.setRoot_wf {s : State} (l : Launch) (c i : Nat) (r : Root) (h : Memory.wf s.mem) :
    Memory.wf (s.setRoot l c i r).mem := by
  unfold State.setRoot
  split
  · split <;> exact h
  · exact State.updateRecord_wf _ _ _ h

theorem State.advanceRoot_wf {s : State} (l : Launch) (c i : Nat) (h : Memory.wf s.mem) :
    Memory.wf (s.advanceRoot l c i).mem := by
  unfold State.advanceRoot
  dsimp only
  split
  · exact foldl_wf (fun s g h => State.setBarrier_wf _ _ _ _ _ h) _ (State.setRoot_wf _ _ _ _ h)
  · exact h

theorem State.arriveUp_wf {s : State} (l : Launch) (g i : Nat) (h : Memory.wf s.mem) : Memory.wf (s.arriveUp l g i).mem := by
  unfold State.arriveUp
  dsimp only
  split
  · exact State.advanceRoot_wf _ _ _ (State.setRoot_wf _ _ _ _ h)
  · exact h

theorem State.barrArrive_wf {s : State} (l : Launch) (p : Party) (sel : Word) (h : Memory.wf s.mem) :
    Memory.wf (s.barrArrive l p sel).mem := by
  unfold State.barrArrive
  dsimp only
  split
  · exact State.arriveUp_wf _ _ _ (State.setBarrier_wf _ _ _ _ _ h)
  · exact State.setBarrier_wf _ _ _ _ _ h

theorem State.barrWithdraw_wf {s : State} (l : Launch) (p : Party) (sel : Word) (h : Memory.wf s.mem) :
    Memory.wf (s.barrWithdraw l p sel).mem := by
  unfold State.barrWithdraw
  dsimp only
  split
  · exact State.setRoot_wf _ _ _ _ (State.setBarrier_wf _ _ _ _ _ h)
  · exact State.setBarrier_wf _ _ _ _ _ h

theorem State.barrDrop_wf {s : State} (l : Launch) (p : Party) (sel : Word) (h : Memory.wf s.mem) :
    Memory.wf (s.barrDrop l p sel).mem := by
  unfold State.barrDrop
  dsimp only
  split
  · split
    · exact State.advanceRoot_wf _ _ _ (State.setRoot_wf _ _ _ _ (State.setBarrier_wf _ _ _ _ _ h))
    · exact State.arriveUp_wf _ _ _ (State.setBarrier_wf _ _ _ _ _ h)
  · exact State.setBarrier_wf _ _ _ _ _ h

theorem State.dropBarriers_wf {s : State} (l : Launch) (p : Party) (h : Memory.wf s.mem) :
    Memory.wf (s.dropBarriers l p).mem := foldl_wf (fun _ _ h => State.barrDrop_wf _ _ _ h) _ h

theorem State.rowArrival_wf {s : State} (l : Launch) (g i : Nat) (h : Memory.wf s.mem) : Memory.wf (s.rowArrival l g i).mem :=
  State.setBarrier_wf _ _ _ _ _ h

/-! ### Taking a trap and returning from one (R148 to R160) -/

theorem State.halt_wf {s : State} (soft : Bool) (h : Memory.wf s.mem) : Memory.wf (s.halt soft).mem := by
  unfold State.halt
  extract_lets p l u q v
  have hu : Memory.wf u.mem := State.dropBarriers_wf _ _ h
  exact State.report_wf _ _ (State.closeGroup_wf _ _ _ hu)

theorem State.offerTrap_wf {s : State} (t : Trap) (h : Memory.wf s.mem) : Memory.wf (s.offerTrap t).mem :=
  State.ask_wf _ _ _ h

@[simp] theorem Trap.atBoundary_cause (t : Trap) (pc : Word) : (t.atBoundary pc).cause = t.cause := by
  unfold Trap.atBoundary; split <;> rfl
@[simp] theorem Trap.atBoundary_src (t : Trap) (pc : Word) : (t.atBoundary pc).src = t.src := by
  unfold Trap.atBoundary; split <;> rfl
@[simp] theorem Trap.atBoundary_lane (t : Trap) (pc : Word) : (t.atBoundary pc).lane = t.lane := by
  unfold Trap.atBoundary; split <;> rfl

theorem State.deliver_wf {s : State} (t : Trap) (sdec : Bool) (h : Memory.wf s.mem) : Memory.wf (s.deliver t sdec).mem := by
  unfold State.deliver
  extract_lets p l t a
  split
  · exact h
  · split
    · split
      · exact h
      · split
        · exact h
        · exact State.halt_wf _ h
    · split
      · split
        · exact State.offerTrap_wf _ h
        · exact State.halt_wf _ h
      · rename_i u e
        have hw : Memory.wf u.mem := State.arenaWrite_wf h e
        exact hw

/-- Taking a trap keeps the canonical form. -/
theorem State.takeTrap_wf {s : State} (t : Trap) (h : Memory.wf s.mem) : Memory.wf (s.takeTrap t).mem := by
  unfold State.takeTrap
  split
  · exact State.halt_wf _ h
  · split
    · exact h
    · split
      · exact State.offerTrap_wf _ h
      · exact State.deliver_wf _ _ h

theorem raise_wf {s u : State} {t : Trap} (h : Memory.wf s.mem) (e : raise s t = .next u) : Memory.wf u.mem := by
  cases e
  exact State.takeTrap_wf _ h

theorem State.stick_wf {s : State} (t : Trap) (h : Memory.wf s.mem) : Memory.wf (s.stick t).mem := by
  unfold State.stick
  refine State.offerTrap_wf _ ?_
  dsimp only
  split
  · rename_i e
    exact State.arenaWrite_wf h e
  · exact h

theorem State.stickNext_wf {s : State} (t : Trap) (h : Memory.wf s.mem) : Memory.wf (s.stickNext t).mem := by
  unfold State.stickNext
  split
  · exact h
  · exact State.stick_wf _ h

theorem State.endWait_wf {s : State} (dest : Reg) (d : Deadline) (st : Word) (expired : Bool) (h : Memory.wf s.mem) :
    Memory.wf (s.endWait dest d st expired).mem := by
  unfold State.endWait
  dsimp only
  split
  · exact State.stickNext_wf _ h
  · exact h

theorem State.returnTrap_wf {s : State} (h : Memory.wf s.mem) : Memory.wf s.returnTrap.mem := by
  unfold State.returnTrap
  dsimp only
  split
  · exact State.halt_wf _ h
  · split
    · split <;> exact h
    · split
      · split <;> exact h
      · split
        · exact State.halt_wf _ h
        · exact h

/-! ### What taking a trap answers, case by case -/

/-- In handler mode every cause halts the party (R155). -/
theorem State.takeTrap_hmode {s : State} {t : Trap} (h : s.party.hmode = true) : s.takeTrap t = s.halt := by
  simp [State.takeTrap, h]

/-- PERMISSION and TRANSLATION are offered to system software (R151). -/
theorem State.takeTrap_offer {s : State} {t : Trap} (h : s.party.hmode = false) (ho : s.party.offer = none)
    (hr : s.party.raised = none) (hc : t.cause = .permission ∨ t.cause = .translation) : s.takeTrap t = s.offerTrap t := by
  simp [State.takeTrap, h, ho, hr, hc]

/-- Every other cause is delivered (R152). -/
theorem State.takeTrap_deliver {s : State} {t : Trap} (h : s.party.hmode = false) (ho : s.party.offer = none)
    (hr : s.party.raised = none) (hp : t.cause ≠ .permission) (ht : t.cause ≠ .translation) :
    s.takeTrap t = s.deliver t false := by
  simp [State.takeTrap, h, ho, hr, hp, ht]

/-- Without a handler a cause that is no access halts the party (R156). -/
theorem State.deliver_noHandler {s : State} {t : Trap} {sdec : Bool} (hi : s.party.laneBusy = false)
    (hh : (s.home s.party).header.handler = 0) (ha : t.cause.isAccess = false) : s.deliver t sdec = s.halt := by
  simp [State.deliver, hi, hh, ha]

end Sys2Proof.Machine
end

