-- ==== Sys2Proof/Laws/PerInstr.lean ====
section
/-!
SUPPORT. Laws per instruction.  Roundtrip: the decoder's field reading takes an encoded instruction back to itself,
whatever its operands; one lemma per constructor.
-/
namespace Sys2Proof.Laws.Roundtrip

/-- A scalar word decodes, before the checks of R57, to the instruction it encodes; a lane instruction is its opcode
applied to its fields. -/
def Statement (i : Instr) : Prop :=
  (∀ w, encodeScalar i = some w → decodeFields w = .ok i) ∧ (∀ op f, i.lane? = some (op, f) → op.instr f = i)

/-- An event of the part has no encoding. -/
theorem event (i : Instr) (h : encodeScalar i = none) (l : i.lane? = none) : Statement i :=
  ⟨fun w e => (by rw [h] at e; cases e), fun op f e => (by rw [l] at e; cases e)⟩

/-- A scalar word. -/
theorem scalar (i : Instr) (w : BitVec 32) (e : encodeScalar i = some w) (l : i.lane? = none) (d : decodeFields w = .ok i) :
    Statement i :=
  ⟨fun v h => (by rw [e] at h; cases h; exact d), fun op f h => (by rw [l] at h; cases h)⟩

/-- A lane instruction. -/
theorem lane (i : Instr) (op : LaneOp) (f : LaneF) (h : encodeScalar i = none) (l : i.lane? = some (op, f))
    (e : op.instr f = i) : Statement i :=
  ⟨fun w c => (by rw [h] at c; cases c), fun o g c => (by rw [l] at c; cases c; exact e)⟩

section
set_option linter.unusedSimpArgs false

theorem add (k d a b z) : Statement (.add k d a b z) := by
  refine scalar _ _ rfl rfl ?_
  rw [encInt, major_0x01 _ (encS3_m ..), decodeInteger]
  cases z
  all_goals simp (disch := omega) only [encS3_k, encS3_d (i := 0), encS3_a (i := 0), encS3_b (i := 0), encS3_f, extract_self]; rfl
theorem sub (k d a b z) : Statement (.sub k d a b z) := by
  refine scalar _ _ rfl rfl ?_
  rw [encInt, major_0x01 _ (encS3_m ..), decodeInteger]
  cases z
  all_goals simp (disch := omega) only [encS3_k, encS3_d (i := 0), encS3_a (i := 0), encS3_b (i := 0), encS3_f, extract_self]; rfl
theorem mul (k d a b z) : Statement (.mul k d a b z) := by
  refine scalar _ _ rfl rfl ?_
  rw [encInt, major_0x01 _ (encS3_m ..), decodeInteger]
  cases z
  all_goals simp (disch := omega) only [encS3_k, encS3_d (i := 0), encS3_a (i := 0), encS3_b (i := 0), encS3_f, extract_self]; rfl
theorem mulhi (k d a b z) : Statement (.mulhi k d a b z) := by
  refine scalar _ _ rfl rfl ?_
  rw [encInt, major_0x01 _ (encS3_m ..), decodeInteger]
  cases z
  all_goals simp (disch := omega) only [encS3_k, encS3_d (i := 0), encS3_a (i := 0), encS3_b (i := 0), encS3_f, extract_self]; rfl
theorem mulhin (k d a b z) : Statement (.mulhin k d a b z) := by
  refine scalar _ _ rfl rfl ?_
  rw [encInt, major_0x01 _ (encS3_m ..), decodeInteger]
  cases z
  all_goals simp (disch := omega) only [encS3_k, encS3_d (i := 0), encS3_a (i := 0), encS3_b (i := 0), encS3_f, extract_self]; rfl
theorem div (k d a b z) : Statement (.div k d a b z) := by
  refine scalar _ _ rfl rfl ?_
  rw [encInt, major_0x01 _ (encS3_m ..), decodeInteger]
  cases z
  all_goals simp (disch := omega) only [encS3_k, encS3_d (i := 0), encS3_a (i := 0), encS3_b (i := 0), encS3_f, extract_self]; rfl
theorem divn (k d a b z) : Statement (.divn k d a b z) := by
  refine scalar _ _ rfl rfl ?_
  rw [encInt, major_0x01 _ (encS3_m ..), decodeInteger]
  cases z
  all_goals simp (disch := omega) only [encS3_k, encS3_d (i := 0), encS3_a (i := 0), encS3_b (i := 0), encS3_f, extract_self]; rfl
theorem rem (k d a b z) : Statement (.rem k d a b z) := by
  refine scalar _ _ rfl rfl ?_
  rw [encInt, major_0x01 _ (encS3_m ..), decodeInteger]
  cases z
  all_goals simp (disch := omega) only [encS3_k, encS3_d (i := 0), encS3_a (i := 0), encS3_b (i := 0), encS3_f, extract_self]; rfl
theorem remn (k d a b z) : Statement (.remn k d a b z) := by
  refine scalar _ _ rfl rfl ?_
  rw [encInt, major_0x01 _ (encS3_m ..), decodeInteger]
  cases z
  all_goals simp (disch := omega) only [encS3_k, encS3_d (i := 0), encS3_a (i := 0), encS3_b (i := 0), encS3_f, extract_self]; rfl
theorem min (k d a b z) : Statement (.min k d a b z) := by
  refine scalar _ _ rfl rfl ?_
  rw [encInt, major_0x01 _ (encS3_m ..), decodeInteger]
  cases z
  all_goals simp (disch := omega) only [encS3_k, encS3_d (i := 0), encS3_a (i := 0), encS3_b (i := 0), encS3_f, extract_self]; rfl
theorem max (k d a b z) : Statement (.max k d a b z) := by
  refine scalar _ _ rfl rfl ?_
  rw [encInt, major_0x01 _ (encS3_m ..), decodeInteger]
  cases z
  all_goals simp (disch := omega) only [encS3_k, encS3_d (i := 0), encS3_a (i := 0), encS3_b (i := 0), encS3_f, extract_self]; rfl
theorem minn (k d a b z) : Statement (.minn k d a b z) := by
  refine scalar _ _ rfl rfl ?_
  rw [encInt, major_0x01 _ (encS3_m ..), decodeInteger]
  cases z
  all_goals simp (disch := omega) only [encS3_k, encS3_d (i := 0), encS3_a (i := 0), encS3_b (i := 0), encS3_f, extract_self]; rfl
theorem maxn (k d a b z) : Statement (.maxn k d a b z) := by
  refine scalar _ _ rfl rfl ?_
  rw [encInt, major_0x01 _ (encS3_m ..), decodeInteger]
  cases z
  all_goals simp (disch := omega) only [encS3_k, encS3_d (i := 0), encS3_a (i := 0), encS3_b (i := 0), encS3_f, extract_self]; rfl
theorem and (k d a b z) : Statement (.and k d a b z) := by
  refine scalar _ _ rfl rfl ?_
  rw [encInt, major_0x01 _ (encS3_m ..), decodeInteger]
  cases z
  all_goals simp (disch := omega) only [encS3_k, encS3_d (i := 0), encS3_a (i := 0), encS3_b (i := 0), encS3_f, extract_self]; rfl
theorem or (k d a b z) : Statement (.or k d a b z) := by
  refine scalar _ _ rfl rfl ?_
  rw [encInt, major_0x01 _ (encS3_m ..), decodeInteger]
  cases z
  all_goals simp (disch := omega) only [encS3_k, encS3_d (i := 0), encS3_a (i := 0), encS3_b (i := 0), encS3_f, extract_self]; rfl
theorem xor (k d a b z) : Statement (.xor k d a b z) := by
  refine scalar _ _ rfl rfl ?_
  rw [encInt, major_0x01 _ (encS3_m ..), decodeInteger]
  cases z
  all_goals simp (disch := omega) only [encS3_k, encS3_d (i := 0), encS3_a (i := 0), encS3_b (i := 0), encS3_f, extract_self]; rfl
theorem andn (k d a b z) : Statement (.andn k d a b z) := by
  refine scalar _ _ rfl rfl ?_
  rw [encInt, major_0x01 _ (encS3_m ..), decodeInteger]
  cases z
  all_goals simp (disch := omega) only [encS3_k, encS3_d (i := 0), encS3_a (i := 0), encS3_b (i := 0), encS3_f, extract_self]; rfl
theorem shl (k d a b z) : Statement (.shl k d a b z) := by
  refine scalar _ _ rfl rfl ?_
  rw [encInt, major_0x01 _ (encS3_m ..), decodeInteger]
  cases z
  all_goals simp (disch := omega) only [encS3_k, encS3_d (i := 0), encS3_a (i := 0), encS3_b (i := 0), encS3_f, extract_self]; rfl
theorem shr (k d a b z) : Statement (.shr k d a b z) := by
  refine scalar _ _ rfl rfl ?_
  rw [encInt, major_0x01 _ (encS3_m ..), decodeInteger]
  cases z
  all_goals simp (disch := omega) only [encS3_k, encS3_d (i := 0), encS3_a (i := 0), encS3_b (i := 0), encS3_f, extract_self]; rfl
theorem sra (k d a b z) : Statement (.sra k d a b z) := by
  refine scalar _ _ rfl rfl ?_
  rw [encInt, major_0x01 _ (encS3_m ..), decodeInteger]
  cases z
  all_goals simp (disch := omega) only [encS3_k, encS3_d (i := 0), encS3_a (i := 0), encS3_b (i := 0), encS3_f, extract_self]; rfl
theorem slt (k d a b z) : Statement (.slt k d a b z) := by
  refine scalar _ _ rfl rfl ?_
  rw [encInt, major_0x01 _ (encS3_m ..), decodeInteger]
  cases z
  all_goals simp (disch := omega) only [encS3_k, encS3_d (i := 0), encS3_a (i := 0), encS3_b (i := 0), encS3_f, extract_self]; rfl
theorem sltn (k d a b z) : Statement (.sltn k d a b z) := by
  refine scalar _ _ rfl rfl ?_
  rw [encInt, major_0x01 _ (encS3_m ..), decodeInteger]
  cases z
  all_goals simp (disch := omega) only [encS3_k, encS3_d (i := 0), encS3_a (i := 0), encS3_b (i := 0), encS3_f, extract_self]; rfl
theorem seq (k d a b z) : Statement (.seq k d a b z) := by
  refine scalar _ _ rfl rfl ?_
  rw [encInt, major_0x01 _ (encS3_m ..), decodeInteger]
  cases z
  all_goals simp (disch := omega) only [encS3_k, encS3_d (i := 0), encS3_a (i := 0), encS3_b (i := 0), encS3_f, extract_self]; rfl
theorem popc (k d a z) : Statement (.popc k d a z) := by
  refine scalar _ _ rfl rfl ?_
  rw [encInt, major_0x01 _ (encS3_m ..), decodeInteger]
  cases z
  all_goals simp (disch := omega) only [encS3_k, encS3_d (i := 0), encS3_a (i := 0), encS3_b (i := 0), encS3_f, extract_self]; rfl
theorem clz (k d a z) : Statement (.clz k d a z) := by
  refine scalar _ _ rfl rfl ?_
  rw [encInt, major_0x01 _ (encS3_m ..), decodeInteger]
  cases z
  all_goals simp (disch := omega) only [encS3_k, encS3_d (i := 0), encS3_a (i := 0), encS3_b (i := 0), encS3_f, extract_self]; rfl
theorem ctz (k d a z) : Statement (.ctz k d a z) := by
  refine scalar _ _ rfl rfl ?_
  rw [encInt, major_0x01 _ (encS3_m ..), decodeInteger]
  cases z
  all_goals simp (disch := omega) only [encS3_k, encS3_d (i := 0), encS3_a (i := 0), encS3_b (i := 0), encS3_f, extract_self]; rfl
theorem addi (k d a imm) : Statement (.addi k d a imm) := by
  refine scalar _ _ rfl rfl ?_
  rw [major_0x02 _ (encSI_m ..)]
  simp (disch := omega) only [encSI_k, encSI_d (i := 0), encSI_a (i := 0), encSI_f, count_low, count_high, saves_low, saves_high, extract_self] <;> rfl
theorem andi (k d a imm) : Statement (.andi k d a imm) := by
  refine scalar _ _ rfl rfl ?_
  rw [major_0x03 _ (encSI_m ..)]
  simp (disch := omega) only [encSI_k, encSI_d (i := 0), encSI_a (i := 0), encSI_f, count_low, count_high, saves_low, saves_high, extract_self] <;> rfl
theorem ori (k d a imm) : Statement (.ori k d a imm) := by
  refine scalar _ _ rfl rfl ?_
  rw [major_0x04 _ (encSI_m ..)]
  simp (disch := omega) only [encSI_k, encSI_d (i := 0), encSI_a (i := 0), encSI_f, count_low, count_high, saves_low, saves_high, extract_self] <;> rfl
theorem xori (k d a imm) : Statement (.xori k d a imm) := by
  refine scalar _ _ rfl rfl ?_
  rw [major_0x05 _ (encSI_m ..)]
  simp (disch := omega) only [encSI_k, encSI_d (i := 0), encSI_a (i := 0), encSI_f, count_low, count_high, saves_low, saves_high, extract_self] <;> rfl
theorem shli (k d a c) : Statement (.shli k d a c) := by
  refine scalar _ _ rfl rfl ?_
  rw [major_0x06 _ (encSI_m ..)]
  simp (disch := omega) only [encSI_k, encSI_d (i := 0), encSI_a (i := 0), encSI_f, count_low, count_high, saves_low, saves_high, extract_self] <;> rfl
theorem shri (k d a c) : Statement (.shri k d a c) := by
  refine scalar _ _ rfl rfl ?_
  rw [major_0x07 _ (encSI_m ..)]
  simp (disch := omega) only [encSI_k, encSI_d (i := 0), encSI_a (i := 0), encSI_f, count_low, count_high, saves_low, saves_high, extract_self] <;> rfl
theorem srai (k d a c) : Statement (.srai k d a c) := by
  refine scalar _ _ rfl rfl ?_
  rw [major_0x08 _ (encSI_m ..)]
  simp (disch := omega) only [encSI_k, encSI_d (i := 0), encSI_a (i := 0), encSI_f, count_low, count_high, saves_low, saves_high, extract_self] <;> rfl
theorem slti (k d a imm) : Statement (.slti k d a imm) := by
  refine scalar _ _ rfl rfl ?_
  rw [major_0x09 _ (encSI_m ..)]
  simp (disch := omega) only [encSI_k, encSI_d (i := 0), encSI_a (i := 0), encSI_f, count_low, count_high, saves_low, saves_high, extract_self] <;> rfl
theorem sltni (k d a imm) : Statement (.sltni k d a imm) := by
  refine scalar _ _ rfl rfl ?_
  rw [major_0x0A _ (encSI_m ..)]
  simp (disch := omega) only [encSI_k, encSI_d (i := 0), encSI_a (i := 0), encSI_f, count_low, count_high, saves_low, saves_high, extract_self] <;> rfl
theorem muli (k d a imm) : Statement (.muli k d a imm) := by
  refine scalar _ _ rfl rfl ?_
  rw [major_0x0B _ (encSI_m ..)]
  simp (disch := omega) only [encSI_k, encSI_d (i := 0), encSI_a (i := 0), encSI_f, count_low, count_high, saves_low, saves_high, extract_self] <;> rfl
theorem lui (k d imm) : Statement (.lui k d imm) := by
  refine scalar _ _ rfl rfl ?_
  rw [major_0x0C _ (encSL_m ..)]
  simp (disch := omega) only [encSL_k, encSL_d (i := 0), encSL_f, extract_self] <;> rfl
theorem lpc (k d imm) : Statement (.lpc k d imm) := by
  refine scalar _ _ rfl rfl ?_
  rw [major_0x0D _ (encSL_m ..)]
  simp (disch := omega) only [encSL_k, encSL_d (i := 0), encSL_f, extract_self] <;> rfl
theorem lcat (k d imm) : Statement (.lcat k d imm) := by
  refine scalar _ _ rfl rfl ?_
  rw [major_0x0E _ (encSL_m ..)]
  simp (disch := omega) only [encSL_k, encSL_d (i := 0), encSL_f, extract_self] <;> rfl
theorem beq (k a off) : Statement (.beq k a off) := by
  refine scalar _ _ rfl rfl ?_
  rw [major_0x10 _ (encSB_m ..), decodeBranch]
  simp (disch := omega) only [encSB_k, encSB_c (i := 0), encSB_a (i := 0), encSB_a (i := 3), encSB_f (i := 0), low3_low, low3_high, extract_self] <;> rfl
theorem bne (k a off) : Statement (.bne k a off) := by
  refine scalar _ _ rfl rfl ?_
  rw [major_0x10 _ (encSB_m ..), decodeBranch]
  simp (disch := omega) only [encSB_k, encSB_c (i := 0), encSB_a (i := 0), encSB_a (i := 3), encSB_f (i := 0), low3_low, low3_high, extract_self] <;> rfl
theorem blt (k a off) : Statement (.blt k a off) := by
  refine scalar _ _ rfl rfl ?_
  rw [major_0x10 _ (encSB_m ..), decodeBranch]
  simp (disch := omega) only [encSB_k, encSB_c (i := 0), encSB_a (i := 0), encSB_a (i := 3), encSB_f (i := 0), low3_low, low3_high, extract_self] <;> rfl
theorem bge (k a off) : Statement (.bge k a off) := by
  refine scalar _ _ rfl rfl ?_
  rw [major_0x10 _ (encSB_m ..), decodeBranch]
  simp (disch := omega) only [encSB_k, encSB_c (i := 0), encSB_a (i := 0), encSB_a (i := 3), encSB_f (i := 0), low3_low, low3_high, extract_self] <;> rfl
theorem bgt (k a off) : Statement (.bgt k a off) := by
  refine scalar _ _ rfl rfl ?_
  rw [major_0x10 _ (encSB_m ..), decodeBranch]
  simp (disch := omega) only [encSB_k, encSB_c (i := 0), encSB_a (i := 0), encSB_a (i := 3), encSB_f (i := 0), low3_low, low3_high, extract_self] <;> rfl
theorem ble (k a off) : Statement (.ble k a off) := by
  refine scalar _ _ rfl rfl ?_
  rw [major_0x10 _ (encSB_m ..), decodeBranch]
  simp (disch := omega) only [encSB_k, encSB_c (i := 0), encSB_a (i := 0), encSB_a (i := 3), encSB_f (i := 0), low3_low, low3_high, extract_self] <;> rfl
theorem bra (k off) : Statement (.bra k off) := by
  refine scalar _ _ rfl rfl ?_
  rw [major_0x10 _ (encSB_m ..), decodeBranch]
  simp (disch := omega) only [encSB_k, encSB_c (i := 0), encSB_a (i := 0), encSB_a (i := 3), encSB_f (i := 0), low3_low, low3_high, extract_self] <;> rfl
theorem mpush (k p off) : Statement (.mpush k p off) := by
  refine scalar _ _ rfl rfl ?_
  rw [major_0x11_0x0 _ (encSB_m ..) (by rw [encSB_c (i := 0) (h := by omega), extract_self])]
  simp (disch := omega) only [encSB_k, encSB_c (i := 0), encSB_a (i := 0), encSB_a (i := 3), encSB_f (i := 0), low3_low, low3_high, extract_self] <;> rfl
theorem mbrk (k p off) : Statement (.mbrk k p off) := by
  refine scalar _ _ rfl rfl ?_
  rw [major_0x11_0x1 _ (encSB_m ..) (by rw [encSB_c (i := 0) (h := by omega), extract_self])]
  simp (disch := omega) only [encSB_k, encSB_c (i := 0), encSB_a (i := 0), encSB_a (i := 3), encSB_f (i := 0), low3_low, low3_high, extract_self] <;> rfl
theorem jmp (k off) : Statement (.jmp k off) := by
  refine scalar _ _ rfl rfl ?_
  rw [major_0x12 _ (encSJ_m ..)]
  simp (disch := omega) only [encSJ_k, encSJ_f, extract_self] <;> rfl
theorem call (k n a off) : Statement (.call k n a off) := by
  refine scalar _ _ rfl rfl ?_
  rw [major_0x13 _ (encSB_m ..)]
  simp (disch := omega) only [encSB_k, encSB_c (i := 0), encSB_a (i := 0), encSB_a (i := 3), encSB_f (i := 0), low3_low, low3_high, extract_self] <;> rfl
theorem callr (k d a n) : Statement (.callr k d a n) := by
  refine scalar _ _ rfl rfl ?_
  rw [major_0x14 _ (encSI_m ..)]
  simp (disch := omega) only [encSI_k, encSI_d (i := 0), encSI_a (i := 0), encSI_f, count_low, count_high, saves_low, saves_high, extract_self] <;> rfl
theorem ret (k a n) : Statement (.ret k a n) := by
  refine scalar _ _ rfl rfl ?_
  rw [major_0x15 _ (encSI_m ..)]
  simp (disch := omega) only [encSI_k, encSI_d (i := 0), encSI_a (i := 0), encSI_f, count_low, count_high, saves_low, saves_high, extract_self] <;> rfl
theorem exit (k) : Statement (.exit k) := by
  refine scalar _ _ rfl rfl ?_
  rw [major_0x16 _ (encSJ_m ..)]
  simp (disch := omega) only [encSJ_k, encSJ_f, extract_self] <;> rfl
theorem lrun (k len idx) : Statement (.lrun k len idx) := by
  refine scalar _ _ rfl rfl ?_
  rw [major_0x18 _ (encSL_m ..)]
  simp (disch := omega) only [encSL_k, encSL_d (i := 0), encSL_f, extract_self] <;> rfl
theorem bwait (k d a dl) : Statement (.bwait k d a dl) := by
  refine scalar _ _ rfl rfl ?_
  rw [major_0x1A _ (encSW_m ..), decodeWait]
  simp (disch := omega) only [encSW_k, encSW_d (i := 0), encSW_a (i := 0), encSW_l (i := 0), encSW_b (i := 0), encSW_f (i := 0), extract_self] <;> rfl
theorem bsync (k d a dl) : Statement (.bsync k d a dl) := by
  refine scalar _ _ rfl rfl ?_
  rw [major_0x1A _ (encSW_m ..), decodeWait]
  simp (disch := omega) only [encSW_k, encSW_d (i := 0), encSW_a (i := 0), encSW_l (i := 0), encSW_b (i := 0), encSW_f (i := 0), extract_self] <;> rfl
theorem semacq (k d a dl b) : Statement (.semacq k d a dl b) := by
  refine scalar _ _ rfl rfl ?_
  rw [major_0x1A _ (encSW_m ..), decodeWait]
  simp (disch := omega) only [encSW_k, encSW_d (i := 0), encSW_a (i := 0), encSW_l (i := 0), encSW_b (i := 0), encSW_f (i := 0), extract_self] <;> rfl
theorem waddr (k d a dl b) : Statement (.waddr k d a dl b) := by
  refine scalar _ _ rfl rfl ?_
  rw [major_0x1A _ (encSW_m ..), decodeWait]
  simp (disch := omega) only [encSW_k, encSW_d (i := 0), encSW_a (i := 0), encSW_l (i := 0), encSW_b (i := 0), encSW_f (i := 0), extract_self] <;> rfl
theorem fence (k d mask dl) : Statement (.fence k d mask dl) := by
  refine scalar _ _ rfl rfl ?_
  rw [major_0x1A _ (encSW_m ..), decodeWait]
  simp (disch := omega) only [encSW_k, encSW_d (i := 0), encSW_a (i := 0), encSW_l (i := 0), encSW_b (i := 0), encSW_f (i := 0), extract_self] <;> rfl
theorem xfence (k d ca dl cb) : Statement (.xfence k d ca dl cb) := by
  refine scalar _ _ rfl rfl ?_
  rw [major_0x1A _ (encSW_m ..), decodeWait]
  simp (disch := omega) only [encSW_k, encSW_d (i := 0), encSW_a (i := 0), encSW_l (i := 0), encSW_b (i := 0), encSW_f (i := 0), extract_self] <;> rfl
theorem sysfence (k d dl) : Statement (.sysfence k d dl) := by
  refine scalar _ _ rfl rfl ?_
  rw [major_0x1A _ (encSW_m ..), decodeWait]
  simp (disch := omega) only [encSW_k, encSW_d (i := 0), encSW_a (i := 0), encSW_l (i := 0), encSW_b (i := 0), encSW_f (i := 0), extract_self] <;> rfl
theorem sysfenceArray (k d dl) : Statement (.sysfenceArray k d dl) := by
  refine scalar _ _ rfl rfl ?_
  rw [major_0x1A _ (encSW_m ..), decodeWait]
  simp (disch := omega) only [encSW_k, encSW_d (i := 0), encSW_a (i := 0), encSW_l (i := 0), encSW_b (i := 0), encSW_f (i := 0), extract_self] <;> rfl
theorem fuse (k d dl) : Statement (.fuse k d dl) := by
  refine scalar _ _ rfl rfl ?_
  rw [major_0x1A _ (encSW_m ..), decodeWait]
  simp (disch := omega) only [encSW_k, encSW_d (i := 0), encSW_a (i := 0), encSW_l (i := 0), encSW_b (i := 0), encSW_f (i := 0), extract_self] <;> rfl
theorem twait (k d a dl) : Statement (.twait k d a dl) := by
  refine scalar _ _ rfl rfl ?_
  rw [major_0x1A _ (encSW_m ..), decodeWait]
  simp (disch := omega) only [encSW_k, encSW_d (i := 0), encSW_a (i := 0), encSW_l (i := 0), encSW_b (i := 0), encSW_f (i := 0), extract_self] <;> rfl
theorem waitf (k d flags dl) : Statement (.waitf k d flags dl) := by
  refine scalar _ _ rfl rfl ?_
  rw [major_0x1B _ (encWF_m (m := 0x1B#6) ..)]
  simp (disch := omega) only [decodeFlags, encWF_k, encWF_d (i := 0), encWF_a (i := 0), encWF_l (i := 0), encWF_z (i := 0), encWF_f (i := 0), extract_self, flags_join]; rfl
theorem barr (k a) : Statement (.barr k a) := by
  refine scalar _ _ rfl rfl ?_
  rw [major_0x1C _ (encS3_m ..), decodeSync]
  simp (disch := omega) only [encS3_k, encS3_flag, encS3_d (i := 0), encS3_a (i := 0), encS3_b (i := 0), encS3_f (i := 0), encS3_d (i := 3), encS3_a (i := 3), encS3_b (i := 3), encS3_d (i := 2), encS3_a (i := 1), low3_low, low3_high, low2_low, low2_high, extract_self] <;> rfl
theorem bdrop (k a) : Statement (.bdrop k a) := by
  refine scalar _ _ rfl rfl ?_
  rw [major_0x1C _ (encS3_m ..), decodeSync]
  simp (disch := omega) only [encS3_k, encS3_flag, encS3_d (i := 0), encS3_a (i := 0), encS3_b (i := 0), encS3_f (i := 0), encS3_d (i := 3), encS3_a (i := 3), encS3_b (i := 3), encS3_d (i := 2), encS3_a (i := 1), low3_low, low3_high, low2_low, low2_high, extract_self] <;> rfl
theorem semrel (k a b) : Statement (.semrel k a b) := by
  refine scalar _ _ rfl rfl ?_
  rw [major_0x1C _ (encS3_m ..), decodeSync]
  simp (disch := omega) only [encS3_k, encS3_flag, encS3_d (i := 0), encS3_a (i := 0), encS3_b (i := 0), encS3_f (i := 0), encS3_d (i := 3), encS3_a (i := 3), encS3_b (i := 3), encS3_d (i := 2), encS3_a (i := 1), low3_low, low3_high, low2_low, low2_high, extract_self] <;> rfl
theorem split (k d) : Statement (.split k d) := by
  refine scalar _ _ rfl rfl ?_
  rw [major_0x1C _ (encS3_m ..), decodeSync]
  simp (disch := omega) only [encS3_k, encS3_flag, encS3_d (i := 0), encS3_a (i := 0), encS3_b (i := 0), encS3_f (i := 0), encS3_d (i := 3), encS3_a (i := 3), encS3_b (i := 3), encS3_d (i := 2), encS3_a (i := 1), low3_low, low3_high, low2_low, low2_high, extract_self] <;> rfl
theorem width (k d) : Statement (.width k d) := by
  refine scalar _ _ rfl rfl ?_
  rw [major_0x1C _ (encS3_m ..), decodeSync]
  simp (disch := omega) only [encS3_k, encS3_flag, encS3_d (i := 0), encS3_a (i := 0), encS3_b (i := 0), encS3_f (i := 0), encS3_d (i := 3), encS3_a (i := 3), encS3_b (i := 3), encS3_d (i := 2), encS3_a (i := 1), low3_low, low3_high, low2_low, low2_high, extract_self] <;> rfl
theorem mset (k d a) : Statement (.mset k d a) := by
  refine scalar _ _ rfl rfl ?_
  rw [major_0x1D _ (encS3_m ..), decodeMask]
  simp (disch := omega) only [encS3_k, encS3_flag, encS3_d (i := 0), encS3_a (i := 0), encS3_b (i := 0), encS3_f (i := 0), encS3_d (i := 3), encS3_a (i := 3), encS3_b (i := 3), encS3_d (i := 2), encS3_a (i := 1), low3_low, low3_high, low2_low, low2_high, extract_self] <;> rfl
theorem mand (k d a b) : Statement (.mand k d a b) := by
  refine scalar _ _ rfl rfl ?_
  rw [major_0x1D _ (encS3_m ..), decodeMask]
  simp (disch := omega) only [encS3_k, encS3_flag, encS3_d (i := 0), encS3_a (i := 0), encS3_b (i := 0), encS3_f (i := 0), encS3_d (i := 3), encS3_a (i := 3), encS3_b (i := 3), encS3_d (i := 2), encS3_a (i := 1), low3_low, low3_high, low2_low, low2_high, extract_self] <;> rfl
theorem mandn (k d a b) : Statement (.mandn k d a b) := by
  refine scalar _ _ rfl rfl ?_
  rw [major_0x1D _ (encS3_m ..), decodeMask]
  simp (disch := omega) only [encS3_k, encS3_flag, encS3_d (i := 0), encS3_a (i := 0), encS3_b (i := 0), encS3_f (i := 0), encS3_d (i := 3), encS3_a (i := 3), encS3_b (i := 3), encS3_d (i := 2), encS3_a (i := 1), low3_low, low3_high, low2_low, low2_high, extract_self] <;> rfl
theorem mor (k d a b) : Statement (.mor k d a b) := by
  refine scalar _ _ rfl rfl ?_
  rw [major_0x1D _ (encS3_m ..), decodeMask]
  simp (disch := omega) only [encS3_k, encS3_flag, encS3_d (i := 0), encS3_a (i := 0), encS3_b (i := 0), encS3_f (i := 0), encS3_d (i := 3), encS3_a (i := 3), encS3_b (i := 3), encS3_d (i := 2), encS3_a (i := 1), low3_low, low3_high, low2_low, low2_high, extract_self] <;> rfl
theorem mxor (k d a b) : Statement (.mxor k d a b) := by
  refine scalar _ _ rfl rfl ?_
  rw [major_0x1D _ (encS3_m ..), decodeMask]
  simp (disch := omega) only [encS3_k, encS3_flag, encS3_d (i := 0), encS3_a (i := 0), encS3_b (i := 0), encS3_f (i := 0), encS3_d (i := 3), encS3_a (i := 3), encS3_b (i := 3), encS3_d (i := 2), encS3_a (i := 1), low3_low, low3_high, low2_low, low2_high, extract_self] <;> rfl
theorem mpop (k d) : Statement (.mpop k d) := by
  refine scalar _ _ rfl rfl ?_
  rw [major_0x1D _ (encS3_m ..), decodeMask]
  simp (disch := omega) only [encS3_k, encS3_flag, encS3_d (i := 0), encS3_a (i := 0), encS3_b (i := 0), encS3_f (i := 0), encS3_d (i := 3), encS3_a (i := 3), encS3_b (i := 3), encS3_d (i := 2), encS3_a (i := 1), low3_low, low3_high, low2_low, low2_high, extract_self] <;> rfl
theorem mjoin (k) : Statement (.mjoin k) := by
  refine scalar _ _ rfl rfl ?_
  rw [major_0x1D _ (encS3_m ..), decodeMask]
  simp (disch := omega) only [encS3_k, encS3_flag, encS3_d (i := 0), encS3_a (i := 0), encS3_b (i := 0), encS3_f (i := 0), encS3_d (i := 3), encS3_a (i := 3), encS3_b (i := 3), encS3_d (i := 2), encS3_a (i := 1), low3_low, low3_high, low2_low, low2_high, extract_self] <;> rfl
theorem many (k d a) : Statement (.many k d a) := by
  refine scalar _ _ rfl rfl ?_
  rw [major_0x1D _ (encS3_m ..), decodeMask]
  simp (disch := omega) only [encS3_k, encS3_flag, encS3_d (i := 0), encS3_a (i := 0), encS3_b (i := 0), encS3_f (i := 0), encS3_d (i := 3), encS3_a (i := 3), encS3_b (i := 3), encS3_d (i := 2), encS3_a (i := 1), low3_low, low3_high, low2_low, low2_high, extract_self] <;> rfl
theorem mall (k d a) : Statement (.mall k d a) := by
  refine scalar _ _ rfl rfl ?_
  rw [major_0x1D _ (encS3_m ..), decodeMask]
  simp (disch := omega) only [encS3_k, encS3_flag, encS3_d (i := 0), encS3_a (i := 0), encS3_b (i := 0), encS3_f (i := 0), encS3_d (i := 3), encS3_a (i := 3), encS3_b (i := 3), encS3_d (i := 2), encS3_a (i := 1), low3_low, low3_high, low2_low, low2_high, extract_self] <;> rfl
theorem mcount (k d a) : Statement (.mcount k d a) := by
  refine scalar _ _ rfl rfl ?_
  rw [major_0x1D _ (encS3_m ..), decodeMask]
  simp (disch := omega) only [encS3_k, encS3_flag, encS3_d (i := 0), encS3_a (i := 0), encS3_b (i := 0), encS3_f (i := 0), encS3_d (i := 3), encS3_a (i := 3), encS3_b (i := 3), encS3_d (i := 2), encS3_a (i := 1), low3_low, low3_high, low2_low, low2_high, extract_self] <;> rfl
theorem dlset (k d a) : Statement (.dlset k d a) := by
  refine scalar _ _ rfl rfl ?_
  rw [major_0x1E _ (encS3_m ..), decodeDeadline]
  simp (disch := omega) only [encS3_k, encS3_flag, encS3_d (i := 0), encS3_a (i := 0), encS3_b (i := 0), encS3_f (i := 0), encS3_d (i := 3), encS3_a (i := 3), encS3_b (i := 3), encS3_d (i := 2), encS3_a (i := 1), low3_low, low3_high, low2_low, low2_high, extract_self] <;> rfl
theorem dladd (k d a) : Statement (.dladd k d a) := by
  refine scalar _ _ rfl rfl ?_
  rw [major_0x1E _ (encS3_m ..), decodeDeadline]
  simp (disch := omega) only [encS3_k, encS3_flag, encS3_d (i := 0), encS3_a (i := 0), encS3_b (i := 0), encS3_f (i := 0), encS3_d (i := 3), encS3_a (i := 3), encS3_b (i := 3), encS3_d (i := 2), encS3_a (i := 1), low3_low, low3_high, low2_low, low2_high, extract_self] <;> rfl
theorem dlnow (k d base) : Statement (.dlnow k d base) := by
  refine scalar _ _ rfl rfl ?_
  rw [major_0x1E _ (encS3_m ..), decodeDeadline]
  simp (disch := omega) only [encS3_k, encS3_flag, encS3_d (i := 0), encS3_a (i := 0), encS3_b (i := 0), encS3_f (i := 0), encS3_d (i := 3), encS3_a (i := 3), encS3_b (i := 3), encS3_d (i := 2), encS3_a (i := 1), low3_low, low3_high, low2_low, low2_high, extract_self] <;> cases base <;> rfl
theorem sldI8 (k d a imm) : Statement (.sldI8 k d a imm) := by
  refine scalar _ _ rfl rfl ?_
  rw [major_0x20 _ (encSI_m ..)]
  simp (disch := omega) only [encSI_k, encSI_d (i := 0), encSI_a (i := 0), encSI_f, count_low, count_high, saves_low, saves_high, extract_self] <;> rfl
theorem sldN8 (k d a imm) : Statement (.sldN8 k d a imm) := by
  refine scalar _ _ rfl rfl ?_
  rw [major_0x21 _ (encSI_m ..)]
  simp (disch := omega) only [encSI_k, encSI_d (i := 0), encSI_a (i := 0), encSI_f, count_low, count_high, saves_low, saves_high, extract_self] <;> rfl
theorem sldI16 (k d a imm) : Statement (.sldI16 k d a imm) := by
  refine scalar _ _ rfl rfl ?_
  rw [major_0x22 _ (encSI_m ..)]
  simp (disch := omega) only [encSI_k, encSI_d (i := 0), encSI_a (i := 0), encSI_f, count_low, count_high, saves_low, saves_high, extract_self] <;> rfl
theorem sldN16 (k d a imm) : Statement (.sldN16 k d a imm) := by
  refine scalar _ _ rfl rfl ?_
  rw [major_0x23 _ (encSI_m ..)]
  simp (disch := omega) only [encSI_k, encSI_d (i := 0), encSI_a (i := 0), encSI_f, count_low, count_high, saves_low, saves_high, extract_self] <;> rfl
theorem sldI32 (k d a imm) : Statement (.sldI32 k d a imm) := by
  refine scalar _ _ rfl rfl ?_
  rw [major_0x24 _ (encSI_m ..)]
  simp (disch := omega) only [encSI_k, encSI_d (i := 0), encSI_a (i := 0), encSI_f, count_low, count_high, saves_low, saves_high, extract_self] <;> rfl
theorem sldN32 (k d a imm) : Statement (.sldN32 k d a imm) := by
  refine scalar _ _ rfl rfl ?_
  rw [major_0x25 _ (encSI_m ..)]
  simp (disch := omega) only [encSI_k, encSI_d (i := 0), encSI_a (i := 0), encSI_f, count_low, count_high, saves_low, saves_high, extract_self] <;> rfl
theorem sldN64 (k d a imm) : Statement (.sldN64 k d a imm) := by
  refine scalar _ _ rfl rfl ?_
  rw [major_0x26 _ (encSI_m ..)]
  simp (disch := omega) only [encSI_k, encSI_d (i := 0), encSI_a (i := 0), encSI_f, count_low, count_high, saves_low, saves_high, extract_self] <;> rfl
theorem sstN8 (k d a imm) : Statement (.sstN8 k d a imm) := by
  refine scalar _ _ rfl rfl ?_
  rw [major_0x28 _ (encSI_m ..)]
  simp (disch := omega) only [encSI_k, encSI_d (i := 0), encSI_a (i := 0), encSI_f, count_low, count_high, saves_low, saves_high, extract_self] <;> rfl
theorem sstN16 (k d a imm) : Statement (.sstN16 k d a imm) := by
  refine scalar _ _ rfl rfl ?_
  rw [major_0x29 _ (encSI_m ..)]
  simp (disch := omega) only [encSI_k, encSI_d (i := 0), encSI_a (i := 0), encSI_f, count_low, count_high, saves_low, saves_high, extract_self] <;> rfl
theorem sstN32 (k d a imm) : Statement (.sstN32 k d a imm) := by
  refine scalar _ _ rfl rfl ?_
  rw [major_0x2A _ (encSI_m ..)]
  simp (disch := omega) only [encSI_k, encSI_d (i := 0), encSI_a (i := 0), encSI_f, count_low, count_high, saves_low, saves_high, extract_self] <;> rfl
theorem sstN64 (k d a imm) : Statement (.sstN64 k d a imm) := by
  refine scalar _ _ rfl rfl ?_
  rw [major_0x2B _ (encSI_m ..)]
  simp (disch := omega) only [encSI_k, encSI_d (i := 0), encSI_a (i := 0), encSI_f, count_low, count_high, saves_low, saves_high, extract_self] <;> rfl
theorem cpyt (k d a dl b) : Statement (.cpyt k d a dl b) := by
  refine scalar _ _ rfl rfl ?_
  rw [major_0x2C _ (encSW_m ..), decodeEngine]
  simp (disch := omega) only [encSW_k, encSW_d (i := 0), encSW_a (i := 0), encSW_l (i := 0), encSW_b (i := 0), encSW_f (i := 0), extract_self] <;> rfl
theorem gath (k d a dl b) : Statement (.gath k d a dl b) := by
  refine scalar _ _ rfl rfl ?_
  rw [major_0x2C _ (encSW_m ..), decodeEngine]
  simp (disch := omega) only [encSW_k, encSW_d (i := 0), encSW_a (i := 0), encSW_l (i := 0), encSW_b (i := 0), encSW_f (i := 0), extract_self] <;> rfl
theorem scat (k d a dl b) : Statement (.scat k d a dl b) := by
  refine scalar _ _ rfl rfl ?_
  rw [major_0x2C _ (encSW_m ..), decodeEngine]
  simp (disch := omega) only [encSW_k, encSW_d (i := 0), encSW_a (i := 0), encSW_l (i := 0), encSW_b (i := 0), encSW_f (i := 0), extract_self] <;> rfl
theorem chain (k d a dl b) : Statement (.chain k d a dl b) := by
  refine scalar _ _ rfl rfl ?_
  rw [major_0x2C _ (encSW_m ..), decodeEngine]
  simp (disch := omega) only [encSW_k, encSW_d (i := 0), encSW_a (i := 0), encSW_l (i := 0), encSW_b (i := 0), encSW_f (i := 0), extract_self] <;> rfl
theorem cpyw (k d a dl b) : Statement (.cpyw k d a dl b) := by
  refine scalar _ _ rfl rfl ?_
  rw [major_0x2C _ (encSW_m ..), decodeEngine]
  simp (disch := omega) only [encSW_k, encSW_d (i := 0), encSW_a (i := 0), encSW_l (i := 0), encSW_b (i := 0), encSW_f (i := 0), extract_self] <;> rfl
theorem coll (k d a dl b) : Statement (.coll k d a dl b) := by
  refine scalar _ _ rfl rfl ?_
  rw [major_0x2C _ (encSW_m ..), decodeEngine]
  simp (disch := omega) only [encSW_k, encSW_d (i := 0), encSW_a (i := 0), encSW_l (i := 0), encSW_b (i := 0), encSW_f (i := 0), extract_self] <;> rfl
theorem launch (k d a dl b) : Statement (.launch k d a dl b) := by
  refine scalar _ _ rfl rfl ?_
  rw [major_0x2C _ (encSW_m ..), decodeEngine]
  simp (disch := omega) only [encSW_k, encSW_d (i := 0), encSW_a (i := 0), encSW_l (i := 0), encSW_b (i := 0), encSW_f (i := 0), extract_self] <;> rfl
theorem tlnew (k d a dl b) : Statement (.tlnew k d a dl b) := by
  refine scalar _ _ rfl rfl ?_
  rw [major_0x2D _ (encSW_m ..), decodeTile]
  simp (disch := omega) only [encSW_k, encSW_d (i := 0), encSW_a (i := 0), encSW_l (i := 0), encSW_b (i := 0), encSW_f (i := 0), extract_self] <;> rfl
theorem tlfree (k d a dl) : Statement (.tlfree k d a dl) := by
  refine scalar _ _ rfl rfl ?_
  rw [major_0x2D _ (encSW_m ..), decodeTile]
  simp (disch := omega) only [encSW_k, encSW_d (i := 0), encSW_a (i := 0), encSW_l (i := 0), encSW_b (i := 0), encSW_f (i := 0), extract_self] <;> rfl
theorem tlload (k d a dl) : Statement (.tlload k d a dl) := by
  refine scalar _ _ rfl rfl ?_
  rw [major_0x2D _ (encSW_m ..), decodeTile]
  simp (disch := omega) only [encSW_k, encSW_d (i := 0), encSW_a (i := 0), encSW_l (i := 0), encSW_b (i := 0), encSW_f (i := 0), extract_self] <;> rfl
theorem tlstore (k d a dl) : Statement (.tlstore k d a dl) := by
  refine scalar _ _ rfl rfl ?_
  rw [major_0x2D _ (encSW_m ..), decodeTile]
  simp (disch := omega) only [encSW_k, encSW_d (i := 0), encSW_a (i := 0), encSW_l (i := 0), encSW_b (i := 0), encSW_f (i := 0), extract_self] <;> rfl
theorem tlfac (k d a dl b) : Statement (.tlfac k d a dl b) := by
  refine scalar _ _ rfl rfl ?_
  rw [major_0x2D _ (encSW_m ..), decodeTile]
  simp (disch := omega) only [encSW_k, encSW_d (i := 0), encSW_a (i := 0), encSW_l (i := 0), encSW_b (i := 0), encSW_f (i := 0), extract_self] <;> rfl
theorem tladd (k d a dl b) : Statement (.tladd k d a dl b) := by
  refine scalar _ _ rfl rfl ?_
  rw [major_0x2D _ (encSW_m ..), decodeTile]
  simp (disch := omega) only [encSW_k, encSW_d (i := 0), encSW_a (i := 0), encSW_l (i := 0), encSW_b (i := 0), encSW_f (i := 0), extract_self] <;> rfl
theorem tlmul (k d a dl b) : Statement (.tlmul k d a dl b) := by
  refine scalar _ _ rfl rfl ?_
  rw [major_0x2D _ (encSW_m ..), decodeTile]
  simp (disch := omega) only [encSW_k, encSW_d (i := 0), encSW_a (i := 0), encSW_l (i := 0), encSW_b (i := 0), encSW_f (i := 0), extract_self] <;> rfl
theorem tllu (k d a dl) : Statement (.tllu k d a dl) := by
  refine scalar _ _ rfl rfl ?_
  rw [major_0x2D _ (encSW_m ..), decodeTile]
  simp (disch := omega) only [encSW_k, encSW_d (i := 0), encSW_a (i := 0), encSW_l (i := 0), encSW_b (i := 0), encSW_f (i := 0), extract_self] <;> rfl
theorem tlinv (k d a dl) : Statement (.tlinv k d a dl) := by
  refine scalar _ _ rfl rfl ?_
  rw [major_0x2D _ (encSW_m ..), decodeTile]
  simp (disch := omega) only [encSW_k, encSW_d (i := 0), encSW_a (i := 0), encSW_l (i := 0), encSW_b (i := 0), encSW_f (i := 0), extract_self] <;> rfl
theorem tltrs (k d a dl b) : Statement (.tltrs k d a dl b) := by
  refine scalar _ _ rfl rfl ?_
  rw [major_0x2D _ (encSW_m ..), decodeTile]
  simp (disch := omega) only [encSW_k, encSW_d (i := 0), encSW_a (i := 0), encSW_l (i := 0), encSW_b (i := 0), encSW_f (i := 0), extract_self] <;> rfl
theorem tlrnd (k d a dl b) : Statement (.tlrnd k d a dl b) := by
  refine scalar _ _ rfl rfl ?_
  rw [major_0x2D _ (encSW_m ..), decodeTile]
  simp (disch := omega) only [encSW_k, encSW_d (i := 0), encSW_a (i := 0), encSW_l (i := 0), encSW_b (i := 0), encSW_f (i := 0), extract_self] <;> rfl
theorem tlcvt (k d a dl) : Statement (.tlcvt k d a dl) := by
  refine scalar _ _ rfl rfl ?_
  rw [major_0x2D _ (encSW_m ..), decodeTile]
  simp (disch := omega) only [encSW_k, encSW_d (i := 0), encSW_a (i := 0), encSW_l (i := 0), encSW_b (i := 0), encSW_f (i := 0), extract_self] <;> rfl
theorem tlnorm (k d a dl) : Statement (.tlnorm k d a dl) := by
  refine scalar _ _ rfl rfl ?_
  rw [major_0x2D _ (encSW_m ..), decodeTile]
  simp (disch := omega) only [encSW_k, encSW_d (i := 0), encSW_a (i := 0), encSW_l (i := 0), encSW_b (i := 0), encSW_f (i := 0), extract_self] <;> rfl
theorem tbat (k d) : Statement (.tbat k d) := by
  refine scalar _ _ rfl rfl ?_
  rw [major_0x2E_0x00 _ (encS3_m ..) (by rw [encS3_f (i := 0) (h := by omega), extract_self])]
  simp (disch := omega) only [encS3_k, encS3_flag, encS3_d (i := 0), encS3_a (i := 0), encS3_b (i := 0), encS3_f (i := 0), encS3_d (i := 3), encS3_a (i := 3), encS3_b (i := 3), encS3_d (i := 2), encS3_a (i := 1), low3_low, low3_high, low2_low, low2_high, extract_self] <;> rfl
theorem tlinfo (k d a) : Statement (.tlinfo k d a) := by
  refine scalar _ _ rfl rfl ?_
  rw [major_0x2E_0x01 _ (encS3_m ..) (by rw [encS3_f (i := 0) (h := by omega), extract_self])]
  simp (disch := omega) only [encS3_k, encS3_flag, encS3_d (i := 0), encS3_a (i := 0), encS3_b (i := 0), encS3_f (i := 0), encS3_d (i := 3), encS3_a (i := 3), encS3_b (i := 3), encS3_d (i := 2), encS3_a (i := 1), low3_low, low3_high, low2_low, low2_high, extract_self] <;> rfl
theorem csrr (k d csr) : Statement (.csrr k d csr) := by
  refine scalar _ _ rfl rfl ?_
  rw [major_0x30 _ (encSI_m ..)]
  simp (disch := omega) only [encSI_k, encSI_d (i := 0), encSI_a (i := 0), encSI_f, count_low, count_high, saves_low, saves_high, extract_self] <;> rfl
theorem csrw (k a csr) : Statement (.csrw k a csr) := by
  refine scalar _ _ rfl rfl ?_
  rw [major_0x31 _ (encSI_m ..)]
  simp (disch := omega) only [encSI_k, encSI_d (i := 0), encSI_a (i := 0), encSI_f, count_low, count_high, saves_low, saves_high, extract_self] <;> rfl
theorem xrd (k d a n) : Statement (.xrd k d a n) := by
  refine scalar _ _ rfl rfl ?_
  rw [major_0x32 _ (encS3_m ..)]
  simp (disch := omega) only [encS3_k, encS3_flag, encS3_d (i := 0), encS3_a (i := 0), encS3_b (i := 0), encS3_f (i := 0), encS3_d (i := 3), encS3_a (i := 3), encS3_b (i := 3), encS3_d (i := 2), encS3_a (i := 1), low3_low, low3_high, low2_low, low2_high, extract_self] <;> rfl
theorem xwr (k a b n) : Statement (.xwr k a b n) := by
  refine scalar _ _ rfl rfl ?_
  rw [major_0x33 _ (encS3_m ..)]
  simp (disch := omega) only [encS3_k, encS3_flag, encS3_d (i := 0), encS3_a (i := 0), encS3_b (i := 0), encS3_f (i := 0), encS3_d (i := 3), encS3_a (i := 3), encS3_b (i := 3), encS3_d (i := 2), encS3_a (i := 1), low3_low, low3_high, low2_low, low2_high, extract_self] <;> rfl
theorem trap (k a) : Statement (.trap k a) := by
  refine scalar _ _ rfl rfl ?_
  rw [major_0x3C _ (encS3_m ..), decodeSystem]
  simp (disch := omega) only [encS3_k, encS3_flag, encS3_d (i := 0), encS3_a (i := 0), encS3_b (i := 0), encS3_f (i := 0), encS3_d (i := 3), encS3_a (i := 3), encS3_b (i := 3), encS3_d (i := 2), encS3_a (i := 1), low3_low, low3_high, low2_low, low2_high, extract_self] <;> rfl
theorem rett (k) : Statement (.rett k) := by
  refine scalar _ _ rfl rfl ?_
  rw [major_0x3C _ (encS3_m ..), decodeSystem]
  simp (disch := omega) only [encS3_k, encS3_flag, encS3_d (i := 0), encS3_a (i := 0), encS3_b (i := 0), encS3_f (i := 0), encS3_d (i := 3), encS3_a (i := 3), encS3_b (i := 3), encS3_d (i := 2), encS3_a (i := 1), low3_low, low3_high, low2_low, low2_high, extract_self] <;> rfl
theorem yield (k) : Statement (.yield k) := by
  refine scalar _ _ rfl rfl ?_
  rw [major_0x3C _ (encS3_m ..), decodeSystem]
  simp (disch := omega) only [encS3_k, encS3_flag, encS3_d (i := 0), encS3_a (i := 0), encS3_b (i := 0), encS3_f (i := 0), encS3_d (i := 3), encS3_a (i := 3), encS3_b (i := 3), encS3_d (i := 2), encS3_a (i := 1), low3_low, low3_high, low2_low, low2_high, extract_self] <;> rfl
theorem rdclk (k d) : Statement (.rdclk k d) := by
  refine scalar _ _ rfl rfl ?_
  rw [major_0x3C _ (encS3_m ..), decodeSystem]
  simp (disch := omega) only [encS3_k, encS3_flag, encS3_d (i := 0), encS3_a (i := 0), encS3_b (i := 0), encS3_f (i := 0), encS3_d (i := 3), encS3_a (i := 3), encS3_b (i := 3), encS3_d (i := 2), encS3_a (i := 1), low3_low, low3_high, low2_low, low2_high, extract_self] <;> rfl
theorem rdret (k d) : Statement (.rdret k d) := by
  refine scalar _ _ rfl rfl ?_
  rw [major_0x3C _ (encS3_m ..), decodeSystem]
  simp (disch := omega) only [encS3_k, encS3_flag, encS3_d (i := 0), encS3_a (i := 0), encS3_b (i := 0), encS3_f (i := 0), encS3_d (i := 3), encS3_a (i := 3), encS3_b (i := 3), encS3_d (i := 2), encS3_a (i := 1), low3_low, low3_high, low2_low, low2_high, extract_self] <;> rfl
theorem laneAdd (f) : Statement (.laneAdd f) := lane _ .add f rfl rfl rfl
theorem laneSub (f) : Statement (.laneSub f) := lane _ .sub f rfl rfl rfl
theorem laneMul (f) : Statement (.laneMul f) := lane _ .mul f rfl rfl rfl
theorem laneMulhi (f) : Statement (.laneMulhi f) := lane _ .mulhi f rfl rfl rfl
theorem laneMad (f) : Statement (.laneMad f) := lane _ .mad f rfl rfl rfl
theorem laneFma (f) : Statement (.laneFma f) := lane _ .fma f rfl rfl rfl
theorem laneMin (f) : Statement (.laneMin f) := lane _ .min f rfl rfl rfl
theorem laneMax (f) : Statement (.laneMax f) := lane _ .max f rfl rfl rfl
theorem laneAbs (f) : Statement (.laneAbs f) := lane _ .abs f rfl rfl rfl
theorem laneNeg (f) : Statement (.laneNeg f) := lane _ .neg f rfl rfl rfl
theorem laneAdds (f) : Statement (.laneAdds f) := lane _ .adds f rfl rfl rfl
theorem laneSubs (f) : Statement (.laneSubs f) := lane _ .subs f rfl rfl rfl
theorem laneAnd (f) : Statement (.laneAnd f) := lane _ .and f rfl rfl rfl
theorem laneOr (f) : Statement (.laneOr f) := lane _ .or f rfl rfl rfl
theorem laneXor (f) : Statement (.laneXor f) := lane _ .xor f rfl rfl rfl
theorem laneAndn (f) : Statement (.laneAndn f) := lane _ .andn f rfl rfl rfl
theorem laneNot (f) : Statement (.laneNot f) := lane _ .not f rfl rfl rfl
theorem laneShl (f) : Statement (.laneShl f) := lane _ .shl f rfl rfl rfl
theorem laneShr (f) : Statement (.laneShr f) := lane _ .shr f rfl rfl rfl
theorem laneSra (f) : Statement (.laneSra f) := lane _ .sra f rfl rfl rfl
theorem lanePopc (f) : Statement (.lanePopc f) := lane _ .popc f rfl rfl rfl
theorem laneClz (f) : Statement (.laneClz f) := lane _ .clz f rfl rfl rfl
theorem laneBrev (f) : Statement (.laneBrev f) := lane _ .brev f rfl rfl rfl
theorem laneDiv (f) : Statement (.laneDiv f) := lane _ .div f rfl rfl rfl
theorem laneSqrt (f) : Statement (.laneSqrt f) := lane _ .sqrt f rfl rfl rfl
theorem laneRcp (f) : Statement (.laneRcp f) := lane _ .rcp f rfl rfl rfl
theorem laneRsqrt (f) : Statement (.laneRsqrt f) := lane _ .rsqrt f rfl rfl rfl
theorem laneExp2 (f) : Statement (.laneExp2 f) := lane _ .exp2 f rfl rfl rfl
theorem laneLog2 (f) : Statement (.laneLog2 f) := lane _ .log2 f rfl rfl rfl
theorem laneSin (f) : Statement (.laneSin f) := lane _ .sin f rfl rfl rfl
theorem laneCos (f) : Statement (.laneCos f) := lane _ .cos f rfl rfl rfl
theorem laneRint (f) : Statement (.laneRint f) := lane _ .rint f rfl rfl rfl
theorem laneConj (f) : Statement (.laneConj f) := lane _ .conj f rfl rfl rfl
theorem laneCmp (f) : Statement (.laneCmp f) := lane _ .cmp f rfl rfl rfl
theorem laneSel (f) : Statement (.laneSel f) := lane _ .sel f rfl rfl rfl
theorem laneMov (f) : Statement (.laneMov f) := lane _ .mov f rfl rfl rfl
theorem laneCvt (f) : Statement (.laneCvt f) := lane _ .cvt f rfl rfl rfl
theorem laneShfl (f) : Statement (.laneShfl f) := lane _ .shfl f rfl rfl rfl
theorem laneBcast (f) : Statement (.laneBcast f) := lane _ .bcast f rfl rfl rfl
theorem laneRed (f) : Statement (.laneRed f) := lane _ .red f rfl rfl rfl
theorem laneScan (f) : Statement (.laneScan f) := lane _ .scan f rfl rfl rfl
theorem laneMatch (f) : Statement (.laneMatch f) := lane _ .matchOp f rfl rfl rfl
theorem laneVote (f) : Statement (.laneVote f) := lane _ .vote f rfl rfl rfl
theorem mma (f) : Statement (.mma f) := lane _ .mma f rfl rfl rfl
theorem mmas (f) : Statement (.mmas f) := lane _ .mmas f rfl rfl rfl
theorem mmab (f) : Statement (.mmab f) := lane _ .mmab f rfl rfl rfl
theorem laneLd (f) : Statement (.laneLd f) := lane _ .ld f rfl rfl rfl
theorem laneSt (f) : Statement (.laneSt f) := lane _ .st f rfl rfl rfl
theorem atom (f) : Statement (.atom f) := lane _ .atom f rfl rfl rfl
theorem ared (f) : Statement (.ared f) := lane _ .ared f rfl rfl rfl
theorem acas (f) : Statement (.acas f) := lane _ .acas f rfl rfl rfl
theorem laneMemoryCompletion (pid) : Statement (.laneMemoryCompletion pid) := event _ rfl rfl
theorem trapDelivery (pid) : Statement (.trapDelivery pid) := event _ rfl rfl
theorem replyAnswer (ctx ticket) : Statement (.replyAnswer ctx ticket) := event _ rfl rfl
theorem deadlineExpiry (pid) : Statement (.deadlineExpiry pid) := event _ rfl rfl
theorem waitConditionMet (pid) : Statement (.waitConditionMet pid) := event _ rfl rfl
theorem siphonEntryGrant (core) : Statement (.siphonEntryGrant core) := event _ rfl rfl
theorem siphonCommandExecute (cmd) : Statement (.siphonCommandExecute cmd) := event _ rfl rfl
theorem commandCompletion (cmd) : Statement (.commandCompletion cmd) := event _ rfl rfl
theorem galleryEntryGrant (core) : Statement (.galleryEntryGrant core) := event _ rfl rfl
theorem taskStart (engine) : Statement (.taskStart engine) := event _ rfl rfl
theorem flowstoneRecompression (task) : Statement (.flowstoneRecompression task) := event _ rfl rfl
theorem taskRetire (task) : Statement (.taskRetire task) := event _ rfl rfl
theorem cavernQuiescence : Statement .cavernQuiescence := event _ rfl rfl
theorem launchTake (queue) : Statement (.launchTake queue) := event _ rfl rfl
theorem dependenceMet (id) : Statement (.dependenceMet id) := event _ rfl rfl
theorem groupPlacement (id core quads) : Statement (.groupPlacement id core quads) := event _ rfl rfl
theorem placementAging (id) : Statement (.placementAging id) := event _ rfl rfl
theorem launchEnd (id) : Statement (.launchEnd id) := event _ rfl rfl
theorem eviction (pid) : Statement (.eviction pid) := event _ rfl rfl
theorem restore (pid) : Statement (.restore pid) := event _ rfl rfl
theorem invalidatePage (ctx) : Statement (.invalidatePage ctx) := event _ rfl rfl
theorem invalidateAll (ctx) : Statement (.invalidateAll ctx) := event _ rfl rfl
theorem reset (ctx) : Statement (.reset ctx) := event _ rfl rfl
theorem suspend (ctx) : Statement (.suspend ctx) := event _ rfl rfl
theorem resume (ctx) : Statement (.resume ctx) := event _ rfl rfl
theorem accessBoundExpiry (pid) : Statement (.accessBoundExpiry pid) := event _ rfl rfl
theorem softError (what) : Statement (.softError what) := event _ rfl rfl
theorem patrolScrub (stack) : Statement (.patrolScrub stack) := event _ rfl rfl
theorem doorbell (fn value) : Statement (.doorbell fn value) := event _ rfl rfl
theorem registerWrite (fn off value) : Statement (.registerWrite fn off value) := event _ rfl rfl
theorem hostRead (fn off len) : Statement (.hostRead fn off len) := event _ rfl rfl
theorem hostWrite (fn off bytes) : Statement (.hostWrite fn off bytes) := event _ rfl rfl
theorem functionLevelReset (fn) : Statement (.functionLevelReset fn) := event _ rfl rfl
theorem attest : Statement .attest := event _ rfl rfl
theorem keyload : Statement .keyload := event _ rfl rfl
theorem keyclear : Statement .keyclear := event _ rfl rfl
theorem stackinit : Statement .stackinit := event _ rfl rfl
theorem stackinfo : Statement .stackinfo := event _ rfl rfl
theorem bringUp (verified part) : Statement (.bringUp verified part) := event _ rfl rfl
theorem packetReceive (packet) : Statement (.packetReceive packet) := event _ rfl rfl
theorem retransmission (dst cls) : Statement (.retransmission dst cls) := event _ rfl rfl
theorem partAbsent (part) : Statement (.partAbsent part) := event _ rfl rfl
theorem collectiveCompletion (cmd inputs) : Statement (.collectiveCompletion cmd inputs) := event _ rfl rfl
theorem collTimeout (cmd) : Statement (.collTimeout cmd) := event _ rfl rfl
theorem thermalThrottle : Statement .thermalThrottle := event _ rfl rfl
theorem thermalTrip : Statement .thermalTrip := event _ rfl rfl
theorem tripClear : Statement .tripClear := event _ rfl rfl
theorem scoreHalving : Statement .scoreHalving := event _ rfl rfl
theorem vectorUnmask (fn vector) : Statement (.vectorUnmask fn vector) := event _ rfl rfl

end
end Sys2Proof.Laws.Roundtrip
end

