-- ==== Sys2Proof/Tests/Slice0.lean ====
section
/-!
SUPPORT. Small tests whose expected results come from the spec's worked words and rules, and for every statement of
Certificates/Slice0 that has hypotheses a state and operands that meet them, clause by clause.
-/
namespace Sys2Proof.Tests
open Sys2Proof Sys2Proof.Machine

set_option Elab.async false

/-! ### Helpers -/

theorem ok_of {ε α : Type} {x : Except ε α} {a : α} (h : x.toOption = some a) : x = .ok a := by
  cases x <;> simp_all [Except.toOption]

theorem exists_ok {ε α : Type} {x : Except ε α} (h : x.toBool = true) : ∃ a, x = .ok a := by
  cases x with
  | ok a => exact ⟨a, rfl⟩
  | error e => simp [Except.toBool] at h

theorem exists_error {ε α : Type} {x : Except ε α} (h : x.toBool = false) : ∃ e, x = .error e := by
  cases x with
  | ok a => simp [Except.toBool] at h
  | error e => exact ⟨e, rfl⟩

def denial {α : Type} (x : Except Deny α) : Option Deny := match x with | .error d => some d | .ok _ => none

theorem error_of {α : Type} {x : Except Deny α} {d : Deny} (h : denial x = some d) : x = .error d := by
  cases x <;> simp_all [denial]

def goesOn (r : Result) : Bool := match r with | .next _ => true | _ => false

theorem exists_next {r : Result} (h : goesOn r = true) : ∃ t, r = .next t := by
  cases r with
  | next t => exact ⟨t, rfl⟩
  | fault e => simp [goesOn] at h
  | refused e => simp [goesOn] at h

/-- The party in focus of the state that a result goes on in. -/
def after (r : Result) : Option Party := match r with | .next t => some t.party | _ => none

/-- The installed launch with its one party of 32 lanes, the registers all 0 but s1 = 0x300000. -/
def base : State := State.reset.install

/-- A 64-bit word of memory, in the clear. -/
def poke (s : State) (a v : Nat) : State := { s with mem := writeBytes s.mem a (toBytes 8 v) }

/-- A register of the party in focus. -/
def setR (s : State) (r : Reg) (v : Word) : State := { s with party := s.party.setReg r v }

/-- The next move. -/
def next (s : State) (a : Act) : State := { s with agenda := [{ act := a, ticks := 0, clocks := 0 }] }

/-- The launch with another header. -/
def withHeader (s : State) (f : Header → Header) : State :=
  { s with launches := [{ installLaunch with header := f installHeader }] }

/-- A lane block of one instruction with the snapshot of a party. -/
def blockOf (p : Party) : Block :=
  { first := 0, len := 1, lrun := p.pc, s := p.s, p := p.p, dl := p.dl, rnd := p.rnd, nvr := p.nvr, order := 1 }

/-- A lane instruction at the head of the queue. -/
def queued (s : State) : State := { s with party := { s.party with queue := [blockOf s.party] } }

/-- The fields of a lane instruction without a set-flag. -/
def fields (ty : Ty) (dst a b c : BitVec 8) (imm : BitVec 16) : LaneF :=
  { ty := ty, dst := dst, a := a, b := b, c := c, imm := imm, pred := 0, neg := false, dl := 0, hint := 0, set := 15
    wait := 0, gap := 0 }

/-! ### Encodings -/

/-- R89's word of `div.i32 s4, s5, s6`, 0x0220_A345, bit by bit: park 0, major 000001, d 000100, a 000101, b 000110,
fn 1000101. -/
theorem test_decode_integer : decodeScalar 0b0_000001_000100_000101_000110_1000101#32 = .ok (.div false 4 5 6 .i32) := rfl

/-- R97's word of `many s9, p2`, 0x3A48_4007. -/
theorem test_decode_mask : decodeScalar 0b0_011101_001001_000010_000000_0000111#32 = .ok (.many false 9 2) := rfl

/-- R111's word of `dladd dl2, s5`, 0x3C10_A001. -/
theorem test_decode_deadline : decodeScalar 0b0_011110_000010_000101_000000_0000001#32 = .ok (.dladd false 2 5) := rfl

/-- R159's word of `xrd s4, v9, s7`, 0x6420_E009. -/
theorem test_decode_xrd : decodeScalar 0b0_110010_000100_000111_000000_0001001#32 = .ok (.xrd false 4 7 9) := rfl

/-- R157's word of `trap s5`, 0x7800_A000, and the same with the park marker. -/
theorem test_decode_trap : decodeScalar 0b0_111100_000000_000101_000000_0000000#32 = .ok (.trap false 5) ∧
    decodeScalar 0b1_111100_000000_000101_000000_0000000#32 = .ok (.trap true 5) := ⟨rfl, rfl⟩

/-- R47: all zeros and all ones are no instruction. -/
theorem test_decode_unallocated : decodeScalar 0 = .error .major ∧ decodeScalar 0xFFFFFFFF = .error .major := ⟨rfl, rfl⟩

/-- R66: an unallocated lane opcode is no instruction. -/
theorem test_decode_lane_unallocated : (decodeLane 0).toBool = false := rfl

/-- The scalar words of `axpy_demo` (R57, worked encodings). -/
theorem test_decode_axpy : [0x04380028, 0x3A08E000, 0x0430_0001, 0x0C30_C01E, 0x3C40_0002, 0x0241_0480, 0x3C09_0000, 0x3020_0000,
      0x3650_8800, 0xD650_2160, 0x2C00_0000].map (fun w => (decodeScalar w).toOption) =
    ([.addi false 7 0 0x28, .mset false 1 7, .addi false 6 0 1, .shli false 6 6 0x1E, .dlnow false 8 false, .add false 8 8 9 .w64,
      .dlset false 1 8, .lrun false 4 0, .waitf false 10 4 1, .sstN64 true 10 1 0x160, .exit false] : List Instr).map some := rfl

/-- The engine, wait and launch families (R348, R370, R203, R207 to R209, R106). -/
theorem test_decode_sw : [0x5828E905, 0x5828E906, 0x3428F103, 0x3428C800, 0x34281008].map (fun w => (decodeScalar w).toOption) =
    ([.coll false 5 7 1 8, .launch false 5 7 1 8, .waddr false 5 7 2 8, .bwait false 5 6 1, .fuse false 5 2] : List Instr).map
      some := rfl

/-- The lane words of `hist256` N232 and N238: LD.n8 of form 1, and ARED.n32 of scope .group under ?p1 (R226). -/
theorem test_decode_hist : decodeLane 0x4010060B1401000000000000 = .ok (.laneLd
      { ty := .n8, dst := 1, a := 0x82, b := 0xC5, c := 0, imm := 0x4000, pred := 0, neg := false, dl := 0, hint := 0, set := 0
        wait := 0, gap := 0 }) ∧
    decodeLane 0x40DA0C141001200080603800 = .ok (.ared
      { ty := .n32, dst := 0x83, a := 5, b := 4, c := 0, imm := 0x4800, pred := 1, neg := false, dl := 0, hint := 0, set := 6
        wait := 0x38, gap := 0 }) := ⟨rfl, rfl⟩

/-- R119 to R136: an element-wise, a matrix and a cross-lane word, field by field: opcode, type, dst, a, b, c, imm16, pred,
neg, dl, hint, set-flag, wait, gap. -/
theorem test_decode_lane : decodeLane 0x402C0A080401000080000800 = .ok (.laneLd
      { ty := .f32, dst := 2, a := 0x82, b := 1, c := 0, imm := 0x4000, pred := 1, neg := false, dl := 0, hint := 0, set := 0
        wait := 8, gap := 0 }) := rfl

/-! ### Results of single steps, from the worked examples of the spec -/

/-- R89: `div.i32 s4, s5, s6` of −2^31 and −1. -/
theorem test_div_example : (after (exec (.div false 4 5 6 .i32) (setR (setR base 5 0xFFFFFFFF80000000) 6 0xFFFFFFFF))).map
    (fun p => p.reg 4) = some 0xFFFFFFFF80000000 := by decide +kernel

/-- R38: the two bases and the poll of the table "one wait, two bases". -/
theorem test_deadline_bases :
    let s : State := { base with lantern := 1000000, party := { base.party with ptime := 400000 } }
    let l : Launch := { installLaunch with header := { installHeader with ceiling := 2 ^ 20 } }
    (deadlineOf s l s.party 1050000 0).ticks = 1050000 ∧ (deadlineOf s l s.party (2 ^ 62 + 450000) 0).ticks = 450000 ∧
      (deadlineOf s l s.party 990000 0).poll = true := by decide +kernel

/-- R27: a summary bit is set exactly where its data word is not zero. -/
theorem test_summary : summary 0x100000000 = 2 ∧ summary 0 = 0 ∧ summary (1 <<< 1023) = 0x80000000 := by decide +kernel

/-- R33: a write to s0 is discarded. -/
theorem test_s0 : (after (exec (.addi false 0 1 5) base)).map (fun p => (p.reg 0, p.reg 1)) = some (0, 0x300000) := by
  decide +kernel

/-- R50: `bne` is taken on −1 and goes four times its offset from its own address. -/
theorem test_bne : (after (exec (.bne false 5 0x7FFF) (setR base 5 (-1)))).map (fun p => p.pc) = some 0xFFFFC := by
  decide +kernel

/-- R91: `lcat` shifts its register left by 19 and appends the immediate. -/
theorem test_lcat : (after (exec (.lcat false 5 0x7FFFF) (setR base 5 3))).map (fun p => p.reg 5) = some 0x1FFFFF := by
  decide +kernel

/-! ### WellFormed: an ill-formed term for each check -/

/-- R48: mulhi takes no .n32 and divn no .i32. -/
theorem test_ill_size : Instr.check (.mulhi false 1 2 3 .n32) = some .size ∧ Instr.check (.divn false 1 2 3 .i32) = some .size := by
  decide

/-- R52, R54: the masks of FENCE and XFENCE; R56: CSR numbers; R239: registers past s63. -/
theorem test_ill_scalar : Instr.check (.fence false 1 0 0) = some .literal ∧ Instr.check (.xfence false 1 2 0 2) = some .literal ∧
    Instr.check (.csrr false 1 7) = some .csr ∧ Instr.check (.csrw false 1 5) = some .csr ∧
    Instr.check (.tladd false 1 62 0 2) = some .tileRegisters ∧ Instr.check (.tlmul false 1 61 0 2) = some .tileRegisters := by
  decide

/-- R64: a type outside the list; R65: a negated p0; R62: an odd register of a 64-bit value, a code that is no source; R63: a
rounding code of 5. -/
theorem test_ill_lane : Instr.check (.laneSqrt (fields .i32 1 2 0 0 0)) = some .laneType ∧
    Instr.check (.laneAdd { fields .f32 1 2 3 0 0 with neg := true }) = some .control ∧
    Instr.check (.laneAdd (fields .f64 1 2 4 0 0)) = some .operand ∧
    Instr.check (.laneAdd (fields .f32 1 0xC8 4 0 0)) = some .operand ∧
    Instr.check (.laneAdd (fields .f32 1 2 4 0 5)) = some .immediate := by decide

/-- R30: a register beyond the window. -/
theorem test_ill_window : LaneOp.inWindow .add (fields .f64 6 2 4 0 0) 8 = true ∧
    LaneOp.inWindow .add (fields .f64 8 2 4 0 0) 8 = false := by decide

/-! ### Witnesses: encodings and the step -/

theorem witness_EncodeDecodeScalar : (∃ w, encodeScalar (.tlmul true 63 60 3 63) = some w) ∧
    Instr.wellFormed (.tlmul true 63 60 3 63) = true := ⟨⟨_, rfl⟩, by decide⟩

theorem witness_EncodeDecodeLane : (Instr.laneMov (fields .c64 124 120 0 0 0)).lane? = some (.mov, fields .c64 124 120 0 0 0) ∧
    Instr.wellFormed (.laneMov (fields .c64 124 120 0 0 0)) = true := by decide

theorem witness_WordsAreEncodings : decodeScalar 0x2C000000 = .ok (.exit false) ∧
    ∃ i, decodeLane 0x402C0A080401000080000800 = .ok i := ⟨rfl, _, rfl⟩

/-- `addi s7, s0, 40` at the counter, and the party in focus the next to move. -/
def atScalar : State := next (base.placeWord 32 0x04380028) (.scalar 2)

theorem witness_StepRunsScalarWord :
    let t := atScalar.nextMove.2
    ((atScalar.party.live = true ∧ (atScalar.launch? atScalar.party.launch).isSome = true) ∧
      atScalar.nextMove.1.act = .scalar t.party.pid ∧ t.party.ready = true ∧ t.held = false ∧ t.party.wait = none ∧
      t.party.offer = none ∧ t.party.raised = none ∧ t.party.due = false ∧ t.turnAllows t.party.pid = true ∧
      t.mustLeave t.party = false ∧ t.party.copying = none) ∧
    t.fetchWord (t.home t.party) t.party.pc = .ok 0x04380028 ∧
    decodeFor (t.home t.party).header.laneLen 0x04380028 = .ok (.addi false 7 0 40) :=
  ⟨by decide +kernel, ok_of (by decide +kernel), rfl⟩

/-- `mov.b32 v1, v2` first in the lane section and in the queue. -/
def atLane : State := next (base.placeWord 96 0x132004080000000000F00000) (.lane 2)

theorem witness_StepRunsLaneHead :
    let t := atLane.nextMove.2
    ((atLane.party.live = true ∧ (atLane.launch? atLane.party.launch).isSome = true) ∧
      atLane.nextMove.1.act = .lane t.party.pid ∧ t.party.ready = true ∧ t.held = false ∧ t.party.laneFrozen = false ∧
      t.party.redo = none ∧ t.party.part = none) ∧
    (∃ b, t.party.queue = [b] ∧ ∃ w i, t.fetchLane (t.home t.party) (b.first + t.party.laneCtr) = .ok w ∧
      decodeLane w = .ok i) ∧
    (let again : Party := { t.party with redo := some 0, headOp := some {
       op := .mov, f := fields .b32 1 2 0 0 0, mask := 1, anyRemote := false, late := 0
       deadline := { party := false, ticks := 0, ceiling := false, poll := true, esc := false, sel := 0 } } }
     again.redo ≠ none ∧ ∃ h, again.headOp = some h ∧ h.op.instr h.f = .laneMov (fields .b32 1 2 0 0 0)) :=
  ⟨by decide +kernel, ⟨_, rfl, 0x132004080000000000F00000, _, ok_of (by decide +kernel), rfl⟩, by simp, _, rfl, rfl⟩

theorem witness_StepRunsEvent :
    let s := next base (.event .tripClear)
    (s.party.live = true ∧ (s.launch? s.party.launch).isSome = true) ∧ s.nextMove.1.act = .event .tripClear := by
  decide +kernel

theorem witness_IllegalWordTraps :
    let t := (next base (.scalar 2)).nextMove.2
    ((next base (.scalar 2)).nextMove.1.act = .scalar t.party.pid ∧ t.party.ready = true ∧ t.held = false ∧
      t.party.wait = none ∧ t.party.offer = none ∧ t.party.raised = none ∧ t.party.due = false ∧
      t.turnAllows t.party.pid = true ∧ t.mustLeave t.party = false ∧ t.party.copying = none) ∧
    t.fetchWord (t.home t.party) t.party.pc = .ok 0 ∧ decodeFor (t.home t.party).header.laneLen 0 = .error .major :=
  ⟨by decide +kernel, ok_of (by decide +kernel), rfl⟩

/-- The invariant holds at reset and after the installation, and a step from there goes on. -/
theorem witness_MemoryCanonicalKept : State.reset.canonical ∧ base.canonical ∧ ∃ t, step atScalar = .next t :=
  ⟨by unfold State.canonical; decide +kernel, by unfold State.canonical; decide +kernel, exists_next (by decide +kernel)⟩

/-! ### Witnesses: scalar instructions -/

theorem witness_IntegerResults : base.holdsReg base.party 63 = false ∧ base.holdsReg base.party 0 = false := by decide +kernel

theorem witness_CompletionFrame : (63 : Reg) ≠ 0 ∧ (1 : Reg) ≠ 0 := by decide

/-- A queued `mov.b32 v1, s63` holds a write of s63. -/
def readsS63 : State := base.placeWord 96 (((encodeLane (.laneMov (fields .b32 1 0xBF 0 0 0))).map BitVec.toNat).getD 0)

/-- A lane instruction first in the lane section and in the queue. -/
def ahead (i : Instr) : State := base.placeWord 96 (((encodeLane i).map BitVec.toNat).getD 0)

def queuedOp (q : Queued) : Option (LaneOp × LaneF) := match q with | .instr op f => some (op, f) | _ => none

/-- A queued SEL with mask 7 as its choice, LD with deadline 3, and CVT whose rounding is .dyn. -/
theorem witness_WritesHold : readsS63.holdsReg readsS63.party 63 = true ∧ readsS63.holdsReg readsS63.party 62 = false ∧
    (let s := ahead (.laneSel (fields .b32 4 0 1 0 7))
     s.holdsMask s.party 7 = true ∧ s.holdsMask s.party 0 = true ∧ s.party.hmode = false ∧ s.party.queue ≠ [] ∧
       (s.unissued s.party).map (fun q => queuedOp q.2) = [some (.sel, fields .b32 4 0 1 0 7)]) ∧
    (let s := ahead (.laneLd { fields .f32 4 0x81 0 0 0 with dl := 3 })
     s.holdsDl s.party 3 = true ∧ s.holdsReg s.party 1 = true) ∧
    (let f := fields .f32 4 0 1 0 4
     let s := ahead (.laneAdd f)
     s.holdsRnd s.party = true ∧ LaneOp.add.roundingCode f = some 4) := by decide +kernel

/-- The party at a window base. -/
def slid (b lo : Nat) : State := { base with party := { base.party with b := b, lo := lo } }

theorem witness_BranchesAndCalls :
    (base.party.hmode = false ∧ base.party.drained = true) ∧
    (let s := slid 896 896
     s.party.b + 8 * (0 : BitVec 4).toNat ≤ 1024 - (s.home s.party).header.window ∧
      ∃ x, s.slide (s.home s.party) s.party.certain 896 = .ok x) ∧
    (let s := slid 120 0
     8 * (15 : BitVec 4).toNat ≤ s.party.b ∧ s.party.b - 8 * (15 : BitVec 4).toNat ≤ 1024 - (s.home s.party).header.window ∧
      ∃ x, s.slide (s.home s.party) s.party.certain 0 = .ok x) ∧
    (let s := slid 896 896
     1024 < s.party.b + 8 * (1 : BitVec 4).toNat + (s.home s.party).header.window) ∧
    base.party.b < 8 * (1 : BitVec 4).toNat :=
  ⟨by decide +kernel, ⟨by decide +kernel, exists_ok (by decide +kernel)⟩,
    ⟨by decide +kernel, by decide +kernel, exists_ok (by decide +kernel)⟩, by decide +kernel, by decide⟩

theorem witness_LrunQueues : base.party.hmode = false ∧
    (63 : BitVec 19).toNat + (0 : BitVec 6).toNat + 1 ≤ (base.home base.party).header.laneLen ∧
    (List.replicate 3 (blockOf base.party)).length < 4 ∧ base.party.looseMasks = [] ∧
    4 ≤ (List.replicate 4 (blockOf base.party)).length := by decide +kernel

theorem witness_MaskResults : base.party.looseMasks = [] ∧ base.holdsMask base.party 7 = false ∧
    base.holdsMask base.party 0 = false ∧ base.holdsReg base.party 63 = false := by decide +kernel

/-! ### Witnesses: tokens -/

/-- A party with a token stack, `n` of whose outermost tokens lie in the spill block. -/
def stacked (ts : List Token) (n : Nat) : State := { base with party := { base.party with tokens := ts, spilled := n } }

def join (a : Word) : Token := { isBreak := false, addr := a, image := 0xFFFF }
def brk (a : Word) : Token := { isBreak := true, addr := a, image := 0xFF00 }

theorem witness_TokenInstructions_push :
    let s := stacked (List.replicate 255 (join 0x100010)) 224
    let p := s.party
    p.looseMasks = [] ∧ s.holdsMask p 0 = false ∧ p.tokens.length < 256 ∧
    (∃ x, s.spillTokens (s.home p) { { p with tokens := join 0x100010 :: p.tokens } with
      spilled := min 224 (join 0x100010 :: p.tokens).length } 256 = .ok x) ∧
    (stacked (List.replicate 256 (join 0x100010)) 224).party.tokens.length = 256 :=
  ⟨by decide +kernel, by decide +kernel, by decide +kernel, exists_ok (by decide +kernel), by decide +kernel⟩

/-- MBRK: it leaves lanes (p1 empty); it leaves none and finds a JOIN; it leaves none and finds no JOIN. -/
theorem witness_TokenInstructions_break :
    let s := stacked [brk 0x100020, join 0x100010] 0
    let left (p1 : Mask) : Mask := s.party.mask 0 &&& ~~~(s.party.mask 0 &&& p1)
    (s.party.looseMasks = [] ∧ s.holdsMask s.party 0 = false ∧ left 0 ≠ 0 ∧ left (s.party.mask 0) = 0 ∧
      ([brk 0x100020, brk 0x100020, join 0x100010].find? fun t => !t.isBreak) = some (join 0x100010) ∧
      ([brk 0x100020, brk 0x100020].all fun t => t.isBreak) = true) ∧
    s.fillBreaks (s.home s.party) s.party 0 256 = .ok s.party :=
  ⟨by decide +kernel, ok_of (by decide +kernel)⟩

/-- MJOIN at its own address, with one BREAK for it and one that goes back; MPOP; and both on an empty stack. -/
theorem witness_TokenInstructions_join :
    let s := stacked [brk 0x100000, brk 0x100020, join 0x100000] 0
    (s.party.looseMasks = [] ∧ s.holdsMask s.party 0 = false ∧
      s.party.tokens = [brk 0x100000, brk 0x100020] ++ join 0x100000 :: [] ∧
      ([brk 0x100000, brk 0x100020].all fun t => t.isBreak) = true ∧ (join 0x100000).isBreak = false ∧
      (join 0x100000).addr = s.party.pc ∧ base.party.tokens = []) ∧
    s.fillBreaks (s.home s.party) s.party 0 256 = .ok s.party ∧ s.fillToken (s.home s.party) s.party 0 = .ok s.party ∧
    ∃ x, s.spillTokens (s.home s.party) { { s.party with tokens := [] } with spilled := 0 } 256 = .ok x :=
  ⟨by decide +kernel, ok_of (by decide +kernel), ok_of (by decide +kernel), exists_ok (by decide +kernel)⟩

theorem witness_TokenInstructions_depth :
    let l := { installLaunch with header := { installHeader with depth := 256 } }
    base.party.lo ≤ 128 ∧ 128 + l.header.window ≤ base.party.lo + l.header.depth8 ∧ base.party.spilled = 0 ∧
    (List.replicate 32 (join 0)).length ≤ 32 := by decide +kernel

/-! ### Witnesses: deadlines, control registers, counters, lane registers -/

theorem witness_DeadlinesAndCounters_deadlines : base.holdsDl base.party 3 = false ∧ base.holdsReg base.party 63 = false := by
  decide +kernel

theorem witness_ControlRegisters_reads : base.holdsReg base.party 63 = false ∧ base.party.inflight = [] := by decide +kernel

theorem witness_ControlRegisters_writes : base.party.inflight = [] ∧ base.holdsRnd base.party = false ∧ base.party.holdsNvr = false := by
  decide +kernel

theorem witness_DeadlinesAndCounters_counters : base.holdsReg base.party 63 = false ∧ (base.home base.party).header.replay = false ∧
    (let s := withHeader base fun h => { h with replay := true }
     (s.home s.party).header.replay = true) ∧
    base.party.hmode = false ∧ base.party.drained = true ∧ (queued base).party.drained = false := by decide +kernel

/-- Lane 31 and register 127 are the last within; lane 32 is not. -/
theorem witness_LaneRegisterAccess :
    let s := setR (setR base 5 31) 6 32
    s.party.drained = true ∧ s.party.looseMasks = [] ∧ s.party.recent = [] ∧
    ((s.party.reg 5).toNat < s.party.width ∧ (127 : BitVec 7).toNat < (s.home s.party).header.window) ∧
    ¬ (s.party.reg 6).toNat < s.party.width := by decide +kernel

/-! ### Witnesses: traps -/

/-- The launch with a handler. -/
def handled : State := withHeader base fun h => { h with handler := 0x140000 }

theorem witness_TakingATrap :
    let p := handled.party
    let t := Trap.scalar .alignment p.pc p.pc
    (p.hmode = false ∧ p.offer = none ∧ p.raised = none ∧ p.inflight = [] ∧ p.part = none ∧ t.cause ≠ .permission ∧
      t.cause ≠ .translation ∧ (handled.home p).header.handler ≠ 0 ∧ (Trap.scalar .translation p.pc p.pc).cause = .translation ∧
      { p with part := some { record := none, entries := [], ends := [], denied := [], halves := [], rows := [] } }.part ≠ none ∧ { p with raised := some (t, false) }.raised ≠ none) ∧
    ∃ u, handled.arenaWrite (handled.home p).space (p.recordAt (handled.home p))
      (recordBytes t false (p.reg 60) (p.reg 61) (p.reg 62) (p.reg 63)) = .ok u :=
  ⟨by decide +kernel, exists_ok (by decide +kernel)⟩

theorem witness_TrapRaisesSoft :
    let p := handled.party
    (p.hmode = false ∧ p.offer = none ∧ p.raised = none ∧ p.inflight = [] ∧ p.part = none ∧
      (handled.home p).header.handler ≠ 0) ∧
    ∃ u, handled.arenaWrite (handled.home p).space (p.recordAt (handled.home p))
      (toBytes 8 3 ++ toBytes 8 p.pc.toNat ++ toBytes 8 (p.pc + 4).toNat ++ toBytes 8 0 ++ toBytes 8 (p.reg 5).toNat ++
        toBytes 8 0 ++ toBytes 8 (p.reg 60).toNat ++ toBytes 8 (p.reg 61).toNat ++ toBytes 8 (p.reg 62).toNat ++
        toBytes 8 (p.reg 63).toNat ++ List.replicate 944 0) = .ok u :=
  ⟨by decide +kernel, exists_ok (by decide +kernel)⟩

/-- The party in its handler. -/
def inHandler : State := { handled with party := { handled.party with hmode := true } }

/-- A record whose word 0 and action word are given: SOFT, an alignment of a lane instruction, one of a scalar instruction that
is declined, and a declined fetch; the first also outside handler mode. -/
def recorded (w0 action : Nat) : State :=
  let at_ := inHandler.party.recordAt (inHandler.home inHandler.party)
  poke (poke inHandler at_ w0) (at_ + 0x28) action

def recordOf (w0 action : Nat) : List Byte := toBytes 8 w0 ++ zeros 32 ++ toBytes 8 action ++ zeros 976

theorem witness_RettReturns :
    (∀ x ∈ [(3, 0, 0, false), (0x110, 0, 1, false), (0x10, 1, 0, true), (0x212, 1, 2, true)],
      let s := recorded x.1 x.2.1
      let bs := recordOf x.1 x.2.1
      (s.arenaRead (s.home s.party).space (s.party.recordAt (s.home s.party)) 1024).toOption = some bs ∧
        bs.length = 1024 ∧ ofBytes ((bs.drop 1).take 1) % 4 = x.2.2.1 ∧
        (BitVec.ofNat 64 (ofBytes ((bs.drop 0x28).take 8))).getLsbD 0 = x.2.2.2 ∧ s.party.hmode = true ∧
        s.party.inflight = []) ∧
    handled.party.hmode = false := by decide +kernel

theorem witness_DoubleInHandlerMode : inHandler.party.hmode = true := by decide +kernel

/-! ### Witnesses: memory -/

/-- A valid place of a global address, and one without a translation; the last bytes before the windows; extents. -/
theorem witness_AccessChecks :
    let ac := base.accessor
    let bad : State := { base with poison := [0x300000 / 64] }
    (windowOf 0x300000 = windowOf 0x300007 ∧ 0x300007 < 2 ^ 64 ∧ 0x300004 % 8 ≠ 0 ∧
      bad.poisonedPlace (.phys 0x300000 0) 8 = true ∧ (Rights.read.r && base.poisonedPlace (.phys 0x300000 0) 8) = false ∧
      windowOf 0xFFFBFFFFFFFFFFFC = .global ∧ windowOf (0xFFFBFFFFFFFFFFFC + 8 - 1) ≠ .global ∧
      windowOf (2 ^ 64 - 4) = .global ∧ 2 ^ 64 ≤ 2 ^ 64 - 4 + 8 - 1 ∧ ac.launch = some installLaunch ∧
      windowOf 0xFFFE000000000FF9 = .local_ ∧ installHeader.local_ < 0xFFFE000000000FF9 % 2 ^ 48 + 8 ∧
      windowOf 0xFFFC0000000000F9 = .private_ ∧ installHeader.private_ < 0xFFFC0000000000F9 % 2 ^ 48 + 8 ∧
      windowOf 0xFFFC0000000000F8 = .private_ ∧ 0xFFFC0000000000F8 % 2 ^ 48 + 8 ≤ installHeader.private_ ∧
      0x30FFFC / 65536 ≠ (0x30FFFC + 8 - 1) / 65536 ∧ base.holdsReg base.party 63 = false) ∧
    base.windowPlace ac (2 ^ 40) 8 .read = .error { cause := .translation } ∧
    base.windowPlace ac 0x300004 8 .read = .ok (.phys 0x300004 0) ∧
    bad.windowPlace ac 0x300000 8 .read = .ok (.phys 0x300000 0) ∧
    base.globalPlace ac.space 0x30FFFC .read = .ok (.phys 0x30FFFC 0) ∧
    base.globalPlace ac.space (0x30FFFC + 8 - 1) .read = .ok (.phys 0x310003 0) ∧
    ∀ need ∈ [Rights.read, .write], base.access ac 0x300004 8 8 need = .error { cause := .alignment } :=
  ⟨by decide +kernel, error_of (by decide +kernel), ok_of (by decide +kernel), ok_of (by decide +kernel),
    ok_of (by decide +kernel), ok_of (by decide +kernel), by
      intro need h
      simp only [List.mem_cons, List.not_mem_nil, or_false] at h
      rcases h with rfl | rfl <;> exact error_of (by decide +kernel)⟩

theorem witness_ScalarLoads :
    base.holdsReg base.party 63 = false ∧ base.unreachable (.phys 0x300000 0) = false ∧
    (∀ n ∈ [1, 2, 4, 8], (base.access base.accessor 0x300000 n n .read).toOption = some (.phys 0x300000 0)) ∧
    base.access base.accessor 0x300000 8 8 .read = .ok (.phys 0x300000 0) :=
  ⟨by decide +kernel, by decide +kernel, by decide +kernel, ok_of (by decide +kernel)⟩

/-- A store to memory and one to the group's scratchpad. -/
theorem witness_ScalarStores :
    (base.unreachable (.phys 0x300000 0) = false ∧ base.sameKey 0x300000 8 0 = true ∧ base.group? 1 0 = some installGroup ∧
      ∀ q ∈ base.parties, q.wait = none) ∧
    base.access base.accessor 0x300000 8 8 .write = .ok (.phys 0x300000 0) ∧
    base.access base.accessor 0xFFFE000000000FF8 8 8 .write = .ok (.spad 1 0 0xFF8) :=
  ⟨by decide +kernel, ok_of (by decide +kernel), ok_of (by decide +kernel)⟩

/-! ### Witnesses: waits and synchronisation -/

/-- A party whose deadline register 1 holds a deadline of the Lantern at 1,000 ticks. -/
def timed : State := { base with party := { base.party with dl := base.party.dl.set 1 1000 } }

/-- A group of two blocks of which this party's has arrived at barrier 0. -/
def arrivedAt0 : State :=
  let b : Barrier := { Barrier.fresh 64 with arrived := 1 }
  { timed with groups := [{ installGroup with leaf := b :: List.replicate 15 (Barrier.fresh 64) }] }

def anyWait (s : State) (kind : WaitKind) (dl : BitVec 2) : Wait := s.newWait kind (.waitf false 5 1 dl) 5 dl 0 0

def waits (a : Attempt) : Bool := match a with | .waiting => true | _ => false

def denies (a : Attempt) : Option (Deny × Word) := match a with | .trapped d x => some (d, x) | _ => none

theorem trapped_of {a : Attempt} {d : Deny} {x : Word} (h : denies a = some (d, x)) : a = .trapped d x := by
  cases a <;> simp_all [denies]

theorem waiting_of {a : Attempt} (h : waits a = true) : a = .waiting := by cases a <;> simp_all [waits]

/-- A status that is no expiry; an expiry that escalates by its esc bit; a wait that ends at once; one that waits, with and
without a poll. -/
theorem witness_WaitEnds :
    let w := anyWait timed .waitf 1
    let e := { w with deadline := { w.deadline with esc := true } }
    ((!w.deadline.poll && isExpiry 0 && (w.deadline.esc || false)) = false ∧
      (!e.deadline.poll && isExpiry stTimeout && (e.deadline.esc || false)) = true ∧ timed.party.offer = none ∧
      timed.party.raised = none ∧ (anyWait timed .fuse 1).deadline.poll = false ∧ (anyWait timed .fuse 0).deadline.poll = true ∧
      (anyWait timed .fuse 1).kind ≠ .barrier ∧ (anyWait arrivedAt0 .barrier 0).kind = .barrier ∧
      w.joins 0 = false ∧ (anyWait timed .fence 1).joins 0 = true) ∧
    arrivedAt0.attempt (anyWait arrivedAt0 .barrier 0) = .waiting ∧
    (∃ t st, timed.attempt w = .ended t st) ∧
    (∀ dl ∈ [(0 : BitVec 2), 1], timed.attempt (anyWait timed .fuse dl) = .waiting) ∧
    timed.attempt { anyWait timed .semacq 1 with w1 := 0x10000000000 } = .trapped { cause := .translation } 0x10000000000 := by
  refine ⟨by decide +kernel, waiting_of (by decide +kernel), ⟨_, _, rfl⟩, fun dl h => ?_, trapped_of (by decide +kernel)⟩
  simp only [List.mem_cons, List.not_mem_nil, or_false] at h
  rcases h with rfl | rfl <;> exact waiting_of (by decide +kernel)

/-- Leaf barrier 15 and cluster barrier 15, the latter with a block of another party missing. -/
theorem witness_BarrierArrivals :
    let s := setR base 5 15
    let c := setR base 5 31
    let two : Group := { installGroup with cleaf := List.replicate 16 (Barrier.fresh 64) }
    let mine (b : Barrier) : Barrier := { b with arrived := b.arrived ||| (c.party.blocks &&& b.member) }
    s.party.resident = true ∧ s.launch? s.party.launch = some installLaunch ∧
    s.group? s.party.launch s.party.group = some installGroup ∧
    installGroup.leaf[(s.party.reg 5).toNat % 16]? = some (Barrier.fresh 32) ∧ (s.party.reg 5).getLsbD 4 = false ∧
    two.cleaf[(c.party.reg 5).toNat % 16]? = some (Barrier.fresh 64) ∧ (c.party.reg 5).getLsbD 4 = true ∧
    (mine (Barrier.fresh 64)).member &&& ~~~(mine (Barrier.fresh 64)).arrived ≠ 0 ∧
    installGroup.cleaf[15]? = some (Barrier.fresh 32) ∧ (mine (Barrier.fresh 32)).member ≠ 0 ∧
    (mine (Barrier.fresh 32)).member &&& ~~~(mine (Barrier.fresh 32)).arrived = 0 ∧
    (Barrier.fresh 32).member &&& ~~~c.party.blocks = 0 ∧ (Barrier.fresh 64).member &&& ~~~c.party.blocks ≠ 0 ∧
    { Barrier.fresh 64 with arrived := 2 }.member &&& ~~~c.party.blocks &&& ~~~(2 &&& ~~~c.party.blocks) = 0 ∧
    c.party.group < installLaunch.header.groups ∧ installLaunch.header.w2 ≤ 3 ∧
    (Table.get [] installLaunch.roots (installLaunch.header.clusterOf c.party.group) = [] ∨
      (Table.get [] installLaunch.roots (installLaunch.header.clusterOf c.party.group)).length = 16) := by decide +kernel

theorem witness_BarrierWaits :
    (timed.party.hmode = false ∧ timed.holdsReg timed.party 63 = false) ∧
    timed.barrStands (timed.home timed.party) timed.party 15 = false ∧
    arrivedAt0.barrStands (arrivedAt0.home arrivedAt0.party) arrivedAt0.party 0 = true ∧
    (arrivedAt0.deadline 1).poll = false ∧
    (let t := timed.barrArrive (timed.home timed.party) timed.party 15
     t.barrStands (t.home t.party) t.party 15 = false) ∧
    (let s := { timed with groups := [{ installGroup with leaf := List.replicate 16 (Barrier.fresh 64) }] }
     let t := s.barrArrive (s.home s.party) s.party 0
     t.barrStands (t.home t.party) t.party 0 = true ∧
       (t.barrier (t.home t.party) t.party.group false 0).phase = (s.barrier (s.home s.party) s.party.group false 0).phase) := by
  decide +kernel

/-- A semaphore of 3 at s1: an acquire of 3, one of 4, and a watched value of 4. -/
theorem witness_Semaphores :
    let s := poke timed 0x300000 3
    let p : Place := .phys 0x300000 0
    (s.unreachable p = false ∧ s.party.hmode = false ∧ s.holdsReg s.party 63 = false ∧ s.valueAt p 8 = 3 ∧
      (s.deadline 1).poll = false ∧ BitVec.ofNat 64 (s.valueAt p 8) ≠ 4) ∧
    s.access s.accessor 0x300000 8 8 .update = .ok p ∧ s.access s.accessor 0x300000 8 8 .read = .ok p :=
  ⟨by decide +kernel, ok_of (by decide +kernel), ok_of (by decide +kernel)⟩

theorem witness_Fences : (timed.party.hmode = false ∧ timed.holdsReg timed.party 63 = false) ∧
    (∀ i, i < 6 → timed.pathDrained timed.party timed.party.lruns timed.ids i = true) ∧ timed.party.queue = [] := by
  decide +kernel

/-- A batch 256 ago, the last one that is not, and the open one. -/
theorem witness_FlagAndBatchWaits :
    let age (n : Nat) := (timed.party.openBatch - BitVec.ofNat 16 n).toNat
    (timed.party.hmode = false ∧ timed.holdsReg timed.party 63 = false) ∧ (0x800 : BitVec 12) ≠ 0 ∧
    timed.settersBusy timed.party 0x800 timed.party.lruns = false ∧ 256 ≤ age 0xFF01 ∧ age 0xFF02 < 256 ∧ age 1 < 256 ∧
    timed.batchBusy timed.party 0xFF02 timed.ids = false ∧
    isExpiry ((Table.get 0 timed.party.batches (0xFF02 % 256)).setWidth 64) = false ∧ timed.tasks = [] ∧
    (timed.party.openBatch + 1 - 256 : BitVec 16) = 0xFF02 := by decide +kernel

/-! ### Witnesses: SPLIT, FUSE, EXIT -/

/-- A group of 64 lanes in one party, and the same in two parties of which the upper waits in a FUSE. -/
def wide : State :=
  let s := withHeader base fun h => { h with width := 64 }
  { s with party := { s.party with width := 64 } }

def halves : State :=
  let s := withHeader base fun h => { h with parties := 2 }
  let q : Party := { s.party with pid := 4, slot := 1, first := 32 }
  let w := { s.newWait .fuse (.fuse false 5 0) 5 0 q.pc 0 with seq := 1 }
  { s with others := [{ q with wait := some w }] }

/-- The lower half waits, the upper one arrives, and a party of another group is present. -/
def upperArrives : State :=
  let s := withHeader base fun h => { h with parties := 2, groups := 2 }
  let w := { s.newWait .fuse (.fuse false 5 0) 5 0 s.party.pc 0 with seq := 1 }
  { s with party := { s.party with pid := 4, slot := 1, first := 32 }
           others := [{ s.party with pid := 6, group := 1, slot := 2 }, { s.party with wait := some w }] }

theorem witness_SplitDivides :
    wide.party.hmode = false ∧ wide.party.drained = true ∧ wide.party.spilled = 0 ∧ wide.party.width ≠ 32 ∧
    wide.freeSlot wide.party.core wide.party.quad = some 1 ∧ base.party.width = 32 := by decide +kernel

theorem witness_FuseJoins : ∀ s ∈ [halves, upperArrives],
    let p := s.party
    let own (x : Party) : Prop := x.regs.Pairwise (fun a b => a.1 < b.1) ∧
      ∀ e ∈ x.regs, x.first ≤ e.1 / 1024 ∧ e.1 / 1024 < x.first + x.width
    s.calm ∧ p.hmode = false ∧ ∃ q ∈ s.others, ∃ v, q.wait = some v ∧
      ((s.parties.map fun x => x.pid).Nodup ∧
        (∀ x ∈ s.others, x.pid ≠ q.pid → x.live = true → x.launch = p.launch → x.group = p.group →
          rangesMeet x.first x.width (p.first ^^^ p.width) p.width = false) ∧
        p.width = q.width ∧ 0 < p.width ∧ p.width < 1024 ∧ p.first ^^^ p.width = q.first ∧
        (p.first ^^^ p.width) + p.width ≤ (s.home p).header.lanes ∧
        (p.first + p.width = q.first ∨ q.first + q.width = p.first) ∧ own p ∧ own q ∧ q.launch = p.launch ∧ q.group = p.group ∧
        q.live = true ∧ q.evicted = false ∧ q.hmode = false ∧ v.kind = .fuse ∧ v.decided = none ∧ v.w1 = p.pc ∧ q.b = p.b ∧
        q.lo = p.lo ∧ p.spilled = 0 ∧ q.spilled = 0) := by
  intro s h
  simp only [List.mem_cons, List.not_mem_nil, or_false] at h
  rcases h with rfl | rfl
  · exact ⟨by unfold State.calm; decide +kernel, rfl, _, List.mem_singleton.mpr rfl, _, rfl, by decide +kernel⟩
  · exact ⟨by unfold State.calm; decide +kernel, rfl, _, .tail _ (List.mem_singleton.mpr rfl), _, rfl, by decide +kernel⟩

theorem witness_ExitEnds : base.party.hmode = false ∧ base.party.drained = true := by decide +kernel

/-! ### Witnesses: requests of the engines -/

def Issue.command {α : Type} : Issue α → Bool | .work _ => true | _ => false
def Issue.bad {α : Type} : Issue α → Bool | .malformed => true | _ => false
def Issue.trapping {α : Type} : Issue α → Option (Deny × Word) | .trap d a => some (d, a) | _ => none

theorem exists_work {α : Type} {x : Issue α} (h : Issue.command x = true) : ∃ w, x = .work w := by
  cases x <;> simp_all [Issue.command]
theorem malformed_of {α : Type} {x : Issue α} (h : Issue.bad x = true) : x = .malformed := by cases x <;> simp_all [Issue.bad]
theorem trap_of {α : Type} {x : Issue α} {d : Deny} {a : Word} (h : Issue.trapping x = some (d, a)) : x = .trap d a := by
  cases x <;> simp_all [Issue.trapping]

/-- Words from an address up. -/
def pokes (s : State) (a : Nat) (ws : List Nat) : State := ws.zipIdx.foldl (fun s w => poke s (a + 8 * w.2) w.1) s

/-- Layout record 0: one element of one byte; descriptors of a CPYT, a GATH, a SCAT and a gate, and of a collective of parts 0
and 1, 64 bytes apart; the last descriptor has a bad control word. -/
def described : State :=
  let s := pokes timed 0x130000 [0x10001, 0]
  let s := pokes s 0x300000 [0x301000, 0x302000, 0, 0]
  let s := pokes s 0x300040 [0x301000, 0x302000, 0x303000, 1 + 2 ^ 20]
  let s := pokes s 0x300080 [0x301000, 0x302000, 0x303000, 2 + 2 ^ 20]
  let s := pokes s 0x3000C0 [0, 0, 1, 3]
  let s := pokes s 0x300100 [0x301000, 0x302000, 0x304000, 0x18 + 2 ^ 10, 1, 1]
  let s := pokes s 0x304000 [0x10000]
  pokes s 0x300140 [0, 0, 0, 2 ^ 63]

theorem witness_EngineRequests_read :
    (described.party.hmode = false ∧ described.holdsReg described.party 63 = false ∧ ∀ q ∈ described.others, q.wait = none) ∧
    (∀ x ∈ [([0], (0x300000 : Word)), ([1], 0x300040), ([2], 0x300080), ([0, 1, 2], 0x300000), ([0, 1, 2, 3], 0x3000C0)],
      ∃ c, (described.readCommand x.1 x.2 0).2 = .work c) ∧
    (∀ x ∈ [([0], (0x300140 : Word)), ([0, 1, 2], 0x3000C0)], (described.readCommand x.1 x.2 0).2 = .malformed) ∧
    (described.readCommand [0] 0x10000000000 0).2 = .trap { cause := .translation } 0x10000000000 ∧
    (∃ c, (described.readCollective 0x300100 0).2 = .work c) ∧ (described.readCollective 0x300140 0).2 = .malformed ∧
    (described.readCollective 0x10000000000 0).2 = .trap { cause := .translation } 0x10000000000 := by
  refine ⟨by decide +kernel, fun x h => exists_work ?_, fun x h => malformed_of ?_, trap_of (by decide +kernel),
    exists_work (by decide +kernel), malformed_of (by decide +kernel), trap_of (by decide +kernel)⟩
  · revert x; decide +kernel
  · revert x; decide +kernel

/-- A command of one row that names no barrier, and one that names leaf barrier 15. -/
def oneRow (rbar : Option Nat) : Command := {
  id := 0, core := 0, launch := 1, group := 0, pid := 2, owners := [2], kind := 0, src := 0x301000, dst := 0x302000, aux := 0
  count := 0, slay := { Layout.none with rows := 1 }, dlay := { Layout.none with rows := 1 }, sparse := none, rbar := rbar
  rows := 1, cwaddr := 0x305000, cwval := 7, semaddr := 0, batch := 0, desc := 0x300000, progress := 0, held := []
  pred := none, executed := false, failed := none, offer := none, time := 0, loads := [], got := [], stores := []
  rowOpen := false, replay := false, stage := 0 }

/-- A collective of parts 0 and 1 that sums one .n32 element. -/
def twoParts : Collective := {
  id := 3, die := 0, launch := 1, group := 0, pid := 2, owners := [2], src := 0x301000, dst := 0x302000, members := [0, 1], kind := 0
  ty := .n32, op := 0, count := 1, tag := 0, timeout := 5, cwaddr := 0x305000, cwval := 7, instance_ := 0, acceptedAt := 0
  desc := 0x300100, failed := none, finished := false, offer := none, time := 0, allJoined := false, replay := false, plan := none }

/-- With and without an entry of the 64; with and without room in eexp; a poll and no poll. -/
theorem witness_EngineRequests_accept :
    let full : State := { timed with commands := List.replicate 64 (oneRow none) }
    let b : Barrier := Barrier.fresh 32
    let used (s : State) : Nat := (s.commands.filter fun c => c.core == s.party.core && c.kind != 3).length
    ((oneRow none).kind ≠ 3 ∧ (oneRow none).rbar = none ∧
      used { timed with commands := List.replicate 63 (oneRow none) } + 1 ≤ 64 ∧
      ¬ used full + 1 ≤ 64 ∧ full.acceptCommands full.party [oneRow none] = none ∧ (timed.deadline 1).poll = false ∧
      (timed.deadline 0).poll = true ∧ (oneRow (some 15)).rbar = some 15 ∧ 0 < (oneRow (some 15)).rows ∧
      timed.party.resident = true ∧ timed.launch? timed.party.launch = some installLaunch ∧
      timed.group? timed.party.launch timed.party.group = some installGroup ∧ installGroup.leaf[15]? = some b ∧
      { b with eexp := 2 ^ 24 - 2 }.eexp + 1 < 2 ^ 24 ∧ ¬ { b with eexp := 2 ^ 24 - 1 }.eexp + 1 < 2 ^ 24) ∧
    (∃ t, timed.acceptCollective timed.party twoParts = some t) :=
  ⟨by decide +kernel, _, rfl⟩

/-- A ring at 0x310000 of one slot of 256 bytes at 0x311000, whose slot is free for a put (`seq` 0) or full for a take
(`seq` 1), and queue 5 of context 1 that names it; `z` is the payload's size. -/
def ringed (seq z : Nat) : State :=
  let s := pokes timed 0x310000 [0x311000, 1, z, 0, 0]
  let s := pokes s 0x311000 [seq]
  let s := pokes s 0x60050 [0x310000, 2 ^ 12 + 1]
  { s with bar := { s.bar with qtbase := 0x60000 } }

def claimed : Except (Deny × Word) Claim → Option (State × Nat × Word × Word) | .ok (.slot t n a q) => some (t, n, a, q) | _ => none
def claimsFull : Except (Deny × Word) Claim → Bool | .ok .full => true | _ => false

theorem slot_of {x : Except (Deny × Word) Claim} (h : (claimed x).isSome = true) : ∃ t n a q, x = .ok (.slot t n a q) := by
  cases x with
  | error d => simp [claimed] at h
  | ok c => cases c with
    | full => simp [claimed] at h
    | slot t n a q => exact ⟨t, n, a, q, rfl⟩

theorem full_of {x : Except (Deny × Word) Claim} (h : claimsFull x = true) : x = .ok .full := by
  cases x with
  | error d => simp [claimsFull] at h
  | ok c => cases c <;> simp_all [claimsFull]

/-- What engine accesses come to, as facts that can be decided. -/
def reads (x : Except (Deny × Word) Span) (p : Span → Bool) : Bool := x.toOption.any p
def writes (x : Except (Deny × Word) Written) (p : Written → Bool) : Bool := x.toOption.any p

def smallRing : Ring := { base := 0x311000, n := 1, z := 256, e := 0, q := 0 }

/-- A put and a take that find their slot, with the copy granted. -/
theorem witness_RingCopies_slot :
    let s := ringed 0 256
    let u := ringed 1 256
    let a : Agent := {
      path := 1, unit := s.party.core, cmd := s.ids, pid := s.party.pid, owners := [s.party.pid], time := 0, replay := false }
    (s.party.hmode = false ∧ s.holdsReg s.party 63 = false ∧ (0x310000 : Word).toNat % 64 / 2 = 0 ∧ smallRing.ok = true ∧
      smallRing.z = 256 ∧ s.commands = [] ∧
      (∃ c ∈ { s with commands := [oneRow none] }.commands, c.pid = s.party.pid ∧ c.kind = 0) ∧
      s.queueRing (s.home s.party).space.ctx 5 = some 0x310000 ∧ windowOf (0x300000 : Word).toNat = .global ∧
      (reads (s.engineRead s.accessor a 0x300000 256 8) fun sp =>
        writes (s.engineWrite s.accessor a 0x311010 sp) fun w => (w.s.signalWord s.accessor a 0x311000 1).toBool) = true) ∧
    s.ring s.accessor 0x310000 = .ok smallRing ∧
    (∃ t n slot seq, s.claimPut s.party.agent 0 s.accessor 0x310000 smallRing = .ok (.slot t n slot seq)) ∧
    (∃ t n slot seq, u.claimTake u.party.agent 0 u.accessor 0x310000 smallRing = .ok (.slot t n slot seq)) :=
  ⟨by decide +kernel, ok_of (by decide +kernel), slot_of (by decide +kernel), slot_of (by decide +kernel)⟩

/-- A ring with no slot to claim; a bad ring; a ring address off its alignment; a queue that is not enabled. -/
theorem witness_RingCopies_none :
    let s := ringed 0 256
    let u := ringed 1 256
    ((s.deadline 1).poll = false ∧ (s.deadline 0).poll = true ∧ { smallRing with z := 8 }.ok = false ∧
      (0x310002 : Word).toNat % 64 / 2 ≠ 0 ∧ (0x31003E : Word).toNat % 64 / 2 ≠ 0 ∧
      s.queueRing (s.home s.party).space.ctx 6 = none ∧ (0x300008 : Word).toNat % 16 ≠ 0) ∧
    u.claimPut u.party.agent 0 u.accessor 0x310000 smallRing = .ok .full ∧
    s.claimTake s.party.agent 0 s.accessor 0x310000 smallRing = .ok .full ∧
    (ringed 0 8).ring (ringed 0 8).accessor 0x310000 = .ok { smallRing with z := 8 } :=
  ⟨by decide +kernel, full_of (by decide +kernel), full_of (by decide +kernel), ok_of (by decide +kernel)⟩

/-- A TLMUL task whose registers name the handles 0x320000 and up. -/
def mulTask : Task := {
  id := 0, core := 0, quad := 0, slot := 0, launch := 1, group := 0, first := 0, pid := 2, owners := [2], members := [2]
  op := 6, nvr := 2, batch := 0, vals := [0x320000, 0x320040, 0x320080, 0], ctl := 0, started := false, engine := 0
  head := none, fmt := 0, shape := 0, stage := .queued, offer := none, seq := 0, time := 0, released := false, unit := none
  replay := false }

/-- A task of the batch that TBAT would open again, and one of another batch. -/
def rebatched (batch : Nat) : State := { timed with tasks := [{ mulTask with batch := batch }] }

theorem witness_FlagAndBatchWaits_holds :
    let old (s : State) : Nat := (s.party.openBatch + 1 - 256 : BitVec 16).toNat
    (rebatched 0xFF02).holdsReg (rebatched 0xFF02).party 63 = false ∧
    (∃ t ∈ (rebatched 0xFF02).tasks, (rebatched 0xFF02).party.pid ∈ t.members ∧ t.batch = old (rebatched 0xFF02)) ∧
    ∀ t ∈ (rebatched 0).tasks, (rebatched 0).party.pid ∈ t.members → t.batch ≠ old (rebatched 0) := by decide +kernel

/-- A well-formed and a malformed task; a Gallery with its last record free, and without. -/
theorem witness_TileRequests :
    let room (s : State) : Bool := decide ((s.tasks.filter fun t => t.core == s.party.core).length < 256) && s.tableRoom mulTask
    (timed.party.hmode = false ∧ timed.holdsReg timed.party 63 = false) ∧ (∀ q ∈ timed.others, q.wait = none) ∧
    mulTask.wellFormed = true ∧ { mulTask with ctl := 2 ^ 46 }.wellFormed = false ∧
    room { timed with tasks := List.replicate 255 mulTask } = true ∧
    room { timed with tasks := List.replicate 256 mulTask } = false ∧ (timed.deadline 1).poll = false ∧
    (timed.deadline 0).poll = true := by decide +kernel

/-! ### Witnesses: lane instructions -/

/-- Two lanes are active, 0 and 31, and registers hold small numbers; `op` stands at the head of the queue. -/
def twoLanes : State :=
  let s := { base with party := { base.party with p := base.party.p.set 0 0x80000001 } }
  queued s

theorem issues {s : State} {op : LaneOp} {f : LaneF} (hq : s.party.queue = [blockOf s.party])
    (h : (s.party.laneFrozen = false ∧ op.check f = none ∧ op.inWindow f (s.home s.party).header.window = true ∧
      s.party.flagsAdmit f = true)) : s.laneIssues (blockOf s.party) op f := ⟨⟨[], hq⟩, h⟩

/-- A form of every lane instruction that R64 gives, one type each: the fields pass their checks. -/
def laneForms : List (LaneOp × LaneF) := [
  (.add, fields .i32 4 0 1 0 0), (.sub, fields .f64 4 0 2 0 0), (.mul, fields .c32 4 0 2 0 0), (.mulhi, fields .i64 4 0 2 0 0),
  (.mad, fields .n32 4 0 1 2 0), (.fma, fields .f16 4 0 1 2 0), (.min, fields .bf16 4 0 1 0 0), (.max, fields .n64 4 0 2 0 0),
  (.abs, fields .f32 4 0 0 0 0), (.neg, fields .c64 4 0 0 0 0), (.adds, fields .i32 4 0 1 0 0), (.subs, fields .n32 4 0 1 0 0),
  (.and, fields .b32 4 0 1 0 0), (.or, fields .n64 4 0 2 0 0), (.xor, fields .b32 4 0 1 0 0), (.andn, fields .b32 4 0 1 0 0),
  (.not, fields .b32 4 0 0 0 0), (.shl, fields .b32 4 0 1 0 0), (.shr, fields .b32 4 0 1 0 0), (.sra, fields .i64 4 0 2 0 0),
  (.popc, fields .b32 4 0 0 0 0), (.clz, fields .b32 4 0 0 0 0), (.brev, fields .b32 4 0 0 0 0), (.div, fields .f32 4 0 1 0 0),
  (.sqrt, fields .f32 4 0 0 0 0), (.rcp, fields .f32 4 0 0 0 0), (.rsqrt, fields .f32 4 0 0 0 0), (.exp2, fields .f32 4 0 0 0 0),
  (.log2, fields .f32 4 0 0 0 0), (.sin, fields .f16 4 0 0 0 0), (.cos, fields .bf16 4 0 0 0 0), (.rint, fields .f64 4 0 0 0 4),
  (.conj, fields .c32 4 0 0 0 0), (.cmp, fields .i32 7 0 1 0 21), (.sel, fields .b32 4 0 1 0 15), (.mov, fields .c64 4 0 0 0 0),
  (.cvt, fields .f32 4 0 0 0 2), (.shfl, fields .b32 4 0 1 0 3), (.bcast, fields .n64 4 0 2 0 0), (.red, fields .i32 4 0 0 0 0),
  (.scan, fields .n32 4 0 0 0 64), (.matchOp, fields .b32 4 0 0 0 0), (.vote, fields .b32 7 0 0 0 2),
  (.mma, fields .f64 8 0 4 0xC0 4), (.mmas, fields .f16 8 0 12 0xC0 4), (.mmab, fields .mx 16 0 4 8 0),
  (.ld, fields .f32 4 0x81 0 0 0), (.st, fields .c64 0x81 0 4 0 0), (.atom, fields .n32 4 0x81 0 5 0),
  (.ared, fields .n32 0x81 0 5 0 0), (.acas, fields .b32 4 0x81 0 6 0)]

theorem witness_LaneInstructionsComplete :
    (∀ x ∈ laneForms, twoLanes.party.laneFrozen = false ∧ x.1.check x.2 = none ∧
      x.1.inWindow x.2 (twoLanes.home twoLanes.party).header.window = true ∧ twoLanes.party.flagsAdmit x.2 = true) ∧
    (∀ x ∈ laneForms, twoLanes.laneIssues (blockOf twoLanes.party) x.1 x.2) ∧ twoLanes.party.redo = none ∧
    (∀ w, ((twoLanes.laneCtx (blockOf twoLanes.party) .mma (fields .f64 8 0 4 0xC0 4)).operands w 48 48).denied = [] ∧
      ((twoLanes.laneCtx (blockOf twoLanes.party) .mmas (fields .f16 8 0 12 0xC0 4)).operands w 48 96).denied = []) := by
  have h : ∀ x ∈ laneForms, twoLanes.party.laneFrozen = false ∧ x.1.check x.2 = none ∧
      x.1.inWindow x.2 (twoLanes.home twoLanes.party).header.window = true ∧ twoLanes.party.flagsAdmit x.2 = true := by
    decide +kernel
  exact ⟨h, fun x hx => issues rfl (h x hx), by decide +kernel, fun _ => ⟨rfl, rfl⟩⟩

/-- The last register a 64-bit result may fill in a window of 128, and the types of each clause. -/
theorem witness_LaneIntegerResults :
    twoLanes.party.recent = [] ∧ twoLanes.party.b + (twoLanes.home twoLanes.party).header.window ≤ 1024 ∧
    twoLanes.laneIssues (blockOf twoLanes.party) .add (fields .i64 126 124 122 0 0) ∧
    twoLanes.laneIssues (blockOf twoLanes.party) .and (fields .b32 127 126 125 0 0) ∧
    (Ty.isL .b32 = true ∧ Ty.isZ .i64 = true) :=
  ⟨by decide +kernel, by decide +kernel, issues rfl (by decide +kernel), issues rfl (by decide +kernel), by decide⟩

/-- Four active lanes under an order mode. -/
def fourLanes (nvr : Nat) : State :=
  queued { base with party := { base.party with p := base.party.p.set 0 0x80000111, nvr := nvr } }

theorem witness_LaneCrossResults :
    (∀ s ∈ [twoLanes, fourLanes 1, fourLanes 2], s.party.recent = [] ∧ s.party.redo = none ∧ s.party.width ≤ 1024 ∧
      s.party.b + (s.home s.party).header.window ≤ 1024) ∧
    (∀ x ∈ ([(.cmp, fields .n32 7 0 1 0 21), (.cmp, fields .f32 7 0 1 0 6), (.sel, fields .c64 4 0 4 0 15),
        (.shfl, fields .b32 4 0 1 0 3), (.bcast, fields .n64 4 0 2 0 0), (.red, fields .i32 4 0 0 0 5),
        (.scan, fields .n32 4 0 0 0 64), (.red, fields .f64 4 0 0 0 1), (.scan, fields .f16 4 0 0 0 66),
        (.matchOp, fields .b32 4 0 0 0 0), (.vote, fields .b32 7 0 0 0 2)] : List (LaneOp × LaneF)),
      twoLanes.laneIssues (blockOf twoLanes.party) x.1 x.2) ∧
    (∀ x ∈ ([(1, .red, fields .f32 4 0 0 0 0), (1, .scan, fields .f16 4 0 0 0 0), (2, .red, fields .f32 4 0 0 0 0),
        (2, .scan, fields .f64 4 0 0 0 64)] : List (Nat × LaneOp × LaneF)),
      let s := fourLanes x.1
      s.laneIssues (blockOf s.party) x.2.1 x.2.2 ∧ (blockOf s.party).nvr = x.1 ∧
        ((List.range s.party.width).filter fun l =>
          (s.laneCtx (blockOf s.party) x.2.1 x.2.2).active.getLsbD l) = [0, 4, 8, 31]) := by
  refine ⟨by decide +kernel, fun x hx => ?_, fun x hx => ?_⟩
  · refine issues rfl ?_
    revert x; decide +kernel
  · have h : ((fourLanes x.1).party.laneFrozen = false ∧ x.2.1.check x.2.2 = none ∧
        x.2.1.inWindow x.2.2 ((fourLanes x.1).home (fourLanes x.1).party).header.window = true ∧
        (fourLanes x.1).party.flagsAdmit x.2.2 = true) ∧
        (blockOf (fourLanes x.1).party).nvr = x.1 ∧ ((List.range (fourLanes x.1).party.width).filter fun l =>
          ((fourLanes x.1).laneCtx (blockOf (fourLanes x.1).party) x.2.1 x.2.2).active.getLsbD l) = [0, 4, 8, 31] := by
      revert x; decide +kernel
    exact ⟨issues rfl h.1, h.2⟩

theorem witness_LaneFloatResults :
    twoLanes.party.recent = [] ∧ twoLanes.party.b + (twoLanes.home twoLanes.party).header.window ≤ 1024 ∧ Ty.isF .f64 = true ∧
    twoLanes.laneIssues (blockOf twoLanes.party) .fma (fields .f64 4 0 2 6 0) ∧
    (twoLanes.laneCtx (blockOf twoLanes.party) .fma (fields .f64 4 0 2 6 0)).active.getLsbD 31 = true :=
  ⟨by decide +kernel, by decide +kernel, by decide, issues rfl (by decide +kernel), by decide +kernel⟩

theorem witness_ComplexAndConversionResults :
    twoLanes.party.recent = [] ∧ twoLanes.party.b + (twoLanes.home twoLanes.party).header.window ≤ 1024 ∧
    (∀ op ∈ [LaneOp.add, .sub, .neg, .conj, .mul, .fma, .div], ∀ ty ∈ [Ty.c32, .c64],
      let f := fields ty 8 0 (if op = .neg ∨ op = .conj then 0 else 4) (if op = .fma then 12 else 0) 0
      twoLanes.laneIssues (blockOf twoLanes.party) op f ∧ f.ty.isC = true) ∧
    (∀ x ∈ [(Ty.f32, 0), (.c64, 12), (.c32, 14), (.f64, 0xA2), (.i8, 0x92), (.n64, 0x94)],
      twoLanes.laneIssues (blockOf twoLanes.party) .cvt (fields x.1 4 0 0 0 x.2)) ∧
    (twoLanes.laneCtx (blockOf twoLanes.party) .mul (fields .c32 8 0 4 0 0)).active.getLsbD 31 = true := by
  have h : ∀ op ∈ [LaneOp.add, .sub, .neg, .conj, .mul, .fma, .div], ∀ ty ∈ [Ty.c32, .c64],
      let f := fields ty 8 0 (if op = .neg ∨ op = .conj then 0 else 4) (if op = .fma then 12 else 0) 0
      (twoLanes.party.laneFrozen = false ∧ op.check f = none ∧ op.inWindow f (twoLanes.home twoLanes.party).header.window = true ∧
        twoLanes.party.flagsAdmit f = true) ∧ f.ty.isC = true := by decide +kernel
  have g : ∀ x ∈ [(Ty.f32, (0 : BitVec 16)), (.c64, 12), (.c32, 14), (.f64, 0xA2), (.i8, 0x92), (.n64, 0x94)],
      let f := fields x.1 4 0 0 0 x.2
      twoLanes.party.laneFrozen = false ∧ LaneOp.cvt.check f = none ∧
        LaneOp.cvt.inWindow f (twoLanes.home twoLanes.party).header.window = true ∧ twoLanes.party.flagsAdmit f = true := by
    decide +kernel
  exact ⟨by decide +kernel, by decide +kernel, fun op ho ty ht => ⟨issues rfl (h op ho ty ht).1, (h op ho ty ht).2⟩,
    fun x hx => issues rfl (g x hx), by decide +kernel⟩

/-- Matrices of registers, and one of a scratchpad, where lane 31 holds elements 31 and 63. -/
theorem witness_MatrixResults :
    twoLanes.party.recent = [] ∧ twoLanes.party.redo = none ∧ twoLanes.party.part = none ∧
    twoLanes.party.b + (twoLanes.home twoLanes.party).header.window ≤ 1024 ∧
    (∀ x ∈ [(LaneOp.mma, fields .f64 8 0 4 0xC0 4), (.mma, fields .c32 8 0 4 0xC0 0x60), (.mma, fields .bf16 8 0x80 4 8 8),
        (.mmas, fields .f16 8 0 12 0xC0 4), (.mmab, fields .mx 16 0 4 8 0)],
      twoLanes.laneIssues (blockOf twoLanes.party) x.1 x.2) ∧
    (∀ w, ((twoLanes.laneCtx (blockOf twoLanes.party) .mma (fields .f64 8 0 4 0xC0 4)).operands w 48 48).denied = [] ∧
      ((twoLanes.laneCtx (blockOf twoLanes.party) .mma (fields .c32 8 0 4 0xC0 0x60)).operands w 48 48).denied = [] ∧
      ((twoLanes.laneCtx (blockOf twoLanes.party) .mmas (fields .f16 8 0 12 0xC0 4)).operands w 48 96).denied = []) ∧
    ((twoLanes.laneCtx (blockOf twoLanes.party) .mma (fields .bf16 8 0x80 4 8 8)).operands 0 48 48).denied = [] ∧
    ∀ op ∈ [LaneOp.mma, .mmas, .mmab], (twoLanes.laneCtx (blockOf twoLanes.party) op (fields .f64 8 0 4 0xC0 4)).active.getLsbD
      (63 % 32) = true := by
  have h : ∀ x ∈ [(LaneOp.mma, fields .f64 8 0 4 0xC0 4), (.mma, fields .c32 8 0 4 0xC0 0x60), (.mma, fields .bf16 8 0x80 4 8 8),
        (.mmas, fields .f16 8 0 12 0xC0 4), (.mmab, fields .mx 16 0 4 8 0)],
      twoLanes.party.laneFrozen = false ∧ x.1.check x.2 = none ∧
        x.1.inWindow x.2 (twoLanes.home twoLanes.party).header.window = true ∧ twoLanes.party.flagsAdmit x.2 = true := by
    decide +kernel
  exact ⟨by decide +kernel, by decide +kernel, by decide +kernel, by decide +kernel, fun x hx => issues rfl (h x hx),
    fun _ => ⟨rfl, rfl, rfl⟩, by decide +kernel, by decide +kernel⟩

/-! ### Witnesses: lane memory -/

/-- Lane 0 alone is active; s1 is 0x300000; buffer record 0 has an extent of one element at 0x300000. -/
def oneLane : State :=
  let s := pokes base 0x120000 [0x300000, 1, 0x3F80000000000000, 15, 0]
  queued { s with party := { s.party with p := s.party.p.set 0 1 } }

def laneIn (op : LaneOp) (f : LaneF) : LaneCtx := oneLane.laneCtx (blockOf oneLane.party) op f

theorem lane0_only {op : LaneOp} {f : LaneF} (h : (laneIn op f).active = 1) :
    ∀ l, (l < oneLane.party.width ∧ (laneIn op f).active.getLsbD l = true) ↔ l = 0 := by
  intro l
  rw [h]
  constructor
  · intro hl
    have := hl.2
    simp at this
    exact this
  · rintro rfl
    exact ⟨by decide +kernel, by decide +kernel⟩

def elementAt (e : Element) : Option Word := match e with | .at_ a _ => some a | _ => none
def elementOutside (e : Element) : Bool := match e with | .outside => true | _ => false
theorem at_of {e : Element} {a : Word} (h : elementAt e = some a) : ∃ rec, e = .at_ a rec := by
  cases e <;> simp_all [elementAt]
theorem outside_of {e : Element} (h : elementOutside e = true) : e = .outside := by cases e <;> simp_all [elementOutside]

/-- LD and ST of form 0 at s1, and through record 0 with index 0 (inside) and index 1 (outside); an unaligned ST. -/
theorem witness_LaneMemory_elements :
    let ld := fields .f32 4 0x81 0 0 0
    let st := fields .f32 0x81 0 4 0 0
    let inside := fields .f32 4 0 0xC2 0 0x8000
    let outside := fields .f32 0 0xC3 4 0 0x8000
    let odd := fields .f32 0x81 0 4 0 2
    (oneLane.party.recent = [] ∧ oneLane.party.redo = none ∧ oneLane.party.part = none ∧ oneLane.copies = [] ∧
      oneLane.party.b + (oneLane.home oneLane.party).header.window ≤ 1024) ∧
    oneLane.laneIssues (blockOf oneLane.party) .ld ld ∧ oneLane.laneIssues (blockOf oneLane.party) .ld inside ∧
    oneLane.laneIssues (blockOf oneLane.party) .st st ∧ oneLane.laneIssues (blockOf oneLane.party) .st outside ∧
    oneLane.laneIssues (blockOf oneLane.party) .st odd ∧
    (∀ l, (l < oneLane.party.width ∧ (laneIn .st st).active.getLsbD l = true) ↔ l = 0) ∧
    (∃ rec, (laneIn .ld ld).element 0 0x81 0 (laneIn .ld ld).theRecord = .at_ 0x300000 rec) ∧
    (∃ rec, (laneIn .ld inside).element 0 0 0xC2 (laneIn .ld inside).theRecord = .at_ 0x300000 rec) ∧
    (laneIn .st outside).element 0 0 0xC3 (laneIn .st outside).theRecord = .outside ∧
    (∃ rec, (laneIn .st st).element 0 0x81 0 (laneIn .st st).theRecord = .at_ 0x300000 rec) ∧
    oneLane.access ((laneIn .ld ld).accessor 0) 0x300000 4 4 .read = .ok (.phys 0x300000 0) ∧
    oneLane.access ((laneIn .st st).accessor 0) 0x300000 4 4 .write = .ok (.phys 0x300000 0) ∧
    oneLane.remote (.phys 0x300000 0) = false ∧
    (∃ rec, (laneIn .st odd).element 0 0x81 0 (laneIn .st odd).theRecord = .at_ 0x300002 rec) ∧
    oneLane.access ((laneIn .st odd).accessor 0) 0x300002 4 4 .write = .error { cause := .alignment } :=
  ⟨by decide +kernel, issues rfl (by decide +kernel), issues rfl (by decide +kernel), issues rfl (by decide +kernel),
    issues rfl (by decide +kernel), issues rfl (by decide +kernel), lane0_only (by decide +kernel), at_of (by decide +kernel),
    at_of (by decide +kernel), outside_of (by decide +kernel), at_of (by decide +kernel), ok_of (by decide +kernel),
    ok_of (by decide +kernel), by decide +kernel, at_of (by decide +kernel), error_of (by decide +kernel)⟩

/-- ATOM add, exchange and the three bitwise ones, ARED and ACAS, of lane 0 at s1. -/
theorem witness_LaneMemory_atomics :
    let at_ (imm : BitVec 16) (ty : Ty) := fields ty 4 0x81 0 6 imm
    let red (imm : BitVec 16) (ty : Ty) := fields ty 0x81 0 6 0 imm
    oneLane.laneIssues (blockOf oneLane.party) .atom (at_ 0 .n64) ∧ (at_ 0 .n64).ty.isZ = true ∧
    (at_ 0 .n64).imm.toNat / 256 % 8 = 0 ∧ oneLane.laneIssues (blockOf oneLane.party) .ared (red 0 .n64) ∧
    oneLane.laneIssues (blockOf oneLane.party) .atom (at_ 0x600 .f32) ∧ (at_ 0x600 .f32).imm.toNat / 256 % 8 = 6 ∧
    oneLane.laneIssues (blockOf oneLane.party) .atom (at_ 0x300 .b32) ∧
    oneLane.laneIssues (blockOf oneLane.party) .atom (at_ 0x500 .b32) ∧
    oneLane.laneIssues (blockOf oneLane.party) .ared (red 0x500 .b32) ∧ (at_ 0x300 .b32).ty.isL = true ∧
    (3 ≤ (at_ 0x300 .b32).imm.toNat / 256 % 8 ∧ (at_ 0x500 .b32).imm.toNat / 256 % 8 ≤ 5) ∧
    oneLane.laneIssues (blockOf oneLane.party) .acas (at_ 0 .b32) ∧
    (∀ l, (l < oneLane.party.width ∧ (laneIn .atom (at_ 0 .n64)).active.getLsbD l = true) ↔ l = 0) ∧
    (laneIn .atom (at_ 0 .n64)).address 0 0x81 0 8 = 0x300000 ∧
    oneLane.access ((laneIn .atom (at_ 0 .n64)).accessor 0) 0x300000 8 8 .update = .ok (.phys 0x300000 0) :=
  ⟨issues rfl (by decide +kernel), by decide, by decide, issues rfl (by decide +kernel), issues rfl (by decide +kernel),
    by decide, issues rfl (by decide +kernel), issues rfl (by decide +kernel), issues rfl (by decide +kernel), by decide,
    by decide, issues rfl (by decide +kernel), lane0_only (by decide +kernel), by decide +kernel, ok_of (by decide +kernel)⟩

theorem witness_LaneMemory_ordered :
    let at_ (imm : BitVec 16) (ty : Ty) := fields ty 4 0x81 0 6 imm
    let red (imm : BitVec 16) (ty : Ty) := fields ty 0x81 0 6 0 imm
    (∀ x ∈ [((0x100 : BitVec 16), Ty.n64), (0x200, .i32), (0, .f32), (0x100, .f32), (0x200, .f64)],
      oneLane.laneIssues (blockOf oneLane.party) .atom (at_ x.1 x.2) ∧ oneLane.laneIssues (blockOf oneLane.party) .ared (red x.1 x.2)) ∧
    Ty.isZ .n64 = true ∧ Ty.isZ .i32 = true ∧ Ty.isF .f64 = true ∧ (∀ q ∈ oneLane.parties, q.wait = none) := by
  have h : ∀ x ∈ [((0x100 : BitVec 16), Ty.n64), (0x200, .i32), (0, .f32), (0x100, .f32), (0x200, .f64)],
      ∀ y ∈ [(LaneOp.atom, fields x.2 4 0x81 0 6 x.1), (.ared, fields x.2 0x81 0 6 0 x.1)],
      oneLane.party.laneFrozen = false ∧ y.1.check y.2 = none ∧
        y.1.inWindow y.2 (oneLane.home oneLane.party).header.window = true ∧ oneLane.party.flagsAdmit y.2 = true := by
    decide +kernel
  exact ⟨fun x hx => ⟨issues rfl (h x hx _ (.head _)), issues rfl (h x hx _ (.tail _ (.head _)))⟩, by decide, by decide, by decide,
    by decide +kernel⟩

/-! ### Witnesses: events of a party -/

/-- A load of lanes 0 and 31 in flight with their ends. -/
def flight (ends : List (Nat × LaneEnd)) (remotes : Table Word) (denied : List (Nat × Deny × Word)) : State :=
  { base with party := { base.party with inflight := [{
      op := .ld, f := fields .f32 4 0x81 0 0 0, order := 1, boff := 0, lrun := 0x100000, ends := ends
      deadline := { party := false, ticks := 0, ceiling := false, poll := true, esc := false, sel := 0 }
      anyRemote := !remotes.isEmpty, late := 0, remotes := remotes, issuedAt := 7, denied := denied, lsWritten := [] }] } }

/-- A party in a wait. -/
def inWait (s : State) (w : Wait) : State := { s with party := { s.party with wait := some w } }

/-- Causes that wait for the boundary of the scalar stream: latched ones of either stream, a STUCK, and pending lane causes. -/
def causes (f : Party → Party) : State := { base with party := f base.party }
def laneCause (c : Cause) : Trap := { Trap.scalar c 0x100000 0 with src := 1, lane := true }
def scalarLatched : State := causes fun p => { p with raised := some (Trap.scalar .soft 0x100000 0, false) }
def laneLatched : State := causes fun p => { p with raised := some (laneCause .alignment, true) }
def laneStuck : State := causes fun p => { p with stucks := [laneCause .stuck] }
def laneFault (c : Cause) : State := causes fun p => { p with pendingLane := some (laneCause c) }
def laneFaultBusy : State :=
  causes fun p => { p with pendingLane := some (laneCause .alignment), inflight := (flight [(0, .ok)] [] []).party.inflight }

theorem witness_PartyEvents_lanes :
    (∀ s ∈ [flight [(0, .ok), (31, .fault .alignment)] [] [], flight [(0, .ok), (31, .ok)] [] [],
        flight [(0, .ok), (31, .poison)] [] []],
      ∃ i, s.party.inflight = [i] ∧ i.remotes = [] ∧ i.lsWritten = [] ∧ i.anyRemote = false ∧ (i.ends.map fun e => e.1).Nodup) ∧
    ([(0, LaneEnd.ok), (31, .fault .alignment)].find? fun e => match e.2 with | .fault c => c != .poison | _ => false) =
      some (31, .fault .alignment) ∧
    (let s := flight [(31, .remote)] [(31, 0x300000)] []
     (∃ i, s.party.inflight = [i] ∧ i.remotes ≠ [] ∧ i.denied = [] ∧ i.issuedAt = 7) ∧
       ({ s with lantern := 2 ^ 24 + 6 }.lantern - BitVec.ofNat 64 7).toNat < 2 ^ 24 ∧
       2 ^ 24 ≤ ({ s with lantern := 2 ^ 24 + 7 }.lantern - BitVec.ofNat 64 7).toNat) := by
  refine ⟨fun s hs => ?_, by decide, ⟨_, rfl, by decide, rfl, rfl⟩, by decide +kernel⟩
  simp only [List.mem_cons, List.not_mem_nil, or_false] at hs
  rcases hs with rfl | rfl | rfl <;> exact ⟨_, rfl, rfl, rfl, rfl, by decide⟩

theorem witness_PartyEvents_traps :
    (∀ s ∈ [scalarLatched, laneLatched, laneStuck, laneFault .translation, laneFault .alignment, laneFaultBusy],
      s.party.due = true ∧ s.withdrawWait.party.ready = true ∧ s.withdrawWait.party.wait = none ∧
        s.withdrawWait.party.stucks = s.party.stucks) ∧
    (laneLatched.party.laneBusy = false ∧ laneLatched.party.stucks = [] ∧ (laneCause .alignment).lane = true ∧
      (Trap.scalar .soft 0x100000 0).lane = false ∧ laneStuck.party.raised = none ∧ (laneFault .alignment).party.raised = none ∧
      (laneFault .alignment).party.stucks = [] ∧ (laneFault .alignment).party.laneBusy = false ∧
      laneFaultBusy.party.laneBusy = true ∧ base.party.due = false) := by decide +kernel

/-- A lane cause that was raised, and a STUCK that came first. -/
theorem witness_PartyEvents_stuck :
    let s : State := { laneLatched with party := { laneLatched.party with stucks := laneStuck.party.stucks } }
    s.party.due = true ∧ s.withdrawWait.party.ready = true ∧ s.withdrawWait.party.wait = none ∧ s.party.laneBusy = false ∧
    (∃ t sdec, s.party.raised = some (t, sdec) ∧ t.lane = true) ∧ s.party.stucks ≠ [] ∧
    s.withdrawWait.party.stucks = s.party.stucks :=
  ⟨by decide +kernel, by decide +kernel, by decide +kernel, by decide +kernel, ⟨_, _, rfl, by decide +kernel⟩, by decide +kernel,
    by decide +kernel⟩

/-- A wait that ends, one that goes on, and one whose deadline of 1,000 ticks has passed at tick 1,001. -/
theorem witness_PartyEvents_waits :
    let w := anyWait timed .waitf 1
    let f := anyWait timed .fuse 1
    let s := inWait timed w
    let t := inWait timed f
    let late : State := { t with lantern := 1001 }
    let a := { anyWait timed .semacq 1 with w1 := 0x10000000000 }
    ((s.party.wait = some w ∧ s.party.ready = true ∧ w.decided = none ∧ w.deadline.passed s s.party = false) ∧
      s.attempt w = .ended s 0 ∧ s.party.evicted = false) ∧
    (t.party.wait = some f ∧ t.party.ready = true ∧ f.decided = none ∧ f.deadline.passed t t.party = false ∧
      t.attempt f = .waiting) ∧
    ((inWait timed a).attempt a = .trapped { cause := .translation } 0x10000000000 ∧
      ({ cause := .translation } : Deny).cause ≠ .poison ∧ a.deadline.passed (inWait timed a) (inWait timed a).party = false) ∧
    (late.party.wait = some f ∧ late.party.ready = true ∧ f.claim = none ∧ f.deadline.passed late late.party = true) :=
  ⟨⟨by decide +kernel, rfl, rfl⟩, ⟨rfl, rfl, rfl, by decide +kernel, waiting_of (by decide +kernel)⟩,
    ⟨trapped_of (by decide +kernel), by decide +kernel⟩, ⟨rfl, by decide +kernel⟩⟩

/-! ### Witnesses: answers -/

/-- Ticket 0 of context 1 with its reply word at 0x330000, which holds an answer. -/
def asked (s : State) (who : Asker) (v : Nat) : State :=
  { poke (poke s 0x40020 0x330000) 0x330000 v with tickets := [{ ctx := 1, number := 0, asker := who }] }

/-- The fault of a scalar instruction, offered; that of a lane instruction, of a trap record's write, and one outside its
extent. -/
def offered : Offer := { trap := { Trap.scalar .translation 0x100000 0x100000 with addr := 0x10000000000 }, ticket := some 0 }
def offering (t : Trap) : State := causes fun p => { p with offer := some { offered with trap := t } }
def asking : State := offering offered.trap
def laneAsks : State :=
  { offering (laneCause .translation) with party := { (offering (laneCause .translation)).party with
      pendingLane := some (laneCause .translation) } }
def stopped : State := { base with party := { base.party with stopped := true, offer := some offered } }
def commandAsks : Command := { oneRow none with offer := some offered }
def answeredRow : Command := { commandAsks with executed := true }
def collectiveAsks : Collective := { twoParts with offer := some offered }
def taskAsks : Task := { mulTask with started := true, stage := .ended 0, offer := some offered }
/-- A task that overwrites its own block in place, of whose values one is written. -/
def taskWrites : Task :=
  let h : TileHead := { kind := 1, fmt := 0, shape := 0, rank := 0, cls := 1, pool := 0, gen := 0, block := 0x320000 }
  let old : List (Nat × Place × Nat) := [(0x320000, .phys 0x320000 0, 5), (0x320008, .phys 0x320008 0, 6)]
  { taskAsks with head := some h, stage := .commit 8 [(0x320008, 7)] (some h) none 0 old }
/-- CPYW past its claim, its copy made or not, whose fault is offered. -/
def ringAsks (copied : Bool) : State :=
  let w := { anyWait timed .cpyw 1 with claim := some { at_ := 0x311000, seq := 1, size := 256, copied := copied } }
  { inWait timed w with party := { (inWait timed w).party with offer := some offered } }
def awayAsks : State := { asking with party := { asking.party with evicted := true } }
def engineAsks : State := { base with commands := [commandAsks], collectives := [collectiveAsks], tasks := [taskAsks] }

theorem witness_Answers :
    (∀ x ∈ [(asking, Asker.party 2, 1), (asking, .party 2, 2), (asking, .party 2, 3), (laneAsks, .party 2, 1),
        (offering { offered.trap with ofRecord := true }, .party 2, 1), (offering { offered.trap with ofRecord := true }, .party 2, 2),
        (offering { offered.trap with extent := true }, .party 2, 1), (stopped, .stuck 2, 3),
        (awayAsks, .party 2, 1), (awayAsks, .party 2, 2), (ringAsks false, .party 2, 1), (ringAsks false, .party 2, 2),
        (ringAsks true, .party 2, 2), (engineAsks, .command 0, 1), (engineAsks, .command 0, 2), (engineAsks, .collective 3, 1),
        (engineAsks, .collective 3, 2), (engineAsks, .task 0, 1), (engineAsks, .task 0, 2)],
      let s := asked x.1 x.2.1 x.2.2
      (s.tickets.find? fun t => t.ctx == 1 && t.number == 0) = some { ctx := 1, number := 0, asker := x.2.1 } ∧
      s.replyAt 1 0 = some (installSpace, 0x330000) ∧ (s.load (accessorIn installSpace) 0x330000 8).toOption = some x.2.2 ∧
      ({ s with tickets := [] }.save (accessorIn installSpace) 0x330000 8 0).toBool = true) ∧
    (∀ s ∈ [asking, laneAsks], s.party.evicted = false ∧ s.party.wait = none ∧ s.party.ready = true) ∧
    (asking.party.offer = some offered ∧ offered.ofLane = false ∧ offered.trap.ofRecord = false ∧ offered.trap.extent = false ∧
      (laneAsks.party.offer.map Offer.ofLane) = some true ∧ laneAsks.party.pendingLane.isSome = true ∧
      stopped.party.evicted = false ∧
      ((asked stopped (.stuck 2) 3).arenaRead (stopped.home stopped.party).space
        (stopped.party.recordAt (stopped.home stopped.party) + 0x10) 8).toBool = true) ∧
    (awayAsks.party.evicted = true ∧ ∀ c ∈ [false, true], (ringAsks c).party.offer = some offered ∧
      (ringAsks c).party.pendingLane = none ∧ ((ringAsks c).party.wait.bind fun w => w.claim.map RingSlot.copied) = some c ∧
      (let free : State := { ringAsks c with party := { (ringAsks c).party with offer := none } }
       (free.signalWord (accessorOf (free.home free.party) free.party) free.ringAgent 0x311000 1).toBool = true)) ∧
    (engineAsks.commands.find? fun x => x.id == 0) = some commandAsks ∧ commandAsks.offer = some offered ∧
    (commandAsks.executed = false ∧ answeredRow.executed = true ∧ collectiveAsks.finished = false ∧
      { collectiveAsks with finished := true }.finished = true) ∧
    (∀ t ∈ [taskAsks, taskWrites], ∀ x ∈ { engineAsks with tasks := [t] }.tasks, x.id ≠ t.id → x.awaitsUnit = false) ∧
    (taskWrites.head.map TileHead.block) = some 0x320000 ∧
    (engineAsks.collectives.find? fun x => x.id == 3) = some collectiveAsks ∧ collectiveAsks.offer = some offered ∧
    (engineAsks.tasks.find? fun x => x.id == 0) = some taskAsks ∧ taskAsks.offer = some offered ∧ taskAsks.stage ≠ .queued := by
  decide +kernel

/-! ### Witnesses: events of the engines -/

theorem ok_with {ε α : Type} {x : Except ε α} {p : α → Prop} [DecidablePred p]
    (h : x.toOption.any (fun a => decide (p a)) = true) : ∃ a, x = .ok a ∧ p a := by
  cases x with
  | ok a => exact ⟨a, rfl, by simpa [Except.toOption] using h⟩
  | error e => simp [Except.toOption] at h

theorem exists_some {α : Type} {x : Option α} (h : x.isSome = true) : ∃ a, x = some a := by
  cases x with
  | some a => exact ⟨a, rfl⟩
  | none => simp at h

theorem ended_of {α : Type} {x : Except Stop α}
    (h : (match x with | .error (.ended _) => true | _ => false) = true) : ∃ st, x = .error (.ended st) := by
  match x, h with
  | .error (.ended st), _ => exact ⟨st, rfl⟩

/-- A party that waits for the acceptance of some work. -/
def requesting (w : Work) : State := inWait timed { anyWait timed .accept 1 with work := w }

theorem witness_EngineEvents_grants :
    ∀ x ∈ [requesting (.commands [oneRow none]), requesting (.task mulTask)],
      x.alone ∧ (x.party.live = true ∧ x.party.evicted = false ∧ x.turnAllows x.party.pid = true) ∧
      (∃ w, x.party.wait = some w ∧ w.kind = .accept ∧ w.decided = none ∧
        ((w.work = .commands [oneRow none] ∧ ∃ t, x.acceptCommands x.party [oneRow none] = some t) ∨
          (w.work = .task mulTask ∧ ∃ t, x.acceptTask x.party mulTask = some t))) := by
  intro x hx
  simp only [List.mem_cons, List.not_mem_nil, or_false] at hx
  rcases hx with rfl | rfl
  · exact ⟨by unfold State.alone; decide, by decide +kernel, _, rfl, rfl, rfl, .inl ⟨rfl, exists_some (by decide +kernel)⟩⟩
  · exact ⟨by unfold State.alone; decide, by decide +kernel, _, rfl, rfl, rfl, .inr ⟨rfl, exists_some (by decide +kernel)⟩⟩

/-- The command of one row of one byte in the queue, and executed. -/
def moving (c : Command) : State := { base with commands := [c] }
def executedRow (sem : Word) : Command := { oneRow none with executed := true, semaddr := sem }
/-- One row of two elements; an index list at 0x304000, all of whose words are 0. -/
def oneCount (kind : Nat) : Command :=
  let row : Layout := { Layout.none with rows := 1, cols := 2, pitch := 2 }
  { oneRow none with kind := kind, count := 1, aux := 0x304000, slay := row, dlay := row }

/-- A row that is read can be read, and the other written. -/
def rowMoves (s : State) (d : Command) (from_ : Option (List (Word × Nat))) (to_ : List (Word × Nat)) : Bool :=
  let ac := s.commandAccessor d
  match (match from_ with
    | some l => s.readRow ac d.agent l
    | none => .ok (to_.flatMap fun (e : Word × Nat) => List.replicate e.2 (0, false), d.time)) with
  | .ok (got, time) => (writeRow ac s { d.agent with time := time } to_ got).toBool
  | .error _ => false

theorem witness_EngineEvents_commands :
    (∀ k ∈ [0, 1, 2],
      let c := oneCount k
      let s := moving c
      (s.commands.find? fun x => x.id == c.id) = some c ∧ s.mayStart c = true ∧ (c.kind = k ∧ c.sparse = none ∧ c.rows = 1 ∧
        c.count = 1 ∧ c.progress = 0 ∧ c.rowOpen = false ∧ c.loads = [] ∧ c.stores = [] ∧ c.got = [] ∧ c.held = []) ∧
      ((s.readRow (s.commandAccessor c) c.agent [(c.aux, 4)]).toOption.any fun r =>
        ofBytes ((r.1.take 4).map Prod.fst) == 0 && !r.1.any Prod.snd) = true ∧
      0 < c.slay.shape.1 ∧ 0 < c.dlay.shape.1 ∧
      rowMoves s c (some (c.slay.rowEvents c.src 0)) (c.dlay.rowEvents c.dst 0) = true ∧
      rowMoves s c none (c.dlay.rowEvents c.dst 0) = true ∧ rowMoves s c (some (c.slay.rowEvents c.src 0)) [] = true) ∧
    ∀ c ∈ [executedRow 0, executedRow 0x305040],
      ((moving c).commands.find? fun x => x.id == c.id) = some c ∧ (moving c).mayStart c = false ∧ c.executed = true ∧
      c.offer = none ∧
      (((moving c).signalWord ((moving c).commandAccessor c) c.agent c.cwaddr c.cwval.toNat).toOption.any fun u =>
        (u.1.release ((moving c).commandAccessor c) { c.agent with time := u.2 + 1 } 0x305040 1).toOption.any fun v =>
          v.1.commands.all fun x => x.pred != some c.id) = true := by decide +kernel

/-- A launch with one pool, and tasks in its Gallery: a TLNEW, one before Flowstone, and ones that ended. -/
def pooled (t : Task) : State :=
  { withHeader base fun h => { h with pools := [{ base := 0x1000000, nchunks := 1, state := 0x330000 }] } with tasks := [t] }
def newTile : Task := { mulTask with op := 0, vals := [0x320000] }
def flowing (unit : Option Nat) : Task := { mulTask with started := true, stage := .flow [] [], unit := unit }
def done_ (st : Word) : Task := { mulTask with started := true, stage := .ended st }

theorem witness_EngineEvents_tasks :
    (let s := pooled newTile
     let r : Task := { newTile with started := true, engine := 3 }
     s.engineIdle 3 = true ∧ s.nextTask 3 = some newTile ∧ ((s.putTask r).engineWork r).toBool = true ∧ base.nextTask 3 = none) ∧
    (let t := flowing none
     t ∈ (pooled t).tasks ∧ ((pooled t).tasks.map fun x => x.id).Nodup ∧
        ∀ x ∈ (pooled t).tasks, x.awaitsUnit = true ↔ x = t) ∧
    (let t := flowing (some 0)
     ((pooled t).tasks.find? fun x => x.id == t.id) = some t ∧ t.stage = .flow [] [] ∧ t.unit = some 0) := by decide +kernel

/-- A task whose operands differ in format ends at once, its status that of R242. -/
theorem witness_EngineEvents_fails :
    let s := poke (pooled mulTask) 0x320040 4
    let r : Task := { mulTask with started := true, engine := 3 }
    s.engineIdle 3 = true ∧ s.nextTask 3 = some mulTask ∧ ∃ st, (s.putTask r).engineWork r = .error (.ended st) :=
  ⟨by decide +kernel, by decide +kernel, ended_of (by decide +kernel)⟩

/-- A task with a result for a destination, which holds a block of a class or is zero; `node` is the state of its pool's chunk. -/
def resulting (node : Nat) (head : Option TileHead) (v : TileVal) : State × Task :=
  let t : Task := { mulTask with started := true, head := head, stage := .result v [] [] 0 }
  let s := pooled t
  ({ s with mem := writeBytes s.mem 0x330000 (toBytes 64 node) }, t)

def heading (kind cls : Nat) : TileHead :=
  { kind := kind, fmt := 0, shape := 0, rank := 0, cls := cls, pool := 0, gen := 0, block := 0x1000000 }

def wholeTaken : Nat := setNode 0 1 2
def small : TileVal := .dense [1, 2]
def need : Nat := mulTask.needClass small

/-- The writes of a result to `block` are granted, and the freeing of the old block. -/
def tileStores (t : Task) (s0 : State) (t0 : Task) (h : TileHead) (v : TileVal) (block : Word) (cls : Nat)
    (freed : Bool) : Bool :=
  let e := (tileTy t.fmt).bytes
  let cells := v.elements.zipIdx.flatMap fun x => elementWrites e (block + BitVec.ofNat 64 (x.2 * e)) x.1
  let new : TileHead := { h with kind := v.kind, rank := v.rank, cls := cls, gen := h.gen + 1, block := block }
  let old := if h.kind ≠ 0 ∧ block = h.block then s0.standing t0 (Nat.min e 8) cells else []
  let s1 := s0.putTask { t0 with
    stage := .commit (Nat.min e 8) cells (some new) (if freed then some (h.block, h.cls) else none) 0 old }
  (s0.windowSpan (s0.taskAccessor t0) (t.val 0).toNat 64 .write).toBool &&
  (!freed || ((s0.poolOf t0 h).nodeOf h.block h.cls).all fun y =>
    (s0.chunkPlace (s0.taskAccessor t0) ((s0.poolOf t0 h).stateAt y.1) .update).toBool) &&
  (cells.isEmpty || (s0.windowSpan (s0.taskAccessor t0) block.toNat 1 .write).toBool) &&
    writes (writeCells (s1.taskAccessor t) (Nat.min e 8) s1 t0.agent cells) (fun c => !c.lost &&
      writes (c.s.engineWrite (c.s.taskAccessor t) { t0.agent with time := c.time } (t.val 0) (Span.clean
        (Machine.headerBytes v.kind t.fmt t.shape v.rank cls h.pool (h.gen + 1) t.batch block) c.time)) fun d => !d.lost &&
          (!freed || (d.s.freeBlock { t0.agent with time := d.time } (d.s.taskAccessor t) (d.s.taskLaunch t) (d.s.poolOf t new)
            h.block h.cls).toOption.join.isSome))

def blockOfTask (x : State × Task) (h : TileHead) : Except (Deny × Word) (Option (State × Nat × Word)) :=
  x.1.requestBlock x.2.agent (x.1.taskAccessor x.2) (x.1.poolOf x.2 h) need

theorem witness_EngineEvents_retire (st : Word) :
    (((pooled (done_ st)).tasks.find? fun x => x.id == (done_ st).id) = some (done_ st) ∧ (done_ st).stage = .ended st ∧
      (done_ st).offer = none) ∧
    (let t : Task := { mulTask with stage := .image 8 [(0x305000, 9), (0x305008, 7)] }
     let s := pooled t
     (s.tasks.find? fun x => x.id == t.id) = some t ∧ t.offer = none ∧
       (writes (writeCells (s.taskAccessor t) 8 s t.agent [(0x305000, 9), (0x305008, 7)]) fun w => !w.lost) = true) ∧
    (let x := resulting 0 none small
     x.2.head = none ∧ (writes (x.1.engineWrite (x.1.taskAccessor x.2) x.2.agent (x.2.val 0) (Span.clean
       (Machine.headerBytes 0 x.2.fmt x.2.shape 0 0 (bitsOf x.2.ctl.toNat 8 3) 0 x.2.batch 0) x.2.time)) fun d => !d.lost) = true) ∧
    (done_ st).members = [(pooled (done_ st)).party.pid] ∧ (pooled (done_ st)).party.evicted = false ∧
    (∀ y ∈ (pooled (done_ st)).tasks, (pooled (done_ st)).depends y (done_ st) = false) :=
  ⟨⟨rfl, rfl, rfl⟩, by decide +kernel, by decide +kernel, rfl, rfl, by
    intro y hy
    rw [List.mem_singleton.mp hy]
    simp [State.depends]⟩

/-- A zero that frees the old block; a result in its old block; one in a new block, the old one freed or none held; one that
stays in its larger block where the pool has none; and one for which there is no block. -/
theorem witness_EngineEvents_places :
    (let x := resulting wholeTaken (some (heading 1 7)) .zero
     (x.1.tasks.find? fun y => y.id == x.2.id) = some x.2 ∧ x.2.offer = none ∧ x.2.requests (heading 1 7) .zero = false ∧
       tileStores x.2 x.1 x.2 (heading 1 7) .zero 0 0 true = true) ∧
    (let h := heading 1 need
     let x := resulting 0 (some h) small
     small.kind ≠ 0 ∧ x.2.needClass small = need ∧ x.2.requests h small = false ∧
       tileStores x.2 x.1 x.2 h small h.block h.cls false = true) ∧
    (let h := heading 0 0
     let x := resulting 0 (some h) small
     x.2.requests h small = true ∧ x.1.requestsWait x.2 = false ∧ ((blockOfTask x h).toOption.any fun y => y.any fun z =>
       tileStores x.2 z.1 { x.2 with time := z.2.1 } h small z.2.2 need false) = true) ∧
    (let h := heading 1 7
     let x := resulting wholeTaken (some h) small
     need < 7 ∧ x.1.requestsWait x.2 = false ∧ (blockOfTask x h).toOption = some none ∧
       tileStores x.2 x.1 x.2 h small h.block h.cls false = true) ∧
    (let h := heading 0 0
     let x := resulting wholeTaken (some h) small
     (blockOfTask x h).toOption = some none ∧ x.1.requestsWait x.2 = false ∧ (mulTask.bit 39 = false)) := by decide +kernel

/-- A chunk of which node 1, the whole chunk, is retiring. -/
def leaving : Retiring := { launch := 1, space := installSpace, state := 0x330000, node := 1, block := 0x1000000, tasks := [] }
def quiet : State := { base with retiring := [leaving] }

theorem witness_EngineEvents_quiescence :
    (base.retiring = [] ∧ quiet.retiring = [leaving] ∧ ∀ x ∈ quiet.tasks, x.id ∉ leaving.tasks) ∧
    ((quiet.chunkState (accessorIn leaving.space) leaving.state).toOption.any fun w =>
      (quiet.setChunk { Agent.part with path := 3 } (accessorIn leaving.space) leaving.state
        (mergeUp (setNode w leaving.node 0) leaving.node 7)).toBool) = true := by decide +kernel

/-- R310, R318: after an ordinary store the copy of a path still serves a command of that path up to its lease of 256, and no
command of a later time or of another path. -/
theorem test_engine_copy :
    let p : Place := .phys 0x1000 0
    let a : Agent := { Agent.part with path := 3, cmd := 1 }
    let s := (base.fillCopy a p 128).store p [9]
    (s.agentRead a 1 p 1).bytes = [0] ∧ (s.agentRead { a with time := 256 } 1 p 1).bytes = [0] ∧
    (s.agentRead { a with time := 257 } 1 p 1).bytes = [9] ∧ (s.agentRead { a with path := 2 } 1 p 1).bytes = [9] := by
  decide +kernel

/-- R217, R301: a command of two rows of one element, whose first row starts, is read, is written and ends, leaves the other
for later. -/
theorem test_some_rows :
    let c : Command := { oneRow none with
      rows := 2, slay := { Layout.none with rows := 2, pitch := 1 }, dlay := { Layout.none with rows := 2, pitch := 1 } }
    (((moving c).moveSome 0 4).commands.map fun x => (x.progress, x.rows, x.executed)) = [(1, 2, false)] := by decide +kernel

/-- R321, R332: a store through a page of policy 2 is seen by the host port, whatever copy the port has; one through a page of
policy 0 need not be. -/
theorem test_direct_store :
    let seen (home : Nat) : List Byte :=
      let p : Place := .phys 0x1000 0 home
      (((base.fillCopy .host p 8).store p [9]).agentRead .host 8 p 1).bytes
    seen 2 = [9] ∧ seen 0 = [0] := by decide +kernel

/-- R222, R301: CPYW claims its slot, copies one event of eight bytes of the payload, and has not written its sequence word. -/
theorem test_some_ring :
    let s := setR (setR (poke (ringed 0 256) 0x300000 7) 4 0x310000) 5 0x300000
    let t (n : Nat) : Option State := match startCpyw State.startClaim false 63 4 1 5 s with
      | .next u => u.party.wait.bind fun w => w.claim.map fun r => u.fillSome u.accessor w r n
      | _ => none
    ((t 1).map fun u => (u.valueAt (.phys 0x311010 0) 8, u.valueAt (.phys 0x311000 0) 8,
      u.party.wait.bind fun w => w.claim.map RingSlot.moved)) = some (7, 0, some 8) := by decide +kernel

/-- R301, R373: the second element of src read after a store between the two reads. -/
theorem test_some_src :
    let c : Collective := { twoParts with kind := 1, count := 2 }
    let s : State := { poke base 0x301000 5 with collectives := [c] }
    let t := (poke (s.collectiveSome 3 [] 1) 0x301000 (6 + 2 ^ 32 * 8)).collectiveSome 3 [] 1
    (t.collectives.map fun x => x.got.map fun b => b.1) = [[5, 0, 0, 0, 8, 0, 0, 0]] := by decide +kernel

/-! ### Witnesses: the front end -/

/-- The header of a launch as R344 lays it out: one group of one party of width 32 and depth 8, without extension. -/
def launchHeader : List Byte :=
  ([0x100000, 0x110000, 0, 0x300000, 5, 0x8010, 0x4000000001, 0x200000, 0, 0, 0, 0, 0, 0, 0x20, 0] : List Nat).flatMap (toBytes 8) ++
    List.replicate 128 0

/-- Queue 5 of context 1 with a slot that holds a header, none of the launches in the part. -/
def withQueueSlot (z : Nat) (bs : List Byte) : State :=
  let s := ringed 1 z
  { s with launches := [], mem := writeBytes s.mem 0x311010 bs }

def takes (s : State) (bs : List Byte) : Bool :=
  match s.claimTake .part 0 (accessorIn installSpace) 0x310000 smallRing with
  | .ok (.slot t _ slot seq) => (t.arenaRead installSpace (slot + 16).toNat 256).toOption == some bs &&
      (t.save (accessorIn installSpace) slot 8 seq.toNat).toBool
  | _ => false

theorem takes_of {s : State} {bs : List Byte} (h : takes s bs = true) : ∃ t time slot seq u,
    s.claimTake .part 0 (accessorIn installSpace) 0x310000 smallRing = .ok (.slot t time slot seq) ∧
      t.arenaRead installSpace (slot + 16).toNat 256 = .ok bs ∧ t.save (accessorIn installSpace) slot 8 seq.toNat = .ok u := by
  unfold takes at h
  split at h
  · next t time slot seq e =>
    simp only [Bool.and_eq_true, beq_iff_eq] at h
    obtain ⟨u, hu⟩ := exists_ok h.2
    exact ⟨t, time, slot, seq, u, e, ok_of h.1, hu⟩
  · simp at h

/-- A header that is taken, and one of zeros, which is refused; a ring of another payload. -/
theorem witness_FrontEndEvents_take :
    (∀ x ∈ [(launchHeader, true), (List.replicate 256 0, false)],
      let s := withQueueSlot 256 x.1
      (s.queueOf 5 = some (1, 0x310000) ∧ s.held = false ∧ s.served 1 = true ∧ s.spaceOf 1 = some installSpace ∧
        (s.launches.any fun l => l.queue == 5 && l.placed == 0) = false) ∧
      (s.ring (accessorIn installSpace) 0x310000).toOption = some smallRing ∧ (smallRing.ok = true ∧ smallRing.z = 256) ∧
      takes s x.1 = true ∧ needsExt x.1 = false ∧ (refusals x.1 [] false).isEmpty = x.2) ∧
    (∃ r, (withQueueSlot 512 launchHeader).ring (accessorIn installSpace) 0x310000 = .ok r ∧ r.z ≠ 256) :=
  ⟨by decide +kernel, ok_with (by decide +kernel)⟩

/-- A launch whose first group waits, one whose groups have ended, and the latter with a completion word. -/
def unplaced : State := { base with
  launches := [{ installLaunch with placed := 0, clusters := [], roots := [] }], groups := [], party := Party.blank }
def overlong (d : Word) : State :=
  { withHeader base fun h => { h with done := d } with groups := [{ installGroup with ended := true }] }

/-- The launch that waits, its groups too large for a core's scratchpad. -/
def tooLarge : State :=
  { unplaced with launches := unplaced.launches.map fun l => { l with header := { l.header with local_ := 2 ^ 30 } } }

/-- The front end's choice is core 0 and quad 0 of cluster 0, where all lanes are free, for a group that fits there and as the
target of one that fits nowhere; a target on core 127 is the place of a group that fits there. -/
theorem witness_FrontEndEvents_placement :
    let s := unplaced
    let l : Launch := { installLaunch with placed := 0, clusters := [], roots := [] }
    let x : Launch := { l with header := { l.header with local_ := 2 ^ 30 } }
    let t : Launch := { l with targets := [(127, [3])] }
    (s.launch? l.id = some l ∧ s.held = false ∧ s.awaitsPlacement l = true ∧ s.overtaken l = false ∧
      l.header.replay = false ∧ l.targets = [] ∧ s.placeFor l = some (0, [0]) ∧ ((0, [0]) : Nat × List Nat) ≠ (1, [0])) ∧
    (1 < 128 ∧ s.clusterAllowed l (1 / 8) = true ∧ s.coreRoom l.header 1 = true ∧
      (s.quadsFor l .free 1 l.header.parties []).isSome = true) ∧
    (tooLarge.launch? x.id = some x ∧ tooLarge.held = false ∧ tooLarge.awaitsPlacement x = true ∧
      tooLarge.overtaken x = false ∧ tooLarge.placeFor x = none ∧ tooLarge.targetFor x = some (0, [0])) ∧
    (let u : State := { tooLarge with launches := [{ x with targets := [(0, [0])] }] }
     u.launch? x.id = some { x with targets := [(0, [0])] } ∧ u.awaitsPlacement { x with targets := [(0, [0])] } = true ∧
       u.overtaken { x with targets := [(0, [0])] } = false ∧ u.placeFor { x with targets := [(0, [0])] } = none) ∧
    (s.clusterAllowed t (clusterOfCore 127) = true ∧ s.fits t.header 127 [3] = true) ∧
    l.since + 2 ^ 20 ≤ { s with lantern := 0x100000 }.lantern.toNat ∧ { s with lantern := 0x100000 }.awaitsPlacement l = true := by
  decide +kernel

/-- A launch with one entry, which holds now and did not before. -/
theorem witness_FrontEndEvents_entries :
    let h : Header := { installHeader with after := [(0x300000, 0)] }
    let l : Launch := { installLaunch with placed := 0, header := h, met := [false] }
    let s : State := { unplaced with launches := [l] }
    (s.launch? l.id = some l ∧ l.placed = 0 ∧ s.readEntries l.space l.header.after = some [true] ∧
      l.header.after[0]? = some (0x300000, 0) ∧ l.met[0]? = some false) ∧
    s.access (accessorIn l.space) 0x300000 8 8 .read = .ok (.phys 0x300000 0) :=
  ⟨by decide +kernel, ok_of (by decide +kernel)⟩

theorem witness_FrontEndEvents_ends :
    let l (d : Word) : Launch := { installLaunch with header := { installHeader with done := d } }
    let bad : State := { overlong 0x305000 with poison := [0x305040 / 64] }
    ((overlong 0).launch? 1 = some (l 0) ∧ (overlong 0).launchOver (l 0) = true ∧ (l 0).header.done = 0) ∧
    (∀ s ∈ [overlong 0x305000, bad], s.launch? 1 = some (l 0x305000) ∧ s.launchOver (l 0x305000) = true ∧
      (l 0x305000).header.done ≠ 0 ∧
      (s.writePlaceOf (accessorIn installSpace) 0x305000 8 .write).toOption = some (.phys 0x305000 0)) ∧
    ((overlong 0x305000).poisonedPlace (Place.phys 0x305000 0).line 128 = false ∧
      bad.poisonedPlace (Place.phys 0x305000 0).line 128 = true) ∧
    base.launchOver installLaunch = false := by decide +kernel

/-! ### Witnesses: replay launches -/

/-- A replay launch of two parties that waits for placement, and one that is too large. -/
def replayLaunch (size : Nat) : Launch :=
  { installLaunch with
      placed := 0, clusters := [], roots := [], header := { installHeader with replay := true, parties := 2, depth := 8, local_ := size } }
def replaying (size : Nat) : State := { unplaced with launches := [replayLaunch size] }

theorem witness_ReplayLaunches_placement :
    (∀ n ∈ [0, 2 ^ 30], let s := replaying n
      s.launch? 1 = some (replayLaunch n) ∧ (replayLaunch n).header.replay = true ∧ s.held = false ∧
      s.awaitsPlacement (replayLaunch n) = true ∧ s.overtaken (replayLaunch n) = false ∧ (replayLaunch n).placed = 0 ∧
      ∀ p ∈ s.parties, p.launch ≠ 1 ∧ p.pid < s.ids) ∧
    (replaying (2 ^ 30)).placeReplay (replayLaunch (2 ^ 30)) = none ∧
    ∃ t, (replaying 0).placeReplay (replayLaunch 0) = some t :=
  ⟨by decide +kernel, Option.isNone_iff_eq_none.mp (by decide +kernel), Option.isSome_iff_exists.mp (by decide +kernel)⟩

/-- Two parties in rotation, whose turn is the second's, or the first's. -/
def rotating (turn : Nat) (f : Party → Party) : State :=
  { base with launches := [{ installLaunch with turn := turn, turnUsed := true, header := { installHeader with replay := true } }]
              party := f base.party, others := [{ base.party with pid := 4, first := 32 }] }

theorem witness_ReplayLaunches_turns :
    let l (turn : Nat) : Launch :=
      { installLaunch with turn := turn, turnUsed := true, header := { installHeader with replay := true } }
    (∀ turn ∈ [2, 4], (rotating turn id).launch? 1 = some (l turn) ∧ 0 < (l turn).placed ∧
      (rotating turn id).turnOver (l turn) = true ∧ ((rotating turn id).party? turn).isSome = true) ∧
    ((rotating 2 id).nextTurn (l 2)).map Party.pid = some 4 ∧ ((rotating 4 id).nextTurn (l 4)).map Party.pid = some 2 ∧
    (∀ f ∈ [fun p : Party => { p with evicted := true }, fun p => { p with stopped := true }, fun p => { p with life := .halted }],
      (rotating 2 f).party? 2 = some (f base.party)) ∧
    (rotating 2 fun p => { p with evicted := true }).turnOver (l 2) = false := by decide +kernel

/-! ### Witnesses: eviction, context commands, the host port -/

/-- A party of depth 8 that yielded in a context that is suspended; and the same, away with its record saved and with a wait,
once the context was resumed. -/
def parked : State :=
  let s := withHeader base fun h => { h with depth := 8, local_ := 0 }
  { s with contexts := [{ index := 1, state := 2, cmd := some 4, seen := (0x40000, 0), begun := true }]
           party := { s.party with yielded := true, fresh := 8 } }
def awayWith (f : Party → Party) : State :=
  let p := f parked.party
  let at_ := (parked.home p).header.partyRecordAt p.group p.first
  { parked with mem := writeBytes parked.mem at_ (p.fixedImage ++ p.batchImage), party := { p with evicted := true }
                contexts := [{ index := 1, state := 1, cmd := none, seen := (0x40000, 0), begun := false }] }
def away : State := awayWith id
def recordLine : Nat := (parked.home parked.party).header.saveAt 0 / 64

theorem witness_EvictionAndRestore_leaves :
    ((parked.context (parked.home parked.party).space.ctx).state = 2 ∧ (parked.home parked.party).header.replay = false ∧
      parked.atPark parked.party = true ∧ parked.leavers parked.party = [parked.party.pid] ∧
      parked.mayLeave parked.party = true) ∧
    (∃ t, parked.saveParty = .ok t) ∧ (∃ t, parked.evictAll [parked.party.pid] = .ok t) ∧ base.leavers base.party = [] ∧
    (let s : State := { parked with launches := [{ installLaunch with
      gather := true, header := { installHeader with replay := true, depth := 8, local_ := 0 } }] }
     s.gathered s.party = true ∧ s.leavers s.party ≠ [] ∧ ((s.evictAll (s.leavers s.party)).toBool = true) ∧
       (s.parties.map fun q => q.pid).Nodup ∧ (∀ q ∈ s.parties, q.pid ∈ s.leavers s.party → s.mayLeave q = true) ∧
       ∀ i ∈ s.leavers s.party, ∃ q ∈ s.parties, q.pid = i) ∧
    (base.restorable base.party = false ∧ base.returners base.party = [base.party.pid]) ∧
    (∃ d, (poke parked 0x31000 0).evictAll [parked.party.pid] = .error d) :=
  ⟨by decide +kernel, exists_ok (by decide +kernel), exists_ok (by decide +kernel), by decide +kernel, by decide +kernel,
    by decide +kernel, exists_error (by decide +kernel)⟩

/-- A page that is not mapped, poison in a barrier record, and a record whose resident base is no multiple of 8. -/
theorem witness_EvictionAndRestore_fails :
    let asks (d : Deny) : Bool := d.cause == .permission || d.cause == .translation
    let reload (s : State) : State × List Deny := s.reloadGroup (s.home s.party) s.party.group
    (∀ s ∈ [poke away 0x31000 0, ({ away with poison := [recordLine] } : State), awayWith fun p => { p with lo := 1 }],
      s.restorable s.party = true ∧ s.returners s.party = [s.party.pid]) ∧
    ((reload (poke away 0x31000 0)).2.find? asks).isSome = true ∧
    (let s : State := { away with poison := [recordLine] }
     (reload s).2.find? asks = none ∧ (reload s).2 ≠ [] ∧
       ((reload s).1.reloadParty.toOption.any fun q => q.any fun q => q.wait == none) = true) ∧
    (let s := awayWith fun p => { p with lo := 1 }
     (reload s).2 = [] ∧ (reload s).1.reloadParty.toOption = some none) := by decide +kernel

/-- What a restore finds of a wait: none, one that was decided, and undecided ones. -/
def found (s : State) (f : State → Option Wait → Bool) : Bool :=
  let r := s.reloadGroup (s.home s.party) s.party.group
  s.restorable s.party && s.returners s.party == [s.party.pid] && r.2.isEmpty && match r.1.reloadParty.toOption with
    | some (some q) => f { r.1 with party := { q with evicted := false } } q.wait
    | _ => false

def attempts (a : Attempt) : Nat := match a with | .ended .. => 0 | .waiting => 1 | .trapped .. => 2 | .held _ => 3

/-- The wait of a party of `parked`, with a deadline. -/
def waitsWith (kind : WaitKind) (a v ticks : Nat) : Party → Party := fun p =>
  let w := parked.newWait kind (.waitf false 5 1 1) 5 1 (BitVec.ofNat 64 a) (BitVec.ofNat 64 v)
  let d : Deadline := { party := false, ticks := ticks, ceiling := false, poll := false, esc := false, sel := 1 }
  { p with wait := some { w with deadline := d } }

/-- A FUSE of a party that left, and the wait of a fence whose deadline's tick passed while its party was away. -/
def parted : State := awayWith fun p =>
  { p with wait := (waitsWith .fuse 0 0 1000 p).wait.map fun w => { w with decided := some stFuseAway } }
def late : State := { awayWith (waitsWith .fence 0 0 1000) with lantern := 1001 }

theorem witness_EvictionAndRestore_decided :
    (found away fun _ w => w == none) = true ∧
    (found parted fun _ w => w.any fun w => w.decided == some stFuseAway) = true ∧
    (found late fun t w => w.any fun w => w.decided == none && w.deadline.passed t t.party) = true := by decide +kernel

def tested (kind : WaitKind) (a v n : Nat) : Bool :=
  found (awayWith (waitsWith kind a v 1000)) fun t w => w.any fun w => w.decided == none && !w.met &&
    !w.deadline.passed t t.party && attempts (t.attempt w) == n

/-- A replay party that was away alone, with a wait. -/
def awayInReplay (f : Party → Party) : State :=
  let s := awayWith f
  { s with launches := s.launches.map fun l => { l with turn := 4, header := { l.header with replay := true } } }

/-- R299, R352: in a replay launch the restored WADDR whose word differs ends CHANGED at its first test, and one whose word does
not goes on. -/
theorem witness_EvictionAndRestore_replay :
    let ends (v : Nat) : Bool := found (awayInReplay (waitsWith .waddr 0x300000 v 1000)) fun t w =>
      (t.home t.party).header.replay && w.any fun w => w.decided.isNone && !w.met &&
        match t.attempt { w with restored := true } with
        | .ended _ st => v == 4 && st == 0x05
        | .held u => v == 0 && (u.party.wait.map Wait.restored) == some false
        | _ => false
    ends 4 = true ∧ ends 0 = true ∧
    (found (awayInReplay fun p => { p with wait := (waitsWith .fuse 0 0 1000 p).wait.map fun w =>
      { w with decided := some stFuseAway } }) fun _ w => w.any fun w => w.decided == some stFuseAway) = true := by decide +kernel

theorem witness_EvictionAndRestore_waiting : tested .waddr 0x300000 0 1 = true := by decide +kernel
theorem witness_EvictionAndRestore_ended : tested .waddr 0x300000 4 0 = true := by decide +kernel
theorem witness_EvictionAndRestore_trapped : tested .semacq 0x10000000000 3 2 = true := by decide +kernel

/-- A context with a pending command. -/
def commanded (state code : Nat) : State := { base with contexts :=
  [{ index := 1, state := state, cmd := some code, seen := (0x40000, 0), begun := false }] }

theorem witness_ContextCommands :
    (∀ x ∈ [(0, 1), (1, 2), (2, 3), (1, 4), (2, 5), (3, 1), (3, 2), (3, 3), (2, 4), (1, 5)],
      let s := commanded x.1 x.2
      (s.ctxEntry 1).isSome = true ∧ (s.context 1).cmd = some x.2 ∧
        ((s.ctxEntry 1).any fun e => s.cmdCode (s.context 1) e == none && (s.context 1).seen == (e.record, s.ctxField e 0x28)) = true ∧
        s.remoteBusy 1 = false ∧ (s.context 1).begun = false) ∧
    (let s : State := { commanded 2 4 with contexts := (commanded 2 4).contexts.map fun c => { c with begun := true } }
     (s.ctxEntry 1).isSome = true ∧ (s.context 1).cmd = some 4 ∧ (s.context 1).begun = true ∧
       ((s.ctxEntry 1).any fun e => s.cmdCode (s.context 1) e == none && (s.context 1).seen == (e.record, s.ctxField e 0x28)) = true) ∧
    (∀ k ∈ [0, 1, 2], ∃ e, (poke (commanded 1 1) 0x40038 k).ctxEntry 1 = some e ∧
      ((poke (commanded 1 1) 0x40038 k).ctxField e 0x38).toNat % 4 = k) ∧
    base.allAway 1 = false ∧ { base with party := { base.party with evicted := true } }.allAway 1 = true := by
  refine ⟨by decide +kernel, by decide +kernel, fun k hk => ?_, by decide +kernel, by decide +kernel⟩
  simp only [List.mem_cons, List.not_mem_nil, or_false] at hk
  rcases hk with rfl | rfl | rfl <;> exact ⟨{ record := 0x40000, asid := 1, fn := 0, ceiling := 0, keyMask := 1 },
    by decide +kernel, by decide +kernel⟩

theorem notice_same {s : State} {ctx : Nat} (h : ((s.ctxEntry ctx).any fun e =>
    s.cmdCode (s.context ctx) e == none && (s.context ctx).seen == (e.record, s.ctxField e 0x28)) = true) :
    s.noticeCommand ctx = s := by
  unfold State.noticeCommand
  split
  · rfl
  · simp_all

/-- The PF's aperture at 0x300000 of context 1. -/
def opened : State := { base with bar := { base.bar with apctx := [(0, 0x1001)], apbase := [(0, 0x300000)] } }

theorem witness_HostPortEvents :
    base.bar.ready = true ∧ base.answers 0 = true ∧ base.aperture 0 = none ∧ opened.answers 0 = true ∧
    opened.aperture 0 = some (1, installSpace) ∧
    (∀ need ∈ [Rights.read, Rights.write], (opened.hostSpans installSpace need 8
      (((Table.get 0 opened.bar.apbase 0).toNat / 65536 * 65536 + 8) % 2 ^ 64) 8).toOption = some [(.phys 0x300008 0, 8)]) ∧
    (let far := ((Table.get 0 opened.bar.apbase 0).toNat / 65536 * 65536 + 2 ^ 35) % 2 ^ 64
     (opened.hostSpans installSpace .read 8 far 8).toBool = false) ∧
    base.unmasked.contains (192, 1) = false ∧ { base with pendingIrq := [(192, 1)] }.pendingIrq.contains (192, 1) = true := by
  decide +kernel

/-! ### Witnesses: the hub and the domain -/

/-- A request in Gnomer's and in the management controller's mailbox, of a part without launches. -/
def box (ws : List Nat) : List Host.Cell :=
  (ws.zipIdx.foldl (fun m w => writeBytes m (8 * w.2) (toBytes 8 w.1)) []) ++ [(0x1F8, 1)]
def toGnomer (s : State) (ws : List Nat) : State := { s with bar := { s.bar with gmbox := box ws } }
def toManager (s : State) (ws : List Nat) : State := { s with bar := { s.bar with mcbox := box ws } }
def calm : State := { State.reset with bar := { Bar0.powerOn with ready := true } }
/-- Context 1's key mask names slots 1 and 255. -/
def keyed : State := poke (poke base 0x10050 2) 0x10068 (2 ^ 63)

theorem witness_HubEvents_gnomer :
    (∀ x ∈ [([1], 1, 0), ([2, 1], 2, 1), ([2, 255], 2, 255), ([2, 0], 2, 0), ([2, 256], 2, 256), ([2, 2], 2, 2), ([3, 1], 3, 1),
        ([3, 255], 3, 255)],
      let s := toGnomer keyed x.1
      s.bar.ready = true ∧ byteAt s.bar.gmbox 0x1F8 = 1 ∧ ofBytes (readBytes s.bar.gmbox 0 8) = x.2.1 ∧
        ofBytes (readBytes s.bar.gmbox 8 8) = x.2.2) ∧
    (∀ k ∈ [1, 255], (toGnomer keyed [2, k]).occupied k = false ∧ (toGnomer keyed [2, k]).slotNamed k = true) ∧
    { keyed with keys := [(1, 5)] }.occupied 1 = true ∧ (toGnomer keyed [2, 2]).slotNamed 2 = false := by decide +kernel

/-- STACKINIT of stack 11 with the default masks, idle and with a launch; STACKINFO of it. -/
theorem witness_HubEvents_manager :
    (∀ x ∈ [(calm, false), (base, true)],
      let s := toManager x.1 [1, 11, 0x40, 0x80, 0x100, 0x200, 0x400, 0x800]
      s.bar.ready = true ∧ byteAt s.bar.mcbox 0x1F8 = 1 ∧ ofBytes (readBytes s.bar.mcbox 0 8) = 1 ∧
        badRequest s.bar.mcbox 64 = false ∧ s.workInFlight = x.2 ∧
        masksValid ((List.range 6).map fun j => BitVec.ofNat 64 (ofBytes (readBytes s.bar.mcbox (16 + 8 * j) 8))) = true) ∧
    (let s := toManager base [2, 11]
     s.bar.ready = true ∧ byteAt s.bar.mcbox 0x1F8 = 1 ∧ ofBytes (readBytes s.bar.mcbox 0 8) = 2 ∧
       badRequest s.bar.mcbox 16 = false) ∧
    base.party.ready = true ∧ base.validContexts = [1] ∧
    (∀ j, j < 6 → base.hashMask 3 j = 1 <<< (6 + j)) ∧
    ∀ j, j < 6 → ({ base with hmask := (List.range 6).map fun j => (18 + j, 1 <<< (13 + j)) } : State).hashMask 3 j =
      (1 <<< (6 + j)) ||| (1 <<< (13 + j)) := by decide +kernel

/-- The collective in its queue. -/
def collecting (c : Collective) : State := { base with collectives := [c], lantern := 5 }

def oneKind (k : Nat) : Collective := { twoParts with kind := k }

theorem witness_DomainEvents :
    (let p : Packet := { src := 3071, dst := 0, cls := 3, seq := 0, time := 0 }
     p.dst = base.bar.part ∧ p.src ≠ base.bar.part ∧ p.src ≤ 3071 ∧ p.cls ≤ 3 ∧ p.seq = base.expected 3071 3 ∧
       { p with seq := 1 }.seq ≠ base.expected 3071 3 ∧ 3071 ∉ base.absentParts) ∧
    (3071 ≠ base.bar.part ∧ base.lantern.toNat < Table.get 0 base.contacts 3071 + 2 ^ 16 ∧
      Table.get 0 base.contacts 3071 + 2 ^ 16 ≤ { base with lantern := 0x10000 }.lantern.toNat) ∧
    (∀ c ∈ [oneKind 0, oneKind 1, oneKind 2, { oneKind 0 with failed := some 0x0103 }],
      let s := collecting c
      ((s.collectives.find? fun x => x.id == c.id) = some c ∧ (∀ x ∈ s.collectives, x.pid = c.pid → c.id ≤ x.id) ∧
        c.finished = false ∧ c.allJoined = false ∧ c.offer = none ∧ c.plan = none ∧ c.got = [] ∧ c.kind ≤ 2 ∧
        c.acceptedAt + c.timeout ≤ s.lantern.toNat ∧ { s with lantern := 4 }.lantern.toNat < c.acceptedAt + c.timeout) ∧
      c.cwaddr ≠ 0 ∧ ∀ code ∈ [0x0103, 0x0102, 0x14],
        (s.signalWord (s.collectiveAccessor c) c.agent c.cwaddr (2 ^ 63 + code)).toBool = true) ∧
    (let late : State := { base with collectives := [{ twoParts with id := 2 }, twoParts] }
     (late.collectives.find? fun x => x.id == twoParts.id) = some twoParts ∧
       ∃ x ∈ late.collectives, x.pid = twoParts.pid ∧ x.id < twoParts.id) ∧
    (let s : State := { collecting twoParts with poison := [0x301000 / 64] }
     (reads (s.engineRead (s.collectiveAccessor twoParts) twoParts.agent twoParts.src 8 4) fun sp => sp.bad.any id) = true) ∧
    ∀ k ∈ [0, 1, 2],
      let c := oneKind k
      let s := collecting c
      let len := if c.kind = 0 then c.members.length * c.count else c.count
      let inputs := List.replicate 2 (List.replicate len 9)
      (reads (s.engineRead (s.collectiveAccessor c) c.agent c.src (len * c.ty.bytes) c.ty.bytes) fun sp =>
        !(sp.bad.any id) && (c.sources (c.members.idxOf s.bar.part) (c.elements sp.bytes len) inputs).isSome &&
        (List.all [1, 2] fun n => writes (writeCells (s.collectiveAccessor c) c.ty.bytes s { c.agent with time := sp.time }
          ((List.range n).map fun i => ((c.dst + BitVec.ofNat 64 (c.ty.bytes * i)).toNat, 9))) fun w => !w.lost &&
            (w.s.signalWord (w.s.collectiveAccessor c) { c.agent with time := w.time } c.cwaddr c.cwval.toNat).toBool)) = true := by
  decide +kernel

/-! ### Witnesses: Flowstone -/

/-- A number that a format holds exactly is that number rounded. -/
theorem rounds_exact (f : Fmt) (m : Rounding) (neg : Bool) (side : ℚ → Ordering) (x : Nat) (h : side (Exact.size f x) = .eq)
    (g : side (Exact.size f (x + 1)) = .gt) (hx : x < f.infinity) : Exact.Rounds f m neg side (f.sign neg + x) :=
  ⟨x, by simp [h], g, by simp [h, hx]⟩

theorem sums_exact (ts : List Exact.Term) (neg : Bool) (v : ℚ) (x : Nat) (ht : Exact.total .rn ts = .num neg v) (hv : v ≠ 0)
    (hn : decide (v < 0) = neg) (h : compare (Exact.size .f64 x) |v| = .eq) (g : compare (Exact.size .f64 (x + 1)) |v| = .gt)
    (hx : x < Fmt.f64.infinity) : Exact.Sums .f64 .rn ts (Fmt.f64.sign neg + x) := by
  simp only [Exact.Sums, ht, Exact.RoundsTerm, Exact.RoundsTo, if_neg hv, hn]
  exact rounds_exact .f64 .rn neg _ x h g hx

theorem sums_zero (ts : List Exact.Term) (ht : Exact.total .rn ts = .num false 0) : Exact.Sums .f64 .rn ts 0 := by
  simp [Exact.Sums, ht, Exact.RoundsTerm, Exact.RoundsTo, Fmt.sign]

theorem roots_one : Exact.Roots .f64 .rn (.num false 1) 0x3FF0000000000000 := by
  simp only [Exact.Roots, if_neg one_ne_zero, if_neg (show ¬((1 : ℚ) < 0) by norm_num)]
  exact rounds_exact .f64 .rn false _ 0x3FF0000000000000 (by decide +kernel) (by decide +kernel) (by decide +kernel)

/-- The pair of columns (1, 0, 0, 0): each reflector has β = −1, v = (2, 0, 0, 0) and w = 4; μ, σ and the tail are 1. -/
theorem witness_FlowstoneResults_reflector :
    let val (x : Nat) : Exact.Term := Exact.term .f64 x
    let u := [0x3FF0000000000000, 0, 0, 0]
    let y := [0x4000000000000000, 0, 0, 0]
    let squares (l : List Nat) : List Exact.Term := l.map fun x => (val x).mul (val x)
    Exact.Roots .f64 .rn (Exact.total .rn (squares u)) 0x3FF0000000000000 ∧
    Exact.Sums .f64 .rn [val 0x3FF0000000000000, (val 0xBFF0000000000000).neg] 0x4000000000000000 ∧
    Exact.Sums .f64 .rn (squares y) 0x4010000000000000 ∧ (Exact.total .rn (squares u)).value ≠ 0 ∧
    Exact.Sums .f64 .rn [(val 0xBFF0000000000000).mul (val 0xBFF0000000000000)] 0x3FF0000000000000 ∧
    Exact.Roots .f64 .rn (Exact.total .rn (squares [0x3FF0000000000000])) 0x3FF0000000000000 ∧
    Exact.Sums .f64 .rn [.num false 0, (val 0x3FF0000000000000).mul (val 0x3FF0000000000000)] 0x3FF0000000000000 ∧
    Exact.term .f32 0 = .num false 0 ∧ (val 0x3FF0000000000000).value = 1 := by
  have one (ts : List Exact.Term) (h : Exact.total .rn ts = .num false 1) : Exact.Sums .f64 .rn ts 0x3FF0000000000000 :=
    sums_exact ts false 1 0x3FF0000000000000 h (by decide +kernel) (by decide +kernel) (by decide +kernel) (by decide +kernel)
      (by decide +kernel)
  have root (a : Exact.Term) (h : a = .num false 1) : Exact.Roots .f64 .rn a 0x3FF0000000000000 := h ▸ roots_one
  exact ⟨root _ (by decide +kernel),
    sums_exact _ false 2 0x4000000000000000 (by decide +kernel) (by decide +kernel) (by decide +kernel) (by decide +kernel)
      (by decide +kernel) (by decide +kernel),
    sums_exact _ false 4 0x4010000000000000 (by decide +kernel) (by decide +kernel) (by decide +kernel) (by decide +kernel)
      (by decide +kernel) (by decide +kernel),
    by decide +kernel, one _ (by decide +kernel), root _ (by decide +kernel), one _ (by decide +kernel), by decide +kernel,
    by decide +kernel⟩

/-- Its result: both columns are (−1, 0, 0, 0), and a tolerance of 2 leaves nothing of it. -/
theorem witness_FlowstoneResults_columns :
    let val (x : Nat) : Exact.Term := Exact.term .f64 x
    let one := 0x3FF0000000000000
    Exact.Sums .f64 .rn ((([0x4000000000000000, 0, 0, 0].zip [one, 0, 0, 0]).map fun p => (val p.1).mul (val p.2))) 0x4000000000000000 ∧
    Exact.Divides .f64 .rn ((Exact.Term.num false 2).mul (val 0x4000000000000000)) (val 0x4010000000000000) one ∧
    List.Forall₂ (fun p a => Exact.Sums .f64 .rn [val p.1, ((val p.2).mul (val one)).neg] a)
      ([one, 0, 0, 0].zip [0x4000000000000000, 0, 0, 0]) [0xBFF0000000000000, 0, 0, 0] ∧
    (List.Forall₂ (fun a b => Exact.Sums .f64 .rn [val a] b) [0xBFF0000000000000, 0, 0, 0] [0xBFF0000000000000, 0, 0, 0]) ∧
    (val one).value ≤ (Exact.term .f32 0x40000000).value * (Exact.term .f32 0x40000000).value := by
  refine ⟨sums_exact _ false 2 0x4000000000000000 (by decide +kernel) (by decide +kernel) (by decide +kernel) (by decide +kernel)
      (by decide +kernel) (by decide +kernel), ?_, .cons ?_ (.cons ?_ (.cons ?_ (.cons ?_ .nil))),
      .cons ?_ (.cons ?_ (.cons ?_ (.cons ?_ .nil))), by decide +kernel⟩
  · show Exact.Divides .f64 .rn ((Exact.Term.num false 2).mul (Exact.term .f64 0x4000000000000000)) (Exact.term .f64 0x4010000000000000) _
    rw [show (Exact.Term.num false 2).mul (Exact.term .f64 0x4000000000000000) = .num false 4 by decide +kernel,
      show Exact.term .f64 0x4010000000000000 = .num false 4 by decide +kernel]
    simp only [Exact.Divides, Exact.RoundsTo, if_neg (show (4 : ℚ) ≠ 0 by norm_num), if_neg (show (4 / 4 : ℚ) ≠ 0 by norm_num),
      show decide ((4 / 4 : ℚ) < 0) = false by decide +kernel]
    exact rounds_exact .f64 .rn false (fun u => compare u |(4 / 4 : ℚ)|) 0x3FF0000000000000 (by decide +kernel) (by decide +kernel) (by decide +kernel)
  all_goals first
    | exact sums_zero _ (by decide +kernel)
    | exact sums_exact _ true (-1) 0x3FF0000000000000 (by decide +kernel) (by decide +kernel) (by decide +kernel)
        (by decide +kernel) (by decide +kernel) (by decide +kernel)

/-- Finite and other factors, a tolerance that is a number, and the results of which the first part speaks. -/
theorem witness_FlowstoneResults_shapes :
    Exact.term .f32 0 = .num false 0 ∧
    (flowstone .f64 4 0 false none [0x7FF0000000000000, 0, 0, 0] [0, 0, 0, 0]).invalid = true ∧
    (flowstone .f64 4 0 false none [0, 0, 0, 0] [0, 0, 0, 0]).v = .zero ∧
    (flowstone .f64 4 0 false none [0, 0, 0, 0] [0, 0, 0, 0]).invalid = false ∧
    (flowstone .f64 4 0 false none [0x3FF0000000000000, 0, 0, 0] [0x3FF0000000000000, 0, 0, 0]).invalid = false ∧
    (flowstone .f32 2 0 true none [0x3FF0000000000000, 0, 0, 0x3FF0000000000000] [0x3FF0000000000000, 0, 0, 0x3FF0000000000000]).v
      = .dense [0x3F800000, 0, 0, 0x3F800000] := by decide +kernel

/-! ### Witnesses: tile results -/

/-- Zero, dense and low-rank operands of two by two. -/
theorem witness_TileResults_values :
    ∀ v ∈ [TileVal.zero, .dense [0x3F800000, 0, 0, 0x3F800000], .low 1 [1, 2] [3, 4]], Exact.sized (tileTy 0) 2 v := by
  simp only [List.mem_cons, List.not_mem_nil, or_false, forall_eq_or_imp, forall_eq, Exact.sized]
  decide

/-- Zero operands of 16 by 16, and the matrix of a load and of a store in columns of 64 bytes. -/
def tiled (op : Nat) : State × Task :=
  let t : Task := { mulTask with op := op, started := true, vals := if op = 2 ∨ op = 3 then [0x320000, 0x300000, 64] else
    if op = 11 then [0x320000, 0x320000, 0] else [0x320000, 0x320000, 0x320000, 0x320000] }
  (pooled t, t)
def headed (op : Nat) : Option (Task × TileHead) := ((tiled op).1.readHead (tiled op).2 ((tiled op).2.val 0)).toOption

theorem witness_TileResults_operands :
    (∀ op ∈ [4, 5, 6, 7, 8, 9, 10, 11], (headed op).any (fun r => ((tiled op).1.readOperands { r.1 with head := some r.2 }
      (if op = 5 ∨ op = 9 then [1, 2] else if op = 6 then [1, 2, 3] else [1]) (some r.2)).toBool) = true) ∧
    (∀ x ∈ [(11, 1), (3, 0), (12, 1)], ((tiled x.1).1.readOperands (tiled x.1).2 [x.2] none).toBool = true) ∧
    (headed 2).any (fun r => ((tiled 2).1.loadMatrix { r.1 with head := some r.2 } r.2.fmt 16).toBool) = true ∧
    badMemory 0 0x300000 64 = false := by decide +kernel

/-- R301, R242: the first read of a task is that of one header, after which other agents act. -/
theorem test_some_task_reads :
    let s : State := { (tiled 5).1 with tasks := [{ (tiled 5).2 with started := false }] }
    ((s.taskReads 0 1).tasks.map fun t => (t.started, t.log.length, t.reading)) = [(true, 64, true)] ∧
    ((s.taskReads 0 9).tasks.map fun t => (t.reading, t.awaitsUnit)) = [(false, false)] := by decide +kernel

end Sys2Proof.Tests
end

section
/-!
SUPPORT. What a step runs: the answer of a step by its move (log 3), the word that a scalar stream issues (R57, R88), the
instruction that a lane stream issues (R66, R67), and from these the statements on the step.
-/
namespace Sys2Proof.Machine

/-! ### The answer of a step -/

/-- What a step answers whose move `m`, made from `before`, came to an outcome: the step is concluded where the move has a next
state, and stops as the move did where it has none. -/
def Move.answer (m : Move) (before : State) : Host.Outcome State Fault Refusal → Host.Outcome State Fault Refusal
  | .next after => .next (conclude m.act m before after)
  | .fault e => .fault e
  | .refused r => .refused r

/-- A step stops where the party in focus runs without a launch (log 59), and performs its next move elsewhere. -/
theorem step_eq (s : State) : step s =
    if s.party.live && (s.launch? s.party.launch).isNone then .fault .noLaunch
    else s.nextMove.1.answer s.nextMove.2 (perform s.nextMove.1.act s.nextMove.2) := rfl

/-- Where its launch is there, the answer of a step is that of its move. -/
theorem step_of_nextMove {s t : State} {m : Move}
    (hlaunch : s.party.live = true → (s.launch? s.party.launch).isSome = true) (hmove : s.nextMove = (m, t)) :
    step s = m.answer t (perform m.act t) := by
  have hguard : ¬(s.party.live && (s.launch? s.party.launch).isNone) = true := by
    simpa [Option.isSome_iff_ne_none] using hlaunch
  rw [step_eq, if_neg hguard, hmove]

/-- A move of a lane stream uses no replay turn (R352). -/
@[simp] theorem conclude_lane (pid : Nat) (m : Move) (before after : State) :
    conclude (.lane pid) m before after = after.settle m.ticks m.clocks := rfl

@[simp] theorem State.focus_self (s : State) : s.focus s.party.pid = s := if_pos rfl

/-! ### The scalar stream -/

/-- The scalar stream of the party in focus is at a boundary and fetches the word at its counter: nothing holds it, no cause or
offer comes first, and it neither leaves nor has a copy to make again (R104, R108, R352, R358). -/
structure State.Fetches (s : State) : Prop where
  ready : s.party.ready = true
  notHeld : s.held = false
  noWait : s.party.wait = none
  noOffer : s.party.offer = none
  notRaised : s.party.raised = none
  notDue : s.party.due = false
  turn : s.turnAllows s.party.pid = true
  stays : s.mustLeave s.party = false
  copied : s.party.hmode = true ∨ s.party.copying = none

/-- What comes of a fetched word: ILLEGAL where it is no instruction (R57), the hold of a parked word (R88), or its
instruction. -/
def State.issueWord (s : State) (w : BitVec 32) : Issued :=
  match decodeFor (s.home s.party).header.laneLen w with
  | .error _ => .done (s.takeTrap (Trap.scalar .illegal s.party.pc (s.party.pc + 4)))
  | .ok i =>
    if parked w && !s.party.hmode && !s.party.drained then .done s
    else .run i (if parked w && !s.party.hmode then { s with party := s.party.certain } else s)

/-- No copy of a SPLIT or FUSE comes before the fetch. -/
theorem State.Fetches.noCopy {s : State} (h : s.Fetches) : (if s.party.hmode then none else s.party.copying) = none := by
  rcases h.copied with hmode | hcopy
  · simp [hmode]
  · simp [hcopy]

theorem State.Fetches.issueScalar {s : State} {w : BitVec 32} (h : s.Fetches)
    (hword : s.fetchWord (s.home s.party) s.party.pc = .ok w) : s.issueScalar = s.issueWord w := by
  unfold State.issueScalar State.issueWord
  simp only [h.ready, h.notHeld, h.noWait, h.noOffer, h.notRaised, h.notDue, h.turn, h.stays, h.noCopy, hword]
  cases decodeFor (s.home s.party).header.laneLen w with
  | error r => rfl
  | ok i => cases parked w <;> cases s.party.hmode <;> cases s.party.drained <;> rfl

/-- Settles O5: the step performs the scalar move, and the stream, at a boundary, issues the word it fetches. -/
theorem stepRunsScalarWord : Obligations.StepRunsScalarWord := by
  unfold Obligations.StepRunsScalarWord
  intro s t m w i hlaunch hmove hact hready hheld hwait hoffer hraised hdue hturn hleave hcopy hword hdecode
  have hfetches : t.Fetches := ⟨hready, hheld, hwait, hoffer, hraised, hdue, hturn, hleave, hcopy⟩
  have hperform : perform m.act t = runIssued (t.issueWord w) := by
    rw [hact, perform, State.focus_self, hfetches.issueScalar hword]
  rw [step_of_nextMove hlaunch hmove, hperform, State.issueWord, hdecode]
  by_cases hhold : (parked w && !t.party.hmode && !t.party.drained) = true
  · simp only [if_pos hhold]; rfl
  · simp only [if_neg hhold]; rfl

/-! ### The lane stream -/

/-- A lane stream that may issue runs a head that has begun as the instruction it was fetched as (R67). -/
theorem State.issueLane_of_begun {s : State} {b : Block} {rest : List Block} {h : HeadOp} (hqueue : s.party.queue = b :: rest)
    (hready : s.party.ready = true) (hheld : s.held = false) (hfrozen : s.party.laneFrozen = false)
    (hbegun : s.party.begun = some h) : s.issueLane = .run (h.op.instr h.f) s := by
  simp [State.issueLane, hqueue, hready, hheld, hfrozen, hbegun]

/-- A lane stream that may issue runs a head that has not begun as what is fetched at its place (R60, R66). -/
theorem State.issueLane_of_fetched {s : State} {b : Block} {rest : List Block} {w : BitVec 96} {i : Instr}
    (hqueue : s.party.queue = b :: rest) (hready : s.party.ready = true) (hheld : s.held = false)
    (hfrozen : s.party.laneFrozen = false) (hbegun : s.party.begun = none)
    (hword : s.fetchLane (s.home s.party) (b.first + s.party.laneCtr) = .ok w) (hdecode : decodeLane w = .ok i) :
    s.issueLane = .run i s := by
  simp [State.issueLane, hqueue, hready, hheld, hfrozen, hbegun, hword, hdecode]

theorem Party.begun_of_fresh {p : Party} (hredo : p.redo = none) (hpart : p.part = none) : p.begun = none := by
  simp [Party.begun, Party.mid, hredo, hpart]

theorem Party.begun_of_mid {p : Party} (h : p.redo ≠ none ∨ p.part ≠ none) : p.begun = p.headOp := by
  simp [Party.begun, Party.mid, Option.isSome_iff_ne_none, h]

/-- Settles O6: the step performs the lane move, and the head is issued as it was begun, or else as it is fetched. -/
theorem stepRunsLaneHead : Obligations.StepRunsLaneHead := by
  unfold Obligations.StepRunsLaneHead
  intro s t m b rest i hlaunch hmove hact hready hheld hfrozen hqueue hfresh hmid
  have hissue : t.issueLane = .run i t := by
    by_cases hstart : t.party.redo = none ∧ t.party.part = none
    · obtain ⟨hredo, hpart⟩ := hstart
      obtain ⟨w, hword, hdecode⟩ := hfresh hredo hpart
      exact State.issueLane_of_fetched hqueue hready hheld hfrozen (Party.begun_of_fresh hredo hpart) hword hdecode
    · have hmore : t.party.redo ≠ none ∨ t.party.part ≠ none := not_and_or.mp hstart
      obtain ⟨h, hhead, rfl⟩ := hmid hmore
      exact State.issueLane_of_begun hqueue hready hheld hfrozen ((Party.begun_of_mid hmore).trans hhead)
  have hperform : perform m.act t = exec i t := by
    rw [hact, perform, State.focus_self, hissue, runIssued]
  rw [step_of_nextMove hlaunch hmove, hperform]
  cases exec i t with
  | next u => simp [Move.answer, hact]
  | fault e => rfl
  | refused r => rfl

/-! ### The events of the part -/

/-- Settles O7: the step performs the event, where the party's turn does not make it wait (R352). -/
theorem stepRunsEvent : Obligations.StepRunsEvent := by
  unfold Obligations.StepRunsEvent
  intro s t m i hlaunch hmove hact
  have hperform : perform m.act t = if t.eventWaits i then .next t else exec i t := by rw [hact, perform]
  rw [step_of_nextMove hlaunch hmove, hperform]
  by_cases hwaits : t.eventWaits i = true
  · rw [if_pos hwaits, if_pos hwaits]; rfl
  · rw [if_neg hwaits, if_neg hwaits]; rfl

end Sys2Proof.Machine
end

section
/-!
SUPPORT. Memory as a function of the address: what a byte reads after a write, from the two rules on a read within and outside
a write (`byteAt_writeBytes_in`, `byteAt_writeBytes_out`).
-/
namespace Sys2Proof.Machine

/-- Settles O11: by whether the address lies in the write, where it stands `b - a` bytes from the first, or below or above it. -/
theorem readAfterWrite : Obligations.ReadAfterWrite := by
  unfold Obligations.ReadAfterWrite
  intro m a b bs
  by_cases hin : a ≤ b ∧ b < a + bs.length
  · obtain ⟨i, rfl⟩ := Nat.exists_eq_add_of_le hin.1
    have hi : i < bs.length := by omega
    rw [if_pos hin, byteAt_writeBytes_in m a bs i hi, Nat.add_sub_cancel_left, List.getElem?_eq_getElem hi, Option.getD_some]
  · rw [if_neg hin]
    exact byteAt_writeBytes_out m a bs b (by omega)

end Sys2Proof.Machine
end

section
/-!
SUPPORT. The scalar stream's writes: what completion changes (R33, R88, R117), and the hold of a writer while a queued lane
instruction reads what it writes (R34).
-/
namespace Sys2Proof.Machine

/-! ### Completion -/

theorem Party.setReg_zero (p : Party) (v : Word) : p.setReg 0 v = p := if_pos rfl

/-- A scalar register written changes the scalar registers alone. -/
theorem Party.setReg_frame (p : Party) (d : Reg) (v : Word) : p.setReg d v = { p with s := (p.setReg d v).s } := by
  unfold Party.setReg
  split <;> rfl

/-- Retirement moves the counter, counts outside handler mode, and ends a yield. -/
theorem Party.retire_eq (p : Party) (next : Word) : p.retire next = { p with
    pc := next, lastPc := p.pc, retired := p.retired + (if p.hmode then 0 else 1), yielded := false } := by
  unfold Party.retire
  cases p.hmode
  · rfl
  · simp

/-- Settles O13: by the rules on a register written and on retirement. -/
theorem completionFrame : Obligations.CompletionFrame := by
  unfold Obligations.CompletionFrame
  refine ⟨fun p v => ⟨p.reg_zero, p.setReg_zero v⟩, fun p d r v hd => ?_, Party.setReg_frame, fun s p => rfl, fun s p next => ?_⟩
  · rw [Party.reg_setReg]
    exact if_congr (and_iff_left hd) rfl rfl
  · rw [State.finishAt, Party.retire_eq]

/-! ### Holds (R34) -/

/-- A hold on a queued reader is one outside handler mode, with work queued: the lane stream is not drained. -/
theorem State.drained_of_holdsReg {s : State} {d : Reg} (h : s.holdsReg s.party d = true) :
    s.party.hmode = false ∧ s.party.drained = false := by
  simp only [State.holdsReg, Bool.and_eq_true, Bool.not_eq_true'] at h
  obtain ⟨⟨⟨hmode, hqueue⟩, -⟩, -⟩ := h
  simp [hmode, Party.drained, hqueue]

section
variable {s : State} {d : Reg} (h : s.holdsReg s.party d = true)
include h

theorem writeReg_holds (v : Word) : writeReg s d v = .next s := if_pos h

theorem scalarLoad_holds (a : Reg) (imm : BitVec 13) (n : Nat) (f : Nat → Word) : scalarLoad s d a imm n f = .next s := if_pos h

theorem doubleInHandler_outside (r : Result) : doubleInHandler s r = r := by
  simp [doubleInHandler, (State.drained_of_holdsReg h).1]

theorem waiting_holds (r : Result) : waiting s d r = .next s := by
  rw [waiting, doubleInHandler_outside h, if_pos h, hold]

theorem transfer_holds (newB : Int) (target : Word) (link : Party → Party) : transfer s newB target link = .next s := by
  rw [transfer, doubleInHandler_outside h]
  simp [(State.drained_of_holdsReg h).2, hold]

theorem execSplit_holds (k : Bool) : execSplit k d s = .next s := by
  rw [execSplit, doubleInHandler_outside h]
  simp [(State.drained_of_holdsReg h).2, hold]

theorem execFuse_holds (k : Bool) (dl : BitVec 2) : execFuse k d dl s = .next s := by
  rw [execFuse, doubleInHandler_outside h]
  simp [(State.drained_of_holdsReg h).2, hold]

theorem execXrd_holds (k : Bool) (a : Reg) (n : BitVec 7) : execXrd k d a n s = .next s := by
  simp [execXrd, State.drained_of_holdsReg h, hold]

theorem execTbat_holds (k : Bool) : execTbat k d s = .next s := by
  simp [execTbat, h, hold]

end

theorem writePd_holds {s : State} {d : BitVec 3} (h : s.holdsMask s.party d = true) (m : Mask) : writePd s d m = .next s := if_pos h

theorem writeDl_holds {s : State} {d : BitVec 2} (h : s.holdsDl s.party d = true) (v : Word) : writeDl s d v = .next s := if_pos h

/-- What a queued instruction that has not issued reads, the queue reads. -/
theorem State.queueReads_of_unissued {s : State} {p : Party} {b : Block} {op : LaneOp} {f : LaneF} {reads : LaneOp → LaneF → Bool}
    (hmem : (b, Queued.instr op f) ∈ s.unissued p) (hreads : reads op f = true) : s.queueReads p reads = true :=
  List.any_eq_true.mpr ⟨_, hmem, hreads⟩

/-- The scalar register that an operand code names is among the reads of the instruction (R34). -/
theorem LaneOp.reg_mem_scalarReads {op : LaneOp} {f : LaneF} {code : BitVec 8} {r : Reg}
    (hfield : code = f.dst ∨ code = f.a ∨ code = f.b ∨ code = f.c) (hcode : code.toNat = 0x80 + r.toNat) :
    r.toNat ∈ op.scalarReads f := by
  have hrange : 0x80 ≤ code.toNat ∧ code.toNat < 0xC0 := by omega
  refine List.mem_flatMap.mpr ⟨code, by simpa using hfield, ?_⟩
  simp only [if_pos hrange]
  split <;> simp [hcode]

/-- Settles O14: each writer holds by the guard of the operation it is built from, and what a queued instruction reads is among
the reads of the queue. -/
theorem writesHold : Obligations.WritesHold := by
  unfold Obligations.WritesHold
  intro s k holds
  refine ⟨fun d a b z i c m n l pa base w off dl fl x h => ?_, fun d pa pb a h => ?_, fun pa off h => ⟨if_pos h, if_pos h, if_pos h⟩,
    fun n a h => ⟨writeDl_holds h _, writeDl_holds h _⟩, fun a => ⟨fun h => if_pos h, fun hmode hqueue => ?_⟩,
    fun b op f hmode hqueue hmem => ?_⟩
  · have hwrite := writeReg_holds h
    have hload := scalarLoad_holds h
    have hwait := waiting_holds h
    have htransfer := transfer_holds h
    refine ⟨?_, ?_, ⟨hwrite _, hwrite _, hwrite _, hwrite _, hwrite _, hwrite _, hwrite _, hwrite _, execXrd_holds h k a x,
      execTbat_holds h k⟩, ?_, ⟨htransfer .., htransfer .., execSplit_holds h k, execFuse_holds h k dl, ?_⟩, ?_⟩
    · and_intros <;> exact hwrite _
    · and_intros <;> exact hwrite _
    · exact ⟨hload a i 1 fun v => (BitVec.ofNat 8 v).signExtend 64, hload .., hload a i 2 fun v => (BitVec.ofNat 16 v).signExtend 64,
        hload .., hload a i 4 fun v => (BitVec.ofNat 32 v).signExtend 64, hload .., hload .., hload ..⟩
    · and_intros <;> exact hwait _
    · and_intros <;> exact hwait _
  · exact ⟨writePd_holds h _, writePd_holds h _, writePd_holds h _, writePd_holds h _, writePd_holds h _, if_pos h⟩
  · have hnvr : s.party.holdsNvr = true := by simp [Party.holdsNvr, hmode, hqueue]
    exact if_pos hnvr
  · have hopen : (!s.party.hmode && !s.party.queue.isEmpty) = true := by simp [hmode, hqueue]
    have hmask (n : BitVec 3) (hn : n.toNat ∈ op.maskReads f) : s.holdsMask s.party n = true := by
      rw [State.holdsMask, hopen, Bool.true_and]
      exact State.queueReads_of_unissued hmem (List.contains_iff_mem.mpr hn)
    refine ⟨fun r hr hcode => ?_, hmask 0 (by simp [LaneOp.maskReads]), hmask f.pred (by simp [LaneOp.maskReads]), fun n hn => ?_,
      fun hop => ?_, fun hround => ?_⟩
    · obtain ⟨code, hfield, hcode⟩ := hcode
      rw [State.holdsReg, hopen, Bool.true_and, bne_iff_ne.mpr hr, Bool.true_and]
      exact State.queueReads_of_unissued hmem (List.contains_iff_mem.mpr (LaneOp.reg_mem_scalarReads hfield hcode))
    · refine hmask n ?_
      rcases hn with ⟨rfl, himm⟩ | ⟨rfl, himm, hdst⟩
      · simp [LaneOp.maskReads, himm]
      · simp [LaneOp.maskReads, himm, hdst]
    · rw [State.holdsDl, hopen, Bool.true_and]
      refine State.queueReads_of_unissued hmem ?_
      rcases hop with rfl | rfl | rfl <;> simp
    · rw [State.holdsRnd, hopen, Bool.true_and]
      exact State.queueReads_of_unissued hmem (by simp [hround])

end Sys2Proof.Machine
end

section
/-!
SUPPORT. Control: branches, calls and returns over a window slide (R31, R50, R92, R93), and LRUN (R95).
-/
namespace Sys2Proof.Machine

/-! ### Branches (R50, R92) -/

/-- A target lies four times the offset from the instruction. -/
theorem targetOf_eq (pc off : Word) : targetOf pc off = pc + 4 * off := by
  rw [targetOf, BitVec.shiftLeft_eq_mul_twoPow, mul_comm]
  rfl

/-- A branch goes to its target where the proposition that its test decides holds. -/
theorem branch_eq (s : State) {taken : Bool} {P : Prop} [Decidable P] (h : taken = true ↔ P) (off : BitVec 15) :
    branch s taken off =
      .next (s.finishAt s.party (if P then s.party.pc + 4 * off.signExtend 64 else s.party.pc + 4)) := by
  rw [branch, targetOf_eq, if_congr h rfl rfl]

/-- A register equals 0 where its signed value does. -/
theorem toInt_eq_zero (x : Word) : x.toInt = 0 ↔ x = 0 := BitVec.toInt_inj (y := 0)

/-! ### Slides (R31) -/

theorem State.spillUp_base {s t : State} {l : Launch} {p q : Party} {n : Nat} (h : s.spillUp l p n = .ok (t, q)) : q.b = p.b := by
  induction n generalizing s p with
  | zero =>
    obtain ⟨rfl, rfl⟩ := Prod.mk.inj (Except.ok.inj h)
    rfl
  | succ n ih =>
    unfold State.spillUp at h
    split at h
    · obtain ⟨rfl, rfl⟩ := Prod.mk.inj (Except.ok.inj h)
      rfl
    · split at h
      · cases h
      · exact ih (p := { p with lo := p.lo + 8 }) h

/-- A slide that succeeds leaves the window at the new base. -/
theorem State.slide_base {s t : State} {l : Launch} {p q : Party} {b : Nat} (h : s.slide l p b = .ok (t, q)) : q.b = b := by
  unfold State.slide at h
  split at h
  · cases hfill : s.fill l p p.positions b (p.lo - b) with
    | error d => rw [hfill] at h; cases h
    | ok r =>
      rw [hfill] at h
      obtain ⟨-, rfl⟩ := Prod.mk.inj (Except.ok.inj h)
      rfl
  · exact State.spillUp_base h

/-- A slide that moves the base within the hardware depth moves it alone. -/
theorem State.slide_resident (s : State) {l : Launch} {p : Party} {b : Nat} (hlo : p.lo ≤ b)
    (hroom : b + l.header.window ≤ p.lo + l.header.depth8) : s.slide l p b = .ok (s, { p with b := b }) := by
  rw [State.slide, if_neg (Nat.not_lt.mpr hlo), State.spillUp]
  exact if_pos hroom

/-! ### Calls and returns (R93) -/

theorem Header.window_le (h : Header) : h.window ≤ 128 := Nat.min_le_right ..

section
variable {s : State} (hmode : s.party.hmode = false) (hdrained : s.party.drained = true)
include hmode hdrained

/-- A transfer whose new base is in range and whose slide succeeds. -/
theorem transfer_of_slide {t : State} {q : Party} {b : Nat} {newB : Int} (hb : newB = b)
    (hroom : b + (s.home s.party).header.window ≤ 1024) (hslide : s.slide (s.home s.party) s.party.certain b = .ok (t, q))
    (target : Word) (link : Party → Party) : transfer s newB target link = .next (t.finishAt (link q) target) := by
  subst hb
  have hrange : ¬((b : Int) < 0 ∨ 1024 < (b : Int) + (s.home s.party).header.window) := by omega
  simp only [transfer, doubleInHandler, hmode, hdrained, if_neg hrange, Int.toNat_natCast, hslide]
  rfl

/-- A transfer whose new base would leave the stack of registers. -/
theorem transfer_of_outside {newB : Int} (hout : newB < 0 ∨ 1024 < newB + (s.home s.party).header.window)
    (target : Word) (link : Party → Party) : transfer s newB target link = raiseStack s := by
  simp only [transfer, doubleInHandler, hmode, hdrained, if_pos hout]
  rfl

end

/-- Settles O15: each branch by its test, each transfer by its slide or by where its new base lies. -/
theorem branchesAndCalls : Obligations.BranchesAndCalls := by
  unfold Obligations.BranchesAndCalls
  refine ⟨fun s k a off far => ⟨branch_eq s (by simp [toInt_eq_zero]) off, branch_eq s (by simp [toInt_eq_zero]) off,
    branch_eq s decide_eq_true_iff off, branch_eq s decide_eq_true_iff off, branch_eq s decide_eq_true_iff off,
    branch_eq s decide_eq_true_iff off, branch_eq s (iff_of_true rfl trivial) off, ?_⟩,
    fun s t q k n d a off hmode hdrained => ?_⟩
  · show execJmp k far s = _
    rw [execJmp, targetOf_eq, if_pos trivial]
  · have hwindow := Header.window_le (s.home s.party).header
    refine ⟨fun hup hslide => ⟨State.slide_base hslide, ?_, ?_⟩, fun hk hdown hslide => ⟨State.slide_base hslide, ?_⟩,
      fun hout => ⟨?_, ?_⟩, fun hout => ?_⟩
    · show execCall k n a off s = _
      rw [execCall, transfer_of_slide hmode hdrained (by push_cast; rfl) (by omega) hslide, targetOf_eq]
    · show execCallr k d a n s = _
      rw [execCallr, transfer_of_slide hmode hdrained (by push_cast; rfl) (by omega) hslide]
    · show execRet k a n s = _
      rw [execRet, transfer_of_slide hmode hdrained (by omega) (by omega) hslide, id]
    · exact transfer_of_outside hmode hdrained (by omega) ..
    · exact transfer_of_outside hmode hdrained (by omega) ..
    · exact transfer_of_outside hmode hdrained (by omega) ..

/-! ### LRUN (R95) -/

/-- Where every lane write of a mask is seen, an LRUN's snapshot holds the masks and lacks no writer. -/
theorem State.snapshot_of_settled {s : State} {p : Party} (h : p.looseMasks = []) : s.snapMasks p = p.p ∧ p.unseen = [] := by
  simp [State.snapMasks, Party.unseen, h]

/-- Settles O16: LRUN is within the section; what is left is whether the queue has room. -/
theorem lrunQueues : Obligations.LrunQueues := by
  unfold Obligations.LrunQueues
  intro s k len idx hmode hlen
  have hrun : exec (.lrun k len idx) s = if 4 ≤ s.party.queue.length then hold s else .next (s.finish { s.party with
      queue := s.party.queue ++ [{ first := idx.toNat, len := len.toNat + 1, lrun := s.party.pc, s := s.party.s
                                   p := s.snapMasks s.party, dl := s.party.dl, rnd := s.party.rnd, nvr := s.party.nvr
                                   order := s.party.lruns + 1, unseen := s.party.unseen }]
      lruns := s.party.lruns + 1 }) := by
    have hfits : ¬(s.home s.party).header.laneLen < idx.toNat + len.toNat + 1 := by omega
    show execLrun k len idx s = _
    simp only [execLrun, doubleInHandler, hmode, if_neg hfits]
    rfl
  refine ⟨fun hroom hloose => ?_, fun hfull => ?_⟩
  · obtain ⟨hsnap, hunseen⟩ := State.snapshot_of_settled (s := s) hloose
    rw [hrun, if_neg (by omega), hsnap, hunseen]
  · rw [hrun, if_pos hfull, hold]

end Sys2Proof.Machine
end

section
/-!
SUPPORT. Data words of a mask and the control registers (R27, R113), and the effective deadline (R36, R37).
-/
namespace Sys2Proof.Machine

/-! ### Data words of a mask (R27) -/

/-- The bits of a data word put in place. -/
theorem getLsbD_shifted_word (w : BitVec 32) (i l : Nat) (hl : l < 1024) :
    (w.setWidth 1024 <<< (32 * i)).getLsbD l = (decide (l / 32 = i) && w.getLsbD (l % 32)) := by
  rw [BitVec.getLsbD_shiftLeft, BitVec.getLsbD_setWidth]
  by_cases hi : l / 32 = i
  · have hpos : ¬l < 32 * i := by omega
    have hbit : l - 32 * i = l % 32 := by omega
    have hin : l % 32 < 1024 := by omega
    simp [hl, hi, hpos, hbit, hin]
  · by_cases hlow : l < 32 * i
    · simp [hlow, hi]
    · have hhigh : 32 ≤ l - 32 * i := by omega
      simp [hi, BitVec.getLsbD_of_ge w _ hhigh]

/-- A mask with a data word replaced reads the word within it and the mask elsewhere. -/
theorem getLsbD_setMaskWord (m : Mask) (i : Nat) (w : BitVec 32) (l : Nat) (hl : l < 1024) :
    (setMaskWord m i w).getLsbD l = if l / 32 = i then w.getLsbD (l % 32) else m.getLsbD l := by
  have hones : (0xFFFFFFFF : Mask) = (BitVec.allOnes 32).setWidth 1024 := by decide +kernel
  have hlow : l % 32 < 32 := Nat.mod_lt _ (by norm_num)
  rw [setMaskWord, hones, BitVec.getLsbD_or, BitVec.getLsbD_and, BitVec.getLsbD_not, getLsbD_shifted_word _ _ _ hl,
    getLsbD_shifted_word _ _ _ hl, BitVec.getLsbD_allOnes]
  by_cases hi : l / 32 = i <;> simp [hi, hl, hlow]

theorem maskWord_eq (m : Mask) (i : Nat) : maskWord m i = m.extractLsb' (32 * i) 32 := rfl

/-! ### Control registers (R113) -/

section
variable {s : State} (h : s.party.inflight = [])
include h

/-- With no lane memory instruction outstanding, `st` reads as it stands. -/
theorem State.scalarSt_of_idle : s.scalarSt s.party = s.party.st := by simp [State.scalarSt, h]

/-- With no lane memory instruction outstanding, `ls` reads as it stands. -/
theorem State.scalarLs_of_idle : s.scalarLs s.party = s.party.ls := by simp [State.scalarLs, h]

theorem Party.setSt_of_idle (v : Word) : s.party.setSt v = { s.party with st := v } := by
  simp only [Party.setSt, h, List.map_nil]

theorem Party.writeLs_of_idle {i : Nat} (v : Word) : s.party.writeLs i v = { s.party with
    ls := if i < s.party.width / 32 then setMaskWord s.party.ls i (v.setWidth 32) else s.party.ls } := by
  unfold Party.writeLs
  split
  · simp only [h, List.map_nil]
  · rfl

/-- A data word of `ls` as CSRR reads it. -/
theorem State.csr_lsWord {i : Nat} : s.csr (0x20 + i) =
    ((s.party.ls &&& s.party.allLanes).extractLsb' (32 * i) 32).setWidth 64 := by
  have hchain : ¬(8 ≤ 0x20 + i ∧ 0x20 + i < 12) := by omega
  simp only [State.csr, if_neg hchain, State.scalarLs_of_idle h, maskWord_eq]
  simp [show 32 + i ≠ 1 by omega, show 32 + i ≠ 2 by omega, show 32 + i ≠ 3 by omega, show 32 + i ≠ 4 by omega,
    show 32 + i ≠ 5 by omega, show 32 + i ≠ 6 by omega, show 32 + i ≠ 16 by omega]

end

/-- A deadline register as CSRR reads it. -/
theorem State.csr_deadline (s : State) (n : BitVec 2) : s.csr (8 + n.toNat) = s.party.deadlineReg n := by
  have hchain : 8 ≤ 8 + n.toNat ∧ 8 + n.toNat < 12 := by omega
  have hn : BitVec.ofNat 2 (8 + n.toNat) = n := BitVec.eq_of_toNat_eq (by simp; omega)
  simp only [State.csr, if_pos hchain, hn]
  simp [show 8 + n.toNat ≠ 1 by omega, show 8 + n.toNat ≠ 2 by omega, show 8 + n.toNat ≠ 3 by omega,
    show 8 + n.toNat ≠ 4 by omega, show 8 + n.toNat ≠ 5 by omega, show 8 + n.toNat ≠ 6 by omega]

/-- The number of a data word of `ls`. -/
theorem toNat_lsNumber {i : Nat} (hi : i < 32) : (BitVec.ofNat 13 (0x20 + i)).toNat = 0x20 + i := by
  rw [BitVec.toNat_ofNat]
  omega

theorem and_low32 (v : Word) : v &&& 0xFFFFFFFF = (v.setWidth 32).setWidth 64 := by
  have hones : (0xFFFFFFFF : Word) = BitVec.ofNat 64 (2 ^ 32 - 1) := rfl
  apply BitVec.eq_of_toNat_eq
  rw [BitVec.toNat_and]
  simp only [hones, BitVec.toNat_ofNat, BitVec.toNat_setWidth]
  rw [Nat.mod_eq_of_lt (by norm_num : 2 ^ 32 - 1 < 2 ^ 64), Nat.and_two_pow_sub_one_eq_mod]
  omega

theorem and_low2 (v : Word) : v &&& 3 = (v.setWidth 2).setWidth 64 := by
  apply BitVec.eq_of_toNat_eq
  have h3 : (3 : Word).toNat = 2 ^ 2 - 1 := rfl
  rw [BitVec.toNat_and, h3, Nat.and_two_pow_sub_one_eq_mod]
  simp only [BitVec.toNat_setWidth]
  omega

/-- Settles O20: each register by its number; `ls` and `st` as they stand, since nothing that writes them is incomplete. -/
theorem controlRegisters : Obligations.ControlRegisters := by
  unfold Obligations.ControlRegisters
  refine ⟨fun s k d hreg hidle => ?_, fun s k a hidle => ?_⟩
  · have hread (n : BitVec 13) {v : Word} (hv : s.csr n.toNat = v) :
        exec (.csrr k d n) s = .next (s.finish (s.party.setReg d v)) := by
      show writeReg s d (s.csr n.toNat) = _
      rw [writeReg, hreg, hv]
      rfl
    have hst := State.scalarSt_of_idle hidle
    have hls := State.scalarLs_of_idle hidle
    refine ⟨hread _ hst, hread _ rfl, hread _ rfl, hread _ rfl, hread _ rfl, hread _ rfl, hread _ rfl, fun n => hread _ ?_,
      hread _ ?_, fun i hi => hread _ ?_⟩
    · rw [← State.csr_deadline]
      congr 1
      simp
      omega
    · show (summary (s.scalarLs s.party &&& s.party.allLanes)).setWidth 64 = _
      rw [hls]
    · rw [toNat_lsNumber hi]
      exact State.csr_lsWord hidle
  · refine ⟨?_, fun hrnd => ?_, fun hnvr => ?_, rfl, fun i hi => ⟨if i < s.party.width / 32 then
        setMaskWord s.party.ls i ((s.party.reg a).setWidth 32) else s.party.ls, ?_, fun l hl => ?_⟩⟩
    · show Host.Outcome.next (s.finish (s.party.setSt (s.party.reg a &&& 0xFFFFFFFF))) = _
      rw [Party.setSt_of_idle hidle, and_low32]
    · show (if s.holdsRnd s.party then hold s else .next (s.finish { s.party with rnd := s.party.reg a &&& 3 })) = _
      rw [hrnd, and_low2]
      rfl
    · show (if s.party.holdsNvr then hold s else .next (s.finish (if s.party.reg a = 1 ∨ s.party.reg a = 2 then
        { s.party with nvr := s.party.reg a } else s.party))) = _
      rw [hnvr, if_neg Bool.false_ne_true]
      split <;> rfl
    · rw [← Party.writeLs_of_idle hidle]
      show execCsrw k a (BitVec.ofNat 13 (0x20 + i)) s = _
      simp only [execCsrw, toNat_lsNumber hi, Nat.add_sub_cancel_left]
      simp [show 32 + i ≠ 1 by omega, show 32 + i ≠ 2 by omega, show 32 + i ≠ 16 by omega]
    · by_cases hwidth : i < s.party.width / 32
      · have hlow : l % 32 < 32 := Nat.mod_lt _ (by norm_num)
        rw [if_pos hwidth, getLsbD_setMaskWord _ _ _ _ hl, BitVec.getLsbD_setWidth]
        simp [hwidth, hlow]
      · simp [hwidth]

/-! ### Deadlines (R36, R37) -/

/-- The ceiling of a launch: the header's where it has one, within the context's. -/
theorem Launch.ceiling_eq (l : Launch) :
    l.ceiling = if l.header.ceiling = 0 then l.space.dlceil else min l.header.ceiling l.space.dlceil := rfl

/-- The 62 low bits of a deadline register are its tick. -/
theorem toNat_low62 (v : Word) : (v.extractLsb' 0 62).toNat = v.toNat % 2 ^ 62 := by
  rw [BitVec.extractLsb'_toNat, Nat.shiftRight_zero]

/-- Settles O29: the fields of the effective deadline, with the named tick as a field of the register. -/
theorem effectiveDeadline : Obligations.EffectiveDeadline := by
  unfold Obligations.EffectiveDeadline
  intro s l p v sel d t0 c named
  have hnamed : named = v.toNat % 2 ^ 62 := toNat_low62 v
  rw [hnamed]
  exact ⟨rfl, decide_eq_true_iff, decide_eq_true_iff, rfl, rfl⟩

end Sys2Proof.Machine
end

section
/-!
SUPPORT. The token stack: what fills and spills nothing, the tokens that MJOIN pops, and the four token instructions (R98 to
R103).
-/
namespace Sys2Proof.Machine

/-! ### Fills and spills (R103) -/

section
variable (s : State) (l : Launch) {p : Party}

theorem State.fillToken_of_unspilled (h : p.spilled = 0) (k : Nat) : s.fillToken l p k = .ok p := by
  unfold State.fillToken
  split
  · rfl
  · exact if_pos (h ▸ Nat.zero_le _)

theorem State.fillBreaks_of_unspilled (h : p.spilled = 0) (n : Nat) : ∀ k, s.fillBreaks l p k n = .ok p := by
  induction n with
  | zero => exact fun k => rfl
  | succ n ih =>
    intro k
    rw [State.fillBreaks, State.fillToken_of_unspilled s l h]
    show (match p.tokens[k]? with | some t => if t.isBreak then s.fillBreaks l p (k + 1) n else pure p | none => pure p) = _
    split
    · rw [ih, ite_eq_left_iff]
      exact fun _ => rfl
    · rfl

theorem State.fillBreaks_of_empty (h : p.tokens = []) (n : Nat) : s.fillBreaks l p 0 n = .ok p := by
  cases n with
  | zero => rfl
  | succ n =>
    have hnone : p.tokens[0]? = none := by simp [h]
    rw [State.fillBreaks, State.fillToken, hnone]
    simp [bind, Except.bind, hnone, pure, Except.pure]

theorem State.spillTokens_of_few (h : p.tokens.length ≤ p.spilled + 32) (n : Nat) : s.spillTokens l p n = .ok (s, p) := by
  cases n with
  | zero => rfl
  | succ n => exact if_pos h

end

/-! ### The instructions (R99 to R102) -/

/-- Where every lane write of a mask is seen, a mask reads as it stands. -/
theorem State.scalarMask_of_settled (s : State) {p : Party} (h : p.looseMasks = []) (n : BitVec 3) : s.scalarMask p n = p.mask n := by
  simp [State.scalarMask, h]

/-- A token instruction whose spill succeeds ends with what the spill leaves. -/
theorem endToken_of_spill {s t : State} {p q : Party}
    (h : s.spillTokens (s.home p) { p with spilled := min p.spilled p.tokens.length } 256 = .ok (t, q)) (next : Word) :
    endToken s p next = .next (t.finishAt q next) := by
  simp only [endToken, Party.settleTokens, Nat.min_def] at *
  rw [h]

theorem Party.push_of_room {p : Party} (h : p.tokens.length < 256) (t : Token) :
    p.push t = some { p with tokens := t :: p.tokens } := if_neg (Nat.not_le.mpr h)

theorem Party.push_of_full {p : Party} (h : p.tokens.length = 256) (t : Token) : p.push t = none := if_pos h.ge

/-- The stack after the lanes `x` break out to `label` (R100): a BREAK to that label at the top loses them, and else one is
pushed. -/
def Party.broken (p : Party) (label : Word) (x : Mask) : List Token :=
  let fresh : Token := { isBreak := true, addr := label, image := p.allLanes &&& ~~~x }
  if x = 0 then p.tokens
  else match p.tokens with
    | t :: rest => if t.isBreak = true ∧ t.addr = label then { t with image := t.image &&& ~~~x } :: rest else fresh :: t :: rest
    | [] => [fresh]

theorem Party.breakOut_of_room {p : Party} {label : Word} {x : Mask} (h : (p.broken label x).length ≤ 256) :
    p.breakOut label x = some { p with tokens := p.broken label x } := by
  unfold Party.broken at h ⊢
  unfold Party.breakOut
  by_cases hx : x = 0
  · simp only [if_pos hx]
  · simp only [if_neg hx] at h ⊢
    cases htokens : p.tokens with
    | nil => exact (Party.push_of_room (by simp [htokens]) _).trans (by simp [htokens])
    | cons t rest =>
      simp only [htokens, Bool.and_eq_true, beq_iff_eq] at h ⊢
      by_cases ht : t.isBreak = true ∧ t.addr = label
      · simp only [if_pos ht]
      · simp only [if_neg ht, List.length_cons] at h ⊢
        exact (Party.push_of_room (by simp [htokens]; omega) _).trans (by simp [htokens])

/-- What MJOIN pops: the BREAK tokens above the innermost JOIN, of which those of other labels are set aside. -/
theorem popBreaks_breaks (here : Word) {breaks : List Token} (hbreaks : (breaks.all fun t => t.isBreak) = true) {j : Token}
    (hj : j.isBreak = false) (rest : List Token) : ∀ aside, popBreaks here aside (breaks ++ j :: rest) =
      ((breaks.filter fun t => t.addr != here).reverse ++ aside, j :: rest) := by
  induction breaks with
  | nil => intro aside; simp [popBreaks, hj]
  | cons t breaks ih =>
    simp only [List.all_cons, Bool.and_eq_true] at hbreaks
    obtain ⟨ht, hrest⟩ := hbreaks
    intro aside
    rw [List.cons_append, popBreaks, if_pos ht, ih hrest]
    by_cases haddr : t.addr = here <;> simp [haddr]

/-- The lanes of an image that every token of a list has too. -/
theorem getLsbD_foldl_images (l : List Token) (i : Nat) : ∀ m : Mask,
    (l.foldl (fun m t => m &&& t.image) m).getLsbD i = (m.getLsbD i && l.all fun t => t.image.getLsbD i) := by
  induction l with
  | nil => simp
  | cons t l ih => intro m; simp [ih, Bool.and_assoc]

section
variable {s : State} (hloose : s.party.looseMasks = [])
include hloose

theorem execMpush_of_room (hfree : s.holdsMask s.party 0 = false) (hroom : s.party.tokens.length < 256) (k : Bool) (a : BitVec 3)
    (off : BitVec 15) :
    let label : Word := s.party.pc + 4 * off.signExtend 64
    let x := s.party.mask 0 &&& s.party.mask a
    execMpush k a off s = endToken s
      ({ s.party with tokens := { isBreak := false, addr := label, image := s.party.mask 0 } :: s.party.tokens }.writeMask
        (s.seed s.party) 0 x) (if x = 0 then label else s.party.pc + 4) := by
  simp only [execMpush, hfree, State.scalarMask_of_settled s hloose, targetOf_eq, Party.push_of_room hroom]
  rfl

theorem execMbrk_of_fill (hfree : s.holdsMask s.party 0 = false) {f : Party}
    (hfill : s.fillBreaks (s.home s.party) s.party 0 256 = .ok f) (k : Bool) (a : BitVec 3) (off : BitVec 15) :
    let label : Word := s.party.pc + 4 * off.signExtend 64
    let x := s.party.mask 0 &&& s.party.mask a
    let left := s.party.mask 0 &&& ~~~x
    (f.broken label x).length ≤ 256 → execMbrk k a off s =
      let q := { f with tokens := f.broken label x }.writeMask (s.seed s.party) 0 left
      if left = 0 then
        match (f.broken label x).find? fun t => !t.isBreak with
        | none => raiseStack s
        | some j => endToken s q j.addr
      else endToken s q (f.pc + 4) := by
  intro label x left hroom
  simp only [execMbrk, hfree, State.scalarMask_of_settled s hloose, targetOf_eq, hfill]
  rw [Party.breakOut_of_room hroom]
  rfl

end

/-- MJOIN where the JOIN token for its address lies under the leading BREAK tokens (R101). -/
theorem execMjoin_of_fill {s : State} {f : Party} {breaks : List Token} {j : Token} {rest : List Token}
    (hfree : s.holdsMask s.party 0 = false) (hfill : s.fillBreaks (s.home s.party) s.party 0 256 = .ok f)
    (htokens : f.tokens = breaks ++ j :: rest) (hbreaks : (breaks.all fun t => t.isBreak) = true) (hj : j.isBreak = false)
    (haddr : j.addr = f.pc) (k : Bool) :
    let aside := (breaks.filter fun t => t.addr != f.pc).reverse
    execMjoin k s = endToken s ({ f with tokens := aside.foldl pushBack rest }.writeMask (s.seed s.party) 0
      (aside.foldl (fun m (t : Token) => m &&& t.image) j.image)) (f.pc + 4) := by
  have hpop := popBreaks_breaks f.pc hbreaks hj rest []
  rw [List.append_nil, ← htokens] at hpop
  simp only [execMjoin, hfree, hfill, hpop, haddr, bne_self_eq_false]
  rfl

theorem execMpop_of_fill {s : State} {f : Party} {d : BitVec 3} {t : Token} {rest : List Token}
    (hfree : s.holdsMask s.party d = false) (hfill : s.fillToken (s.home s.party) s.party 0 = .ok f)
    (htokens : f.tokens = t :: rest) (k : Bool) :
    execMpop k d s = endToken s ({ f with tokens := rest }.writeMask (s.seed s.party) d t.image) (f.pc + 4) := by
  simp only [execMpop, hfree, hfill, htokens]
  rfl

/-- Settles O18: each instruction by what it leaves to `endToken`, with the stack it pops or pushes. -/
theorem tokenInstructions : Obligations.TokenInstructions := by
  unfold Obligations.TokenInstructions
  refine ⟨?_, fun s l p b n => ⟨fun hlo hroom => s.slide_resident hlo hroom, fun hspilled => ⟨s.fillToken_of_unspilled l hspilled 0,
    s.fillBreaks_of_unspilled l hspilled n 0, fun hfew => s.spillTokens_of_few l (by omega) n⟩⟩⟩
  intro s k pa d off hloose l pc p0 x label ends
  refine ⟨fun hfree hroom t q hspill => ?_, fun hfree hfull => ?_, fun f hfree hfill hroom => ?_,
    fun f breaks j rest hfree hfill htokens hbreaks hj haddr => ⟨_, fun i => ?_, fun t q hspill =>
      (execMjoin_of_fill hfree hfill htokens hbreaks hj haddr k).trans (endToken_of_spill hspill _)⟩,
    fun f t rest hfree hfill htokens u q hspill => (execMpop_of_fill hfree hfill htokens k).trans (endToken_of_spill hspill _),
    fun hfree hfreeD hempty => ⟨?_, ?_⟩⟩
  · exact (execMpush_of_room hloose hfree hroom k pa off).trans (endToken_of_spill hspill _)
  · show execMpush k pa off s = _
    simp only [execMpush, hfree, Party.push_of_full hfull]
    rfl
  · have hbrk := execMbrk_of_fill hloose hfree hfill k pa off hroom
    refine ⟨fun hleft t q hspill => ?_, fun j hleft hjoin t q hspill => ?_, fun hleft hnone => ?_⟩
    · exact (hbrk.trans (if_neg hleft)).trans (endToken_of_spill hspill _)
    · refine (hbrk.trans (if_pos hleft)).trans ?_
      rw [show (f.broken _ _).find? _ = some j from hjoin]
      exact endToken_of_spill hspill _
    · refine (hbrk.trans (if_pos hleft)).trans ?_
      rw [show (f.broken _ _).find? _ = none from List.find?_eq_none.mpr fun t ht => by simpa using List.all_eq_true.mp hnone t ht]
  · rw [getLsbD_foldl_images, List.all_reverse]
  · show execMjoin k s = _
    simp only [execMjoin, hfree, s.fillBreaks_of_empty _ hempty, hempty, popBreaks]
    rfl
  · have hnone : s.party.tokens[0]? = none := by simp [hempty]
    have hfill : s.fillToken (s.home s.party) s.party 0 = .ok s.party := by rw [State.fillToken, hnone]
    show execMpop k d s = _
    simp only [execMpop, hfreeD, hfill, hempty]
    rfl

end Sys2Proof.Machine
end

section
/-!
SUPPORT. What the part does around a party leaves the party in focus as it is, but for its logical time and its wait, which a
store may meet (R207, R209, R318): stores, events, records, barriers.
-/
namespace Sys2Proof.Machine

/-- The party in focus is the same in two states, but for its logical time and its wait. -/
def SameParty (s t : State) : Prop := ∃ n w, t.party = { s.party with pt := n, wait := w }

theorem SameParty.of_eq {s t : State} (h : t.party = s.party) : SameParty s t := ⟨s.party.pt, s.party.wait, h⟩

theorem SameParty.refl (s : State) : SameParty s s := .of_eq rfl

theorem SameParty.trans {s t u : State} (h : SameParty s t) (k : SameParty t u) : SameParty s u := by
  obtain ⟨n, w, hn⟩ := h
  obtain ⟨m, x, hm⟩ := k
  exact ⟨m, x, by rw [hm, hn]⟩

theorem SameParty.pid {s t : State} (h : SameParty s t) : t.party.pid = s.party.pid := by
  obtain ⟨n, w, hn⟩ := h
  rw [hn]

theorem SameBut.sameParty {s t : State} (h : SameBut s t) : SameParty s t := by
  obtain ⟨n, hn⟩ := h.party
  exact ⟨n, s.party.wait, hn⟩

/-- A fold of steps of this kind is one. -/
theorem SameParty.foldl {α : Type} {f : State → α → State} (hf : ∀ s a, SameParty s (f s a)) (l : List α) (s : State) :
    SameParty s (l.foldl f s) := by
  induction l generalizing s with
  | nil => exact .refl s
  | cons a l ih => exact (hf s a).trans (ih _)

/-- The same of steps that may be denied. -/
theorem SameParty.foldlM {α : Type} {f : State → α → Except Deny State} (hf : ∀ s a t, f s a = .ok t → SameParty s t)
    (l : List α) {s t : State} (e : l.foldlM f s = .ok t) : SameParty s t := by
  induction l generalizing s with
  | nil => cases e; exact .refl _
  | cons a l ih =>
    rw [List.foldlM_cons] at e
    cases hs : f s a with
    | error d => rw [hs] at e; cases e
    | ok u => rw [hs] at e; exact (hf s a u hs).trans (ih e)

/-! ### Stores -/

theorem State.rekey_party (s : State) (sector key : Nat) : (s.rekey sector key).party = s.party := by
  unfold State.rekey
  split <;> rfl

theorem State.writePhys_sameParty (s : State) (pa : Nat) (bs : List Byte) (key : Nat) : SameParty s (s.writePhys pa bs key) :=
  SameParty.foldl (f := fun s x => s.rekey x key) (fun s x => .of_eq (s.rekey_party x key)) (sectorsOf pa bs.length) s

theorem State.writePlace_sameParty (s : State) (p : Place) (bs : List Byte) : SameParty s (s.writePlace p bs) := by
  unfold State.writePlace
  split
  · exact State.writePhys_sameParty ..
  · split
    · exact .of_eq rfl
    · exact .refl s

theorem State.poisonByte_sameParty (s : State) (p : Place) : SameParty s (s.poisonByte p) := by
  unfold State.poisonByte
  split
  · exact .of_eq rfl
  · split
    · exact .of_eq rfl
    · exact .refl s

theorem State.writeAs_sameParty (s : State) (a : Agent) (p : Place) (bs : List Byte) : SameParty s (s.writeAs a p bs).1 :=
  (State.noteWrite_same s a p bs.length).sameParty.trans (State.writePlace_sameParty ..)

/-- A party found by its number, put back with another time and wait. -/
theorem State.putParty_sameParty {s t : State} (h : SameParty s t) {pid : Nat} {p : Party} (hp : s.party? pid = some p) (n : Nat)
    (w : Option Wait) : SameParty s (t.putParty { p with pt := n, wait := w }) := by
  unfold State.putParty
  split
  · rename_i hpid
    have hfound : s.party = p := by
      have hp' : p.pid = pid := by simpa using List.find?_some hp
      have hhead : (s.party.pid == pid) = true := by rw [← h.pid, hpid, ← hp']; exact beq_self_eq_true _
      have hfirst : s.party? pid = some s.party := List.find?_cons_of_pos hhead
      rw [hfirst] at hp
      exact Option.some.inj hp
    exact ⟨n, w, by rw [hfound]⟩
  · exact h

theorem State.watch_sameParty (s : State) (pid : Nat) : SameParty s (s.watch pid) := by
  unfold State.watch
  split
  · exact .refl s
  · rename_i p hp
    split
    · exact .refl s
    · split
      · split
        · exact .refl s
        · split
          · exact .refl s
          · exact State.putParty_sameParty (State.noteRead_same ..).sameParty hp ..
      · exact .refl s

theorem State.watchAll_sameParty (s : State) : SameParty s s.watchAll := SameParty.foldl State.watch_sameParty _ s

theorem State.retest_sameParty (s : State) (pid : Nat) : SameParty s (s.retest pid) := by
  unfold State.retest
  split
  · exact .refl s
  · rename_i p hp
    split
    · exact .refl s
    · split
      · split
        · exact (State.putParty_sameParty (State.writeAs_sameParty ..) hp ..).trans (State.watchAll_sameParty _)
        · exact .refl s
      · exact .refl s

theorem State.retestAll_sameParty (s : State) : SameParty s s.retestAll := SameParty.foldl State.retest_sameParty _ s

theorem State.storeAs_sameParty (s : State) (a : Agent) (p : Place) (bs : List Byte) : SameParty s (s.storeAs a p bs).1 :=
  ((s.writeAs_sameParty a p bs).trans (State.watchAll_sameParty _)).trans (State.retestAll_sameParty _)

theorem State.atTime_sameParty (s : State) (n : Nat) : SameParty s (s.atTime n) := (State.atTime_same s n).sameParty

theorem State.partyStore_sameParty (s : State) (p : Place) (bs : List Byte) : SameParty s (s.partyStore p bs) :=
  (s.storeAs_sameParty ..).trans (State.atTime_sameParty ..)

theorem State.partyRead_sameParty (s : State) (p : Place) (n : Nat) : SameParty s (s.partyRead p n) :=
  (State.partyRead_same s p n).sameParty

theorem State.setWait_sameParty (s : State) (w : Option Wait) : SameParty s (s.setWait w) := ⟨s.party.pt, w, rfl⟩

theorem State.save_sameParty {s t : State} {ac : Accessor} {a : Word} {n v : Nat} (e : s.save ac a n v = .ok t) :
    SameParty s t := by
  unfold State.save at e
  cases hp : s.writePlaceOf ac a n .write with
  | error d => rw [hp] at e; cases e
  | ok p => rw [hp] at e; cases e; exact State.storeAs_sameParty ..

theorem State.putBytes_sameParty {s t : State} {sp : Space} {fuel va : Nat} {bs : List Byte}
    (e : s.putBytes sp fuel va bs = .ok t) : SameParty s t := by
  induction fuel generalizing s va bs with
  | zero => cases e; exact .refl _
  | succ fuel ih =>
    unfold State.putBytes at e
    split at e
    · cases e; exact .refl _
    · split at e
      · cases e
      · split at e
        · cases e
        · exact (State.writeAs_sameParty ..).trans (ih e)

theorem State.arenaWrite_sameParty {s t : State} {sp : Space} {va : Nat} {bs : List Byte} (e : s.arenaWrite sp va bs = .ok t) :
    SameParty s t := State.putBytes_sameParty e

/-! ### Events (R356, R367) -/

theorem State.claim_sameParty {s t : State} {a : Agent} {core : Nat} {ac : Accessor} {slot counter q seq seq' : Word}
    {want old time : Nat} (e : s.claim a core ac slot counter want old seq = .ok (.slot t time q seq')) : SameParty s t := by
  unfold State.claim at e
  simp only [bind, Except.bind, pure, Except.pure] at e
  split at e
  · cases e
  · rename_i r hr
    have hread := (State.loadAs_same (at_ok hr)).sameParty
    repeat' split at e
    all_goals first
      | (cases e; done)
      | (cases e; exact hread.trans (State.storeAs_sameParty ..))

theorem State.interrupt_party (s : State) (fn vector : Nat) : (s.interrupt fn vector).party = s.party := by
  unfold State.interrupt
  split
  · rfl
  · split <;> rfl

theorem State.putEvent_sameParty {s t : State} {ctx : Nat} {bs : List Byte} (e : s.putEvent ctx bs = some t) :
    SameParty s t := by
  unfold State.putEvent at e
  dsimp only at e
  split at e
  · split at e
    · cases e
    · split at e
      · cases e
      · split at e
        · rename_i hclaim
          split at e
          · cases e
          · rename_i hwrite
            have hput := (State.claim_sameParty hclaim).trans (State.arenaWrite_sameParty hwrite)
            split at e
            · rename_i hsave _
              cases e
              exact ((hput.trans (State.save_sameParty hsave)).trans
                (SameParty.foldl (f := fun s (x : Place × Nat) => s.showHost x.1 x.2) (fun s x => .of_eq rfl) _ _)).trans
                (.of_eq (State.interrupt_party ..))
            · rename_i hsave _
              cases e
              exact (hput.trans (State.save_sameParty hsave)).trans (.of_eq (State.interrupt_party ..))
            · cases e
        · cases e
  · cases e

theorem State.flushEvents_sameParty (s : State) : SameParty s s.flushEvents := by
  suffices ∀ (l : List (Nat × List Byte)) (acc : State × List (Nat × List Byte)), SameParty s acc.1 →
      SameParty s (l.foldl (fun (acc : State × List (Nat × List Byte)) e =>
        if acc.2.any fun w => w.1 == e.1 then (acc.1, acc.2 ++ [e])
        else match acc.1.putEvent e.1 e.2 with
          | some s => (s, acc.2)
          | none => (acc.1, acc.2 ++ [e])) acc).1 from this _ _ (.of_eq rfl)
  intro l
  induction l with
  | nil => exact fun _ h => h
  | cons e l ih =>
    intro acc hacc
    rw [List.foldl_cons]
    refine ih _ ?_
    split
    · exact hacc
    · split
      · rename_i hput
        exact hacc.trans (State.putEvent_sameParty hput)
      · exact hacc

theorem State.report_sameParty (s : State) (ctx : Nat) (e : Event) : SameParty s (s.report ctx e) :=
  State.flushEvents_sameParty { s with events := s.events ++ [(ctx, e.bytes)] }

theorem State.ask_sameParty (s : State) (ctx : Nat) (who : Asker) (e : Event) : SameParty s (s.ask ctx who e).2 := by
  unfold State.ask
  split
  · exact .refl s
  · exact State.report_sameParty { s with tickets := _ } ..

/-! ### Barriers (R199 to R205, R291 to R296) -/

theorem State.updateRecord_sameParty (s : State) (sp : Space) (va : Nat) (bs : List Byte) :
    SameParty s (s.updateRecord sp va bs) := by
  unfold State.updateRecord
  split
  · rename_i e
    exact State.arenaWrite_sameParty e
  · exact .refl s

theorem State.setBarrier_sameParty (s : State) (l : Launch) (g : Nat) (level : Bool) (i : Nat) (b : Barrier) :
    SameParty s (s.setBarrier l g level i b) := by
  unfold State.setBarrier
  split
  · split
    · exact .of_eq rfl
    · exact .refl s
  · exact State.updateRecord_sameParty ..

theorem State.setRoot_sameParty (s : State) (l : Launch) (c i : Nat) (r : Root) : SameParty s (s.setRoot l c i r) := by
  unfold State.setRoot
  split
  · split
    · exact .of_eq rfl
    · exact .refl s
  · exact State.updateRecord_sameParty ..

theorem State.advanceRoot_sameParty (s : State) (l : Launch) (c i : Nat) : SameParty s (s.advanceRoot l c i) := by
  unfold State.advanceRoot
  dsimp only
  split
  · exact (s.setRoot_sameParty ..).trans (SameParty.foldl (fun s g => s.setBarrier_sameParty ..) _ _)
  · exact .refl s

theorem State.arriveUp_sameParty (s : State) (l : Launch) (g i : Nat) : SameParty s (s.arriveUp l g i) := by
  unfold State.arriveUp
  dsimp only
  split
  · exact (s.setRoot_sameParty ..).trans (State.advanceRoot_sameParty ..)
  · exact .refl s

theorem State.barrWithdraw_sameParty (s : State) (l : Launch) (p : Party) (sel : Word) : SameParty s (s.barrWithdraw l p sel) := by
  unfold State.barrWithdraw
  dsimp only
  split
  · exact (s.setBarrier_sameParty ..).trans (State.setRoot_sameParty ..)
  · exact s.setBarrier_sameParty ..

theorem State.barrDrop_sameParty (s : State) (l : Launch) (p : Party) (sel : Word) : SameParty s (s.barrDrop l p sel) := by
  unfold State.barrDrop
  dsimp only
  split
  · split
    · exact ((s.setBarrier_sameParty ..).trans (State.setRoot_sameParty ..)).trans (State.advanceRoot_sameParty ..)
    · exact (s.setBarrier_sameParty ..).trans (State.arriveUp_sameParty ..)
  · exact s.setBarrier_sameParty ..

theorem State.dropBarriers_sameParty (s : State) (l : Launch) (p : Party) : SameParty s (s.dropBarriers l p) :=
  SameParty.foldl (fun s _ => s.barrDrop_sameParty l p _) _ s

theorem State.takeBack_sameParty (s : State) (p : Party) (w : Wait) : SameParty s (s.takeBack p w) := by
  unfold State.takeBack
  split
  · exact s.barrWithdraw_sameParty ..
  · exact .refl s

/-! ### Groups that leave a core (R284, R296) -/

theorem State.keepScratch_sameParty (s : State) (g : Group) : SameParty s (s.keepScratch g) := by
  unfold State.keepScratch
  refine (SameParty.foldl (f := fun (t : State) (b : Backing) =>
    (t.moveLines (.spad g.launch g.number b.off) (.phys b.base 0) b.len).writePhys b.base (readBytes g.spad b.off b.len) b.key)
    (fun s b => State.writePhys_sameParty _ _ _ _) g.backing s).trans (SameParty.foldl (fun s u => ?_) _ _)
  split
  · exact State.poisonByte_sameParty ..
  · exact .refl s

theorem State.saveUnit_sameParty {s t : State} {l : Launch} {g : Group} {u : Nat} (e : s.saveUnit l g u = .ok t) :
    SameParty s t := by
  unfold State.saveUnit at e
  simp only [bind, Except.bind, pure, Except.pure] at e
  split at e
  · cases e
  · rename_i hw
    have hwrite := State.arenaWrite_sameParty hw
    repeat' split at e
    all_goals (cases e; first | exact hwrite | exact hwrite.trans (State.poisonByte_sameParty ..))

theorem State.saveScratch_sameParty {s t : State} {l : Launch} {g : Group} (e : s.saveScratch l g = .ok t) : SameParty s t := by
  unfold State.saveScratch at e
  dsimp only at e
  split at e
  · cases e; exact s.keepScratch_sameParty g
  · exact (s.keepScratch_sameParty g).trans (SameParty.foldlM (fun _ _ _ e => State.saveUnit_sameParty e) _ e)

theorem State.saveRoots_sameParty {s t : State} {l : Launch} {c : Nat} (e : s.saveRoots l c = .ok t) : SameParty s t :=
  SameParty.foldlM (fun _ _ _ e => State.arenaWrite_sameParty e) _ e

theorem State.saveRecords_sameParty {s t : State} {l : Launch} {g : Group} (e : s.saveRecords l g = .ok t) : SameParty s t := by
  unfold State.saveRecords at e
  simp only [bind, Except.bind, pure, Except.pure] at e
  split at e
  · cases e
  · rename_i hleaf
    split at e
    · cases e
    · rename_i hcleaf
      have hput := (SameParty.foldlM (fun _ _ _ e => State.arenaWrite_sameParty e) _ hleaf).trans
        (SameParty.foldlM (fun _ _ _ e => State.arenaWrite_sameParty e) _ hcleaf)
      split at e
      · cases e; exact hput
      · exact hput.trans (State.saveRoots_sameParty e)

theorem State.leaveCore_sameParty {s t : State} {l : Launch} {g : Nat} (e : s.leaveCore l g = .ok t) : SameParty s t := by
  unfold State.leaveCore at e
  split at e
  · cases e; exact .refl _
  · split at e
    · cases e; exact .refl _
    · simp only [bind, Except.bind] at e
      split at e
      · cases e
      · rename_i hsave
        exact (State.saveScratch_sameParty hsave).trans (State.saveRecords_sameParty e)

theorem State.goHome_sameParty (s : State) (l : Launch) (g : Group) : SameParty s (s.goHome l g) := by
  unfold State.goHome
  extract_lets t c
  have ht : SameParty s t := by
    simp only [t]
    split
    · exact .refl s
    · split
      · rename_i e; exact State.leaveCore_sameParty e
      · exact .refl s
  split
  · exact ht
  · split
    · rename_i e; exact ht.trans (State.saveRoots_sameParty e)
    · exact ht

theorem State.closeGroup_sameParty (s : State) (launch number : Nat) (resident : Bool) :
    SameParty s (s.closeGroup launch number resident) := by
  unfold State.closeGroup
  split
  · extract_lets over_ t
    have ht : SameParty s t := by
      simp only [t]
      split
      · exact (s.keepScratch_sameParty _).trans (.of_eq rfl)
      · exact .refl s
    split
    · exact ht.trans (State.goHome_sameParty ..)
    · exact ht
  · exact .refl s

theorem State.endFuses_sameParty (s : State) (p : Party) (code : Word) : SameParty s (s.endFuses p code) := by
  unfold SameParty State.endFuses
  dsimp only
  split
  · split
    · exact ⟨s.party.pt, _, rfl⟩
    · exact ⟨s.party.pt, s.party.wait, rfl⟩
  · exact ⟨s.party.pt, s.party.wait, rfl⟩

end Sys2Proof.Machine
end

section
/-!
SUPPORT. How a wait ends and issues (R37 to R39, R160).
-/
namespace Sys2Proof.Machine

/-! ### STUCK (R160) -/

/-- An offer asks system software, and is noted with its party. -/
theorem State.offerTrap_party (s : State) (t : Trap) : ∃ n w o, (s.offerTrap t).party = { s.party with
    pt := n, wait := w, offer := some o } := by
  obtain ⟨n, w, hparty⟩ := State.ask_sameParty s (s.home s.party).space.ctx (s.party.asker t)
    (s.party.trapEvent (s.home s.party) t)
  exact ⟨n, w, _, by rw [State.offerTrap, hparty]⟩

/-- A party that is STUCK stops, with its offer. -/
theorem State.stick_party (s : State) (t : Trap) : ∃ n w o, (s.stick t).party = { s.party with
    pt := n, wait := w, stopped := true, offer := some o } := by
  unfold State.stick
  extract_lets p l t' u
  have hrecord : SameParty s u := by
    simp only [u]
    split
    · rename_i e
      exact State.arenaWrite_sameParty e
    · exact .refl s
  obtain ⟨n, w, hu⟩ := hrecord
  obtain ⟨m, x, o, hoffer⟩ := State.offerTrap_party { u with party := { u.party with stopped := true } } t'
  exact ⟨m, x, o, by rw [hoffer, hu]⟩

/-- Where no other trap is pending, STUCK is taken at once. -/
theorem State.stickNext_free {s : State} (hoffer : s.party.offer = none) (hraised : s.party.raised = none) (t : Trap) :
    s.stickNext t = s.stick t := by
  simp [State.stickNext, hoffer, hraised]

/-- While another trap is pending, STUCK is noted to be taken after it. -/
theorem State.stickNext_busy {s : State} (h : s.party.offer ≠ none ∨ s.party.raised ≠ none) (t : Trap) :
    s.stickNext t = { s with party := { s.party with stucks := s.party.stucks ++ [t] } } := by
  refine if_pos ?_
  simpa [Option.isSome_iff_ne_none] using h

/-! ### Ends of waits (R38, R39) -/

/-- The state after a wait has ended with a status, before STUCK is considered. -/
def State.endedAs (s : State) (dest : Reg) (count : BitVec 8) (st : Word) : State :=
  s.finish (({ s.party with xcount := count, wait := none }.setSt st).setReg dest (codeOf st))

/-- The end of a wait is that state, STUCK with it where the expiry escalates. -/
theorem State.endWait_eq (s : State) (dest : Reg) (d : Deadline) (st : Word) (expired : Bool) :
    let count := countAfter d expired s.party.xcount
    s.endWait dest d st expired =
      if escalates d expired count (s.home s.party).space.xlim then
        (s.endedAs dest count st).stickNext { Trap.scalar .stuck s.party.pc (s.party.pc + 4) with
          code := BitVec.ofNat 64 (d.sel.toNat + count.toNat * 256) }
      else s.endedAs dest count st := rfl

section
variable (s : State) (dest : Reg) (count : BitVec 8) (st : Word)

theorem State.endedAs_party : (s.endedAs dest count st).party =
    (({ s.party with xcount := count, wait := none }.setSt st).setReg dest (codeOf st)).retire (s.party.pc + 4) := by
  simp [State.endedAs]

theorem State.endedAs_st : (s.endedAs dest count st).party.st = st := by simp [State.endedAs_party]

theorem State.endedAs_pc : (s.endedAs dest count st).party.pc = s.party.pc + 4 := by simp [State.endedAs_party]

theorem State.endedAs_stucks : (s.endedAs dest count st).party.stucks = s.party.stucks := by simp [State.endedAs_party]

theorem State.endedAs_offer : (s.endedAs dest count st).party.offer = s.party.offer := by simp [State.endedAs_party]

theorem State.endedAs_raised : (s.endedAs dest count st).party.raised = s.party.raised := by simp [State.endedAs_party]

end

/-- A wait that escalates leaves its status and control at the next word, and STUCK taken, or to be taken after the trap that is
pending. -/
theorem State.endWait_stuck {s : State} {dest : Reg} {d : Deadline} {st : Word} {expired : Bool}
    (h : escalates d expired (countAfter d expired s.party.xcount) (s.home s.party).space.xlim = true) :
    let t := s.endWait dest d st expired
    t.party.st = st ∧ t.party.pc = s.party.pc + 4 ∧
      (s.party.offer = none → s.party.raised = none → t.party.stopped = true) ∧
      (s.party.offer ≠ none ∨ s.party.raised ≠ none →
        ∃ x : Trap, x.cause = .stuck ∧ x.pc = s.party.pc ∧ t.party.stucks = s.party.stucks ++ [x]) := by
  intro t
  have ht : t = _ := (State.endWait_eq s dest d st expired).trans (if_pos h)
  by_cases hfree : s.party.offer = none ∧ s.party.raised = none
  · obtain ⟨hoffer, hraised⟩ := hfree
    rw [State.stickNext_free (by rwa [State.endedAs_offer]) (by rwa [State.endedAs_raised])] at ht
    obtain ⟨n, w, o, hstick⟩ := State.stick_party _ _
    rw [ht, hstick]
    exact ⟨State.endedAs_st .., State.endedAs_pc .., fun _ _ => rfl, fun hbusy => by simp [hoffer, hraised] at hbusy⟩
  · have hbusy : s.party.offer ≠ none ∨ s.party.raised ≠ none := not_and_or.mp hfree
    rw [State.stickNext_busy (by rwa [State.endedAs_offer, State.endedAs_raised])] at ht
    rw [ht]
    exact ⟨State.endedAs_st .., State.endedAs_pc .., fun ho hr => absurd ⟨ho, hr⟩ hfree,
      fun _ => ⟨_, rfl, rfl, congrArg (· ++ _) (State.endedAs_stucks ..)⟩⟩

/-! ### Issue (R37, R203) -/

section
variable {s : State} {w : Wait}

theorem State.startWait_ended {t : State} {st : Word} (h : s.attempt w = .ended t st) : s.startWait w = .next (t.endWith w st) := by
  rw [State.startWait, h]

theorem State.startWait_waiting (h : s.attempt w = .waiting) : s.startWait w =
    if w.kind = .barrier then .next { s.setWait (some (w.standing s)) with ids := s.ids + 1 }
    else if w.deadline.poll then .next (s.expire w)
    else .next { s.setWait (some w) with ids := s.ids + 1 } := by
  rw [State.startWait, h]

/-- Only a wait at a barrier takes something back. -/
theorem State.takeBack_of_not_barrier (h : w.kind ≠ .barrier) (p : Party) : s.takeBack p w = s := by
  unfold State.takeBack
  split
  · rename_i hkind; exact absurd hkind h
  · rfl

/-- A denial that is no poison leaves the logical time. -/
theorem State.sawPoison_of_other {d : Deny} (h : d.cause ≠ .poison) (ac : Accessor) (a : Word) : s.sawPoison ac d a = s := if_neg h

theorem State.startWait_trapped {d : Deny} {a : Word} (h : s.attempt w = .trapped d a) (hcause : d.cause ≠ .poison)
    (hkind : w.kind ≠ .barrier) : s.startWait w = .next (s.takeTrap (w.trap s.party.pc d a)) := by
  rw [State.startWait, h]
  simp only [State.takeBack_of_not_barrier hkind, raiseWait, State.sawPoison_of_other hcause, raise]

end

/-- Settles O30: a wait ends as `endWait` has it from the time that its signals leave, and issues by what its first test comes
to. -/
theorem waitEnds : Obligations.WaitEnds := by
  unfold Obligations.WaitEnds
  intro s w st u x count ended limit stuck
  have hu : s.endWith w st = u.endWait w.dest w.deadline st (isExpiry st) := rfl
  have hparty : ∃ n, u.party = { s.party with pt := n } ∧ u.home u.party = s.home s.party := by
    simp only [u]
    split
    · exact ⟨_, rfl, rfl⟩
    · exact ⟨s.party.pt, rfl, rfl⟩
  obtain ⟨n, hn, hhome⟩ := hparty
  have hcount : countAfter w.deadline (isExpiry st) u.party.xcount = count := by rw [hn]; rfl
  have hstuck : escalates w.deadline (isExpiry st) (countAfter w.deadline (isExpiry st) u.party.xcount)
      (u.home u.party).space.xlim = stuck := by rw [hcount, hhome]; rfl
  refine ⟨fun hcalm => ?_, fun hesc => ?_, fun t st h => State.startWait_ended h, fun h hpoll hkind => ?_, fun h hpoll hkind => ?_,
    fun h hkind => ?_, fun d addr h hcause hkind => State.startWait_trapped h hcause hkind⟩
  · rw [hu, State.endWait_eq, hstuck, hcalm, hcount]
    rfl
  · have hend := State.endWait_stuck (dest := w.dest) (st := st) (hstuck.trans hesc)
    rw [hn] at hend
    exact hu ▸ hend
  · rw [State.startWait_waiting h, if_neg hkind, if_pos hpoll]
  · rw [State.startWait_waiting h, if_neg hkind, hpoll]
    rfl
  · rw [State.startWait_waiting h, if_pos hkind]
    rfl

end Sys2Proof.Machine
end

section
/-!
SUPPORT. Lane instructions that issue and complete: which registers their effects name, what completion changes, and what the
scratchpad reads of a matrix instruction change (R28, R120, R121, R137 to R140, R194).
-/
namespace Sys2Proof.Machine

/-! ### The registers that an effect names (R68, R121) -/

theorem length_upTo (a n : Nat) : (upTo a n).length = n := by
  induction n generalizing a with
  | zero => rfl
  | succ n ih => rw [upTo, List.length_cons, ih]

/-- A value of a type fills as many registers as the type takes. -/
theorem length_placeValue (t : Ty) (v : Nat) : (placeValue t v).length = t.regs := by
  cases t <;> simp [placeValue, Ty.regs, Ty.bytes, length_upTo]

/-- Entries that write consecutive registers name registers from the first on. -/
theorem exists_of_mem_entriesOf {q pos : Nat} {ws : List (BitVec 32)} {x : Nat × BitVec 32} (hx : x ∈ entriesOf q pos ws) :
    ∃ j, j < ws.length ∧ x.1 = regKey q (pos + j) := by
  obtain ⟨⟨w, j⟩, hw, rfl⟩ := List.mem_map.mp hx
  exact ⟨j, (List.mem_zipIdx' hw).1, rfl⟩

/-- Entries for registers of active lanes of a party, from a register of the window on: `n` of each lane (R30, R121). -/
def LaneCtx.Names (c : LaneCtx) (base n : Nat) (entries : Table (BitVec 32)) : Prop :=
  ∀ x ∈ entries, ∃ lane j, lane < c.p.width ∧ c.active.getLsbD lane = true ∧ j < n ∧
    x.1 = regKey (c.p.first + lane) (c.p.b + (base + j))

theorem LaneCtx.toLanes_names (c : LaneCtx) (t : Ty) (g : Nat → Nat) :
    c.Names c.f.dst.toNat t.regs (c.toLanes t g).entries := by
  intro x hx
  obtain ⟨lane, hlane, hentry⟩ := List.mem_flatMap.mp hx
  obtain ⟨hwidth, hactive⟩ := (mem_lanesOf ..).mp hlane
  obtain ⟨j, hj, hkey⟩ := exists_of_mem_entriesOf hentry
  exact ⟨lane, j, hwidth, hactive, by rwa [length_placeValue] at hj, by rw [hkey, Nat.add_assoc]⟩

/-- The accumulator elements of a word are two values in each of its active lanes (R137). -/
theorem LaneCtx.accEntries_names (c : LaneCtx) {w : Nat} (hw : w < c.p.width / 32) (base : Nat) (t : Ty) (d : Nat → Nat) :
    c.Names base (2 * t.regs) (c.accEntries w base t d) := by
  intro x hx
  obtain ⟨l, hl, hentry⟩ := List.mem_flatMap.mp hx
  obtain ⟨-, hl32⟩ := (mem_upTo ..).mp hl
  split at hentry
  · rename_i hactive
    obtain ⟨e, he, hentry⟩ := List.mem_flatMap.mp hentry
    obtain ⟨j, hj, hkey⟩ := exists_of_mem_entriesOf hentry
    rw [length_placeValue] at hj
    have hlane : e % 32 = l ∧ (e / 32 = 0 ∨ e / 32 = 1) := by
      rcases List.mem_pair.mp he with rfl | rfl <;> omega
    obtain ⟨hmod, hdiv⟩ := hlane
    refine ⟨32 * w + l, t.regs * (e / 32) + j, by omega, hactive, ?_, ?_⟩
    · rcases hdiv with h | h <;> rw [h] <;> omega
    · rw [hkey]
      simp only [accPlace, hmod, Nat.add_assoc]
  · cases hentry

/-! ### What completion changes -/

theorem Party.popHead_eq (p : Party) : p.popHead = { p with queue := p.popHead.queue, laneCtr := p.popHead.laneCtr } := by
  unfold Party.popHead
  split
  · rfl
  · split <;> rfl

theorem Party.popHead_of_queue {p : Party} {b : Block} {rest : List Block} (h : p.queue = b :: rest) :
    (p.popHead.queue, p.popHead.laneCtr) = if p.laneCtr + 1 < b.len then (b :: rest, p.laneCtr + 1) else (rest, 0) := by
  unfold Party.popHead
  rw [h]
  dsimp only
  split <;> rfl

/-- The masks after an effect: the written register has its new bits in the lanes written. -/
def LaneCtx.masksAfter (c : LaneCtx) (e : LaneEffect) : Vector Mask 8 :=
  match e.mask with
  | some (n, lanes, value) => if h : n < 8 then c.p.p.set n ((c.p.p[n] &&& ~~~lanes) ||| (value &&& lanes)) else c.p.p
  | none => c.p.p

theorem Party.countGap_eq (p : Party) (f : LaneF) : p.countGap f = { p with recent := (p.countGap f).recent } := by
  unfold Party.countGap
  split <;> rfl

theorem Party.writeLaneMask_eq (p : Party) (f : LaneF) (order n : Nat) (lanes value : Mask) :
    p.writeLaneMask f order n lanes value = { p with
      p := if h : n < 8 then p.p.set n ((p.p[n] &&& ~~~lanes) ||| (value &&& lanes)) else p.p
      looseMasks := (p.writeLaneMask f order n lanes value).looseMasks } := by
  unfold Party.writeLaneMask
  split <;> rfl

/-- The writes of an instruction change registers and masks, and what is noted of them for later readers. -/
theorem LaneCtx.write_eq (c : LaneCtx) (e : LaneEffect) (complete : Option Nat) : c.write e complete = { c.p with
    regs := (c.p.putRegs (c.settleWrites e.entries)).regs, p := c.masksAfter e
    looseMasks := (c.write e complete).looseMasks, recent := (c.write e complete).recent } := by
  unfold LaneCtx.write LaneCtx.masksAfter
  dsimp only
  rw [Party.countGap_eq]
  cases e.mask with
  | none =>
    dsimp only
    split <;> rfl
  | some m =>
    dsimp only
    rw [Party.writeLaneMask_eq]
    split <;> rfl

/-- Completion makes the writes and takes the instruction from the head of the queue; nothing else changes. -/
theorem LaneCtx.finish_eq (c : LaneCtx) (e : LaneEffect) : c.finish e = { c.p with
    regs := (c.p.putRegs (c.settleWrites e.entries)).regs, p := c.masksAfter e, looseMasks := (c.finish e).looseMasks
    recent := (c.finish e).recent, queue := c.p.popHead.queue, laneCtr := c.p.popHead.laneCtr
    redo := none, part := none, headOp := none } := by
  have hpop : (c.write e (some c.p.lruns)).popHead = { c.write e (some c.p.lruns) with
      queue := c.p.popHead.queue, laneCtr := c.p.popHead.laneCtr } := by
    rw [LaneCtx.write_eq, Party.popHead_eq]
    unfold Party.popHead
    dsimp only
    split
    · rfl
    · split <;> rfl
  rw [LaneCtx.finish, hpop, LaneCtx.write_eq]
  rfl

/-! ### Registers that keep their values -/

/-- Of two merged tables, an entry that the first does not name is as in the second. -/
theorem find?_mergeEntries {α : Type} {key : Nat} : ∀ (n : Nat) {a b : Table α}, a.length + b.length ≤ n →
    (∀ x ∈ a, x.1 ≠ key) → (mergeEntries n a b).find? (fun e => e.1 == key) = b.find? (fun e => e.1 == key) := by
  intro n
  induction n with
  | zero =>
    intro a b hn _
    have ha : a = [] := List.length_eq_zero_iff.mp (by omega)
    have hb : b = [] := List.length_eq_zero_iff.mp (by omega)
    rw [ha, hb, mergeEntries]
  | succ n ih =>
    intro a b hn ha
    match a, b with
    | [], b => rfl
    | x :: a, [] =>
      rw [List.find?_nil, mergeEntries, List.find?_eq_none]
      exacts [fun y hy => by simpa using ha y hy, by simp]
    | x :: a, y :: b =>
      have hskip {z : Nat × α} (hz : z.1 ≠ key) (l : Table α) :
          (z :: l).find? (fun e => e.1 == key) = l.find? (fun e => e.1 == key) := List.find?_cons_of_neg (by simpa using hz)
      have hx : x.1 ≠ key := ha x (List.mem_cons_self ..)
      have hrest : ∀ z ∈ a, z.1 ≠ key := fun z hz => ha z (List.mem_cons_of_mem _ hz)
      simp only [List.length_cons] at hn
      rw [mergeEntries]
      split
      · rw [hskip hx, ih (by simp only [List.length_cons]; omega) hrest]
      · split
        · rw [List.find?_cons, List.find?_cons, ih (by simp only [List.length_cons]; omega) ha]
        · have hy : y.1 ≠ key := by omega
          rw [hskip hx, hskip hy, ih (by omega) hrest]

theorem Party.laneReg_putRegs {p : Party} {new : Table (BitVec 32)} {key : Nat} (h : ∀ x ∈ new, x.1 ≠ key) :
    (p.putRegs new).laneReg key = p.laneReg key := by
  unfold Party.laneReg
  rw [Party.putRegs]
  dsimp only
  rw [find?_mergeEntries _ (Nat.le_refl _) h]

/-- Writes that are not settled are to the same registers (R195). -/
theorem LaneCtx.settleWrites_keys (c : LaneCtx) {new : Table (BitVec 32)} {x : Nat × BitVec 32} (hx : x ∈ c.settleWrites new) :
    ∃ y ∈ new, y.1 = x.1 := by
  unfold LaneCtx.settleWrites at hx
  dsimp only at hx
  split at hx
  · exact ⟨x, hx, rfl⟩
  · obtain ⟨y, hy, rfl⟩ := List.mem_map.mp hx
    refine ⟨y, hy, ?_⟩
    split <;> rfl

/-- A register that an effect does not name keeps its value. -/
theorem LaneCtx.laneReg_finish {c : LaneCtx} {e : LaneEffect} {key : Nat} (h : ∀ x ∈ e.entries, x.1 ≠ key) :
    (c.finish e).laneReg key = c.p.laneReg key := by
  have hnew : ∀ x ∈ c.settleWrites e.entries, x.1 ≠ key := by
    intro x hx
    obtain ⟨y, hy, hkey⟩ := c.settleWrites_keys hx
    exact hkey ▸ h y hy
  rw [← Party.laneReg_putRegs (p := c.p) hnew, LaneCtx.finish_eq]
  rfl

/-- The written mask register has its new bits in the lanes written, and every other bit of the masks stands. -/
theorem LaneCtx.mask_finish {c : LaneCtx} {e : LaneEffect} {n : BitVec 3} {lanes v : Mask} (h : e.mask = some (n.toNat, lanes, v))
    (m : BitVec 3) (l : Nat) : ((c.finish e).mask m).getLsbD l =
      if m = n ∧ lanes.getLsbD l = true then v.getLsbD l else (c.p.mask m).getLsbD l := by
  have hmask : (c.finish e).mask m = (c.masksAfter e)[m.toNat] := by
    rw [LaneCtx.finish_eq]
    rfl
  rw [hmask]
  simp only [LaneCtx.masksAfter, h, dif_pos n.isLt]
  by_cases hm : m = n
  · subst hm
    by_cases hl : l < 1024
    · rw [Vector.getElem_set_self, BitVec.getLsbD_or, BitVec.getLsbD_and, BitVec.getLsbD_and, BitVec.getLsbD_not]
      cases lanes.getLsbD l
      · simp [hl, Party.mask]
      · simp
    · have hout : ∀ x : Mask, x.getLsbD l = false := fun x => BitVec.getLsbD_of_ge x l (by omega)
      simp [hout]
  · have hne : n.toNat ≠ m.toNat := fun he => hm (BitVec.eq_of_toNat_eq he.symm)
    rw [Vector.getElem_set_ne _ _ hne, if_neg (fun hc => hm hc.1)]
    rfl

/-! ### Issue (R28, R66, R194) -/

section
variable {s : State} {b : Block} {op : LaneOp} {f : LaneF} (h : s.laneIssues b op f)
include h

/-- The checks of an instruction that issues come out well. -/
theorem State.laneIssues.passes : (op.check f).isSome = false ∧ (!op.inWindow f (s.home s.party).header.window) = false := by
  obtain ⟨-, -, hcheck, hwindow, -⟩ := h
  simp [hcheck, hwindow]

/-- A lane instruction that issues completes with its effect. -/
theorem runLane_of_issues (body : LaneCtx → LaneEffect) :
    runLane s op f body = .next { s with party := (s.laneCtx b op f).finish (body (s.laneCtx b op f)) } := by
  obtain ⟨hcheck, hwindow⟩ := State.laneIssues.passes h
  obtain ⟨⟨rest, hqueue⟩, hfrozen, -, -, hflags⟩ := h
  simp only [runLane, hqueue, hfrozen, hcheck, hwindow, hflags]
  rfl

end

/-! ### Scratchpad reads of a matrix instruction (R139, R140, R318) -/

/-- What ordinary reads of the party in focus may change: lines, and its logical time, which they raise. -/
def AfterReads (s t : State) : Prop :=
  ∃ n lines, s.party.pt ≤ n ∧ t = { s with party := { s.party with pt := n }, lines := lines }

theorem AfterReads.refl (s : State) : AfterReads s s := ⟨s.party.pt, s.lines, Nat.le_refl _, rfl⟩

theorem AfterReads.trans {s t u : State} (h : AfterReads s t) (k : AfterReads t u) : AfterReads s u := by
  obtain ⟨n, ls, hn, rfl⟩ := h
  obtain ⟨m, ks, hm, rfl⟩ := k
  exact ⟨m, ks, Nat.le_trans hn hm, rfl⟩

theorem AfterReads.foldl {α : Type} {f : State → α → State} (hf : ∀ s a, AfterReads s (f s a)) (l : List α) (s : State) :
    AfterReads s (l.foldl f s) := by
  induction l generalizing s with
  | nil => exact .refl s
  | cons a l ih => exact (hf s a).trans (ih _)

/-- A read changes lines, and gives a time that is no earlier. -/
theorem State.noteRead_lines (s : State) (core time : Nat) (p : Place) (n : Nat) :
    ∃ m lines, time ≤ m ∧ s.noteRead core time p n = ({ s with lines := lines }, m) := by
  unfold State.noteRead
  generalize p.lines n = ls
  suffices ∀ r : State × Nat, ∃ m lines, r.2 ≤ m ∧ ls.foldl (fun (r : State × Nat) x =>
      let l := (r.1.lineAt x).renewed r.2 (s.leaseOf core p)
      (r.1.putLine l, Nat.max r.2 l.wt)) r = ({ r.1 with lines := lines }, m) from this (s, time)
  induction ls with
  | nil => exact fun r => ⟨r.2, r.1.lines, Nat.le_refl _, rfl⟩
  | cons x ls ih =>
    intro r
    obtain ⟨m, lines, hm, hfold⟩ := ih (r.1.putLine ((r.1.lineAt x).renewed r.2 (s.leaseOf core p)),
      Nat.max r.2 ((r.1.lineAt x).renewed r.2 (s.leaseOf core p)).wt)
    exact ⟨m, lines, Nat.le_trans (Nat.le_max_left ..) hm, hfold⟩

theorem State.partyRead_afterReads (s : State) (p : Place) (n : Nat) : AfterReads s (s.partyRead p n) := by
  obtain ⟨m, lines, hm, hread⟩ := s.noteRead_lines s.party.core s.party.pt p n
  exact ⟨m, lines, hm, by rw [State.partyRead, hread, State.atTime]⟩

/-- A word whose reads all end well adds its accumulator elements. -/
theorem LaneAcc.word_of_granted {r : Words} (h : r.denied = []) (acc : LaneAcc) (c : LaneCtx) (w base : Nat) (t : Ty)
    (d : Nat → Nat) : acc.word c w base t r d =
      { acc with
          s := r.places.foldl (fun s p => s.partyRead p 8) acc.s, entries := acc.entries ++ c.accEntries w base t d
          ends := acc.ends ++ ((upTo (32 * w) 32).filter fun l => c.active.getLsbD l).map fun l => (l, LaneEnd.ok) } := by
  have hcause : firstCause r.denied = none := by rw [h]; rfl
  simp only [LaneAcc.word, hcause]

/-- What the words of a matrix instruction leave whose reads all end well: nothing denied, elements of active lanes alone, and
a state after the reads. -/
structure WordsGranted (c : LaneCtx) (base n : Nat) (acc : LaneAcc) : Prop where
  reads : AfterReads c.s acc.s
  granted : acc.denied = []
  names : c.Names base n acc.entries

section
variable {c : LaneCtx} {base : Nat} {t : Ty} {read : LaneCtx → Nat → Words} (d : LaneCtx → Nat → Words → Nat → Nat)

theorem WordsGranted.foldl (hpart : c.p.part = none) (hread : ∀ w, 32 * w < c.p.width → (read c w).denied = []) :
    WordsGranted c base (2 * t.regs) (c.words.foldl (fun acc w => acc.word c w base t (read c w) (d c w (read c w))) c.start) := by
  suffices ∀ (l : List Nat), (∀ w ∈ l, w < c.p.width / 32) → ∀ acc, WordsGranted c base (2 * t.regs) acc →
      WordsGranted c base (2 * t.regs) (l.foldl (fun acc w => acc.word c w base t (read c w) (d c w (read c w))) acc) by
    refine this c.words (fun w hw => ?_) c.start ⟨.refl _, ?_, ?_⟩
    · have hmem := ((mem_upTo ..).mp (List.mem_of_mem_filter hw)).2
      omega
    · simp [LaneCtx.start, LaneCtx.part, hpart]
    · intro x hx
      simp [LaneCtx.start, LaneCtx.part, hpart] at hx
  intro l
  induction l with
  | nil => exact fun _ _ h => h
  | cons w l ih =>
    intro hl acc h
    have hw := hl w (List.mem_cons_self ..)
    rw [List.foldl_cons, LaneAcc.word_of_granted (hread w (by omega))]
    refine ih (fun v hv => hl v (List.mem_cons_of_mem _ hv)) _ ⟨?_, h.granted, fun x hx => ?_⟩
    · exact h.reads.trans (AfterReads.foldl (fun s p => s.partyRead_afterReads p 8) _ _)
    · rcases List.mem_append.mp hx with hx | hx
      · exact h.names x hx
      · exact c.accEntries_names hw base t _ x hx

/-- Words that read no scratchpad leave the state. -/
theorem foldl_word_state (hread : ∀ w, (read c w).denied = [] ∧ (read c w).places = []) (l : List Nat) (acc : LaneAcc) :
    (l.foldl (fun acc w => acc.word c w base t (read c w) (d c w (read c w))) acc).s = acc.s := by
  induction l generalizing acc with
  | nil => rfl
  | cons w l ih =>
    obtain ⟨hdenied, hplaces⟩ := hread w
    rw [List.foldl_cons, ih, LaneAcc.word_of_granted hdenied, hplaces]
    rfl

/-- A matrix instruction that issues, with every read granted, completes with the elements of its words. -/
theorem runMatrix_of_issues {s : State} {b : Block} {op : LaneOp} {f : LaneF} (h : s.laneIssues b op f)
    (hredo : s.party.redo = none) (hpart : s.party.part = none)
    (hread : ∀ w, 32 * w < s.party.width → (read (s.laneCtx b op f) w).denied = []) :
    let c := s.laneCtx b op f
    let acc := c.words.foldl (fun acc w => acc.word c w base t (read c w) (d c w (read c w))) c.start
    WordsGranted c base (2 * t.regs) acc ∧ runMatrix s op f t base read d =
      .next { acc.s with party := { c with p := acc.s.party }.finish { entries := acc.entries, mask := none } } := by
  intro c acc
  have hacc : WordsGranted c base (2 * t.regs) acc := WordsGranted.foldl d hpart hread
  refine ⟨hacc, ?_⟩
  obtain ⟨hcheck, hwindow⟩ := State.laneIssues.passes h
  obtain ⟨⟨rest, hqueue⟩, hfrozen, -, -, hflags⟩ := h
  have hdone : (acc.denied.isEmpty && s.party.redo.isNone) = true := by simp [hacc.granted, hredo]
  simp only [runMatrix, hqueue, hfrozen, hcheck, hwindow, hflags]
  exact if_pos hdone

end

/-! ### Completion after reads -/

theorem Party.popHead_pt (p : Party) (n : Nat) : ({ p with pt := n } : Party).popHead = { p.popHead with pt := n } := by
  unfold Party.popHead
  dsimp only
  split
  · rfl
  · split <;> rfl

theorem Party.countGap_pt (p : Party) (f : LaneF) (n : Nat) :
    ({ p with pt := n } : Party).countGap f = { p.countGap f with pt := n } := by
  unfold Party.countGap
  dsimp only
  split <;> rfl

theorem Party.writeLaneMask_pt (p : Party) (f : LaneF) (order k : Nat) (lanes value : Mask) (n : Nat) :
    ({ p with pt := n } : Party).writeLaneMask f order k lanes value = { p.writeLaneMask f order k lanes value with pt := n } := by
  unfold Party.writeLaneMask
  split <;> rfl

/-- The open choices of a party's instruction do not depend on its logical time. -/
theorem State.seed_pt (s : State) (p : Party) (n : Nat) : s.seed { p with pt := n } = s.seed p := rfl

/-- The instruction seen by its party at another logical time. -/
def LaneCtx.atTime (c : LaneCtx) (n : Nat) : LaneCtx := { c with p := { c.p with pt := n } }

theorem LaneCtx.settleWrites_atTime (c : LaneCtx) (n : Nat) (new : Table (BitVec 32)) :
    (c.atTime n).settleWrites new = c.settleWrites new := by
  have hopen : (c.atTime n).unsettled = c.unsettled := rfl
  have hseed : (c.atTime n).s.seed (c.atTime n).p = c.s.seed c.p := State.seed_pt ..
  have hreg (key : Nat) : (c.atTime n).p.laneReg key = c.p.laneReg key := rfl
  simp only [LaneCtx.settleWrites, hopen, hseed, hreg]

/-- The registers and the gap noted, before a mask is written. -/
def LaneCtx.noted (c : LaneCtx) (new : Table (BitVec 32)) : Party := (({ c.p with recent := c.outlived new }).putRegs new).countGap c.f

theorem LaneCtx.noted_atTime (c : LaneCtx) (n : Nat) (new : Table (BitVec 32)) :
    (c.atTime n).noted new = { c.noted new with pt := n } :=
  Party.countGap_pt (Party.putRegs { c.p with recent := c.outlived new } new) c.f n

theorem LaneCtx.write_atTime (c : LaneCtx) (n : Nat) (e : LaneEffect) (complete : Option Nat) :
    (c.atTime n).write e complete = { c.write e complete with pt := n } := by
  have hold (key : Nat) : (c.atTime n).p.laneReg key = c.p.laneReg key := rfl
  have hwrite (c : LaneCtx) : c.write e complete =
      let new := c.settleWrites e.entries
      let p := match e.mask with
        | some (k, lanes, value) => (c.noted new).writeLaneMask c.f c.b.order k lanes value
        | none => c.noted new
      if new.isEmpty && e.mask.isNone then p
      else { p with recent := p.recent ++ [{
        origin := (c.b.order, c.p.laneCtr), regs := new.map fun x => (x.1, c.p.laneReg x.1), mask := e.mask, flag := setFlag c.f.set
        distance := distanceOf c.op c.f, gap := 0, complete := complete }] } := by
    unfold LaneCtx.write
    cases e.mask <;> rfl
  rw [hwrite, hwrite]
  simp only [LaneCtx.settleWrites_atTime, LaneCtx.noted_atTime, hold]
  cases e.mask with
  | none =>
    dsimp only
    split <;> rfl
  | some m =>
    dsimp only
    rw [Party.writeLaneMask_pt]
    split <;> rfl

/-- Completion does not look at the logical time, and leaves it. -/
theorem LaneCtx.finish_atTime (c : LaneCtx) (e : LaneEffect) (n : Nat) :
    (c.atTime n).finish e = { c.finish e with pt := n } := by
  rw [LaneCtx.finish, LaneCtx.write_atTime, Party.popHead_pt]
  rfl

/-! ### The instructions -/

section
variable {s : State} {b : Block} {op : LaneOp} {f : LaneF}

/-- A lane instruction that writes a value of a type to its active lanes issues and completes. -/
theorem runLane_toLanes (h : s.laneIssues b op f) (t : Ty) (g : LaneCtx → Nat → Nat) :
    let c := s.laneCtx b op f
    ∃ e : LaneEffect, runLane s op f (fun c => c.toLanes t (g c)) = .next { s with party := c.finish e } ∧ e.mask = none ∧
      c.Names f.dst.toNat t.regs e.entries :=
  ⟨_, runLane_of_issues h _, rfl, LaneCtx.toLanes_names (s.laneCtx b op f) t _⟩

/-- A lane instruction that writes lanes of a mask register issues and completes. -/
theorem runLane_toMask (h : s.laneIssues b op f) (g : LaneCtx → Nat → Bool) :
    let c := s.laneCtx b op f
    ∃ v, runLane s op f (fun c => c.toMask (g c)) =
      .next { s with party := c.finish { entries := [], mask := some (f.dst.toNat, c.active, v) } } :=
  ⟨_, runLane_of_issues h _⟩

/-- A matrix instruction whose reads are granted completes, and its reads raise the logical time at most. -/
theorem runMatrix_reads {t : Ty} {read : LaneCtx → Nat → Words} (d : LaneCtx → Nat → Words → Nat → Nat)
    (h : s.laneIssues b op f) (hredo : s.party.redo = none) (hpart : s.party.part = none)
    (hread : ∀ w, 32 * w < s.party.width → (read (s.laneCtx b op f) w).denied = []) :
    let c := s.laneCtx b op f
    ∃ (e : LaneEffect) (u : State), runMatrix s op f t f.dst.toNat read d = .next u ∧
      u = { s with party := u.party, lines := u.lines } ∧ u.party = { c.finish e with pt := u.party.pt } ∧
      s.party.pt ≤ u.party.pt ∧ e.mask = none ∧ c.Names f.dst.toNat (2 * t.regs) e.entries := by
  intro c
  obtain ⟨hacc, hrun⟩ := runMatrix_of_issues (t := t) (base := f.dst.toNat) d h hredo hpart hread
  generalize c.words.foldl (fun acc w => acc.word c w f.dst.toNat t (read c w) (d c w (read c w))) c.start = acc at hacc hrun
  obtain ⟨n, lines, hn, hstate⟩ := hacc.reads
  have hparty : { c with p := acc.s.party }.finish { entries := acc.entries, mask := none } =
      { c.finish { entries := acc.entries, mask := none } with pt := n } := by
    rw [hstate]
    exact c.finish_atTime _ n
  rw [hparty] at hrun
  exact ⟨_, _, hrun, by rw [hstate]; rfl, rfl, hn, rfl, hacc.names⟩

/-- A matrix instruction that reads registers alone completes. -/
theorem runMatrix_registers {t : Ty} {read : LaneCtx → Nat → Words} (d : LaneCtx → Nat → Words → Nat → Nat)
    (h : s.laneIssues b op f) (hredo : s.party.redo = none) (hpart : s.party.part = none)
    (hread : ∀ c w, (read c w).denied = [] ∧ (read c w).places = []) :
    let c := s.laneCtx b op f
    ∃ e : LaneEffect, runMatrix s op f t f.dst.toNat read d = .next { s with party := c.finish e } ∧ e.mask = none ∧
      c.Names f.dst.toNat (2 * t.regs) e.entries := by
  intro c
  obtain ⟨hacc, hrun⟩ := runMatrix_of_issues (t := t) (base := f.dst.toNat) d h hredo hpart fun w _ => (hread _ w).1
  have hstate := foldl_word_state (base := f.dst.toNat) (t := t) d (hread c) c.words c.start
  rw [hstate] at hrun
  exact ⟨{ entries := _, mask := none }, hrun, rfl, hacc.names⟩

end

theorem regs_accTy (t : Ty) : (accTy t).regs = t.accRegs := by cases t <;> rfl

/-- Settles O42: each instruction is one of the shapes above, and completion changes what `finish_eq` says. -/
theorem laneInstructionsComplete : Obligations.LaneInstructionsComplete := by
  unfold Obligations.LaneInstructionsComplete
  refine ⟨fun s b f => ?_, fun c e => ⟨?_, fun b rest hqueue => ?_, fun key h => LaneCtx.laneReg_finish h, fun hmask => ?_,
    fun n lanes v h m l => LaneCtx.mask_finish h m l⟩⟩
  · intro done each marks
    have hmatch : done .matchOp 1 (.laneMatch f) := by
      intro h
      rw [show exec (.laneMatch f) s = execLaneMatch f s from rfl]
      exact runLane_toLanes h .b32 _
    have heach {op : LaneOp} {i : Instr} (r : Result) (g : LaneCtx → Nat → Nat) (harm : exec i s = r)
        (hr : r = runLane s op f fun c => c.elementwise (g c)) : each op i := by
      intro h
      rw [harm, hr]
      exact ⟨_, runLane_of_issues h _, rfl, LaneCtx.toLanes_names (s.laneCtx b op f) f.ty _⟩
    have hmarks {op : LaneOp} {i : Instr} (r : Result) (g : LaneCtx → Nat → Bool) (harm : exec i s = r)
        (hr : r = runLane s op f fun c => c.toMask (g c)) : marks op i := by
      intro h
      rw [harm, hr]
      exact runLane_toMask h g
    refine ⟨heach (execLaneAdd f s) _ rfl rfl, heach (execLaneSub f s) _ rfl rfl, heach (execLaneMul f s) _ rfl rfl,
      heach (execLaneMulhi f s) _ rfl rfl, heach (execLaneMad f s) _ rfl rfl, heach (execLaneFma f s) _ rfl rfl,
      heach (execLaneMin f s) _ rfl rfl, heach (execLaneMax f s) _ rfl rfl, heach (execLaneAbs f s) _ rfl rfl,
      heach (execLaneNeg f s) _ rfl rfl, heach (execLaneAdds f s) _ rfl rfl, heach (execLaneSubs f s) _ rfl rfl,
      heach (execLaneAnd f s) _ rfl rfl, heach (execLaneOr f s) _ rfl rfl, heach (execLaneXor f s) _ rfl rfl,
      heach (execLaneAndn f s) _ rfl rfl, heach (execLaneNot f s) _ rfl rfl, heach (execLaneShl f s) _ rfl rfl,
      heach (execLaneShr f s) _ rfl rfl, heach (execLaneSra f s) _ rfl rfl, heach (execLanePopc f s) _ rfl rfl,
      heach (execLaneClz f s) _ rfl rfl, heach (execLaneBrev f s) _ rfl rfl, heach (execLaneDiv f s) _ rfl rfl,
      heach (execLaneSqrt f s) _ rfl rfl, heach (execLaneRcp f s) _ rfl rfl, heach (execLaneRsqrt f s) _ rfl rfl,
      heach (execLaneExp2 f s) _ rfl rfl, heach (execLaneLog2 f s) _ rfl rfl, heach (execLaneSin f s) _ rfl rfl,
      heach (execLaneCos f s) _ rfl rfl, heach (execLaneRint f s) _ rfl rfl, heach (execLaneConj f s) _ rfl rfl,
      heach (execLaneSel f s) _ rfl rfl, heach (execLaneMov f s) _ rfl rfl, heach (execLaneCvt f s) _ rfl rfl,
      heach (execLaneShfl f s) _ rfl rfl, heach (execLaneBcast f s) _ rfl rfl, heach (execLaneRed f s) _ rfl rfl,
      heach (execLaneScan f s) _ rfl rfl,
      hmatch, hmarks (execLaneCmp f s) _ rfl rfl, hmarks (execLaneVote f s) _ rfl rfl, ?_⟩
    refine fun hredo hpart => ⟨fun hgranted h => ?_, fun hgranted h => ?_, fun h => ?_⟩
    · rw [show exec (.mma f) s = execMma f s from rfl, ← regs_accTy]
      exact runMatrix_reads (read := fun c w => c.operands w 48 48) _ h hredo hpart hgranted
    · rw [show exec (.mmas f) s = execMmas f s from rfl]
      exact runMatrix_reads (read := fun c w => c.operands w 48 96) _ h hredo hpart hgranted
    · rw [show exec (.mmab f) s = execMmab f s from rfl]
      exact runMatrix_registers _ h hredo hpart fun _ _ => ⟨rfl, rfl⟩
  · rw [LaneCtx.finish_eq]
  · rw [LaneCtx.finish_eq]
    exact Party.popHead_of_queue hqueue
  · rw [LaneCtx.finish_eq]
    simp only [LaneCtx.masksAfter, hmask]

end Sys2Proof.Machine
end

section
/-!
SUPPORT. The access bound (R328) of an instruction whose outstanding lanes are listed out of lane order: the cause it raises is
reported for its lowest lane (R150), which is not the first listed.
-/
namespace Sys2Proof.Machine

/-- A load in flight since tick 0 with lanes 1 and 0 outstanding at an absent part, listed in that order, at the addresses 1
and 2. -/
def unorderedLoad : InFlight where
  op := .ld
  f := { ty := .i32, dst := 0, a := 0, b := 0, c := 0, imm := 0, pred := 0, neg := false, dl := 0, hint := 0, set := 15, wait := 0
         gap := 0 }
  order := 0
  boff := 0
  lrun := 0
  ends := [(0, .remote), (1, .remote)]
  deadline := { party := false, ticks := 0, ceiling := false, poll := false, esc := false, sel := 0 }
  anyRemote := true
  late := 0
  remotes := [(1, 1), (0, 2)]
  issuedAt := 0
  denied := []
  lsWritten := []

/-- The part at tick 2^24 with a party in focus that has this load in flight. -/
def unorderedState : State := { State.reset with lantern := 2 ^ 24, party := { Party.blank with inflight := [unorderedLoad] } }

/-- The address of the lane cause that a step leaves pending. -/
def Result.pendingAddr : Result → Option Word
  | .next t => t.party.pendingLane.map Trap.addr
  | _ => none

/-- The cause that the access bound raises is that of lane 0, at the address 2. -/
theorem pendingAddr_unordered : Result.pendingAddr (exec (.accessBoundExpiry 0) unorderedState) = some 2 := by
  rfl

/-- Refutes O49: where the lanes outstanding at an absent part are listed out of lane order, the cause at the access bound names
the address of the lowest lane and not, as its last clause has it, that of the lane listed first. -/
theorem not_partyEvents : ¬ Obligations.PartyEvents := by
  unfold Obligations.PartyEvents
  intro h
  obtain ⟨-, -, -, -, -, hbound⟩ := h unorderedState
  obtain ⟨t, q, hexec, -, -, hpending, -, -, -, -, haddr, -⟩ :=
    (hbound unorderedLoad rfl (by simp [unorderedLoad]) rfl).2 (Nat.le_refl _)
  have hfirst : q.addr = 1 := haddr (1, 1) rfl
  have hlowest : some q.addr = some 2 := by
    rw [← pendingAddr_unordered, show exec (.accessBoundExpiry 0) unorderedState = .next t from hexec, Result.pendingAddr, hpending]
    rfl
  rw [hfirst] at hlowest
  exact absurd (Option.some.inj hlowest) (by decide)

end Sys2Proof.Machine
end

section
/-!
SUPPORT. A group placed beside an older record of the same launch and number (R351): storing the context's state word lets a
semaphore waiter of the old group take (R207), and its store into the scratchpad writes the old record over the new one.
-/
namespace Sys2Proof.Machine

/-! ### One waiter to test (R207) -/

/-- Where a single party waits at a semaphore, the part has no order to choose. -/
theorem State.retestAll_single (s : State) (pid : Nat)
    (h : (s.parties.filter fun p => p.wait.any fun w => w.kind == .semacq).map (fun p => p.pid) = [pid]) :
    s.retestAll = s.retest pid := by
  unfold State.retestAll
  rw [h]
  simp [arranged, Nat.mod_one]

/-! ### The counterexample -/

/-- A launch of groups without parties: group 0 is placed, and core 0 is the target of group 1. -/
def doubledLaunch : Launch :=
  { Launch.blank with
    id := 5, placed := 1, targets := [(0, [])]
    header := { Launch.blank.header with parties := 0, groups := 2, local_ := 8 } }

/-- A record of group 1 that stands before it is placed, without barriers. -/
def oldGroup : Group where
  launch := 5
  number := 1
  core := 0
  spad := []
  bad := []
  lost := []
  leaf := []
  cleaf := []
  backing := []
  ended := false

/-- A party of that record, waiting to take 0 from a semaphore in its scratchpad. -/
def taker : Party :=
  { Party.blank with
    pid := 7, launch := 5, group := 1, life := .running
    wait := some {
      kind := .semacq, instr := .semacq false 1 2 0 3, dest := 1
      deadline := { party := false, ticks := 0, ceiling := false, poll := false, esc := false, sel := 0 }
      w1 := 0xFFFE000000000000, w2 := 0, order := 0, seq := 0, met := false, decided := none, work := .none, claim := none } }

/-- The part with that launch, record and party; context 0 is valid, idle, and has its record at physical address 0. -/
def doubledState : State :=
  { State.reset with
    bar := { Bar0.powerOn with ready := true, rngbase := 65536 }, mem := [(11, 0x80), (65545, 1)], launches := [doubledLaunch]
    groups := [oldGroup], party := taker }

/-- Group 1 as its placement makes it. -/
def newGroup : Group :=
  { oldGroup with leaf := List.replicate 16 (Barrier.fresh 0), cleaf := List.replicate 16 (Barrier.fresh 0) }

/-- The launch once group 1 is placed. -/
def doubledLaunchAfter : Launch :=
  { doubledLaunch with
    placed := 2, targets := [], clusters := [(1, 0)], roots := Table.set [] [] 1 (doubledLaunch.header.freshRoots 1) }

/-- The part with group 1 placed, before the context becomes active. -/
def doubledPlaced : State :=
  { doubledState.putLaunch doubledLaunchAfter with groups := [oldGroup, newGroup], lastQueue := 0 }

/-- The context's state word stored, before the semaphore waiter looks at its word. -/
def doubledActive : State :=
  ((doubledPlaced.putContext { doubledPlaced.context 0 with state := 1 }).writeAs .part (.phys 0x40 0) (toBytes 8 1)).1.watchAll

/-- The backing area of group 1 is not mapped: its scratchpad is empty. -/
theorem loadScratch_doubled : ∃ ds, doubledState.loadScratch doubledLaunch newGroup = (doubledState, newGroup, ds) :=
  ⟨_, rfl⟩

theorem latch_doubled : doubledState.latch doubledLaunch = doubledLaunch := rfl

/-- The placement leaves the groups that the entry of the context into its active state leaves. -/
theorem placeGroup_groups_doubled :
    (doubledState.placeGroup doubledLaunch 0 []).groups = (doubledPlaced.enterState 0 1).groups := by
  obtain ⟨ds, hload⟩ := loadScratch_doubled
  unfold State.placeGroup
  rw [latch_doubled]
  extract_lets l h unzeroed g c zeroed roots group
  rw [show zeroed = doubledState from rfl, show group = newGroup from rfl, hload]
  dsimp -zeta only
  extract_lets mark peopled l' put placed entered
  have hplaced : placed = doubledPlaced := by
    simp only [placed, put, peopled, l', roots, c, g, h, l]
    rfl
  have hentered : entered = doubledPlaced.enterState 0 1 := by
    simp only [entered, hplaced]
    exact if_pos (show (doubledPlaced.context 0).state = 0 from rfl)
  rw [← hentered]
  split
  · split
    · rw [State.focus_groups]
    · rfl
  · rfl

/-- The waiter takes, and both records of group 1 are the old one. -/
theorem enterState_groups_doubled : ((doubledPlaced.enterState 0 1).groups.map fun g => g.leaf) = [[], []] := by
  have hstored : doubledPlaced.enterState 0 1 = doubledActive.retestAll := rfl
  rw [hstored, doubledActive.retestAll_single 7 rfl]
  rfl

/-- No group has the barriers of a new one after the placement. -/
theorem leaf_of_placeGroup_doubled : ∀ g ∈ (doubledState.placeGroup doubledLaunch 0 []).groups, g.leaf = [] := by
  intro g hg
  rw [placeGroup_groups_doubled] at hg
  have hleaf : g.leaf ∈ (doubledPlaced.enterState 0 1).groups.map fun g => g.leaf := List.mem_map_of_mem hg
  simpa [enterState_groups_doubled] using hleaf

theorem placeFor_doubled : doubledState.placeFor doubledLaunch = some (0, []) := by decide +kernel

theorem exec_groupPlacement_doubled :
    exec (.groupPlacement doubledLaunch.id 0 []) doubledState = .next (doubledState.placeGroup doubledLaunch 0 []) := by
  have hlaunch : doubledState.launch? doubledLaunch.id = some doubledLaunch := rfl
  have hturn : (doubledState.held || !doubledState.awaitsPlacement doubledLaunch || doubledState.overtaken doubledLaunch) = false := by
    decide +kernel
  have hreplay : doubledLaunch.header.replay = false := rfl
  show execGroupPlacement doubledLaunch.id 0 [] doubledState = _
  simp [execGroupPlacement, hlaunch, hturn, hreplay, placeFor_doubled]

/-- Refutes O54: in a state with an older record of the group that is placed, at whose semaphore a party waits, the store of the
context's state word lets that party take, and its store replaces the new group with the old record. -/
theorem not_frontEndEvents : ¬ Obligations.FrontEndEvents := by
  unfold Obligations.FrontEndEvents
  intro h
  obtain ⟨-, hlaunch, -⟩ := h
  obtain ⟨-, hplace, -⟩ := hlaunch doubledState doubledLaunch rfl
  obtain ⟨hplaced, -⟩ := hplace rfl (by decide +kernel) (by decide +kernel) rfl 0 []
  obtain ⟨t, hexec, -, ⟨g, hg, -, -, -, -, hleaf⟩, -⟩ := hplaced placeFor_doubled
  have hgroups : t.groups = (doubledState.placeGroup doubledLaunch 0 []).groups := by
    rw [exec_groupPlacement_doubled] at hexec
    obtain hnext | ⟨pid, hnext⟩ := hexec
    · rw [Host.Outcome.next.inj hnext]
    · rw [Host.Outcome.next.inj hnext, State.focus_groups]
  have hnone := leaf_of_placeGroup_doubled g (hgroups ▸ hg)
  rw [hleaf] at hnone
  exact absurd hnone (by simp)

end Sys2Proof.Machine
end

section
/-!
SUPPORT. Bytes of a word (R18): the encoder's bytes are those of memory, and the decoder reads back the number they were made of.
-/
namespace Sys2Proof.Machine

/-- The number of some bytes (R18), by the encoder's reading and by memory's. -/
theorem natOf_eq_ofBytes (bs : List Byte) : natOf bs = ofBytes bs := by
  induction bs with
  | nil => rfl
  | cons x xs ih => simp [natOf, ofBytes, ih]

/-- The low bytes of a number (R18), by the encoder and by memory. -/
theorem bytesOf_eq_toBytes (n v : Nat) : bytesOf n v = toBytes n v := by
  induction n generalizing v with
  | zero => rfl
  | succ n ih =>
    rw [toBytes, ← ih, bytesOf, bytesOf, List.range_succ_eq_map, List.map_cons, List.map_map]
    congr 1
    refine List.map_congr_left fun i _ => congrArg (BitVec.ofNat 8) ?_
    show v >>> (8 * (i + 1)) = (v / 2 ^ 8) >>> (8 * i)
    rw [← Nat.shiftRight_eq_div_pow, ← Nat.shiftRight_add, Nat.mul_succ, Nat.add_comm]

@[simp] theorem bytesOf_length (n v : Nat) : (bytesOf n v).length = n := by simp [bytesOf]

/-- The bytes of a word of `8 * n` bits hold that word. -/
theorem ofNat_natOf_bytesOf (n : Nat) (w : BitVec (8 * n)) : BitVec.ofNat (8 * n) (natOf ((bytesOf n w.toNat).take n)) = w := by
  rw [List.take_of_length_le (bytesOf_length n _).le, natOf_eq_ofBytes, bytesOf_eq_toBytes, ofBytes_toBytes,
    Nat.mod_eq_of_lt w.isLt, BitVec.ofNat_toNat, BitVec.setWidth_eq]

theorem decodeScalarBytes_bytesOf (w : BitVec 32) : decodeScalarBytes (bytesOf 4 w.toNat) = decodeScalar w :=
  congrArg decodeScalar (ofNat_natOf_bytesOf 4 w)

theorem decodeLaneBytes_bytesOf (w : BitVec 96) : decodeLaneBytes (bytesOf 12 w.toNat) = decodeLane w :=
  congrArg decodeLane (ofNat_natOf_bytesOf 12 w)

/-- A scalar instruction is the four bytes of its word. -/
theorem encode_of_scalar {i : Instr} {w : BitVec 32} (h : encodeScalar i = some w) : encode i = bytesOf 4 w.toNat := by
  simp [encode, h]

/-- A lane instruction is the twelve bytes of its 96 bits. -/
theorem encode_of_lane {i : Instr} {w : BitVec 96} (hs : encodeScalar i = none) (hl : encodeLane i = some w) :
    encode i = bytesOf 12 w.toNat := by
  simp [encode, hs, hl]

/-- What passes the checks of R57 and R66 is well formed, and is what was checked. -/
theorem checked_eq_ok {i j : Instr} : checked i = .ok j ↔ i = j ∧ i.wellFormed = true := by
  rw [checked, Instr.wellFormed]
  cases i.check <;> simp

/-- A scalar word that decodes names an instruction that passes its checks (R57). -/
theorem decodeScalar_eq_ok {w : BitVec 32} {i : Instr} :
    decodeScalar w = .ok i ↔ ∃ j, decodeFields w = .ok j ∧ checked j = .ok i := by
  rw [decodeScalar]
  cases decodeFields w <;> simp [bind, Except.bind]

end Sys2Proof.Machine
end

section
/-!
SUPPORT. A scalar word is put together again from the fields the decoder reads (R45): one lemma per format, its hypotheses what
the fields hold.
-/
namespace Sys2Proof.Laws

theorem ofBool_getLsbD {n : Nat} (w : BitVec n) (i : Nat) : BitVec.ofBool (w.getLsbD i) = w.extractLsb' i 1 := by
  refine BitVec.eq_of_getLsbD_eq fun j hj => ?_
  obtain rfl : j = 0 := by omega
  simp

/-- A field whose upper bits are zero is its lower bits widened. -/
theorem field_eq_setWidth {w : BitVec 32} {lo n m : Nat} (h : field w (lo + n) m = 0) :
    field w lo (m + n) = (field w lo n).setWidth (m + n) := by
  rw [field, ← BitVec.extractLsb'_append_extractLsb'_eq_extractLsb' rfl]
  change field w (lo + n) m ++ field w lo n = _
  rw [h]
  have hlt : (field w lo n).toNat < 2 ^ (m + n) :=
    (field w lo n).isLt.trans_le (Nat.pow_le_pow_right Nat.two_pos (Nat.le_add_left n m))
  exact BitVec.eq_of_toNat_eq (by simp [Nat.mod_eq_of_lt hlt])

variable {w : BitVec 32} {m d a b : BitVec 6}

theorem encS3_eq {f : BitVec 7} (hm : field w 25 6 = m) (hd : field w 19 6 = d) (ha : field w 13 6 = a) (hb : field w 7 6 = b)
    (hf : field w 0 7 = f) : encS3 (w.getLsbD 31) m d a b f = w := by
  subst hm hd ha hb hf
  simp only [encS3, field, ofBool_getLsbD, BitVec.extractLsb'_append_extractLsb'_eq_extractLsb']
  exact BitVec.extractLsb'_eq_self

theorem encSI_eq {f : BitVec 13} (hm : field w 25 6 = m) (hd : field w 19 6 = d) (ha : field w 13 6 = a)
    (hf : field w 0 13 = f) : encSI (w.getLsbD 31) m d a f = w := by
  subst hm hd ha hf
  simp only [encSI, field, ofBool_getLsbD, BitVec.extractLsb'_append_extractLsb'_eq_extractLsb']
  exact BitVec.extractLsb'_eq_self

theorem encSL_eq {f : BitVec 19} (hm : field w 25 6 = m) (hd : field w 19 6 = d) (hf : field w 0 19 = f) :
    encSL (w.getLsbD 31) m d f = w := by
  subst hm hd hf
  simp only [encSL, field, ofBool_getLsbD, BitVec.extractLsb'_append_extractLsb'_eq_extractLsb']
  exact BitVec.extractLsb'_eq_self

theorem encSB_eq {c : BitVec 4} {f : BitVec 15} (hm : field w 25 6 = m) (hc : field w 21 4 = c) (ha : field w 15 6 = a)
    (hf : field w 0 15 = f) : encSB (w.getLsbD 31) m c a f = w := by
  subst hm hc ha hf
  simp only [encSB, field, ofBool_getLsbD, BitVec.extractLsb'_append_extractLsb'_eq_extractLsb']
  exact BitVec.extractLsb'_eq_self

theorem encSJ_eq {f : BitVec 25} (hm : field w 25 6 = m) (hf : field w 0 25 = f) : encSJ (w.getLsbD 31) m f = w := by
  subst hm hf
  simp only [encSJ, field, ofBool_getLsbD, BitVec.extractLsb'_append_extractLsb'_eq_extractLsb']
  exact BitVec.extractLsb'_eq_self

theorem encSW_eq {l : BitVec 2} {f : BitVec 5} (hm : field w 25 6 = m) (hd : field w 19 6 = d) (ha : field w 13 6 = a)
    (hl : field w 11 2 = l) (hb : field w 5 6 = b) (hf : field w 0 5 = f) : encSW (w.getLsbD 31) m d a l b f = w := by
  subst hm hd ha hl hb hf
  simp only [encSW, field, ofBool_getLsbD, BitVec.extractLsb'_append_extractLsb'_eq_extractLsb']
  exact BitVec.extractLsb'_eq_self

/-- A size code names the size that has it (R48). -/
theorem code_of_sizeOfCode {c : BitVec 2} {z : Size} (h : Size.ofCode c = some z) : z.code = c := by
  revert z; revert c; decide

end Sys2Proof.Laws
end

section
/-!
SUPPORT. No bit of a scalar word is ignored: what each of the decoder's tables names has the word it was read from as its
encoding.  One lemma per family of R45 to R56, its cases in the order of the family's table.
-/
namespace Sys2Proof.Laws

/-- Whatever a reading of a word names is encoded by that word. -/
def Faithful (w : BitVec 32) (r : Except Reject Instr) : Prop := ∀ i, r = .ok i → encodeScalar i = some w

namespace Faithful
variable {w v : BitVec 32} {i : Instr}

theorem error (r : Reject) : Faithful w (.error r) := by rintro i ⟨⟩

theorem ok (h : encodeScalar i = some v) (e : v = w) : Faithful w (.ok i) := by
  rintro j ⟨⟩
  rw [h, e]

/-- A row of a table whose res0 fields hold a condition. -/
theorem cond {c : Bool} (h : encodeScalar i = some v) (e : c = true → v = w) : Faithful w (res0 c i) := by
  cases c with
  | false => exact error _
  | true => exact ok h (e rfl)

/-- A row with one res0 field. -/
theorem zero {n : Nat} {x : BitVec n} (h : encodeScalar i = some v) (e : x = 0 → v = w) : Faithful w (res0 (x == 0) i) :=
  cond h fun hx => e (eq_of_beq hx)

/-- A row with two res0 fields. -/
theorem zeros {n m : Nat} {x : BitVec n} {y : BitVec m} (h : encodeScalar i = some v) (e : x = 0 → y = 0 → v = w) :
    Faithful w (res0 (x == 0 && y == 0) i) :=
  cond h fun hc => (Bool.and_eq_true_iff.mp hc).elim fun hx hy => e (eq_of_beq hx) (eq_of_beq hy)

/-- A row with three res0 fields. -/
theorem zeros₃ {n m l : Nat} {x : BitVec n} {y : BitVec m} {z : BitVec l} (h : encodeScalar i = some v)
    (e : x = 0 → y = 0 → z = 0 → v = w) : Faithful w (res0 (x == 0 && y == 0 && z == 0) i) :=
  cond h fun hc => (Bool.and_eq_true_iff.mp hc).elim fun hxy hz =>
    (Bool.and_eq_true_iff.mp hxy).elim fun hx hy => e (eq_of_beq hx) (eq_of_beq hy) (eq_of_beq hz)

end Faithful

variable {w : BitVec 32}

/-- A field that reads as a number holds the bits of that number. -/
theorem field_eq {lo n : Nat} {x : BitVec n} (h : (field w lo n).toNat = x.toNat) : field w lo n = x :=
  BitVec.eq_of_toNat_eq h

/-- A word of the integer family, from its fields (R48). -/
theorem encInt_eq {z : Size} {b : Reg} {op : BitVec 5} (hm : field w 25 6 = 0x01) (hz : Size.ofCode (field w 5 2) = some z)
    (hop : (field w 0 5).toNat = op.toNat) (hb : field w 7 6 = b) :
    encInt (w.getLsbD 31) (field w 19 6) (field w 13 6) b z op = w := by
  have hf : field w 0 7 = z.code ++ op := by
    rw [code_of_sizeOfCode hz, ← field_eq hop, field, field, field]
    exact (BitVec.extractLsb'_append_extractLsb'_eq_extractLsb' (len₁ := 5) (len₂ := 2) rfl).symm
  exact encS3_eq hm rfl rfl hb hf

theorem decodeInteger_faithful (hm : field w 25 6 = 0x01) : Faithful w (decodeInteger w) := by
  simp only [decodeInteger]
  split
  · exact .error _
  next z hz =>
    split
    iterate 23 next hop => exact .ok rfl (encInt_eq hm hz hop rfl)
    iterate 3 next hop => exact .zero rfl (encInt_eq hm hz hop)
    next => exact .error _

theorem decodeBranch_faithful (hm : field w 25 6 = 0x10) : Faithful w (decodeBranch w) := by
  simp only [decodeBranch]
  split
  iterate 6 next hc => exact .ok rfl (encSB_eq hm (field_eq hc) rfl rfl)
  next hc => exact .zero rfl fun ha => encSB_eq hm (field_eq hc) ha rfl
  next => exact .error _

theorem decodeWait_faithful (hm : field w 25 6 = 0x1A) : Faithful w (decodeWait w) := by
  simp only [decodeWait]
  split
  iterate 2 next hf => exact .zero rfl fun hb => encSW_eq hm rfl rfl rfl hb (field_eq hf)
  iterate 2 next hf => exact .ok rfl (encSW_eq hm rfl rfl rfl rfl (field_eq hf))
  next hf => exact .zero rfl fun hb => encSW_eq hm rfl rfl rfl hb (field_eq hf)
  next hf => exact .ok rfl (encSW_eq hm rfl rfl rfl rfl (field_eq hf))
  iterate 3 next hf => exact .zeros rfl fun ha hb => encSW_eq hm rfl ha rfl hb (field_eq hf)
  next hf => exact .zero rfl fun hb => encSW_eq hm rfl rfl rfl hb (field_eq hf)
  next => exact .error _

theorem decodeSync_faithful (hm : field w 25 6 = 0x1C) : Faithful w (decodeSync w) := by
  simp only [decodeSync]
  split
  iterate 2 next hf => exact .zeros rfl fun hd hb => encS3_eq hm hd rfl hb (field_eq hf)
  next hf => exact .zero rfl fun hd => encS3_eq hm hd rfl rfl (field_eq hf)
  iterate 2 next hf => exact .zeros rfl fun ha hb => encS3_eq hm rfl ha hb (field_eq hf)
  next => exact .error _

/-- A register field with zeros above its low three bits holds a mask number (R46). -/
theorem field_eq_low3 {lo : Nat} (h : field w (lo + 3) 3 = 0) : field w lo 6 = low3 (field w lo 3) := field_eq_setWidth h

/-- A register field with zeros above its low two bits holds a deadline number (R46). -/
theorem field_eq_low2 {lo : Nat} (h : field w (lo + 2) 4 = 0) : field w lo 6 = low2 (field w lo 2) := field_eq_setWidth h

/-- A register field with zeros above its lowest bit holds that bit. -/
theorem field_eq_bit {lo : Nat} (h : field w (lo + 1) 5 = 0) : field w lo 6 = (BitVec.ofBool (w.getLsbD lo)).setWidth 6 := by
  rw [ofBool_getLsbD]
  exact field_eq_setWidth h

/-- An immediate field with zeros above its low six bits holds a shift count (R49). -/
theorem field_eq_count (h : field w 6 7 = 0) : field w 0 13 = (field w 0 6).setWidth 13 :=
  field_eq_setWidth (n := 6) (m := 7) h

/-- An immediate field with zeros above its low four bits holds a slide count (R49). -/
theorem field_eq_slide (h : field w 4 9 = 0) : field w 0 13 = (field w 0 4).setWidth 13 :=
  field_eq_setWidth (n := 4) (m := 9) h

theorem decodeMask_faithful (hm : field w 25 6 = 0x1D) : Faithful w (decodeMask w) := by
  simp only [decodeMask]
  split
  next hf => exact .zeros rfl fun hd hb => encS3_eq hm (field_eq_low3 hd) rfl hb (field_eq hf)
  iterate 4
    next hf =>
      exact .zeros₃ rfl fun hd ha hb => encS3_eq hm (field_eq_low3 hd) (field_eq_low3 ha) (field_eq_low3 hb) (field_eq hf)
  next hf => exact .zeros₃ rfl fun hd ha hb => encS3_eq hm (field_eq_low3 hd) ha hb (field_eq hf)
  next hf => exact .zeros₃ rfl fun hd ha hb => encS3_eq hm hd ha hb (field_eq hf)
  iterate 3 next hf => exact .zeros rfl fun ha hb => encS3_eq hm rfl (field_eq_low3 ha) hb (field_eq hf)
  next => exact .error _

theorem decodeDeadline_faithful (hm : field w 25 6 = 0x1E) : Faithful w (decodeDeadline w) := by
  simp only [decodeDeadline]
  split
  iterate 2 next hf => exact .zeros rfl fun hd hb => encS3_eq hm (field_eq_low2 hd) rfl hb (field_eq hf)
  next hf =>
    split
    next hbase => exact .zero rfl fun hb => encS3_eq hm rfl (field_eq_bit (eq_of_beq hbase)) hb (field_eq hf)
    next => exact .error _
  next => exact .error _

theorem decodeSystem_faithful (hm : field w 25 6 = 0x3C) : Faithful w (decodeSystem w) := by
  simp only [decodeSystem]
  split
  next hf => exact .zeros rfl fun hd hb => encS3_eq hm hd rfl hb (field_eq hf)
  iterate 2 next hf => exact .zeros₃ rfl fun hd ha hb => encS3_eq hm hd ha hb (field_eq hf)
  iterate 2 next hf => exact .zeros rfl fun ha hb => encS3_eq hm rfl ha hb (field_eq hf)
  next => exact .error _

theorem decodeEngine_faithful (hm : field w 25 6 = 0x2C) : Faithful w (decodeEngine w) := by
  simp only [decodeEngine]
  split
  iterate 7 next hf => exact .ok rfl (encSW_eq hm rfl rfl rfl rfl (field_eq hf))
  next => exact .error _

theorem decodeTile_faithful (hm : field w 25 6 = 0x2D) : Faithful w (decodeTile w) := by
  simp only [decodeTile]
  split
  next hf => exact .ok rfl (encSW_eq hm rfl rfl rfl rfl (field_eq hf))
  iterate 3 next hf => exact .zero rfl fun hb => encSW_eq hm rfl rfl rfl hb (field_eq hf)
  iterate 3 next hf => exact .ok rfl (encSW_eq hm rfl rfl rfl rfl (field_eq hf))
  iterate 2 next hf => exact .zero rfl fun hb => encSW_eq hm rfl rfl rfl hb (field_eq hf)
  iterate 2 next hf => exact .ok rfl (encSW_eq hm rfl rfl rfl rfl (field_eq hf))
  iterate 2 next hf => exact .zero rfl fun hb => encSW_eq hm rfl rfl rfl hb (field_eq hf)
  next => exact .error _

/-- WAITF's word, from its fields: the flag set lies apart in two of them (R53). -/
theorem waitf_eq (hm : field w 25 6 = 0x1B#6) (hz : field w 6 5 = 0#5) :
    BitVec.ofBool (w.getLsbD 31) ++ 0x1B#6 ++ field w 19 6 ++ (decodeFlags w).extractLsb' 0 6 ++ field w 11 2 ++ 0#5 ++
      (decodeFlags w).extractLsb' 6 6 = w := by
  rw [← hm, ← hz, decodeFlags, BitVec.extractLsb'_append_eq_right, BitVec.extractLsb'_append_eq_left]
  simp only [field, ofBool_getLsbD, BitVec.extractLsb'_append_extractLsb'_eq_extractLsb']
  exact BitVec.extractLsb'_eq_self

/-- A word of format SI whose major opcode is one instruction's and whose immediate is whole (R45, R47). -/
theorem encSI_of_major {m : BitVec 6} (hm : (field w 25 6).toNat = m.toNat) :
    encSI (w.getLsbD 31) m (field w 19 6) (field w 13 6) (field w 0 13) = w := encSI_eq (field_eq hm) rfl rfl rfl

/-- A word of format SL (R45, R47). -/
theorem encSL_of_major {m : BitVec 6} (hm : (field w 25 6).toNat = m.toNat) :
    encSL (w.getLsbD 31) m (field w 19 6) (field w 0 19) = w := encSL_eq (field_eq hm) rfl rfl

/-- A word of format SI whose immediate is a shift count, zeros above it (R49). -/
theorem encSI_of_count {m : BitVec 6} (hm : (field w 25 6).toNat = m.toNat) (hc : field w 6 7 = 0) :
    encSI (w.getLsbD 31) m (field w 19 6) (field w 13 6) ((field w 0 6).setWidth 13) = w :=
  encSI_eq (field_eq hm) rfl rfl (field_eq_count hc)

/-- No bit of a scalar word is ignored: the fields of the major opcode's format are the whole word (R45, R57). -/
theorem decodeFields_faithful (w : BitVec 32) : Faithful w (decodeFields w) := by
  simp only [decodeFields]
  split
  -- majors 0x01 to 0x0E: the integer family and the immediates (R48, R49)
  next hm => exact decodeInteger_faithful (field_eq hm)
  iterate 4 next hm => exact .ok rfl (encSI_of_major hm)
  iterate 3 next hm => exact .zero rfl (encSI_of_count hm)
  iterate 3 next hm => exact .ok rfl (encSI_of_major hm)
  iterate 3 next hm => exact .ok rfl (encSL_of_major hm)
  -- 0x10 to 0x18: branches, calls, EXIT and LRUN (R47, R50)
  next hm => exact decodeBranch_faithful (field_eq hm)
  next hm =>
    split
    iterate 2 next hc => exact .zero rfl fun hp => encSB_eq (field_eq hm) (field_eq hc) (field_eq_low3 hp) rfl
    next => exact .error _
  next hm => exact .ok rfl (encSJ_eq (field_eq hm) rfl)
  next hm => exact .ok rfl (encSB_eq (field_eq hm) rfl rfl rfl)
  next hm => exact .zero rfl fun hn => encSI_eq (field_eq hm) rfl rfl (field_eq_slide hn)
  next hm => exact .zeros rfl fun hd hn => encSI_eq (field_eq hm) hd rfl (field_eq_slide hn)
  next hm => exact .zero rfl fun hz => encSJ_eq (field_eq hm) hz
  next hm => exact .ok rfl (encSL_of_major hm)
  -- 0x1A to 0x1E: waits, synchronisation, masks and deadlines (R51 to R54)
  next hm => exact decodeWait_faithful (field_eq hm)
  next hm => exact .zero rfl (waitf_eq (field_eq hm))
  next hm => exact decodeSync_faithful (field_eq hm)
  next hm => exact decodeMask_faithful (field_eq hm)
  next hm => exact decodeDeadline_faithful (field_eq hm)
  -- 0x20 to 0x2B: scalar loads and stores (R191)
  iterate 11 next hm => exact .ok rfl (encSI_of_major hm)
  -- 0x2C to 0x2E: engine and tile commands (R52, R239)
  next hm => exact decodeEngine_faithful (field_eq hm)
  next hm => exact decodeTile_faithful (field_eq hm)
  next hm =>
    split
    next hf => exact .zeros rfl fun ha hb => encS3_eq (field_eq hm) rfl ha hb (field_eq hf)
    next hf => exact .zero rfl fun hb => encS3_eq (field_eq hm) rfl rfl hb (field_eq hf)
    next => exact .error _
  -- 0x30 to 0x3C: control registers, lane register access and the system family (R47, R54)
  next hm => exact .zero rfl fun ha => encSI_eq (field_eq hm) rfl ha rfl
  next hm => exact .zero rfl fun hd => encSI_eq (field_eq hm) hd rfl rfl
  next hm => exact .zero rfl fun hb => encS3_eq (field_eq hm) rfl rfl hb rfl
  next hm => exact .zero rfl fun hd => encS3_eq (field_eq hm) hd rfl rfl rfl
  next hm => exact decodeSystem_faithful (field_eq hm)
  next => exact .error _

end Sys2Proof.Laws
end

section
/-!
SUPPORT. The 96 bits of a lane instruction (R58): the decoder reads back every field of the encoder, and the fields it reads
are all the bits.
-/
namespace Sys2Proof.Laws

theorem code_of_tyOfCode (c : BitVec 4) : (Ty.ofCode c).code = c := by revert c; decide

/-- A number names the lane opcode that has it (R64). -/
theorem code_of_ofCode {n : Nat} {op : LaneOp} (h : LaneOp.ofCode n = some op) : op.code.toNat = n := by
  unfold LaneOp.ofCode at h
  split at h <;> cases h <;> rfl

/-- A lane instruction's opcode and fields are those it was made of. -/
@[simp] theorem lane?_instr (op : LaneOp) (f : LaneF) : (op.instr f).lane? = some (op, f) := by cases op <;> rfl

/-- A lane instruction is no scalar word. -/
@[simp] theorem encodeScalar_instr (op : LaneOp) (f : LaneF) : encodeScalar (op.instr f) = none := by cases op <;> rfl

@[simp] theorem encodeLane_instr (op : LaneOp) (f : LaneF) : encodeLane (op.instr f) = some (encodeFields op f) := by
  simp [encodeLane]

/-- What has a lane opcode and fields is the lane instruction made of them. -/
theorem instr_of_lane? {i : Instr} {op : LaneOp} {f : LaneF} (h : i.lane? = some (op, f)) : i = op.instr f := by
  unfold Instr.lane? at h
  split at h <;> cases h <;> rfl

/-! ### Decoding what was encoded -/

section
variable (op : LaneOp) (f : LaneF)

/-- The opcode stands in bits 95:86 (R58). -/
theorem opcode_encodeFields : (encodeFields op f).extractLsb' 86 10 = op.code := by
  simp (disch := omega) only [encodeFields, BitVec.extractLsb'_append_eq_of_le, Nat.reduceSub,
    BitVec.extractLsb'_eq_self]

/-- Bits 4:0 are res0 (R58). -/
theorem res0_encodeFields : (encodeFields op f).extractLsb' 0 5 = 0 := BitVec.extractLsb'_append_eq_right

/-- Every field of R58 is read back from the bits it was put in. -/
theorem laneFields_encodeFields : laneFields (encodeFields op f) = f := by
  have hneg : (encodeFields op f).getLsbD 30 = f.neg := by
    simp only [encodeFields, BitVec.getLsbD_append]
    simp
  rw [laneFields, hneg]
  simp (disch := omega) only [encodeFields, BitVec.extractLsb'_append_eq_of_le, BitVec.extractLsb'_append_eq_right, Nat.reduceSub,
    Ty_ofCode_code]

theorem decodeLane_encodeFields : decodeLane (encodeFields op f) = checked (op.instr f) := by
  rw [decodeLane, opcode_encodeFields, ofCode_code]
  simp [res0_encodeFields, laneFields_encodeFields]
end

/-! ### Encoding what was decoded -/

/-- The fields of R58 and its res0 bits are all the bits of a lane instruction. -/
theorem encodeFields_laneFields {w : BitVec 96} {op : LaneOp} (hop : LaneOp.ofCode (w.extractLsb' 86 10).toNat = some op)
    (hres : w.extractLsb' 0 5 = 0#5) : encodeFields op (laneFields w) = w := by
  have hcode : op.code = w.extractLsb' 86 10 := BitVec.eq_of_toNat_eq (code_of_ofCode hop)
  rw [encodeFields, hcode, ← hres]
  simp only [laneFields, code_of_tyOfCode, ofBool_getLsbD, BitVec.extractLsb'_append_extractLsb'_eq_extractLsb']
  exact BitVec.extractLsb'_eq_self

/-- What 96 bits that decode are: the encoding of an opcode and fields that pass the checks of R66. -/
theorem encodeLane_of_decodeLane {w : BitVec 96} {i : Instr} (h : decodeLane w = .ok i) :
    encodeLane i = some w ∧ i.wellFormed = true := by
  unfold decodeLane at h
  split at h
  · cases h
  next op hop =>
    split at h
    next hres =>
      obtain ⟨rfl, hwf⟩ := Machine.checked_eq_ok.mp h
      exact ⟨by rw [encodeLane_instr, encodeFields_laneFields hop (eq_of_beq hres)], hwf⟩
    · cases h

end Sys2Proof.Laws
end

section
/-!
SUPPORT. Every scalar instruction that has a word is read back from it, by the lemma of `Laws.Roundtrip` for its constructor.
-/
namespace Sys2Proof.Laws

/-- The fields of a scalar instruction's word name the instruction, before the checks of R57. -/
theorem decodeFields_of_encodeScalar {i : Instr} {w : BitVec 32} (h : encodeScalar i = some w) : decodeFields w = .ok i := by
  cases i with
  | add => exact (Roundtrip.add ..).1 w h
  | sub => exact (Roundtrip.sub ..).1 w h
  | mul => exact (Roundtrip.mul ..).1 w h
  | mulhi => exact (Roundtrip.mulhi ..).1 w h
  | mulhin => exact (Roundtrip.mulhin ..).1 w h
  | div => exact (Roundtrip.div ..).1 w h
  | divn => exact (Roundtrip.divn ..).1 w h
  | rem => exact (Roundtrip.rem ..).1 w h
  | remn => exact (Roundtrip.remn ..).1 w h
  | min => exact (Roundtrip.min ..).1 w h
  | max => exact (Roundtrip.max ..).1 w h
  | minn => exact (Roundtrip.minn ..).1 w h
  | maxn => exact (Roundtrip.maxn ..).1 w h
  | and => exact (Roundtrip.and ..).1 w h
  | or => exact (Roundtrip.or ..).1 w h
  | xor => exact (Roundtrip.xor ..).1 w h
  | andn => exact (Roundtrip.andn ..).1 w h
  | shl => exact (Roundtrip.shl ..).1 w h
  | shr => exact (Roundtrip.shr ..).1 w h
  | sra => exact (Roundtrip.sra ..).1 w h
  | slt => exact (Roundtrip.slt ..).1 w h
  | sltn => exact (Roundtrip.sltn ..).1 w h
  | seq => exact (Roundtrip.seq ..).1 w h
  | popc => exact (Roundtrip.popc ..).1 w h
  | clz => exact (Roundtrip.clz ..).1 w h
  | ctz => exact (Roundtrip.ctz ..).1 w h
  | addi => exact (Roundtrip.addi ..).1 w h
  | andi => exact (Roundtrip.andi ..).1 w h
  | ori => exact (Roundtrip.ori ..).1 w h
  | xori => exact (Roundtrip.xori ..).1 w h
  | shli => exact (Roundtrip.shli ..).1 w h
  | shri => exact (Roundtrip.shri ..).1 w h
  | srai => exact (Roundtrip.srai ..).1 w h
  | slti => exact (Roundtrip.slti ..).1 w h
  | sltni => exact (Roundtrip.sltni ..).1 w h
  | muli => exact (Roundtrip.muli ..).1 w h
  | lui => exact (Roundtrip.lui ..).1 w h
  | lpc => exact (Roundtrip.lpc ..).1 w h
  | lcat => exact (Roundtrip.lcat ..).1 w h
  | beq => exact (Roundtrip.beq ..).1 w h
  | bne => exact (Roundtrip.bne ..).1 w h
  | blt => exact (Roundtrip.blt ..).1 w h
  | bge => exact (Roundtrip.bge ..).1 w h
  | bgt => exact (Roundtrip.bgt ..).1 w h
  | ble => exact (Roundtrip.ble ..).1 w h
  | bra => exact (Roundtrip.bra ..).1 w h
  | mpush => exact (Roundtrip.mpush ..).1 w h
  | mbrk => exact (Roundtrip.mbrk ..).1 w h
  | jmp => exact (Roundtrip.jmp ..).1 w h
  | call => exact (Roundtrip.call ..).1 w h
  | callr => exact (Roundtrip.callr ..).1 w h
  | ret => exact (Roundtrip.ret ..).1 w h
  | exit => exact (Roundtrip.exit ..).1 w h
  | lrun => exact (Roundtrip.lrun ..).1 w h
  | bwait => exact (Roundtrip.bwait ..).1 w h
  | bsync => exact (Roundtrip.bsync ..).1 w h
  | semacq => exact (Roundtrip.semacq ..).1 w h
  | waddr => exact (Roundtrip.waddr ..).1 w h
  | fence => exact (Roundtrip.fence ..).1 w h
  | xfence => exact (Roundtrip.xfence ..).1 w h
  | sysfence => exact (Roundtrip.sysfence ..).1 w h
  | sysfenceArray => exact (Roundtrip.sysfenceArray ..).1 w h
  | fuse => exact (Roundtrip.fuse ..).1 w h
  | twait => exact (Roundtrip.twait ..).1 w h
  | waitf => exact (Roundtrip.waitf ..).1 w h
  | barr => exact (Roundtrip.barr ..).1 w h
  | bdrop => exact (Roundtrip.bdrop ..).1 w h
  | semrel => exact (Roundtrip.semrel ..).1 w h
  | split => exact (Roundtrip.split ..).1 w h
  | width => exact (Roundtrip.width ..).1 w h
  | mset => exact (Roundtrip.mset ..).1 w h
  | mand => exact (Roundtrip.mand ..).1 w h
  | mandn => exact (Roundtrip.mandn ..).1 w h
  | mor => exact (Roundtrip.mor ..).1 w h
  | mxor => exact (Roundtrip.mxor ..).1 w h
  | mpop => exact (Roundtrip.mpop ..).1 w h
  | mjoin => exact (Roundtrip.mjoin ..).1 w h
  | many => exact (Roundtrip.many ..).1 w h
  | mall => exact (Roundtrip.mall ..).1 w h
  | mcount => exact (Roundtrip.mcount ..).1 w h
  | dlset => exact (Roundtrip.dlset ..).1 w h
  | dladd => exact (Roundtrip.dladd ..).1 w h
  | dlnow => exact (Roundtrip.dlnow ..).1 w h
  | sldI8 => exact (Roundtrip.sldI8 ..).1 w h
  | sldN8 => exact (Roundtrip.sldN8 ..).1 w h
  | sldI16 => exact (Roundtrip.sldI16 ..).1 w h
  | sldN16 => exact (Roundtrip.sldN16 ..).1 w h
  | sldI32 => exact (Roundtrip.sldI32 ..).1 w h
  | sldN32 => exact (Roundtrip.sldN32 ..).1 w h
  | sldN64 => exact (Roundtrip.sldN64 ..).1 w h
  | sstN8 => exact (Roundtrip.sstN8 ..).1 w h
  | sstN16 => exact (Roundtrip.sstN16 ..).1 w h
  | sstN32 => exact (Roundtrip.sstN32 ..).1 w h
  | sstN64 => exact (Roundtrip.sstN64 ..).1 w h
  | cpyt => exact (Roundtrip.cpyt ..).1 w h
  | gath => exact (Roundtrip.gath ..).1 w h
  | scat => exact (Roundtrip.scat ..).1 w h
  | chain => exact (Roundtrip.chain ..).1 w h
  | cpyw => exact (Roundtrip.cpyw ..).1 w h
  | coll => exact (Roundtrip.coll ..).1 w h
  | launch => exact (Roundtrip.launch ..).1 w h
  | tlnew => exact (Roundtrip.tlnew ..).1 w h
  | tlfree => exact (Roundtrip.tlfree ..).1 w h
  | tlload => exact (Roundtrip.tlload ..).1 w h
  | tlstore => exact (Roundtrip.tlstore ..).1 w h
  | tlfac => exact (Roundtrip.tlfac ..).1 w h
  | tladd => exact (Roundtrip.tladd ..).1 w h
  | tlmul => exact (Roundtrip.tlmul ..).1 w h
  | tllu => exact (Roundtrip.tllu ..).1 w h
  | tlinv => exact (Roundtrip.tlinv ..).1 w h
  | tltrs => exact (Roundtrip.tltrs ..).1 w h
  | tlrnd => exact (Roundtrip.tlrnd ..).1 w h
  | tlcvt => exact (Roundtrip.tlcvt ..).1 w h
  | tlnorm => exact (Roundtrip.tlnorm ..).1 w h
  | tbat => exact (Roundtrip.tbat ..).1 w h
  | tlinfo => exact (Roundtrip.tlinfo ..).1 w h
  | csrr => exact (Roundtrip.csrr ..).1 w h
  | csrw => exact (Roundtrip.csrw ..).1 w h
  | xrd => exact (Roundtrip.xrd ..).1 w h
  | xwr => exact (Roundtrip.xwr ..).1 w h
  | trap => exact (Roundtrip.trap ..).1 w h
  | rett => exact (Roundtrip.rett ..).1 w h
  | yield => exact (Roundtrip.yield ..).1 w h
  | rdclk => exact (Roundtrip.rdclk ..).1 w h
  | rdret => exact (Roundtrip.rdret ..).1 w h
  | _ => cases h

end Sys2Proof.Laws
end

section
/-!
The statements about the decoder and the encoder, settled from the lemmas above.
-/
namespace Sys2Proof.Machine
open Laws

/-- Settles O2: a scalar instruction's bytes are those of its word, whose fields name it, and it passes its checks. -/
theorem encodeDecodeScalar : Obligations.EncodeDecodeScalar := by
  unfold Obligations.EncodeDecodeScalar
  intro i w hword hwf
  have hbytes : encode i = bytesOf 4 w.toNat := encode_of_scalar hword
  have hchecked : checked i = .ok i := checked_eq_ok.mpr ⟨rfl, hwf⟩
  have hdecode : decodeScalar w = .ok i := decodeScalar_eq_ok.mpr ⟨i, decodeFields_of_encodeScalar hword, hchecked⟩
  exact ⟨hbytes, by rw [hbytes, decodeScalarBytes_bytesOf, hdecode]⟩

/-- Settles O3: a lane instruction's bytes are those of its 96 bits, whose fields are read back, and it passes its checks. -/
theorem encodeDecodeLane : Obligations.EncodeDecodeLane := by
  unfold Obligations.EncodeDecodeLane
  intro i op f hlane hwf
  obtain rfl := instr_of_lane? hlane
  have hbytes : encode (op.instr f) = bytesOf 12 (encodeFields op f).toNat :=
    encode_of_lane (encodeScalar_instr op f) (encodeLane_instr op f)
  rw [hbytes, decodeLaneBytes_bytesOf, decodeLane_encodeFields]
  exact ⟨bytesOf_length _ _, checked_eq_ok.mpr ⟨rfl, hwf⟩⟩

/-- Settles O4: the fields read from a word are the whole word, and what decodes has passed its checks. -/
theorem wordsAreEncodings : Obligations.WordsAreEncodings := by
  unfold Obligations.WordsAreEncodings
  refine ⟨fun w i h => ?_, fun w i h => encodeLane_of_decodeLane h⟩
  obtain ⟨j, hfields, hcheck⟩ := decodeScalar_eq_ok.mp h
  obtain ⟨rfl, hwf⟩ := checked_eq_ok.mp hcheck
  exact ⟨decodeFields_faithful w j hfields, hwf⟩

/-- Settles O1: the words that the spec writes out, by evaluating the decoder on each. -/
theorem decodeWords : Obligations.DecodeWords := by
  unfold Obligations.DecodeWords
  and_intros <;> rfl

/-- A word that is no scalar word is none for a section of any length. -/
theorem State.issueWord_of_error {s : State} {w : BitVec 32} {r : Reject}
    (h : decodeFor (s.home s.party).header.laneLen w = .error r) :
    s.issueWord w = .done (s.takeTrap (Trap.scalar .illegal s.party.pc (s.party.pc + 4))) := by
  rw [State.issueWord, h]

/-- Settles O8: the step performs the scalar move, and the stream takes ILLEGAL in place of an instruction. -/
theorem illegalWordTraps : Obligations.IllegalWordTraps := by
  unfold Obligations.IllegalWordTraps
  intro s t m w r hlaunch hmove hact hready hheld hwait hoffer hraised hdue hturn hleave hcopy hword hdecode
  have hfetches : t.Fetches := ⟨hready, hheld, hwait, hoffer, hraised, hdue, hturn, hleave, hcopy⟩
  have hperform : perform m.act t = .next (t.takeTrap (Trap.scalar .illegal t.party.pc (t.party.pc + 4))) := by
    rw [hact, perform, State.focus_self, hfetches.issueScalar hword, State.issueWord_of_error hdecode, runIssued]
  rw [step_of_nextMove hlaunch hmove, hperform]
  rfl

end Sys2Proof.Machine
end

section
/-!
SUPPORT. What a lane register holds after a lane instruction has written it: the values of a result in the registers of each
active lane (R30, R68, R120, R121).
-/
namespace Sys2Proof.Machine

/-! ### Written registers -/

theorem mergeEntries_nil {α : Type} (n : Nat) (a : Table α) : mergeEntries n a [] = a := by
  cases n <;> cases a <;> rfl

/-- Of two merged tables, an entry of the first is found, if the keys of the first rise. -/
theorem find?_mergeEntries_of_mem {α : Type} {e : Nat × α} : ∀ (n : Nat) {a b : Table α}, a.length + b.length ≤ n →
    a.Pairwise (fun x y => x.1 < y.1) → e ∈ a → (mergeEntries n a b).find? (fun x => x.1 == e.1) = some e := by
  intro n
  induction n with
  | zero =>
    intro a b hn _ he
    rw [List.length_eq_zero_iff.mp (by omega : a.length = 0)] at he
    cases he
  | succ n ih =>
    intro a b hn hrise he
    match a, b with
    | [], b => cases he
    | x :: a, b =>
      obtain ⟨hx, ha⟩ := List.pairwise_cons.mp hrise
      have hhead : e = x ∨ (e ∈ a ∧ x.1 < e.1) := (List.mem_cons.mp he).imp_right fun h => ⟨h, hx e h⟩
      have hskip {z : Nat × α} (hz : z.1 < e.1) (l : Table α) :
          (z :: l).find? (fun y => y.1 == e.1) = l.find? (fun y => y.1 == e.1) :=
        List.find?_cons_of_neg (by simpa using hz.ne)
      simp only [List.length_cons] at hn
      -- the head of the first table comes out, and the rest is merged with what is left of the second
      have hout (l : Table α) (hl : a.length + l.length ≤ n) :
          (x :: mergeEntries n a l).find? (fun y => y.1 == e.1) = some e := by
        rcases hhead with rfl | ⟨hmem, hlt⟩
        · exact List.find?_cons_of_pos (by simp)
        · rw [hskip hlt, ih hl ha hmem]
      match b with
      | [] =>
        rw [mergeEntries_nil, ← mergeEntries_nil n a]
        exact hout [] (by simpa using hn)
      | y :: b =>
        simp only [List.length_cons] at hn
        rw [mergeEntries]
        split
        · exact hout (y :: b) (by simp only [List.length_cons]; omega)
        · split
          · have hlt : y.1 < e.1 := by
              rcases hhead with rfl | ⟨-, hlt⟩
              · assumption
              · omega
            rw [hskip hlt, ih (by simp only [List.length_cons]; omega) hrise he]
          · exact hout b (by omega)

theorem Party.laneReg_putRegs_of_mem {p : Party} {new : Table (BitVec 32)} {e : Nat × BitVec 32}
    (hrise : new.Pairwise fun x y => x.1 < y.1) (he : e ∈ new) : (p.putRegs new).laneReg e.1 = e.2 := by
  unfold Party.laneReg
  rw [Party.putRegs]
  dsimp only
  rw [find?_mergeEntries_of_mem _ (Nat.le_refl _) hrise he]

theorem LaneCtx.settleWrites_of_recent {c : LaneCtx} (h : c.p.recent = []) (new : Table (BitVec 32)) :
    c.settleWrites new = new := by
  have hopen : c.unsettled.isEmpty = true := by simp [LaneCtx.unsettled, h]
  exact if_pos hopen

/-- A register that an effect names holds what the effect gives it, where no earlier write is uncertain (R195). -/
theorem LaneCtx.laneReg_finish_of_mem {c : LaneCtx} {e : LaneEffect} {x : Nat × BitVec 32} (hrecent : c.p.recent = [])
    (hrise : e.entries.Pairwise fun x y => x.1 < y.1) (hx : x ∈ e.entries) : (c.finish e).laneReg x.1 = x.2 := by
  rw [LaneCtx.finish_eq, LaneCtx.settleWrites_of_recent hrecent]
  exact Party.laneReg_putRegs_of_mem hrise hx

/-! ### The entries of a result -/

theorem entriesOf_rise (q pos : Nat) (ws : List (BitVec 32)) : (entriesOf q pos ws).Pairwise fun x y => x.1 < y.1 := by
  rw [entriesOf, List.pairwise_map, List.pairwise_iff_getElem]
  intro i j hi hj hij
  simp only [List.getElem_zipIdx, regKey]
  omega

theorem mem_entriesOf {q pos j : Nat} {ws : List (BitVec 32)} (hj : j < ws.length) :
    (regKey q (pos + j), ws[j]) ∈ entriesOf q pos ws :=
  List.mem_map.mpr ⟨(ws[j], j), List.mk_mem_zipIdx_iff_getElem?.mpr (List.getElem?_eq_getElem hj), rfl⟩

/-- The entries of ascending lanes rise, where the written registers lie in the stack. -/
theorem LaneCtx.toLanes_rise {c : LaneCtx} {t : Ty} (hfits : c.p.b + c.f.dst.toNat + t.regs ≤ 1024) (g : Nat → Nat) :
    (c.toLanes t g).entries.Pairwise fun x y => x.1 < y.1 := by
  refine List.pairwise_flatMap.mpr ⟨fun l _ => entriesOf_rise .., (lanesOf_ascends ..).imp fun {l k} hlk x hx y hy => ?_⟩
  obtain ⟨i, hi, hxkey⟩ := exists_of_mem_entriesOf hx
  obtain ⟨j, hj, hykey⟩ := exists_of_mem_entriesOf hy
  rw [length_placeValue] at hi hj
  rw [hxkey, hykey, regKey, regKey]
  omega

/-- A word of a lane's result stands in its register. -/
theorem LaneCtx.laneReg_finish_toLanes {c : LaneCtx} {t : Ty} (hrecent : c.p.recent = [])
    (hfits : c.p.b + c.f.dst.toNat + t.regs ≤ 1024) (g : Nat → Nat) {lane j : Nat} (hlane : lane < c.p.width)
    (hactive : c.active.getLsbD lane = true) (hj : j < (placeValue t (g lane)).length) :
    (c.finish (c.toLanes t g)).laneReg (regKey (c.p.first + lane) (c.p.b + (c.f.dst.toNat + j))) =
      (placeValue t (g lane))[j] := by
  have hmem : (regKey (c.p.first + lane) (c.p.b + c.f.dst.toNat + j), (placeValue t (g lane))[j]) ∈ (c.toLanes t g).entries :=
    List.mem_flatMap.mpr ⟨lane, (mem_lanesOf ..).mpr ⟨hlane, hactive⟩, mem_entriesOf hj⟩
  rw [← Nat.add_assoc]
  exact LaneCtx.laneReg_finish_of_mem hrecent (LaneCtx.toLanes_rise hfits g) hmem

/-! ### An instruction that issues -/

section
variable {s : State} {b : Block} {op : LaneOp} {f : LaneF}

/-- What the checks of R61 to R65 tell of an instruction that passes them: its type, its dst field and its immediate. -/
theorem LaneOp.of_check (h : op.check f = none) :
    op.accepts f.ty = true ∧ (op.slots f).1.admits f.dst = true ∧ op.immOk f = true := by
  rw [LaneOp.check] at h
  generalize op.slots f = slots at h ⊢
  dsimp only at h
  split at h
  · cases h
  · split at h
    · cases h
    · split at h
      · cases h
      · split at h <;> simp_all

/-- The registers of vd lie in the stack, where the window does (R30). -/
theorem State.laneIssues.dst_fits (h : s.laneIssues b op f) (hwindow : s.party.b + (s.home s.party).header.window ≤ 1024)
    {n : Nat} {even : Bool} (hslot : (op.slots f).1 = .lane n even) : s.party.b + f.dst.toNat + n ≤ 1024 := by
  obtain ⟨-, -, hcheck, hin, -⟩ := h
  obtain ⟨-, hadmits, -⟩ := LaneOp.of_check hcheck
  have hlane : f.dst.toNat < 0x80 := by
    rw [hslot] at hadmits
    simp only [Slot.admits, Bool.and_eq_true, decide_eq_true_eq] at hadmits
    exact hadmits.1
  have hregisters : (op.slots f).1.registers f.dst = some (f.dst.toNat, n) := by
    rw [hslot, Slot.registers, if_pos hlane]
  have hnamed : (f.dst.toNat, n) ∈ op.registers f := by
    rw [LaneOp.registers]
    exact List.mem_filterMap.mpr ⟨some (f.dst.toNat, n), by rw [← hregisters]; exact List.mem_cons_self .., rfl⟩
  have hend : f.dst.toNat + n ≤ (s.home s.party).header.window := by
    simpa using List.all_eq_true.mp hin _ hnamed
  omega

@[simp] theorem State.laneCtx_recent (h : s.party.recent = []) : (s.laneCtx b op f).p.recent = [] := by
  simp [State.laneCtx, Party.awaitFlags, h]

/-- `k` registers of a lane from register `n` of the window on, the lowest least significant (R68). -/
def State.laneNumber (s : State) (lane n k : Nat) : Nat :=
  ((List.range k).map fun i => 2 ^ (32 * i) * (s.laneRegister lane (n + i)).toNat).sum

/-- The number that a result of a type makes of the registers it fills, narrow types extended (R68). -/
def placed (t : Ty) (v : Nat) : Nat :=
  match t with
  | .i8 => ((BitVec.ofNat 8 v).signExtend 32).toNat
  | .i16 => ((BitVec.ofNat 16 v).signExtend 32).toNat
  | _ => v % 2 ^ t.width

theorem State.laneNumber_succ (s : State) (lane n k : Nat) :
    s.laneNumber lane n (k + 1) = s.laneNumber lane n k + 2 ^ (32 * k) * (s.laneRegister lane (n + k)).toNat := by
  simp [State.laneNumber, List.range_succ]

/-- The low bits of a number do not depend on the registers above them. -/
theorem State.laneNumber_mod (s : State) (lane n : Nat) {k m bits : Nat} (hk : k ≤ m) (hbits : bits ≤ 32 * k) :
    s.laneNumber lane n m % 2 ^ bits = s.laneNumber lane n k % 2 ^ bits := by
  induction m, hk using Nat.le_induction with
  | base => rfl
  | succ m hkm ih =>
    have hdvd : 2 ^ bits ∣ 2 ^ (32 * m) * (s.laneRegister lane (n + m)).toNat :=
      (Nat.pow_dvd_pow 2 (by omega)).mul_right _
    rw [State.laneNumber_succ, Nat.add_mod, Nat.mod_eq_zero_of_dvd hdvd, Nat.add_zero, Nat.mod_mod, ih]

/-- Registers that hold the words of a result make up its number. -/
theorem State.laneNumber_placeValue {s : State} {lane n : Nat} {t : Ty} {v : Nat}
    (h : ∀ j (hj : j < (placeValue t v).length), s.laneRegister lane (n + j) = (placeValue t v)[j]) :
    s.laneNumber lane n t.regs = placed t v := by
  have hsum : s.laneNumber lane n t.regs = ((placeValue t v).zipIdx.map fun w => 2 ^ (32 * w.2) * w.1.toNat).sum := by
    rw [State.laneNumber]
    congr 1
    refine List.ext_getElem (by simp [length_placeValue]) fun j hj hj' => ?_
    simp only [List.length_map, List.length_zipIdx] at hj'
    simp [h j hj']
  rw [hsum]
  cases t <;>
    simp [placeValue, placed, upTo, Ty.regs, Ty.bytes, Ty.width] <;> omega

/-- A lane instruction that writes a value of a type to vd of each active lane: the registers of vd make up that value. -/
theorem exists_runLane_toLanes (h : s.laneIssues b op f) (hrecent : s.party.recent = [])
    (hwindow : s.party.b + (s.home s.party).header.window ≤ 1024) {t : Ty} {even : Bool}
    (hslot : (op.slots f).1 = .lane t.regs even) (g : LaneCtx → Nat → Nat) :
    ∃ u, runLane s op f (fun c => c.toLanes t (g c)) = .next u ∧ ∀ lane, lane < s.party.width →
      (s.laneCtx b op f).active.getLsbD lane = true →
      u.laneNumber lane f.dst.toNat t.regs = placed t (g (s.laneCtx b op f) lane) := by
  refine ⟨_, runLane_of_issues h _, fun lane hlane hactive => State.laneNumber_placeValue fun j hj => ?_⟩
  have hreg := LaneCtx.laneReg_finish_toLanes (c := s.laneCtx b op f) (State.laneCtx_recent hrecent)
    (h.dst_fits hwindow hslot) (g (s.laneCtx b op f)) hlane hactive hj
  rw [State.laneRegister]
  dsimp only
  have hfirst : ((s.laneCtx b op f).finish ((s.laneCtx b op f).toLanes t (g (s.laneCtx b op f)))).first = s.party.first := by
    rw [LaneCtx.finish_eq]; rfl
  have hbase : ((s.laneCtx b op f).finish ((s.laneCtx b op f).toLanes t (g (s.laneCtx b op f)))).b = s.party.b := by
    rw [LaneCtx.finish_eq]; rfl
  rw [hfirst, hbase]
  exact hreg

end

end Sys2Proof.Machine
end

section
/-!
SUPPORT. The one rounding (R72): what `Fmt.roundMag` computes of a magnitude, and of a magnitude with more below its last bit, is
the rounding that `Exact.Rounds` describes.
-/
namespace Sys2Proof.Machine

/-! ### Formats (R69) -/

/-- What the proofs use of the four formats: a fraction and an exponent field, and an exponent range wider than the fraction. -/
structure Fmt.Standard (f : Fmt) : Prop where
  frac_pos : 0 < f.frac
  exp_ge : 2 ≤ f.exp
  frac_lt : f.frac + 1 ≤ f.bias

theorem Fmt.standard_of_ty (t : Ty) : t.fmt.Standard := by
  cases t <;> exact ⟨by decide, by decide, by decide⟩

theorem Fmt.emax_eq {f : Fmt} (hf : f.Standard) : f.emax = 2 * f.bias + 1 := by
  obtain ⟨-, hexp, -⟩ := hf
  have hpow : 2 ^ f.exp = 2 * 2 ^ (f.exp - 1) := by rw [← pow_succ']; congr 1; omega
  have hpos : 0 < 2 ^ (f.exp - 1) := Nat.two_pow_pos _
  rw [Fmt.emax, Fmt.bias]
  omega

/-- The infinity is the last exponent with a zero fraction. -/
theorem Fmt.infinity_add (f : Fmt) : f.infinity + 2 ^ f.frac = 2 ^ (f.frac + f.exp) := by
  have hpos : 0 < 2 ^ f.exp := Nat.two_pow_pos _
  rw [Fmt.infinity, Fmt.emax, Nat.add_comm f.frac, pow_add, Nat.sub_mul, Nat.one_mul,
    Nat.sub_add_cancel (Nat.le_mul_of_pos_left _ hpos)]

theorem Fmt.infinity_lt (f : Fmt) : f.infinity < 2 ^ (f.frac + f.exp) := by
  have hadd := f.infinity_add
  have hpos : 0 < 2 ^ f.frac := Nat.two_pow_pos _
  omega

/-! ### Patterns of digits -/

/-- The size of a pattern whose exponent is `j` places above the lowest: its digits, the hidden one among them, in units of that
place.  Digits that carry into the next exponent are no exception. -/
theorem size_of_digits (f : Fmt) {j n : Nat} (hlow : 2 ^ f.frac ≤ n ∨ j = 0) (hhigh : n ≤ 2 ^ (f.frac + 1)) :
    Exact.size f (j * 2 ^ f.frac + n) = n * 2 ^ j * 2 ^ (1 - (f.bias : Int) - f.frac) := by
  have hpos : 0 < 2 ^ f.frac := Nat.two_pow_pos _
  rw [pow_succ] at hhigh
  rw [Exact.size]
  congr 1
  rcases Nat.lt_or_ge n (2 ^ f.frac) with hn | hn
  · obtain rfl : j = 0 := by omega
    simp [hn]
  · have hbig : ¬ j * 2 ^ f.frac + n < 2 ^ f.frac := by
      have := Nat.zero_le (j * 2 ^ f.frac)
      omega
    rw [if_neg hbig]
    rcases Nat.lt_or_ge n (2 * 2 ^ f.frac) with hn' | hn'
    · have hx : j * 2 ^ f.frac + n = (n - 2 ^ f.frac) + 2 ^ f.frac * (j + 1) := by
        rw [Nat.mul_add, Nat.mul_comm j]; omega
      have hmod : (j * 2 ^ f.frac + n) % 2 ^ f.frac = n - 2 ^ f.frac := by
        rw [hx, Nat.add_mul_mod_self_left, Nat.mod_eq_of_lt (by omega)]
      have hdiv : (j * 2 ^ f.frac + n) / 2 ^ f.frac = j + 1 := by
        rw [hx, Nat.add_mul_div_left _ _ hpos, Nat.div_eq_of_lt (by omega), Nat.zero_add]
      rw [hmod, hdiv, Nat.add_sub_cancel, Nat.add_sub_cancel' hn]
    · obtain rfl : n = 2 * 2 ^ f.frac := by omega
      have hx : j * 2 ^ f.frac + 2 * 2 ^ f.frac = (j + 2) * 2 ^ f.frac := by ring
      rw [hx, Nat.mul_mod_left, Nat.mul_div_cancel _ hpos]
      push_cast
      ring

theorem bitLen_pos {m : Nat} (hm : 0 < m) : 0 < bitLen m := by simp [bitLen, hm.ne']

theorem lt_two_pow_bitLen (m : Nat) : m < 2 ^ bitLen m := by
  rcases Nat.eq_zero_or_pos m with rfl | hm
  · decide
  · rw [bitLen, if_neg hm.ne']
    exact Nat.lt_log2_self

theorem two_pow_bitLen_le {m : Nat} (hm : 0 < m) : 2 ^ (bitLen m - 1) ≤ m := by
  rw [bitLen, if_neg hm.ne', Nat.add_sub_cancel]
  exact Nat.log2_self_le hm.ne'

/-! ### Digits kept and digits lost -/

/-- The exponent of a magnitude m × 2^e, no lower than that of the smallest normal number. -/
def Fmt.lead (f : Fmt) (m : Nat) (e : Int) : Int :=
  if e + bitLen m - 1 < 1 - (f.bias : Int) then 1 - (f.bias : Int) else e + bitLen m - 1

/-- The place of the last digit that a rounded magnitude keeps. -/
def Fmt.last (f : Fmt) (m : Nat) (e : Int) : Int := f.lead m e - f.frac

/-- The digits kept, and those below them: their number and how many places they take. -/
def Fmt.split (f : Fmt) (m : Nat) (e : Int) : Nat × Nat × Nat :=
  if f.last m e ≤ e then (m * 2 ^ (e - f.last m e).toNat, 0, 1)
  else (m / 2 ^ (f.last m e - e).toNat, m % 2 ^ (f.last m e - e).toNat, (f.last m e - e).toNat)

/-- The number of places from the lowest exponent to that of a magnitude. -/
def Fmt.above (f : Fmt) (m : Nat) (e : Int) : Nat := (f.lead m e - (1 - (f.bias : Int))).toNat

/-- The pattern of the kept digits, its exponent unbounded. -/
def Fmt.kept (f : Fmt) (m : Nat) (e : Int) : Nat := f.above m e * 2 ^ f.frac + (f.split m e).1

/-- Whether the digits lost round the kept ones up. -/
def Fmt.up (f : Fmt) (mode : Rounding) (neg : Bool) (m : Nat) (e : Int) (sticky : Bool) : Bool :=
  roundsUp mode neg ((f.split m e).1 % 2 == 1) (f.split m e).2.1 (f.split m e).2.2 sticky

/-- The kept pattern, or the next one where the digits lost round up. -/
def Fmt.rounded (f : Fmt) (mode : Rounding) (neg : Bool) (m : Nat) (e : Int) (sticky : Bool) : Nat :=
  f.above m e * 2 ^ f.frac + if f.up mode neg m e sticky then (f.split m e).1 + 1 else (f.split m e).1

theorem Fmt.rounded_eq (f : Fmt) (mode : Rounding) (neg : Bool) (m : Nat) (e : Int) (sticky : Bool) :
    f.rounded mode neg m e sticky = if f.up mode neg m e sticky then f.kept m e + 1 else f.kept m e := by
  unfold Fmt.rounded
  split <;> rfl

/-- A rounded magnitude is the rounded pattern, with overflow as R72 has it. -/
theorem Fmt.roundMag_eq (f : Fmt) (mode : Rounding) (neg : Bool) (m : Nat) (e : Int) (sticky : Bool) :
    f.roundMag mode neg m e sticky = if f.infinity ≤ f.rounded mode neg m e sticky then f.overflow mode neg
      else f.sign neg + f.rounded mode neg m e sticky := by
  have habove : e + bitLen m - 1 < 1 - (f.bias : Int) → f.above m e = 0 := by
    intro h
    simp [Fmt.above, Fmt.lead, h]
  unfold Fmt.roundMag
  dsimp only
  rw [show (if e + (bitLen m : Int) - 1 < 1 - (f.bias : Int) then 1 - (f.bias : Int) else e + bitLen m - 1) = f.lead m e from rfl,
    show f.lead m e - (f.frac : Int) = f.last m e from rfl,
    show (if f.last m e ≤ e then (m * 2 ^ (e - f.last m e).toNat, 0, 1)
      else (m / 2 ^ (f.last m e - e).toNat, m % 2 ^ (f.last m e - e).toNat, (f.last m e - e).toNat)) = f.split m e from rfl,
    show (f.lead m e - (1 - (f.bias : Int))).toNat = f.above m e from rfl]
  by_cases h : e + bitLen m - 1 < 1 - (f.bias : Int)
  · simp only [if_pos h, Fmt.rounded, Fmt.up, habove h, Nat.zero_mul, Nat.zero_add] <;> rfl
  · simp only [if_neg h, Fmt.rounded, Fmt.up] <;> rfl

/-- Powers of two in the rational numbers, split at a natural number. -/
theorem zpow_two_add_toNat {a b : Int} (h : a ≤ b) : (2 : ℚ) ^ b = 2 ^ (b - a).toNat * 2 ^ a := by
  rw [← zpow_natCast, ← zpow_add₀ two_ne_zero, Int.toNat_of_nonneg (by omega), Int.sub_add_cancel]

/-- The kept digits and those below make up the magnitude. -/
theorem Fmt.split_eq (f : Fmt) (m : Nat) (e : Int) (hlow : e < f.last m e) :
    f.split m e = (m / 2 ^ (f.last m e - e).toNat, m % 2 ^ (f.last m e - e).toNat, (f.last m e - e).toNat) :=
  if_neg (not_le.mpr hlow)

theorem Fmt.split_of_le (f : Fmt) (m : Nat) (e : Int) (h : f.last m e ≤ e) :
    f.split m e = (m * 2 ^ (e - f.last m e).toNat, 0, 1) := if_pos h

/-- The kept digits fill the fraction and the hidden bit, and the hidden bit is there above the lowest exponent. -/
theorem Fmt.split_bounds (f : Fmt) {m : Nat} (hm : 0 < m) (e : Int) :
    (f.split m e).1 < 2 ^ (f.frac + 1) ∧ (2 ^ f.frac ≤ (f.split m e).1 ∨ f.above m e = 0) := by
  have hlen := bitLen_pos hm
  have hlt := lt_two_pow_bitLen m
  have hle := two_pow_bitLen_le hm
  have hlead : e + bitLen m - 1 ≤ f.lead m e := by unfold Fmt.lead; split <;> omega
  have hnormal : f.above m e = 0 ∨ f.lead m e = e + bitLen m - 1 := by
    unfold Fmt.above Fmt.lead
    split
    · exact .inl (by omega)
    · exact .inr rfl
  have hlast : f.last m e = f.lead m e - f.frac := rfl
  rcases le_or_gt (f.last m e) e with h | h
  · rw [f.split_of_le m e h]
    have hshift : bitLen m + (e - f.last m e).toNat ≤ f.frac + 1 := by omega
    refine ⟨?_, hnormal.symm.imp_left fun hl => ?_⟩
    · calc m * 2 ^ (e - f.last m e).toNat < 2 ^ bitLen m * 2 ^ (e - f.last m e).toNat :=
            Nat.mul_lt_mul_of_pos_right hlt (Nat.two_pow_pos _)
        _ = 2 ^ (bitLen m + (e - f.last m e).toNat) := (pow_add ..).symm
        _ ≤ 2 ^ (f.frac + 1) := Nat.pow_le_pow_right (by omega) hshift
    · calc 2 ^ f.frac = 2 ^ (bitLen m - 1) * 2 ^ (e - f.last m e).toNat := by rw [← pow_add]; congr 1; omega
        _ ≤ m * 2 ^ (e - f.last m e).toNat := Nat.mul_le_mul_right _ hle
  · rw [f.split_eq m e h]
    have hshift : bitLen m ≤ f.frac + 1 + (f.last m e - e).toNat := by omega
    refine ⟨?_, hnormal.symm.imp_left fun hl => ?_⟩
    · refine Nat.div_lt_of_lt_mul ?_
      rw [← pow_add, Nat.add_comm]
      exact lt_of_lt_of_le hlt (Nat.pow_le_pow_right (by omega) hshift)
    · refine (Nat.le_div_iff_mul_le (Nat.two_pow_pos _)).mpr ?_
      rw [← pow_add]
      refine le_trans (Nat.pow_le_pow_right (by omega) ?_) hle
      omega

/-! ### The rounding -/

/-- What is known of the number that a rounding is of: it is m × 2^e, or, where `sticky`, it lies between that and the next
multiple of 2^e. -/
def Brackets (side : ℚ → Ordering) (m : Nat) (e : Int) (sticky : Bool) : Prop :=
  ∀ u : ℚ, 0 ≤ u →
    if sticky then (u ≤ m * 2 ^ e → side u = .lt) ∧ (((m + 1 : Nat) : ℚ) * 2 ^ e ≤ u → side u = .gt)
    else side u = compare u (m * 2 ^ e)

/-- At a multiple of 2^e the bracket tells the side. -/
theorem Brackets.at_multiple {side : ℚ → Ordering} {m : Nat} {e : Int} {sticky : Bool} (h : Brackets side m e sticky) (k : Nat) :
    side (k * 2 ^ e) = if sticky then (if k ≤ m then .lt else .gt) else compare k m := by
  have hpos : (0 : ℚ) < 2 ^ e := zpow_pos two_pos e
  have hk := h (k * 2 ^ e) (by positivity)
  cases sticky with
  | true =>
    obtain ⟨hlt, hgt⟩ := hk
    rw [if_pos rfl]
    split
    · exact hlt (mul_le_mul_of_nonneg_right (by exact_mod_cast ‹k ≤ m›) hpos.le)
    · exact hgt (mul_le_mul_of_nonneg_right (by exact_mod_cast not_le.mp ‹¬k ≤ m›) hpos.le)
  | false =>
    rw [if_neg (by decide)] at hk ⊢
    rw [hk]
    rcases lt_trichotomy k m with hlt | rfl | hgt
    · rw [compare_lt_iff_lt.mpr hlt, compare_lt_iff_lt]
      exact mul_lt_mul_of_pos_right (by exact_mod_cast hlt) hpos
    · rw [compare_eq_iff_eq.mpr rfl, compare_eq_iff_eq.mpr rfl]
    · rw [compare_gt_iff_gt.mpr hgt, compare_gt_iff_gt]
      exact mul_lt_mul_of_pos_right (by exact_mod_cast hgt) hpos

/-- The size of the kept digits, and of the next pattern, in places of the last digit. -/
theorem Fmt.size_above (f : Fmt) (m : Nat) (e : Int) {n : Nat} (hlow : 2 ^ f.frac ≤ n ∨ f.above m e = 0)
    (hhigh : n ≤ 2 ^ (f.frac + 1)) : Exact.size f (f.above m e * 2 ^ f.frac + n) = n * 2 ^ f.last m e := by
  have hlead : 1 - (f.bias : Int) ≤ f.lead m e := by unfold Fmt.lead; split <;> omega
  have hplace : (2 : ℚ) ^ f.last m e = 2 ^ f.above m e * 2 ^ (1 - (f.bias : Int) - f.frac) := by
    rw [zpow_two_add_toNat (show 1 - (f.bias : Int) - f.frac ≤ f.last m e by unfold Fmt.last; omega)]
    congr 2
    unfold Fmt.last Fmt.above
    omega
  rw [size_of_digits f hlow hhigh, hplace, mul_assoc]

/-- Whether a number between a pattern and the next is rounded to the next. -/
def roundsAway (f : Fmt) (mode : Rounding) (neg : Bool) (side : ℚ → Ordering) (x : Nat) : Bool :=
  if side (Exact.size f x) = .eq then false
  else match mode with
    | .rz => false
    | .rp => !neg
    | .rm => neg
    | .rn => match side ((Exact.size f x + Exact.size f (x + 1)) / 2) with
      | .lt => true
      | .gt => false
      | .eq => x % 2 == 1

theorem roundsAway_of_eq {f : Fmt} {mode : Rounding} {neg : Bool} {side : ℚ → Ordering} {x : Nat}
    (h : side (Exact.size f x) = .eq) : roundsAway f mode neg side x = false := if_pos h

/-- A number between two patterns, rounded to one of them as the mode says, with overflow as R72 has it. -/
theorem rounds_between {f : Fmt} {mode : Rounding} {neg : Bool} {side : ℚ → Ordering} {x y : Nat}
    (hlow : side (Exact.size f x) ≠ .gt) (hhigh : side (Exact.size f (x + 1)) = .gt)
    (hy : y = if roundsAway f mode neg side x then x + 1 else x) :
    Exact.Rounds f mode neg side (if f.infinity ≤ y then f.overflow mode neg else f.sign neg + y) := by
  refine ⟨x, hlow, hhigh, ?_⟩
  extract_lets up z
  have hz : y = z := by
    rw [hy]
    unfold roundsAway
    by_cases heq : side (Exact.size f x) = .eq
    · simp [z, heq]
    · simp only [z, if_neg heq]
      rfl
  rw [hz]
  rcases Nat.lt_or_ge z f.infinity with hlt | hge
  · rw [if_neg (by omega), if_pos hlt]
  · rw [if_pos hge, if_neg (by omega)]
    cases mode <;> cases neg <;> rfl

/-- Rounding up by the digits lost, `rem` of `2 ^ (j + 1)`, and by the sides of the pattern and of the middle. -/
theorem roundsUp_eq_roundsAway {f : Fmt} {mode : Rounding} {neg : Bool} {side : ℚ → Ordering} {x n rem j : Nat} {sticky : Bool}
    (hparity : x % 2 = n % 2) (hx : side (Exact.size f x) = if sticky then .lt else compare 0 rem)
    (hmid : side ((Exact.size f x + Exact.size f (x + 1)) / 2) =
      if sticky then (if 2 ^ j ≤ rem then .lt else .gt) else compare (2 ^ j) rem) :
    roundsUp mode neg (n % 2 == 1) rem (j + 1) sticky = roundsAway f mode neg side x := by
  have hpos : 0 < 2 ^ j := Nat.two_pow_pos j
  have haway : side (Exact.size f x) = .eq ↔ sticky = false ∧ rem = 0 := by
    rw [hx]
    cases sticky
    · rw [if_neg (by decide), compare_eq_iff_eq, eq_comm]
      simp
    · simp
  unfold roundsUp roundsAway
  simp only [haway]
  rcases Bool.eq_false_or_eq_true sticky with rfl | rfl
  · rw [if_neg (by simp)]
    cases mode with
    | rn =>
      rw [hmid, if_pos rfl, pow_succ']
      rcases Nat.lt_trichotomy rem (2 ^ j) with h | h | h
      · simp [show ¬ 2 * 2 ^ j < 2 * rem by omega, show 2 * rem ≠ 2 * 2 ^ j by omega, show ¬ 2 ^ j ≤ rem by omega]
      · simp [h]
      · simp [show 2 * 2 ^ j < 2 * rem by omega, h.le]
    | _ => simp
  · rcases Nat.eq_zero_or_pos rem with rfl | hrem
    · have hne : 0 ≠ 2 ^ (j + 1) := (Nat.two_pow_pos _).ne
      cases mode <;> simp [hne]
    · rw [if_neg (by simp [hrem.ne'])]
      cases mode with
      | rn =>
        rw [hmid, if_neg (by decide), pow_succ']
        rcases Nat.lt_trichotomy rem (2 ^ j) with h | h | h
        · simp [show ¬ 2 * 2 ^ j < 2 * rem by omega, show 2 * rem ≠ 2 * 2 ^ j by omega, compare_gt_iff_gt.mpr h]
        · simp [h, hparity]
        · simp [show 2 * 2 ^ j < 2 * rem by omega, compare_lt_iff_lt.mpr h]
      | _ => simp [hrem.ne']

theorem compare_add_left (a b c : Nat) : compare (a + b) (a + c) = compare b c := by
  simp [Nat.compare_eq_ite_lt]

/-- Rounds up or not, by the digits lost, as by the sides of the two patterns and of the middle between them. -/
theorem Fmt.up_eq_roundsAway {f : Fmt} (hf : f.Standard) (mode : Rounding) (neg : Bool) {m : Nat} (hm : 0 < m) {e : Int} {sticky : Bool}
    {side : ℚ → Ordering} (h : Brackets side m e sticky) (hfine : sticky = true → e < f.last m e) :
    side (Exact.size f (f.kept m e)) ≠ .gt ∧ side (Exact.size f (f.kept m e + 1)) = .gt ∧
      f.up mode neg m e sticky = roundsAway f mode neg side (f.kept m e) := by
  set x := f.kept m e with hxdef
  obtain ⟨hhigh, hlow⟩ := f.split_bounds hm e
  have hsize : Exact.size f x = (f.split m e).1 * 2 ^ f.last m e := f.size_above m e hlow hhigh.le
  have hnext : Exact.size f (x + 1) = ((f.split m e).1 + 1 : Nat) * 2 ^ f.last m e := by
    rw [show x + 1 = f.above m e * 2 ^ f.frac + ((f.split m e).1 + 1) from rfl]
    exact f.size_above m e (hlow.imp_left fun hle => hle.trans (Nat.le_succ _)) hhigh
  have hparity : x % 2 = (f.split m e).1 % 2 := by
    rw [hxdef, Fmt.kept]
    have hdvd : 2 ∣ f.above m e * 2 ^ f.frac := (dvd_pow_self 2 hf.frac_pos.ne').mul_left _
    omega
  rcases le_or_gt (f.last m e) e with hle | hgt
  · -- the magnitude has no digit below the last
    obtain rfl : sticky = false := by
      by_contra hs
      have := hfine (by simpa using hs)
      omega
    have hexact : Exact.size f x = m * 2 ^ e := by
      rw [hsize, f.split_of_le m e hle, zpow_two_add_toNat hle]
      push_cast
      ring
    have hside (u : ℚ) (hu : 0 ≤ u) : side u = compare u (m * 2 ^ e) := h u hu
    have heq : side (Exact.size f x) = .eq := by
      rw [hside _ (by rw [hexact]; positivity), hexact]
      exact compare_eq_iff_eq.mpr rfl
    refine ⟨by rw [heq]; decide, ?_, ?_⟩
    · rw [hside _ (by rw [hnext]; positivity), ← hexact, compare_gt_iff_gt, hsize, hnext]
      exact mul_lt_mul_of_pos_right (by exact_mod_cast Nat.lt_succ_self _) (zpow_pos two_pos _)
    · rw [roundsAway_of_eq heq, Fmt.up, f.split_of_le m e hle]
      cases mode <;> simp [roundsUp]
  · -- places below the last are lost
    have hsplit := f.split_eq m e hgt
    set k := (f.last m e - e).toNat with hk
    set n := (f.split m e).1 with hn
    set rem := (f.split m e).2.1 with hrem
    have hshift : (f.split m e).2.2 = k := by rw [hsplit]
    have hunits : m = n * 2 ^ k + rem := by
      rw [hn, hrem, hsplit, Nat.mul_comm]
      exact (Nat.div_add_mod m (2 ^ k)).symm
    have hless : rem < 2 ^ k := by
      rw [hrem, hsplit]
      exact Nat.mod_lt _ (Nat.two_pow_pos _)
    obtain ⟨j, hj⟩ : ∃ j, k = j + 1 := ⟨k - 1, by omega⟩
    have hhalf : 2 ^ k = 2 * 2 ^ j := by rw [hj, pow_succ']
    have hplace : (2 : ℚ) ^ f.last m e = 2 ^ k * 2 ^ e := zpow_two_add_toNat hgt.le
    have hx : side (Exact.size f x) = if sticky then .lt else compare 0 rem := by
      have hmul := h.at_multiple (n * 2 ^ k)
      rw [if_pos (by omega : n * 2 ^ k ≤ m)] at hmul
      rw [hsize, hplace, ← compare_add_left (n * 2 ^ k), ← hunits, Nat.add_zero, ← hmul]
      push_cast
      rw [mul_assoc]
    have hxnext : side (Exact.size f (x + 1)) = .gt := by
      have hmul := h.at_multiple ((n + 1) * 2 ^ k)
      have hlt : m < (n + 1) * 2 ^ k := by rw [Nat.add_mul, Nat.one_mul]; omega
      rw [if_neg (show ¬(n + 1) * 2 ^ k ≤ m by omega), compare_gt_iff_gt.mpr hlt, ite_self] at hmul
      rw [hnext, hplace, ← hmul]
      push_cast
      rw [mul_assoc]
    have hmid : side ((Exact.size f x + Exact.size f (x + 1)) / 2) =
        if sticky then (if 2 ^ j ≤ rem then .lt else .gt) else compare (2 ^ j) rem := by
      have hmul := h.at_multiple (n * 2 ^ k + 2 ^ j)
      have hle : n * 2 ^ k + 2 ^ j ≤ m ↔ 2 ^ j ≤ rem := by omega
      have hcompare : compare (n * 2 ^ k + 2 ^ j) m = compare (2 ^ j) rem := by rw [hunits, compare_add_left]
      rw [hcompare] at hmul
      simp only [hle] at hmul
      rw [← hmul, hsize, hnext, hplace, hj, pow_succ]
      congr 1
      push_cast
      ring
    refine ⟨?_, hxnext, ?_⟩
    · rw [hx]
      cases sticky <;> simp [compare_gt_iff_gt]
    · rw [Fmt.up, hshift, hj]
      exact roundsUp_eq_roundsAway hparity hx hmid

/-- The rounding of a magnitude that a bracket tells: m × 2^e, or, with more below its last bit, a number above it (R72). -/
theorem Fmt.rounds_roundMag {f : Fmt} (hf : f.Standard) (mode : Rounding) (neg : Bool) {m : Nat} (hm : 0 < m) {e : Int}
    {sticky : Bool} {side : ℚ → Ordering} (h : Brackets side m e sticky) (hfine : sticky = true → e < f.last m e) :
    Exact.Rounds f mode neg side (f.roundMag mode neg m e sticky) := by
  obtain ⟨hlow, hhigh, hup⟩ := Fmt.up_eq_roundsAway hf mode neg hm h hfine
  rw [Fmt.roundMag_eq]
  exact rounds_between hlow hhigh (by rw [Fmt.rounded_eq, hup])

/-- The rounding of an exact magnitude. -/
theorem Fmt.rounds_exact {f : Fmt} (hf : f.Standard) (mode : Rounding) (neg : Bool) {m : Nat} (hm : 0 < m) (e : Int) :
    Exact.Rounds f mode neg (fun u => compare u (m * 2 ^ e)) (f.roundMag mode neg m e) :=
  Fmt.rounds_roundMag hf mode neg hm (fun _ _ => rfl) (by simp)

/-- A rounded magnitude is a pattern of the format. -/
theorem Fmt.roundMag_lt {f : Fmt} (mode : Rounding) (neg : Bool) (m : Nat) (e : Int) (sticky : Bool) :
    f.roundMag mode neg m e sticky < 2 ^ f.bits := by
  have hinf := f.infinity_lt
  have hsign : f.sign neg ≤ 2 ^ (f.frac + f.exp) := by unfold Fmt.sign; split <;> omega
  have hover : f.overflow mode neg ≤ f.sign neg + f.infinity := by
    cases mode <;> cases neg <;> simp [Fmt.overflow, Fmt.largest]
  rw [Fmt.roundMag_eq, Fmt.bits, pow_succ]
  split <;> omega

end Sys2Proof.Machine
end

section
/-!
SUPPORT. Values and the terms that the spec's rules speak of (R69, R73, R74): the value of a pattern, exact products and sums, and
the rounding of a term.
-/
namespace Sys2Proof.Machine
open Exact (Term)

/-! ### Values as terms -/

/-- A signed magnitude as a rational number. -/
def signedMag (neg : Bool) (m : Nat) (e : Int) : ℚ := if neg then -(m * 2 ^ e) else m * 2 ^ e

/-- The term that a value is. -/
def FVal.term : FVal → Term
  | .nan => .nan
  | .inf s => .inf s
  | .fin s m e => .num s (signedMag s m e)

theorem signedMag_eq_zero {s : Bool} {m : Nat} {e : Int} : signedMag s m e = 0 ↔ m = 0 := by
  have hpos : (2 : ℚ) ^ e ≠ 0 := zpow_ne_zero _ two_ne_zero
  cases s <;> simp [signedMag, hpos]

theorem signedMag_lt_zero {s : Bool} {m : Nat} {e : Int} (hm : m ≠ 0) : decide (signedMag s m e < 0) = s := by
  have hpos : (0 : ℚ) < m * 2 ^ e := mul_pos (by exact_mod_cast Nat.pos_of_ne_zero hm) (zpow_pos two_pos _)
  cases s
  · simpa [signedMag] using hpos.le
  · simpa [signedMag] using hpos

theorem signedMag_neg_iff {s : Bool} {m : Nat} {e : Int} (hm : m ≠ 0) : signedMag s m e < 0 ↔ s = true := by
  rw [← decide_eq_true_eq (p := signedMag s m e < 0), signedMag_lt_zero hm]

theorem signedMag_pos_iff {s : Bool} {m : Nat} {e : Int} (hm : m ≠ 0) : 0 < signedMag s m e ↔ s = false := by
  rw [← not_iff_not, not_lt, le_iff_lt_or_eq, or_iff_left (mt signedMag_eq_zero.mp hm), signedMag_neg_iff hm, Bool.not_eq_false]

theorem abs_signedMag (s : Bool) (m : Nat) (e : Int) : |signedMag s m e| = m * 2 ^ e := by
  have hpos : (0 : ℚ) ≤ m * 2 ^ e := by positivity
  cases s
  · exact abs_of_nonneg hpos
  · exact (abs_neg _).trans (abs_of_nonneg hpos)

theorem FVal.term_neg (v : FVal) : v.neg.term = v.term.neg := by
  cases v with
  | nan => rfl
  | inf s => rfl
  | fin s m e => cases s <;> simp [FVal.neg, FVal.term, Term.neg, signedMag]

theorem FVal.term_mul (v w : FVal) : (v.mul w).term = v.term.mul w.term := by
  cases v with
  | nan => cases w <;> rfl
  | inf s =>
    cases w with
    | nan => rfl
    | inf t => rfl
    | fin t n g =>
      rw [FVal.mul, FVal.term, FVal.term, Term.mul]
      simp only [signedMag_eq_zero]
      split <;> rfl
  | fin s m e =>
    cases w with
    | nan => rfl
    | inf t =>
      rw [FVal.mul, FVal.term, FVal.term, Term.mul]
      simp only [signedMag_eq_zero]
      split
      · rfl
      · cases s <;> cases t <;> rfl
    | fin t n g =>
      rw [FVal.mul, FVal.term, FVal.term, FVal.term, Term.mul]
      congr 1
      rw [signedMag, signedMag, signedMag, zpow_add₀ two_ne_zero]
      push_cast
      cases s <;> cases t <;> simp <;> ring

/-- A pattern's exponent field and fraction. -/
theorem Fmt.magnitude_eq (f : Fmt) (x : Nat) :
    f.magnitude x = 2 ^ f.frac * (f.magnitude x / 2 ^ f.frac) + x % 2 ^ f.frac := by
  have hmod : f.magnitude x % 2 ^ f.frac = x % 2 ^ f.frac := by
    rw [Fmt.magnitude]
    exact Nat.mod_mod_of_dvd x (Nat.pow_dvd_pow 2 (by omega))
  rw [← hmod]
  exact (Nat.div_add_mod ..).symm

/-- The value of a pattern is the term that R69 gives it. -/
theorem Fmt.term_value (f : Fmt) (x : Nat) : (f.value x).term = Exact.term f x := by
  have hpos : 0 < 2 ^ f.frac := Nat.two_pow_pos _
  have hfraction : x % 2 ^ f.frac < 2 ^ f.frac := Nat.mod_lt _ hpos
  have hmag := f.magnitude_eq x
  have hlast : f.magnitude x / 2 ^ f.frac ≤ f.emax := by
    have hlt : f.magnitude x < 2 ^ (f.frac + f.exp) := Nat.mod_lt _ (Nat.two_pow_pos _)
    rw [pow_add] at hlt
    have := Nat.div_lt_of_lt_mul hlt
    rw [Fmt.emax]
    omega
  have hinf : f.infinity = 2 ^ f.frac * f.emax := Nat.mul_comm ..
  unfold Fmt.value Exact.term
  set e := f.magnitude x / 2 ^ f.frac with he
  set m := x % 2 ^ f.frac with hm
  dsimp only
  by_cases htop : e = f.emax
  · rw [if_pos htop]
    have hmag' : f.magnitude x = f.infinity + m := by rw [hmag, htop, hinf]
    rcases Nat.eq_zero_or_pos m with hzero | hnan
    · rw [if_pos hzero, if_neg (by omega), if_pos (by omega)]
      rfl
    · rw [if_neg (by omega), if_pos (by omega)]
      rfl
  · have hbelow : f.magnitude x < f.infinity := by
      have : 2 ^ f.frac * (e + 1) ≤ 2 ^ f.frac * f.emax := Nat.mul_le_mul_left _ (by omega)
      rw [Nat.mul_add, Nat.mul_one] at this
      omega
    rw [if_neg htop, if_neg (show ¬f.infinity < f.magnitude x by omega), if_neg (show f.magnitude x ≠ f.infinity by omega)]
    rcases Nat.eq_zero_or_pos e with hlow | hhigh
    · have hsmall : f.magnitude x = m := by rw [hmag, hlow]; omega
      have hsize : Exact.size f (f.magnitude x) = m * 2 ^ (1 - (f.bias : Int) - f.frac) := by
        rw [hsmall, Exact.size, if_pos hfraction]
      rw [if_pos hlow, hsize]
      rfl
    · have hbig : ¬ f.magnitude x < 2 ^ f.frac := by
        have : 2 ^ f.frac * 1 ≤ 2 ^ f.frac * e := Nat.mul_le_mul_left _ hhigh
        omega
      have hmod : f.magnitude x % 2 ^ f.frac = m := by rw [hmag, Nat.mul_add_mod, Nat.mod_eq_of_lt hfraction]
      have hplace : (2 : ℚ) ^ ((e : Int) - f.bias - f.frac) = 2 ^ (e - 1) * 2 ^ (1 - (f.bias : Int) - f.frac) := by
        rw [← zpow_natCast, ← zpow_add₀ two_ne_zero]
        congr 1
        omega
      have hsize : Exact.size f (f.magnitude x) = (2 ^ f.frac + m : Nat) * 2 ^ ((e : Int) - f.bias - f.frac) := by
        rw [Exact.size, if_neg hbig, hmod, ← he, hplace, mul_assoc]
      rw [if_neg hhigh.ne', hsize]
      rfl

/-- A pattern is a NaN where its term is. -/
theorem Fmt.isNaN_eq (f : Fmt) (x : Nat) : f.isNaN x = (Exact.term f x == .nan) := by
  unfold Fmt.isNaN Exact.term
  dsimp only
  split
  · simp [*]
  · split <;> simp [*]

/-! ### Sums (R73, R74) -/

theorem FVal.isNaN_iff (v : FVal) : v.isNaN = true ↔ v.term = .nan := by cases v <;> simp [FVal.isNaN, FVal.term]

theorem FVal.isInf_iff (s : Bool) (v : FVal) : v.isInf s = true ↔ v.term = .inf s := by cases v <;> simp [FVal.isInf, FVal.term]

theorem FVal.zero_iff (s : Bool) (v : FVal) : (v.isZero && v.negative == s) = (v.term == .num s 0) := by
  cases v with
  | nan => rfl
  | inf t => rfl
  | fin t m e =>
    rw [Bool.eq_iff_iff]
    simp [FVal.isZero, FVal.negative, FVal.term, signedMag_eq_zero, and_comm]

/-- The lower of a bound and the exponents of some values. -/
def leastExponent (b : Int) (ts : List FVal) : Int := ts.foldl (fun b t => if t.exponent < b then t.exponent else b) b

theorem leastExponent_le (b : Int) (ts : List FVal) : leastExponent b ts ≤ b ∧ ∀ t ∈ ts, leastExponent b ts ≤ t.exponent := by
  induction ts generalizing b with
  | nil => exact ⟨le_refl b, by simp⟩
  | cons t ts ih =>
    have hstep : leastExponent b (t :: ts) = leastExponent (if t.exponent < b then t.exponent else b) ts := rfl
    obtain ⟨hb, hts⟩ := ih (if t.exponent < b then t.exponent else b)
    rw [← hstep] at hb hts
    exact ⟨by split at hb <;> omega, List.forall_mem_cons.mpr ⟨by split at hb <;> omega, hts⟩⟩

/-- A value over a common exponent no higher than its own. -/
theorem FVal.scaled_mul {v : FVal} {base : Int} (h : base ≤ v.exponent) :
    (v.scaled base : ℚ) * 2 ^ base = v.term.value := by
  cases v with
  | nan => simp [FVal.scaled, FVal.term, Term.value]
  | inf s => simp [FVal.scaled, FVal.term, Term.value]
  | fin s m e =>
    have hplace : (2 : ℚ) ^ e = 2 ^ (e - base).toNat * 2 ^ base := zpow_two_add_toNat h
    simp only [FVal.scaled, FVal.term, Term.value, signedMag, hplace]
    cases s
    · rw [if_neg Bool.false_ne_true, if_neg Bool.false_ne_true]
      push_cast
      ring
    · rw [if_pos rfl, if_pos rfl]
      push_cast
      ring

theorem foldl_add_eq_sum (ts : List FVal) (base a : Int) :
    ts.foldl (fun (a : Int) t => a + t.scaled base) a = a + (ts.map (FVal.scaled base)).sum := by
  induction ts generalizing a with
  | nil => simp
  | cons t ts ih => rw [List.foldl_cons, ih, List.map_cons, List.sum_cons, Int.add_assoc]

theorem sum_scaled_mul {ts : List FVal} {base : Int} (h : ∀ t ∈ ts, base ≤ t.exponent) :
    (((ts.map (FVal.scaled base)).sum : Int) : ℚ) * 2 ^ base = ((ts.map FVal.term).map Term.value).sum := by
  induction ts with
  | nil => simp
  | cons t ts ih =>
    obtain ⟨ht, hts⟩ := List.forall_mem_cons.mp h
    simp only [List.map_cons, List.sum_cons]
    push_cast
    rw [add_mul, FVal.scaled_mul ht, ← ih hts]
    push_cast
    rfl

/-- The sum of values without NaNs and infinities. -/
def finiteSum (mode : Rounding) (ts : List FVal) : FVal :=
  let base := leastExponent ((ts.head?.map FVal.exponent).getD 0) ts
  let v := ts.foldl (fun (a : Int) t => a + t.scaled base) 0
  if v = 0 then
    let zero (s : Bool) : Bool := ts.all fun t => t.isZero && t.negative == s
    .fin (if ts.isEmpty then false else if zero false then false else if zero true then true else mode == .rm) 0 0
  else .fin (decide (v < 0)) v.natAbs base

/-- A sum of finite values is that of the rules, with its sign where it is zero (R73). -/
theorem term_finiteSum (mode : Rounding) (ts : List FVal) :
    (finiteSum mode ts).term =
      let v := ((ts.map FVal.term).map Term.value).sum
      .num (if v = 0 then Exact.zeroSign mode (ts.map FVal.term) else decide (v < 0)) v := by
  have hzero (s : Bool) : (ts.all fun t => t.isZero && t.negative == s) = (ts.map FVal.term).all fun t => t == .num s 0 := by
    rw [List.all_map]
    exact congrArg ts.all (funext fun t => t.zero_iff s)
  set base := leastExponent ((ts.head?.map FVal.exponent).getD 0) ts with hbase
  have hleast : ∀ t ∈ ts, base ≤ t.exponent := (leastExponent_le _ ts).2
  set v := (ts.map (FVal.scaled base)).sum with hv
  have hfold : ts.foldl (fun (a : Int) t => a + t.scaled base) 0 = v := by rw [foldl_add_eq_sum, Int.zero_add]
  have hsum : ((ts.map FVal.term).map Term.value).sum = (v : ℚ) * 2 ^ base := (sum_scaled_mul hleast).symm
  have hpos : (0 : ℚ) < 2 ^ base := zpow_pos two_pos _
  unfold finiteSum
  dsimp only
  rw [← hbase, hfold, hsum]
  by_cases hv0 : v = 0
  · rw [if_pos hv0, hv0, Int.cast_zero, zero_mul, if_pos rfl, FVal.term, signedMag_eq_zero.mpr rfl, Exact.zeroSign, ← hzero,
      ← hzero]
    cases ts <;> rfl
  · have hne : (v : ℚ) * 2 ^ base ≠ 0 := mul_ne_zero (by exact_mod_cast hv0) hpos.ne'
    have habs : ((v.natAbs : Nat) : ℚ) = |(v : ℚ)| := by rw [Nat.cast_natAbs, Int.cast_abs]
    rw [if_neg hv0, if_neg hne, FVal.term, signedMag, habs]
    rcases lt_or_ge v 0 with h | h
    · have hneg : (v : ℚ) < 0 := by exact_mod_cast h
      rw [decide_eq_true h, decide_eq_true (mul_neg_of_neg_of_pos hneg hpos), if_pos rfl, abs_of_neg hneg, neg_mul, neg_neg]
    · have hnonneg : (0 : ℚ) ≤ v := by exact_mod_cast h
      rw [decide_eq_false (not_lt.mpr h), decide_eq_false (not_lt.mpr (mul_nonneg hnonneg hpos.le)), if_neg (by decide),
        abs_of_nonneg hnonneg]

/-- The exact sum that the model forms is that of the rules (R73, R74). -/
theorem term_sumTerms (mode : Rounding) (ts : List FVal) :
    (sumTerms mode ts).term = Exact.total mode (ts.map FVal.term) := by
  have hnan : ts.any FVal.isNaN = decide (.nan ∈ ts.map FVal.term) := by
    rw [Bool.eq_iff_iff]
    simp [FVal.isNaN_iff]
  have hinf (s : Bool) : ts.any (FVal.isInf s) = decide (.inf s ∈ ts.map FVal.term) := by
    rw [Bool.eq_iff_iff]
    simp [FVal.isInf_iff]
  have hsum : sumTerms mode ts =
      if ts.any FVal.isNaN then .nan
      else if ts.any (FVal.isInf false) && ts.any (FVal.isInf true) then .nan
      else if ts.any (FVal.isInf false) then .inf false
      else if ts.any (FVal.isInf true) then .inf true
      else finiteSum mode ts := rfl
  rw [hsum, hnan, hinf, hinf, Exact.total, ← term_finiteSum]
  by_cases hany : .nan ∈ ts.map FVal.term
  · simp [hany, FVal.term]
  · by_cases hp : .inf false ∈ ts.map FVal.term <;> by_cases hn : .inf true ∈ ts.map FVal.term <;>
      simp [hany, hp, hn, FVal.term]

/-- A term that is a value is its own sum. -/
theorem total_singleton (mode : Rounding) (v : FVal) : Exact.total mode [v.term] = v.term := by
  cases v with
  | nan => rfl
  | inf s => cases s <;> rfl
  | fin s m e =>
    simp only [Exact.total, FVal.term, List.mem_singleton, reduceCtorEq, and_self, or_self, if_false, List.map_cons, List.map_nil,
      Term.value, List.sum_cons, List.sum_nil, add_zero]
    congr 1
    split
    · rename_i h
      cases s <;> simp [Exact.zeroSign, h]
    · rename_i h
      exact signedMag_lt_zero (fun hm => h (signedMag_eq_zero.mpr hm))

/-! ### Rounded terms (R72) -/

/-- The rounding of a value is that of its term. -/
theorem Fmt.roundsTerm_round {f : Fmt} (hf : f.Standard) (mode : Rounding) (v : FVal) :
    Exact.RoundsTerm f mode v.term (f.round mode v) := by
  cases v with
  | nan => rfl
  | inf s => rfl
  | fin s m e =>
    show Exact.RoundsTo f mode s (signedMag s m e) (if m = 0 then f.sign s else f.roundMag mode s m e)
    unfold Exact.RoundsTo
    by_cases hm : m = 0
    · rw [if_pos hm, if_pos (signedMag_eq_zero.mpr hm)]
    · rw [if_neg hm, if_neg (fun h => hm (signedMag_eq_zero.mp h)), signedMag_lt_zero hm, abs_signedMag]
      exact Fmt.rounds_exact hf mode s (Nat.pos_of_ne_zero hm) e

/-- One rounding step of some values is that of their terms. -/
theorem Fmt.sums_round {f : Fmt} (hf : f.Standard) (mode : Rounding) (ts : List FVal) :
    Exact.Sums f mode (ts.map FVal.term) (f.round mode (sumTerms mode ts)) := by
  rw [Exact.Sums, ← term_sumTerms]
  exact f.roundsTerm_round hf mode _

/-- A value rounded is a step of one term. -/
theorem Fmt.sums_round_single {f : Fmt} (hf : f.Standard) (mode : Rounding) (v : FVal) :
    Exact.Sums f mode [v.term] (f.round mode v) := by
  rw [Exact.Sums, total_singleton]
  exact f.roundsTerm_round hf mode v

theorem Fmt.sign_le (f : Fmt) (neg : Bool) : f.sign neg ≤ 2 ^ (f.frac + f.exp) := by
  unfold Fmt.sign
  split
  · exact le_refl _
  · exact Nat.zero_le _

/-- A sign and a magnitude below the sign bit are a pattern of the format. -/
theorem Fmt.sign_add_lt (f : Fmt) (neg : Bool) {x : Nat} (h : x < 2 ^ (f.frac + f.exp)) : f.sign neg + x < 2 ^ f.bits := by
  have hsign := f.sign_le neg
  rw [Fmt.bits, pow_succ]
  omega

theorem Fmt.defaultNaN_lt {f : Fmt} (hf : f.Standard) : f.defaultNaN < 2 ^ (f.frac + f.exp) := by
  have hadd := f.infinity_add
  have hlt : 2 ^ (f.frac - 1) < 2 ^ f.frac := Nat.pow_lt_pow_right (by omega) (by have := hf.frac_pos; omega)
  rw [Fmt.defaultNaN]
  omega

theorem Fmt.lt_bits_of_lt {f : Fmt} {x : Nat} (h : x < 2 ^ (f.frac + f.exp)) : x < 2 ^ f.bits := by
  rw [Fmt.bits, pow_succ]
  omega

theorem Fmt.round_lt {f : Fmt} (hf : f.Standard) (mode : Rounding) (v : FVal) : f.round mode v < 2 ^ f.bits := by
  cases v with
  | nan => exact f.lt_bits_of_lt (f.defaultNaN_lt hf)
  | inf s => exact f.sign_add_lt s f.infinity_lt
  | fin s m e =>
    rw [Fmt.round]
    split
    · exact f.sign_add_lt s (Nat.two_pow_pos _)
    · exact f.roundMag_lt mode s m e false

/-! ### Operands that are NaNs (R74) -/

/-- The first NaN made quiet, or the result of the operation. -/
theorem Fmt.realOp_nanFirst (f : Fmt) {xs : List Nat} {g : Nat} {P : Nat → Prop} (h : (∀ x ∈ xs, f.isNaN x = false) → P g) :
    Exact.RealOp f xs P (f.nanFirst xs g) := by
  have hfind : (xs.find? fun x => Exact.term f x == .nan) = xs.find? f.isNaN :=
    congrArg (xs.find? ·) (funext fun x => (f.isNaN_eq x).symm)
  unfold Exact.RealOp Fmt.nanFirst
  rw [hfind]
  cases hx : xs.find? f.isNaN with
  | some x => rfl
  | none => exact h fun x hmem => by simpa using List.find?_eq_none.mp hx x hmem

theorem Fmt.nanFirst_lt {f : Fmt} {xs : List Nat} {g : Nat} (hf : f.Standard) (hxs : ∀ x ∈ xs, x < 2 ^ f.bits) (hg : g < 2 ^ f.bits) :
    f.nanFirst xs g < 2 ^ f.bits := by
  unfold Fmt.nanFirst
  cases hx : xs.find? f.isNaN with
  | some x =>
    have hquiet : 2 ^ (f.frac - 1) < 2 ^ f.bits := Nat.pow_lt_pow_right (by omega) (by have := hf.frac_pos; rw [Fmt.bits]; omega)
    exact Nat.or_lt_two_pow (hxs x (List.mem_of_find?_eq_some hx)) hquiet
  | none => exact hg

/-! ### Sums and products of patterns (R76, R124) -/

theorem Fmt.adds_add {f : Fmt} (hf : f.Standard) (mode : Rounding) (x y : Nat) : Exact.Adds f mode x y (f.add mode x y) :=
  f.realOp_nanFirst fun _ => by
    have hsums := f.sums_round hf mode [f.value x, f.value y]
    simpa only [List.map_cons, List.map_nil, f.term_value] using hsums

theorem Fmt.subtracts_sub {f : Fmt} (hf : f.Standard) (mode : Rounding) (x y : Nat) : Exact.Subtracts f mode x y (f.sub mode x y) :=
  f.realOp_nanFirst fun _ => by
    have hsums := f.sums_round hf mode [f.value x, (f.value y).neg]
    simpa only [List.map_cons, List.map_nil, FVal.term_neg, f.term_value] using hsums

theorem Fmt.multiplies_mul {f : Fmt} (hf : f.Standard) (mode : Rounding) (x y : Nat) : Exact.Multiplies f mode x y (f.mul mode x y) :=
  f.realOp_nanFirst fun _ => by
    have hsums := f.sums_round_single hf mode ((f.value x).mul (f.value y))
    simpa only [FVal.term_mul, f.term_value] using hsums

theorem Fmt.fuses_fma {f : Fmt} (hf : f.Standard) (mode : Rounding) (x y z : Nat) : Exact.Fuses f mode x y z (f.fma mode x y z) :=
  f.realOp_nanFirst fun _ => by
    have hsums := f.sums_round hf mode [(f.value x).mul (f.value y), f.value z]
    simpa only [List.map_cons, List.map_nil, FVal.term_mul, f.term_value] using hsums

end Sys2Proof.Machine
end

section
/-!
SUPPORT. Quotients and roots rounded once (R76): the integer quotient or root with what is left over brackets the exact number.
-/
namespace Sys2Proof.Machine

/-! ### Brackets of a number that a rising function tells -/

/-- A rising function brackets the number at which it takes a value, where it takes it at m × 2^e, or passes it before the next
multiple. -/
theorem brackets_of_strictMonoOn {φ : ℚ → ℚ} {c : ℚ} {m : Nat} {e : Int} {sticky : Bool} (hφ : StrictMonoOn φ (Set.Ici 0))
    (hexact : sticky = false → φ (m * 2 ^ e) = c) (hlow : sticky = true → φ (m * 2 ^ e) < c)
    (hhigh : sticky = true → c < φ ((m + 1 : Nat) * 2 ^ e)) : Brackets (fun u => compare (φ u) c) m e sticky := by
  intro u hu
  have hm : (0 : ℚ) ≤ m * 2 ^ e := by positivity
  have hm' : (0 : ℚ) ≤ (m + 1 : Nat) * 2 ^ e := by positivity
  cases sticky with
  | true =>
    rw [if_pos rfl]
    refine ⟨fun h => compare_lt_iff_lt.mpr ?_, fun h => compare_gt_iff_gt.mpr ?_⟩
    · exact lt_of_le_of_lt (hφ.monotoneOn hu hm h) (hlow rfl)
    · exact lt_of_lt_of_le (hhigh rfl) (hφ.monotoneOn hm' hu h)
  | false =>
    rw [if_neg (by decide)]
    dsimp only
    rw [← hexact rfl]
    rcases lt_trichotomy u (m * 2 ^ e) with h | rfl | h
    · rw [compare_lt_iff_lt.mpr h, compare_lt_iff_lt]
      exact hφ hu hm h
    · rw [compare_eq_iff_eq.mpr rfl, compare_eq_iff_eq.mpr rfl]
    · rw [compare_gt_iff_gt.mpr h, compare_gt_iff_gt]
      exact hφ hm hu h

theorem strictMonoOn_sq_mul {v : ℚ} (hv : 0 < v) : StrictMonoOn (fun u : ℚ => u * u * v) (Set.Ici 0) := by
  intro a ha b _ hab
  exact mul_lt_mul_of_pos_right (mul_self_lt_mul_self ha hab) hv

theorem strictMonoOn_sq : StrictMonoOn (fun u : ℚ => u * u) (Set.Ici 0) := fun _ ha _ _ hab => mul_self_lt_mul_self ha hab

/-- A number with more digits than the fraction has its last kept place above its own last. -/
theorem Fmt.lt_last {f : Fmt} {m : Nat} (h : 2 ^ (f.frac + 1) ≤ m) (e : Int) : e < f.last m e := by
  have hlen : f.frac + 1 < bitLen m := by
    by_contra hle
    have hpow : 2 ^ bitLen m ≤ 2 ^ (f.frac + 1) := Nat.pow_le_pow_right (by omega) (by omega)
    have hlt := lt_two_pow_bitLen m
    omega
  have hlead : e + bitLen m - 1 ≤ f.lead m e := by unfold Fmt.lead; split <;> omega
  rw [Fmt.last]
  omega

/-! ### Quotients -/

/-- A quotient, rounded once. -/
theorem Fmt.rounds_quotient {f : Fmt} (hf : f.Standard) (mode : Rounding) (neg : Bool) {m n : Nat} (hm : 0 < m) (hn : 0 < n)
    (e g : Int) : Exact.Rounds f mode neg (fun u => compare u (m * 2 ^ e / (n * 2 ^ g))) (f.quotient mode neg m e n g) := by
  set k := f.frac + 4 + bitLen n with hk
  set a := m * 2 ^ k with ha
  have hquotient : f.quotient mode neg m e n g = f.roundMag mode neg (a / n) (e - g - k) (a % n != 0) := rfl
  have hn' : (0 : ℚ) < n := by exact_mod_cast hn
  have hplace : (0 : ℚ) < 2 ^ (e - g - k) := zpow_pos two_pos _
  have hvalue : (m : ℚ) * 2 ^ e / (n * 2 ^ g) = a / n * 2 ^ (e - g - k) := by
    rw [zpow_sub₀ two_ne_zero, zpow_sub₀ two_ne_zero, ha, zpow_natCast]
    push_cast
    field_simp
  have hdigits : 2 ^ (f.frac + 1) ≤ a / n := by
    refine (Nat.le_div_iff_mul_le hn).mpr ?_
    calc 2 ^ (f.frac + 1) * n ≤ 2 ^ (f.frac + 1) * 2 ^ bitLen n := Nat.mul_le_mul_left _ (lt_two_pow_bitLen n).le
      _ = 2 ^ (f.frac + 1 + bitLen n) := (pow_add ..).symm
      _ ≤ 2 ^ k := Nat.pow_le_pow_right (by omega) (by omega)
      _ ≤ a := Nat.le_mul_of_pos_left _ hm
  rw [hquotient, hvalue]
  refine Fmt.rounds_roundMag hf mode neg (lt_of_lt_of_le (Nat.two_pow_pos _) hdigits) ?_ fun _ => Fmt.lt_last hdigits _
  refine brackets_of_strictMonoOn (φ := id) strictMonoOn_id (fun h => ?_) (fun h => ?_) (fun h => ?_)
  · have hdvd : n ∣ a := Nat.dvd_of_mod_eq_zero (by simpa using h)
    rw [id, Nat.cast_div hdvd hn'.ne']
  · have hne : a % n ≠ 0 := by simpa using h
    refine mul_lt_mul_of_pos_right ((lt_div_iff₀ hn').mpr ?_) hplace
    have := Nat.div_add_mod a n
    exact_mod_cast (show a / n * n < a by rw [Nat.mul_comm]; omega)
  · refine mul_lt_mul_of_pos_right ((div_lt_iff₀ hn').mpr ?_) hplace
    have hmod := Nat.div_add_mod a n
    have hlt := Nat.mod_lt a hn
    exact_mod_cast (show a < (a / n + 1) * n by rw [Nat.add_mul, Nat.one_mul, Nat.mul_comm (a / n)]; omega)

/-! ### Roots -/

theorem isqrtFrom_spec {n : Nat} : ∀ {k r : Nat}, r * r ≤ n → n < (r + 2 ^ (k + 1)) * (r + 2 ^ (k + 1)) →
    isqrtFrom n k r * isqrtFrom n k r ≤ n ∧ n < (isqrtFrom n k r + 1) * (isqrtFrom n k r + 1)
  | 0, r, hlow, hhigh => by
    rw [isqrtFrom]
    split
    · exact ⟨‹_›, hhigh⟩
    · exact ⟨hlow, by omega⟩
  | k + 1, r, hlow, hhigh => by
    rw [isqrtFrom]
    split
    · refine isqrtFrom_spec ‹_› ?_
      rwa [Nat.add_assoc, show 2 ^ (k + 1) + 2 ^ (k + 1) = 2 ^ (k + 1 + 1) by rw [pow_succ 2 (k + 1)]; omega]
    · exact isqrtFrom_spec hlow (by omega)

/-- The integer square root. -/
theorem isqrt_spec (n : Nat) : isqrt n * isqrt n ≤ n ∧ n < (isqrt n + 1) * (isqrt n + 1) := by
  refine isqrtFrom_spec (Nat.zero_le n) ?_
  rw [Nat.zero_add, ← pow_add]
  exact lt_of_lt_of_le (lt_two_pow_bitLen n) (Nat.pow_le_pow_right (by omega) (by omega))

theorem le_isqrt {r n : Nat} (h : r * r ≤ n) : r ≤ isqrt n := by
  have hlt := (isqrt_spec n).2
  by_contra hgt
  have : (isqrt n + 1) * (isqrt n + 1) ≤ r * r := Nat.mul_le_mul (by omega) (by omega)
  omega

/-- An even exponent for the same value. -/
theorem evenExponent_spec (m : Nat) (e : Int) :
    (evenExponent m e).2 % 2 = 0 ∧ ((evenExponent m e).1 : ℚ) * 2 ^ (evenExponent m e).2 = m * 2 ^ e ∧ m ≤ (evenExponent m e).1 := by
  unfold evenExponent
  split
  · exact ⟨‹_›, rfl, le_refl m⟩
  · refine ⟨by dsimp only; omega, ?_, by dsimp only; omega⟩
    rw [zpow_sub₀ two_ne_zero]
    push_cast
    ring

theorem zpow_half_mul_self {e : Int} (h : e % 2 = 0) : (2 : ℚ) ^ (e / 2) * 2 ^ (e / 2) = 2 ^ e := by
  rw [← zpow_add₀ two_ne_zero]
  congr 1
  omega

/-- A square root, rounded once. -/
theorem Fmt.rounds_sqrt {f : Fmt} (hf : f.Standard) (mode : Rounding) {m : Nat} (hm : 0 < m) (e : Int) :
    Exact.Rounds f mode false (fun u => compare (u * u) (m * 2 ^ e)) (f.sqrtMag mode m e) := by
  obtain ⟨heven, hvalue, hle⟩ := evenExponent_spec m e
  set m' := (evenExponent m e).1
  set e' := (evenExponent m e).2
  set k := f.frac + 4 with hk
  set a := m' * 2 ^ (2 * k) with ha
  have hsqrt : f.sqrtMag mode m e = f.roundMag mode false (isqrt a) (e' / 2 - k) (isqrt a * isqrt a != a) := rfl
  have hpos : (0 : ℚ) < 2 ^ (e' / 2 - k) * 2 ^ (e' / 2 - k) := by positivity
  have hexact : (m : ℚ) * 2 ^ e = a * (2 ^ (e' / 2 - k) * 2 ^ (e' / 2 - k)) := by
    rw [← hvalue, ha, zpow_sub₀ two_ne_zero, zpow_natCast, ← zpow_half_mul_self heven]
    push_cast
    rw [Nat.mul_comm 2 k, pow_mul]
    field_simp
  have hdigits : 2 ^ (f.frac + 1) ≤ isqrt a := by
    refine le_isqrt ?_
    calc 2 ^ (f.frac + 1) * 2 ^ (f.frac + 1) = 2 ^ (f.frac + 1 + (f.frac + 1)) := (pow_add ..).symm
      _ ≤ 2 ^ (2 * k) := Nat.pow_le_pow_right (by omega) (by omega)
      _ ≤ a := Nat.le_mul_of_pos_left _ (by omega)
  have hsquare (r : Nat) : ((r : ℚ) * 2 ^ (e' / 2 - (k : Int))) * (r * 2 ^ (e' / 2 - (k : Int))) =
      (r * r : Nat) * (2 ^ (e' / 2 - (k : Int)) * 2 ^ (e' / 2 - (k : Int))) := by
    push_cast
    ring
  obtain ⟨hlow, hhigh⟩ := isqrt_spec a
  rw [hsqrt, hexact]
  refine Fmt.rounds_roundMag hf mode false (lt_of_lt_of_le (Nat.two_pow_pos _) hdigits) ?_ fun _ => Fmt.lt_last hdigits _
  refine brackets_of_strictMonoOn strictMonoOn_sq (fun h => ?_) (fun h => ?_) (fun h => ?_)
  · have heq : isqrt a * isqrt a = a := by simpa using h
    rw [hsquare, heq]
  · have hne : isqrt a * isqrt a ≠ a := by simpa using h
    rw [hsquare]
    exact mul_lt_mul_of_pos_right (by exact_mod_cast lt_of_le_of_ne hlow hne) hpos
  · rw [hsquare]
    exact mul_lt_mul_of_pos_right (by exact_mod_cast hhigh) hpos

/-- A reciprocal square root, rounded once. -/
theorem Fmt.rounds_rsqrt {f : Fmt} (hf : f.Standard) (mode : Rounding) {m : Nat} (hm : 0 < m) (e : Int) :
    Exact.Rounds f mode false (fun u => compare (u * u * (m * 2 ^ e)) 1) (f.rsqrtMag mode m e) := by
  obtain ⟨heven, hvalue, hle⟩ := evenExponent_spec m e
  set m' := (evenExponent m e).1
  set e' := (evenExponent m e).2
  have hm' : 0 < m' := by omega
  set k := f.frac + 4 + bitLen m' with hk
  set r := isqrt (2 ^ (2 * k) / m') with hr
  have hrsqrt : f.rsqrtMag mode m e = f.roundMag mode false r (-(k : Int) - e' / 2) (r * r * m' != 2 ^ (2 * k)) := rfl
  have hone (q : Nat) : ((q : ℚ) * 2 ^ (-(k : Int) - e' / 2)) * (q * 2 ^ (-(k : Int) - e' / 2)) * (m * 2 ^ e) =
      ((q * q * m' : Nat) : ℚ) / (2 ^ (2 * k) : Nat) := by
    rw [← hvalue, ← zpow_half_mul_self heven, zpow_sub₀ two_ne_zero, zpow_neg, zpow_natCast, Nat.mul_comm 2 k, pow_mul]
    push_cast
    field_simp
  have hpow : (0 : ℚ) < (2 ^ (2 * k) : Nat) := by exact_mod_cast Nat.two_pow_pos _
  have hvpos : (0 : ℚ) < m * 2 ^ e := mul_pos (by exact_mod_cast hm) (zpow_pos two_pos _)
  have hdigits : 2 ^ (f.frac + 1) ≤ r := by
    refine le_isqrt ((Nat.le_div_iff_mul_le hm').mpr ?_)
    calc 2 ^ (f.frac + 1) * 2 ^ (f.frac + 1) * m' ≤ 2 ^ (f.frac + 1) * 2 ^ (f.frac + 1) * 2 ^ bitLen m' :=
          Nat.mul_le_mul_left _ (lt_two_pow_bitLen m').le
      _ = 2 ^ (f.frac + 1 + (f.frac + 1) + bitLen m') := by rw [← pow_add, ← pow_add]
      _ ≤ 2 ^ (2 * k) := Nat.pow_le_pow_right (by omega) (by omega)
  obtain ⟨hlow, hhigh⟩ := isqrt_spec (2 ^ (2 * k) / m')
  have hlow' : r * r * m' ≤ 2 ^ (2 * k) := (Nat.le_div_iff_mul_le hm').mp hlow
  have hhigh' : 2 ^ (2 * k) < (r + 1) * (r + 1) * m' := (Nat.div_lt_iff_lt_mul hm').mp hhigh
  rw [hrsqrt]
  refine Fmt.rounds_roundMag hf mode false (lt_of_lt_of_le (Nat.two_pow_pos _) hdigits) ?_ fun _ => Fmt.lt_last hdigits _
  refine brackets_of_strictMonoOn (strictMonoOn_sq_mul hvpos) (fun h => ?_) (fun h => ?_) (fun h => ?_)
  · have heq : r * r * m' = 2 ^ (2 * k) := by simpa using h
    rw [hone, heq, div_self hpow.ne']
  · have hne : r * r * m' ≠ 2 ^ (2 * k) := by simpa using h
    rw [hone, div_lt_one hpow]
    exact_mod_cast lt_of_le_of_ne hlow' hne
  · rw [hone, one_lt_div hpow]
    exact_mod_cast hhigh'

/-! ### Operations (R76, R124) -/

/-- The quotient of two values. -/
theorem Fmt.divides_divVal {f : Fmt} (hf : f.Standard) (mode : Rounding) (a b : FVal) :
    Exact.Divides f mode a.term b.term (f.divVal mode a b) := by
  cases a with
  | nan => cases b <;> rfl
  | inf s => cases b <;> rfl
  | fin s m e =>
    cases b with
    | nan => rfl
    | inf t => rfl
    | fin t n g =>
      show (if signedMag t n g = 0 then (if signedMag s m e = 0 then _ else _) else _)
      simp only [signedMag_eq_zero, Fmt.divVal]
      by_cases hn : n = 0
      · rw [if_pos hn, if_pos hn]
        split <;> rfl
      · have hzero : signedMag s m e / signedMag t n g = 0 ↔ m = 0 := by
          rw [div_eq_zero_iff, or_iff_left (mt signedMag_eq_zero.mp hn), signedMag_eq_zero]
        rw [if_neg hn, if_neg hn, Exact.RoundsTo]
        by_cases hm : m = 0
        · rw [if_pos hm, if_pos (hzero.mpr hm)]
        · have hsign : decide (signedMag s m e / signedMag t n g < 0) = (s != t) := by
            rw [Bool.eq_iff_iff, decide_eq_true_eq, div_neg_iff, signedMag_pos_iff hm, signedMag_pos_iff hn,
              signedMag_neg_iff hm, signedMag_neg_iff hn]
            cases s <;> cases t <;> decide
          rw [if_neg hm, if_neg (mt hzero.mp hm), hsign, abs_div, abs_signedMag, abs_signedMag]
          exact Fmt.rounds_quotient hf mode (s != t) (Nat.pos_of_ne_zero hm) (Nat.pos_of_ne_zero hn) e g

/-- The square root of a value. -/
theorem Fmt.roots_sqrtVal {f : Fmt} (hf : f.Standard) (mode : Rounding) (a : FVal) :
    Exact.Roots f mode a.term (f.sqrtVal mode a) := by
  cases a with
  | nan => rfl
  | inf s => cases s <;> rfl
  | fin s m e =>
    show (if signedMag s m e = 0 then _ else if signedMag s m e < 0 then _ else _)
    rw [Fmt.sqrtVal]
    by_cases hm : m = 0
    · rw [if_pos (signedMag_eq_zero.mpr hm), if_pos hm]
    · have hs : signedMag s m e < 0 ↔ s = true := signedMag_neg_iff hm
      rw [if_neg (mt signedMag_eq_zero.mp hm), if_neg hm]
      cases s with
      | true => rw [if_pos (hs.mpr rfl), if_pos rfl]
      | false =>
        rw [if_neg (mt hs.mp (by decide)), if_neg (by decide)]
        exact Fmt.rounds_sqrt hf mode (Nat.pos_of_ne_zero hm) e

/-- The reciprocal square root of a value. -/
def Fmt.rsqrtVal (f : Fmt) (mode : Rounding) : FVal → Nat
  | .nan | .inf true => f.defaultNaN
  | .inf false => 0
  | .fin s m e => if m = 0 then f.sign s + f.infinity else if s then f.defaultNaN else f.rsqrtMag mode m e

theorem Fmt.rsqrt_eq (f : Fmt) (mode : Rounding) (a : Nat) : f.rsqrt mode a = f.nanFirst [a] (f.rsqrtVal mode (f.value a)) := by
  unfold Fmt.rsqrt Fmt.rsqrtVal
  rfl

theorem Fmt.inverseRoots_rsqrtVal {f : Fmt} (hf : f.Standard) (mode : Rounding) (a : FVal) :
    Exact.InverseRoots f mode a.term (f.rsqrtVal mode a) := by
  cases a with
  | nan => rfl
  | inf s => cases s <;> rfl
  | fin s m e =>
    show (if signedMag s m e = 0 then _ else if signedMag s m e < 0 then _ else _)
    rw [Fmt.rsqrtVal]
    by_cases hm : m = 0
    · rw [if_pos (signedMag_eq_zero.mpr hm), if_pos hm]
    · have hs : signedMag s m e < 0 ↔ s = true := signedMag_neg_iff hm
      rw [if_neg (mt signedMag_eq_zero.mp hm), if_neg hm]
      cases s with
      | true => rw [if_pos (hs.mpr rfl), if_pos rfl]
      | false =>
        rw [if_neg (mt hs.mp (by decide)), if_neg (by decide)]
        exact Fmt.rounds_rsqrt hf mode (Nat.pos_of_ne_zero hm) e

end Sys2Proof.Machine
end

section
/-!
SUPPORT. Roundings to an integer, and the operations whose results the spec gives at exact points: RINT, EXP2, LOG2, SIN and COS
(R76, R77, R124).
-/
namespace Sys2Proof.Machine

/-! ### The parts of a value -/

/-- What a pattern encodes: a NaN, an infinity, or a number whose mantissa fits the fraction and the hidden bit. -/
theorem Fmt.value_cases {f : Fmt} (hf : f.Standard) (x : Nat) :
    (f.isNaN x = true ∧ f.value x = .nan) ∨ (f.magnitude x = f.infinity ∧ f.value x = .inf (f.negative x)) ∨
    ∃ m e, f.value x = .fin (f.negative x) m e ∧ m < 2 ^ (f.frac + 1) ∧ e + f.frac ≤ f.bias ∧
      (m = 0 ↔ f.magnitude x = 0) ∧ f.magnitude x < f.infinity := by
  have hpos : 0 < 2 ^ f.frac := Nat.two_pow_pos _
  have hfraction : x % 2 ^ f.frac < 2 ^ f.frac := Nat.mod_lt _ hpos
  have hmag := f.magnitude_eq x
  have hemax := f.emax_eq hf
  have hinf : f.infinity = 2 ^ f.frac * f.emax := Nat.mul_comm ..
  have hfield : f.magnitude x / 2 ^ f.frac ≤ f.emax := by
    have hlt : f.magnitude x < 2 ^ (f.frac + f.exp) := Nat.mod_lt _ (Nat.two_pow_pos _)
    rw [pow_add] at hlt
    have := Nat.div_lt_of_lt_mul hlt
    rw [Fmt.emax]
    omega
  unfold Fmt.value
  dsimp only
  generalize f.magnitude x / 2 ^ f.frac = e at *
  generalize x % 2 ^ f.frac = m at *
  by_cases htop : e = f.emax
  · have hmag' : f.magnitude x = f.infinity + m := by rw [hmag, htop, hinf]
    rw [if_pos htop]
    by_cases hm0 : m = 0
    · rw [if_pos hm0]
      exact .inr (.inl ⟨by omega, rfl⟩)
    · rw [if_neg hm0]
      exact .inl ⟨decide_eq_true (by omega), rfl⟩
  · have hbelow : f.magnitude x < f.infinity := by
      have : 2 ^ f.frac * (e + 1) ≤ 2 ^ f.frac * f.emax := Nat.mul_le_mul_left _ (by omega)
      rw [Nat.mul_add, Nat.mul_one] at this
      omega
    rw [if_neg htop, pow_succ]
    refine .inr (.inr ?_)
    by_cases hlow : e = 0
    · rw [if_pos hlow]
      have hsmall : f.magnitude x = m := by rw [hmag, hlow]; omega
      exact ⟨m, _, rfl, by omega, by have := hf.frac_lt; omega, by rw [hsmall], hbelow⟩
    · rw [if_neg hlow]
      have hbig : 2 ^ f.frac * 1 ≤ 2 ^ f.frac * e := Nat.mul_le_mul_left _ (by omega)
      exact ⟨2 ^ f.frac + m, _, rfl, by omega, by omega, by omega, hbelow⟩

/-! ### Rounding to an integer (R77, R124) -/

/-- A fraction against one half, by its numerator. -/
theorem half_lt_div_iff {r k : Nat} : (1 / 2 : ℚ) < r / 2 ^ k ↔ 2 ^ k < 2 * r := by
  rw [div_lt_div_iff₀ two_pos (by positivity), one_mul, mul_comm]
  exact_mod_cast Iff.rfl

theorem div_lt_half_iff {r k : Nat} : (r / 2 ^ k : ℚ) < 1 / 2 ↔ 2 * r < 2 ^ k := by
  rw [div_lt_div_iff₀ (by positivity) two_pos, one_mul, mul_comm]
  exact_mod_cast Iff.rfl

/-- The integer that a magnitude is rounded to, with its sign. -/
def signedNat (neg : Bool) (n : Nat) : Int := if neg then -(n : Int) else n

/-- An integer is what it is rounded to. -/
theorem roundInt_intCast (mode : Rounding) (k : Int) : Exact.roundInt mode (k : ℚ) = k := by
  cases mode <;> simp [Exact.roundInt]

/-- A magnitude n + r / 2^k rounded to an integer, its sign apart. -/
theorem roundInt_add_div {mode : Rounding} {neg : Bool} {n r k : Nat} (hr : r < 2 ^ k) {v : ℚ}
    (hv : v = if neg then -((n : ℚ) + r / 2 ^ k) else (n : ℚ) + r / 2 ^ k) :
    Exact.roundInt mode v = signedNat neg (if roundsUp mode neg (n % 2 == 1) r k false then n + 1 else n) := by
  have hpow : (0 : ℚ) < 2 ^ k := by positivity
  rcases Nat.eq_zero_or_pos r with rfl | hpos
  · have hint : v = (signedNat neg n : Int) := by rw [hv, signedNat]; cases neg <;> simp
    have hup : roundsUp mode neg (n % 2 == 1) 0 k false = false := by
      have hne : 0 ≠ 2 ^ k := (Nat.two_pow_pos _).ne
      cases mode <;> simp [roundsUp, hne]
    rw [hint, roundInt_intCast, hup, if_neg (by decide)]
  · have h0 : (0 : ℚ) < r / 2 ^ k := div_pos (by exact_mod_cast hpos) hpow
    have h1 : (r : ℚ) / 2 ^ k < 1 := (div_lt_one hpow).mpr (by exact_mod_cast hr)
    have hhalf := half_lt_div_iff (r := r) (k := k)
    have hhalf' := div_lt_half_iff (r := r) (k := k)
    have hn : (0 : ℚ) ≤ n := Nat.cast_nonneg n
    set d : ℚ := r / 2 ^ k
    cases neg with
    | false =>
      rw [if_neg (by decide)] at hv
      have hfloor : ⌊v⌋ = n := Int.floor_eq_iff.mpr ⟨by push_cast; linarith, by push_cast; linarith⟩
      have hceil : ⌈v⌉ = n + 1 := Int.ceil_eq_iff.mpr ⟨by push_cast; linarith, by push_cast; linarith⟩
      have hdiff : v - (n : Int) = d := by push_cast; linarith
      cases mode with
      | rz => simp [Exact.roundInt, hfloor, show ¬ v < 0 by linarith, roundsUp, signedNat]
      | rp => simp [Exact.roundInt, hceil, roundsUp, signedNat, hpos.ne']
      | rm => simp [Exact.roundInt, hfloor, roundsUp, signedNat]
      | rn =>
        simp only [Exact.roundInt, hfloor, hdiff, hhalf, hhalf', roundsUp, signedNat]
        rcases Nat.lt_trichotomy (2 * r) (2 ^ k) with h | h | h
        · simp [h, h.not_gt, h.ne]
        · rcases Nat.mod_two_eq_zero_or_one n with hn | hn <;> simp [h, hn] <;> omega
        · simp [h, h.not_gt]
    | true =>
      rw [if_pos rfl] at hv
      have hfloor : ⌊v⌋ = -(n : Int) - 1 := Int.floor_eq_iff.mpr ⟨by push_cast; linarith, by push_cast; linarith⟩
      have hceil : ⌈v⌉ = -(n : Int) := Int.ceil_eq_iff.mpr ⟨by push_cast; linarith, by push_cast; linarith⟩
      have hdiff : v - (-(n : Int) - 1 : Int) = 1 - d := by push_cast; linarith
      have hlt : (1 - d < 1 / 2) ↔ 2 ^ k < 2 * r := by rw [← hhalf]; constructor <;> intro h <;> linarith
      have hgt : (1 / 2 < 1 - d) ↔ 2 * r < 2 ^ k := by rw [← hhalf']; constructor <;> intro h <;> linarith
      cases mode with
      | rz => simp [Exact.roundInt, hceil, show v < 0 by linarith, roundsUp, signedNat]
      | rp => simp [Exact.roundInt, hceil, roundsUp, signedNat]
      | rm => simp [Exact.roundInt, hfloor, roundsUp, signedNat, hpos.ne']; omega
      | rn =>
        simp only [Exact.roundInt, hfloor, hdiff, hlt, hgt, roundsUp, signedNat]
        rcases Nat.lt_trichotomy (2 * r) (2 ^ k) with h | h | h
        · simp [h, h.not_gt, h.ne]
        · rcases Nat.mod_two_eq_zero_or_one n with hn | hn <;> simp [h, hn] <;> omega
        · simp [h]; omega

/-- The integer that the model rounds a value to is the one of R77. -/
theorem roundInt_signedMag (mode : Rounding) (neg : Bool) (m : Nat) (e : Int) :
    Exact.roundInt mode (signedMag neg m e) = signedNat neg (roundNat mode neg m e) := by
  unfold roundNat
  split
  · have hint : signedMag neg m e = ((signedNat neg (m * 2 ^ e.toNat) : Int) : ℚ) := by
      have hplace : (2 : ℚ) ^ e = 2 ^ e.toNat := by rw [← zpow_natCast, Int.toNat_of_nonneg ‹0 ≤ e›]
      rw [signedMag, signedNat, hplace]
      cases neg <;> simp
    rw [hint, roundInt_intCast]
  · refine roundInt_add_div (Nat.mod_lt _ (Nat.two_pow_pos _)) ?_
    have hplace : (2 : ℚ) ^ e = 1 / 2 ^ (-e).toNat := by
      rw [one_div, ← zpow_natCast, ← zpow_neg, Int.toNat_of_nonneg (by omega), neg_neg]
    have hdivmod : (m : ℚ) = (m / 2 ^ (-e).toNat : Nat) * 2 ^ (-e).toNat + (m % 2 ^ (-e).toNat : Nat) := by
      exact_mod_cast (Nat.div_add_mod' m (2 ^ (-e).toNat)).symm
    have hpow : (2 : ℚ) ^ (-e).toNat ≠ 0 := by positivity
    have hsum : (m : ℚ) * 2 ^ e = (m / 2 ^ (-e).toNat : Nat) + (m % 2 ^ (-e).toNat : Nat) / 2 ^ (-e).toNat := by
      rw [hplace]
      nth_rw 1 [hdivmod]
      field_simp
    rw [signedMag, hsum]

/-- Digits below the last place that are all zero round nothing up. -/
theorem Fmt.up_of_exact {f : Fmt} (mode : Rounding) (neg : Bool) {m : Nat} {e : Int} (h : (f.split m e).2.1 = 0) :
    f.up mode neg m e false = false := by
  have hne : 0 ≠ 2 ^ (f.split m e).2.2 := (Nat.two_pow_pos _).ne
  unfold Fmt.up roundsUp
  rw [h]
  cases mode <;> simp [hne]

/-- A magnitude without digits below the last place, within the range, is its own rounding in every mode. -/
theorem Fmt.roundMag_of_exact {f : Fmt} (mode : Rounding) (neg : Bool) {m : Nat} {e : Int} (h : (f.split m e).2.1 = 0)
    (hrange : f.kept m e < f.infinity) : f.roundMag mode neg m e = f.sign neg + f.kept m e := by
  rw [Fmt.roundMag_eq, Fmt.rounded_eq, Fmt.up_of_exact mode neg h, if_neg Bool.false_ne_true, if_neg (not_le.mpr hrange)]

theorem Fmt.infinity_eq {f : Fmt} (hf : f.Standard) : f.infinity = (2 * f.bias + 1) * 2 ^ f.frac := by
  rw [Fmt.infinity, f.emax_eq hf]

theorem bitLen_mul_two_pow {m : Nat} (hm : 0 < m) (k : Nat) : bitLen (m * 2 ^ k) = bitLen m + k := by
  have hpos : m * 2 ^ k ≠ 0 := (Nat.mul_pos hm (Nat.two_pow_pos k)).ne'
  have hlog : (m * 2 ^ k).log2 = m.log2 + k := by
    refine (Nat.log2_eq_iff hpos).mpr ⟨?_, ?_⟩
    · rw [pow_add]
      exact Nat.mul_le_mul_right _ (Nat.log2_self_le hm.ne')
    · rw [Nat.add_right_comm, pow_add]
      exact Nat.mul_lt_mul_of_pos_right Nat.lt_log2_self (Nat.two_pow_pos k)
  rw [bitLen, bitLen, if_neg hpos, if_neg hm.ne', hlog, Nat.add_right_comm]

theorem bitLen_le {m k : Nat} (h : m < 2 ^ k) : bitLen m ≤ k := by
  rcases Nat.eq_zero_or_pos m with rfl | hm
  · exact Nat.zero_le k
  · have hlen := bitLen_pos hm
    have hlt : 2 ^ (bitLen m - 1) < 2 ^ k := lt_of_le_of_lt (two_pow_bitLen_le hm) h
    have := (Nat.pow_lt_pow_iff_right (by decide : 1 < 2)).mp hlt
    omega

/-- Below the infinity lie the patterns whose exponent is within the range. -/
theorem Fmt.kept_lt_infinity {f : Fmt} (hf : f.Standard) {m : Nat} (hm : 0 < m) {e : Int} (h : f.above m e + 2 ≤ 2 * f.bias + 1) :
    f.kept m e < f.infinity := by
  have hdigits := (f.split_bounds hm e).1
  have hle : (f.above m e + 2) * 2 ^ f.frac ≤ (2 * f.bias + 1) * 2 ^ f.frac := Nat.mul_le_mul_right _ h
  rw [Nat.add_mul] at hle
  rw [pow_succ'] at hdigits
  rw [f.infinity_eq hf, Fmt.kept]
  omega

/-- An integer whose digits fit the fraction and the hidden bit is its own rounding in every mode. -/
theorem Fmt.roundMag_integer {f : Fmt} (hf : f.Standard) (mode : Rounding) (neg : Bool) {m k : Nat} (hm : 0 < m)
    (hdigits : m < 2 ^ (f.frac + 1)) (hk : k + f.frac ≤ f.bias) :
    f.roundMag mode neg (m * 2 ^ k) 0 = f.sign neg + f.kept (m * 2 ^ k) 0 := by
  have hpos : 0 < m * 2 ^ k := Nat.mul_pos hm (Nat.two_pow_pos k)
  have hlen := bitLen_mul_two_pow hm k
  have hle := bitLen_le hdigits
  have hpos' := bitLen_pos hm
  have hbias := hf.frac_lt
  have hlead : f.lead (m * 2 ^ k) 0 = bitLen m + k - 1 := by
    rw [Fmt.lead, hlen, if_neg (by push_cast; omega)]
    push_cast
    ring
  refine Fmt.roundMag_of_exact mode neg ?_ (Fmt.kept_lt_infinity hf hpos (by rw [Fmt.above, hlead]; omega))
  rcases le_or_gt (f.last (m * 2 ^ k) 0) 0 with h | h
  · rw [f.split_of_le _ _ h]
  · rw [f.split_eq _ _ h]
    have hshift : (f.last (m * 2 ^ k) 0 - 0).toNat ≤ k := by rw [Fmt.last, hlead]; omega
    exact Nat.mod_eq_zero_of_dvd ((Nat.pow_dvd_pow 2 hshift).mul_left m)

/-- The integer that a value of a format is rounded to has no more digits than the format. -/
theorem Fmt.roundNat_digits {f : Fmt} (hf : f.Standard) (mode : Rounding) (neg : Bool) {m : Nat} {e : Int} (hm : m < 2 ^ (f.frac + 1))
    (he : e + f.frac ≤ f.bias) : ∃ n k, roundNat mode neg m e = n * 2 ^ k ∧ n < 2 ^ (f.frac + 1) ∧ k + f.frac ≤ f.bias := by
  have hbias := hf.frac_lt
  unfold roundNat
  split
  · exact ⟨m, e.toNat, rfl, hm, by omega⟩
  · have hhalf : m / 2 ^ (-e).toNat ≤ m / 2 := by
      refine Nat.div_le_div_left ?_ two_pos
      calc 2 = 2 ^ 1 := rfl
        _ ≤ 2 ^ (-e).toNat := Nat.pow_le_pow_right two_pos (by omega)
    have hfrac : 0 < 2 ^ f.frac := Nat.two_pow_pos _
    rw [pow_succ] at hm ⊢
    refine ⟨_, 0, (Nat.mul_one _).symm, ?_, by omega⟩
    have hpos := hf.frac_pos
    have htwo : 2 ≤ 2 ^ f.frac := by
      calc 2 = 2 ^ 1 := rfl
        _ ≤ 2 ^ f.frac := Nat.pow_le_pow_right two_pos (by omega)
    dsimp only
    split <;> omega

theorem signedNat_cast (neg : Bool) (n : Nat) : ((signedNat neg n : Int) : ℚ) = signedMag neg n 0 := by
  cases neg <;> simp [signedNat, signedMag]

/-- RINT gives the integral value nearest its operand (R124). -/
theorem Fmt.realOp_rint {f : Fmt} (hf : f.Standard) (mode : Rounding) (x : Nat) :
    Exact.RealOp f [x] (Exact.Integral f mode x) (f.rint mode x) := by
  refine f.realOp_nanFirst fun hnan => ?_
  unfold Exact.Integral
  rw [← f.term_value]
  rcases f.value_cases hf x with ⟨hx, -⟩ | ⟨-, hx⟩ | ⟨m, e, hx, hm, he, -⟩
  · rw [hnan x (by simp)] at hx
    cases hx
  · rw [hx]
    rfl
  · rw [hx]
    show Exact.RoundsTo f .rn (f.negative x) (Exact.roundInt mode (signedMag (f.negative x) m e) : Int)
      (if roundNat mode (f.negative x) m e = 0 then f.sign (f.negative x)
        else f.roundMag mode (f.negative x) (roundNat mode (f.negative x) m e) 0)
    rw [roundInt_signedMag, signedNat_cast]
    have hround := f.roundsTerm_round hf .rn (.fin (f.negative x) (roundNat mode (f.negative x) m e) 0)
    obtain ⟨n, k, hn, hdigits, hk⟩ := f.roundNat_digits hf mode (f.negative x) hm he
    have hsame : f.round .rn (.fin (f.negative x) (roundNat mode (f.negative x) m e) 0) =
        if roundNat mode (f.negative x) m e = 0 then f.sign (f.negative x)
          else f.roundMag mode (f.negative x) (roundNat mode (f.negative x) m e) 0 := by
      rw [Fmt.round]
      split
      · rfl
      · have hpos : 0 < n := by
          rw [hn] at *
          exact Nat.pos_of_ne_zero fun h => by simp_all
        rw [hn, f.roundMag_integer hf _ _ hpos hdigits hk, f.roundMag_integer hf _ _ hpos hdigits hk]
    rw [← hsame]
    exact hround

/-- An integer converted to a float (R77). -/
theorem Fmt.roundsTo_integer {f : Fmt} (hf : f.Standard) (mode : Rounding) (k : Int) :
    Exact.RoundsTo f mode false k (f.round mode (.fin (decide (k < 0)) k.natAbs 0)) := by
  have hvalue : signedMag (decide (k < 0)) k.natAbs 0 = k := by
    rw [signedMag, zpow_zero, mul_one]
    rcases lt_or_ge k 0 with h | h
    · rw [decide_eq_true h, if_pos rfl, Nat.cast_natAbs, abs_of_neg h, Int.cast_neg, neg_neg]
    · rw [decide_eq_false (not_lt.mpr h), if_neg (by decide), Nat.cast_natAbs, abs_of_nonneg h]
  have hround : Exact.RoundsTo f mode (decide (k < 0)) (signedMag (decide (k < 0)) k.natAbs 0)
      (f.round mode (.fin (decide (k < 0)) k.natAbs 0)) := f.roundsTerm_round hf mode (.fin (decide (k < 0)) k.natAbs 0)
  rw [hvalue] at hround
  rcases eq_or_ne k 0 with rfl | hk
  · exact hround
  · have hne : (k : ℚ) ≠ 0 := by exact_mod_cast hk
    rw [Exact.RoundsTo, if_neg hne] at hround ⊢
    exact hround

/-! ### Powers of two and their logarithms (R76) -/

/-- The pattern of a power of two of the normal range, its exponent unbounded. -/
theorem Fmt.kept_one {f : Fmt} {k : Int} (hk : 1 - (f.bias : Int) ≤ k) :
    f.kept 1 k = (k + f.bias).toNat * 2 ^ f.frac ∧ (f.split 1 k).2.1 = 0 := by
  have hlead : f.lead 1 k = k := by
    rw [Fmt.lead, show bitLen 1 = 1 from rfl, if_neg (by push_cast; omega)]
    push_cast
    ring
  have hlast : f.last 1 k ≤ k := by rw [Fmt.last, hlead]; omega
  rw [Fmt.kept, f.split_of_le 1 k hlast]
  refine ⟨?_, rfl⟩
  have hshift : (k - f.last 1 k).toNat = f.frac := by rw [Fmt.last, hlead]; omega
  have habove : f.above 1 k + 1 = (k + f.bias).toNat := by rw [Fmt.above, hlead]; omega
  rw [hshift, Nat.one_mul, ← habove, Nat.add_mul, Nat.one_mul]

/-- A power of two beyond the range rounds to infinity. -/
theorem Fmt.roundMag_one_large {f : Fmt} (hf : f.Standard) {k : Int} (hk : (f.bias : Int) + 1 ≤ k) :
    f.roundMag .rn false 1 k = f.infinity := by
  obtain ⟨hkept, hexact⟩ := f.kept_one (k := k) (by omega)
  have hge : f.infinity ≤ f.kept 1 k := by
    rw [hkept, f.infinity_eq hf]
    exact Nat.mul_le_mul_right _ (by omega)
  rw [Fmt.roundMag_eq, Fmt.rounded_eq, Fmt.up_of_exact .rn false hexact, if_neg Bool.false_ne_true, if_pos hge]
  simp [Fmt.overflow, Fmt.sign]

/-- A power of two far below the smallest number rounds to zero. -/
theorem Fmt.roundMag_one_small {f : Fmt} (hf : f.Standard) {k : Int} (hk : k < -((f.bias : Int) + f.frac + 4)) : f.roundMag .rn false 1 k = 0 := by
  have hlead : f.lead 1 k = 1 - (f.bias : Int) := by
    rw [Fmt.lead, show bitLen 1 = 1 from rfl, if_pos (by push_cast; omega)]
  have hlast : k + 2 ≤ f.last 1 k := by rw [Fmt.last, hlead]; omega
  have hshift : 4 ≤ 2 ^ (f.last 1 k - k).toNat := by
    calc 4 = 2 ^ 2 := rfl
      _ ≤ 2 ^ (f.last 1 k - k).toNat := Nat.pow_le_pow_right two_pos (by omega)
  have hsplit : f.split 1 k = (0, 1, (f.last 1 k - k).toNat) := by
    rw [f.split_eq 1 k (by omega), Nat.div_eq_of_lt (by omega), Nat.mod_eq_of_lt (by omega)]
  have hkept : f.kept 1 k = 0 := by rw [Fmt.kept, Fmt.above, hlead, hsplit]; simp
  have hup : f.up .rn false 1 k false = false := by
    unfold Fmt.up roundsUp
    rw [hsplit]
    have h1 : ¬2 ^ (f.last 1 k - k).toNat < 2 * 1 := by omega
    have h2 : 2 * 1 ≠ 2 ^ (f.last 1 k - k).toNat := by omega
    simp only [h1, decide_false, Bool.false_or, Bool.and_eq_false_iff]
    exact .inl (by simpa using h2)
  have hinf : ¬f.infinity ≤ 0 := by
    rw [f.infinity_eq hf, not_le]
    exact Nat.mul_pos (by omega) (Nat.two_pow_pos _)
  rw [Fmt.roundMag_eq, Fmt.rounded_eq, hup, if_neg Bool.false_ne_true, hkept, if_neg hinf]
  rfl

/-- The pattern of 1 is its rounding. -/
theorem Fmt.roundMag_one_zero {f : Fmt} (hf : f.Standard) : f.roundMag .rn false 1 0 = f.bias * 2 ^ f.frac := by
  have hbias := hf.frac_lt
  obtain ⟨hkept, hexact⟩ := f.kept_one (k := 0) (by omega)
  have hlt : f.kept 1 0 < f.infinity := by
    rw [hkept, f.infinity_eq hf]
    exact Nat.mul_lt_mul_of_pos_right (by omega) (Nat.two_pow_pos _)
  rw [Fmt.roundMag_of_exact .rn false hexact hlt, hkept]
  simp [Fmt.sign]

/-- A value that is an integer, in fixed point without fraction bits; the test of EXP2 tells it. -/
theorem fixed_of_integer {neg : Bool} {m : Nat} {e k : Int} (h : signedMag neg m e = k) :
    fixed 0 neg m e = k ∧ k * 2 ^ (-e).toNat = (if neg then -(m : Int) else m) * 2 ^ e.toNat := by
  have hsigned : signedMag neg m e = ((if neg then -(m : Int) else m : Int) : ℚ) * 2 ^ e := by cases neg <;> simp [signedMag]
  set v : Int := if neg then -(m : Int) else m
  rw [hsigned] at h
  rcases le_or_gt 0 e with he | he
  · have hplace : (2 : ℚ) ^ e = 2 ^ e.toNat := by rw [← zpow_natCast, Int.toNat_of_nonneg he]
    have hk : v * 2 ^ e.toNat = k := by
      rw [hplace] at h
      exact_mod_cast h
    rw [show (-e).toNat = 0 by omega, pow_zero, mul_one]
    refine ⟨?_, hk.symm⟩
    rw [← hk, fixed]
    simp only [Nat.cast_zero, add_zero, if_pos he]
    rfl
  · have hplace : (2 : ℚ) ^ e = 1 / 2 ^ (-e).toNat := by
      rw [one_div, ← zpow_natCast, ← zpow_neg, Int.toNat_of_nonneg (by omega), neg_neg]
    have hk : v = k * 2 ^ (-e).toNat := by
      rw [hplace, mul_one_div, div_eq_iff (by positivity)] at h
      exact_mod_cast h
    rw [show e.toNat = 0 by omega, pow_zero, mul_one]
    refine ⟨?_, hk.symm⟩
    rw [fixed]
    simp only [Nat.cast_zero, add_zero, if_neg (not_le.mpr he)]
    rw [show (if neg then -(m : Int) else m) = v from rfl, hk]
    exact Int.mul_ediv_cancel _ (by positivity)

/-- EXP2 of an integer is that power of two, rounded. -/
theorem exp2Elem_of_integer {f : Fmt} (hf : f.Standard) {x m : Nat} {neg : Bool} {e k : Int} (hnan : f.isNaN x = false)
    (hx : f.value x = .fin neg m e) (h : signedMag neg m e = k) : exp2Elem f x = f.roundMag .rn false 1 k := by
  obtain ⟨hfixed, htest⟩ := fixed_of_integer h
  have hbody : exp2Elem f x =
      if m = 0 then f.bias * 2 ^ f.frac
      else if (f.bias : Int) + 1 ≤ fixed 0 neg m e then f.infinity
      else if fixed 0 neg m e < -((f.bias : Int) + f.frac + 4) then 0
      else if fixed 0 neg m e * 2 ^ (-e).toNat = (if neg then -(m : Int) else m) * 2 ^ e.toNat then
        f.roundMag .rn false 1 (fixed 0 neg m e)
      else refine f (exp2At neg m e) (Config.transcendental 0 f.frac x) precisions := by
    simp [exp2Elem, Fmt.nanFirst, hnan, hx]
  rw [hbody, hfixed, if_pos htest]
  by_cases hm : m = 0
  · have hk : k = 0 := by
      rw [hm, signedMag_eq_zero.mpr rfl] at h
      exact_mod_cast h.symm
    rw [if_pos hm, hk, f.roundMag_one_zero hf]
  · rw [if_neg hm]
    split
    · exact (f.roundMag_one_large hf ‹_›).symm
    · split
      · exact (f.roundMag_one_small hf ‹_›).symm
      · rfl

/-! ### Operands at which a result is exact -/

theorem Fmt.magnitude_of_lt {f : Fmt} {x : Nat} (h : x < 2 ^ (f.frac + f.exp)) : f.magnitude x = x ∧ f.negative x = false := by
  rw [Fmt.magnitude, Fmt.negative, Nat.mod_eq_of_lt h, Nat.div_eq_of_lt h]
  exact ⟨rfl, rfl⟩

theorem Fmt.magnitude_of_ge {f : Fmt} {x : Nat} (h : 2 ^ (f.frac + f.exp) ≤ x) (hx : x < 2 ^ f.bits) :
    f.magnitude x = x - 2 ^ (f.frac + f.exp) ∧ f.negative x = true := by
  rw [Fmt.bits, pow_succ] at hx
  have hdiv : x / 2 ^ (f.frac + f.exp) = 1 := Nat.div_eq_of_lt_le (by omega) (by omega)
  rw [Fmt.magnitude, Fmt.negative, hdiv, Nat.mod_eq_sub_div_mul, hdiv, Nat.one_mul]
  exact ⟨rfl, rfl⟩

theorem Fmt.value_of_infinite {f : Fmt} (hf : f.Standard) {x : Nat} (h : f.magnitude x = f.infinity) :
    f.value x = .inf (f.negative x) := by
  rcases f.value_cases hf x with ⟨hx, -⟩ | ⟨-, hx⟩ | ⟨m, e, -, -, -, -, hx⟩
  · rw [Fmt.isNaN, h, decide_eq_true_eq] at hx
    omega
  · exact hx
  · omega

theorem Fmt.value_of_zero {f : Fmt} (hf : f.Standard) {x : Nat} (h : f.magnitude x = 0) :
    ∃ e, f.value x = .fin (f.negative x) 0 e := by
  have hinf : 0 < f.infinity := by
    rw [f.infinity_eq hf]
    exact Nat.mul_pos (by omega) (Nat.two_pow_pos _)
  rcases f.value_cases hf x with ⟨hx, -⟩ | ⟨hx, -⟩ | ⟨m, e, hx, -, -, hm, -⟩
  · rw [Fmt.isNaN, h, decide_eq_true_eq] at hx
    omega
  · omega
  · exact ⟨e, by rw [hx, hm.mpr h]⟩

/-- A pattern that is a number encodes it with a mantissa and an exponent. -/
theorem Fmt.value_of_term {f : Fmt} {x : Nat} {neg : Bool} {v : ℚ} (h : Exact.term f x = .num neg v) :
    ∃ m e, f.value x = .fin neg m e ∧ signedMag neg m e = v := by
  rw [← f.term_value] at h
  cases hx : f.value x with
  | nan => rw [hx] at h; cases h
  | inf s => rw [hx] at h; cases h
  | fin s m e =>
    rw [hx, FVal.term, Exact.Term.num.injEq] at h
    obtain ⟨rfl, hv⟩ := h
    exact ⟨m, e, rfl, hv⟩

/-- An operation that passes on its first NaN, told by what it gives where no operand is a NaN. -/
theorem Fmt.realOp_of_nanFirst {f : Fmt} {xs : List Nat} {r g : Nat} {P : Nat → Prop} (hr : r = f.nanFirst xs g)
    (h : (∀ x ∈ xs, f.isNaN x = false) → r = g → P r) : Exact.RealOp f xs P r := by
  rw [hr]
  refine f.realOp_nanFirst fun hnan => ?_
  have hnone : xs.find? f.isNaN = none := List.find?_eq_none.mpr fun x hx => by simp [hnan x hx]
  have hg : f.nanFirst xs g = g := by rw [Fmt.nanFirst, hnone]
  have hP := h hnan (hr.trans hg)
  rwa [hr.trans hg] at hP

/-- EXP2 at the infinities and at the integers (R76). -/
theorem realOp_exp2Elem {f : Fmt} (hf : f.Standard) (x : Nat) : Exact.RealOp f [x] (fun r =>
    (x = f.infinity → r = f.infinity) ∧ (x = 2 ^ (f.frac + f.exp) + f.infinity → r = 0) ∧
    ∀ (neg : Bool) (k : Int), Exact.term f x = .num neg k → Exact.RoundsTo f .rn false (2 ^ k) r) (exp2Elem f x) := by
  have hlt := f.infinity_lt
  refine Fmt.realOp_of_nanFirst rfl fun hnan hbody => ⟨fun hx => ?_, fun hx => ?_, fun neg k hx => ?_⟩
  · obtain ⟨hmag, hneg⟩ := f.magnitude_of_lt (x := x) (by omega)
    rw [hbody, Fmt.value_of_infinite hf (by omega), hneg]
    rfl
  · obtain ⟨hmag, hneg⟩ := f.magnitude_of_ge (x := x) (by omega) (by rw [Fmt.bits, pow_succ]; omega)
    rw [hbody, Fmt.value_of_infinite hf (by omega), hneg]
    rfl
  · obtain ⟨m, e, hvalue, hk⟩ := Fmt.value_of_term hx
    have hpos : (0 : ℚ) < 2 ^ k := zpow_pos two_pos k
    rw [exp2Elem_of_integer hf (hnan x (by simp)) hvalue hk, Exact.RoundsTo, if_neg hpos.ne', decide_eq_false hpos.le.not_gt,
      abs_of_pos hpos]
    simpa using Fmt.rounds_exact hf .rn false Nat.one_pos k

theorem bitLen_two_pow (k : Nat) : bitLen (2 ^ k) = k + 1 := by
  rw [← Nat.one_mul (2 ^ k), bitLen_mul_two_pow Nat.one_pos, Nat.add_comm]
  rfl

/-- A positive value that is a power of two has a power of two as its mantissa. -/
theorem mantissa_of_power {m : Nat} {e k : Int} (h : signedMag false m e = 2 ^ k) :
    m = 2 ^ (bitLen m - 1) ∧ e + bitLen m - 1 = k := by
  have hm : (m : ℚ) = 2 ^ (k - e) := by
    rw [zpow_sub₀ two_ne_zero, eq_div_iff (by positivity)]
    exact h
  have hle : e ≤ k := by
    by_contra hgt
    have hone : (1 : ℚ) ≤ m := by
      have hne : m ≠ 0 := fun h0 => by
        rw [h0, Nat.cast_zero] at hm
        exact (zpow_pos (two_pos : (0 : ℚ) < 2) (k - e)).ne hm
      exact_mod_cast Nat.one_le_iff_ne_zero.mpr hne
    have hlt : (2 : ℚ) ^ (k - e) < 1 := zpow_lt_one_of_neg₀ one_lt_two (by omega)
    linarith
  have hnat : m = 2 ^ (k - e).toNat := by
    have hcast : (m : ℚ) = ((2 ^ (k - e).toNat : Nat) : ℚ) := by
      rw [hm]
      push_cast
      rw [← zpow_natCast, Int.toNat_of_nonneg (by omega)]
    exact_mod_cast hcast
  have hlen : bitLen m = (k - e).toNat + 1 := by rw [hnat, bitLen_two_pow]
  exact ⟨by rw [hlen]; exact hnat, by omega⟩

/-- LOG2 at zero, below it, at the infinities and at the powers of two (R76). -/
theorem realOp_log2Elem {f : Fmt} (hf : f.Standard) {x : Nat} (hbits : x < 2 ^ f.bits) : Exact.RealOp f [x] (fun r =>
    (f.magnitude x = 0 → r = 2 ^ (f.frac + f.exp) + f.infinity) ∧ (2 ^ (f.frac + f.exp) < x → r = f.defaultNaN) ∧
    (x = f.infinity → r = f.infinity) ∧
    ∀ k : Int, Exact.term f x = .num false (2 ^ k) → Exact.RoundsTo f .rn false k r) (log2Elem f x) := by
  have hlt := f.infinity_lt
  refine Fmt.realOp_of_nanFirst rfl fun hnan hbody => ⟨fun hx => ?_, fun hx => ?_, fun hx => ?_, fun k hx => ?_⟩
  · obtain ⟨e, hvalue⟩ := Fmt.value_of_zero hf hx
    rw [hbody, hvalue]
    simp [Fmt.sign]
  · obtain ⟨hmag, hneg⟩ := f.magnitude_of_ge hx.le hbits
    rcases f.value_cases hf x with ⟨hx, -⟩ | ⟨-, hvalue⟩ | ⟨m, e, hvalue, -, -, hm, -⟩
    · rw [hnan x (by simp)] at hx
      cases hx
    · rw [hbody, hvalue, hneg]
      rfl
    · have hm0 : m ≠ 0 := fun h => by
        have := hm.mp h
        omega
      rw [hbody, hvalue, hneg]
      simp [hm0]
  · obtain ⟨hmag, hneg⟩ := f.magnitude_of_lt (x := x) (by omega)
    rw [hbody, Fmt.value_of_infinite hf (by omega), hneg]
    rfl
  · obtain ⟨m, e, hvalue, hk⟩ := Fmt.value_of_term hx
    obtain ⟨hpower, hexp⟩ := mantissa_of_power hk
    have hm0 : m ≠ 0 := fun h => by
      rw [h] at hpower
      exact (Nat.two_pow_pos _).ne hpower
    have hlog : log2Elem f x = f.round .rn (.fin (decide (k < 0)) k.natAbs 0) := by
      rw [hbody, hvalue]
      simp only [if_neg hm0, if_neg Bool.false_ne_true, if_pos hpower, hexp]
    rw [hlog]
    exact f.roundsTo_integer hf .rn k

/-- SIN and COS at zero and at the infinities (R76). -/
theorem realOp_trigElem {f : Fmt} (hf : f.Standard) (sine : Bool) (x : Nat) : Exact.RealOp f [x] (fun r =>
    (f.magnitude x = 0 → r = if sine then f.sign (f.negative x) else f.bias * 2 ^ f.frac) ∧
    (f.magnitude x = f.infinity → r = f.defaultNaN)) (trigElem f sine x) := by
  refine Fmt.realOp_of_nanFirst rfl fun _ hbody => ⟨fun hx => ?_, fun hx => ?_⟩
  · obtain ⟨e, hvalue⟩ := Fmt.value_of_zero hf hx
    rw [hbody, hvalue]
    rfl
  · rw [hbody, Fmt.value_of_infinite hf hx]

end Sys2Proof.Machine
end

section
/-!
SUPPORT. The results of the real floating-point lane instructions (R74, R76, R124): each is a pattern of its format, and the
registers of vd hold it.
-/
namespace Sys2Proof.Machine

/-! ### Results are patterns of the format -/

theorem Fmt.sign_lt (f : Fmt) (neg : Bool) : f.sign neg < 2 ^ f.bits := f.sign_add_lt neg (x := 0) (Nat.two_pow_pos _)

section
variable {f : Fmt} (hf : f.Standard)
include hf

theorem Fmt.divVal_lt (mode : Rounding) (a b : FVal) : f.divVal mode a b < 2 ^ f.bits := by
  have hnan := f.lt_bits_of_lt (f.defaultNaN_lt hf)
  have hinf (s : Bool) : f.sign s + f.infinity < 2 ^ f.bits := f.sign_add_lt s f.infinity_lt
  cases a with
  | nan => cases b <;> exact hnan
  | inf s =>
    cases b with
    | fin t n g => exact hinf _
    | _ => exact hnan
  | fin s m e =>
    cases b with
    | nan => exact hnan
    | inf t => exact f.sign_lt _
    | fin t n g =>
      rw [Fmt.divVal]
      split
      · split
        · exact hnan
        · exact hinf _
      · split
        · exact f.sign_lt _
        · exact f.roundMag_lt _ _ _ _ _

theorem Fmt.sqrtVal_lt (mode : Rounding) (a : FVal) : f.sqrtVal mode a < 2 ^ f.bits := by
  have hnan := f.lt_bits_of_lt (f.defaultNaN_lt hf)
  cases a with
  | nan => exact hnan
  | inf s => cases s <;> [exact f.lt_bits_of_lt f.infinity_lt; exact hnan]
  | fin s m e =>
    rw [Fmt.sqrtVal]
    split
    · exact f.sign_lt s
    · split
      · exact hnan
      · exact f.roundMag_lt _ _ _ _ _

theorem Fmt.rsqrtVal_lt (mode : Rounding) (a : FVal) : f.rsqrtVal mode a < 2 ^ f.bits := by
  have hnan := f.lt_bits_of_lt (f.defaultNaN_lt hf)
  cases a with
  | nan => exact hnan
  | inf s => cases s <;> [exact Nat.two_pow_pos _; exact hnan]
  | fin s m e =>
    rw [Fmt.rsqrtVal]
    split
    · exact f.sign_add_lt s f.infinity_lt
    · split
      · exact hnan
      · exact f.roundMag_lt _ _ _ _ _

theorem Fmt.add_lt (mode : Rounding) {a b : Nat} (ha : a < 2 ^ f.bits) (hb : b < 2 ^ f.bits) : f.add mode a b < 2 ^ f.bits :=
  f.nanFirst_lt hf (by simp [ha, hb]) (f.round_lt hf _ _)

theorem Fmt.sub_lt (mode : Rounding) {a b : Nat} (ha : a < 2 ^ f.bits) (hb : b < 2 ^ f.bits) : f.sub mode a b < 2 ^ f.bits :=
  f.nanFirst_lt hf (by simp [ha, hb]) (f.round_lt hf _ _)

theorem Fmt.mul_lt (mode : Rounding) {a b : Nat} (ha : a < 2 ^ f.bits) (hb : b < 2 ^ f.bits) : f.mul mode a b < 2 ^ f.bits :=
  f.nanFirst_lt hf (by simp [ha, hb]) (f.round_lt hf _ _)

theorem Fmt.fma_lt (mode : Rounding) {a b c : Nat} (ha : a < 2 ^ f.bits) (hb : b < 2 ^ f.bits) (hc : c < 2 ^ f.bits) :
    f.fma mode a b c < 2 ^ f.bits := f.nanFirst_lt hf (by simp [ha, hb, hc]) (f.round_lt hf _ _)

theorem Fmt.neg_lt {a : Nat} (ha : a < 2 ^ f.bits) : f.neg a < 2 ^ f.bits :=
  f.nanFirst_lt hf (by simp [ha]) (Nat.xor_lt_two_pow ha (Nat.pow_lt_pow_right (by omega) (by rw [Fmt.bits]; omega)))

theorem Fmt.rint_lt (mode : Rounding) {a : Nat} (ha : a < 2 ^ f.bits) : f.rint mode a < 2 ^ f.bits := by
  refine f.nanFirst_lt hf (by simp [ha]) ?_
  cases f.value a with
  | fin s m e =>
    dsimp only
    split
    · exact f.sign_lt s
    · exact f.roundMag_lt _ _ _ _ _
  | _ => exact ha

end

/-- A rounded number is a pattern of the format. -/
theorem lt_of_roundsTo {f : Fmt} {mode : Rounding} {zero : Bool} {v : ℚ} {r : Nat} (h : Exact.RoundsTo f mode zero v r) :
    r < 2 ^ f.bits := by
  have hinf := f.infinity_lt
  have hlargest : f.largest ≤ f.infinity := Nat.sub_le _ _
  unfold Exact.RoundsTo at h
  split at h
  · rw [h]
    exact f.sign_lt zero
  · obtain ⟨x, -, -, hr⟩ := h
    have hpick (y : Nat) (c : Prop) [Decidable c] :
        (if y < f.infinity then y else if c then f.infinity else f.largest) < 2 ^ (f.frac + f.exp) := by
      split
      · omega
      · split <;> omega
    rw [hr]
    exact f.sign_add_lt _ (hpick _ _)

/-- What an operation asks of a result that is kept in the bits of its format. -/
theorem realOp_mod {f : Fmt} (hf : f.Standard) {xs : List Nat} {P Q : Nat → Prop} {r : Nat} (hxs : ∀ x ∈ xs, x < 2 ^ f.bits)
    (h : Exact.RealOp f xs P r) (hP : P r → Q (r % 2 ^ f.bits)) : Exact.RealOp f xs Q (r % 2 ^ f.bits) := by
  unfold Exact.RealOp at h ⊢
  cases hx : xs.find? fun x => Exact.term f x == .nan with
  | none =>
    rw [hx] at h
    exact hP h
  | some x =>
    rw [hx] at h
    have hquiet : 2 ^ (f.frac - 1) < 2 ^ f.bits := Nat.pow_lt_pow_right (by omega) (by have := hf.frac_pos; rw [Fmt.bits]; omega)
    rw [h]
    exact Nat.mod_eq_of_lt (Nat.or_lt_two_pow (hxs x (List.mem_of_find?_eq_some hx)) hquiet)

/-! ### Lane values -/

theorem LaneCtx.value_lt (c : LaneCtx) (lane : Nat) (code : BitVec 8) (t : Ty) : c.value lane code t < 2 ^ t.width := by
  have hpos : 0 < 2 ^ t.width := Nat.two_pow_pos _
  unfold LaneCtx.value LaneCtx.special
  dsimp only
  split
  · exact Nat.mod_lt _ hpos
  · split
    · exact Nat.mod_lt _ hpos
    · exact Nat.mod_lt _ hpos

theorem Ty.width_of_isF {t : Ty} (h : t.isF = true) : t.width = t.fmt.bits := by
  cases t with
  | f16 | bf16 | f32 | f64 => rfl
  | _ => cases h

/-- A floating-point type keeps its result in the low bits of one register or of two. -/
theorem State.laneNumber_of_isF {u : State} {lane n v : Nat} {t : Ty} (ht : t.isF = true)
    (h : u.laneNumber lane n t.regs = placed t v) :
    ((u.laneRegister lane n).toNat + 2 ^ 32 * (u.laneRegister lane (n + 1)).toNat) % 2 ^ t.width = v % 2 ^ t.fmt.bits := by
  have htwo : (u.laneRegister lane n).toNat + 2 ^ 32 * (u.laneRegister lane (n + 1)).toNat = u.laneNumber lane n 2 := by
    simp [State.laneNumber, List.range_succ]
  have hplaced : placed t v % 2 ^ t.width = v % 2 ^ t.width := by
    cases t with
    | f16 | bf16 | f32 | f64 => exact Nat.mod_mod _ _
    | _ => cases ht
  have hregs : t.regs ≤ 2 ∧ t.width ≤ 32 * t.regs := by
    cases t with
    | f16 | bf16 | f32 | f64 => decide
    | _ => cases ht
  rw [htwo, State.laneNumber_mod u lane n hregs.1 hregs.2, h, hplaced, Ty.width_of_isF ht]

/-- The rounding mode that a code of an instruction names (R63, R72). -/
theorem State.laneCtx_mode {s : State} {b : Block} {op : LaneOp} {f : LaneF} {k : Nat} (h : op.roundingCode f = some k) :
    (s.laneCtx b op f).mode = Rounding.ofCode (if k = 4 then b.rnd.toNat % 4 else k) := by
  have hmode : (s.laneCtx b op f).mode = match op.roundingCode f with
    | some 4 => Rounding.ofCode (b.rnd.toNat % 4)
    | some m => Rounding.ofCode m
    | none => .rn := rfl
  rw [hmode, h]
  split
  · rename_i heq
    rw [Option.some.inj heq, if_pos rfl]
  · rename_i hne heq
    obtain rfl := Option.some.inj heq
    rw [if_neg fun h4 => hne (by rw [h4])]
  · rename_i heq
    cases heq

/-- A zero is its sign. -/
theorem Fmt.sign_of_zero {f : Fmt} {x : Nat} (hx : x < 2 ^ f.bits) (h : f.magnitude x = 0) : f.sign (f.negative x) = x := by
  rcases lt_or_ge x (2 ^ (f.frac + f.exp)) with hlt | hge
  · obtain ⟨hmag, hneg⟩ := f.magnitude_of_lt hlt
    rw [hneg, ← hmag, h]
    rfl
  · obtain ⟨hmag, hneg⟩ := f.magnitude_of_ge hge hx
    rw [hneg, Fmt.sign, if_pos rfl]
    omega

/-- The order of patterns of R87 and R124 by the sign bit. -/
theorem Fmt.key_eq {f : Fmt} {x : Nat} (hx : x < 2 ^ f.bits) :
    f.key x = if x < 2 ^ (f.frac + f.exp) then (x : Int) else -((x - 2 ^ (f.frac + f.exp) : Nat) : Int) - 1 := by
  rw [Fmt.key]
  rcases lt_or_ge x (2 ^ (f.frac + f.exp)) with h | h
  · obtain ⟨hmag, hneg⟩ := f.magnitude_of_lt h
    rw [hmag, hneg, if_neg Bool.false_ne_true, if_pos h]
  · obtain ⟨hmag, hneg⟩ := f.magnitude_of_ge h hx
    rw [hmag, hneg, if_pos rfl, if_neg h.not_gt]

/-- Settles O45: each result is what the one rounding gives, and the registers of vd hold it. -/
theorem laneFloatResults : Obligations.LaneFloatResults := by
  unfold Obligations.LaneFloatResults
  intro s b f hrecent hwindow hF n t m sgn value infinite key gives one
  have hf : t.Standard := Fmt.standard_of_ty f.ty
  have hn : n = t.bits := Ty.width_of_isF hF
  have hsgn : sgn = 2 ^ (t.frac + t.exp) := by simp only [sgn, hn, Fmt.bits, Nat.add_sub_cancel]
  have hlt (op : LaneOp) (lane : Nat) (code : BitVec 8) : (s.laneCtx b op f).value lane code f.ty < 2 ^ t.bits :=
    hn ▸ LaneCtx.value_lt ..
  have hgives {op : LaneOp} {i : Instr} {P : Nat → Nat → Nat → Nat → Prop} (r : Result) (g : LaneCtx → Nat → Nat)
      (harm : exec i s = r) (hr : r = runLane s op f fun c => c.elementwise (g c))
      (hslot : (op.slots f).1 = .lane f.ty.regs (1 < f.ty.regs))
      (hP : ∀ lane, let c := s.laneCtx b op f; P (c.a lane) (c.b' lane) (c.c' lane) (g c lane % 2 ^ t.bits)) : gives op i P := by
    intro hissues x
    obtain ⟨u, hrun, hu⟩ := exists_runLane_toLanes hissues hrecent hwindow hslot g
    refine ⟨u, harm.trans (hr.trans hrun), fun lane hlane hactive => ?_⟩
    rw [State.laneNumber_of_isF hF (hu lane hlane hactive)]
    exact hP lane
  have hmode {op : LaneOp} (h : op.roundingCode f = some (f.imm.toNat % 8)) : (s.laneCtx b op f).mode = m := State.laneCtx_mode h
  have hZ : f.ty.isZ = false := by cases hty : f.ty <;> simp_all [Ty.isF, Ty.isZ]
  have hC : f.ty.isC = false := by cases hty : f.ty <;> simp_all [Ty.isF, Ty.isC]
  have harith {op : LaneOp} (h : op.roundingCode f = if f.ty.isZ then none else some (f.imm.toNat % 8)) :
      (s.laneCtx b op f).mode = m := hmode (by rw [h, hZ, if_neg Bool.false_ne_true])
  -- a result that is a pattern of the format is kept whole
  have hkept {P : Nat → Prop} {v : Nat} (hv : v < 2 ^ t.bits) (h : P v) : P (v % 2 ^ t.bits) := by rwa [Nat.mod_eq_of_lt hv]
  have hpick {x y : Nat} {p : Prop} [Decidable p] (hx : x < 2 ^ t.bits) (hy : y < 2 ^ t.bits) :
      (if p then x else y) < 2 ^ t.bits := by split <;> assumption
  have hkey {x : Nat} (hx : x < 2 ^ t.bits) : key x = t.key x := by rw [Fmt.key_eq hx]; simp only [key, hsgn]
  have hnan : t.defaultNaN < 2 ^ t.bits := t.lt_bits_of_lt (t.defaultNaN_lt hf)
  have hmag (x : Nat) : t.magnitude x = x % sgn := by rw [Fmt.magnitude, hsgn]
  clear_value gives
  refine ⟨hgives (execLaneNeg f s) _ rfl rfl rfl fun lane => ?_, hgives (execLaneAbs f s) _ rfl rfl rfl fun lane => ?_,
    hgives (execLaneMin f s) _ rfl rfl rfl fun lane => ?_, hgives (execLaneMax f s) _ rfl rfl rfl fun lane => ?_,
    hgives (execLaneAdd f s) _ rfl rfl rfl fun lane => ?_, hgives (execLaneSub f s) _ rfl rfl rfl fun lane => ?_,
    hgives (execLaneMul f s) _ rfl rfl rfl fun lane => ?_, hgives (execLaneFma f s) _ rfl rfl rfl fun lane => ?_,
    hgives (execLaneDiv f s) _ rfl rfl rfl fun lane => ?_, hgives (execLaneSqrt f s) _ rfl rfl rfl fun lane => ?_,
    hgives (execLaneRcp f s) _ rfl rfl rfl fun lane => ?_, hgives (execLaneRsqrt f s) _ rfl rfl rfl fun lane => ?_,
    hgives (execLaneRint f s) _ rfl rfl rfl fun lane => ?_, hgives (execLaneExp2 f s) _ rfl rfl rfl fun lane => ?_,
    hgives (execLaneLog2 f s) _ rfl rfl rfl fun lane => ?_, hgives (execLaneSin f s) _ rfl rfl rfl fun lane => ?_,
    hgives (execLaneCos f s) _ rfl rfl rfl fun lane => ?_⟩
  all_goals
    intro c
    have ha : c.a lane < 2 ^ t.bits := hlt ..
    have hb : c.b' lane < 2 ^ t.bits := hlt ..
    have hc : c.c' lane < 2 ^ t.bits := hlt ..
  · rw [negElem, if_pos hF]
    exact hkept (t.neg_lt hf ha) (t.realOp_nanFirst fun _ => by rw [Fmt.flip, hsgn])
  · rw [absElem, if_pos hF]
    have hlt : t.magnitude (c.a lane) < 2 ^ t.bits := (Nat.mod_le _ _).trans_lt ha
    exact hkept (t.nanFirst_lt hf (by simpa using ha) hlt) (t.realOp_nanFirst fun _ => hmag _)
  · rw [minElem, if_pos hF]
    exact hkept (t.nanFirst_lt hf (by simp [ha, hb]) (hpick ha hb)) (t.realOp_nanFirst fun _ => by rw [hkey ha, hkey hb])
  · rw [maxElem, if_pos hF]
    exact hkept (t.nanFirst_lt hf (by simp [ha, hb]) (hpick hb ha)) (t.realOp_nanFirst fun _ => by rw [hkey ha, hkey hb])
  · rw [addElem, if_pos hF, harith rfl]
    exact hkept (t.add_lt hf m ha hb) (t.adds_add hf m _ _)
  · rw [subElem, if_pos hF, harith rfl]
    exact hkept (t.sub_lt hf m ha hb) (t.subtracts_sub hf m _ _)
  · rw [mulElem, if_pos hF, harith rfl]
    exact hkept (t.mul_lt hf m ha hb) (t.multiplies_mul hf m _ _)
  · rw [fmaElem, if_neg (by simp [hC]), hmode rfl]
    exact hkept (t.fma_lt hf m ha hb hc) (t.fuses_fma hf m _ _ _)
  · rw [divElem, if_neg (by simp [hC]), hmode rfl]
    refine hkept (t.nanFirst_lt hf (by simp [ha, hb]) (t.divVal_lt hf m _ _)) (t.realOp_nanFirst fun _ => ?_)
    simp only [value, ← t.term_value]
    exact t.divides_divVal hf m _ _
  · rw [hmode rfl]
    refine hkept (t.nanFirst_lt hf (by simpa using ha) (t.sqrtVal_lt hf m _)) (t.realOp_nanFirst fun _ => ?_)
    simp only [value, ← t.term_value]
    exact t.roots_sqrtVal hf m _
  · rw [hmode rfl]
    refine hkept (t.nanFirst_lt hf (by simpa using ha) (t.divVal_lt hf m _ _)) (t.realOp_nanFirst fun _ => ?_)
    have hdiv := t.divides_divVal hf m (.fin false 1 0) (t.value (c.a lane))
    rw [t.term_value, show (FVal.fin false 1 0).term = .num false 1 by simp [FVal.term, signedMag]] at hdiv
    exact hdiv
  · rw [hmode rfl, Fmt.rsqrt_eq]
    refine hkept (t.nanFirst_lt hf (by simpa using ha) (t.rsqrtVal_lt hf m _)) (t.realOp_nanFirst fun _ => ?_)
    simp only [value, ← t.term_value]
    exact t.inverseRoots_rsqrtVal hf m _
  · rw [hmode rfl]
    exact hkept (t.rint_lt hf m ha) (t.realOp_rint hf m _)
  · have hexp := realOp_exp2Elem hf (c.a lane)
    rw [← hsgn] at hexp
    refine realOp_mod hf (by simpa using ha) hexp fun ⟨hinf, hzero, hint⟩ => ⟨fun hx => ?_, fun hx => ?_, fun neg k hx => ?_⟩
    · rw [hinf hx, Nat.mod_eq_of_lt (t.lt_bits_of_lt t.infinity_lt)]
    · rw [hzero hx, Nat.zero_mod]
    · rw [Nat.mod_eq_of_lt (lt_of_roundsTo (hint neg k hx))]
      exact hint neg k hx
  · have hlog := realOp_log2Elem hf ha
    rw [← hsgn, hmag] at hlog
    refine realOp_mod hf (by simpa using ha) hlog fun ⟨hzero, hneg, hinf, hpower⟩ =>
      ⟨fun hx => ?_, fun hx => ?_, fun hx => ?_, fun k hx => ?_⟩
    · have hbits : sgn + t.infinity < 2 ^ t.bits := by
        have hlt := t.infinity_lt
        rw [hsgn, Fmt.bits, pow_succ]
        omega
      rw [hzero hx, Nat.mod_eq_of_lt hbits]
    · rw [hneg hx, Nat.mod_eq_of_lt hnan]
    · rw [hinf hx, Nat.mod_eq_of_lt (t.lt_bits_of_lt t.infinity_lt)]
    · rw [Nat.mod_eq_of_lt (lt_of_roundsTo (hpower k hx))]
      exact hpower k hx
  · have hsin := realOp_trigElem hf true (c.a lane)
    rw [hmag, if_pos rfl] at hsin
    refine realOp_mod hf (by simpa using ha) hsin fun ⟨hzero, hinf⟩ => ⟨fun hx => ?_, fun hx => ?_⟩
    · rw [hzero hx, t.sign_of_zero ha (hmag _ ▸ hx), Nat.mod_eq_of_lt ha]
    · rw [hinf (by simpa [infinite] using hx), Nat.mod_eq_of_lt hnan]
  · have hcos := realOp_trigElem hf false (c.a lane)
    rw [hmag, if_neg Bool.false_ne_true] at hcos
    refine realOp_mod hf (by simpa using ha) hcos fun ⟨hzero, hinf⟩ => ⟨fun hx => ?_, fun hx => ?_⟩
    · have hone : f.ty.one = t.bias * 2 ^ t.frac := by rw [Ty.one, hF]; rfl
      have hlt : t.bias * 2 ^ t.frac < t.infinity := by
        rw [t.infinity_eq hf]
        exact Nat.mul_lt_mul_of_pos_right (by omega) (Nat.two_pow_pos _)
      rw [hzero hx, hone, Nat.mod_eq_of_lt (t.lt_bits_of_lt (hlt.trans t.infinity_lt))]
    · rw [hinf (by simpa [infinite] using hx), Nat.mod_eq_of_lt hnan]

end Sys2Proof.Machine
end

section
/-!
SUPPORT. Complex results and conversions (R71, R77, R86, R125, R129): pairs of rounded parts, and the conversions between every two
types.
-/
namespace Sys2Proof.Machine
open Exact (Term)

/-! ### Pairs (R71) -/

/-- The parts of a pair. -/
def partsOf (f : Fmt) (x : Nat) : Nat × Nat := (rePart f x, imPart f x)

/-- A pair of two patterns has them as its parts. -/
theorem pairOf_parts {f : Fmt} {re im : Nat} (hre : re < 2 ^ f.bits) (him : im < 2 ^ f.bits) :
    pairOf f re im % 2 ^ f.bits = re ∧ pairOf f re im / 2 ^ f.bits = im ∧ pairOf f re im < 2 ^ (2 * f.bits) := by
  rw [pairOf, Nat.mod_eq_of_lt hre, Nat.mod_eq_of_lt him]
  refine ⟨?_, ?_, ?_⟩
  · rw [Nat.add_mul_mod_self_left, Nat.mod_eq_of_lt hre]
  · rw [Nat.add_mul_div_left _ _ (Nat.two_pow_pos _), Nat.div_eq_of_lt hre, Nat.zero_add]
  · have hle : 2 ^ f.bits * (im + 1) ≤ 2 ^ f.bits * 2 ^ f.bits := Nat.mul_le_mul_left _ him
    rw [Nat.two_mul, pow_add]
    rw [Nat.mul_add] at hle
    omega

/-- The parts of a value of a complex type. -/
theorem partsOf_eq {f : Fmt} {x : Nat} (hx : x < 2 ^ (2 * f.bits)) : partsOf f x = (x % 2 ^ f.bits, x / 2 ^ f.bits) := by
  rw [Nat.two_mul, pow_add] at hx
  rw [partsOf, rePart, imPart, Nat.mod_eq_of_lt (Nat.div_lt_of_lt_mul hx)]

theorem rePart_lt (f : Fmt) (x : Nat) : rePart f x < 2 ^ f.bits := Nat.mod_lt _ (Nat.two_pow_pos _)

theorem imPart_lt (f : Fmt) (x : Nat) : imPart f x < 2 ^ f.bits := Nat.mod_lt _ (Nat.two_pow_pos _)

/-- A result in the form of a pair whose parts are two patterns that satisfy `P`. -/
def PairOf (f : Fmt) (P : Nat → Nat → Prop) (v : Nat) : Prop :=
  ∃ re im, v = pairOf f re im ∧ re < 2 ^ f.bits ∧ im < 2 ^ f.bits ∧ P re im

theorem PairOf.parts {f : Fmt} {P : Nat → Nat → Prop} {v : Nat} (h : PairOf f P v) :
    P (v % 2 ^ f.bits) (v / 2 ^ f.bits) ∧ v < 2 ^ (2 * f.bits) := by
  obtain ⟨re, im, rfl, hre, him, hP⟩ := h
  obtain ⟨hmod, hdiv, hlt⟩ := pairOf_parts hre him
  rw [hmod, hdiv]
  exact ⟨hP, hlt⟩

/-! ### Products of pairs (R86) -/

/-- A pattern is a NaN in the rules where it is one in the model. -/
theorem partNaN_eq (f : Fmt) (x : Nat) :
    partNaN f x = (Exact.term f (partsOf f x).1 == .nan || Exact.term f (partsOf f x).2 == .nan) := by
  rw [partNaN, f.isNaN_eq, f.isNaN_eq]
  rfl

/-- One rounding step of some values. -/
theorem roundTerms_sums {f : Fmt} (hf : f.Standard) (m : Rounding) (ts : List FVal) :
    Exact.Sums f m (ts.map FVal.term) (roundTerms f m ts) := f.sums_round hf m ts

theorem roundTerms_lt {f : Fmt} (hf : f.Standard) (m : Rounding) (ts : List FVal) : roundTerms f m ts < 2 ^ f.bits :=
  f.round_lt hf m _

/-- MUL and FMA of pairs are what R86 asks, under both values of `nvr`. -/
theorem complexFma_pairOf {f : Fmt} (hf : f.Standard) (m : Rounding) (nvr a b : Nat) (c : Option Nat) :
    PairOf f (Exact.ComplexFuses f m nvr (partsOf f a) (partsOf f b) (c.map (partsOf f))) (complexFma f m nvr a b c) := by
  have hnan : (partNaN f a || partNaN f b || (c.map (partNaN f)).getD false) =
      ((Exact.term f (partsOf f a).1 == .nan || Exact.term f (partsOf f a).2 == .nan) ||
        (Exact.term f (partsOf f b).1 == .nan || Exact.term f (partsOf f b).2 == .nan) ||
        (c.map (partsOf f)).any fun x => Exact.term f x.1 == .nan || Exact.term f x.2 == .nan) := by
    rw [partNaN_eq, partNaN_eq]
    cases c with
    | none => rfl
    | some x => rw [Option.map_some, Option.map_some, Option.getD_some, Option.any_some, partNaN_eq]
  unfold complexFma Exact.ComplexFuses
  dsimp only
  rw [hnan]
  split
  · have hlt := f.lt_bits_of_lt (f.defaultNaN_lt hf)
    exact ⟨_, _, rfl, hlt, hlt, rfl, rfl⟩
  · split
    · -- each product is rounded, and the sums with it (nvr 1)
      have hproduct (x y : Nat) : Exact.Sums f m [(Exact.term f x).mul (Exact.term f y)] (f.round m ((f.value x).mul (f.value y))) := by
        simpa only [FVal.term_mul, f.term_value] using f.sums_round_single hf m ((f.value x).mul (f.value y))
      have hsum (x y g : Nat) : Exact.Sums f m [(Exact.term f x).mul (Exact.term f y), Exact.term f g]
          (roundTerms f m [(f.value x).mul (f.value y), f.value g]) := by
        simpa [FVal.term_mul, f.term_value] using roundTerms_sums hf m [(f.value x).mul (f.value y), f.value g]
      have hdiff (x y g : Nat) : Exact.Sums f m [(Exact.term f x).mul (Exact.term f y), (Exact.term f g).neg]
          (roundTerms f m [(f.value x).mul (f.value y), (f.value g).neg]) := by
        simpa [FVal.term_mul, FVal.term_neg, f.term_value] using roundTerms_sums hf m [(f.value x).mul (f.value y), (f.value g).neg]
      cases c with
      | none => exact ⟨_, _, rfl, roundTerms_lt hf _ _, roundTerms_lt hf _ _, _, _, hproduct _ _, hproduct _ _, hdiff _ _ _, hsum _ _ _⟩
      | some x =>
        have hadd (x g : Nat) : Exact.Sums f m [Exact.term f x, Exact.term f g] (roundTerms f m [f.value x, f.value g]) := by
          simpa [f.term_value] using roundTerms_sums hf m [f.value x, f.value g]
        have hsub (x g : Nat) : Exact.Sums f m [Exact.term f x, (Exact.term f g).neg] (roundTerms f m [f.value x, (f.value g).neg]) := by
          simpa [FVal.term_neg, f.term_value] using roundTerms_sums hf m [f.value x, (f.value g).neg]
        exact ⟨_, _, rfl, roundTerms_lt hf _ _, roundTerms_lt hf _ _, _, _, hproduct _ _, hproduct _ _, _, _, hsub _ _, hadd _ _,
          hsum _ _ _, hsum _ _ _⟩
    · refine ⟨_, _, rfl, roundTerms_lt hf _ _, roundTerms_lt hf _ _, ?_, ?_⟩
      · have hsums := roundTerms_sums hf m ([(f.value (rePart f a)).mul (f.value (rePart f b)),
          ((f.value (imPart f a)).mul (f.value (imPart f b))).neg] ++ (c.map fun x => f.value (rePart f x)).toList)
        cases c <;> simpa [partsOf, FVal.term_mul, FVal.term_neg, f.term_value] using hsums
      · have hsums := roundTerms_sums hf m ([(f.value (rePart f a)).mul (f.value (imPart f b)),
          (f.value (imPart f a)).mul (f.value (rePart f b))] ++ (c.map fun x => f.value (imPart f x)).toList)
        cases c <;> simpa [partsOf, FVal.term_mul, FVal.term_neg, f.term_value] using hsums

/-! ### Quotients of pairs (R86) -/

/-- A term that is a number. -/
def Term.isNum : Term → Bool
  | .num _ _ => true
  | _ => false

/-- The sum of numbers is a number, with the sign that R73 gives it where it is zero. -/
theorem total_of_numbers (m : Rounding) {ts : List Term} (h : ∀ t ∈ ts, Term.isNum t = true) :
    Exact.total m ts = .num (if (ts.map Term.value).sum = 0 then Exact.zeroSign m ts else decide ((ts.map Term.value).sum < 0))
      (ts.map Term.value).sum := by
  have hnan : .nan ∉ ts := fun hmem => by cases h _ hmem
  have hinf (s : Bool) : .inf s ∉ ts := fun hmem => by cases h _ hmem
  simp [Exact.total, hnan, hinf]

theorem isNum_mul : ∀ {x y : Term}, Term.isNum x = true → Term.isNum y = true → Term.isNum (x.mul y) = true
  | .num .., .num .., _, _ => rfl

theorem isNum_neg : ∀ {x : Term}, Term.isNum x = true → Term.isNum x.neg = true
  | .num .., _ => rfl

theorem value_mul : ∀ {x y : Term}, Term.isNum x = true → Term.isNum y = true → (x.mul y).value = x.value * y.value
  | .num .., .num .., _, _ => rfl

theorem value_of_term_eq_num {v : FVal} {s : Bool} {r : ℚ} (h : v.term = .num s r) : ∃ m e, v = .fin s m e ∧ signedMag s m e = r := by
  cases v with
  | nan => cases h
  | inf t => cases h
  | fin t m e =>
    obtain ⟨rfl, rfl⟩ := Term.num.inj h
    exact ⟨m, e, rfl, rfl⟩

/-- A sum of numbers divided by a positive number and rounded once. -/
theorem roundQuotient_roundsTo {f : Fmt} (hf : f.Standard) (m : Rounding) {ts : List FVal} {den : FVal} {q : ℚ}
    (hts : ∀ t ∈ ts.map FVal.term, Term.isNum t = true) (hden : den.term = .num false q) (hq : q ≠ 0) :
    Exact.RoundsTo f m (Exact.zeroSign m (ts.map FVal.term)) (((ts.map FVal.term).map Term.value).sum / q)
      (roundQuotient f m ts den) := by
  obtain ⟨d, g, rfl, rfl⟩ := value_of_term_eq_num hden
  have hd : d ≠ 0 := fun h => hq (signedMag_eq_zero.mpr h)
  have hsum := (term_sumTerms m ts).trans (total_of_numbers m hts)
  set v := ((ts.map FVal.term).map Term.value).sum
  obtain ⟨n, e, hfin, hv⟩ := value_of_term_eq_num hsum
  set sign := if v = 0 then Exact.zeroSign m (ts.map FVal.term) else decide (v < 0)
  have hround : roundQuotient f m ts (.fin false d g) = if n = 0 then f.sign sign else f.quotient m sign n e d g := by
    unfold roundQuotient
    rw [hfin]
    dsimp only
    rw [if_neg hd]
  have hzero : v / signedMag false d g = 0 ↔ n = 0 := by rw [div_eq_zero_iff, or_iff_left hq, ← hv, signedMag_eq_zero]
  rw [Exact.RoundsTo, hround]
  by_cases hn : n = 0
  · have hv0 : v = 0 := hv ▸ signedMag_eq_zero.mpr hn
    rw [if_pos hn, if_pos (hzero.mpr hn)]
    simp only [sign, if_pos hv0]
  · have hsign : decide (v / signedMag false d g < 0) = sign := by
      rw [← hv, Bool.eq_iff_iff, decide_eq_true_eq, div_neg_iff, signedMag_pos_iff hn, signedMag_pos_iff hd, signedMag_neg_iff hn,
        signedMag_neg_iff hd]
      simp
    rw [if_neg hn, if_neg (mt hzero.mp hn), hsign, abs_div, ← hv, abs_signedMag, abs_signedMag]
    exact f.rounds_quotient hf m sign (Nat.pos_of_ne_zero hn) (Nat.pos_of_ne_zero hd) e g

/-- Squares of numbers sum to a number without a sign. -/
theorem term_squares (m : Rounding) {x y : FVal} (hx : Term.isNum x.term = true) (hy : Term.isNum y.term = true)
    (h : x.term.value * x.term.value + y.term.value * y.term.value ≠ 0) :
    (sumTerms m [x.mul x, y.mul y]).term = .num false (x.term.value * x.term.value + y.term.value * y.term.value) := by
  have hnum : ∀ t ∈ [x.term.mul x.term, y.term.mul y.term], Term.isNum t = true := by
    simp [isNum_mul hx hx, isNum_mul hy hy]
  have hpos : ¬x.term.value * x.term.value + y.term.value * y.term.value < 0 := by nlinarith
  have htotal := (term_sumTerms m [x.mul x, y.mul y]).trans
    (total_of_numbers m (by simpa only [List.map_cons, List.map_nil, FVal.term_mul] using hnum))
  simpa [FVal.term_mul, value_mul hx hx, value_mul hy hy, h, hpos] using htotal

/-- What stops a division of pairs: a part that is no number. -/
theorem bad_iff (v : FVal) : (v.isNaN || v.isInf false || v.isInf true) = !Term.isNum v.term := by
  cases v with
  | nan => rfl
  | inf s => cases s <;> rfl
  | fin s m e => rfl

theorem isZero_eq {v : FVal} (h : Term.isNum v.term = true) : v.isZero = decide (v.term.value = 0) := by
  cases v with
  | nan => cases h
  | inf s => cases h
  | fin s m e =>
    rw [Bool.eq_iff_iff, decide_eq_true_eq]
    simp [FVal.isZero, FVal.term, Term.value, signedMag_eq_zero]

theorem roundQuotient_lt {f : Fmt} (hf : f.Standard) (m : Rounding) (ts : List FVal) (den : FVal) : roundQuotient f m ts den < 2 ^ f.bits := by
  have hnan := f.lt_bits_of_lt (f.defaultNaN_lt hf)
  unfold roundQuotient
  split
  · split
    · exact f.sign_lt _
    · split
      · exact hnan
      · exact f.roundMag_lt _ _ _ _ _
  · exact hnan

/-- The division of pairs asks for numbers, and for a divisor that is not zero. -/
theorem complexDivides_eq (f : Fmt) (m : Rounding) (a : Term × Term) (b : Nat × Nat) :
    Exact.ComplexDivides f m a b = fun re im =>
      let br := Exact.term f b.1
      let bi := Exact.term f b.2
      let q := br.value * br.value + bi.value * bi.value
      if [a.1, a.2, br, bi].all Term.isNum ∧ q ≠ 0 then
        let part (x y : Term) (r : Nat) : Prop := Exact.RoundsTo f m (Exact.zeroSign m [x, y]) ((x.value + y.value) / q) r
        part (a.1.mul br) (a.2.mul bi) re ∧ part (a.2.mul br) (a.1.mul bi).neg im
      else re = f.defaultNaN ∧ im = f.defaultNaN := rfl

/-- DIV of pairs is what R86 asks. -/
theorem complexDiv_pairOf {f : Fmt} (hf : f.Standard) (m : Rounding) (a b : Nat) :
    PairOf f (Exact.ComplexDivides f m (Exact.term f (partsOf f a).1, Exact.term f (partsOf f a).2) (partsOf f b)) (complexDiv f m a b) := by
  have hnan := f.lt_bits_of_lt (f.defaultNaN_lt hf)
  rw [complexDivides_eq]
  unfold complexDiv complexDivVal
  simp only [partsOf, ← f.term_value, bad_iff]
  generalize f.value (rePart f a) = ar
  generalize f.value (imPart f a) = ai
  generalize f.value (rePart f b) = br
  generalize f.value (imPart f b) = bi
  by_cases hnum : [ar.term, ai.term, br.term, bi.term].all Term.isNum = true
  · obtain ⟨har, hai, hbr, hbi⟩ : Term.isNum ar.term = true ∧ Term.isNum ai.term = true ∧ Term.isNum br.term = true ∧
        Term.isNum bi.term = true := by simpa using hnum
    have hzero : (br.isZero && bi.isZero) = decide (br.term.value * br.term.value + bi.term.value * bi.term.value = 0) := by
      rw [isZero_eq hbr, isZero_eq hbi, Bool.eq_iff_iff, Bool.and_eq_true, decide_eq_true_eq, decide_eq_true_eq, decide_eq_true_eq,
        mul_self_add_mul_self_eq_zero]
    rw [har, hai, hbr, hbi, hzero]
    by_cases hq : br.term.value * br.term.value + bi.term.value * bi.term.value = 0
    · simp only [hq, hnum]
      exact ⟨_, _, rfl, hnan, hnan, rfl, rfl⟩
    · rw [if_neg (by simpa using hq)]
      refine ⟨_, _, rfl, roundQuotient_lt hf m _ _, roundQuotient_lt hf m _ _, ?_⟩
      dsimp only
      rw [if_pos ⟨hnum, hq⟩]
      have hden := term_squares .rn hbr hbi hq
      have hpart {x y : FVal} (hx : Term.isNum x.term = true) (hy : Term.isNum y.term = true) :=
        roundQuotient_roundsTo hf m (ts := [x, y]) (by simp [hx, hy]) hden hq
      have hre := hpart (x := ar.mul br) (y := ai.mul bi) (by rw [FVal.term_mul]; exact isNum_mul har hbr)
        (by rw [FVal.term_mul]; exact isNum_mul hai hbi)
      have him := hpart (x := ai.mul br) (y := (ar.mul bi).neg) (by rw [FVal.term_mul]; exact isNum_mul hai hbr)
        (by rw [FVal.term_neg, FVal.term_mul]; exact isNum_neg (isNum_mul har hbi))
      simp only [List.map_cons, List.map_nil, List.sum_cons, List.sum_nil, add_zero, FVal.term_mul, FVal.term_neg] at hre him
      exact ⟨hre, him⟩
  · have hbad : (!Term.isNum ar.term || !Term.isNum ai.term || !Term.isNum br.term || !Term.isNum bi.term || (br.isZero && bi.isZero)) =
        true := by
      simp only [List.all_cons, List.all_nil, Bool.and_true, Bool.and_eq_true, not_and_or, Bool.not_eq_true] at hnum
      rcases hnum with h | h | h | h <;> simp [h]
    rw [hbad, if_pos rfl]
    refine ⟨_, _, rfl, hnan, hnan, ?_⟩
    dsimp only
    rw [if_neg fun h => hnum h.1]
    exact ⟨rfl, rfl⟩

end Sys2Proof.Machine
end

section
/-!
SUPPORT. Conversions between every two types (R77, R129), and the results of the complex lane instructions and of CVT.
-/
namespace Sys2Proof.Machine
open Exact (Term)

/-! ### Integers (R68) -/

theorem signedOf_eq_toInt {n : Nat} (hn : 0 < n) (x : Nat) : signedOf n x = (BitVec.ofNat n x).toInt := by
  obtain ⟨k, rfl⟩ : ∃ k, n = k + 1 := ⟨n - 1, by omega⟩
  have hcast : ((x % 2 ^ (k + 1) : Nat) : Int) = (x : Int) % 2 ^ (k + 1) := by push_cast; rfl
  rw [signedOf, BitVec.toInt, BitVec.toNat_ofNat, Nat.add_sub_cancel, ← hcast, pow_succ, pow_succ]
  generalize x % (2 ^ k * 2) = y
  push_cast
  split <;> split <;> omega

theorem lowBits_eq (n : Nat) (v : Int) : lowBits n v = (BitVec.ofInt n v).toNat := by
  rw [lowBits, BitVec.toNat_ofInt]
  push_cast
  rfl

theorem lowBits_lt (n : Nat) (v : Int) : lowBits n v < 2 ^ n := by
  rw [lowBits_eq]
  exact BitVec.isLt _

theorem tyMin_le_tyMax (t : Ty) : tyMin t ≤ tyMax t := by cases t <;> decide

theorem clampTo_eq (t : Ty) (v : Int) : clampTo t v = max (tyMin t) (min (tyMax t) v) := by
  have hle := tyMin_le_tyMax t
  unfold clampTo
  split
  · omega
  · split <;> omega

/-! ### From and to floats (R77) -/

/-- A value rounded keeps its sign. -/
theorem Fmt.exists_round_eq (f : Fmt) (mode : Rounding) {v : FVal} (hv : v ≠ .nan) :
    ∃ x ≤ f.infinity, f.round mode v = f.sign v.negative + x := by
  cases v with
  | nan => exact absurd rfl hv
  | inf s => exact ⟨f.infinity, le_rfl, rfl⟩
  | fin s m e =>
    rw [Fmt.round]
    split
    · exact ⟨0, Nat.zero_le _, rfl⟩
    · rw [Fmt.roundMag_eq]
      split
      · unfold Fmt.overflow
        split <;> [exact ⟨_, le_rfl, rfl⟩; exact ⟨_, le_rfl, rfl⟩; exact ⟨_, le_rfl, rfl⟩; exact ⟨f.largest, Nat.sub_le _ _, rfl⟩]
      · exact ⟨_, by omega, rfl⟩

/-- Below an infinity that a rounding gives lies the largest number of its sign. -/
theorem Fmt.round_sub_one {f : Fmt} (hf : f.Standard) (mode : Rounding) {v : FVal} (hv : v ≠ .nan)
    (h : f.magnitude (f.round mode v) = f.infinity) : f.round mode v - 1 = f.sign v.negative + f.largest := by
  obtain ⟨x, hx, hround⟩ := f.exists_round_eq mode hv
  have hlt := f.infinity_lt
  have hmag : f.magnitude (f.sign v.negative + x) = x := by
    unfold Fmt.magnitude Fmt.sign
    split
    · rw [Nat.add_mod_left, Nat.mod_eq_of_lt (by omega)]
    · rw [Nat.zero_add, Nat.mod_eq_of_lt (by omega)]
  have hpos : 0 < f.infinity := by
    rw [f.infinity_eq hf]
    exact Nat.mul_pos (by omega) (Nat.two_pow_pos _)
  rw [hround, hmag] at h
  rw [hround, h, Fmt.largest]
  omega

/-- A rounded value, where `narrow` says that no infinity may come of it (R77). -/
theorem Fmt.saturated_eq {f : Fmt} (hf : f.Standard) (mode : Rounding) {v : FVal} (hv : v ≠ .nan) {narrow : Bool} {P : Prop}
    [Decidable P] (hP : narrow = true ↔ P) :
    (if narrow && f.isInf (f.round mode v) then f.sign v.negative + f.largest else f.round mode v) =
      if P ∧ f.magnitude (f.round mode v) = f.infinity then f.round mode v - 1 else f.round mode v := by
  simp only [Fmt.isInf, Bool.and_eq_true, beq_iff_eq, hP]
  split
  · rename_i h
    exact (f.round_sub_one hf mode hv h.2).symm
  · rfl

theorem Fmt.saturated_lt {f : Fmt} (hf : f.Standard) (mode : Rounding) (v : FVal) (neg c : Bool) :
    (if c then f.sign neg + f.largest else f.round mode v) < 2 ^ f.bits := by
  split
  · exact f.sign_add_lt _ ((Nat.sub_le _ _).trans_lt f.infinity_lt)
  · exact f.round_lt hf mode v

/-- The payload of a NaN, padded or cut (R74). -/
theorem Fmt.convertNaN_eq (dst src : Fmt) (x : Nat) : dst.convertNaN src x = Exact.nanAs dst src x := by
  have hpayload : (if src.frac ≤ dst.frac then x % 2 ^ src.frac * 2 ^ (dst.frac - src.frac) else
      x % 2 ^ src.frac / 2 ^ (src.frac - dst.frac)) = x % 2 ^ src.frac * 2 ^ dst.frac / 2 ^ src.frac := by
    split
    · rename_i h
      rw [← Nat.add_sub_cancel' h, pow_add, Nat.mul_left_comm, Nat.mul_div_cancel_left _ (Nat.two_pow_pos _),
        Nat.add_sub_cancel_left]
    · rename_i h
      have hpow : 2 ^ src.frac = 2 ^ (src.frac - dst.frac) * 2 ^ dst.frac := by rw [← pow_add, Nat.sub_add_cancel (by omega)]
      generalize x % 2 ^ src.frac = p
      rw [hpow, Nat.mul_div_mul_right _ _ (Nat.two_pow_pos _)]
  rw [Fmt.convertNaN, Exact.nanAs, ← hpayload]
  rfl

theorem Fmt.convertNaN_lt {dst : Fmt} (hf : dst.Standard) (src : Fmt) (x : Nat) : dst.convertNaN src x < 2 ^ dst.bits := by
  have hpayload : x % 2 ^ src.frac * 2 ^ dst.frac / 2 ^ src.frac < 2 ^ dst.frac := by
    rw [Nat.div_lt_iff_lt_mul (Nat.two_pow_pos _), Nat.mul_comm (2 ^ dst.frac)]
    exact Nat.mul_lt_mul_of_pos_right (Nat.mod_lt _ (Nat.two_pow_pos _)) (Nat.two_pow_pos _)
  have hadd := dst.infinity_add
  rw [Fmt.convertNaN_eq, Exact.nanAs, Nat.add_assoc]
  exact Nat.or_lt_two_pow (dst.sign_add_lt _ (by omega))
    (Nat.pow_lt_pow_right (by omega) (by have := hf.frac_pos; rw [Fmt.bits]; omega))

/-- A float converted to a float format. -/
theorem Fmt.floatToFloat_convert {dst src : Fmt} (hdst : dst.Standard) (hsrc : src.Standard) (m : Rounding) (sat : Bool) (x : Nat) :
    Exact.FloatToFloat dst src m sat x (dst.convert src m sat x) := by
  unfold Fmt.convert Exact.FloatToFloat
  rw [src.isNaN_eq]
  by_cases hnan : Exact.term src x = .nan
  · rw [hnan]
    exact dst.convertNaN_eq src x
  · have hvalue : src.value x ≠ .nan := fun h => hnan (by rw [← src.term_value, h]; rfl)
    have hsign : (src.value x).negative = src.negative x := by
      rcases src.value_cases hsrc x with ⟨-, h⟩ | ⟨-, h⟩ | ⟨_, _, h, -⟩
      · exact absurd h hvalue
      · rw [h]; rfl
      · rw [h]; rfl
    have hsums := dst.sums_round_single hdst m (src.value x)
    rw [src.term_value] at hsums
    have hincludes : (sat && !dst.includes src) = true ↔ sat = true ∧ ¬(src.frac ≤ dst.frac ∧ src.exp ≤ dst.exp) := by
      rw [Bool.and_eq_true, Bool.not_eq_true', ← Bool.not_eq_true, Fmt.includes, Bool.and_eq_true, decide_eq_true_eq,
        decide_eq_true_eq]
    have hsat := dst.saturated_eq hdst m hvalue hincludes
    simp only [hsign, and_assoc] at hsat
    rw [if_neg (by simpa using hnan)]
    dsimp only
    rw [hsat]
    split
    · exact absurd ‹_› hnan
    · exact ⟨_, hsums, rfl⟩

/-- A float converted to an integer type. -/
theorem floatToInt_spec (t : Ty) {f : Fmt} (m : Rounding) (sat : Bool) (x : Nat) :
    Exact.FloatToInt t.width (tyMin t) (tyMax t) f m sat x (floatToInt t f m sat x) := by
  have hbad : (if tySigned t then lowBits t.width (tyMin t) else 2 ^ t.width - 1) =
      lowBits t.width (if tyMin t < 0 then tyMin t else tyMax t) := by
    cases t <;> decide
  unfold floatToInt Exact.FloatToInt
  dsimp only
  rw [hbad, ← f.term_value, ← lowBits_eq]
  cases f.value x with
  | nan => cases sat <;> rfl
  | inf s => cases sat <;> cases s <;> rfl
  | fin s k e =>
    simp only [FVal.term, roundInt_signedMag, ← clampTo_eq]
    show (if tyMin t ≤ signedNat s (roundNat m s k e) ∧ signedNat s (roundNat m s k e) ≤ tyMax t then _ else _) = _
    split
    · rfl
    · cases sat <;> rfl

theorem floatToInt_lt (t : Ty) (f : Fmt) (m : Rounding) (sat : Bool) (x : Nat) : floatToInt t f m sat x < 2 ^ t.width := by
  have h := floatToInt_spec t (f := f) m sat x
  rw [Exact.FloatToInt] at h
  rw [h]
  exact BitVec.isLt _

/-- An integer converted to a float format. -/
theorem intToFloat_spec {f : Fmt} (hf : f.Standard) (m : Rounding) (sat : Bool) (v : Int) :
    Exact.IntToFloat f m sat v (intToFloat f m sat v) :=
  ⟨_, f.roundsTo_integer hf m v, f.saturated_eq hf m (v := .fin (decide (v < 0)) v.natAbs 0) FVal.noConfusion Iff.rfl⟩

/-! ### CVT (R129) -/

/-- What CVT makes of a real value of a type. -/
def Converts (dst src : Ty) (m : Rounding) (sat : Bool) (x r : Nat) : Prop :=
  if src.isF then
    if dst.isF then Exact.FloatToFloat dst.fmt src.fmt m sat x r
    else Exact.FloatToInt dst.width (tyMin dst) (tyMax dst) src.fmt m sat x r
  else if dst.isF then Exact.IntToFloat dst.fmt m sat (intOf src x) r
  else r = (BitVec.ofInt dst.width (if sat then max (tyMin dst) (min (tyMax dst) (intOf src x)) else intOf src x)).toNat

theorem converts_cvtReal {dst src : Ty} (m : Rounding) (sat : Bool) {x : Nat} (hx : x < 2 ^ src.width) :
    Converts dst src m sat x (cvtReal dst src m sat x) := by
  unfold Converts cvtReal
  dsimp only
  rw [Nat.mod_eq_of_lt hx]
  split
  · split
    · exact Fmt.floatToFloat_convert (Fmt.standard_of_ty dst) (Fmt.standard_of_ty src) m sat x
    · exact floatToInt_spec dst m sat x
  · split
    · exact intToFloat_spec (Fmt.standard_of_ty dst) m sat _
    · rw [← lowBits_eq, ← clampTo_eq]
      cases sat <;> rfl

theorem cvtReal_lt {dst : Ty} (src : Ty) (m : Rounding) (sat : Bool) (x : Nat) : cvtReal dst src m sat x < 2 ^ dst.width := by
  have hf := Fmt.standard_of_ty dst
  unfold cvtReal
  dsimp only
  split
  · split
    · rename_i hdst
      rw [Ty.width_of_isF hdst, Fmt.convert]
      split
      · exact Fmt.convertNaN_lt hf _ _
      · exact Fmt.saturated_lt hf ..
    · exact floatToInt_lt ..
  · split
    · rename_i hdst
      rw [Ty.width_of_isF hdst]
      exact Fmt.saturated_lt hf ..
    · split <;> exact lowBits_lt _ _

theorem intOf_eq {t : Ty} {x : Nat} (hx : x < 2 ^ t.width) :
    intOf t x = if tySigned t then (BitVec.ofNat t.width x).toInt else x := by
  have hpos : 0 < t.width := by cases t <;> decide
  rw [intOf, signedOf_eq_toInt hpos, Nat.mod_eq_of_lt hx]

/-- A value of a real type in the registers that hold it (R68). -/
theorem placed_of_real {t : Ty} {y : Nat} (hy : y < 2 ^ t.width) :
    placed t y = if t = .i8 ∨ t = .i16 then ((BitVec.ofNat t.width y).signExtend 32).toNat else y := by
  cases t with
  | i8 => rfl
  | i16 => rfl
  | _ => exact Nat.mod_eq_of_lt hy

/-- A real type is its own part. -/
theorem partTy_of_real {t : Ty} (h : t.isC = false) : partTy t = t := by
  cases t with
  | c32 | c64 => cases h
  | _ => rfl

/-- The two complex types. -/
theorem Ty.isC_cases {t : Ty} (h : t.isC = true) {P : Ty → Prop} (h32 : P .c32) (h64 : P .c64) : P t := by
  cases t with
  | c32 => exact h32
  | c64 => exact h64
  | _ => cases h

theorem placed_of_isC {t : Ty} (h : t.isC = true) (v : Nat) : placed t v = v % 2 ^ t.width :=
  Ty.isC_cases h (P := fun t => placed t v = v % 2 ^ t.width) rfl rfl

/-- Half a complex type is the type of its parts. -/
theorem widths_of_isC {t : Ty} (h : t.isC = true) :
    t.width = 2 * t.fmt.bits ∧ t.width / 2 = t.fmt.bits ∧ (partTy t).width = t.fmt.bits :=
  Ty.isC_cases h (P := fun t => t.width = 2 * t.fmt.bits ∧ t.width / 2 = t.fmt.bits ∧ (partTy t).width = t.fmt.bits) (by decide) (by decide)

section
variable {dst src : Ty} (m : Rounding) (sat : Bool) {v : Nat} (hv : v < 2 ^ src.width)
include hv

/-- The parts of a value of a complex type. -/
theorem parts_of_isC (hC : src.isC = true) : rePart src.fmt v = v % 2 ^ (src.width / 2) ∧ imPart src.fmt v = v / 2 ^ (src.width / 2) ∧
    rePart src.fmt v < 2 ^ (partTy src).width ∧ imPart src.fmt v < 2 ^ (partTy src).width := by
  obtain ⟨hwidth, hhalf, hpart⟩ := widths_of_isC hC
  have hpair := partsOf_eq (hwidth ▸ hv)
  rw [partsOf, Prod.mk.injEq, ← hhalf] at hpair
  rw [hpart]
  exact ⟨hpair.1, hpair.2, rePart_lt _ _, imPart_lt _ _⟩

/-- CVT to a real type converts the value or its real part. -/
theorem cvtElem_real (hdst : dst.isC = false) :
    Converts dst (partTy src) m sat (if src.isC then v % 2 ^ (src.width / 2) else v) (cvtElem dst src m sat v) := by
  by_cases hsrc : src.isC = true
  · obtain ⟨hre, -, hlt, -⟩ := parts_of_isC hv hsrc
    simp only [cvtElem, hdst, hsrc, Bool.false_eq_true, if_false, if_true, ← hre]
    exact converts_cvtReal m sat hlt
  · have hlt : v < 2 ^ (partTy src).width := by rwa [partTy_of_real (by simpa using hsrc)]
    simp only [cvtElem, hdst, hsrc, Bool.false_eq_true, if_false]
    exact converts_cvtReal m sat hlt

/-- CVT to a complex type converts each part, and makes the imaginary part of a real value 0. -/
theorem cvtElem_complex (hdst : dst.isC = true) : ∃ re im, cvtElem dst src m sat v = re + 2 ^ dst.fmt.bits * im ∧
    re < 2 ^ dst.fmt.bits ∧ cvtElem dst src m sat v < 2 ^ (2 * dst.fmt.bits) ∧
    if src.isC then Converts (partTy dst) (partTy src) m sat (v % 2 ^ (src.width / 2)) re ∧
      Converts (partTy dst) (partTy src) m sat (v / 2 ^ (src.width / 2)) im
    else Converts (partTy dst) (partTy src) m sat v re ∧ im = 0 := by
  obtain ⟨-, -, hpart⟩ := widths_of_isC hdst
  have hlt (y : Nat) : cvtReal (partTy dst) (partTy src) m sat y < 2 ^ dst.fmt.bits := hpart ▸ cvtReal_lt ..
  have hpair {re im : Nat} (hre : re < 2 ^ dst.fmt.bits) (him : im < 2 ^ dst.fmt.bits) : pairOf dst.fmt re im = re + 2 ^ dst.fmt.bits * im := by
    rw [pairOf, Nat.mod_eq_of_lt hre, Nat.mod_eq_of_lt him]
  rw [cvtElem, if_pos hdst]
  by_cases hsrc : src.isC = true
  · obtain ⟨hre, him, hre_lt, him_lt⟩ := parts_of_isC hv hsrc
    simp only [hsrc, if_true, ← hre, ← him]
    exact ⟨_, _, hpair (hlt _) (hlt _), hlt _, (pairOf_parts (hlt _) (hlt _)).2.2, converts_cvtReal m sat hre_lt,
      converts_cvtReal m sat him_lt⟩
  · simp only [hsrc]
    exact ⟨_, _, hpair (hlt _) (Nat.two_pow_pos _), hlt _, (pairOf_parts (hlt _) (Nat.two_pow_pos _)).2.2,
      converts_cvtReal m sat (by rwa [partTy_of_real (by simpa using hsrc)]), rfl⟩

end

/-- Settles O46: each part is rounded once or as R86 asks, and CVT gives each part what R77 asks. -/
theorem complexAndConversionResults : Obligations.ComplexAndConversionResults := by
  unfold Obligations.ComplexAndConversionResults
  intro s b f hrecent hwindow mode gives x
  have hgives {op : LaneOp} {i : Instr} {P : Nat → Nat → Prop} (r : Result) (g : LaneCtx → Nat → Nat)
      (harm : exec i s = r) (hr : r = runLane s op f fun c => c.elementwise (g c))
      (hslot : (op.slots f).1 = .lane f.ty.regs (1 < f.ty.regs))
      (hP : ∀ lane, P lane (placed f.ty (g (s.laneCtx b op f) lane))) : gives op i P := by
    intro hissues
    obtain ⟨u, hrun, hu⟩ := exists_runLane_toLanes hissues hrecent hwindow hslot g
    refine ⟨u, harm.trans (hr.trans hrun), fun lane hlane hactive => ?_⟩
    have hnumber : (((List.range f.ty.regs).map fun k => 2 ^ (32 * k) * (u.laneRegister lane (f.dst.toNat + k)).toNat).sum) =
        placed f.ty (g (s.laneCtx b op f) lane) := hu lane hlane hactive
    rw [hnumber]
    exact hP lane
  clear_value gives
  refine ⟨fun hC => ?_, ?_⟩
  · intro t h m parts pair negated
    have hf : t.Standard := Fmt.standard_of_ty f.ty
    obtain ⟨hwidth, hh, -⟩ : f.ty.width = 2 * t.bits ∧ h = t.bits ∧ _ := widths_of_isC hC
    have hplaced (v : Nat) : placed f.ty v = v % 2 ^ (2 * t.bits) := hwidth ▸ placed_of_isC hC v
    have hparts (op : LaneOp) (code : BitVec 8) (lane : Nat) : parts (x op code lane) = partsOf t (x op code lane) := by
      rw [partsOf_eq (hwidth ▸ LaneCtx.value_lt ..), ← hh]
    have hpair {op : LaneOp} {i : Instr} {P : (x y z : Nat × Nat) → (re im : Nat) → Prop} (r : Result) (g : LaneCtx → Nat → Nat)
        (harm : exec i s = r) (hr : r = runLane s op f fun c => c.elementwise (g c))
        (hslot : (op.slots f).1 = .lane f.ty.regs (1 < f.ty.regs))
        (hP : ∀ lane, let c := s.laneCtx b op f
          PairOf t (P (partsOf t (c.a lane)) (partsOf t (c.b' lane)) (partsOf t (c.c' lane))) (g c lane)) : pair op i P := by
      refine hgives r g harm hr hslot fun lane => ?_
      obtain ⟨hre, hlt⟩ := (hP lane).parts
      rw [hparts, hparts, hparts, hplaced, Nat.mod_eq_of_lt hlt, hh]
      exact hre
    have hmode {op : LaneOp} (hop : op.roundingCode f = some (f.imm.toNat % 8)) : (s.laneCtx b op f).mode = m :=
      State.laneCtx_mode hop
    obtain ⟨hF, hZ⟩ : ¬f.ty.isF = true ∧ f.ty.isZ = false := Ty.isC_cases hC (P := fun t => ¬t.isF = true ∧ t.isZ = false) (by decide) (by decide)
    have harith {op : LaneOp} (hop : op.roundingCode f = if f.ty.isZ then none else some (f.imm.toNat % 8)) :
        (s.laneCtx b op f).mode = m := hmode (by rw [hop, hZ, if_neg Bool.false_ne_true])
    have hneg (v : Nat) : negated v (t.neg v) := t.realOp_nanFirst fun _ => by rw [Fmt.flip, hh, Fmt.bits, Nat.add_sub_cancel]
    clear_value pair
    refine ⟨hpair (execLaneAdd f s) _ rfl rfl rfl fun lane => ?_, hpair (execLaneSub f s) _ rfl rfl rfl fun lane => ?_,
      hpair (execLaneNeg f s) _ rfl rfl rfl fun lane => ?_, hpair (execLaneConj f s) _ rfl rfl rfl fun lane => ?_,
      hpair (execLaneMul f s) _ rfl rfl rfl fun lane => ?_, hpair (execLaneFma f s) _ rfl rfl rfl fun lane => ?_,
      hpair (execLaneDiv f s) _ rfl rfl rfl fun lane => ?_⟩
    all_goals
      intro c
      have hre := rePart_lt t
      have him := imPart_lt t
    · rw [addElem, if_neg hF, if_pos hC, harith rfl]
      exact ⟨_, _, rfl, t.add_lt hf m (hre _) (hre _), t.add_lt hf m (him _) (him _), t.adds_add hf m _ _, t.adds_add hf m _ _⟩
    · rw [subElem, if_neg hF, if_pos hC, harith rfl]
      exact ⟨_, _, rfl, t.sub_lt hf m (hre _) (hre _), t.sub_lt hf m (him _) (him _), t.subtracts_sub hf m _ _,
        t.subtracts_sub hf m _ _⟩
    · rw [negElem, if_neg hF, if_pos hC]
      exact ⟨_, _, rfl, t.neg_lt hf (hre _), t.neg_lt hf (him _), hneg _, hneg _⟩
    · exact ⟨_, _, rfl, hre _, t.neg_lt hf (him _), rfl, hneg _⟩
    · rw [mulElem, if_neg hF, if_pos hC, harith rfl]
      exact complexFma_pairOf hf m b.nvr.toNat _ _ none
    · rw [fmaElem, if_pos hC, hmode rfl]
      exact complexFma_pairOf hf m b.nvr.toNat _ _ (some _)
    · rw [divElem, if_pos hC, hmode rfl]
      exact complexDiv_pairOf hf m _ _
  · intro src m sat signed lo hi part real
    have hpart : part = partTy := by funext t; cases t <;> rfl
    clear_value part
    subst hpart
    have hsigned (t : Ty) : signed t = tySigned t := by cases t <;> rfl
    have hlo (t : Ty) : lo t = tyMin t := by simp only [lo, hsigned, tyMin]
    have hhi (t : Ty) : hi t = tyMax t := by simp only [hi, hsigned, tyMax]
    have hreal {v r : Nat} (hv : v < 2 ^ (partTy src).width) (h : Converts (partTy f.ty) (partTy src) m sat v r) : real v r := by
      rw [Converts, intOf_eq hv] at h
      simp only [real, hlo, hhi, hsigned]
      exact h
    clear_value real
    refine hgives (execLaneCvt f s) _ rfl rfl rfl fun lane => ?_
    have hmode : (s.laneCtx b .cvt f).mode = m := State.laneCtx_mode rfl
    have hv : (s.laneCtx b .cvt f).value lane f.a src < 2 ^ src.width := LaneCtx.value_lt ..
    rw [hmode]
    intro v half
    have hre_lt (hsrc : src.isC = true) : v % 2 ^ half < 2 ^ (partTy src).width := by
      obtain ⟨hre, -, hlt, -⟩ := parts_of_isC hv hsrc
      exact hre ▸ hlt
    have him_lt (hsrc : src.isC = true) : v / 2 ^ half < 2 ^ (partTy src).width := by
      obtain ⟨-, him, -, hlt⟩ := parts_of_isC hv hsrc
      exact him ▸ hlt
    have hwhole (hsrc : ¬src.isC = true) : v < 2 ^ (partTy src).width := by rwa [partTy_of_real (by simpa using hsrc)]
    by_cases hdst : f.ty.isC = true
    · obtain ⟨hwidth, hhalf, -⟩ := widths_of_isC hdst
      obtain ⟨re, im, heq, hre, hlt, hparts⟩ := cvtElem_complex m sat hv hdst
      have hplaced : placed f.ty (cvtElem f.ty src m sat v) = cvtElem f.ty src m sat v := by
        rw [placed_of_isC hdst, Nat.mod_eq_of_lt (hwidth ▸ hlt)]
      rw [if_pos hdst, hhalf]
      refine ⟨re, im, hplaced.trans heq, hre, ?_⟩
      split
      · rename_i hsrc
        rw [if_pos hsrc] at hparts
        exact ⟨hreal (hre_lt hsrc) hparts.1, hreal (him_lt hsrc) hparts.2⟩
      · rename_i hsrc
        rw [if_neg hsrc] at hparts
        exact ⟨hreal (hwhole hsrc) hparts.1, hparts.2⟩
    · have hdst' : f.ty.isC = false := by simpa using hdst
      have hspec := cvtElem_real m sat hv hdst'
      have hlt : cvtElem f.ty src m sat v < 2 ^ f.ty.width := by
        rw [cvtElem, if_neg hdst]
        exact cvtReal_lt ..
      rw [if_neg hdst]
      refine ⟨_, hreal ?_ ?_, placed_of_real hlt⟩
      case refine_2 => rwa [partTy_of_real hdst']
      split
      · exact hre_lt ‹_›
      · exact hwhole ‹_›

end Sys2Proof.Machine
end

section
/-!
SUPPORT. A party of one lane, which is no whole word of 32 lanes: a matrix instruction computes whole words (R137) and writes
nothing there.
-/
namespace Sys2Proof.Machine

/-- A block whose mask register p0 has lane 0. -/
def laneZeroBlock : Block where
  first := 0
  len := 1
  lrun := 0
  s := Vector.replicate 64 0
  p := Vector.replicate 8 1
  dl := Vector.replicate 4 0
  rnd := 0
  nvr := 2
  order := 1

/-- A running party of one lane with this block at the head of its queue; lane register 3, the exponent of row 0 of operand a,
holds 255 and every other lane register 0. -/
def oneLaneState : State :=
  { State.reset with
    launches := [{ Launch.blank with header := { Launch.blank.header with depth := 128 } }]
    party := { Party.blank with
      life := .running, width := 1, fresh := 1024, regs := [(regKey 0 3, 255)], queue := [laneZeroBlock] } }

/-- MMAB of lane registers 0 and 4 onto lane register 8, into lane register 16. -/
def oneLaneMmab : LaneF :=
  { ty := .mx, dst := 16, a := 0, b := 4, c := 8, imm := 0, pred := 0, neg := false, dl := 0, hint := 0, set := 15, wait := 0, gap := 0 }

/-- Register `n` of lane 0 of the party in focus after a step. -/
def Result.laneZeroRegister (n : Nat) : Result → Option (BitVec 32)
  | .next t => some (t.laneRegister 0 n)
  | _ => none

/-- The instruction issues and leaves register 16 of lane 0, where element 0 of vd stands, at 0. -/
theorem laneZeroRegister_mmab : Result.laneZeroRegister 16 (exec (.mmab oneLaneMmab) oneLaneState) = some 0 := by
  decide +kernel

theorem oneLaneMmab_issues : oneLaneState.laneIssues laneZeroBlock .mmab oneLaneMmab :=
  ⟨⟨[], rfl⟩, by decide +kernel⟩

/-- Refutes O47: it takes parties of every width, and in a party of one lane MMAB leaves vd as it was, where R142 asks of its
element 0, in lane 0, the default NaN for an exponent of 255.  A width of R23 is a multiple of 32, of which the statement has no
hypothesis. -/
theorem not_matrixResults : ¬ Obligations.MatrixResults := by
  unfold Obligations.MatrixResults
  intro h
  obtain ⟨-, -, -, hmmab⟩ := h oneLaneState laneZeroBlock oneLaneMmab rfl rfl rfl (by decide +kernel)
  obtain ⟨u, hexec, hu⟩ := hmmab oneLaneMmab_issues trivial
  have hnan := hu 0 0 (by decide) (by decide +kernel) (by decide +kernel)
  have hexponent : (oneLaneState.laneRegister (32 * 0 + 0 / 8) (oneLaneMmab.a.toNat + 3)).toNat % 256 = 255 := by decide +kernel
  dsimp only at hnan
  rw [if_pos (Or.inl hexponent)] at hnan
  have hkept : u.laneRegister 0 16 = 0 := by
    have hstep := laneZeroRegister_mmab
    rw [hexec] at hstep
    exact Option.some.inj hstep
  have hheld : (u.laneRegister 0 16).toNat = Fmt.f32.defaultNaN := by simpa [oneLaneMmab] using hnan
  rw [hkept] at hheld
  exact absurd hheld (by decide)

end Sys2Proof.Machine
end

section
/-!
SUPPORT. Cross-lane instructions (R87, R126, R127, R131 to R136): what a lane instruction leaves in a register or in a mask register,
bit by bit, and the folds and scans of the values of the active lanes.
-/
namespace Sys2Proof.Machine

/-! ### Results of a type, and marks -/

theorem ofNat_mod (n v : Nat) : BitVec.ofNat n (v % 2 ^ n) = BitVec.ofNat n v := BitVec.eq_of_toNat_eq (by simp)

/-- The registers of a result hold its bits, narrow types extended. -/
theorem ofNat_placed (t : Ty) (v : Nat) : BitVec.ofNat t.width (placed t v) = BitVec.ofNat t.width v := by
  have hsigned {n : Nat} (hn : n ≤ 32) : BitVec.ofNat n ((BitVec.ofNat n v).signExtend 32).toNat = BitVec.ofNat n v := by
    ext i hi
    rw [BitVec.ofNat_toNat, BitVec.getElem_setWidth, BitVec.getLsbD_signExtend, if_pos hi, BitVec.getLsbD_eq_getElem hi]
    simp
    omega
  cases t with
  | i8 => exact hsigned (by decide)
  | i16 => exact hsigned (by decide)
  | _ => exact ofNat_mod _ _

/-- The low bits of vd of each active lane are those of the value that the instruction writes there. -/
theorem exists_runLane_bits {s : State} {b : Block} {op : LaneOp} {f : LaneF} (h : s.laneIssues b op f) (hrecent : s.party.recent = [])
    (hwindow : s.party.b + (s.home s.party).header.window ≤ 1024) {t : Ty} {even : Bool}
    (hslot : (op.slots f).1 = .lane t.regs even) (g : LaneCtx → Nat → Nat) :
    ∃ u, runLane s op f (fun c => c.toLanes t (g c)) = .next u ∧ ∀ lane, lane < s.party.width →
      (s.laneCtx b op f).active.getLsbD lane = true →
      BitVec.ofNat t.width (u.laneNumber lane f.dst.toNat 4) = BitVec.ofNat t.width (g (s.laneCtx b op f) lane) := by
  obtain ⟨u, hrun, hu⟩ := exists_runLane_toLanes h hrecent hwindow hslot g
  have hregs : t.regs ≤ 4 ∧ t.width ≤ 32 * t.regs := by cases t <;> decide
  refine ⟨u, hrun, fun lane hlane hactive => ?_⟩
  rw [← ofNat_mod, State.laneNumber_mod u lane _ hregs.1 hregs.2, hu lane hlane hactive, ofNat_mod, ofNat_placed]

theorem getLsbD_laneBit (k l : Nat) : (laneBit k).getLsbD l = (decide (l < 1024) && decide (l = k)) := by
  have hbit : laneBit k = BitVec.ofNat 1024 (2 ^ k) := congrArg (BitVec.ofNat 1024) (Nat.one_shiftLeft k)
  rw [hbit, BitVec.getLsbD_ofNat, Nat.testBit_two_pow]
  simp only [eq_comm]

/-- A mask of some lanes has their bits. -/
theorem getLsbD_maskOf (ls : List Nat) {l : Nat} (hl : l < 1024) : (maskOf ls).getLsbD l = decide (l ∈ ls) := by
  have hfold (m : Mask) : (ls.foldl (fun m l => m ||| laneBit l) m).getLsbD l = (m.getLsbD l || decide (l ∈ ls)) := by
    induction ls generalizing m with
    | nil => simp
    | cons x xs ih =>
      rw [List.foldl_cons, ih, BitVec.getLsbD_or, getLsbD_laneBit, decide_eq_true hl, Bool.true_and, Bool.or_assoc]
      congr 1
      rw [Bool.eq_iff_iff]
      simp
  rw [maskOf, hfold]
  simp

/-- The bit of each active lane in the mask register of dst is the one that the instruction gives it; the others stay. -/
theorem exists_runLane_marks {s : State} {b : Block} {op : LaneOp} {f : LaneF} (h : s.laneIssues b op f)
    (hwidth : s.party.width ≤ 1024) (hslot : (op.slots f).1 = .maskNumber) (g : LaneCtx → Nat → Bool) :
    ∃ u, runLane s op f (fun c => c.toMask (g c)) = .next u ∧ ∀ lane, lane < s.party.width →
      (u.party.mask (f.dst.setWidth 3)).getLsbD lane = if (s.laneCtx b op f).active.getLsbD lane = true then
        g (s.laneCtx b op f) lane else (s.party.mask (f.dst.setWidth 3)).getLsbD lane := by
  obtain ⟨-, hadmits, -⟩ := LaneOp.of_check h.2.2.1
  have hdst : f.dst.toNat < 8 := by simpa [hslot, Slot.admits] using hadmits
  refine ⟨_, runLane_of_issues h _, fun lane hlane => ?_⟩
  have hnumber : (f.dst.setWidth 3).toNat = f.dst.toNat := by simp; omega
  rw [LaneCtx.mask_finish (n := f.dst.setWidth 3) (by rw [hnumber]; rfl)]
  by_cases hactive : (s.laneCtx b op f).active.getLsbD lane = true
  · rw [if_pos ⟨rfl, hactive⟩, if_pos hactive, getLsbD_maskOf _ (by omega), Bool.eq_iff_iff, decide_eq_true_eq, List.mem_filter,
      mem_lanesOf]
    exact ⟨fun h => h.2, fun hg => ⟨⟨hlane, hactive⟩, hg⟩⟩
  · rw [if_neg fun h => hactive h.2, if_neg hactive]
    rfl

/-- Without uncertain writers an instruction reads the masks of its block. -/
theorem LaneCtx.mask_of_recent {c : LaneCtx} (h : c.p.recent = []) {n : Nat} (hn : n < 8) : c.mask n = c.b.p[n] := by
  simp [LaneCtx.mask, h, hn]

theorem Party.getLsbD_allLanes {p : Party} (hwidth : p.width ≤ 1024) {l : Nat} (hl : l < p.width) : p.allLanes.getLsbD l = true := by
  rw [Party.allLanes, BitVec.getLsbD_ofNat, Nat.testBit_two_pow_sub_one]
  simp
  omega

/-! ### The active lanes -/

theorem upTo_eq_range' (a n : Nat) : upTo a n = List.range' a n := by
  induction n generalizing a with
  | zero => rfl
  | succ n ih => rw [upTo, ih, List.range'_succ]

theorem lanesOf_eq (m : Mask) (w : Nat) : lanesOf m w = (List.range w).filter fun l => decide (l < w) && m.getLsbD l := by
  rw [lanesOf, upTo_eq_range', ← List.range_eq_range']
  exact List.filter_congr fun l hl => by simp [List.mem_range.mp hl]

/-- The active lanes before an active lane, that lane, and those after it. -/
theorem filter_range_split {on : Nat → Bool} {w lane : Nat} (hlane : lane < w) (hon : on lane = true) :
    ∃ rest, (List.range w).filter on = (List.range lane).filter on ++ lane :: rest := by
  obtain ⟨k, rfl⟩ := Nat.exists_eq_add_of_lt hlane
  refine ⟨((List.range k).map fun i => lane + (1 + i)).filter on, ?_⟩
  rw [Nat.add_assoc, List.range_add, List.filter_append, Nat.add_comm k 1, List.range_add, List.map_append, List.filter_append]
  simp [hon, Function.comp_def]

theorem not_mem_filter_range (on : Nat → Bool) (lane : Nat) : lane ∉ (List.range lane).filter on := by simp

/-- What a table of lanes and values gives a lane. -/
theorem get_zip {lane : Nat} {rest : List Nat} : ∀ {pre : List Nat}, lane ∉ pre → ∀ ys : List Nat,
    Table.get 0 ((pre ++ lane :: rest).zip ys) lane = ys[pre.length]?.getD 0
  | [], _, [] => rfl
  | [], _, y :: ys => by simp [Table.get]
  | x :: pre, _, [] => by simp [Table.get]
  | x :: pre, h, y :: ys => by
    obtain ⟨hx, hpre⟩ := List.ne_and_not_mem_of_not_mem_cons h
    rw [List.cons_append, List.zip_cons_cons, Table.get, if_neg hx, get_zip hpre]
    rfl

/-! ### Folds and scans (R87) -/

/-- The value that a running combination has reached after some values, before which it stands at the exclusive start. -/
def scanValue (t : Ty) (m : Rounding) (op : Nat) : List Nat → Nat
  | [] => scanStart t op
  | x :: xs => xs.foldl (combine t m op) (if t.isF && op != 0 then combine t m op x x else x)

theorem scanLine_getElem? (g : Nat → Nat → Nat) : ∀ (acc : Nat) (xs : List Nat) (k : Nat), k < xs.length →
    (scanLine g acc xs)[k]? = some ((xs.take (k + 1)).foldl g acc)
  | _, x :: xs, 0, _ => by simp [scanLine]
  | acc, x :: xs, k + 1, h => by
    rw [scanLine, List.getElem?_cons_succ, scanLine_getElem? g _ xs k (by simpa using h), List.take_succ_cons, List.foldl_cons]

/-- The exclusive start and the inclusive results after it are the values reached, one by one. -/
theorem scanAll_getElem? {t : Ty} (m : Rounding) {nvr op : Nat} (h : (t.isF && op == 0 && nvr == 2) = false) (xs : List Nat) {k : Nat}
    (hk : k ≤ xs.length) : (scanStart t op :: scanAll t m nvr op xs)[k]? = some (scanValue t m op (xs.take k)) := by
  cases k with
  | zero => rfl
  | succ k =>
    match xs with
    | x :: xs =>
      have hk' : k ≤ xs.length := by simpa using hk
      unfold scanAll
      rw [h]
      dsimp only
      rw [if_neg Bool.false_ne_true, List.getElem?_cons_succ, List.take_succ_cons, scanValue]
      cases k with
      | zero => rfl
      | succ k => rw [List.getElem?_cons_succ, scanLine_getElem? _ _ _ _ hk']

/-- A combination of values carried over to another representation of them. -/
theorem foldl_carried {α β : Type} {P : α → Prop} {φ : α → β} {g : α → α → α} {G : β → β → β}
    (hclosed : ∀ a b, P a → P b → P (g a b)) (hcarry : ∀ a b, P a → P b → φ (g a b) = G (φ a) (φ b)) :
    ∀ {l : List α} {a : α}, P a → (∀ b ∈ l, P b) → φ (l.foldl g a) = (l.map φ).foldl G (φ a)
  | [], _, _, _ => rfl
  | b :: l, a, ha, hl => by
    obtain ⟨hb, hl⟩ := List.forall_mem_cons.mp hl
    rw [List.foldl_cons, foldl_carried hclosed hcarry (hclosed a b ha hb) hl, hcarry a b ha hb, List.map_cons, List.foldl_cons]

/-! ### The least and the greatest number (R87) -/

/-- The combination of the values that are numbers, or the default NaN. -/
def Fmt.numbersFold (f : Fmt) (g : Nat → Nat → Nat) (xs : List Nat) : Nat :=
  match xs.filter fun x => !f.isNaN x with
  | [] => f.defaultNaN
  | v :: vs => vs.foldl g v

/-- A combination that passes NaNs over: what it makes of two NaNs, of a NaN and a number, and of two numbers. -/
structure Fmt.PassesNaNs (f : Fmt) (g : Nat → Nat → Nat) : Prop where
  both {a b : Nat} (ha : f.isNaN a = true) (hb : f.isNaN b = true) : g a b = f.defaultNaN
  left {a b : Nat} (ha : f.isNaN a = true) (hb : f.isNaN b = false) : g a b = b
  right {a b : Nat} (ha : f.isNaN a = false) (hb : f.isNaN b = true) : g a b = a
  number {a b : Nat} (ha : f.isNaN a = false) (hb : f.isNaN b = false) : g a b = a ∨ g a b = b

theorem Fmt.isNaN_defaultNaN {f : Fmt} (hf : f.Standard) : f.isNaN f.defaultNaN = true := by
  rw [Fmt.isNaN, Fmt.magnitude, Nat.mod_eq_of_lt (f.defaultNaN_lt hf), Fmt.defaultNaN, decide_eq_true_eq]
  exact Nat.lt_add_of_pos_right (Nat.two_pow_pos _)

theorem Fmt.passesNaNs_minNumber (f : Fmt) : f.PassesNaNs f.minNumber where
  both ha hb := by simp [Fmt.minNumber, ha, hb]
  left ha hb := by simp [Fmt.minNumber, ha, hb]
  right ha hb := by simp [Fmt.minNumber, ha, hb]
  number {a b} ha hb := by
    rw [Fmt.minNumber, ha, hb]
    exact ite_eq_or_eq _ a b

theorem Fmt.passesNaNs_maxNumber (f : Fmt) : f.PassesNaNs f.maxNumber where
  both ha hb := by simp [Fmt.maxNumber, ha, hb]
  left ha hb := by simp [Fmt.maxNumber, ha, hb]
  right ha hb := by simp [Fmt.maxNumber, ha, hb]
  number {a b} ha hb := by
    rw [Fmt.maxNumber, ha, hb]
    exact (ite_eq_or_eq _ b a).symm

section
variable {f : Fmt} {g : Nat → Nat → Nat} (hg : f.PassesNaNs g)
include hg

/-- A NaN that comes of two values is the default NaN. -/
theorem Fmt.PassesNaNs.combined_nan (a b : Nat) (h : f.isNaN (g a b) = true) : g a b = f.defaultNaN := by
  cases ha : f.isNaN a with
  | true =>
    cases hb : f.isNaN b with
    | true => exact hg.both ha hb
    | false => rw [hg.left ha hb, hb] at h; cases h
  | false =>
    cases hb : f.isNaN b with
    | true => rw [hg.right ha hb, ha] at h; cases h
    | false => rcases hg.number ha hb with hpick | hpick <;> rw [hpick] at h <;> simp_all

variable (hf : f.Standard)
include hf

/-- Two values combined count as the one that they make. -/
theorem Fmt.numbersFold_combined (a b : Nat) (xs : List Nat) : f.numbersFold g (g a b :: xs) = f.numbersFold g (a :: b :: xs) := by
  have hnan := f.isNaN_defaultNaN hf
  unfold Fmt.numbersFold
  cases ha : f.isNaN a with
  | true =>
    cases hb : f.isNaN b with
    | true => simp [hg.both ha hb, hnan, ha, hb]
    | false => simp [hg.left ha hb, ha, hb]
  | false =>
    cases hb : f.isNaN b with
    | true => simp [hg.right ha hb, ha, hb]
    | false =>
      have hnumber : f.isNaN (g a b) = false := by rcases hg.number ha hb with h | h <;> rw [h] <;> assumption
      simp [hnumber, ha, hb]

/-- A fold from a number or the default NaN. -/
theorem Fmt.foldl_eq_numbersFold : ∀ {xs : List Nat} {a : Nat}, (f.isNaN a = true → a = f.defaultNaN) →
    xs.foldl g a = f.numbersFold g (a :: xs)
  | [], a, h => by
    unfold Fmt.numbersFold
    cases ha : f.isNaN a with
    | true => simpa [ha] using h ha
    | false => simp [ha]
  | b :: xs, a, h => by
    rw [List.foldl_cons, Fmt.foldl_eq_numbersFold (hg.combined_nan a b), Fmt.numbersFold_combined hg hf]

end

end Sys2Proof.Machine
end

section
/-!
SUPPORT. The tests of CMP and the combinations of RED and SCAN carried over from numbers to bit vectors, and the results of the
cross-lane instructions.
-/
namespace Sys2Proof.Machine

/-! ### Tests (R126) -/

/-- A test by what it needs to know: whether the first value is less, and whether the two are equal. -/
def orderTest (k : Nat) (lt eq : Bool) : Bool :=
  match k with
  | 0 => eq | 1 => !eq | 2 => lt | 3 => lt || eq | 4 => !(lt || eq) | _ => !lt

/-- A test of values that may be NaNs. -/
def numberTest (k : Nat) (bad : Bool) (p q : Int) : Bool :=
  match k with
  | 1 => bad || p != q
  | 6 => !bad
  | 7 => bad
  | _ => !bad && orderTest k (decide (p < q)) (p == q)

theorem intTest_eq (k : Nat) (p q : Int) : intTest k p q = orderTest k (decide (p < q)) (p == q) := by
  have hle : decide (p ≤ q) = (decide (p < q) || p == q) := by
    rw [Bool.eq_iff_iff]; simp; omega
  have hgt : decide (q < p) = !(decide (p < q) || p == q) := by
    rw [← hle, Bool.eq_iff_iff]; simp
  have hge : decide (q ≤ p) = !decide (p < q) := by
    rw [Bool.eq_iff_iff]; simp
  match k with
  | 0 | 1 | 2 => rfl
  | 3 => exact hle
  | 4 => exact hgt
  | _ + 5 => exact hge

/-- A pattern of a float format as a number in units of its last place. -/
def Fmt.place (f : Fmt) (x : Nat) : Int := if f.negative x then -(f.magnitude x : Int) else f.magnitude x

theorem Fmt.test_eq (f : Fmt) {k : Nat} (hk : k < 8) (a b : Nat) :
    f.test k a b = numberTest k (f.isNaN a || f.isNaN b) (f.place a) (f.place b) := by
  have hint := fun k => intTest_eq k (f.place a) (f.place b)
  unfold numberTest
  interval_cases k <;> simp only [← hint] <;> rfl

/-! ### Patterns as bit vectors -/

theorem Fmt.isNaN_eq_of_bits (f : Fmt) {n a : Nat} (hn : n = f.bits) (ha : a < 2 ^ n) :
    decide (2 ^ (n - 1) - 2 ^ f.frac < (BitVec.ofNat n a).toNat % 2 ^ (n - 1)) = f.isNaN a := by
  have hsgn : n - 1 = f.frac + f.exp := by rw [hn, Fmt.bits, Nat.add_sub_cancel]
  rw [BitVec.toNat_ofNat, Nat.mod_eq_of_lt ha, hsgn, ← f.infinity_add, Nat.add_sub_cancel, f.infinity_add]
  rfl

theorem Fmt.place_eq_of_bits (f : Fmt) {n a : Nat} (hn : n = f.bits) (ha : a < 2 ^ n) :
    (if (BitVec.ofNat n a).msb then -(((BitVec.ofNat n a).toNat - 2 ^ (n - 1) : Nat) : Int) else (BitVec.ofNat n a).toNat) = f.place a := by
  have hsgn : n - 1 = f.frac + f.exp := by rw [hn, Fmt.bits, Nat.add_sub_cancel]
  rw [BitVec.msb_eq_decide, BitVec.toNat_ofNat, Nat.mod_eq_of_lt ha, hsgn, Fmt.place]
  rcases lt_or_ge a (2 ^ (f.frac + f.exp)) with h | h
  · obtain ⟨hmag, hneg⟩ := f.magnitude_of_lt h
    simp [hmag, hneg, h]
  · obtain ⟨hmag, hneg⟩ := f.magnitude_of_ge h (hn ▸ ha)
    simp [hmag, hneg, h]

theorem Fmt.negative_eq_of_bits (f : Fmt) {n a : Nat} (hn : n = f.bits) (ha : a < 2 ^ n) : (BitVec.ofNat n a).msb = f.negative a := by
  have hsgn : n - 1 = f.frac + f.exp := by rw [hn, Fmt.bits, Nat.add_sub_cancel]
  rw [BitVec.msb_eq_decide, BitVec.toNat_ofNat, Nat.mod_eq_of_lt ha, hsgn]
  rcases lt_or_ge a (2 ^ (f.frac + f.exp)) with h | h
  · simp [f.magnitude_of_lt h, h]
  · simp [f.magnitude_of_ge h (hn ▸ ha), h]

theorem Fmt.key_eq_place (f : Fmt) (a : Nat) : f.key a = if f.negative a then f.place a - 1 else f.place a := by
  unfold Fmt.key Fmt.place
  split <;> rfl

/-! ### Integers as bit vectors -/

theorem Ty.isZ_cases {t : Ty} (h : t.isZ = true) {P : Ty → Prop} (hi32 : P .i32) (hi64 : P .i64) (hn32 : P .n32) (hn64 : P .n64) :
    P t := by
  cases t with
  | i32 => exact hi32
  | i64 => exact hi64
  | n32 => exact hn32
  | n64 => exact hn64
  | _ => cases h

/-- A combination of two integers, on bit vectors, by how they are read as numbers (R87). -/
def joinBits {n : Nat} (value : BitVec n → Int) (op : Nat) (v y : BitVec n) : BitVec n :=
  match op with
  | 0 => v + y
  | 1 => if value v ≤ value y then v else y
  | 2 => if value v ≤ value y then y else v
  | 3 => v &&& y
  | 4 => v ||| y
  | _ => v ^^^ y

theorem combine_lt {t : Ty} (hF : t.isF = false) (m : Rounding) (op : Nat) {a b : Nat} (ha : a < 2 ^ t.width) (hb : b < 2 ^ t.width) :
    combine t m op a b < 2 ^ t.width := by
  have hpick {p : Prop} [Decidable p] {x y : Nat} (hx : x < 2 ^ t.width) (hy : y < 2 ^ t.width) :
      (if p then x else y) < 2 ^ t.width := by split <;> assumption
  unfold combine
  rw [if_neg (by simp [hF])]
  split
  · exact Nat.mod_lt _ (Nat.two_pow_pos _)
  · rw [minElem, if_neg (by simp [hF])]
    exact hpick ha hb
  · rw [maxElem, if_neg (by simp [hF])]
    exact hpick hb ha
  · exact Nat.and_lt_two_pow _ hb
  · exact Nat.or_lt_two_pow ha hb
  · exact Nat.xor_lt_two_pow ha hb

/-- A combination of integers is that of their bits. -/
theorem ofNat_combine {t : Ty} (hF : t.isF = false) (m : Rounding) (op : Nat) {value : BitVec t.width → Int}
    (hvalue : ∀ a, a < 2 ^ t.width → value (BitVec.ofNat t.width a) = intOf t a) {a b : Nat} (ha : a < 2 ^ t.width) (hb : b < 2 ^ t.width) :
    BitVec.ofNat t.width (combine t m op a b) = joinBits value op (BitVec.ofNat t.width a) (BitVec.ofNat t.width b) := by
  unfold combine joinBits
  have hreal : ¬t.isF = true := by simp [hF]
  have hmin : minElem t a b = if intOf t a ≤ intOf t b then a else b := by rw [minElem, if_neg hreal]
  have hmax : maxElem t a b = if intOf t a ≤ intOf t b then b else a := by rw [maxElem, if_neg hreal]
  rw [if_neg hreal, hvalue a ha, hvalue b hb, hmin, hmax]
  match op with
  | 0 => exact (ofNat_mod _ _).trans (BitVec.ofNat_add _ _)
  | 1 => exact apply_ite (BitVec.ofNat t.width) _ _ _
  | 2 => exact apply_ite (BitVec.ofNat t.width) _ _ _
  | 3 => exact BitVec.ofNat_and
  | 4 => exact BitVec.ofNat_or
  | _ + 5 => exact BitVec.ofNat_xor

/-- A pattern is known by the integer that it is read as. -/
theorem intOf_inj {t : Ty} {a b : Nat} (ha : a < 2 ^ t.width) (hb : b < 2 ^ t.width) (h : intOf t a = intOf t b) : a = b := by
  rw [intOf_eq ha, intOf_eq hb] at h
  split at h
  · rw [← Nat.mod_eq_of_lt ha, ← Nat.mod_eq_of_lt hb, ← BitVec.toNat_ofNat, ← BitVec.toNat_ofNat, BitVec.toInt_inj.mp h]
  · exact_mod_cast h

theorem intOf_bounds {t : Ty} (hZ : t.isZ = true) (a : Nat) : tyMin t ≤ intOf t a ∧ intOf t a ≤ tyMax t := by
  refine Ty.isZ_cases hZ (P := fun t => tyMin t ≤ intOf t a ∧ intOf t a ≤ tyMax t) ?_ ?_ ?_ ?_
  all_goals
    simp only [tyMin, tyMax, intOf, signedOf, tySigned, Ty.width, Ty.bytes, if_true, Bool.false_eq_true, if_false]
    norm_num
    omega

theorem intOf_scanStart {t : Ty} (hZ : t.isZ = true) : intOf t (scanStart t 1) = tyMax t ∧ intOf t (scanStart t 2) = tyMin t :=
  Ty.isZ_cases hZ (P := fun t => intOf t (scanStart t 1) = tyMax t ∧ intOf t (scanStart t 2) = tyMin t) (by decide) (by decide)
    (by decide) (by decide)

theorem scanStart_lt (t : Ty) (op : Nat) : scanStart t op < 2 ^ t.width := by
  have hpos : 0 < 2 ^ t.width := Nat.two_pow_pos _
  unfold scanStart
  split
  · exact hpos
  · split
    · exact lowBits_lt ..
    · exact lowBits_lt ..
    · exact Nat.sub_lt hpos Nat.one_pos
    · exact hpos

/-- What the combination starts from leaves every value as it is. -/
theorem combine_scanStart {t : Ty} (hZ : t.isZ = true) (m : Rounding) (op : Nat) {a : Nat} (ha : a < 2 ^ t.width) :
    combine t m op (scanStart t op) a = a := by
  have hreal : ¬t.isF = true := Ty.isZ_cases hZ (P := fun t => ¬t.isF = true) (by decide) (by decide) (by decide) (by decide)
  obtain ⟨hlow, hhigh⟩ := intOf_bounds hZ a
  obtain ⟨hgreatest, hleast⟩ := intOf_scanStart hZ
  have hzero (k : Nat) (hk : k ≠ 1 ∧ k ≠ 2 ∧ k ≠ 3) : scanStart t k = 0 := by
    unfold scanStart
    rw [if_neg hreal]
    split <;> simp_all
  unfold combine
  rw [if_neg hreal]
  match op with
  | 0 =>
    show (scanStart t 0 + a) % 2 ^ t.width = a
    rw [hzero 0 (by decide), Nat.zero_add, Nat.mod_eq_of_lt ha]
  | 1 =>
    show minElem t (scanStart t 1) a = a
    rw [minElem, if_neg hreal, hgreatest]
    split
    · exact intOf_inj (scanStart_lt t 1) ha (by omega)
    · rfl
  | 2 =>
    show maxElem t (scanStart t 2) a = a
    rw [maxElem, if_neg hreal, hleast, if_pos hlow]
  | 3 =>
    show scanStart t 3 &&& a = a
    rw [scanStart, if_neg hreal, Nat.and_comm]
    exact (Nat.and_two_pow_sub_one_eq_mod ..).trans (Nat.mod_eq_of_lt ha)
  | 4 =>
    show scanStart t 4 ||| a = a
    rw [hzero 4 (by decide), Nat.zero_or]
  | k + 5 =>
    show scanStart t (k + 5) ^^^ a = a
    rw [hzero (k + 5) (by omega), Nat.zero_xor]

theorem ofNat_scanStart {t : Ty} (hZ : t.isZ = true) (op : Nat) : BitVec.ofNat t.width (scanStart t op) = match op with
    | 1 => if tySigned t then BitVec.intMax t.width else BitVec.allOnes t.width
    | 2 => if tySigned t then BitVec.intMin t.width else 0
    | 3 => BitVec.allOnes t.width
    | _ => 0 := by
  revert hZ
  match op with
  | 0 => cases t <;> decide
  | 1 => cases t <;> decide
  | 2 => cases t <;> decide
  | 3 => cases t <;> decide
  | _ + 4 => cases t <;> simp [scanStart, Ty.isZ, Ty.isF]

end Sys2Proof.Machine
end

section
/-!
SUPPORT. RED and SCAN on a type of F (R87), the places of a scan, and the results of the cross-lane instructions.
-/
namespace Sys2Proof.Machine

/-! ### Least and greatest numbers as bit vectors -/

theorem combine_passesNaNs {t : Ty} (hF : t.isF = true) (m : Rounding) {op : Nat} (hop : op ≠ 0) : t.fmt.PassesNaNs (combine t m op) := by
  have hcombine : combine t m op = if op = 1 then t.fmt.minNumber else t.fmt.maxNumber := by
    funext a b
    unfold combine
    rw [if_pos hF]
    match op, hop with
    | 0, h => exact absurd rfl h
    | 1, _ => rfl
    | _ + 2, _ => rfl
  rw [hcombine]
  split
  · exact t.fmt.passesNaNs_minNumber
  · exact t.fmt.passesNaNs_maxNumber

theorem Fmt.numbersFold_self {f : Fmt} (hf : f.Standard) {g : Nat → Nat → Nat} (hg : f.PassesNaNs g) (a : Nat) (xs : List Nat) :
    f.numbersFold g (g a a :: xs) = f.numbersFold g (a :: xs) := by
  unfold Fmt.numbersFold
  cases ha : f.isNaN a with
  | true => simp [hg.both ha ha, f.isNaN_defaultNaN hf, ha]
  | false => rw [(hg.number ha ha).elim id id]

section
variable {t : Ty} (hF : t.isF = true) (m : Rounding) {op : Nat} (hop : op ≠ 0) {isNaN : BitVec t.width → Bool} {key : BitVec t.width → Int}
  (hnan : ∀ a, a < 2 ^ t.width → isNaN (BitVec.ofNat t.width a) = t.fmt.isNaN a)
  (hkey : ∀ a, a < 2 ^ t.width → key (BitVec.ofNat t.width a) = t.fmt.key a)
include hF hop hkey

/-- The lesser or the greater of two numbers is that of their bits. -/
theorem ofNat_combine_number {a b : Nat} (ha : a < 2 ^ t.width ∧ t.fmt.isNaN a = false) (hb : b < 2 ^ t.width ∧ t.fmt.isNaN b = false) :
    BitVec.ofNat t.width (combine t m op a b) =
      if (key (BitVec.ofNat t.width a) ≤ key (BitVec.ofNat t.width b)) ↔ op = 1 then BitVec.ofNat t.width a else BitVec.ofNat t.width b := by
  unfold combine
  rw [hkey a ha.1, hkey b hb.1, if_pos hF]
  match op, hop with
  | 0, h => exact absurd rfl h
  | 1, _ =>
    simp only [Fmt.minNumber, ha.2, hb.2, Bool.and_self, Bool.false_eq_true, if_false, iff_true]
    exact apply_ite ..
  | k + 2, _ =>
    have hne : ¬k + 2 = 1 := by omega
    simp only [Fmt.maxNumber, ha.2, hb.2, Bool.and_self, Bool.false_eq_true, if_false, hne, iff_false]
    rw [ite_not]
    exact apply_ite ..

include hnan

/-- The least or the greatest of the values that are numbers, by their bits. -/
theorem ofNat_numbersFold {xs : List Nat} (hxs : ∀ x ∈ xs, x < 2 ^ t.width) :
    BitVec.ofNat t.width (t.fmt.numbersFold (combine t m op) xs) =
      match (xs.map (BitVec.ofNat t.width)).filter fun v => !isNaN v with
      | [] => BitVec.ofNat t.width t.fmt.defaultNaN
      | v :: vs => vs.foldl (fun v y => if (key v ≤ key y) ↔ op = 1 then v else y) v := by
  have hfilter : (xs.map (BitVec.ofNat t.width)).filter (fun v => !isNaN v) =
      (xs.filter fun x => !t.fmt.isNaN x).map (BitVec.ofNat t.width) := by
    rw [List.filter_map]
    exact congrArg _ (List.filter_congr fun x hx => congrArg (!·) (hnan x (hxs x hx)))
  have hnumbers : ∀ x ∈ xs.filter fun x => !t.fmt.isNaN x, x < 2 ^ t.width ∧ t.fmt.isNaN x = false := by
    intro x hx
    obtain ⟨hmem, hnumber⟩ := List.mem_filter.mp hx
    exact ⟨hxs x hmem, by simpa using hnumber⟩
  rw [hfilter, Fmt.numbersFold]
  generalize xs.filter (fun x => !t.fmt.isNaN x) = ys at hnumbers
  cases ys with
  | nil => rfl
  | cons v vs =>
    obtain ⟨hv, hvs⟩ := List.forall_mem_cons.mp hnumbers
    refine foldl_carried (P := fun x => x < 2 ^ t.width ∧ t.fmt.isNaN x = false) (fun a b ha hb => ?_)
      (fun a b ha hb => ofNat_combine_number hF m hop hkey ha hb) hv hvs
    rcases (combine_passesNaNs hF m hop).number ha.2 hb.2 with h | h <;> rw [h] <;> assumption

end

/-! ### The places of a scan (R134) -/

section
variable {on : Nat → Bool} {w lane : Nat} (hlane : lane < w) (hon : on lane = true)
include hlane hon

/-- What SCAN gives an active lane: the entry, of the start and the inclusive results, at the number of lanes it combines. -/
theorem scan_get (exclusive : Bool) (start : Nat) (ys : List Nat) :
    Table.get 0 (((List.range w).filter on).zip (if exclusive then start :: ys else ys)) lane =
      (start :: ys)[((List.range lane).filter on ++ if exclusive then [] else [lane]).length]?.getD 0 := by
  obtain ⟨rest, hsplit⟩ := filter_range_split hlane hon
  rw [hsplit, get_zip (not_mem_filter_range on lane)]
  cases exclusive with
  | false => simp
  | true => simp

/-- The lanes combined for a lane are the first active lanes. -/
theorem take_combined (exclusive : Bool) :
    ((List.range w).filter on).take ((List.range lane).filter on ++ if exclusive then [] else [lane]).length =
      (List.range lane).filter on ++ if exclusive then [] else [lane] := by
  obtain ⟨rest, hsplit⟩ := filter_range_split hlane hon
  rw [hsplit]
  cases exclusive with
  | false => simp [List.take_append]
  | true => simp

theorem length_combined_le (exclusive : Bool) :
    ((List.range lane).filter on ++ if exclusive then [] else [lane]).length ≤ ((List.range w).filter on).length := by
  rw [← take_combined hlane hon exclusive]
  exact List.length_take_le' ..

end

/-! ### Whole combinations -/

theorem Ty.not_isF_of_isZ {t : Ty} (h : t.isZ = true) : t.isF = false :=
  Ty.isZ_cases h (P := fun t => t.isF = false) rfl rfl rfl rfl

/-- A running combination of integers is a fold from the exclusive start. -/
theorem scanValue_of_isZ {t : Ty} (hZ : t.isZ = true) (m : Rounding) (op : Nat) {xs : List Nat} (hxs : ∀ x ∈ xs, x < 2 ^ t.width) :
    scanValue t m op xs = xs.foldl (combine t m op) (scanStart t op) := by
  cases xs with
  | nil => rfl
  | cons x xs =>
    rw [scanValue, Ty.not_isF_of_isZ hZ, List.foldl_cons, combine_scanStart hZ m op (hxs x (List.mem_cons_self ..))]
    rfl

/-- RED is a line of combinations but for a sum of floats under nvr 2. -/
theorem reduceAll_line {t : Ty} (m : Rounding) {nvr op : Nat} (h : (t.isF && op == 0 && nvr == 2) = false) (xs : List Nat) :
    reduceAll t m nvr op xs = lineFold (combine t m op) xs := if_neg (by rw [h]; exact Bool.false_ne_true)

/-- RED of some integers is the running combination of all of them. -/
theorem reduceAll_of_isZ {t : Ty} (hZ : t.isZ = true) (m : Rounding) (nvr op : Nat) {xs : List Nat} (hne : xs ≠ []) :
    reduceAll t m nvr op xs = scanValue t m op xs := by
  obtain ⟨x, xs, rfl⟩ := List.exists_cons_of_ne_nil hne
  unfold reduceAll
  rw [scanValue, Ty.not_isF_of_isZ hZ]
  rfl

/-- A running sum of floats starts from its first value. -/
theorem scanValue_sum {t : Ty} (hF : t.isF = true) (m : Rounding) (xs : List Nat) : scanValue t m 0 xs = lineFold (combine t m 0) xs := by
  cases xs with
  | nil => exact if_pos hF
  | cons x xs => rw [scanValue, hF]; rfl

/-- RED of the least or the greatest of several values passes NaNs over. -/
theorem lineFold_numbers {t : Ty} (hF : t.isF = true) (m : Rounding) {op : Nat} (hop : op ≠ 0) (x y : Nat) (xs : List Nat) :
    lineFold (combine t m op) (x :: y :: xs) = t.fmt.numbersFold (combine t m op) (x :: y :: xs) := by
  have hf := Fmt.standard_of_ty t
  have hg := combine_passesNaNs hF m hop
  rw [lineFold, List.foldl_cons, Fmt.foldl_eq_numbersFold hg hf (hg.combined_nan x y), Fmt.numbersFold_combined hg hf]

/-- The running least or greatest value passes NaNs over, the first among them. -/
theorem scanValue_numbers {t : Ty} (hF : t.isF = true) (m : Rounding) {op : Nat} (hop : op ≠ 0) (x : Nat) (xs : List Nat) :
    scanValue t m op (x :: xs) = t.fmt.numbersFold (combine t m op) (x :: xs) := by
  have hf := Fmt.standard_of_ty t
  have hg := combine_passesNaNs hF m hop
  have hfirst : (t.isF && op != 0) = true := by simp [hF, hop]
  rw [scanValue, if_pos hfirst, Fmt.foldl_eq_numbersFold hg hf (hg.combined_nan x x), Fmt.numbersFold_self hf hg]

/-- A tree and a doubling scan of four values (R87). -/
theorem sums_of_four {t : Ty} (m : Rounding) {nvr op : Nat} (h : (t.isF && op == 0 && nvr == 2) = true) (a b c d : Nat) :
    let g := combine t m op
    reduceAll t m nvr op [a, b, c, d] = g (g a b) (g c d) ∧
      scanAll t m nvr op [a, b, c, d] = [a, g a b, g a (g b c), g (g a b) (g c d)] := ⟨if_pos h, if_pos h⟩

/-! ### What the checks say of an immediate (R63) -/

theorem imm_lt_of_cmp {f : LaneF} (h : LaneOp.cmp.immOk f = true) : f.imm.toNat < 32 := by
  have hnone : LaneOp.cmp.hasLiteral f = false := rfl
  simp only [LaneOp.immOk, hnone, Bool.false_eq_true, if_false, Bool.and_eq_true, decide_eq_true_eq] at h
  exact h.1.1

theorem imm_lt_of_shfl {f : LaneF} (h : LaneOp.shfl.immOk f = true) : f.imm.toNat < 4 := by
  have hnone : LaneOp.shfl.hasLiteral f = false := rfl
  simpa only [LaneOp.immOk, hnone, Bool.false_eq_true, if_false, decide_eq_true_eq] using h

theorem imm_lt_of_vote {f : LaneF} (h : LaneOp.vote.immOk f = true) : f.imm.toNat < 3 := by
  have hnone : LaneOp.vote.hasLiteral f = false := rfl
  simpa only [LaneOp.immOk, hnone, Bool.false_eq_true, if_false, decide_eq_true_eq] using h

/-! ### Values of lanes, in a table and one by one -/

theorem get_map_of_mem {value : Nat → Nat} {lane : Nat} : ∀ {ls : List Nat}, lane ∈ ls →
    Table.get 0 (ls.map fun l => (l, value l)) lane = value lane
  | x :: ls, h => by
    rw [List.map_cons, Table.get]
    split
    · rename_i hx
      rw [hx]
    · rename_i hx
      exact get_map_of_mem ((List.mem_cons.mp h).resolve_left hx)

/-- What MATCH counts and names: the lanes whose value is that of one lane (R135). -/
theorem match_lanes (value : Nat → Nat) (v : Nat) (ls : List Nat) :
    let same := (ls.map fun l => (l, value l)).filter fun e => e.2 == v
    same.length * 2 ^ 16 + ((same.head?.map fun e => e.1).getD 0) =
      (ls.filter fun l => value l == v).length * 2 ^ 16 + (ls.filter fun l => value l == v).headD 0 := by
  have hfilter : (ls.map fun l => (l, value l)).filter (fun e => e.2 == v) =
      (ls.filter fun l => value l == v).map fun l => (l, value l) := by
    rw [List.filter_map]
    rfl
  dsimp only
  rw [hfilter]
  generalize ls.filter (fun l => value l == v) = same
  cases same with
  | nil => rfl
  | cons l same => simp

/-- Values are equal where their bits are. -/
theorem ofNat_beq {n a b : Nat} (ha : a < 2 ^ n) (hb : b < 2 ^ n) : (BitVec.ofNat n a == BitVec.ofNat n b) = (a == b) := by
  rw [Bool.eq_iff_iff, beq_iff_eq, beq_iff_eq, ← BitVec.toNat_inj, BitVec.toNat_ofNat, BitVec.toNat_ofNat, Nat.mod_eq_of_lt ha,
    Nat.mod_eq_of_lt hb]

/-! ### The results -/

/-- Settles O44: each result is computed from the values of the active lanes in ascending order, and its bits stand in vd. -/
theorem laneCrossResults : Obligations.LaneCrossResults := by
  unfold Obligations.LaneCrossResults
  intro s b f hrecent hredo hwidth hwindow w n value x on gives marks signed sv frac inf isNaN nan num key test testF combined all before
    reached code unit join folded best extreme plus running
  have hx (op : LaneOp) (field : BitVec 8) (lane : Nat) : (s.laneCtx b op f).value lane field f.ty < 2 ^ n := LaneCtx.value_lt ..
  have hon {op : LaneOp} {lane : Nat} (h : on op lane = true) :
      lane < w ∧ (s.laneCtx b op f).active.getLsbD lane = true := by simpa [on] using h
  have hall (op : LaneOp) : lanesOf (s.laneCtx b op f).active (s.laneCtx b op f).p.width = all op := lanesOf_eq ..
  have hne {op : LaneOp} {lane : Nat} (h : on op lane = true) : all op ≠ [] :=
    List.ne_nil_of_mem (List.mem_filter.mpr ⟨List.mem_range.mpr (hon h).1, h⟩)
  have himm {op : LaneOp} (h : s.laneIssues b op f) : op.immOk f = true := (LaneOp.of_check h.2.2.1).2.2
  have hgives {op : LaneOp} {i : Instr} (r : Result) (g : LaneCtx → Nat → Nat) (harm : exec i s = r)
      (hr : r = runLane s op f fun c => c.elementwise (g c)) (hslot : (op.slots f).1 = .lane f.ty.regs (1 < f.ty.regs))
      {G : Nat → BitVec n} (hG : s.laneIssues b op f → ∀ lane, on op lane = true →
        BitVec.ofNat n (g (s.laneCtx b op f) lane) = G lane) : gives op i n G := by
    intro hissues
    obtain ⟨u, hrun, hu⟩ := exists_runLane_bits hissues hrecent hwindow hslot g
    refine ⟨u, harm.trans (hr.trans hrun), fun lane hlane => ?_⟩
    obtain ⟨hlt, hactive⟩ := hon hlane
    exact (hu lane hlt hactive).trans (hG hissues lane hlane)
  have hmarks {op : LaneOp} {i : Instr} (r : Result) (g : LaneCtx → Nat → Bool) (harm : exec i s = r)
      (hr : r = runLane s op f fun c => c.toMask (g c)) (hslot : (op.slots f).1 = .maskNumber)
      {G : Nat → Bool} (hG : s.laneIssues b op f → ∀ lane, on op lane = true → g (s.laneCtx b op f) lane = G lane) : marks op i G := by
    intro hissues
    obtain ⟨u, hrun, hu⟩ := exists_runLane_marks hissues hwidth hslot g
    refine ⟨u, harm.trans (hr.trans hrun), fun lane hlane => ?_⟩
    have hsame : on op lane = (s.laneCtx b op f).active.getLsbD lane := by simp only [on, decide_eq_true hlane, Bool.true_and]
    rw [hu lane hlane, hsame]
    split
    · exact hG hissues lane (hsame.trans ‹_›)
    · rfl
  -- the match of MATCH has its own type
  have hmatch : gives .matchOp (.laneMatch f) 32 fun l =>
      let same := (all .matchOp).filter fun j => x .matchOp f.a j == x .matchOp f.a l
      BitVec.ofNat 32 (same.length * 2 ^ 16 + same.headD 0) := by
    intro hissues
    obtain ⟨u, hrun, hu⟩ := exists_runLane_bits (t := .b32) (g := fun c l =>
      let vs := (lanesOf c.active c.p.width).map fun l => (l, c.a l)
      let same := vs.filter fun e => e.2 == Table.get 0 vs l
      same.length * 2 ^ 16 + ((same.head?.map fun e => e.1).getD 0)) hissues hrecent hwindow rfl
    refine ⟨u, hrun, fun lane hlane => ?_⟩
    obtain ⟨hlt, hactive⟩ := hon hlane
    have hmem : lane ∈ lanesOf (s.laneCtx b .matchOp f).active (s.laneCtx b .matchOp f).p.width :=
      (mem_lanesOf ..).mpr ⟨hlt, hactive⟩
    refine (hu lane hlt hactive).trans (congrArg (BitVec.ofNat 32) ?_)
    refine (match_lanes _ _ _).trans ?_
    rw [get_map_of_mem hmem, hall]
    have hsame : (fun j => x .matchOp f.a j == x .matchOp f.a lane) = fun j =>
        (s.laneCtx b .matchOp f).a j == (s.laneCtx b .matchOp f).a lane := by
      funext j
      exact ofNat_beq (hx ..) (hx ..)
    rw [hsame]
  clear_value gives marks
  have hcombined {lane : Nat} (h : s.laneIssues b .cmp f) (r : Bool) :
      cmpBit f ((if f.imm.toNat / 8 % 4 = 0 then 0 else (s.laneCtx b .cmp f).mask f.dst.toNat).getLsbD lane) r = combined r lane := by
    obtain ⟨-, hadmits, -⟩ := LaneOp.of_check h.2.2.1
    have hdst : f.dst.toNat < 8 := by simpa [LaneOp.slots, Slot.admits] using hadmits
    have hnumber : f.dst.toNat = (f.dst.setWidth 3).toNat := by simp; omega
    have hlt : f.imm.toNat / 8 < 4 := by
      have hlt := imm_lt_of_cmp (himm h)
      omega
    have hmask : (s.laneCtx b .cmp f).mask f.dst.toNat = b.p[(f.dst.setWidth 3).toNat] := by
      rw [hnumber]
      exact LaneCtx.mask_of_recent (State.laneCtx_recent hrecent) _
    simp only [combined, cmpBit, hmask, Nat.mod_eq_of_lt hlt]
    generalize f.imm.toNat / 8 = k
    match k with
    | 0 | 1 | _ + 2 => rfl
  have hreal (hZ : f.ty.isZ = true) : ¬f.ty.isF = true := by rw [Ty.not_isF_of_isZ hZ]; exact Bool.false_ne_true
  -- integers by their bits
  have hsigned (hZ : f.ty.isZ = true) : signed = tySigned f.ty :=
    Ty.isZ_cases hZ (P := fun t => decide (t = .i32 ∨ t = .i64) = tySigned t) rfl rfl rfl rfl
  have hsv (hZ : f.ty.isZ = true) (a : Nat) (ha : a < 2 ^ n) : sv (BitVec.ofNat n a) = intOf f.ty a := by
    rw [intOf_eq ha]
    simp only [sv, hsigned hZ, BitVec.toNat_ofNat, Nat.mod_eq_of_lt ha]
    rfl
  have hfolded (hZ : f.ty.isZ = true) (op : LaneOp) (ls : List Nat) :
      BitVec.ofNat n (scanValue f.ty (s.laneCtx b op f).mode code (ls.map (s.laneCtx b op f).a)) = folded op ls := by
    have hlt : ∀ v ∈ ls.map (s.laneCtx b op f).a, v < 2 ^ n := List.forall_mem_map.mpr fun l _ => hx op f.a l
    have hF := Ty.not_isF_of_isZ hZ
    have hunit : BitVec.ofNat n (scanStart f.ty code) = unit := by
      simp only [unit, hsigned hZ]
      exact ofNat_scanStart hZ code
    rw [scanValue_of_isZ hZ _ _ hlt, foldl_carried (P := fun a => a < 2 ^ n) (fun _ _ => combine_lt hF _ _)
      (fun _ _ => ofNat_combine hF _ _ (hsv hZ)) (scanStart_lt ..) hlt, hunit, List.map_map, List.foldl_map]
    rfl
  -- floats by their bits
  have hn (hF : f.ty.isF = true) : n = f.ty.fmt.bits := Ty.width_of_isF hF
  have hfrac (hF : f.ty.isF = true) : frac = f.ty.fmt.frac := by
    revert hF
    simp only [frac]
    cases f.ty <;> simp [Ty.isF] <;> rfl
  have hisNaN (hF : f.ty.isF = true) (a : Nat) (ha : a < 2 ^ n) : isNaN (BitVec.ofNat n a) = f.ty.fmt.isNaN a := by
    simp only [isNaN, inf, hfrac hF]
    exact f.ty.fmt.isNaN_eq_of_bits (hn hF) ha
  have hnum (hF : f.ty.isF = true) (a : Nat) (ha : a < 2 ^ n) : num (BitVec.ofNat n a) = f.ty.fmt.place a :=
    f.ty.fmt.place_eq_of_bits (hn hF) ha
  have hkey (hF : f.ty.isF = true) (a : Nat) (ha : a < 2 ^ n) : key (BitVec.ofNat n a) = f.ty.fmt.key a := by
    simp only [key, hnum hF a ha, f.ty.fmt.negative_eq_of_bits (hn hF) ha, f.ty.fmt.key_eq_place]
  have hnan (hF : f.ty.isF = true) : BitVec.ofNat n f.ty.fmt.defaultNaN = nan := by
    have hsgn : 2 ^ (n - 1) = f.ty.fmt.infinity + 2 ^ f.ty.fmt.frac := by
      rw [hn hF, Fmt.bits, Nat.add_sub_cancel, Fmt.infinity_add]
    simp only [nan, inf, hfrac hF, hsgn, Nat.add_sub_cancel]
    rfl
  have hextreme (hF : f.ty.isF = true) (hcode : code ≠ 0) (op : LaneOp) (ls : List Nat) :
      BitVec.ofNat n (f.ty.fmt.numbersFold (combine f.ty (s.laneCtx b op f).mode code) (ls.map (s.laneCtx b op f).a)) =
        extreme op ls := by
    have hlt : ∀ v ∈ ls.map (s.laneCtx b op f).a, v < 2 ^ n := List.forall_mem_map.mpr fun l _ => hx op f.a l
    refine (ofNat_numbersFold hF _ hcode (hisNaN hF) (hkey hF) hlt).trans ?_
    have hbits : (ls.map (s.laneCtx b op f).a).map (BitVec.ofNat n) = ls.map fun l => x op f.a l := List.map_map ..
    rw [hnan hF, hbits]
    simp only [extreme]
    generalize (ls.map fun l => x op f.a l).filter (fun v => !isNaN v) = vs
    cases vs with
    | nil => rfl
    | cons v vs => rfl
  have hplus (hF : f.ty.isF = true) (op : LaneOp) {u v : Nat} (hu : u < 2 ^ n) (hv : v < 2 ^ n) :
      BitVec.ofNat n (combine f.ty (s.laneCtx b op f).mode 0 u v) = plus op (BitVec.ofNat n u) (BitVec.ofNat n v) ∧
        combine f.ty (s.laneCtx b op f).mode 0 u v < 2 ^ n := by
    have hadd : combine f.ty (s.laneCtx b op f).mode 0 u v = f.ty.fmt.add (s.laneCtx b op f).mode u v := if_pos hF
    rw [hadd]
    simp only [plus, BitVec.toNat_ofNat, Nat.mod_eq_of_lt hu, Nat.mod_eq_of_lt hv, true_and]
    rw [hn hF] at hu hv ⊢
    exact f.ty.fmt.add_lt (Fmt.standard_of_ty f.ty) _ hu hv
  have hrunning (hF : f.ty.isF = true) (op : LaneOp) (ls : List Nat) :
      BitVec.ofNat n (lineFold (combine f.ty (s.laneCtx b op f).mode 0) (ls.map (s.laneCtx b op f).a)) = running op ls := by
    cases ls with
    | nil => rfl
    | cons l ls =>
      have hlt : ∀ v ∈ ls.map (s.laneCtx b op f).a, v < 2 ^ n := List.forall_mem_map.mpr fun l _ => hx op f.a l
      refine (foldl_carried (P := fun a => a < 2 ^ n) (φ := BitVec.ofNat n) (fun _ _ hu hv => (hplus hF op hu hv).2)
        (fun _ _ hu hv => (hplus hF op hu hv).1) (hx ..) hlt).trans ?_
      rw [List.map_map]
      rfl
  -- what SCAN gives a lane
  have hget {lane : Nat} (hlane : on .scan lane = true) (start : Nat) (ys : List Nat) :
      Table.get 0 ((lanesOf (s.laneCtx b .scan f).active (s.laneCtx b .scan f).p.width).zip
        (if f.imm.getLsbD 6 then start :: ys else ys)) lane = (start :: ys)[(reached .scan lane).length]?.getD 0 := by
    rw [hall]
    exact scan_get (hon hlane).1 hlane _ start ys
  have hscan {lane : Nat} (hlane : on .scan lane = true)
      (hline : (f.ty.isF && code == 0 && (s.laneCtx b .scan f).nvr == 2) = false) :
      Table.get 0 ((lanesOf (s.laneCtx b .scan f).active (s.laneCtx b .scan f).p.width).zip
        (if f.imm.getLsbD 6 then scanStart f.ty code ::
          scanAll f.ty (s.laneCtx b .scan f).mode (s.laneCtx b .scan f).nvr code
            ((lanesOf (s.laneCtx b .scan f).active (s.laneCtx b .scan f).p.width).map (s.laneCtx b .scan f).a)
        else scanAll f.ty (s.laneCtx b .scan f).mode (s.laneCtx b .scan f).nvr code
            ((lanesOf (s.laneCtx b .scan f).active (s.laneCtx b .scan f).p.width).map (s.laneCtx b .scan f).a))) lane =
        scanValue f.ty (s.laneCtx b .scan f).mode code ((reached .scan lane).map (s.laneCtx b .scan f).a) := by
    have htake : (all .scan).take (reached .scan lane).length = reached .scan lane := take_combined (hon hlane).1 hlane _
    have hlength : (reached .scan lane).length ≤ (all .scan).length := length_combined_le (hon hlane).1 hlane _
    rw [hget hlane, hall, scanAll_getElem? _ hline _ (by simpa using hlength), Option.getD_some, ← List.map_take, htake]
  refine ⟨fun hZ => hmarks (execLaneCmp f s) _ rfl rfl rfl fun h lane hlane => ?_,
    fun hF => hmarks (execLaneCmp f s) _ rfl rfl rfl fun h lane hlane => ?_,
    fun k hk => hgives (execLaneSel f s) _ rfl rfl rfl fun h lane hlane => ?_,
    hgives (execLaneShfl f s) _ rfl rfl rfl fun h lane hlane => ?_,
    hgives (execLaneBcast f s) _ rfl rfl rfl fun h lane hlane => ?_,
    fun hZ => ⟨hgives (execLaneRed f s) _ rfl rfl rfl fun h lane hlane => ?_,
      hgives (execLaneScan f s) _ rfl rfl rfl fun h lane hlane => ?_⟩,
    fun hF hcode => ⟨hgives (execLaneRed f s) _ rfl rfl rfl fun h lane hlane => ?_,
      hgives (execLaneScan f s) _ rfl rfl rfl fun h lane hlane => ?_⟩,
    fun hF hcode hnvr => ⟨hgives (execLaneRed f s) _ rfl rfl rfl fun h lane hlane => ?_,
      hgives (execLaneScan f s) _ rfl rfl rfl fun h lane hlane => ?_⟩,
    fun hF hcode hnvr l0 l1 l2 l3 => ⟨fun hfour => hgives (execLaneRed f s) _ rfl rfl rfl fun h lane hlane => ?_,
      fun hfour => hgives (execLaneScan f s) _ rfl rfl rfl fun h lane hlane => ?_⟩,
    hmatch, hmarks (execLaneVote f s) _ rfl rfl rfl fun h lane hlane => ?_⟩
  · refine (hcombined h _).trans (congrArg (combined · lane) ?_)
    have hlt := hx .cmp
    have hequal : (x .cmp f.a lane == x .cmp f.b lane) = (intOf f.ty ((s.laneCtx b .cmp f).a lane) ==
        intOf f.ty ((s.laneCtx b .cmp f).b' lane)) := by
      rw [ofNat_beq (hlt ..) (hlt ..), Bool.eq_iff_iff, beq_iff_eq, beq_iff_eq]
      exact ⟨congrArg _, intOf_inj (hlt ..) (hlt ..)⟩
    rw [testElem, if_neg (hreal hZ), intTest_eq, hequal, hsv hZ _ (hlt ..), hsv hZ _ (hlt ..)]
    rfl
  · refine (hcombined h _).trans (congrArg (combined · lane) ?_)
    have htest (u v : BitVec n) : testF u v = numberTest (f.imm.toNat % 8) (isNaN u || isNaN v) (num u) (num v) := rfl
    rw [testElem, if_pos hF, Fmt.test_eq _ (Nat.mod_lt _ (by decide)), htest, hisNaN hF _ (hx ..), hisNaN hF _ (hx ..), hnum hF _ (hx ..),
      hnum hF _ (hx ..)]
    rfl
  · have hbit : (if f.imm.toNat % 8 = 0 then (s.laneCtx b .sel f).p.allLanes else (s.laneCtx b .sel f).mask (f.imm.toNat % 8)).getLsbD
        lane = decide (k = 0 ∨ (b.p[k.toNat]).getLsbD lane = true) := by
      by_cases hzero : k = 0
      · have hcode : f.imm.toNat % 8 = 0 := by rw [hk, hzero]; rfl
        rw [if_pos hcode, Party.getLsbD_allLanes (p := (s.laneCtx b .sel f).p) hwidth (hon hlane).1]
        simp [hzero]
      · have hcode : f.imm.toNat % 8 ≠ 0 := fun h => hzero (BitVec.eq_of_toNat_eq (hk ▸ h))
        have hmask : (s.laneCtx b .sel f).mask k.toNat = b.p[k.toNat] := LaneCtx.mask_of_recent (State.laneCtx_recent hrecent) _
        rw [if_neg hcode, hk, hmask]
        simp only [hzero, false_or, Bool.decide_eq_true]
    rw [hbit, apply_ite (BitVec.ofNat n)]
    refine if_congr ?_ rfl rfl
    cases f.imm.getLsbD 3 <;> simp
  · have hlt := imm_lt_of_shfl (himm h)
    rw [Nat.mod_eq_of_lt hlt]
    unfold shuffleSource
    generalize f.imm.toNat = mode
    match mode with
    | 0 | 1 | 2 | _ + 3 => rfl
  · have hfirst : ((lanesOf (s.laneCtx b .bcast f).active (s.laneCtx b .bcast f).p.width).head?).getD 0 = (all .bcast).headD 0 := by
      rw [hall]
      cases all .bcast <;> rfl
    have hsource : (x .bcast f.b ((all .bcast).headD 0)).toNat = (s.laneCtx b .bcast f).b' ((all .bcast).headD 0) := by
      rw [BitVec.toNat_ofNat]
      exact Nat.mod_eq_of_lt (hx ..)
    rw [hsource, ← hfirst]
    rfl
  · rw [hall, reduceAll_of_isZ hZ _ _ _ (by simpa using hne hlane)]
    exact hfolded hZ .red _
  · have hline : (f.ty.isF && code == 0 && (s.laneCtx b .scan f).nvr == 2) = false := by rw [Ty.not_isF_of_isZ hZ]; rfl
    exact (congrArg (BitVec.ofNat n) (hscan hlane hline)).trans (hfolded hZ .scan _)
  · have hline : (f.ty.isF && code == 0 && (s.laneCtx b .red f).nvr == 2) = false := by simp [hcode]
    rw [hall]
    refine (congrArg (BitVec.ofNat n) (reduceAll_line _ hline _)).trans ?_
    have hred := hne hlane
    generalize all .red = ls at hred ⊢
    match ls, hred with
    | [l], _ => rfl
    | l :: l' :: ls, _ =>
      refine (congrArg (BitVec.ofNat n) (lineFold_numbers hF _ hcode _ _ _)).trans ?_
      exact hextreme hF hcode .red (l :: l' :: ls)
  · have hline : (f.ty.isF && code == 0 && (s.laneCtx b .scan f).nvr == 2) = false := by simp [hcode]
    refine (congrArg (BitVec.ofNat n) (hscan hlane hline)).trans ?_
    have hex := hextreme hF hcode .scan (reached .scan lane)
    generalize reached .scan lane = ls at hex ⊢
    cases ls with
    | nil => exact congrArg (BitVec.ofNat n) (if_pos hF)
    | cons l ls =>
      rw [List.map_cons] at hex ⊢
      rw [scanValue_numbers hF _ hcode, if_neg (List.cons_ne_nil _ _)]
      exact hex
  · have hcode : f.imm.toNat % 8 = 0 := hcode
    have hline : (f.ty.isF && f.imm.toNat % 8 == 0 && (s.laneCtx b .red f).nvr == 2) = false := by
      rw [show (s.laneCtx b .red f).nvr = b.nvr.toNat from rfl, hnvr, Bool.and_eq_false_iff]
      exact .inr rfl
    rw [hall, reduceAll_line _ hline, hcode]
    exact hrunning hF .red _
  · have hcode : code = 0 := hcode
    have hline : (f.ty.isF && code == 0 && (s.laneCtx b .scan f).nvr == 2) = false := by
      rw [show (s.laneCtx b .scan f).nvr = b.nvr.toNat from rfl, hnvr, Bool.and_eq_false_iff]
      exact .inr rfl
    refine (congrArg (BitVec.ofNat n) (hscan hlane hline)).trans ?_
    rw [hcode, scanValue_sum hF]
    exact hrunning hF .scan _
  · have hcode : f.imm.toNat % 8 = 0 := hcode
    have htree : (f.ty.isF && f.imm.toNat % 8 == 0 && (s.laneCtx b .red f).nvr == 2) = true := by
      rw [show (s.laneCtx b .red f).nvr = b.nvr.toNat from rfl, hnvr, hF, hcode]
      rfl
    have hlt := hx .red f.a
    obtain ⟨hleft, hleft_lt⟩ := hplus hF .red (hlt l0) (hlt l1)
    obtain ⟨hright, hright_lt⟩ := hplus hF .red (hlt l2) (hlt l3)
    refine (congrArg (BitVec.ofNat n) ?_).trans ((hplus hF .red hleft_lt hright_lt).1.trans (congrArg₂ (plus .red) hleft hright))
    rw [hall, hfour]
    refine (sums_of_four _ htree _ _ _ _).1.trans ?_
    rw [hcode]
    rfl
  · have hcode : f.imm.toNat % 8 = 0 := hcode
    have hdouble : (f.ty.isF && f.imm.toNat % 8 == 0 && (s.laneCtx b .scan f).nvr == 2) = true := by
      rw [show (s.laneCtx b .scan f).nvr = b.nvr.toNat from rfl, hnvr, hF, hcode]
      rfl
    have hlt := hx .scan f.a
    obtain ⟨h01, h01_lt⟩ := hplus hF .scan (hlt l0) (hlt l1)
    obtain ⟨h12, h12_lt⟩ := hplus hF .scan (hlt l1) (hlt l2)
    obtain ⟨h23, h23_lt⟩ := hplus hF .scan (hlt l2) (hlt l3)
    have h012 := (hplus hF .scan (hlt l0) h12_lt).1.trans (congrArg (plus .scan _) h12)
    have h0123 := (hplus hF .scan h01_lt h23_lt).1.trans (congrArg₂ (plus .scan) h01 h23)
    have hlength : (reached .scan lane).length ≤ (all .scan).length := length_combined_le (hon hlane).1 hlane _
    rw [hfour] at hlength
    have hlanes : (lanesOf (s.laneCtx b .scan f).active (s.laneCtx b .scan f).p.width).map (s.laneCtx b .scan f).a =
        [l0, l1, l2, l3].map (s.laneCtx b .scan f).a := by rw [hall, hfour]
    have hsums := (sums_of_four (s.laneCtx b .scan f).mode hdouble ((s.laneCtx b .scan f).a l0) ((s.laneCtx b .scan f).a l1)
      ((s.laneCtx b .scan f).a l2) ((s.laneCtx b .scan f).a l3)).2
    rw [hcode] at hsums
    refine (congrArg (BitVec.ofNat n) (hget hlane _ _)).trans ?_
    rw [hlanes, hcode]
    refine (congrArg (fun ys => BitVec.ofNat n ((scanStart f.ty 0 :: ys)[(reached .scan lane).length]?.getD 0)) hsums).trans ?_
    generalize (reached .scan lane).length = k at hlength ⊢
    match k, hlength with
    | 0, _ => exact congrArg (BitVec.ofNat n) (if_pos hF)
    | 1, _ => rfl
    | 2, _ => exact h01
    | 3, _ => exact h012
    | 4, _ => exact h0123
  · have hlt := imm_lt_of_vote (himm h)
    have hzero (l : Nat) : (x .vote f.a l != 0) = ((s.laneCtx b .vote f).a l != 0) :=
      congrArg (!·) (ofNat_beq (hx ..) (Nat.two_pow_pos _))
    have hequal (l k : Nat) : (x .vote f.a l == x .vote f.a k) = ((s.laneCtx b .vote f).a l == (s.laneCtx b .vote f).a k) :=
      ofNat_beq (hx ..) (hx ..)
    have hhead := hne hlane
    simp only [hzero, hequal, hall, Nat.mod_eq_of_lt (hlt.trans (by decide : 3 < 4))]
    generalize all .vote = ls at hhead ⊢
    obtain ⟨l, ls, rfl⟩ := List.exists_cons_of_ne_nil hhead
    generalize f.imm.toNat = mode
    match mode with
    | 0 => exact List.any_map
    | 1 => exact List.all_map
    | _ + 2 => exact List.all_map

end Sys2Proof.Machine
end

section
/-!
SUPPORT. The integer family on bit vectors (R89): each result, which the model computes on natural numbers, as a function of the
n-bit operands; and the immediate instructions (R90, R91).
-/
namespace Sys2Proof.Machine

/-! ### Numbers and bit vectors -/

theorem ofNat_lowBits (n : Nat) (v : Int) : BitVec.ofNat n (lowBits n v) = BitVec.ofInt n v := by
  rw [lowBits_eq, BitVec.ofNat_toNat, BitVec.setWidth_eq]

theorem signedOf_toNat {n : Nat} (hn : 0 < n) (x : BitVec n) : signedOf n x.toNat = x.toInt := by
  rw [signedOf_eq_toInt hn, BitVec.ofNat_toNat, BitVec.setWidth_eq]

theorem ofNat_allOnes (n : Nat) : BitVec.ofNat n (2 ^ n - 1) = BitVec.allOnes n := by
  apply BitVec.eq_of_toNat_eq
  rw [BitVec.toNat_ofNat, BitVec.toNat_allOnes]
  exact Nat.mod_eq_of_lt (Nat.sub_lt (Nat.two_pow_pos n) one_pos)

theorem emod_mul_self_ediv (v : Int) {m : Int} (hm : 0 < m) : v % (m * m) / m = v / m % m := by
  rw [Int.emod_def, Int.emod_def, Int.sub_eq_add_neg, mul_assoc, ← mul_neg, Int.add_mul_ediv_left _ _ hm.ne', Int.sub_eq_add_neg,
    Int.ediv_ediv_of_nonneg hm.le]

/-- The high half of a two's-complement string of double width. -/
theorem extractLsb'_ofInt_double (n : Nat) (v : Int) : (BitVec.ofInt (2 * n) v).extractLsb' n n = BitVec.ofInt n (v / 2 ^ n) := by
  apply BitVec.eq_of_toNat_eq
  have hpos : (0 : Int) < 2 ^ n := by positivity
  have hdouble : ((2 ^ (2 * n) : Nat) : Int) = 2 ^ n * 2 ^ n := by push_cast; rw [two_mul, pow_add]
  rw [BitVec.extractLsb'_toNat, BitVec.toNat_ofInt, BitVec.toNat_ofInt, hdouble, Nat.shiftRight_eq_div_pow]
  push_cast
  rw [← emod_mul_self_ediv v hpos]
  have hnonneg : 0 ≤ v % (2 ^ n * 2 ^ n) := Int.emod_nonneg _ (by positivity)
  have hlt := Int.emod_lt_of_pos v (mul_pos hpos hpos)
  lift v % (2 ^ n * 2 ^ n) to Nat using hnonneg with w
  norm_cast at hlt ⊢
  rw [Nat.mod_eq_of_lt (Nat.div_lt_of_lt_mul hlt)]

/-! ### The results of R89 -/

section
variable {n : Nat} (x y : BitVec n)

theorem ofNat_sub_toNat : BitVec.ofNat n (lowBits n ((x.toNat : Int) - y.toNat)) = x - y := by
  rw [ofNat_lowBits, Int.sub_eq_add_neg, BitVec.ofInt_add, BitVec.ofInt_neg]
  simp [BitVec.sub_eq_add_neg]

theorem ofNat_mulhi (hn : 0 < n) : BitVec.ofNat n (lowBits n (signedOf n x.toNat * signedOf n y.toNat / 2 ^ n)) =
    (x.signExtend (2 * n) * y.signExtend (2 * n)).extractLsb' n n := by
  have hprod : x.signExtend (2 * n) * y.signExtend (2 * n) = BitVec.ofInt (2 * n) (x.toInt * y.toInt) := by
    rw [BitVec.ofInt_mul]; rfl
  rw [ofNat_lowBits, signedOf_toNat hn, signedOf_toNat hn, hprod, extractLsb'_ofInt_double]

theorem ofNat_mulhin : BitVec.ofNat n (x.toNat * y.toNat / 2 ^ n) =
    (x.setWidth (2 * n) * y.setWidth (2 * n)).extractLsb' n n := by
  apply BitVec.eq_of_toNat_eq
  have hwide : 2 ^ n ≤ 2 ^ (2 * n) := Nat.pow_le_pow_right (by decide) (by omega)
  have hprod : x.toNat * y.toNat < 2 ^ (2 * n) := by
    rw [two_mul, pow_add]
    exact Nat.mul_lt_mul'' x.isLt y.isLt
  rw [BitVec.toNat_ofNat, BitVec.extractLsb'_toNat, BitVec.toNat_mul, BitVec.toNat_setWidth, BitVec.toNat_setWidth,
    Nat.mod_eq_of_lt (x.isLt.trans_le hwide), Nat.mod_eq_of_lt (y.isLt.trans_le hwide), Nat.mod_eq_of_lt hprod,
    Nat.shiftRight_eq_div_pow]

theorem ofNat_divSigned (hn : 0 < n) :
    BitVec.ofNat n (divSigned n x.toNat y.toNat) = if y = 0 then BitVec.allOnes n else x.sdiv y := by
  unfold divSigned
  by_cases hy : y = 0
  · simp [hy, ofNat_allOnes]
  · rw [if_neg hy, if_neg (by simpa [BitVec.toNat_eq] using hy), ofNat_lowBits, signedOf_toNat hn, signedOf_toNat hn]
    exact BitVec.eq_of_toInt_eq (by rw [BitVec.toInt_ofInt, BitVec.toInt_sdiv])

theorem ofNat_remSigned (hn : 0 < n) : BitVec.ofNat n (remSigned n x.toNat y.toNat) = if y = 0 then x else x.srem y := by
  unfold remSigned
  by_cases hy : y = 0
  · simp [hy]
  · rw [if_neg hy, if_neg (by simpa [BitVec.toNat_eq] using hy), ofNat_lowBits, signedOf_toNat hn, signedOf_toNat hn,
      ← BitVec.toInt_srem, BitVec.ofInt_toInt]

theorem ofNat_div_toNat :
    BitVec.ofNat n (if y.toNat = 0 then 2 ^ n - 1 else x.toNat / y.toNat) = if y = 0 then BitVec.allOnes n else x / y := by
  by_cases hy : y = 0
  · simp [hy, ofNat_allOnes]
  · rw [if_neg hy, if_neg (by simpa [BitVec.toNat_eq] using hy), ← BitVec.toNat_udiv, BitVec.ofNat_toNat, BitVec.setWidth_eq]

theorem ofNat_rem_toNat : BitVec.ofNat n (if y.toNat = 0 then x.toNat else x.toNat % y.toNat) = if y = 0 then x else x % y := by
  by_cases hy : y = 0
  · simp [hy]
  · rw [if_neg hy, if_neg (by simpa [BitVec.toNat_eq] using hy), ← BitVec.toNat_umod, BitVec.ofNat_toNat, BitVec.setWidth_eq]

theorem ofNat_and_bitNot : BitVec.ofNat n (x.toNat &&& bitNot n y.toNat) = x &&& ~~~y := by
  have hnot : bitNot n y.toNat = (~~~y).toNat := by rw [bitNot, BitVec.toNat_not, Nat.mod_eq_of_lt y.isLt]
  rw [hnot, ← BitVec.toNat_and, BitVec.ofNat_toNat, BitVec.setWidth_eq]

theorem ofNat_shiftLeft : BitVec.ofNat n (shiftLeft n x.toNat y.toNat) = x <<< (y.toNat % n) := by
  apply BitVec.eq_of_toNat_eq
  rw [shiftLeft, Nat.mod_eq_of_lt y.isLt, BitVec.toNat_ofNat, Nat.mod_mod, BitVec.toNat_shiftLeft, Nat.shiftLeft_eq]

theorem ofNat_shiftRight : BitVec.ofNat n (shiftRight n x.toNat y.toNat) = x >>> (y.toNat % n) := by
  rw [shiftRight, Nat.mod_eq_of_lt y.isLt, Nat.mod_eq_of_lt x.isLt, ← Nat.shiftRight_eq_div_pow, ← BitVec.toNat_ushiftRight,
    BitVec.ofNat_toNat, BitVec.setWidth_eq]

theorem ofNat_shiftArith (hn : 0 < n) : BitVec.ofNat n (shiftArith n x.toNat y.toNat) = x.sshiftRight (y.toNat % n) := by
  have hshift := Int.shiftRight_eq_div_pow x.toInt (y.toNat % n)
  push_cast at hshift
  rw [shiftArith, Nat.mod_eq_of_lt y.isLt, ofNat_lowBits, signedOf_toNat hn, ← hshift, ← BitVec.toInt_sshiftRight,
    BitVec.ofInt_toInt]

/-- One of two operands, chosen by a test. -/
theorem ofNat_ite_toNat (p : Prop) [Decidable p] : BitVec.ofNat n (if p then x.toNat else y.toNat) = if p then x else y := by
  split <;> rw [BitVec.ofNat_toNat, BitVec.setWidth_eq]

end

/-! ### Counts of bits -/

theorem popCount_eq (n : Nat) : ∀ x, popCount n x = (List.range n).countP fun i => x.testBit i := by
  induction n with
  | zero => exact fun x => rfl
  | succ n ih =>
    intro x
    have htail : (List.range n).countP ((fun i => x.testBit i) ∘ Nat.succ) = (List.range n).countP fun i => (x / 2).testBit i :=
      List.countP_congr fun i _ => by simp [Nat.testBit_succ]
    rw [popCount, ih, List.range_succ_eq_map, List.countP_cons, List.countP_map, htail, Nat.testBit_zero, Nat.add_comm]
    rcases Nat.mod_two_eq_zero_or_one x with h | h <;> simp [h]

theorem trailingZeros_eq (n : Nat) : ∀ x, trailingZeros n x = ((List.range n).find? fun i => x.testBit i).getD n := by
  induction n with
  | zero => exact fun x => rfl
  | succ n ih =>
    intro x
    rw [trailingZeros, List.range_succ_eq_map, List.find?_cons, Nat.testBit_zero]
    by_cases h : x % 2 = 1
    · simp [h]
    · have htail : ((fun i => x.testBit i) ∘ Nat.succ) = fun i => (x / 2).testBit i := funext fun i => Nat.testBit_succ x i
      rw [if_neg h, ih, decide_eq_false h, List.find?_map, htail]
      cases (List.range n).find? fun i => (x / 2).testBit i <;> rfl

theorem leadingZeros_eq {n x : Nat} (hx : x < 2 ^ n) :
    leadingZeros n x = ((List.range n).find? fun i => x.testBit (n - 1 - i)).getD n := by
  rw [leadingZeros, Nat.mod_eq_of_lt hx]
  rcases Nat.eq_zero_or_pos x with rfl | hpos
  · have hnone : ((List.range n).find? fun i => Nat.testBit 0 (n - 1 - i)) = none := List.find?_range_eq_none.mpr (by simp)
    rw [hnone]
    rfl
  · have hle : bitLen x ≤ n := bitLen_le hx
    have hlen : 0 < bitLen x := bitLen_pos hpos
    have htop : x.testBit (n - 1 - (n - bitLen x)) = true := by
      rw [show n - 1 - (n - bitLen x) = bitLen x - 1 by omega]
      refine Nat.testBit_of_two_pow_le_and_two_pow_add_one_gt (two_pow_bitLen_le hpos) ?_
      rw [Nat.sub_add_cancel hlen]
      exact lt_two_pow_bitLen x
    have hsome : ((List.range n).find? fun i => x.testBit (n - 1 - i)) = some (n - bitLen x) := by
      refine List.find?_range_eq_some.mpr ⟨htop, List.mem_range.mpr (by omega), fun j hj => ?_⟩
      have hlt : x < 2 ^ (n - 1 - j) := (lt_two_pow_bitLen x).trans_le (Nat.pow_le_pow_right (by decide) (by omega))
      simp [Nat.testBit_lt_two_pow hlt]
    rw [hsome]
    rfl

/-! ### The long immediates of R49 -/

theorem signExtend_shiftLeft_13 (l : BitVec 19) : l.signExtend 64 <<< (13 : Nat) = l.signExtend 51 ++ (0 : BitVec 13) := by
  apply BitVec.eq_of_getLsbD_eq
  intro i hi
  rw [BitVec.getLsbD_append, BitVec.getLsbD_shiftLeft]
  by_cases h : i < 13
  · simp [h]
  · simp [h, BitVec.getElem_signExtend, hi, show i - 13 < 51 by omega, show i - 13 < 64 by omega]

theorem shiftLeft_19_or (x : Word) (l : BitVec 19) : x <<< (19 : Nat) ||| l.setWidth 64 = x.extractLsb' 0 45 ++ l := by
  apply BitVec.eq_of_getLsbD_eq
  intro i hi
  rw [BitVec.getLsbD_append, BitVec.getLsbD_or, BitVec.getLsbD_shiftLeft, BitVec.getLsbD_setWidth, BitVec.getLsbD_extractLsb']
  by_cases h : i < 19
  · simp [h, hi]
  · have hhigh : l.getLsbD i = false := BitVec.getLsbD_of_ge l i (by omega)
    simp [h, hi, hhigh, show i - 19 < 45 by omega]

/-! ### The instructions -/

section
variable {s : State} {d : Reg} (hfree : s.holdsReg s.party d = false)
include hfree

theorem writeReg_free (v : Word) : writeReg s d v = .next (s.finish (s.party.setReg d v)) := by
  rw [writeReg, if_neg (by simp [hfree])]

/-- An instruction of the integer family whose r is a function of the n-bit operands leaves that result in sd. -/
theorem intOp_result (a b : Reg) (z : Size) {g : Nat → Nat → Nat → Nat} {f : (n : Nat) → BitVec n → BitVec n → BitVec n}
    (hg : ∀ n, 0 < n → ∀ x y : BitVec n, BitVec.ofNat n (g n x.toNat y.toNat) = f n x y) :
    intOp s d a b z g = .next (s.finish (s.party.setReg d (z.result f (s.party.reg a) (s.party.reg b)))) := by
  have hr : z.extend (g z.bits ((s.party.reg a).toNat % 2 ^ z.bits) ((s.party.reg b).toNat % 2 ^ z.bits)) =
      z.result f (s.party.reg a) (s.party.reg b) := by
    cases z with
    | w64 => simp [Size.extend, Size.bits, Size.result, ← hg 64 (by decide), Nat.mod_eq_of_lt (BitVec.isLt _)]
    | i32 => simp [Size.extend, Size.bits, Size.result, ← hg 32 (by decide)]
    | n32 =>
      simp only [Size.extend, Size.bits, Size.result, ← hg 32 (by decide), BitVec.toNat_setWidth]
      exact BitVec.eq_of_toNat_eq (by simp)
  rw [intOp, writeReg_free hfree, hr]

/-- The same for one of one operand, whatever the other register holds. -/
theorem intOp_unary (a b : Reg) (z : Size) {g : Nat → Nat → Nat} {f : (n : Nat) → BitVec n → BitVec n}
    (hg : ∀ n, 0 < n → ∀ x : BitVec n, BitVec.ofNat n (g n x.toNat) = f n x) :
    intOp s d a 0 z (fun n a _ => g n a) = .next (s.finish (s.party.setReg d (z.result (fun n x _ => f n x) (s.party.reg a) (s.party.reg b)))) := by
  rw [intOp_result hfree a 0 z fun n hn x _ => hg n hn x]
  cases z <;> rfl

end

/-- Settles O12: each r of the table as a function of bit vectors, and each immediate as the value its instruction writes. -/
theorem integerResults : Obligations.IntegerResults := by
  unfold Obligations.IntegerResults
  refine ⟨fun s k d a b z hfree => ?_, fun s k d a i c l hfree => ?_⟩
  · have two {g : Nat → Nat → Nat → Nat} {f : (n : Nat) → BitVec n → BitVec n → BitVec n} := intOp_result (g := g) (f := f) hfree a b z
    have one {g : Nat → Nat → Nat} {f : (n : Nat) → BitVec n → BitVec n} := intOp_unary (g := g) (f := f) hfree a b z
    refine ⟨(two ?add : execAdd k d a b z s = _), (two ?sub : execSub k d a b z s = _), (two ?mul : execMul k d a b z s = _),
      (two ?mulhi : execMulhi k d a b z s = _), (two ?mulhin : execMulhin k d a b z s = _), (two ?div : execDiv k d a b z s = _),
      (two ?divn : execDivn k d a b z s = _), (two ?rem : execRem k d a b z s = _), (two ?remn : execRemn k d a b z s = _),
      (two ?min : execMin k d a b z s = _), (two ?max : execMax k d a b z s = _), (two ?minn : execMinn k d a b z s = _),
      (two ?maxn : execMaxn k d a b z s = _), (two ?and : execAnd k d a b z s = _), (two ?or : execOr k d a b z s = _),
      (two ?xor : execXor k d a b z s = _), (two ?andn : execAndn k d a b z s = _), (two ?shl : execShl k d a b z s = _),
      (two ?shr : execShr k d a b z s = _), (two ?sra : execSra k d a b z s = _), (two ?slt : execSlt k d a b z s = _),
      (two ?sltn : execSltn k d a b z s = _), (two ?seq : execSeq k d a b z s = _), (one ?popc : execPopc k d a z s = _),
      (one ?clz : execClz k d a z s = _), (one ?ctz : execCtz k d a z s = _)⟩
    case add => exact fun n _ x y => BitVec.eq_of_toNat_eq (by simp)
    case sub => exact fun n _ => ofNat_sub_toNat
    case mul => exact fun n _ x y => BitVec.eq_of_toNat_eq (by simp)
    case mulhi => exact fun n hn x y => ofNat_mulhi x y hn
    case mulhin => exact fun n _ => ofNat_mulhin
    case div => exact fun n hn x y => ofNat_divSigned x y hn
    case divn => exact fun n _ => ofNat_div_toNat
    case rem => exact fun n hn x y => ofNat_remSigned x y hn
    case remn => exact fun n _ => ofNat_rem_toNat
    case min => exact fun n hn x y => by rw [signedOf_toNat hn, signedOf_toNat hn, ofNat_ite_toNat]
    case max => exact fun n hn x y => by rw [signedOf_toNat hn, signedOf_toNat hn, ofNat_ite_toNat]
    case minn => exact fun n _ x y => ofNat_ite_toNat x y _
    case maxn => exact fun n _ x y => ofNat_ite_toNat y x _
    case and => exact fun n _ x y => by rw [← BitVec.toNat_and, BitVec.ofNat_toNat, BitVec.setWidth_eq]
    case or => exact fun n _ x y => by rw [← BitVec.toNat_or, BitVec.ofNat_toNat, BitVec.setWidth_eq]
    case xor => exact fun n _ x y => by rw [← BitVec.toNat_xor, BitVec.ofNat_toNat, BitVec.setWidth_eq]
    case andn => exact fun n _ => ofNat_and_bitNot
    case shl => exact fun n _ => ofNat_shiftLeft
    case shr => exact fun n _ => ofNat_shiftRight
    case sra => exact fun n hn x y => ofNat_shiftArith x y hn
    case slt => exact fun n hn x y => by rw [signedOf_toNat hn, signedOf_toNat hn, apply_ite (BitVec.ofNat n)]; rfl
    case sltn => exact fun n _ x y => apply_ite (BitVec.ofNat n) _ _ _
    case seq => exact fun n _ x y => by simp only [apply_ite (BitVec.ofNat n), BitVec.toNat_inj]; rfl
    case popc => exact fun n _ x => congrArg (BitVec.ofNat n) (popCount_eq n x.toNat)
    case clz => exact fun n _ x => congrArg (BitVec.ofNat n) (leadingZeros_eq x.isLt)
    case ctz => exact fun n _ x => congrArg (BitVec.ofNat n) (trailingZeros_eq n x.toNat)
  · have writes (v : Word) := writeReg_free hfree v
    refine ⟨writes _, writes _, writes _, writes _, writes _, writes _, writes _, (writes _).trans ?slti, (writes _).trans ?sltni,
      writes _, (writes _).trans ?lui, (writes _).trans ?lpc, (writes _).trans ?lcat⟩
    case slti => simp only [immOf, BitVec.slt_eq_decide, decide_eq_true_eq]
    case sltni => simp only [immOf, BitVec.lt_def]
    case lui => rw [signExtend_shiftLeft_13]
    case lpc => rw [← targetOf_eq, targetOf]
    case lcat => rw [shiftLeft_19_or]

end Sys2Proof.Machine
end

section
/-!
SUPPORT. The party and its masks and counters: EXIT (R94), the mask instructions (R97), deadline registers (R110 to R112), and
WIDTH, YIELD, RDCLK and RDRET (R109, R114 to R116).
-/
namespace Sys2Proof.Machine

/-! ### EXIT (R94) -/

/-- Outside handler mode an instruction that R155 forbids there is as it is. -/
theorem doubleInHandler_of_normal {s : State} (h : s.party.hmode = false) (r : Result) : doubleInHandler s r = r := by
  simp [doubleInHandler, h]

/-- What the state does with a departed party, its neighbours and its group, changes its time and its wait alone. -/
theorem State.exitGroup_sameParty (s : State) (p : Party) :
    SameParty s ((s.endFuses p stFuseGone).closeGroup p.launch p.group true) :=
  (s.endFuses_sameParty p stFuseGone).trans (State.closeGroup_sameParty ..)

/-- Settles O38: of a drained party, EXIT sets life and token stack, and all else that it does keeps both. -/
theorem exitEnds : Obligations.ExitEnds := by
  unfold Obligations.ExitEnds
  intro s k hmode hdrained
  let t := s.dropBarriers (s.home s.party) s.party
  obtain ⟨n, w, hparty⟩ : SameParty s t := s.dropBarriers_sameParty _ _
  let u := t.finish { t.party.certain with life := .exited, tokens := [], spilled := 0 }
  refine ⟨(u.endFuses s.party stFuseGone).closeGroup s.party.launch s.party.group true, ?_, ?_⟩
  · show execExit k s = _
    rw [execExit, doubleInHandler_of_normal hmode]
    simp only [hdrained, Bool.not_true, Bool.false_eq_true, if_false]
    rfl
  · obtain ⟨n', w', hend⟩ := State.exitGroup_sameParty u s.party
    have hu : u.party = ({ t.party.certain with life := .exited, tokens := [], spilled := 0 } : Party).retire (t.party.pc + 4) := rfl
    rw [hend, hu, hparty]
    simp [Party.certain, Party.present]

/-! ### Deadline registers (R110, R111) -/

/-- The tick of a deadline register, moved and clamped, with the two bits above it kept (R111). -/
theorem addTicks_eq (v : Word) (by_ : Int) : addTicks v by_ = v.extractLsb' 62 2 ++
    BitVec.ofInt 62 (max 0 (min (2 ^ 62 - 1) ((v.extractLsb' 0 62).toNat + by_))) := by
  have hclamp : (if (v.toNat % 2 ^ 62 + by_ : Int) < 0 then 0 else if (2 ^ 62 - 1 : Int) < v.toNat % 2 ^ 62 + by_ then 2 ^ 62 - 1
      else (v.toNat % 2 ^ 62 + by_ : Int).toNat : Nat) = (max 0 (min (2 ^ 62 - 1) ((v.toNat % 2 ^ 62 : Nat) + by_)) : Int).toNat := by
    push_cast
    split_ifs <;> omega
  apply BitVec.eq_of_toNat_eq
  rw [toNat_low62, addTicks]
  simp only [hclamp, BitVec.toNat_append, BitVec.extractLsb'_toNat, BitVec.toNat_ofInt, BitVec.toNat_ofNat]
  rw [← Nat.shiftLeft_add_eq_or_of_lt (by omega), Nat.shiftLeft_eq, Nat.shiftRight_eq_div_pow]
  have hv := v.isLt
  generalize (v.toNat % 2 ^ 62 : Nat) + by_ = x
  omega

theorem writeDl_free {s : State} {n : BitVec 2} (hfree : s.holdsDl s.party n = false) (v : Word) :
    writeDl s n v = .next (s.finish (s.party.setDeadlineReg n v)) := by
  rw [writeDl, hfree]
  rfl

/-- Settles O19: each instruction is a write of a register that holds for no reader, and YIELD by the guard of its hold. -/
theorem deadlinesAndCounters : Obligations.DeadlinesAndCounters := by
  unfold Obligations.DeadlinesAndCounters
  refine ⟨fun s k n d a => ⟨fun hfree => ⟨writeDl_free hfree _, ?_⟩, fun hfree => ⟨writeReg_free hfree _, writeReg_free hfree _⟩⟩,
    fun s k d => ⟨fun hfree => ⟨writeReg_free hfree _, writeReg_free hfree _, fun hreplay => ?_, fun hreplay => ?_⟩,
      fun hmode hdrained => ?_, fun hpark => ?_⟩⟩
  · rw [← addTicks_eq]
    exact writeDl_free hfree _
  · show execRdclk k d s = _
    rw [execRdclk, writeReg_free hfree, if_pos hreplay]
  · show execRdclk k d s = _
    rw [execRdclk, writeReg_free hfree, if_neg (by simp [hreplay])]
  · show execYield k s = _
    simp [execYield, hmode, hdrained, hold]
  · show execYield k s = _
    rw [execYield, if_neg (by rcases hpark with h | h <;> simp [h])]
    rfl

/-! ### Lanes of a mask (R24, R27) -/

/-- The bits of the mask of the first `n` lanes. -/
theorem getLsbD_firstLanes (n : Nat) {l : Nat} (hl : l < 1024) : (BitVec.ofNat 1024 (2 ^ n - 1)).getLsbD l = decide (l < n) := by
  rw [BitVec.getLsbD_ofNat, Nat.testBit_two_pow_sub_one, decide_eq_true hl, Bool.true_and]

/-- A summary bit says that its data word has a lane (R27). -/
theorem getLsbD_summary_fold (m : Mask) (i : Nat) (l : List Nat) (a : BitVec 32) (hi : i < 32) :
    (l.foldl (fun (a : BitVec 32) i => if maskWord m i = 0 then a else a ||| (1 <<< i)) a).getLsbD i =
      (a.getLsbD i || (decide (i ∈ l) && decide (maskWord m i ≠ 0))) := by
  induction l generalizing a with
  | nil => simp
  | cons j l ih =>
    rw [List.foldl_cons, ih]
    have hbit : (BitVec.ofNat 32 (1 <<< j)).getLsbD i = decide (j = i) := by
      rw [BitVec.getLsbD_ofNat, Nat.one_shiftLeft, Nat.testBit_two_pow, decide_eq_true hi, Bool.true_and]
    rcases eq_or_ne j i with rfl | hij
    · by_cases hword : maskWord m j = 0#32 <;> simp [hword, hbit]
    · by_cases hword : maskWord m j = 0#32 <;> simp [hword, hbit, hij, hij.symm]

theorem maskWord_eq_zero_iff (m : Mask) (i : Nat) : maskWord m i = 0#32 ↔ ∀ j < 32, m.getLsbD (32 * i + j) = false := by
  have hbit {j : Nat} (hj : j < 32) : (maskWord m i).getLsbD j = m.getLsbD (32 * i + j) := by
    rw [maskWord_eq, BitVec.getLsbD_extractLsb', decide_eq_true hj, Bool.true_and]
  constructor
  · intro h j hj
    rw [← hbit hj, h]
    simp
  · intro h
    apply BitVec.eq_of_getLsbD_eq
    intro j hj
    rw [hbit hj, h j hj]
    simp

theorem getLsbD_summary (m : Mask) {i : Nat} (hi : i < 32) :
    (summary m).getLsbD i = (List.range 32).any fun j => m.getLsbD (32 * i + j) := by
  rw [summary, getLsbD_summary_fold _ _ _ _ hi, Bool.eq_iff_iff]
  have hmem : i ∈ upTo 0 32 := by rw [upTo_eq_range']; simp [hi]
  simp [hmem, maskWord_eq_zero_iff]

/-- A mask has no lane exactly where its summary has none. -/
theorem summary_eq_zero_iff (m : Mask) : summary m = 0 ↔ m = 0 := by
  constructor
  · intro h
    apply BitVec.eq_of_getLsbD_eq
    intro l hl
    have hword : (summary m).getLsbD (l / 32) = false := by rw [h]; simp
    rw [getLsbD_summary m (by omega), List.any_eq_false] at hword
    have hbit := hword (l % 32) (List.mem_range.mpr (Nat.mod_lt _ (by norm_num)))
    rw [Nat.div_add_mod] at hbit
    simpa using hbit
  · rintro rfl
    apply BitVec.eq_of_getLsbD_eq
    intro i hi
    rw [getLsbD_summary _ hi]
    simp

/-! ### Mask instructions (R97) -/

/-- With no lane writer of a mask incomplete, a mask is written as it is, limited to the party's lanes. -/
theorem Party.writeMask_of_settled {p : Party} (h : p.looseMasks = []) (free : Nat) (n : BitVec 3) (m : Mask) :
    p.writeMask free n m = p.setMask n m := by
  have hlanes : m &&& p.allLanes &&& p.allLanes = m &&& p.allLanes := by rw [BitVec.and_assoc, BitVec.and_self]
  simp only [Party.writeMask, Party.setMask, h, List.any_nil, Bool.false_eq_true, if_false, List.map_nil, hlanes]

section
variable {s : State} (hsettled : s.party.looseMasks = []) {pd : BitVec 3} (hfree : s.holdsMask s.party pd = false)
include hsettled hfree

theorem writePd_free (m : Mask) : writePd s pd m = .next (s.finish (s.party.setMask pd m)) := by
  rw [writePd, hfree, Party.writeMask_of_settled hsettled]
  rfl

/-- What a write of a mask gives: its lanes there, and nothing else but the completion. -/
theorem writePd_lanes {m : Mask} {bit : Nat → Bool} (hbit : ∀ l, l < s.party.width → l < 1024 → m.getLsbD l = bit l) :
    ∃ t, writePd s pd m = .next t ∧
      (∀ l, l < 1024 → (t.party.mask pd).getLsbD l = (decide (l < s.party.width) && bit l)) ∧
      (∀ n, n ≠ pd → t.party.mask n = s.party.mask n) ∧
      t = s.finish { s.party with p := t.party.p, recent := t.party.recent } := by
  refine ⟨_, writePd_free hsettled hfree m, fun l hl => ?_, fun n hn => ?_, rfl⟩
  · show ((s.party.setMask pd m).mask pd).getLsbD l = _
    rw [Party.mask_setMask, if_pos rfl, BitVec.getLsbD_and, Party.allLanes, getLsbD_firstLanes _ hl, Bool.and_comm]
    by_cases hwidth : l < s.party.width
    · rw [hbit l hwidth hl]
    · simp [hwidth]
  · show (s.party.setMask pd m).mask n = _
    rw [Party.mask_setMask, if_neg hn]

end

/-- Settles O17: each mask instruction writes its mask lane by lane, and the three that count read the mask as it stands. -/
theorem maskResults : Obligations.MaskResults := by
  unfold Obligations.MaskResults
  intro s k pd pa pb a d hsettled x gives sets
  have hread (n : BitVec 3) : s.scalarMask s.party n = s.party.mask n := s.scalarMask_of_settled hsettled n
  refine ⟨fun hfree => ?_, fun hfree => ?_, fun l hl => getLsbD_firstLanes _ hl, fun m i hi => getLsbD_summary m hi⟩
  · refine ⟨writePd_lanes hsettled hfree fun l hwidth hl => ?_, writePd_lanes hsettled hfree fun l hwidth hl => ?_,
      writePd_lanes hsettled hfree fun l hwidth hl => ?_, writePd_lanes hsettled hfree fun l hwidth hl => ?_,
      writePd_lanes hsettled hfree fun l hwidth hl => ?_⟩
    · rw [getLsbD_firstLanes _ hl]
      exact decide_eq_decide.mpr (Nat.lt_min.trans (and_iff_left hwidth))
    · rw [BitVec.getLsbD_and, hread, hread]
    · rw [BitVec.getLsbD_and, BitVec.getLsbD_not, hread, hread, decide_eq_true hl, Bool.true_and]
    · rw [BitVec.getLsbD_or, hread, hread]
    · rw [BitVec.getLsbD_xor, hread, hread]
  · refine ⟨?_, ?_, ?_⟩
    · show execMany k d pa s = _
      rw [execMany, writeReg_free hfree, hread]
      simp only [summary_eq_zero_iff]
    · show execMall k d pa s = _
      rw [execMall, writeReg_free hfree, hread]
    · show execMcount k d pa s = _
      rw [execMcount, writeReg_free hfree, hread, popCount_eq]
      rfl

end Sys2Proof.Machine
end

section
/-!
SUPPORT. Waits for flags and batches, and the close of a batch (R96, R262, R263).
-/
namespace Sys2Proof.Machine

/-! ### Ends that are no expiry (R38, R39) -/

theorem escalates_of_ended (d : Deadline) (count : BitVec 8) (xlim : Nat) : escalates d false count xlim = false := by
  simp [escalates]

/-- A wait that ends with no expiry leaves its status, the code in its destination, and the expiry count at 0 unless it polled. -/
theorem State.endWith_of_ended (s : State) (w : Wait) {st : Word} (h : isExpiry st = false) :
    let u := if w.joins st then s.catchUp else s
    s.endWith w st = u.finish (({ u.party with
      xcount := if w.deadline.poll then u.party.xcount else 0, wait := none }.setSt st).setReg w.dest (st &&& 0xFF)) := by
  intro u
  show u.endWait w.dest w.deadline st (isExpiry st) = _
  rw [h, State.endWait_eq, escalates_of_ended]
  rfl

theorem Wait.joins_twait {w : Wait} (hkind : w.kind = .twait) {st : Word} (h : isExpiry st = false) : w.joins st = true := by
  have hcode : codeOf st ≠ stTimeout := by
    intro hcode
    simp [isExpiry, hcode] at h
  simp [Wait.joins, hkind, hcode]

theorem Wait.joins_waitf {w : Wait} (hkind : w.kind = .waitf) (st : Word) : w.joins st = false := by simp [Wait.joins, hkind]

theorem isExpiry_ok : isExpiry stOk = false := by decide

/-- Where a wait may begin, the instruction is its wait. -/
theorem waiting_of_mayWait {s : State} {d : Reg} (h : s.mayWait d) (r : Result) : waiting s d r = r := by
  obtain ⟨hmode, hfree⟩ := h
  rw [waiting, doubleInHandler_of_normal hmode, hfree]
  rfl

/-! ### Lane writers that become certain (R34) -/

/-- One lane writer judged: left with what the certain ones before it wrote, or certain itself. -/
def certifyStep (sure : LooseMask → Bool) (acc : List LooseMask × List LooseMask) (e : LooseMask) :
    List LooseMask × List LooseMask :=
  if sure e then (acc.1, acc.2 ++ [e])
  else (acc.1 ++ [{ e with
    old := acc.2.foldr (fun w m => if w.reg = e.reg then (m &&& ~~~w.lanes) ||| (w.value &&& w.lanes) else m) e.old }], acc.2)

theorem certify_eq (sure : LooseMask → Bool) (l : List LooseMask) : certify sure l = (l.foldl (certifyStep sure) ([], [])).1 := rfl

/-- What a lane writer adds to those left uncertain is itself, where it is not certain. -/
theorem mem_certifyStep {sure : LooseMask → Bool} {acc : List LooseMask × List LooseMask} {e x : LooseMask}
    (he : e ∈ (certifyStep sure acc x).1) : e ∈ acc.1 ∨ (x.reg = e.reg ∧ x.flag = e.flag ∧ sure x = false) := by
  unfold certifyStep at he
  split at he
  · exact .inl he
  · rename_i hsure
    rcases List.mem_append.mp he with he | he
    · exact .inl he
    · rw [List.mem_singleton.mp he]
      exact .inr ⟨rfl, rfl, Bool.eq_false_of_not_eq_true hsure⟩

theorem mem_foldl_certifyStep {sure : LooseMask → Bool} {e : LooseMask} (l : List LooseMask) :
    ∀ acc, e ∈ (l.foldl (certifyStep sure) acc).1 → e ∈ acc.1 ∨ ∃ x ∈ l, x.reg = e.reg ∧ x.flag = e.flag ∧ sure x = false := by
  induction l with
  | nil => exact fun acc he => .inl he
  | cons x l ih =>
    intro acc he
    rcases ih _ he with he | ⟨y, hy, hsame⟩
    · rcases mem_certifyStep he with he | hsame
      · exact .inl he
      · exact .inr ⟨x, List.mem_cons_self, hsame⟩
    · exact .inr ⟨y, List.mem_cons_of_mem x hy, hsame⟩

/-- What is left uncertain stood there before, and was not among what became certain. -/
theorem mem_certify {sure : LooseMask → Bool} {l : List LooseMask} {e : LooseMask} (he : e ∈ certify sure l) :
    ∃ x ∈ l, x.reg = e.reg ∧ x.flag = e.flag ∧ sure x = false := by
  rw [certify_eq] at he
  exact (mem_foldl_certifyStep l _ he).resolve_left List.not_mem_nil

/-! ### The instructions -/

/-- How many batches ago a batch was opened, as R263 counts it. -/
theorem toNat_sub_batch (b : BitVec 16) (n : Nat) : (b - BitVec.ofNat 16 n).toNat = (b.toNat + 2 ^ 16 - n % 2 ^ 16) % 2 ^ 16 := by
  rw [BitVec.toNat_sub, BitVec.toNat_ofNat]
  omega

/-- Settles O35: WAITF and TWAIT by the end of a wait that is no expiry, TBAT by its guard. -/
theorem flagAndBatchWaits : Obligations.FlagAndBatchWaits := by
  unfold Obligations.FlagAndBatchWaits
  intro s k d a fl dl n age status atOnce
  have hage : age = (s.party.openBatch.toNat + 2 ^ 16 - n) % 2 ^ 16 := by
    rw [show age = _ from toNat_sub_batch _ _]
    simp [n]
  refine ⟨fun hmay => ⟨?_, fun hfl hbusy => ?_, fun hold => ?_, fun hage' hhome hbusy hstatus => ?_⟩, fun hreg htask => ?_,
    fun hreg htask => ?_⟩
  · show execWaitf k d 0 dl s = _
    simp only [execWaitf, waiting_of_mayWait hmay, State.endAtOnce, if_true, State.endWith_of_ended _ _ isExpiry_ok]
    rw [Wait.joins_waitf rfl]
    rfl
  · let w := s.newWait .waitf (.waitf k d fl dl) d dl 0 0
    let masks := (s.party.sureOf fl s.party.lruns).looseMasks
    have hattempt : s.attempt w = .ended { s with party := { s.party with looseMasks := masks } } stOk := by
      show (if !s.settersBusy s.party fl s.party.lruns then Attempt.ended _ stOk else .waiting) = _
      rw [hbusy]
      rfl
    refine ⟨masks, ?_, fun e he => ?_⟩
    · show execWaitf k d fl dl s = _
      rw [execWaitf, waiting_of_mayWait hmay, if_neg hfl, State.startWait_ended hattempt, State.endWith_of_ended _ _ isExpiry_ok,
        Wait.joins_waitf rfl]
      rfl
    · obtain ⟨x, hx, hreg, hflag, hsure⟩ := mem_certify he
      refine ⟨x, hx, hreg, hflag, ?_⟩
      rintro ⟨m, hm, hbit, horder⟩
      simp [hm, hbit, horder] at hsure
  · show execTwait k d a dl s = _
    rw [execTwait, waiting_of_mayWait hmay, if_pos (hage ▸ hold), State.endAtOnce, State.endWith_of_ended _ _ isExpiry_ok,
      Wait.joins_twait rfl isExpiry_ok]
    rfl
  · let w := s.newWait .twait (.twait k d a dl) d dl (s.party.reg a) 0
    have hold : ¬256 ≤ (s.party.openBatch.toNat + 2 ^ 16 - n) % 2 ^ 16 := by rw [← hage]; omega
    have hbatch : s.batchState s.party n = status := by
      rw [State.batchState, hhome, Party.batchStatus, if_neg hold]
      rfl
    have hattempt : s.attempt w = .ended s status := by
      show (if s.batchBusy s.party n s.ids then Attempt.waiting else .ended s (s.batchState s.party n)) = _
      rw [hbusy, hbatch]
      rfl
    show execTwait k d a dl s = _
    rw [execTwait, waiting_of_mayWait hmay, if_neg hold, State.startWait_ended hattempt, State.endWith_of_ended _ _ hstatus,
      Wait.joins_twait rfl hstatus]
    rfl
  · obtain ⟨t, ht, hmember, hbatch⟩ := htask
    show execTbat k d s = _
    refine if_pos ?_
    rw [hreg, Bool.false_or, List.any_eq_true]
    exact ⟨t, ht, by simpa [hmember] using hbatch⟩
  · show execTbat k d s = _
    refine if_neg ?_
    rw [hreg, Bool.false_or, List.any_eq_true]
    rintro ⟨t, ht, hmatch⟩
    obtain ⟨hmember, hbatch⟩ : s.party.pid ∈ t.members ∧ t.batch = (s.party.openBatch + 1 - 256).toNat := by simpa using hmatch
    exact htask t ht hmember hbatch

end Sys2Proof.Machine
end

section
/-!
SUPPORT. A FUSE of parties whose positions without a written value reach beyond the last register position (R30, R31, R108): the
zeros that the join lists for the lower party then lie in the key range of the next lane, and hide what the upper party wrote.
-/
namespace Sys2Proof.Machine

/-- One lane, whose positions read zero up to one beyond the 1024 that a lane has. -/
def overFreshLower : Party := { Party.blank with width := 1, life := .running, fresh := 1025 }

/-- The FUSE that the neighbour waits in, at address 0. -/
def overFreshWait : Wait where
  kind := .fuse
  instr := .fuse false 0 0
  dest := 0
  deadline := { party := false, ticks := 0, ceiling := false, poll := false, esc := false, sel := 0 }
  w1 := 0
  w2 := 0
  order := 0
  seq := 0
  met := false
  decided := none
  work := .none
  claim := none

/-- The neighbour: its one lane wrote 7 to its register at position 0. -/
def overFreshUpper : Party :=
  { Party.blank with pid := 1, first := 1, width := 1, life := .running, fresh := 1024, regs := [(regKey 1 0, 7)]
                     wait := some overFreshWait }

def overFreshState : State := { State.reset with party := overFreshLower, others := [overFreshUpper] }

/-- A lane register of the party in focus after a step. -/
def Result.laneReg (key : Nat) : Result → Option (BitVec 32)
  | .next t => some (t.party.laneReg key)
  | _ => none

/-- After the join the register of the upper lane reads 0. -/
theorem laneReg_fuse_overFresh : Result.laneReg (regKey 1 0) (exec (.fuse false 0 0) overFreshState) = some 0 := by
  rfl

/-- Refutes O37: where the lower party's positions that read zero reach beyond the last, the join puts a zero in the place of a
register that the upper party wrote. -/
theorem not_fuseJoins : ¬ Obligations.FuseJoins := by
  unfold Obligations.FuseJoins
  intro h
  obtain ⟨t, hexec, -, -, -, -, -, -, -, -, -, -, -, -, -, -, -, hregs⟩ :=
    h overFreshState false 0 0 overFreshUpper overFreshWait ⟨rfl, rfl, rfl⟩ rfl (List.mem_singleton.mpr rfl) (by decide)
      (fun x hx hpid => absurd (congrArg Party.pid (List.mem_singleton.mp hx)) hpid) rfl (by decide) (by decide) rfl (by decide)
      (.inl rfl) ⟨List.Pairwise.nil, by simp [overFreshState, overFreshLower, Party.blank]⟩
      ⟨List.pairwise_singleton _ _, by simp [overFreshUpper, regKey]⟩
      rfl rfl rfl rfl rfl rfl rfl rfl rfl rfl rfl rfl rfl
  have hkept := hregs overFreshUpper 1 0 (.inr rfl) (by decide) (by decide) (by decide)
    (.inl ⟨(regKey 1 0, 7), List.mem_singleton.mpr rfl, rfl⟩)
  have hzero : some (t.party.laneReg (regKey 1 0)) = some 0 := by
    rw [← laneReg_fuse_overFresh, hexec]
    rfl
  rw [hkept] at hzero
  exact absurd (Option.some.inj hzero) (by decide)

end Sys2Proof.Machine
end

section
/-!
SUPPORT. SPLIT: what standing FUSEs beside a party come to (R107), and the two halves of a party (R35, R104, R105).
-/
namespace Sys2Proof.Machine

/-! ### Standing FUSEs (R107) -/

/-- A wait once standing FUSEs have ended with a code: an undecided FUSE is decided. -/
def Wait.fuseEnded (code : Word) (w : Wait) : Wait :=
  { w with decided := w.decided.or (if w.kind = .fuse then some code else none) }

/-- Another party of the group whose aligned neighbour's range the party covers. -/
def Party.beside (p q : Party) : Bool :=
  q.pid != p.pid && q.launch == p.launch && q.group == p.group && rangesMeet q.neighbour q.width p.first p.width

/-- A party once the FUSEs that stand beside `p` have ended. -/
def Party.fuseEnded (p : Party) (code : Word) (x : Party) : Party :=
  if p.beside x then { x with wait := x.wait.map (Wait.fuseEnded code) } else x

/-- A change of the wait alone. -/
theorem Party.fuseEnded_frame (p : Party) (code : Word) (x : Party) : ∃ w, p.fuseEnded code x = { x with wait := w } := by
  unfold Party.fuseEnded
  split
  · exact ⟨_, rfl⟩
  · exact ⟨x.wait, rfl⟩

/-- A party with the wait that it has is itself. -/
theorem Party.with_wait {x : Party} {w : Option Wait} (h : x.wait = w) : { x with wait := w } = x := by
  subst h
  rfl

/-- A wait that is no undecided FUSE stays as it is. -/
theorem Wait.fuseEnded_of_other {w : Wait} (h : ¬(w.kind = .fuse ∧ w.decided = none)) (code : Word) : w.fuseEnded code = w := by
  have hdecided : w.decided.or (if w.kind = .fuse then some code else none) = w.decided := by
    cases hd : w.decided with
    | some st => rfl
    | none => exact if_neg fun hkind => h ⟨hkind, hd⟩
  rw [Wait.fuseEnded, hdecided]

theorem State.endFuses_eq (s : State) (p : Party) (code : Word) :
    s.endFuses p code = { s with party := p.fuseEnded code s.party, others := s.others.map (p.fuseEnded code) } := by
  unfold State.endFuses
  extract_lets f
  have hf : f = p.fuseEnded code := by
    funext x
    cases hwait : x.wait with
    | none => simp [f, Party.fuseEnded, hwait, Party.with_wait hwait]
    | some w =>
      by_cases hstands : w.kind = .fuse ∧ w.decided = none
      · obtain ⟨hkind, hdecided⟩ := hstands
        simp [f, Party.fuseEnded, Party.beside, Wait.fuseEnded, hwait, hkind, hdecided]
      · have hkeep : w.kind = .fuse → ¬w.decided = none := not_and.mp hstands
        simp +contextual [f, Party.fuseEnded, hwait, hkeep, Wait.fuseEnded_of_other hstands, Party.with_wait hwait]
  rw [hf]

/-! ### The halves (R35, R104) -/

/-- The lanes of a mask that a half has, renumbered (R35). -/
theorem getLsbD_cutMask (m : Mask) (at_ : Nat) {n l : Nat} (hl : l < n) : (cutMask m at_ n).getLsbD l = m.getLsbD (at_ + l) := by
  rw [cutMask, BitVec.getLsbD_and, BitVec.getLsbD_ushiftRight]
  by_cases hbits : l < 1024
  · rw [getLsbD_firstLanes _ hbits, decide_eq_true hl, Bool.and_true]
  · have hout : m.getLsbD (at_ + l) = false := BitVec.getLsbD_of_ge _ _ (by omega)
    rw [hout, Bool.false_and]

theorem Party.getLsbD_mask_half (p : Party) (at_ : Nat) (m : BitVec 3) {n l : Nat} (hl : l < n) :
    ((p.half at_ n).mask m).getLsbD l = (p.mask m).getLsbD (at_ + l) := by
  rw [← getLsbD_cutMask _ _ hl]
  simp [Party.mask, Party.half]

/-- A half has the lane registers of its lanes. -/
theorem Party.laneReg_half (p : Party) {at_ n q pos : Nat} (hpos : pos < 1024) (hlow : p.first + at_ ≤ q)
    (hhigh : q < p.first + at_ + n) : (p.half at_ n).laneReg (regKey q pos) = p.laneReg (regKey q pos) := by
  have hlane : regKey q pos / 1024 = q := by unfold regKey; omega
  have hfind : (p.half at_ n).regs.find? (fun e => e.1 == regKey q pos) = p.regs.find? fun e => e.1 == regKey q pos := by
    show (p.regs.filter _).find? _ = _
    rw [List.find?_filter]
    congr 1
    funext e
    by_cases hkey : e.1 = regKey q pos
    · simp [hkey, hlane, hlow, hhigh]
    · simp [hkey]
  rw [Party.laneReg, hfind]
  rfl

/-! ### SPLIT (R104, R105) -/

/-- The party that a SPLIT divides: it has gone on to the next word with sd and `st` 0. -/
def Party.dividing (p : Party) (d : Reg) : Party := ((p.setSt stOk).setReg d 0).retire (p.pc + 4)

/-- The upper half, once the tokens in its spill block have been read. -/
def State.upperHalf (s : State) (d : Reg) (slot : Nat) : Party :=
  let n := s.party.width / 2
  { (s.rereadTokens (s.home s.party) (s.party.dividing d)).half n n with pid := s.ids, slot := slot }

theorem State.copyTokens_of_unspilled (s : State) (l : Launch) {up : Party} (h : up.spilled = 0) : s.copyTokens l up = .ok s := by
  rw [State.copyTokens, h]
  rfl

theorem State.splitCopies_party (s : State) (lo hi : Nat) : (s.splitCopies lo hi).party = s.party := rfl

theorem State.splitCopies_others (s : State) (lo hi : Nat) : (s.splitCopies lo hi).others = s.others := rfl

/-- The party that a SPLIT goes on with. -/
theorem State.finish_dividing (s : State) (d : Reg) : (s.finish ((s.party.setSt stOk).setReg d 0)).party = s.party.dividing d := by
  rw [State.finish_party, Party.setReg_pc, Party.setSt_pc, Party.dividing]

/-- The state of a SPLIT before it copies tokens. -/
def State.halved (s : State) (d : Reg) (slot : Nat) : State :=
  let t := s.finish ((s.party.setSt stOk).setReg d 0)
  (({ t with
      party := (s.party.dividing d).half 0 (s.party.width / 2), others := t.others ++ [s.upperHalf d slot]
      ids := s.ids + 1 } : State).shareWork s.party.pid s.ids).endFuses s.party stFuseWidth |>.splitCopies s.party.pid s.ids

/-- With no token spilled, a SPLIT copies nothing. -/
theorem State.divide_of_unspilled {s : State} (h : s.party.spilled = 0) (d : Reg) (slot : Nat) :
    s.divide d slot = s.halved d slot := by
  have hup : (s.upperHalf d slot).spilled = 0 := by
    simp [State.upperHalf, Party.half, Party.certain, State.rereadTokens, Party.dividing, h]
  unfold State.divide
  simp only [State.finish_dividing]
  rw [State.copyTokens_of_unspilled]
  · rfl
  · exact hup

/-- Of the scalar registers of the party that goes on, sd alone is written. -/
theorem Party.dividing_reg (p : Party) (d r : Reg) : (p.dividing d).reg r = if r = d ∧ d ≠ 0 then 0 else p.reg r :=
  (p.setSt stOk).reg_setReg d r 0

theorem Party.dividing_laneReg (p : Party) (d : Reg) (key : Nat) : (p.dividing d).laneReg key = p.laneReg key := by
  simp [Party.laneReg, Party.dividing]

theorem Party.dividing_mask (p : Party) (d : Reg) (m : BitVec 3) : (p.dividing d).mask m = p.mask m := by
  simp [Party.mask, Party.dividing]

theorem Party.dividing_st (p : Party) (d : Reg) : (p.dividing d).st = 0 := by simp [Party.dividing, stOk]

theorem Party.dividing_retired {p : Party} (h : p.hmode = false) (d : Reg) : (p.dividing d).retired = p.retired + 1 := by
  simp [Party.dividing, h]

/-- What a half of a party that goes on after a SPLIT holds: the scalar state of the party and its own lanes. -/
def Party.IsHalf (x p : Party) (d : Reg) (at_ : Nat) : Prop :=
  let n := p.width / 2
  x.width = n ∧ x.first = p.first + at_ ∧ x.pc = p.pc + 4 ∧ x.retired = p.retired + 1 ∧ x.pt = p.pt ∧ x.st = 0 ∧
    (d ≠ 0 → x.reg d = 0) ∧ (∀ r, r ≠ d → x.reg r = p.reg r) ∧
    (∀ m l, l < n → (x.mask m).getLsbD l = (p.mask m).getLsbD (at_ + l)) ∧
    ∀ q pos, pos < 1024 → p.first + at_ ≤ q → q < p.first + at_ + n → x.laneReg (regKey q pos) = p.laneReg (regKey q pos)

/-- A half as it stands after a SPLIT, whatever its number, slot, wait and tokens. -/
def Party.halfAs (p : Party) (d : Reg) (at_ pid slot : Nat) (tokens : List Token) (w : Option Wait) : Party :=
  { ({ p.dividing d with tokens := tokens } : Party).half at_ (p.width / 2) with pid := pid, slot := slot, wait := w }

theorem Party.isHalf {p : Party} (hmode : p.hmode = false) (d : Reg) (at_ pid slot : Nat) (tokens : List Token) (w : Option Wait) :
    (p.halfAs d at_ pid slot tokens w).IsHalf p d at_ := by
  have hfirst : (p.dividing d).first = p.first := by simp [Party.dividing]
  have hreg (r : Reg) : (p.halfAs d at_ pid slot tokens w).reg r = (p.dividing d).reg r := by
    simp only [Party.reg, Party.halfAs, Party.half, Party.certain]
  refine ⟨rfl, ?_, ?_, ?_, ?_, ?_, fun hd => ?_, fun r hr => ?_, fun m l hl => ?_, fun q pos hpos hlow hhigh => ?_⟩
  · simp [Party.halfAs, Party.half, hfirst]
  · simp [Party.halfAs, Party.half, Party.certain, Party.dividing]
  · simp [Party.halfAs, Party.half, Party.certain, Party.dividing_retired hmode]
  · simp [Party.halfAs, Party.half, Party.certain, Party.dividing]
  · simp [Party.halfAs, Party.half, Party.certain, Party.dividing_st]
  · rw [hreg, Party.dividing_reg, if_pos ⟨rfl, hd⟩]
  · rw [hreg, Party.dividing_reg, if_neg fun h => hr h.1]
  · rw [← p.dividing_mask d]
    exact Party.getLsbD_mask_half { p.dividing d with tokens := tokens } at_ m hl
  · rw [← p.dividing_laneReg d]
    exact Party.laneReg_half { p.dividing d with tokens := tokens } hpos (hfirst ▸ hlow) (hfirst ▸ hhigh)

theorem State.halved_party (s : State) (d : Reg) (slot : Nat) : ∃ tokens w,
    (s.halved d slot).party = s.party.halfAs d 0 s.party.pid s.party.slot tokens w := by
  obtain ⟨w, hlower⟩ := s.party.fuseEnded_frame stFuseWidth ((s.party.dividing d).half 0 (s.party.width / 2))
  refine ⟨(s.party.dividing d).tokens, w, ?_⟩
  have hpid : (s.party.dividing d).pid = s.party.pid := by simp [Party.dividing]
  have hslot : (s.party.dividing d).slot = s.party.slot := by simp [Party.dividing]
  rw [State.halved, State.splitCopies_party, State.endFuses_eq, ← hpid, ← hslot]
  exact hlower

theorem State.halved_others (s : State) (d : Reg) (slot : Nat) : ∃ tokens w,
    s.party.halfAs d (s.party.width / 2) s.ids slot tokens w ∈ (s.halved d slot).others := by
  obtain ⟨w, hupper⟩ := s.party.fuseEnded_frame stFuseWidth (s.upperHalf d slot)
  refine ⟨(s.rereadTokens (s.home s.party) (s.party.dividing d)).tokens, w, ?_⟩
  rw [State.halved, State.splitCopies_others, State.endFuses_eq]
  exact List.mem_map.mpr ⟨s.upperHalf d slot, List.mem_append_right _ (List.mem_singleton.mpr rfl), hupper⟩

section
variable {s : State} (hmode : s.party.hmode = false) (hdrained : s.party.drained = true) (k : Bool) (d : Reg)
include hmode hdrained

theorem execSplit_divides {slot : Nat} (hwide : s.party.width ≠ 32) (hfree : s.freeSlot s.party.core s.party.quad = some slot) :
    exec (.split k d) s = .next (s.divide d slot) := by
  show execSplit k d s = _
  rw [execSplit, doubleInHandler_of_normal hmode]
  simp only [hdrained, Bool.not_true, Bool.false_eq_true, if_false, if_neg hwide, hfree]

theorem execSplit_roomless (hroom : s.party.width = 32 ∨ s.freeSlot s.party.core s.party.quad = none) :
    exec (.split k d) s = .next (s.finish ((s.party.certain.setSt stSplitRoom).setReg d stSplitRoom)) := by
  have hnone : (if s.party.width = 32 then none else s.freeSlot s.party.core s.party.quad) = none := by
    rcases hroom with hroom | hroom
    · exact if_pos hroom
    · rw [hroom, ite_self]
  show execSplit k d s = _
  rw [execSplit, doubleInHandler_of_normal hmode]
  simp only [hdrained, Bool.not_true, Bool.false_eq_true, if_false, hnone]

end

/-- Settles O36: with room the two halves of `halved`, each a half of the party that went on; without, the ROOM status. -/
theorem splitDivides : Obligations.SplitDivides := by
  unfold Obligations.SplitDivides
  intro s k d hmode hdrained hspilled p n
  refine ⟨fun slot hwide hfree => ?_, execSplit_roomless hmode hdrained k d⟩
  obtain ⟨tokens, w, hlower⟩ := s.halved_party d slot
  obtain ⟨tokens', w', hupper⟩ := s.halved_others d slot
  obtain ⟨lwidth, lfirst, lpc, lretired, lpt, lst, lzero, lregs, lmask, llane⟩ := Party.isHalf hmode d 0 p.pid p.slot tokens w
  obtain ⟨uwidth, ufirst, upc, uretired, upt, ust, uzero, uregs, umask, ulane⟩ := Party.isHalf hmode d n s.ids slot tokens' w'
  refine ⟨s.halved d slot, _, ?_, hupper, rfl, rfl, ?_⟩
  · rw [← State.divide_of_unspilled hspilled]
    exact execSplit_divides hmode hdrained k d hwide hfree
  · rw [hlower]
    refine ⟨rfl, rfl, lwidth, uwidth, lfirst, ufirst, lpc, upc, lretired, uretired, lpt, upt, lst, ust,
      fun hd => ⟨lzero hd, uzero hd⟩, fun r hr => ⟨lregs r hr, uregs r hr⟩, fun m l hl => ⟨?_, umask m l hl⟩,
      fun q pos hpos => ⟨llane q pos hpos, fun hlow hhigh => ulane q pos hpos hlow ?_⟩⟩
    · rw [lmask m l hl, Nat.zero_add]
    · rwa [Nat.add_assoc, ← Nat.two_mul]

end Sys2Proof.Machine
end

section
/-!
SUPPORT. What the saves of an eviction leave of the parties (R284, R288, R296, R298): they write memory, groups and the logical
side of accesses, and no party.
-/
namespace Sys2Proof.Machine

theorem foldl_parties {α : Type} {f : State → α → State} (hf : ∀ s a, (f s a).parties = s.parties) (l : List α) (s : State) :
    (l.foldl f s).parties = s.parties := by
  induction l generalizing s with
  | nil => rfl
  | cons a l ih => exact (ih _).trans (hf s a)

theorem foldlM_parties {α : Type} {f : State → α → Except Deny State} (hf : ∀ s a t, f s a = .ok t → t.parties = s.parties)
    (l : List α) {s t : State} (e : l.foldlM f s = .ok t) : t.parties = s.parties := by
  induction l generalizing s with
  | nil => cases e; rfl
  | cons a l ih =>
    rw [List.foldlM_cons] at e
    cases hs : f s a with
    | error d => rw [hs] at e; cases e
    | ok u => rw [hs] at e; exact (ih e).trans (hf s a u hs)

/-- States with the same parties have the same one in focus, and the same others. -/
theorem party_others_of_parties {s t : State} (h : t.parties = s.parties) : t.party = s.party ∧ t.others = s.others :=
  List.cons.inj h

/-! ### Writes of the part -/

theorem State.rekey_parties (s : State) (sector key : Nat) : (s.rekey sector key).parties = s.parties := by
  unfold State.rekey
  split <;> rfl

theorem State.writePhys_parties (s : State) (pa : Nat) (bs : List Byte) (key : Nat) : (s.writePhys pa bs key).parties = s.parties :=
  foldl_parties (f := fun s x => s.rekey x key) (fun s x => s.rekey_parties x key) (sectorsOf pa bs.length) s

theorem State.writePlace_parties (s : State) (p : Place) (bs : List Byte) : (s.writePlace p bs).parties = s.parties := by
  unfold State.writePlace
  split
  · exact s.writePhys_parties ..
  · split <;> rfl

theorem State.poisonByte_parties (s : State) (p : Place) : (s.poisonByte p).parties = s.parties := by
  unfold State.poisonByte
  split
  · rfl
  · split <;> rfl

theorem State.stampLines_parties (s : State) (t : Nat) (p : Place) (n : Nat) : (s.stampLines t p n).parties = s.parties := by
  unfold State.stampLines
  refine foldl_parties (fun u x => ?_) _ _
  rfl

theorem State.noteHost_parties (s : State) (a : Agent) (t : Nat) : (s.noteHost a t).parties = s.parties := by
  unfold State.noteHost
  split <;> rfl

theorem State.noteWrite_parties (s : State) (a : Agent) (p : Place) (n : Nat) : (s.noteWrite a p n).1.parties = s.parties :=
  (State.noteHost_parties ..).trans (s.stampLines_parties ..)

theorem State.writePart_parties (s : State) (p : Place) (bs : List Byte) : (s.writePart p bs).parties = s.parties :=
  (State.writePlace_parties ..).trans (s.noteWrite_parties ..)

theorem State.putBytes_parties {s t : State} {sp : Space} {fuel va : Nat} {bs : List Byte}
    (e : s.putBytes sp fuel va bs = .ok t) : t.parties = s.parties := by
  induction fuel generalizing s va bs with
  | zero => cases e; rfl
  | succ fuel ih =>
    unfold State.putBytes at e
    split at e
    · cases e; rfl
    · split at e
      · cases e
      · split at e
        · cases e
        · exact (ih e).trans (State.writePart_parties ..)

theorem State.arenaWrite_parties {s t : State} {sp : Space} {va : Nat} {bs : List Byte} (e : s.arenaWrite sp va bs = .ok t) :
    t.parties = s.parties := State.putBytes_parties e

theorem State.spillEight_parties {s t : State} {l : Launch} {p : Party} {lanes : List Nat} {pos : Nat}
    (e : s.spillEight l p lanes pos = .ok t) : t.parties = s.parties :=
  foldlM_parties (fun _ _ _ e => State.arenaWrite_parties e) lanes e

/-! ### Groups that leave a core -/

theorem State.keepScratch_parties (s : State) (g : Group) : (s.keepScratch g).parties = s.parties := by
  refine Eq.trans (foldl_parties (fun t u => ?_) g.bad _) (foldl_parties (fun t b => ?_) g.backing s)
  · split
    · exact State.poisonByte_parties ..
    · rfl
  · exact (State.writePhys_parties ..).trans rfl

theorem State.saveUnit_parties {s t : State} {l : Launch} {g : Group} {u : Nat} (e : s.saveUnit l g u = .ok t) :
    t.parties = s.parties := by
  unfold State.saveUnit at e
  simp only [bind, Except.bind, pure, Except.pure] at e
  split at e
  · cases e
  · rename_i hwrite
    split at e <;> cases e
    · exact (State.poisonByte_parties ..).trans (State.arenaWrite_parties hwrite)
    · exact State.arenaWrite_parties hwrite

theorem State.saveScratch_parties {s t : State} {l : Launch} {g : Group} (e : s.saveScratch l g = .ok t) :
    t.parties = s.parties := by
  unfold State.saveScratch at e
  dsimp only at e
  split at e
  · cases e; exact s.keepScratch_parties g
  · exact (foldlM_parties (fun _ _ _ e => State.saveUnit_parties e) _ e).trans (s.keepScratch_parties g)

theorem State.saveRoots_parties {s t : State} {l : Launch} {c : Nat} (e : s.saveRoots l c = .ok t) : t.parties = s.parties :=
  foldlM_parties (fun _ _ _ e => State.arenaWrite_parties e) _ e

theorem State.saveRecords_parties {s t : State} {l : Launch} {g : Group} (e : s.saveRecords l g = .ok t) :
    t.parties = s.parties := by
  unfold State.saveRecords at e
  simp only [bind, Except.bind, pure, Except.pure] at e
  split at e
  · cases e
  · rename_i hleaf
    split at e
    · cases e
    · rename_i hcleaf
      have hput := (foldlM_parties (fun _ _ _ e => State.arenaWrite_parties e) _ hcleaf).trans
        (foldlM_parties (fun _ _ _ e => State.arenaWrite_parties e) _ hleaf)
      split at e
      · cases e; exact hput
      · exact (State.saveRoots_parties e).trans hput

theorem State.leaveCore_parties {s t : State} {l : Launch} {g : Nat} (e : s.leaveCore l g = .ok t) : t.parties = s.parties := by
  unfold State.leaveCore at e
  split at e
  · cases e; rfl
  · split at e
    · cases e; rfl
    · simp only [bind, Except.bind] at e
      split at e
      · cases e
      · rename_i hsave
        exact (State.saveRecords_parties e).trans (State.saveScratch_parties hsave)

/-! ### A party that is saved (R298) -/

/-- A party as it is once saved as of a moment. -/
def Party.saved (p : Party) (at_ : Nat) : Party :=
  { p with evicted := true, evictedAt := at_, spilled := p.tokens.length
           wait := p.wait.map fun w => { w with decided := w.awayCode, met := false } }

/-- A save writes the party's registers, tokens, record and queue, marks it as away, and then does what its departure does. -/
theorem State.saveParty_ok {s t : State} (e : s.saveParty = .ok t) : ∃ u : State, u.parties = s.parties ∧
    (({ u with party := s.party.saved u.ids, ids := u.ids + 1 } : State).endFuses s.party stFuseAway).leaveCore
      (s.home s.party) s.party.group = .ok t := by
  unfold State.saveParty at e
  simp only [bind, Except.bind, pure, Except.pure] at e
  split at e
  · cases e
  rename_i a ha
  split at e
  · cases e
  rename_i b hb
  split at e
  · cases e
  rename_i c hc
  have htokens : b.parties = a.parties := by
    refine foldlM_parties (fun u slot v e => ?_) _ hb
    split at e
    · split at e
      · cases e; rfl
      · exact State.arenaWrite_parties e
    · cases e; rfl
  have hsaved : c.parties = s.parties := (State.arenaWrite_parties hc).trans
    (htokens.trans (foldlM_parties (fun _ _ _ e => State.spillEight_parties e) _ ha))
  split at e
  · split at e
    · cases e
    rename_i v hv
    exact ⟨v, (State.arenaWrite_parties hv).trans hsaved, e⟩
  · exact ⟨c, hsaved, e⟩

/-- The party saved is away; a FUSE that stands beside it ends, and the other parties are as they were. -/
theorem State.saveParty_parties {s t : State} (e : s.saveParty = .ok t) :
    ∃ at_, t.party = s.party.saved at_ ∧ t.others = s.others.map (s.party.fuseEnded stFuseAway) := by
  obtain ⟨u, hu, hleave⟩ := State.saveParty_ok e
  obtain ⟨-, hothers⟩ := party_others_of_parties hu
  obtain ⟨hparty, hrest⟩ := party_others_of_parties (State.leaveCore_parties hleave)
  rw [State.endFuses_eq] at hparty hrest
  refine ⟨u.ids, hparty.trans ?_, hrest.trans (congrArg _ hothers)⟩
  have hself : s.party.beside (s.party.saved u.ids) = false := by simp [Party.beside, Party.saved]
  rw [Party.fuseEnded, hself]
  rfl

end Sys2Proof.Machine
end

section
/-!
SUPPORT. Who leaves and how (R107, R297, R298, R358, R361): the order of candidates, the parties that leave together, and what an
eviction makes of them.
-/
namespace Sys2Proof.Machine

/-! ### Candidates (R297) -/

section
variable {α : Type} {first : α → α → Bool}

/-- One more element put into its place in an order. -/
def putSorted (first : α → α → Bool) (sorted : List α) (x : α) : List α :=
  sorted.takeWhile (fun y => !first x y) ++ (x :: sorted.dropWhile fun y => !first x y)

theorem sortedBy_eq (l : List α) : sortedBy first l = l.foldl (putSorted first) [] := rfl

theorem mem_putSorted {sorted : List α} {x y : α} : y ∈ putSorted first sorted x ↔ y = x ∨ y ∈ sorted := by
  have hsplit : y ∈ sorted ↔ y ∈ sorted.takeWhile (fun y => !first x y) ∨ y ∈ sorted.dropWhile (fun y => !first x y) := by
    rw [← List.mem_append, List.takeWhile_append_dropWhile]
  rw [putSorted, hsplit, List.mem_append, List.mem_cons]
  tauto

theorem mem_sortedBy {l : List α} {y : α} : y ∈ sortedBy first l ↔ y ∈ l := by
  have hfold : ∀ sorted, y ∈ l.foldl (putSorted first) sorted ↔ y ∈ sorted ∨ y ∈ l := by
    induction l with
    | nil => simp
    | cons x l ih =>
      intro sorted
      rw [List.foldl_cons, ih, mem_putSorted, List.mem_cons]
      tauto
  rw [sortedBy_eq, hfold]
  simp

variable (htrans : ∀ a b c, first a b = true → first b c = true → first a c = true) (hirrefl : ∀ a, first a a = false)
include htrans hirrefl

/-- Nothing comes after one that it should precede. -/
theorem pairwise_putSorted {sorted : List α} (h : sorted.Pairwise fun a b => first b a = false) (x : α) :
    (putSorted first sorted x).Pairwise fun a b => first b a = false := by
  have hasymm {a b : α} (hab : first a b = true) : first b a = false := by
    by_contra hba
    have := htrans a b a hab (by simpa using hba)
    rw [hirrefl] at this
    cases this
  induction sorted with
  | nil => simp [putSorted]
  | cons y sorted ih =>
    obtain ⟨hy, hsorted⟩ := List.pairwise_cons.mp h
    by_cases hxy : first x y = true
    · have hput : putSorted first (y :: sorted) x = x :: y :: sorted := by simp [putSorted, hxy]
      rw [hput]
      refine List.pairwise_cons.mpr ⟨fun z hz => ?_, h⟩
      rcases List.mem_cons.mp hz with rfl | hz
      · exact hasymm hxy
      · by_contra hzx
        have := htrans z x y (by simpa using hzx) hxy
        rw [hy z hz] at this
        cases this
    · have hput : putSorted first (y :: sorted) x = y :: putSorted first sorted x := by simp [putSorted, hxy]
      rw [hput]
      refine List.pairwise_cons.mpr ⟨fun z hz => ?_, ih hsorted⟩
      rcases mem_putSorted.mp hz with rfl | hz
      · simpa using hxy
      · exact hy z hz

theorem pairwise_sortedBy (l : List α) : (sortedBy first l).Pairwise fun a b => first b a = false := by
  have hfold : ∀ sorted : List α, (sorted.Pairwise fun a b => first b a = false) →
      (l.foldl (putSorted first) sorted).Pairwise fun a b => first b a = false := by
    induction l with
    | nil => exact fun sorted h => h
    | cons x l ih => exact fun sorted h => ih _ (pairwise_putSorted htrans hirrefl h x)
  exact hfold [] List.Pairwise.nil

end

/-- The order in which the candidates of a quad leave (R297). -/
def State.sooner (s : State) (a b : Party) : Prop :=
  s.partyPriority a < s.partyPriority b ∨ (s.partyPriority a = s.partyPriority b ∧
    (s.bankOf b < s.bankOf a ∨ (s.bankOf a = s.bankOf b ∧ b.slot < a.slot)))

/-- The candidates stand in that order. -/
theorem State.pairwise_candidates (s : State) (x : Launch) (core quad : Nat) :
    (s.candidates x core quad).Pairwise fun a b => ¬ s.sooner b a := by
  unfold State.candidates
  refine List.Pairwise.imp ?_ (pairwise_sortedBy ?_ ?_ _)
  · intro a b h hsooner
    simp [State.sooner] at h hsooner
    omega
  · intro a b c
    simp
    omega
  · simp

theorem State.mem_candidates {s : State} {x : Launch} {core quad : Nat} {q : Party} : q ∈ s.candidates x core quad ↔
    q ∈ s.parties ∧ q.core = core ∧ q.quad = quad ∧ s.atPark q = true ∧ s.partyPriority q < s.priority x := by
  simp [State.candidates, mem_sortedBy, State.lesserParties, and_assoc]

/-! ### Who leaves with a party (R358, R361) -/

theorem State.leavers_of_park {s : State} {p : Party} (hstate : (s.context (s.home p).space.ctx).state = 2)
    (hreplay : (s.home p).header.replay = false) (hpark : s.atPark p = true) : s.leavers p = [p.pid] := by
  have hmust : s.mustLeave p = true := by simp [State.mustLeave, hstate, hreplay, hpark]
  simp [State.leavers, hmust, hreplay]

theorem State.leavers_of_gathered {s : State} {p : Party} (h : s.gathered p = true) : s.leavers p =
    (s.parties.filter fun q => q.launch == p.launch && q.live && !q.evicted).map fun q => q.pid := by
  obtain ⟨⟨hreplay, -⟩, hstate⟩ : ((s.home p).header.replay = true ∧ (s.home p).gather = true) ∧
      (s.context (s.home p).space.ctx).state = 2 := by simpa [State.gathered] using h
  have hmust : s.mustLeave p = true := by simp [State.mustLeave, hstate, hreplay, h]
  simp [State.leavers, hmust, hreplay]

/-- The party in focus is the first of its number. -/
theorem State.party?_self (s : State) : s.party? s.party.pid = some s.party := List.find?_cons_of_pos (by simp)

section
variable {s : State}

/-- A party found by its number is one of the parties, and has it. -/
theorem State.party?_some {i : Nat} {q : Party} (h : s.party? i = some q) : q ∈ s.parties ∧ q.pid = i :=
  ⟨List.mem_of_find?_eq_some h, by simpa using List.find?_some h⟩

theorem execEviction_none (h : s.leavers s.party = []) : exec (.eviction s.party.pid) s = .next s := by
  show execEviction s.party.pid s = _
  simp [execEviction, State.party?_self, h]

theorem execEviction_denied {d : Deny} (h : s.evictAll (s.leavers s.party) = .error d) :
    exec (.eviction s.party.pid) s = .next s := by
  show execEviction s.party.pid s = _
  simp [execEviction, State.party?_self, h]

theorem execEviction_granted {t : State} (hsome : s.leavers s.party ≠ [])
    (hmay : ∀ i ∈ s.leavers s.party, ∀ q, s.party? i = some q → s.mayLeave q = true) (h : s.evictAll (s.leavers s.party) = .ok t) :
    exec (.eviction s.party.pid) s = .next t := by
  have hall : ((s.leavers s.party).all fun i => (s.party? i).all s.mayLeave) = true := by
    exact List.all_eq_true.mpr fun i hi => (Option.all_eq_true _ _).mpr (hmay i hi)
  show execEviction s.party.pid s = _
  simp [execEviction, State.party?_self, h, hsome, hall]

end

/-! ### Parties saved one after the other (R361) -/

/-- The numbers of all parties. -/
def State.pids (s : State) : List Nat := s.parties.map Party.pid

/-- A focus keeps the numbers distinct, changes no party, and finds the party that there is. -/
theorem State.focus_facts {s : State} (hnodup : s.pids.Nodup) (pid : Nat) :
    (∀ q ∈ (s.focus pid).parties, q ∈ s.parties) ∧ (s.focus pid).pids.Nodup ∧ (∀ i ∈ s.pids, i ∈ (s.focus pid).pids) ∧
      (pid ∈ s.pids → (s.focus pid).party.pid = pid) := by
  unfold State.focus
  split
  · rename_i hpid
    exact ⟨fun q hq => hq, hnodup, fun i hi => hi, fun _ => hpid⟩
  · rename_i hpid
    split
    · rename_i hnone
      refine ⟨fun q hq => hq, hnodup, fun i hi => hi, fun hmem => ?_⟩
      obtain ⟨q, hq, hq'⟩ := List.mem_map.mp hmem
      rcases List.mem_cons.mp hq with rfl | hq
      · exact absurd hq' hpid
      · exact absurd hq' (by simpa using List.find?_eq_none.mp hnone q hq)
    · rename_i p hfind
      have hp : p ∈ s.others := List.mem_of_find?_eq_some hfind
      have hppid : p.pid = pid := by simpa using List.find?_some hfind
      obtain ⟨hfirst, hothers⟩ := List.nodup_cons.mp hnodup
      refine ⟨fun q hq => ?_, ?_, fun i hi => ?_, fun _ => hppid⟩
      · rcases List.mem_cons.mp hq with rfl | hq
        · exact List.mem_cons_of_mem _ hp
        · rcases List.mem_cons.mp hq with rfl | hq
          · exact List.mem_cons_self
          · exact List.mem_cons_of_mem _ (List.mem_of_mem_filter hq)
      · show (p.pid :: s.party.pid :: (s.others.filter fun x => x.pid != pid).map Party.pid).Nodup
        have hrest : List.Sublist ((s.others.filter fun x => x.pid != pid).map Party.pid) (s.others.map Party.pid) :=
          List.filter_sublist.map _
        refine List.nodup_cons.mpr ⟨?_, List.nodup_cons.mpr ⟨fun h => hfirst (hrest.subset h), hothers.sublist hrest⟩⟩
        rw [hppid, List.mem_cons, not_or]
        exact ⟨Ne.symm hpid, by simp⟩
      · show i ∈ p.pid :: s.party.pid :: (s.others.filter fun x => x.pid != pid).map Party.pid
        obtain ⟨q, hq, rfl⟩ := List.mem_map.mp hi
        rcases List.mem_cons.mp hq with rfl | hq
        · simp
        · by_cases hqpid : q.pid = pid
          · simp [hqpid, hppid]
          · exact List.mem_cons_of_mem _ (List.mem_cons_of_mem _ (List.mem_map_of_mem (List.mem_filter.mpr ⟨hq, by simpa using hqpid⟩)))

theorem Party.fuseEnded_pid (p : Party) (code : Word) (x : Party) : (p.fuseEnded code x).pid = x.pid := by
  obtain ⟨w, h⟩ := p.fuseEnded_frame code x
  rw [h]

theorem Party.fuseEnded_evicted (p : Party) (code : Word) (x : Party) : (p.fuseEnded code x).evicted = x.evicted := by
  obtain ⟨w, h⟩ := p.fuseEnded_frame code x
  rw [h]

/-- After the save of a party, that one is away, and every other is away as it was. -/
theorem State.saveFocus_facts {s t : State} {pid : Nat} (hnodup : s.pids.Nodup) (hmem : pid ∈ s.pids)
    (e : (s.focus pid).saveParty = .ok t) : t.pids.Nodup ∧ (∀ i ∈ s.pids, i ∈ t.pids) ∧
      ∀ q ∈ t.parties, q.evicted = true ∨ (q.pid ≠ pid ∧ ∃ x ∈ s.parties, x.pid = q.pid ∧ x.evicted = q.evicted) := by
  obtain ⟨hsub, hdistinct, hkeep, hfocus⟩ := State.focus_facts hnodup pid
  obtain ⟨at_, hparty, hothers⟩ := State.saveParty_parties e
  have hpids : t.pids = (s.focus pid).pids := by
    have hmap : (Party.pid ∘ (s.focus pid).party.fuseEnded stFuseAway) = Party.pid := funext fun x => Party.fuseEnded_pid ..
    simp [State.pids, State.parties, hparty, hothers, hmap, Party.saved]
  refine ⟨hpids ▸ hdistinct, fun i hi => hpids ▸ hkeep i hi, fun q hq => ?_⟩
  rcases List.mem_cons.mp hq with rfl | hq
  · exact .inl (by rw [hparty]; rfl)
  · rw [hothers] at hq
    obtain ⟨x, hx, rfl⟩ := List.mem_map.mp hq
    refine .inr ⟨fun hpid => ?_, x, hsub x (List.mem_cons_of_mem _ hx), (Party.fuseEnded_pid ..).symm, (Party.fuseEnded_evicted ..).symm⟩
    rw [Party.fuseEnded_pid, ← hfocus hmem] at hpid
    exact (List.nodup_cons.mp hdistinct).1 (hpid ▸ List.mem_map_of_mem hx)

/-- Once the saves are made, every party of the list is away, with those that were before. -/
theorem State.saveAll_evicted {list : List Nat} : ∀ {s t : State} {before : Nat → Prop}, s.pids.Nodup → (∀ i ∈ list, i ∈ s.pids) →
    (∀ q ∈ s.parties, before q.pid → q.evicted = true) →
    list.foldlM (fun (s : State) pid => (s.focus pid).saveParty) s = .ok t →
    t.pids.Nodup ∧ ∀ q ∈ t.parties, before q.pid ∨ q.pid ∈ list → q.evicted = true := by
  induction list with
  | nil =>
    intro s t before hnodup _ hbefore e
    cases e
    exact ⟨hnodup, fun q hq h => hbefore q hq (h.resolve_right List.not_mem_nil)⟩
  | cons pid list ih =>
    intro s t before hnodup hmem hbefore e
    rw [List.foldlM_cons] at e
    cases hsave : (s.focus pid).saveParty with
    | error d => rw [hsave] at e; cases e
    | ok u =>
      rw [hsave] at e
      obtain ⟨hdistinct, hkeep, haway⟩ := State.saveFocus_facts hnodup (hmem pid List.mem_cons_self) hsave
      have hdone : ∀ q ∈ u.parties, (before q.pid ∨ q.pid = pid) → q.evicted = true := by
        intro q hq h
        rcases haway q hq with haway | ⟨hother, x, hx, hpid, hsame⟩
        · exact haway
        · rw [← hsame]
          exact hbefore x hx (hpid ▸ h.resolve_right hother)
      obtain ⟨ht, hall⟩ := ih (before := fun i => before i ∨ i = pid) hdistinct
        (fun i hi => hkeep i (hmem i (List.mem_cons_of_mem _ hi))) hdone e
      refine ⟨ht, fun q hq h => hall q hq ?_⟩
      rw [List.mem_cons] at h
      tauto

/-- A party with the moment at which those of a list left. -/
def Party.stamped (list : List Nat) (now : Nat) (p : Party) : Party := if list.contains p.pid then { p with evictedAt := now } else p

/-- An eviction that is granted made the saves, and stamps those of its list. -/
theorem State.evictAll_ok {s t : State} {list : List Nat} (e : s.evictAll list = .ok t) : ∃ u : State,
    list.foldlM (fun (s : State) pid => (s.focus pid).saveParty) s = .ok u ∧ t = { u.focus s.party.pid with
      party := (u.focus s.party.pid).party.stamped list s.ids, others := (u.focus s.party.pid).others.map (Party.stamped list s.ids) } := by
  unfold State.evictAll at e
  simp only [bind, Except.bind, pure, Except.pure] at e
  split at e
  · cases e
  · rename_i u hu
    cases e
    exact ⟨u, hu, rfl⟩

/-- An eviction that is granted leaves those of its list away since the moment that it began. -/
theorem State.evictAll_evicted {s t : State} {list : List Nat} (hnodup : s.pids.Nodup) (hmem : ∀ i ∈ list, i ∈ s.pids)
    (e : s.evictAll list = .ok t) : ∀ q ∈ t.parties, q.pid ∈ list → q.evicted = true ∧ q.evictedAt = s.ids := by
  obtain ⟨u, hu, rfl⟩ := State.evictAll_ok e
  obtain ⟨hdistinct, haway⟩ := State.saveAll_evicted (before := fun _ => False) hnodup hmem (fun _ _ h => h.elim) hu
  obtain ⟨hsub, -, -, -⟩ := State.focus_facts hdistinct s.party.pid
  intro q hq hlist
  obtain ⟨x, hx, rfl⟩ : ∃ x ∈ (u.focus s.party.pid).parties, x.stamped list s.ids = q := List.mem_map.mp hq
  unfold Party.stamped at hlist ⊢
  by_cases hx' : list.contains x.pid = true
  · rw [if_pos hx']
    exact ⟨haway x (hsub x hx) (.inr (List.contains_iff_mem.mp hx')), rfl⟩
  · rw [if_neg hx'] at hlist
    exact absurd (List.contains_iff_mem.mpr hlist) hx'

/-- A party that leaves alone: the state of its save, with its own number stamped. -/
theorem State.evictAll_single {s t : State} (e : s.saveParty = .ok t) : ∃ u, s.evictAll [s.party.pid] = .ok u ∧ u.mem = t.mem ∧
    u.party = s.party.saved s.ids ∧ ((∀ q ∈ s.others, q.pid ≠ s.party.pid) → u.others = s.others.map (s.party.fuseEnded stFuseAway)) := by
  obtain ⟨at_, hparty, hothers⟩ := State.saveParty_parties e
  have hpid : t.party.pid = s.party.pid := by rw [hparty]; rfl
  have hfocus : t.focus s.party.pid = t := if_pos hpid
  refine ⟨{ t with party := t.party.stamped [s.party.pid] s.ids, others := t.others.map (Party.stamped [s.party.pid] s.ids) },
    ?_, rfl, ?_, fun hother => ?_⟩
  · simp only [State.evictAll, List.foldlM_cons, List.foldlM_nil, State.focus_self, e, bind, Except.bind, pure, Except.pure, hfocus]
    rfl
  · show t.party.stamped [s.party.pid] s.ids = _
    rw [Party.stamped, hpid, hparty]
    simp [Party.saved]
  · show t.others.map (Party.stamped [s.party.pid] s.ids) = _
    rw [hothers, List.map_map]
    refine List.map_congr_left fun q hq => ?_
    have hne : [s.party.pid].contains (s.party.fuseEnded stFuseAway q).pid = false := by
      rw [Party.fuseEnded_pid]
      simpa using hother q hq
    rw [Function.comp_apply, Party.stamped, hne]
    rfl

end Sys2Proof.Machine
end

section
/-!
SUPPORT. What a restore does around the party in focus leaves its number: traps, halts, ends of waits, and the tests of a wait
(R148, R151, R156, R161, R207, R209, R211, R216, R222, R299).
-/
namespace Sys2Proof.Machine

/-! ### Traps and halts -/

theorem State.offerTrap_pid (s : State) (t : Trap) : (s.offerTrap t).party.pid = s.party.pid := by
  obtain ⟨n, w, o, h⟩ := s.offerTrap_party t
  rw [h]

theorem State.halt_pid (s : State) (soft : Bool) : (s.halt soft).party.pid = s.party.pid := by
  unfold State.halt
  extract_lets p l t q x u
  have ht : t.party.pid = s.party.pid := (s.dropBarriers_sameParty l p).pid
  have hu : u.party.pid = x.pid := ((State.endFuses_sameParty ..).trans (State.closeGroup_sameParty ..)).pid
  exact ((State.report_sameParty ..).pid.trans hu).trans ht

theorem State.declineScalar_pid (s : State) (t : Trap) : (s.declineScalar t).party.pid = s.party.pid := by
  unfold State.declineScalar
  cases t.dest <;> simp

/-- Delivery, but for a lane cause that is declined. -/
theorem State.deliver_pid (s : State) {t : Trap} (hsrc : t.src ≠ 1) (sdec : Bool) : (s.deliver t sdec).party.pid = s.party.pid := by
  have hsrc' : (t.atBoundary s.party.pc).src ≠ 1 := by
    unfold Trap.atBoundary
    split <;> exact hsrc
  unfold State.deliver
  extract_lets p l t' a
  split
  · rfl
  · split
    · split
      · exact State.declineScalar_pid ..
      · split
        · rename_i h
          exact absurd (beq_iff_eq.mp (Bool.and_eq_true_iff.mp h).2) hsrc'
        · exact State.halt_pid ..
    · split
      · split
        · exact State.offerTrap_pid ..
        · exact State.halt_pid ..
      · rename_i u hu
        dsimp only
        generalize hq : (((u.party.setReg 60 _).setReg 61 _).setReg 62 _).setReg 63 _ = q
        have hqpid : q.pid = s.party.pid := by
          rw [← hq, Party.setReg_pid, Party.setReg_pid, Party.setReg_pid, Party.setReg_pid]
          exact (State.arenaWrite_sameParty hu).pid
        cases q
        exact hqpid

theorem State.takeTrap_pid (s : State) {t : Trap} (hsrc : t.src ≠ 1) : (s.takeTrap t).party.pid = s.party.pid := by
  unfold State.takeTrap
  split
  · exact s.halt_pid _
  · split
    · rfl
    · split
      · exact s.offerTrap_pid t
      · exact s.deliver_pid hsrc false

/-! ### Ends of waits -/

theorem State.stick_pid (s : State) (t : Trap) : (s.stick t).party.pid = s.party.pid := by
  obtain ⟨n, w, o, h⟩ := s.stick_party t
  rw [h]

theorem State.stickNext_pid (s : State) (t : Trap) : (s.stickNext t).party.pid = s.party.pid := by
  unfold State.stickNext
  split
  · rfl
  · exact s.stick_pid t

theorem State.endedAs_pid (s : State) (dest : Reg) (count : BitVec 8) (st : Word) :
    (s.endedAs dest count st).party.pid = s.party.pid := by
  simp [State.endedAs_party]

theorem State.endWait_pid (s : State) (dest : Reg) (d : Deadline) (st : Word) (expired : Bool) :
    (s.endWait dest d st expired).party.pid = s.party.pid := by
  rw [State.endWait_eq]
  dsimp only
  split
  · exact (State.stickNext_pid ..).trans (State.endedAs_pid ..)
  · exact State.endedAs_pid ..

theorem State.endWith_pid (s : State) (w : Wait) (st : Word) : (s.endWith w st).party.pid = s.party.pid := by
  refine (State.endWait_pid ..).trans ?_
  split
  · exact (State.atTime_sameParty ..).pid
  · rfl

/-! ### Tests of a wait -/

/-- Where a test leaves a state, its party in focus has the number. -/
def Attempt.Keeps (pid : Nat) : Attempt → Prop
  | .ended t _ | .held t => t.party.pid = pid
  | .waiting | .trapped .. => True

theorem State.poisonBytes_sameParty (s : State) (p : Place) (bad : List Bool) : SameParty s (s.poisonBytes p bad) := by
  unfold State.poisonBytes
  split
  · exact SameParty.foldl (fun t b => t.poisonByte_sameParty _) _ s
  · exact .refl s

theorem map_ok {ε α β : Type} {f : α → β} {x : Except ε α} {y : β} (e : x.map f = .ok y) : ∃ z, x = .ok z ∧ f z = y := by
  cases x with
  | error d => cases e
  | ok z => exact ⟨z, rfl, Except.ok.inj e⟩

theorem writeRange_sameParty {ac : Accessor} {fuel : Nat} : ∀ {s : State} {a : Agent} {va : Nat} {bs : List Byte}
    {bad : List Bool} {w : Written}, writeRange ac fuel s a va bs bad = .ok w → SameParty s w.s := by
  induction fuel with
  | zero => intro s a va bs bad w e; cases e; exact .refl s
  | succ fuel ih =>
    intro s a va bs bad w e
    unfold writeRange at e
    split at e
    · cases e; exact .refl s
    · split at e
      · cases e
      · obtain ⟨x, hx, rfl⟩ := map_ok e
        have hrest := ih hx
        refine SameParty.trans ?_ hrest
        split
        · exact .refl s
        · exact (s.storeAs_sameParty ..).trans (State.poisonBytes_sameParty ..)

theorem State.ringCopy_pid {s t : State} {ac : Accessor} {w : Wait} {r : RingSlot} {n : Nat} (e : s.ringCopy ac w r n = .ok t) :
    t.party.pid = s.party.pid := by
  unfold State.ringCopy at e
  simp only [bind, Except.bind, pure, Except.pure] at e
  split at e
  · cases e
  · split at e
    · cases e
    · rename_i hwrite
      cases e
      exact (writeRange_sameParty hwrite).pid

theorem State.signalWord_pid {s : State} {ac : Accessor} {a : Agent} {at_ : Word} {v : Nat} {x : State × Nat}
    (e : s.signalWord ac a at_ v = .ok x) : x.1.party.pid = s.party.pid := by
  unfold State.signalWord at e
  cases hplace : s.writePlaceOf ac at_ 8 .write with
  | error d => rw [hplace] at e; cases e
  | ok p => rw [hplace] at e; cases e; exact (State.storeAs_sameParty ..).pid

theorem State.fillSlot_keeps (s : State) (ac : Accessor) (w : Wait) (r : RingSlot) : (s.fillSlot ac w r).Keeps s.party.pid := by
  unfold State.fillSlot
  extract_lets keep offered publish
  have hoffered (t : State) (done : Bool) (e : Deny × Word) (ht : t.party.pid = s.party.pid) :
      (offered t done e).Keeps s.party.pid := by
    simp only [offered]
    split
    · exact ht
    · exact (State.offerTrap_pid ..).trans ht
  have hpublish (t : State) (ht : t.party.pid = s.party.pid) : (publish t).Keeps s.party.pid := by
    simp only [publish]
    split
    · rename_i hsignal
      exact (State.signalWord_pid hsignal).trans ht
    · exact hoffered _ _ _ ht
  split
  · exact hpublish s rfl
  · split
    · exact rfl
    · split
      · rename_i hcopy
        exact hpublish _ (State.ringCopy_pid hcopy)
      · exact hoffered _ _ _ rfl

theorem State.observe_sameParty (s : State) (ac : Accessor) (a : Word) (n : Nat) : SameParty s (s.observe ac a n) := by
  unfold State.observe
  split
  · exact s.partyRead_sameParty ..
  · exact .refl s

theorem State.observeRing_sameParty (s : State) (ac : Accessor) (hdr : Word) : SameParty s (s.observeRing ac hdr) :=
  SameParty.foldl (fun s _ => s.observe_sameParty ..) (upTo 0 5) s

theorem State.claimRing_keeps (s : State) (w : Wait) : (s.claimRing w State.fillSlot).Keeps s.party.pid := by
  unfold State.claimRing
  extract_lets ac core hdr t
  have ht : t.party.pid = s.party.pid := (s.observeRing_sameParty ac hdr).pid
  split
  · trivial
  · split
    · exact ht
    · split
      · trivial
      · trivial
      · rename_i u time slot seq hclaim
        have hu : u.party.pid = t.party.pid := by
          split at hclaim
          · exact (State.claim_sameParty hclaim).pid
          · exact (State.claim_sameParty hclaim).pid
        rw [← ht, ← hu]
        exact (u.atTime time).fillSlot_keeps ac w _

theorem State.tryRing_keeps (s : State) (w : Wait) : (s.tryRing w).Keeps s.party.pid := by
  unfold State.tryRing
  split
  · exact s.fillSlot_keeps ..
  · exact s.claimRing_keeps w

theorem State.tryAcquire_keeps (s : State) (w : Wait) : (s.tryAcquire w).Keeps s.party.pid := by
  unfold State.tryAcquire
  split
  · trivial
  · trivial
  · exact ((s.partyRead_sameParty ..).trans (State.partyStore_sameParty ..)).pid

theorem State.tryWatch_keeps (s : State) (ac : Accessor) (w : Wait) : (s.tryWatch ac w).Keeps s.party.pid := by
  unfold State.tryWatch
  split
  · rfl
  · split
    · trivial
    · split
      · split
        · rfl
        · trivial
      · exact (s.partyRead_sameParty ..).pid

theorem State.acceptCommands_pid {s t : State} {p : Party} {l : List Command} (e : s.acceptCommands p l = some t) :
    t.party.pid = s.party.pid := by
  unfold State.acceptCommands at e
  dsimp only at e
  split at e
  · cases e
  · cases e
    refine (SameParty.foldl (fun u i => ?_) (upTo 0 16) s).pid
    split
    · exact .refl u
    · exact u.setBarrier_sameParty ..

theorem State.acceptTask_pid {s t : State} {p : Party} {x : Task} (e : s.acceptTask p x = some t) :
    t.party.pid = s.party.pid := by
  unfold State.acceptTask at e
  split at e
  · cases e; rfl
  · cases e

theorem State.acceptCollective_pid {s t : State} {p : Party} {c : Collective} (e : s.acceptCollective p c = some t) :
    t.party.pid = s.party.pid := by
  unfold State.acceptCollective at e
  split at e
  · cases e
    have hsend (u : State) (m : Nat) : SameParty u (u.sendPacket m 2 p.pt) := .of_eq rfl
    exact (SameParty.foldl hsend _ s).pid
  · cases e

theorem State.grant_pid {s t : State} {p : Party} {w : Wait} (e : s.grant p w = some t) : t.party.pid = s.party.pid := by
  unfold State.grant at e
  split at e
  · cases e
  · split at e
    · cases e
    · exact State.acceptCommands_pid e
  · dsimp only at e
    split at e
    · cases e
    · exact State.acceptTask_pid e
  · split at e
    · cases e
    · exact State.acceptCollective_pid e

theorem State.crossed_pid (s : State) (w : Wait) : (s.crossed w).party.pid = s.party.pid := by
  unfold State.crossed
  split <;> rfl

/-- A condition that ends with OK in a state. -/
theorem Attempt.keeps_ite {pid : Nat} {c : Bool} {t : State} (h : t.party.pid = pid) :
    (if c then Attempt.ended t stOk else .waiting).Keeps pid := by
  split
  · exact h
  · trivial

/-- A test of a wait leaves the party in focus its number. -/
theorem State.attempt_keeps (s : State) (w : Wait) : (s.attempt w).Keeps s.party.pid := by
  unfold State.attempt
  extract_lets p l ac when_ drained flags n
  cases w.kind with
  | waitf => exact Attempt.keeps_ite rfl
  | barrier => exact Attempt.keeps_ite rfl
  | semacq => exact s.tryAcquire_keeps w
  | waddr => exact s.tryWatch_keeps ac w
  | fence => exact Attempt.keeps_ite rfl
  | sysfence => exact Attempt.keeps_ite rfl
  | sysfenceArray => exact Attempt.keeps_ite rfl
  | xfence => exact Attempt.keeps_ite (s.crossed_pid w)
  | fuse => trivial
  | twait =>
    dsimp only
    split
    · trivial
    · rfl
  | accept =>
    dsimp only
    split
    · rename_i hgrant
      exact State.grant_pid hgrant
    · trivial
  | cpyw => exact s.tryRing_keeps w

/-! ### What a restore reads (R289, R290) -/

theorem State.moveLines_party (s : State) (from_ to_ : Place) (n : Nat) : (s.moveLines from_ to_ n).party = s.party := by
  cases s
  dsimp only
  rfl

theorem State.loadFrom_party (s : State) (l : Launch) (fuel : Nat) : ∀ (off : Nat) (t : State) (g : Group) (ds : List Deny),
    (s.loadFrom l fuel off t g ds).1.party = t.party := by
  induction fuel with
  | zero => exact fun _ _ _ _ => rfl
  | succ fuel ih =>
    intro off t g ds
    unfold State.loadFrom
    dsimp only
    split
    · rfl
    · split
      · exact ih ..
      · exact (ih ..).trans (State.moveLines_party ..)

/-- A group comes back beside the party in focus. -/
theorem State.reloadGroup_party (s : State) (l : Launch) (g : Nat) : (s.reloadGroup l g).1.party = s.party := by
  unfold State.reloadGroup
  split
  · rfl
  · split
    · rfl
    · exact s.loadFrom_party ..

/-- A computation that may be denied, in steps. -/
theorem bind_ok {ε α β : Type} {x : Except ε α} {f : α → Except ε β} {y : β} (e : (x >>= f) = .ok y) :
    ∃ a, x = .ok a ∧ f a = .ok y := by
  cases x with
  | error d => cases e
  | ok a => exact ⟨a, rfl, e⟩

theorem State.reloadTokens_pid {s : State} {l : Launch} {p q : Party} {depth : Nat} (e : s.reloadTokens l p depth = .ok q) :
    q.pid = p.pid := by
  unfold State.reloadTokens at e
  obtain ⟨slots, -, hq⟩ := bind_ok e
  cases hq
  cases p
  rfl

theorem State.fill_pid {s : State} {l : Launch} {lanes : List Nat} {pos n : Nat} : ∀ {p q : Party},
    s.fill l p lanes pos n = .ok q → q.pid = p.pid := by
  unfold State.fill
  induction lanes with
  | nil => intro p q e; cases e; rfl
  | cons lane lanes ih =>
    intro p q e
    rw [List.foldlM_cons] at e
    obtain ⟨x, hx, hrest⟩ := bind_ok e
    obtain ⟨bs, -, hput⟩ := bind_ok hx
    cases hput
    exact (ih hrest).trans rfl

/-- What every party that a computation gives satisfies. -/
def GivesPid (pid : Nat) (x : Except Deny (Option Party)) : Prop := ∀ q, x = .ok (some q) → q.pid = pid

theorem GivesPid.bind {α : Type} {pid : Nat} {x : Except Deny α} {f : α → Except Deny (Option Party)}
    (h : ∀ a, x = .ok a → GivesPid pid (f a)) : GivesPid pid (x >>= f) := by
  intro q e
  obtain ⟨a, ha, hf⟩ := bind_ok e
  exact h a ha q hf

theorem GivesPid.pure {pid : Nat} {q : Party} (h : q.pid = pid) : GivesPid pid (.ok (some q)) := by
  intro x e
  cases e
  exact h

theorem GivesPid.none {pid : Nat} : GivesPid pid (.ok .none) := by
  intro x e
  cases e

theorem GivesPid.ite {pid : Nat} {c : Prop} [Decidable c] {x y : Except Deny (Option Party)} (hx : GivesPid pid x)
    (hy : GivesPid pid y) : GivesPid pid (if c then x else y) := by
  split
  · exact hx
  · exact hy

theorem Party.withBatches_pid (p : Party) (bs : List Byte) : (p.withBatches bs).pid = p.pid := by
  cases p
  dsimp only
  rfl

theorem Party.withQueue_pid (p : Party) (bs : List Byte) : (p.withQueue bs).pid = p.pid := by
  cases p
  dsimp only
  rfl

theorem State.partyFrom_pid (s : State) (p : Party) (bs : List Byte) (state : Nat) : (s.partyFrom p bs state).pid = p.pid := by
  cases p
  dsimp only
  rfl

/-- A party that comes back keeps its number. -/
theorem State.reloadParty_gives (s : State) : GivesPid s.party.pid s.reloadParty := by
  unfold State.reloadParty
  refine GivesPid.bind fun bs _ => GivesPid.ite GivesPid.none (GivesPid.bind fun x hx => GivesPid.bind fun y hy => ?_)
  have hypid : y.pid = s.party.pid := by
    refine (State.fill_pid hy).trans ((State.reloadTokens_pid hx).trans ((Party.withBatches_pid ..).trans ?_))
    split
    · rfl
    · exact State.partyFrom_pid ..
  clear hx hy
  refine GivesPid.ite (GivesPid.pure ?_) (GivesPid.bind fun im _ => GivesPid.ite (GivesPid.pure hypid)
    (GivesPid.ite GivesPid.none (GivesPid.pure ((Party.withQueue_pid ..).trans hypid))))
  split
  · exact hypid
  · exact hypid

end Sys2Proof.Machine
end

section
/-!
SUPPORT. RESTORE of one party (R297 to R299): what each outcome of its reload comes to, and how its wait is resolved.
-/
namespace Sys2Proof.Machine

/-! ### The event -/

/-- What was gathered for a suspension of a launch is over (R361). -/
def State.scattered (t : State) (id : Nat) : State :=
  { t with launches := t.launches.map fun (x : Launch) => if x.id = id then { x with gather := false } else x }

section
variable {s : State} (hreturn : s.returners s.party = [s.party.pid])
include hreturn

theorem execRestore_refused (h : s.restorable s.party = false) : exec (.restore s.party.pid) s = .next s := by
  show execRestore s.party.pid s = _
  simp [execRestore, State.party?_self, hreturn, State.restoreAll, h]

/-- A party that is restored alone: the state of its restore, in which it is still in focus. -/
theorem execRestore_single (h : s.restorable s.party = true) {t : State} (hrestore : s.restoreParty = t)
    (hpid : t.party.pid = s.party.pid) : exec (.restore s.party.pid) s = .next (t.scattered s.party.launch) := by
  have hfocus : t.focus s.party.pid = t := if_pos hpid
  show execRestore s.party.pid s = _
  simp [execRestore, State.party?_self, hreturn, State.restoreAll, h, hrestore, hfocus, State.scattered]

end

/-! ### The outcomes of a reload (R299) -/

/-- The state with the party in focus back, no earlier than the mark of its core (R319). -/
def State.back (u : State) (q : Party) : State :=
  { u with party := { q with evicted := false, pt := Nat.max q.pt (Table.get 0 u.marks q.core) } }

section
variable {s u : State} {ds : List Deny} (hgroup : s.reloadGroup (s.home s.party) s.party.group = (u, ds))
include hgroup

theorem State.restoreParty_groupOffered {d : Deny} (h : ds.find? Deny.offered = some d) :
    s.restoreParty = s.offerTrap (s.party.reloadTrap d) := by
  simp only [State.restoreParty, hgroup, h]

theorem State.restoreParty_offered {d : Deny} (h : ds.find? Deny.offered = none) (hreload : u.reloadParty = .error d)
    (hd : d.offered = true) : s.restoreParty = s.offerTrap (s.party.reloadTrap d) := by
  simp only [State.restoreParty, hgroup, h, hreload, hd, if_true]

theorem State.restoreParty_malformed (h : ds.find? Deny.offered = none) (hreload : u.reloadParty = .ok none) :
    s.restoreParty = (u.back u.party).halt := by
  simp only [State.restoreParty, hgroup, h, hreload]
  rfl

theorem State.restoreParty_poisoned {d : Deny} {rest : List Deny} {q : Party} (h : (d :: rest).find? Deny.offered = none)
    (hds : ds = d :: rest) (hreload : u.reloadParty = .ok (some q)) : s.restoreParty = (u.back q).failRestore d := by
  subst hds
  simp only [State.restoreParty, hgroup, h, hreload]
  rfl

theorem State.restoreParty_back {q : Party} (hds : ds = []) (hreload : u.reloadParty = .ok (some q)) :
    s.restoreParty = (u.back q).resumeWait := by
  subst hds
  simp only [State.restoreParty, hgroup, List.find?_nil, hreload]
  rfl

/-- The party that comes back has its number. -/
theorem State.back_pid {q : Party} (hreload : u.reloadParty = .ok (some q)) : (u.back q).party.pid = s.party.pid := by
  have hu : u.party = s.party := by rw [← s.reloadGroup_party (s.home s.party) s.party.group, hgroup]
  show q.pid = _
  rw [u.reloadParty_gives q hreload, hu]

end

/-- A fault met by a party that waits for nothing is taken at once. -/
theorem State.failRestore_of_idle {s : State} (h : s.party.wait = none) (d : Deny) :
    s.failRestore d = s.takeTrap (s.party.reloadTrap d) := by
  have hwithdraw : s.withdrawWait = s := by simp [State.withdrawWait, State.withdraw, h]
  rw [State.failRestore, hwithdraw]

/-! ### The wait of a party that is back (R299, R353) -/

/-- A wait as it goes on: a request is made anew. -/
def State.renewed (s : State) (w : Wait) : Wait := if w.kind = .accept then { w with seq := s.ids } else w

/-- The state with the wait of the party in focus gone on. -/
def State.waitsOn (s : State) (w : Wait) : State := { s.setWait (some (s.renewed w)) with ids := s.ids + 1 }

theorem State.renewed_decided (s : State) (w : Wait) : (s.renewed w).decided = w.decided := by
  unfold State.renewed
  split <;> rfl

/-- An undecided wait of a party that is back. -/
def State.resumeUndecided (s : State) (w : Wait) : State :=
  let v := s.renewed w
  let t := s.waitsOn w
  if (s.home s.party).header.replay then t.setWait (some { v with restored := true })
  else if v.deadline.passed t t.party then t
  else if v.kind == .waddr && !v.met then match t.attempt v with
    | .ended u _ => u.endWith v stChanged
    | .trapped .. => t.testWait
    | _ => t
  else t.testWait

section
variable {s : State} {w : Wait} (hwait : s.party.wait = some w)
include hwait

theorem State.resumeWait_decided {st : Word} (h : w.decided = some st) :
    s.resumeWait = if (s.home s.party).header.replay then s else s.endWith w st := by
  simp only [State.resumeWait, hwait, h]

theorem State.resumeWait_undecided (h : w.decided = none) : s.resumeWait = s.resumeUndecided w := by
  have hrenew : (if w.kind == .accept then { w with seq := s.ids } else w) = s.renewed w := if_congr beq_iff_eq rfl rfl
  unfold State.resumeWait
  split
  · rename_i hnone
    rw [hwait] at hnone
    cases hnone
  · rename_i w' hw'
    obtain rfl : w' = w := Option.some.inj (hw'.symm.trans hwait)
    split
    · rename_i st hst
      rw [h] at hst
      cases hst
    · rw [hrenew]
      rfl

end

section
variable {s : State} {w : Wait} (hwait : s.party.wait = some w) (hdecided : w.decided = none)
include hwait hdecided

theorem State.testWait_waiting (h : s.attempt w = .waiting) : s.testWait = s := by
  simp [State.testWait, hwait, hdecided, h]

theorem State.testWait_held {x : State} (h : s.attempt w = .held x) : s.testWait = x := by
  simp [State.testWait, hwait, hdecided, h]

theorem State.testWait_ended {x : State} {st : Word} (h : s.attempt w = .ended x st) (hx : x.party.evicted = false) :
    s.testWait = x.endWith w st := by
  simp [State.testWait, hwait, hdecided, h, hx]

theorem State.testWait_trapped {d : Deny} {a : Word} (h : s.attempt w = .trapped d a) (hback : s.party.evicted = false)
    (hcause : d.cause ≠ .poison) : s.testWait = (s.setWait none).takeTrap (w.trap s.party.pc d a) := by
  simp [State.testWait, hwait, hdecided, h, hback, State.sawPoison_of_other hcause]

end

section
variable {s : State} {w : Wait} (hdecided : w.decided = none) (hback : s.party.evicted = false)
  (hreplay : (s.home s.party).header.replay = false)

theorem State.resumeUndecided_replay (h : (s.home s.party).header.replay = true) :
    s.resumeUndecided w = (s.waitsOn w).setWait (some { s.renewed w with restored := true }) := if_pos h

include hreplay

theorem State.resumeUndecided_passed (h : (s.renewed w).deadline.passed (s.waitsOn w) (s.waitsOn w).party = true) :
    s.resumeUndecided w = s.waitsOn w := by
  simp only [State.resumeUndecided, hreplay, h, Bool.false_eq_true, if_false, if_true]

variable (hpassed : (s.renewed w).deadline.passed (s.waitsOn w) (s.waitsOn w).party = false)
include hpassed hdecided

theorem State.resumeUndecided_waiting (h : (s.waitsOn w).attempt (s.renewed w) = .waiting) :
    s.resumeUndecided w = s.waitsOn w := by
  have htest := State.testWait_waiting rfl ((s.renewed_decided w).trans hdecided) h
  simp only [State.resumeUndecided, hreplay, hpassed, h, htest, Bool.false_eq_true, if_false, ite_self]

theorem State.resumeUndecided_held {x : State} (h : (s.waitsOn w).attempt (s.renewed w) = .held x)
    (hkind : (s.renewed w).kind ≠ .waddr) : s.resumeUndecided w = x := by
  have htest := State.testWait_held rfl ((s.renewed_decided w).trans hdecided) h
  have hkind' : ((s.renewed w).kind == .waddr) = false := beq_false_of_ne hkind
  simp only [State.resumeUndecided, hreplay, hpassed, htest, hkind', Bool.false_and, Bool.false_eq_true, if_false]

theorem State.resumeUndecided_ended {x : State} {st : Word} (h : (s.waitsOn w).attempt (s.renewed w) = .ended x st)
    (hx : x.party.evicted = false) : s.resumeUndecided w =
      x.endWith (s.renewed w) (if (s.renewed w).kind = .waddr ∧ (s.renewed w).met = false then stChanged else st) := by
  have htest := State.testWait_ended rfl ((s.renewed_decided w).trans hdecided) h hx
  by_cases hchanged : (s.renewed w).kind = .waddr ∧ (s.renewed w).met = false
  · have hchanged' : ((s.renewed w).kind == .waddr && !(s.renewed w).met) = true := by simpa using hchanged
    simp only [State.resumeUndecided, hreplay, hpassed, h, hchanged', if_pos hchanged, Bool.false_eq_true, if_false, if_true]
  · have hchanged' : ((s.renewed w).kind == .waddr && !(s.renewed w).met) = false := by simpa using hchanged
    simp only [State.resumeUndecided, hreplay, hpassed, htest, hchanged', if_neg hchanged, Bool.false_eq_true, if_false]

include hback

theorem State.resumeUndecided_trapped {d : Deny} {a : Word} (h : (s.waitsOn w).attempt (s.renewed w) = .trapped d a)
    (hcause : d.cause ≠ .poison) : s.resumeUndecided w =
      ((s.waitsOn w).setWait none).takeTrap ((s.renewed w).trap s.party.pc d a) := by
  have htest := State.testWait_trapped rfl ((s.renewed_decided w).trans hdecided) h hback hcause
  simp only [State.resumeUndecided, hreplay, hpassed, h, htest, Bool.false_eq_true, if_false, ite_self]
  rfl

end

/-- The first look of a WADDR since a restore ends CHANGED where it ends (R299). -/
theorem State.attempt_restored {s x : State} {w : Wait} {st : Word} (hkind : w.kind = .waddr) (hmet : w.met = false)
    (h : s.attempt { w with restored := true } = .ended x st) : st = stChanged := by
  have hwatch : s.attempt { w with restored := true } =
      s.tryWatch (accessorOf (s.home s.party) s.party) { w with restored := true } := by simp only [State.attempt, hkind]
  rw [hwatch, State.tryWatch, hmet, if_neg Bool.false_ne_true] at h
  split at h
  · cases h
  · split at h
    · cases h
    · cases h
      rfl

/-- A restore of the party in focus comes to a state, in which nothing is gathered of its launch any more. -/
def State.Returns (s t : State) : Prop := exec (.restore s.party.pid) s = .next (t.scattered s.party.launch)

section
variable {s u : State} (hreturn : s.returners s.party = [s.party.pid]) (hrestorable : s.restorable s.party = true)
include hreturn hrestorable

theorem State.returns_of_restoreParty {t : State} (h : s.restoreParty = t) (hpid : t.party.pid = s.party.pid) : s.Returns t :=
  execRestore_single hreturn hrestorable h hpid

variable (hgroup : s.reloadGroup (s.home s.party) s.party.group = (u, [])) {q : Party} (hreload : u.reloadParty = .ok (some q))
include hgroup hreload

/-- Where nothing denied the group, the party that is back goes on with its wait. -/
theorem State.returns_of_resumeWait {t : State} (h : (u.back q).resumeWait = t) (hpid : t.party.pid = (u.back q).party.pid) :
    s.Returns t :=
  State.returns_of_restoreParty hreturn hrestorable ((State.restoreParty_back hgroup rfl hreload).trans h)
    (hpid.trans (State.back_pid hgroup hreload))

variable {w : Wait} (hwait : q.wait = some w)
include hwait

theorem State.returns_decided {st : Word} (h : w.decided = some st) :
    s.Returns (if ((u.back q).home q).header.replay then u.back q else (u.back q).endWith w st) := by
  refine State.returns_of_resumeWait hreturn hrestorable hgroup hreload (State.resumeWait_decided hwait h) ?_
  split
  · rfl
  · exact State.endWith_pid ..

variable (hdecided : w.decided = none)
include hdecided

theorem State.returns_undecided {t : State} (h : (u.back q).resumeUndecided w = t) (hpid : t.party.pid = (u.back q).party.pid) :
    s.Returns t :=
  State.returns_of_resumeWait hreturn hrestorable hgroup hreload ((State.resumeWait_undecided hwait hdecided).trans h) hpid

theorem State.returns_replay (h : ((u.back q).home q).header.replay = true) :
    s.Returns (((u.back q).waitsOn w).setWait (some { (u.back q).renewed w with restored := true })) :=
  State.returns_undecided hreturn hrestorable hgroup hreload hwait hdecided (State.resumeUndecided_replay h) rfl

variable (hreplay : ((u.back q).home q).header.replay = false)
include hreplay

theorem State.returns_passed
    (h : ((u.back q).renewed w).deadline.passed ((u.back q).waitsOn w) ((u.back q).waitsOn w).party = true) :
    s.Returns ((u.back q).waitsOn w) :=
  State.returns_undecided hreturn hrestorable hgroup hreload hwait hdecided (State.resumeUndecided_passed hreplay h) rfl

variable (hpassed : ((u.back q).renewed w).deadline.passed ((u.back q).waitsOn w) ((u.back q).waitsOn w).party = false)
include hpassed

theorem State.returns_waiting (h : ((u.back q).waitsOn w).attempt ((u.back q).renewed w) = .waiting) :
    s.Returns ((u.back q).waitsOn w) :=
  State.returns_undecided hreturn hrestorable hgroup hreload hwait hdecided
    (State.resumeUndecided_waiting hdecided hreplay hpassed h) rfl

theorem State.returns_held {x : State} (h : ((u.back q).waitsOn w).attempt ((u.back q).renewed w) = .held x)
    (hkind : ((u.back q).renewed w).kind ≠ .waddr) : s.Returns x := by
  have hkeeps := State.attempt_keeps ((u.back q).waitsOn w) ((u.back q).renewed w)
  rw [h] at hkeeps
  exact State.returns_undecided hreturn hrestorable hgroup hreload hwait hdecided
    (State.resumeUndecided_held hdecided hreplay hpassed h hkind) hkeeps

theorem State.returns_ended {x : State} {st : Word} (h : ((u.back q).waitsOn w).attempt ((u.back q).renewed w) = .ended x st)
    (hx : x.party.evicted = false) : s.Returns (x.endWith ((u.back q).renewed w)
      (if ((u.back q).renewed w).kind = .waddr ∧ ((u.back q).renewed w).met = false then stChanged else st)) := by
  have hkeeps := State.attempt_keeps ((u.back q).waitsOn w) ((u.back q).renewed w)
  rw [h] at hkeeps
  exact State.returns_undecided hreturn hrestorable hgroup hreload hwait hdecided
    (State.resumeUndecided_ended hdecided hreplay hpassed h hx) ((State.endWith_pid ..).trans hkeeps)

theorem State.returns_trapped {d : Deny} {a : Word} (h : ((u.back q).waitsOn w).attempt ((u.back q).renewed w) = .trapped d a)
    (hcause : d.cause ≠ .poison) :
    s.Returns ((((u.back q).waitsOn w).setWait none).takeTrap (((u.back q).renewed w).trap q.pc d a)) :=
  State.returns_undecided hreturn hrestorable hgroup hreload hwait hdecided
    (State.resumeUndecided_trapped hdecided rfl hreplay hpassed h hcause) (State.takeTrap_pid _ Nat.zero_ne_one)

end

/-- Settles O56: the order of candidates, who leaves, what the saves of an eviction leave, and each outcome of a restore. -/
theorem evictionAndRestore : Obligations.EvictionAndRestore := by
  unfold Obligations.EvictionAndRestore
  intro s p l away meets
  refine ⟨fun x core quad => ⟨s.pairwise_candidates x core quad, fun q => State.mem_candidates⟩, State.leavers_of_park,
    State.leavers_of_gathered, execEviction_none, fun t hsome hmay hnodup hexist hevict =>
      ⟨execEviction_granted hsome (fun i hi q hq => ?_) hevict, State.evictAll_evicted hnodup (fun i hi => ?_) hevict⟩,
    fun d h => execEviction_denied h, fun t hleave hmay hsave => ?_, fun hrefuse hreturn => execRestore_refused hreturn hrefuse,
    fun u ds hrestorable hreturn hgroup => ?_⟩
  · obtain ⟨hmem, rfl⟩ := State.party?_some hq
    exact hmay q hmem hi
  · obtain ⟨q, hq, rfl⟩ := hexist i hi
    exact List.mem_map_of_mem hq
  · obtain ⟨u, hevict, hmem, hparty, hothers⟩ := State.evictAll_single hsave
    refine ⟨u, execEviction_granted (hleave ▸ List.cons_ne_nil _ _) (fun i hi q hq => ?_) (hleave.symm ▸ hevict), hmem, hparty,
      fun hdistinct => (hothers hdistinct).trans (List.map_congr_left fun q hq => ?_)⟩
    · rw [hleave, List.mem_singleton] at hi
      rw [hi, State.party?_self] at hq
      rw [← Option.some.inj hq]
      exact hmay
    · have hbeside : p.beside q = meets q := by simp [Party.beside, meets, hdistinct q hq, Bool.and_assoc, p]
      rw [Party.fuseEnded, hbeside]
      rfl
  · have hgives {t : State} : s.restoreParty = t → t.party.pid = s.party.pid → s.Returns t :=
      State.returns_of_restoreParty hreturn hrestorable
    have hu : u.party.pid = s.party.pid := by
      rw [← s.reloadGroup_party (s.home s.party) s.party.group, hgroup]
    refine ⟨fun d h => hgives (State.restoreParty_groupOffered hgroup h) (State.offerTrap_pid ..),
      fun d h hreload hd => hgives (State.restoreParty_offered hgroup h hreload hd) (State.offerTrap_pid ..),
      fun h hreload => hgives (State.restoreParty_malformed hgroup h hreload) ((State.halt_pid ..).trans hu),
      fun q d rest h hds hreload hwait => ?_, fun q hds hreload => ?_⟩
    · subst hds
      have hfail := (State.restoreParty_poisoned hgroup h rfl hreload).trans (State.failRestore_of_idle (s := u.back q) hwait d)
      exact hgives hfail ((State.takeTrap_pid _ (show (3 : Nat) ≠ 1 by decide)).trans (State.back_pid hgroup hreload))
    · subst hds
      refine ⟨fun hwait => ?_, fun w st hwait hdecided => State.returns_decided hreturn hrestorable hgroup hreload hwait hdecided,
        fun w hwait hdecided => ⟨fun hreplay => ⟨State.returns_replay hreturn hrestorable hgroup hreload hwait hdecided hreplay,
            fun x st hkind hmet h => State.attempt_restored hkind hmet h⟩,
          State.returns_passed hreturn hrestorable hgroup hreload hwait hdecided, fun hreplay hpassed =>
          ⟨State.returns_waiting hreturn hrestorable hgroup hreload hwait hdecided hreplay hpassed,
            fun x h hkind => State.returns_held hreturn hrestorable hgroup hreload hwait hdecided hreplay hpassed h hkind,
            fun x st h hx => State.returns_ended hreturn hrestorable hgroup hreload hwait hdecided hreplay hpassed h hx,
            fun d a h hcause => State.returns_trapped hreturn hrestorable hgroup hreload hwait hdecided hreplay hpassed h hcause⟩⟩⟩
      refine State.returns_of_resumeWait hreturn hrestorable hgroup hreload (t := u.back q) ?_ rfl
      have hidle : (u.back q).party.wait = none := hwait
      simp only [State.resumeWait, hidle]

end Sys2Proof.Machine
end

section
/-!
SUPPORT. The integer and bit lane instructions (R123, R127, R128): what vd holds in the active lanes and in the others, each result
on bit vectors, and the statement of them.
-/
namespace Sys2Proof.Machine

/-! ### vd of every lane -/

/-- A register of a lane that is not active is named by no entry of a result, where the written registers lie in the stack. -/
theorem LaneCtx.laneReg_finish_inactive {c : LaneCtx} {t : Ty} (hfits : c.p.b + c.f.dst.toNat + t.regs ≤ 1024) (g : Nat → Nat)
    {lane j : Nat} (hactive : c.active.getLsbD lane = false) (hj : j < t.regs) :
    (c.finish (c.toLanes t g)).laneReg (regKey (c.p.first + lane) (c.p.b + (c.f.dst.toNat + j))) =
      c.p.laneReg (regKey (c.p.first + lane) (c.p.b + (c.f.dst.toNat + j))) := by
  refine LaneCtx.laneReg_finish fun x hx hkey => ?_
  obtain ⟨other, i, -, hother, hi, hname⟩ := LaneCtx.toLanes_names c t g x hx
  have hsame : other = lane := by
    rw [hname, regKey, regKey] at hkey
    omega
  rw [hsame, hactive] at hother
  cases hother

/-- Registers read alike make the same number. -/
theorem State.laneNumber_congr {s u : State} {lane n k : Nat} (h : ∀ j, j < k → u.laneRegister lane (n + j) = s.laneRegister lane (n + j)) :
    u.laneNumber lane n k = s.laneNumber lane n k := by
  rw [State.laneNumber, State.laneNumber]
  exact congrArg List.sum (List.map_congr_left fun j hj => by rw [h j (List.mem_range.mp hj)])

/-- In a lane that is not active the registers of vd hold what they held (R121). -/
theorem State.laneNumber_inactive {s : State} {b : Block} {op : LaneOp} {f : LaneF} (h : s.laneIssues b op f)
    (hwindow : s.party.b + (s.home s.party).header.window ≤ 1024) {t : Ty} {even : Bool} (hslot : (op.slots f).1 = .lane t.regs even)
    {g : LaneCtx → Nat → Nat} {u : State} (hrun : runLane s op f (fun c => c.toLanes t (g c)) = .next u) {lane : Nat}
    (hactive : (s.laneCtx b op f).active.getLsbD lane = false) :
    u.laneNumber lane f.dst.toNat t.regs = s.laneNumber lane f.dst.toNat t.regs := by
  rw [runLane_of_issues h] at hrun
  injection hrun with hu
  subst hu
  refine State.laneNumber_congr fun j hj => ?_
  have hkept := LaneCtx.laneReg_finish_inactive (c := s.laneCtx b op f) (h.dst_fits hwindow hslot) (g (s.laneCtx b op f)) hactive hj
  have hfinish := (s.laneCtx b op f).finish_eq ((s.laneCtx b op f).toLanes t (g (s.laneCtx b op f)))
  rw [State.laneRegister, State.laneRegister]
  dsimp only
  rw [show ((s.laneCtx b op f).finish _).first = s.party.first by rw [hfinish]; rfl,
    show ((s.laneCtx b op f).finish _).b = s.party.b by rw [hfinish]; rfl]
  exact hkept

/-- Two registers of vd in every lane: the low bits of the value written there in an active lane, and what they held in another. -/
theorem exists_runLane_pair {s : State} {b : Block} {op : LaneOp} {f : LaneF} (h : s.laneIssues b op f) (hrecent : s.party.recent = [])
    (hwindow : s.party.b + (s.home s.party).header.window ≤ 1024) {t : Ty} {even : Bool}
    (hslot : (op.slots f).1 = .lane t.regs even) (hregs : t.regs ≤ 2) (g : LaneCtx → Nat → Nat) :
    ∃ u, runLane s op f (fun c => c.toLanes t (g c)) = .next u ∧ ∀ lane, lane < s.party.width →
      BitVec.ofNat t.width (u.laneNumber lane f.dst.toNat 2) = if (s.laneCtx b op f).active.getLsbD lane then
        BitVec.ofNat t.width (g (s.laneCtx b op f) lane) else BitVec.ofNat t.width (s.laneNumber lane f.dst.toNat 2) := by
  obtain ⟨u, hrun, hu⟩ := exists_runLane_toLanes h hrecent hwindow hslot g
  have hwidth : t.width ≤ 32 * t.regs := by cases t <;> decide
  have hlow (v : State) (lane : Nat) : BitVec.ofNat t.width (v.laneNumber lane f.dst.toNat 2) =
      BitVec.ofNat t.width (v.laneNumber lane f.dst.toNat t.regs) := by
    rw [← ofNat_mod, State.laneNumber_mod v lane _ hregs hwidth, ofNat_mod]
  refine ⟨u, hrun, fun lane hlane => ?_⟩
  rw [hlow u, hlow s]
  split
  · rename_i hactive
    rw [hu lane hlane hactive, ofNat_placed]
  · rename_i hactive
    rw [State.laneNumber_inactive h hwindow hslot hrun (by simpa using hactive)]

/-! ### Results on bit vectors (R123) -/

theorem Ty.width_pos (t : Ty) : 0 < t.width := by cases t <;> decide

section
variable {n : Nat} (x : BitVec n)

theorem ofNat_bitNot : BitVec.ofNat n (bitNot n x.toNat) = ~~~x := by
  rw [bitNot, Nat.mod_eq_of_lt x.isLt, ← BitVec.toNat_not, BitVec.ofNat_toNat, BitVec.setWidth_eq]

theorem ofNat_neg_toNat : BitVec.ofNat n (lowBits n (-(x.toNat : Int))) = -x := by
  rw [ofNat_lowBits, BitVec.ofInt_neg]
  simp

/-- The magnitude of a signed number; the least number is its own negation. -/
theorem ofNat_natAbs_toInt : BitVec.ofNat n (lowBits n x.toInt.natAbs) = if x.toInt < 0 then -x else x := by
  rw [ofNat_lowBits]
  split
  · rw [Int.ofNat_natAbs_of_nonpos (by omega), BitVec.ofInt_neg, BitVec.ofInt_toInt]
  · rw [Int.natAbs_of_nonneg (by omega), BitVec.ofInt_toInt]

end

theorem reverseBits_lt (n : Nat) : ∀ x, reverseBits n x < 2 ^ n := by
  induction n with
  | zero => exact fun x => Nat.one_pos
  | succ n ih =>
    intro x
    have hrest := ih (x / 2)
    rw [reverseBits, pow_succ]
    rcases Nat.mod_two_eq_zero_or_one x with h | h <;> rw [h] <;> omega

/-- The lowest bit of a reversed number is its highest. -/
theorem testBit_reverseBits (n : Nat) : ∀ x i, i < n → (reverseBits n x).testBit i = x.testBit (n - 1 - i) := by
  induction n with
  | zero => exact fun x i hi => absurd hi (Nat.not_lt_zero i)
  | succ n ih =>
    intro x i hi
    rw [reverseBits, Nat.mul_comm, Nat.testBit_two_pow_mul_add _ (reverseBits_lt n _)]
    split
    · rename_i hlt
      rw [ih _ i hlt, ← Nat.testBit_succ]
      congr 1
      omega
    · obtain rfl : i = n := by omega
      simp

theorem ofNat_reverseBits {n : Nat} (x : BitVec n) : BitVec.ofNat n (reverseBits n x.toNat) = x.reverse := by
  refine BitVec.eq_of_getLsbD_eq fun i hi => ?_
  rw [BitVec.getLsbD_ofNat, testBit_reverseBits n _ i hi, BitVec.getLsbD_reverse, BitVec.getMsbD]
  rfl

/-! ### Results by the type (R123) -/

/-- The types of the bit instructions, whose values take a register or two (R60). -/
theorem Ty.regs_le_of_isL {t : Ty} (h : t.isL = true) : t.regs ≤ 2 := by
  cases t with
  | i32 | i64 | n32 | n64 | b32 => decide
  | _ => cases h

theorem Ty.not_isC_of_isZ {t : Ty} (h : t.isZ = true) : t.isC = false :=
  Ty.isZ_cases h (P := fun t => t.isC = false) rfl rfl rfl rfl

section
variable {t : Ty} (x y : BitVec t.width)

theorem intOf_toNat_signed (h : tySigned t = true) : intOf t x.toNat = x.toInt := by
  rw [intOf_eq x.isLt, if_pos h, BitVec.ofNat_toNat, BitVec.setWidth_eq]

theorem intOf_toNat_natural (h : tySigned t = false) : intOf t x.toNat = x.toNat := by
  rw [intOf_eq x.isLt, if_neg (by simp [h])]

theorem ofNat_mulhiElem_signed (h : tySigned t = true) : BitVec.ofNat t.width (mulhiElem t x.toNat y.toNat) =
    (x.signExtend (2 * t.width) * y.signExtend (2 * t.width)).extractLsb' t.width t.width := by
  rw [mulhiElem, intOf, intOf, if_pos h, if_pos h, ofNat_mulhi x y (Ty.width_pos t)]

theorem ofNat_mulhiElem_natural (h : tySigned t = false) : BitVec.ofNat t.width (mulhiElem t x.toNat y.toNat) =
    (x.setWidth (2 * t.width) * y.setWidth (2 * t.width)).extractLsb' t.width t.width := by
  have hquotient : (x.toNat : Int) * y.toNat / 2 ^ t.width = ((x.toNat * y.toNat / 2 ^ t.width : Nat) : Int) := by push_cast; rfl
  rw [mulhiElem, intOf_toNat_natural x h, intOf_toNat_natural y h, hquotient, ofNat_lowBits, BitVec.ofInt_natCast, ofNat_mulhin]

/-- The lesser and the greater of two integers, by the numbers that they are read as. -/
theorem ofNat_minElem (hF : t.isF = false) : BitVec.ofNat t.width (minElem t x.toNat y.toNat) =
    if intOf t x.toNat ≤ intOf t y.toNat then x else y := by
  rw [minElem, if_neg (by simp [hF]), ofNat_ite_toNat]

theorem ofNat_maxElem (hF : t.isF = false) : BitVec.ofNat t.width (maxElem t x.toNat y.toNat) =
    if intOf t x.toNat ≤ intOf t y.toNat then y else x := by
  rw [maxElem, if_neg (by simp [hF]), ofNat_ite_toNat]

/-- What ADDS and SUBS make of an exact result. -/
theorem ofNat_clampTo (v : Int) :
    BitVec.ofNat t.width (lowBits t.width (clampTo t v)) = BitVec.ofInt t.width (max (tyMin t) (min (tyMax t) v)) := by
  rw [ofNat_lowBits, clampTo_eq]

end

/-- Settles O43: each result as a function of the bits of the operands in an active lane; no other lane is written. -/
theorem laneIntegerResults : Obligations.LaneIntegerResults := by
  unfold Obligations.LaneIntegerResults
  intro s b f hrecent hwindow value gives clamp
  have hvalue (t : State) (lane : Nat) : value t lane f.dst.toNat = t.laneNumber lane f.dst.toNat 2 := by
    simp [value, State.laneNumber, List.range_succ]
  have hgives {op : LaneOp} {i : Instr} {G : (n : Nat) → BitVec n → BitVec n → BitVec n → BitVec n} (hL : f.ty.isL = true)
      (r : Result) (g : LaneCtx → Nat → Nat → Nat → Nat) (harm : exec i s = r)
      (hr : r = runLane s op f fun c => c.elementwise fun l => g c (c.a l) (c.b' l) (c.c' l))
      (hslot : (op.slots f).1 = .lane f.ty.regs (1 < f.ty.regs))
      (hG : ∀ x y z : BitVec f.ty.width,
        BitVec.ofNat f.ty.width (g (s.laneCtx b op f) x.toNat y.toNat z.toNat) = G f.ty.width x y z) : gives op i G := by
    intro hissues c n x
    obtain ⟨u, hrun, hu⟩ := exists_runLane_pair hissues hrecent hwindow hslot (Ty.regs_le_of_isL hL)
      fun c l => g c (c.a l) (c.b' l) (c.c' l)
    have hx (code : BitVec 8) (lane : Nat) : (x code lane).toNat = c.value lane code f.ty := by
      rw [BitVec.toNat_ofNat]
      exact Nat.mod_eq_of_lt (LaneCtx.value_lt ..)
    refine ⟨u, harm.trans (hr.trans hrun), fun lane hlane => ?_⟩
    rw [hvalue, hvalue, hu lane hlane, ← hG, hx, hx, hx]
    rfl
  clear_value gives
  have hzl (h : f.ty.isZ = true) : f.ty.isL = true := by rw [Ty.isL, h, Bool.true_or]
  refine ⟨fun hL => ⟨hgives hL (execLaneAnd f s) (fun _ a b _ => a &&& b) rfl rfl rfl ?and,
      hgives hL (execLaneOr f s) (fun _ a b _ => a ||| b) rfl rfl rfl ?or,
      hgives hL (execLaneXor f s) (fun _ a b _ => a ^^^ b) rfl rfl rfl ?xor,
      hgives hL (execLaneAndn f s) (fun _ a b _ => a &&& bitNot f.ty.width b) rfl rfl rfl ?andn,
      hgives hL (execLaneNot f s) (fun _ a _ _ => bitNot f.ty.width a) rfl rfl rfl ?not,
      hgives hL (execLaneShl f s) (fun _ a b _ => shiftLeft f.ty.width a b) rfl rfl rfl ?shl,
      hgives hL (execLaneShr f s) (fun _ a b _ => shiftRight f.ty.width a b) rfl rfl rfl ?shr,
      hgives hL (execLaneSra f s) (fun _ a b _ => shiftArith f.ty.width a b) rfl rfl rfl ?sra,
      hgives hL (execLanePopc f s) (fun _ a _ _ => popCount f.ty.width a) rfl rfl rfl ?popc,
      hgives hL (execLaneClz f s) (fun _ a _ _ => leadingZeros f.ty.width a) rfl rfl rfl ?clz,
      hgives hL (execLaneBrev f s) (fun _ a _ _ => reverseBits f.ty.width a) rfl rfl rfl ?brev⟩,
    fun hty => hgives (by rcases hty with h | h <;> rw [h] <;> rfl) (execLaneMov f s) (fun _ a _ _ => a) rfl rfl rfl ?mov,
    fun hZ => ?wrapping, fun hty => ?signed, fun hty => ?natural⟩
  case and => exact fun x y _ => by rw [← BitVec.toNat_and, BitVec.ofNat_toNat, BitVec.setWidth_eq]
  case or => exact fun x y _ => by rw [← BitVec.toNat_or, BitVec.ofNat_toNat, BitVec.setWidth_eq]
  case xor => exact fun x y _ => by rw [← BitVec.toNat_xor, BitVec.ofNat_toNat, BitVec.setWidth_eq]
  case andn => exact fun x y _ => ofNat_and_bitNot x y
  case not => exact fun x _ _ => ofNat_bitNot x
  case shl => exact fun x y _ => ofNat_shiftLeft x y
  case shr => exact fun x y _ => ofNat_shiftRight x y
  case sra => exact fun x y _ => ofNat_shiftArith x y (Ty.width_pos f.ty)
  case popc => exact fun x _ _ => congrArg (BitVec.ofNat f.ty.width) (popCount_eq f.ty.width x.toNat)
  case clz => exact fun x _ _ => congrArg (BitVec.ofNat f.ty.width) (leadingZeros_eq x.isLt)
  case brev => exact fun x _ _ => ofNat_reverseBits x
  case mov => exact fun x _ _ => by rw [BitVec.ofNat_toNat, BitVec.setWidth_eq]
  case wrapping =>
    have hF : ¬f.ty.isF = true := by simp [Ty.not_isF_of_isZ hZ]
    have hC : ¬f.ty.isC = true := by simp [Ty.not_isC_of_isZ hZ]
    refine ⟨hgives (hzl hZ) (execLaneAdd f s) (fun c a b _ => addElem f.ty c.mode a b) rfl rfl rfl fun x y _ => ?_,
      hgives (hzl hZ) (execLaneSub f s) (fun c a b _ => subElem f.ty c.mode a b) rfl rfl rfl fun x y _ => ?_,
      hgives (hzl hZ) (execLaneMul f s) (fun c a b _ => mulElem f.ty c.mode c.nvr a b) rfl rfl rfl fun x y _ => ?_,
      hgives (hzl hZ) (execLaneMad f s) (fun _ a b d => madElem f.ty a b d) rfl rfl rfl fun x y z => ?_,
      hgives (hzl hZ) (execLaneNeg f s) (fun _ a _ _ => negElem f.ty a) rfl rfl rfl fun x _ _ => ?_⟩
    · rw [addElem, if_neg hF, if_neg hC]
      exact BitVec.eq_of_toNat_eq (by simp)
    · rw [subElem, if_neg hF, if_neg hC, ofNat_sub_toNat]
    · rw [mulElem, if_neg hF, if_neg hC]
      exact BitVec.eq_of_toNat_eq (by simp)
    · rw [madElem]
      exact BitVec.eq_of_toNat_eq (by simp)
    · rw [negElem, if_neg hF, if_neg hC, ofNat_neg_toNat]
  case signed =>
    obtain ⟨hZ, hS⟩ : f.ty.isZ = true ∧ tySigned f.ty = true := by rcases hty with h | h <;> rw [h] <;> exact ⟨rfl, rfl⟩
    have hF := Ty.not_isF_of_isZ hZ
    have hint (x : BitVec f.ty.width) := intOf_toNat_signed x hS
    refine ⟨hgives (hzl hZ) (execLaneMulhi f s) (fun _ a b _ => mulhiElem f.ty a b) rfl rfl rfl fun x y _ =>
        ofNat_mulhiElem_signed x y hS,
      hgives (hzl hZ) (execLaneMin f s) (fun _ a b _ => minElem f.ty a b) rfl rfl rfl fun x y _ => ?_,
      hgives (hzl hZ) (execLaneMax f s) (fun _ a b _ => maxElem f.ty a b) rfl rfl rfl fun x y _ => ?_,
      hgives (hzl hZ) (execLaneAbs f s) (fun _ a _ _ => absElem f.ty a) rfl rfl rfl fun x _ _ => ?_,
      hgives (hzl hZ) (execLaneAdds f s) (fun _ a b _ => addsElem f.ty a b) rfl rfl rfl fun x y _ => ?_,
      hgives (hzl hZ) (execLaneSubs f s) (fun _ a b _ => subsElem f.ty a b) rfl rfl rfl fun x y _ => ?_⟩
    · rw [ofNat_minElem x y hF, hint, hint]
    · rw [ofNat_maxElem x y hF, hint, hint]
    · rw [absElem, if_neg (by simp [hF]), hint, ofNat_natAbs_toInt]
    · rw [addsElem, ofNat_clampTo, hint, hint, tyMin, tyMax, if_pos hS, if_pos hS]
    · rw [subsElem, ofNat_clampTo, hint, hint, tyMin, tyMax, if_pos hS, if_pos hS]
  case natural =>
    obtain ⟨hZ, hS⟩ : f.ty.isZ = true ∧ tySigned f.ty = false := by rcases hty with h | h <;> rw [h] <;> exact ⟨rfl, rfl⟩
    have hF := Ty.not_isF_of_isZ hZ
    have hneg : ¬tySigned f.ty = true := by simp [hS]
    have hint (x : BitVec f.ty.width) := intOf_toNat_natural x hS
    refine ⟨hgives (hzl hZ) (execLaneMulhi f s) (fun _ a b _ => mulhiElem f.ty a b) rfl rfl rfl fun x y _ =>
        ofNat_mulhiElem_natural x y hS,
      hgives (hzl hZ) (execLaneMin f s) (fun _ a b _ => minElem f.ty a b) rfl rfl rfl fun x y _ => ?_,
      hgives (hzl hZ) (execLaneMax f s) (fun _ a b _ => maxElem f.ty a b) rfl rfl rfl fun x y _ => ?_,
      hgives (hzl hZ) (execLaneAbs f s) (fun _ a _ _ => absElem f.ty a) rfl rfl rfl fun x _ _ => ?_,
      hgives (hzl hZ) (execLaneAdds f s) (fun _ a b _ => addsElem f.ty a b) rfl rfl rfl fun x y _ => ?_,
      hgives (hzl hZ) (execLaneSubs f s) (fun _ a b _ => subsElem f.ty a b) rfl rfl rfl fun x y _ => ?_⟩
    · simp only [ofNat_minElem x y hF, hint, Nat.cast_le]
    · simp only [ofNat_maxElem x y hF, hint, Nat.cast_le]
    · rw [absElem, if_neg (by simp [hF]), hint, Int.natAbs_natCast, ofNat_lowBits]
      simp
    · rw [addsElem, ofNat_clampTo, hint, hint, tyMin, tyMax, if_neg hneg, if_neg hneg]
    · rw [subsElem, ofNat_clampTo, hint, hint, tyMin, tyMax, if_neg hneg, if_neg hneg]

end Sys2Proof.Machine
end

section
/-!
SUPPORT. Lane registers that the scalar stream reads and writes (R159).
-/
namespace Sys2Proof.Machine

/-- A party whose lane writes are certain is seen as it stands (R34, R155). -/
theorem Party.seen_of_settled {p : Party} (hloose : p.looseMasks = []) (hrecent : p.recent = []) : p.seen = p := by
  have hcertain : p.certain = p := by rw [Party.certain, ← hloose, ← hrecent]
  rw [Party.seen, hcertain, ite_self]

/-- Nothing holds XRD and XWR in handler mode, nor once the lane stream is drained (R155, R159). -/
theorem Party.notHeld {p : Party} (h : p.hmode = true ∨ p.drained = true) : (!p.hmode && !p.drained) = false := by
  rcases h with h | h <;> simp [h]

theorem State.laneInReach_iff (s : State) (lane n : Nat) :
    s.laneInReach lane n = true ↔ lane < s.party.width ∧ n < (s.home s.party).header.window := by
  rw [State.laneInReach, Bool.and_eq_true, decide_eq_true_iff, decide_eq_true_iff]

/-- A lane register written by the scalar stream reads back, and the others keep their values. -/
theorem Party.laneReg_writeLaneReg (p : Party) (key : Nat) (v : BitVec 32) (k : Nat) :
    (p.writeLaneReg key v).laneReg k = if k = key then v else p.laneReg k := by
  show (p.putRegs [(key, v)]).laneReg k = _
  split
  · rename_i hk
    rw [hk]
    exact Party.laneReg_putRegs_of_mem (List.pairwise_singleton ..) (List.mem_singleton_self (key, v))
  · rename_i hk
    exact Party.laneReg_putRegs fun x hx => by
      rw [List.mem_singleton.mp hx]
      exact fun hkey => hk hkey.symm

/-- Where no lane write is uncertain, it changes the lane registers alone. -/
theorem Party.writeLaneReg_frame {p : Party} (hrecent : p.recent = []) (key : Nat) (v : BitVec 32) :
    p.writeLaneReg key v = { p with regs := (p.writeLaneReg key v).regs } := by
  unfold Party.writeLaneReg Party.putRegs
  rw [hrecent, List.map_nil, ← hrecent]

/-- Settles O21: XRD writes a scalar register, and XWR a lane register, of a party that is seen as it stands. -/
theorem laneRegisterAccess : Obligations.LaneRegisterAccess := by
  unfold Obligations.LaneRegisterAccess
  intro s k d a b n hfree hloose hrecent lane within
  have hheld := Party.notHeld hfree
  have hseen := Party.seen_of_settled hloose hrecent
  have hreach := s.laneInReach_iff lane n.toNat
  have hfree : ¬(!s.party.hmode && !s.party.drained) = true := by simp [hheld]
  constructor
  · refine (if_neg hfree).trans ?_
    rw [hseen]
    congr 3
    exact if_congr hreach rfl rfl
  · have hexec : exec (.xwr k a b n) s = .next (s.finish (if s.laneInReach lane n.toNat then
        s.party.writeLaneReg (regKey (s.party.first + lane) (s.party.b + n.toNat)) ((s.party.reg b).setWidth 32) else s.party)) := by
      refine (if_neg hfree).trans ?_
      rw [hseen]
    refine ⟨_, hexec, ?_⟩
    by_cases hwithin : within
    · rw [if_pos (hreach.mpr hwithin)]
      refine ⟨?_, fun _ => ?_, fun key hkey => ?_⟩
      · rw [Party.writeLaneReg_frame hrecent]
        rfl
      · exact (Party.laneReg_writeLaneReg ..).trans (if_pos rfl)
      · exact (Party.laneReg_writeLaneReg ..).trans (if_neg fun h => hkey ⟨hwithin, h⟩)
    · rw [if_neg fun h => hwithin (hreach.mp h)]
      exact ⟨rfl, fun h => absurd h hwithin, fun _ _ => rfl⟩

end Sys2Proof.Machine
end

section
/-!
SUPPORT. Taking a trap (R148 to R157): what its delivery makes of the party, and the bytes of the record.
-/
namespace Sys2Proof.Machine

/-! ### Delivery (R152, R153) -/

/-- The four saved registers written in turn. -/
theorem Party.setReg_saved (p : Party) (a b c d : Word) : (((p.setReg 60 a).setReg 61 b).setReg 62 c).setReg 63 d =
    { p with s := (((p.s.set 60 a).set 61 b).set 62 c).set 63 d } := by
  have hset (p : Party) {r : Reg} (hr : r ≠ 0) (v : Word) : p.setReg r v = { p with s := p.s.set r.toNat v } := if_neg hr
  rw [hset p (by decide), hset _ (by decide), hset _ (by decide), hset _ (by decide)]
  rfl

theorem Party.laneBusy_of_idle {p : Party} (hinflight : p.inflight = []) (hpart : p.part = none) : p.laneBusy = false := by
  simp [Party.laneBusy, hinflight, hpart]

theorem Party.laneBusy_of_busy {p : Party} (h : p.inflight ≠ [] ∨ p.part ≠ none) : p.laneBusy = true := by
  simpa [Party.laneBusy, Option.isSome_iff_ne_none] using h

/-- The party in its handler: s60 to s63 hold the record's address and what it says first of the cause (R153). -/
def Party.inHandler (p : Party) (handler : Word) (at_ : Nat) (t : Trap) (sdec : Bool) : Party :=
  { p with
      s := (((p.s.set 60 (BitVec.ofNat 64 at_)).set 61 (t.word0 sdec)).set 62 t.addr).set 63 t.resume
      hmode := true, pc := handler, lastPc := handler, wait := none, raised := none, looseMasks := []
      faulted := some { dest := t.dest, wait := t.wait }
      pendingLane := if t.lane then none else p.pendingLane
      handlingLane := t.src == 1 && t.cause.isAccess }

/-- While a lane instruction that has issued is not complete, a cause stays latched (R152). -/
theorem State.deliver_latched {s : State} (hbusy : s.party.laneBusy = true) (t : Trap) (sdec : Bool) :
    s.deliver t sdec = { s with party := { s.party with raised := some (t.atBoundary s.party.pc, sdec) } } := if_pos hbusy

/-- A cause is delivered to the handler: the record is written, and the handler entered (R152, R153). -/
theorem State.deliver_entered {s u : State} {t : Trap} {sdec : Bool} (hidle : s.party.laneBusy = false)
    (hhandler : (s.home s.party).header.handler ≠ 0)
    (hwrite : s.arenaWrite (s.home s.party).space (s.party.recordAt (s.home s.party))
      (recordBytes (t.atBoundary s.party.pc) sdec (s.party.reg 60) (s.party.reg 61) (s.party.reg 62) (s.party.reg 63)) = .ok u) :
    s.deliver t sdec = { u with
      party := u.party.inHandler (s.home s.party).header.handler (s.party.recordAt (s.home s.party))
        (t.atBoundary s.party.pc) sdec } := by
  unfold State.deliver
  dsimp only
  rw [if_neg (by simp [hidle]), if_neg hhandler, hwrite]
  dsimp only
  rw [Party.setReg_saved]
  rfl

/-! ### The record (R153) -/

theorem toBytes_zero (n : Nat) : toBytes n 0 = List.replicate n 0 := by
  induction n with
  | zero => rfl
  | succ n ih => rw [toBytes, Nat.zero_div, ih]; rfl

theorem length_recordBytes (t : Trap) (sdec : Bool) (s60 s61 s62 s63 : Word) :
    (recordBytes t sdec s60 s61 s62 s63).length = 1024 := by
  simp only [recordBytes, maskBytes, List.length_append, toBytes_length, List.length_replicate]

theorem maskBytes_zero : maskBytes 0 = List.replicate 132 0 := by
  have hzero (w : Nat) : (0 : BitVec w).toNat = 0 := BitVec.toNat_zero
  rw [maskBytes, (summary_eq_zero_iff 0).mpr rfl, hzero, hzero, toBytes_zero, toBytes_zero, List.replicate_append_replicate]

/-- The record of a cause with no lanes: its fields, the saved registers, and zeros. -/
theorem recordBytes_of_noLanes {t : Trap} (hdone : t.done = 0) (hcauses : t.causes = 0) (sdec : Bool) (s60 s61 s62 s63 : Word) :
    recordBytes t sdec s60 s61 s62 s63 =
      toBytes 8 (t.cause.code + t.src * 2 ^ 8 + t.boff * 2 ^ 10 + sdec.toNat * 2 ^ 16) ++ toBytes 8 t.pc.toNat ++
        toBytes 8 t.resume.toNat ++ toBytes 8 t.addr.toNat ++ toBytes 8 t.code.toNat ++ toBytes 8 0 ++ toBytes 8 s60.toNat ++
        toBytes 8 s61.toNat ++ toBytes 8 s62.toNat ++ toBytes 8 s63.toNat ++ List.replicate 944 0 := by
  have hzeros : List.replicate 48 (0 : Byte) ++ (maskBytes t.done ++ (List.replicate 124 0 ++ (toBytes 512 t.causes.toNat ++
      List.replicate 128 0))) = List.replicate 944 0 := by
    rw [hdone, hcauses, maskBytes_zero, show (0 : BitVec 4096).toNat = 0 from BitVec.toNat_zero, toBytes_zero]
    simp only [List.replicate_append_replicate]
  rw [recordBytes, hzeros]
  simp only [List.append_assoc]

/-! ### The statements -/

/-- Settles O22: a cause is latched or delivered by whether lane work is in flight, and offered where it is a permission or
translation fault. -/
theorem takingATrap : Obligations.TakingATrap := by
  unfold Obligations.TakingATrap
  constructor
  · intro s u cause hmode hoffer hraised hperm htrans p t at_ v
    have hv : v = s.deliver cause false := State.takeTrap_deliver hmode hoffer hraised hperm htrans
    have ht : cause.atBoundary s.party.pc = t := by
      unfold Trap.atBoundary
      simp only [t, p]
      split <;> rfl
    refine ⟨fun hbusy => ?_, fun hinflight hpart hhandler hwrite => ?_⟩
    · rw [hv, State.deliver_latched (Party.laneBusy_of_busy hbusy), ht]
    · have hentered := State.deliver_entered (t := cause) (sdec := false) (Party.laneBusy_of_idle hinflight hpart) hhandler
        (by rw [ht]; exact hwrite)
      rw [ht] at hentered
      rw [hv, hentered, Bool.and_assoc]
      exact ⟨rfl, rfl, length_recordBytes ..⟩
  · intro s t hmode
    refine ⟨fun hoffer hraised hcause => ?_, fun hpending => ?_⟩
    · have hoffered := State.takeTrap_offer hmode hoffer hraised hcause
      exact ⟨hoffered, by rw [hoffered]; exact ⟨_, rfl⟩⟩
    · have hbusy : (s.party.offer.isSome || s.party.raised.isSome) = true := by
        simpa [Option.isSome_iff_ne_none] using hpending
      rw [State.takeTrap, if_neg (by simp [hmode]), if_pos hbusy]

/-- Settles O23: SOFT is delivered at once, and its record holds the code of TRAP and no lanes. -/
theorem trapRaisesSoft : Obligations.TrapRaisesSoft := by
  unfold Obligations.TrapRaisesSoft
  intro s u k a hmode hoffer hraised hinflight hpart hhandler p at_ hwrite
  let t : Trap := { Trap.scalar .soft p.pc (p.pc + 4) with code := p.reg a }
  have hexec : exec (.trap k a) s = .next (s.deliver t false) := by
    show doubleInHandler s (raise s t) = _
    rw [doubleInHandler_of_normal hmode, raise, State.takeTrap_deliver hmode hoffer hraised Cause.noConfusion Cause.noConfusion]
  have hcode : t.cause.code + t.src * 2 ^ 8 + t.boff * 2 ^ 10 + false.toNat * 2 ^ 16 = 3 := by simp [t, Trap.scalar, Cause.code]
  have hbound : t.atBoundary s.party.pc = t := rfl
  have hword : t.word0 false = 3 := by rw [Trap.word0, hcode]; rfl
  have haddr : t.addr.toNat = 0 := rfl
  have hrecord : s.arenaWrite (s.home s.party).space (s.party.recordAt (s.home s.party))
      (recordBytes t false (s.party.reg 60) (s.party.reg 61) (s.party.reg 62) (s.party.reg 63)) = .ok u := by
    rw [recordBytes_of_noLanes rfl rfl, hcode, haddr]
    exact hwrite
  have hentered := State.deliver_entered (t := t) (sdec := false) (Party.laneBusy_of_idle hinflight hpart) hhandler hrecord
  rw [hentered, hbound, Party.inHandler, hword] at hexec
  exact ⟨_, hexec, rfl, rfl, rfl, rfl, rfl, rfl, rfl, rfl, rfl, rfl, rfl, rfl⟩

end Sys2Proof.Machine
end

section
/-!
SUPPORT. A party that halts waits for nothing (R156): what it does last, and the report of it, begins no wait (R207, R209, R356).
-/
namespace Sys2Proof.Machine

/-! ### A party that waits for nothing -/

/-- Where the party in focus waits for nothing in one state, it waits for nothing in the other. -/
structure KeepsIdle (s t : State) : Prop where
  idle : s.party.wait = none → t.party.wait = none

theorem KeepsIdle.refl (s : State) : KeepsIdle s s := ⟨id⟩

theorem KeepsIdle.trans {s t u : State} (h : KeepsIdle s t) (k : KeepsIdle t u) : KeepsIdle s u := ⟨k.idle ∘ h.idle⟩

theorem KeepsIdle.of_party {s t : State} (h : t.party = s.party) : KeepsIdle s t := ⟨(congrArg Party.wait h).trans⟩

theorem KeepsIdle.of_parties {s t : State} (h : t.parties = s.parties) : KeepsIdle s t := .of_party (party_others_of_parties h).1

theorem KeepsIdle.foldl {α : Type} {f : State → α → State} (hf : ∀ s a, KeepsIdle s (f s a)) (l : List α) (s : State) :
    KeepsIdle s (l.foldl f s) := by
  induction l generalizing s with
  | nil => exact .refl s
  | cons a l ih => exact (hf s a).trans (ih _)

/-- A party that waits is not the one in focus, where that waits for nothing. -/
theorem State.pid_ne_of_waiting {s : State} (hidle : s.party.wait = none) {pid : Nat} {p : Party} (hp : s.party? pid = some p)
    {w : Wait} (hw : p.wait = some w) : s.party.pid ≠ p.pid := by
  intro hpid
  have hp' : p.pid = pid := by simpa using List.find?_some hp
  have hfirst : s.party? pid = some s.party := List.find?_cons_of_pos (by rw [hpid, hp']; exact beq_self_eq_true _)
  rw [hfirst] at hp
  rw [← Option.some.inj hp, hidle] at hw
  cases hw

theorem State.putParty_other {s : State} {q : Party} (h : s.party.pid ≠ q.pid) : (s.putParty q).party = s.party := by
  rw [State.putParty, if_neg h]

/-! ### Stores and events -/

theorem State.noteRead_parties (s : State) (core time : Nat) (p : Place) (n : Nat) :
    (s.noteRead core time p n).1.parties = s.parties := by
  obtain ⟨m, lines, -, h⟩ := s.noteRead_lines core time p n
  rw [h]
  rfl

theorem State.writeAs_parties (s : State) (a : Agent) (p : Place) (bs : List Byte) : (s.writeAs a p bs).1.parties = s.parties :=
  (State.writePlace_parties ..).trans (s.noteWrite_parties ..)

/-- A watcher that is put back is not the party in focus, where that waits for nothing. -/
theorem State.putParty_keepsIdle {s t : State} (h : t.parties = s.parties) {pid : Nat} {p q : Party} (hp : s.party? pid = some p)
    {w : Wait} (hw : p.wait = some w) (hq : q.pid = p.pid) : KeepsIdle s (t.putParty q) := by
  refine ⟨fun hidle => ?_⟩
  have hparty : t.party = s.party := (party_others_of_parties h).1
  rw [State.putParty_other (by rw [hparty, hq]; exact State.pid_ne_of_waiting hidle hp hw), hparty, hidle]

theorem State.watch_keepsIdle (s : State) (pid : Nat) : KeepsIdle s (s.watch pid) := by
  unfold State.watch
  split
  · exact .refl s
  · rename_i p hp
    split
    · exact .refl s
    · rename_i w hw
      split
      · split
        · exact .refl s
        · split
          · exact .refl s
          · exact State.putParty_keepsIdle (State.noteRead_parties ..) hp hw rfl
      · exact .refl s

theorem State.watchAll_keepsIdle (s : State) : KeepsIdle s s.watchAll := KeepsIdle.foldl State.watch_keepsIdle _ s

theorem State.retest_keepsIdle (s : State) (pid : Nat) : KeepsIdle s (s.retest pid) := by
  unfold State.retest
  split
  · exact .refl s
  · rename_i p hp
    split
    · exact .refl s
    · rename_i w hw
      split
      · split
        · refine .trans ?_ (State.watchAll_keepsIdle _)
          exact State.putParty_keepsIdle (State.writeAs_parties ..) hp hw rfl
        · exact .refl s
      · exact .refl s

theorem State.storeAs_keepsIdle (s : State) (a : Agent) (p : Place) (bs : List Byte) : KeepsIdle s (s.storeAs a p bs).1 :=
  ((KeepsIdle.of_parties (s.writeAs_parties a p bs)).trans (State.watchAll_keepsIdle _)).trans
    (KeepsIdle.foldl State.retest_keepsIdle _ _)

theorem State.save_keepsIdle {s t : State} {ac : Accessor} {a : Word} {n v : Nat} (e : s.save ac a n v = .ok t) :
    KeepsIdle s t := by
  unfold State.save at e
  cases hp : s.writePlaceOf ac a n .write with
  | error d => rw [hp] at e; cases e
  | ok p => rw [hp] at e; cases e; exact State.storeAs_keepsIdle ..

theorem State.loadAs_parties {s t : State} {core time time' v : Nat} {ac : Accessor} {a : Word}
    (e : s.loadAs core time ac a = .ok (t, time', v)) : t.parties = s.parties := by
  unfold State.loadAs at e
  repeat' split at e
  all_goals cases e
  exact State.noteRead_parties ..

theorem State.claim_keepsIdle {s t : State} {a : Agent} {core : Nat} {ac : Accessor} {slot counter q seq seq' : Word}
    {want old time : Nat} (e : s.claim a core ac slot counter want old seq = .ok (.slot t time q seq')) : KeepsIdle s t := by
  unfold State.claim at e
  obtain ⟨⟨u, time', found⟩, hload, e⟩ := bind_ok e
  have hread : KeepsIdle s u := .of_parties (State.loadAs_parties (at_ok hload))
  dsimp only at e
  split at e
  · obtain ⟨p, -, e⟩ := bind_ok e
    cases e
    exact hread.trans (State.storeAs_keepsIdle ..)
  · cases e

theorem State.putEvent_keepsIdle {s t : State} {ctx : Nat} {bs : List Byte} (e : s.putEvent ctx bs = some t) : KeepsIdle s t := by
  unfold State.putEvent at e
  dsimp only at e
  split at e
  · split at e
    · cases e
    · split at e
      · cases e
      · split at e
        · rename_i hclaim
          split at e
          · cases e
          · rename_i hwrite
            have hput := (State.claim_keepsIdle hclaim).trans (.of_parties (State.arenaWrite_parties hwrite))
            split at e
            · rename_i hsave _
              cases e
              exact (hput.trans (State.save_keepsIdle hsave)).trans
                ((KeepsIdle.foldl (f := fun s (x : Place × Nat) => s.showHost x.1 x.2) (fun _ _ => .of_party rfl) _ _).trans
                  (.of_party (State.interrupt_party ..)))
            · rename_i hsave _
              cases e
              exact (hput.trans (State.save_keepsIdle hsave)).trans (.of_party (State.interrupt_party ..))
            · cases e
        · cases e
  · cases e

theorem State.flushEvents_keepsIdle (s : State) : KeepsIdle s s.flushEvents := by
  suffices hfold : ∀ (l : List (Nat × List Byte)) (acc : State × List (Nat × List Byte)), KeepsIdle s acc.1 →
      KeepsIdle s (l.foldl (fun (acc : State × List (Nat × List Byte)) e =>
        if acc.2.any fun w => w.1 == e.1 then (acc.1, acc.2 ++ [e])
        else match acc.1.putEvent e.1 e.2 with
          | some s => (s, acc.2)
          | none => (acc.1, acc.2 ++ [e])) acc).1 from
    (hfold s.events ({ s with events := [] }, []) (.of_party rfl)).trans (.of_party rfl)
  intro l
  induction l with
  | nil => exact fun _ h => h
  | cons e l ih =>
    intro acc hacc
    rw [List.foldl_cons]
    refine ih _ ?_
    split
    · exact hacc
    · split
      · rename_i hput
        exact hacc.trans (State.putEvent_keepsIdle hput)
      · exact hacc

theorem State.report_keepsIdle (s : State) (ctx : Nat) (e : Event) : KeepsIdle s (s.report ctx e) := by
  unfold State.report
  refine .trans ?_ (State.flushEvents_keepsIdle _)
  exact .of_party rfl

/-! ### Leaving a group (R94, R284, R350) -/

theorem State.goHome_parties (s : State) (l : Launch) (g : Group) : (s.goHome l g).parties = s.parties := by
  unfold State.goHome
  extract_lets t c
  have ht : t.parties = s.parties := by
    simp only [t]
    split
    · rfl
    · split
      · rename_i e; exact State.leaveCore_parties e
      · rfl
  split
  · exact ht
  · split
    · rename_i e; exact (State.saveRoots_parties e).trans ht
    · exact ht

theorem State.closeGroup_parties (s : State) (launch number : Nat) (resident : Bool) :
    (s.closeGroup launch number resident).parties = s.parties := by
  unfold State.closeGroup
  split
  · extract_lets over_ t
    have ht : t.parties = s.parties := by
      simp only [t]
      split
      · exact State.keepScratch_parties ..
      · rfl
    split
    · exact (State.goHome_parties ..).trans ht
    · exact ht
  · rfl

theorem State.endFuses_keepsIdle (s : State) (p : Party) (code : Word) : KeepsIdle s (s.endFuses p code) := by
  refine ⟨fun hidle => ?_⟩
  rw [State.endFuses_eq]
  simp only [Party.fuseEnded, hidle, Option.map_none]
  split
  · rfl
  · exact hidle

/-! ### A halt (R156) -/

/-- A party that halts waits for nothing, and its lane queue is empty. -/
theorem State.halt_party (s : State) (soft : Bool) : (s.halt soft).party.life = .halted ∧ (s.halt soft).party.queue = [] ∧
    (s.halt soft).party.wait = none ∧ (s.halt soft).party.pid = s.party.pid := by
  unfold State.halt
  extract_lets p l t _ q u
  let v : State := { t with party := q }
  generalize hr : u.report l.space.ctx _ = r
  have hsame : SameParty v r := hr ▸
    ((v.endFuses_sameParty q stFuseGone).trans (State.closeGroup_sameParty ..)).trans (State.report_sameParty ..)
  have hidle : KeepsIdle v r := hr ▸
    ((v.endFuses_keepsIdle q stFuseGone).trans (.of_parties (State.closeGroup_parties ..))).trans (State.report_keepsIdle ..)
  have hpid : r.party.pid = s.party.pid := hsame.pid.trans (s.dropBarriers_sameParty l p).pid
  refine ⟨?_, ?_, hidle.idle rfl, hpid⟩
  all_goals
    obtain ⟨n, w, hr⟩ := hsame
    rw [hr]

/-! ### The statement -/

/-- Handler mode turns these forms into DOUBLE (R155). -/
theorem doubleInHandler_of_handler {s : State} (h : s.party.hmode = true) (r : Result) : doubleInHandler s r = .next s.halt :=
  if_pos h

/-- Settles O25: each instruction of the table is guarded by the one form, and a halt leaves the party halted. -/
theorem doubleInHandlerMode : Obligations.DoubleInHandlerMode := by
  unfold Obligations.DoubleInHandlerMode
  intro s k d a b dl f m len idx n off hmode doubles
  have hdouble := doubleInHandler_of_handler hmode
  exact ⟨hdouble _, hdouble _, hdouble _, hdouble _, hdouble _, hdouble _, hdouble _, hdouble _, hdouble _, hdouble _, hdouble _,
    hdouble _, hdouble _, hdouble _, hdouble _, hdouble _, hdouble _, hdouble _, hdouble _, hdouble _, hdouble _, hdouble _,
    hdouble _, hdouble _, hdouble _, hdouble _, hdouble _, hdouble _, hdouble _, hdouble _, hdouble _, hdouble _, hdouble _,
    hdouble _, hdouble _, hdouble _, hdouble _, hdouble _, fun t => State.takeTrap_hmode hmode, s.halt_party false⟩

end Sys2Proof.Machine
end

section
/-!
SUPPORT. A handler entered for a lane access that makes its record name another cause (R158; log 72): RETT then forgets the lane
instruction that was to be issued again.
-/
namespace Sys2Proof.Machine

theorem eq_ok_of_toOption {ε α : Type} {x : Except ε α} {a : α} (h : x.toOption = some a) : x = .ok a := by
  cases x with
  | error e => cases h
  | ok b => exact congrArg Except.ok (Option.some.inj h)

/-- A load that has begun. -/
def forgottenHead : HeadOp where
  op := .ld
  f := { ty := .i32, dst := 0, a := 0x80, b := 0, c := 0, imm := 0, pred := 0, neg := false, dl := 0, hint := 0, set := 15, wait := 0
         gap := 0 }
  mask := 1
  anyRemote := false
  late := 0
  deadline := { party := false, ticks := 0, ceiling := false, poll := false, esc := false, sel := 0 }

/-- A part with one small launch, whose party is in the handler that it entered for that load; its record is all zeros, and so
names no access. -/
def rewrittenState : State :=
  let s := State.reset.install
  { s with party := { s.party with hmode := true, handlingLane := true, headOp := some forgottenHead } }

/-- The bytes of its record. -/
def rewrittenRecord : Except Deny (List Byte) :=
  rewrittenState.arenaRead (rewrittenState.home rewrittenState.party).space
    (rewrittenState.party.recordAt (rewrittenState.home rewrittenState.party)) 1024

theorem rewrittenRecord_eq : rewrittenRecord.toOption = some (List.replicate 1024 0) := by decide +kernel

/-- The lane instruction that a step leaves to be issued again. -/
def Result.headOp : Result → Option (Option HeadOp)
  | .next t => some t.party.headOp
  | _ => none

theorem headOp_rett_rewritten : Result.headOp (exec (.rett false) rewrittenState) = some none := by decide +kernel

/-- Refutes O24: where the record no longer names the lane access that the handler was entered for, RETT forgets the instruction at
the head of the lane queue, which the first clause has it keep. -/
theorem not_rettReturns : ¬ Obligations.RettReturns := by
  unfold Obligations.RettReturns
  intro h
  obtain ⟨hreturn, -⟩ := h rewrittenState false (List.replicate 1024 0) (eq_ok_of_toOption rewrittenRecord_eq)
    (List.length_replicate ..)
  obtain ⟨t, hexec, -, hparty, -⟩ := hreturn rfl (by decide +kernel)
  have hkept : t.party.headOp = some forgottenHead := by rw [hparty]; rfl
  have hforgotten := headOp_rett_rewritten
  rw [hexec, Result.headOp, hkept] at hforgotten
  cases hforgotten

end Sys2Proof.Machine
end

section
/-!
SUPPORT. The checks of one access in their order (R150, R164 to R166, R181), and what a denied scalar access comes to (R191, R338).
-/
namespace Sys2Proof.Machine

/-! ### One access (R150, R165) -/

section
variable {s : State} {ac : Accessor} {a : Word} {n align : Nat} {need : Rights}

/-- The checks of an access whose place is found: ALIGNMENT, then for a read POISON. -/
def State.checkPlace (s : State) (lo n align : Nat) (need : Rights) : Except Deny Place → Except Deny Place
  | .error d => .error d
  | .ok p => if lo % align ≠ 0 then .error { cause := .alignment }
    else if need.r && s.poisonedPlace p n then .error { cause := .poison } else .ok p

/-- An access in one window takes the denial of its window, or else meets the checks of its place. -/
theorem State.access_within (hwindow : windowOf a.toNat = windowOf (a.toNat + n - 1)) (hend : a.toNat + n - 1 < 2 ^ 64) :
    s.access ac a n align need = s.checkPlace a.toNat n align need (s.windowPlace ac a.toNat n need) := by
  have hsplit : (decide (2 ^ 64 ≤ a.toNat + n - 1) || windowOf a.toNat != windowOf (a.toNat + n - 1)) = false := by
    rw [hwindow]
    simpa using hend
  unfold State.access
  simp only [hsplit, Bool.false_and, Bool.false_eq_true, if_false]
  cases s.windowPlace ac a.toNat n need <;> rfl

/-- An access that starts in the global window and ends elsewhere is WINDOW_SPLIT (R165; log 49). -/
theorem State.access_split (hstart : windowOf a.toNat = .global)
    (hend : windowOf (a.toNat + n - 1) ≠ .global ∨ 2 ^ 64 ≤ a.toNat + n - 1) :
    s.access ac a n align need = .error { cause := .windowSplit } := by
  have hsplit : (decide (2 ^ 64 ≤ a.toNat + n - 1) || windowOf a.toNat != windowOf (a.toNat + n - 1)) = true := by
    rw [hstart]
    rcases hend with h | h
    · rw [bne_iff_ne.mpr (Ne.symm h), Bool.or_true]
    · rw [decide_eq_true h, Bool.true_or]
  unfold State.access
  simp only [hsplit]
  rw [hstart]
  rfl

end

/-! ### The extents of a launch (R166, R168, R169) -/

section
variable {s : State} {ac : Accessor} {l : Launch} (hlaunch : ac.launch = some l) {lo n : Nat} (need : Rights)
include hlaunch

theorem State.resolve_local (hwindow : windowOf lo = .local_) : s.resolve ac lo n =
    if l.header.local_ < lo % 2 ^ 48 + n then .error .outOfExtent else s.scratchTarget l ac.group (lo % 2 ^ 48) := by
  rw [State.resolve, hwindow, hlaunch]

theorem State.resolve_private (hwindow : windowOf lo = .private_) : s.resolve ac lo n =
    if l.header.private_ < lo % 2 ^ 48 + n then .error .outOfExtent
    else .ok (.memory (l.header.privateAt ac.group ac.q + lo % 2 ^ 48)) := by
  rw [State.resolve, hwindow, hlaunch]

theorem State.windowPlace_beyond_local (hwindow : windowOf lo = .local_) (hbeyond : l.header.local_ < lo % 2 ^ 48 + n) :
    s.windowPlace ac lo n need = .error .outOfExtent := by
  rw [State.windowPlace, State.resolve_local hlaunch hwindow, if_pos hbeyond]

theorem State.windowPlace_beyond_private (hwindow : windowOf lo = .private_) (hbeyond : l.header.private_ < lo % 2 ^ 48 + n) :
    s.windowPlace ac lo n need = .error .outOfExtent := by
  rw [State.windowPlace, State.resolve_private hlaunch hwindow, if_pos hbeyond]

theorem State.windowPlace_private (hwindow : windowOf lo = .private_) (hwithin : lo % 2 ^ 48 + n ≤ l.header.private_) :
    s.windowPlace ac lo n need = s.elementPlace ac.space (l.header.privateAt ac.group ac.q + lo % 2 ^ 48) n need := by
  rw [State.windowPlace, State.resolve_private hlaunch hwindow, if_neg (Nat.not_lt.mpr hwithin)]

end

/-! ### Elements on two pages (R150) -/

/-- What the places of an element's first and last byte come to: of two causes PERMISSION comes first. -/
def bothPages : Except Deny Place → Except Deny Place → Except Deny Place
  | .ok p, .ok _ => .ok p
  | .ok _, .error e => .error e
  | .error d, .ok _ => .error d
  | .error d, .error e => .error (if d.cause ≠ .permission ∧ e.cause = .permission then e else d)

theorem State.elementPlace_two_pages {s : State} {sp : Space} {va n : Nat} (hn : 1 < n)
    (hpages : va / 65536 ≠ (va + n - 1) / 65536) (need : Rights) :
    s.elementPlace sp va n need = bothPages (s.globalPlace sp va need) (s.globalPlace sp (va + n - 1) need) := by
  have hsplit : ¬(n ≤ 1 ∨ va / 65536 = (va + n - 1) / 65536) := by omega
  unfold State.elementPlace
  dsimp only
  rw [if_neg hsplit]
  cases s.globalPlace sp va need <;> cases s.globalPlace sp (va + n - 1) need <;> rfl

/-! ### A denied scalar access (R191, R338) -/

section
variable {s : State} {d : Deny}

/-- A denial raises its cause alone, after a POISON has raised the logical time as a read does. -/
theorem raiseDeny_eq (addr : Word) : raiseDeny s d addr =
    .next ((if d.cause = .poison then s.sawPoison s.accessor d addr else s).takeTrap
      ((Trap.scalar d.cause s.party.pc s.party.pc).denied d addr)) := by
  split
  · rfl
  · rename_i hcause
    rw [raiseDeny, State.sawPoison_of_other hcause]
    rfl

theorem scalarLoad_denied {r b : Reg} {imm : BitVec 13} {n : Nat} (hfree : s.holdsReg s.party r = false)
    (h : s.access s.accessor (s.party.dataAddress b imm) n n .read = .error d) (g : Nat → Word) :
    scalarLoad s r b imm n g = raiseDeny s d (s.party.dataAddress b imm) := by
  unfold scalarLoad
  dsimp only
  rw [if_neg (by simp [hfree]), show s.access (accessorOf (s.home s.party) s.party) _ n n .read = _ from h]

theorem scalarStore_denied {r b : Reg} {imm : BitVec 13} {n : Nat}
    (h : s.access s.accessor (s.party.dataAddress b imm) n n .write = .error d) :
    scalarStore s r b imm n = raiseDeny s d (s.party.dataAddress b imm) := by
  unfold scalarStore
  dsimp only
  rw [show s.access (accessorOf (s.home s.party) s.party) _ n n .write = _ from h]

end

/-! ### The statement -/

/-- Settles O26: an access by whether it lies in one window, an element by its pages, and a scalar access by its denial. -/
theorem accessChecks : Obligations.AccessChecks := by
  unfold Obligations.AccessChecks
  intro s ac a n align need l p d lo hi off
  refine ⟨fun hwindow hend => ?_, State.access_split, fun hlaunch => ⟨fun hlocal hbeyond => ?_, fun hprivate hbeyond => ?_,
    fun hprivate hwithin => ?_⟩, fun va hn hpages => ?_, fun k r b imm hfree => ⟨fun h => ?_, fun h => ?_⟩⟩
  · have haccess := State.access_within (s := s) (ac := ac) (align := align) (need := need) hwindow hend
    refine ⟨fun h => ?_, fun h halign => ?_, fun h halign hreads hpoison => ?_, fun h halign hclean => ?_⟩
    · rw [haccess, h, State.checkPlace]
    · rw [haccess, h]
      exact if_pos halign
    · rw [haccess, h]
      exact (if_neg (not_not.mpr halign)).trans (if_pos (by rw [hreads, hpoison]; rfl))
    · rw [haccess, h]
      exact (if_neg (not_not.mpr halign)).trans (if_neg (by rw [hclean]; exact Bool.false_ne_true))
  · exact State.windowPlace_beyond_local hlaunch need hlocal hbeyond
  · exact State.windowPlace_beyond_private hlaunch need hprivate hbeyond
  · exact State.windowPlace_private hlaunch need hprivate hwithin
  · rw [State.elementPlace_two_pages hn hpages]
    refine ⟨fun q hfirst hlast => ?_, fun q hfirst hlast => ?_, fun hfirst hcause => ?_, fun e hfirst he hlast hd => ?_⟩
    · rw [hfirst, hlast, bothPages]
    · rw [hfirst, hlast, bothPages]
    · rw [hfirst]
      cases s.globalPlace ac.space (va + n - 1) need with
      | ok q => rfl
      | error e => exact congrArg Except.error (if_neg fun h => h.1 hcause)
    · rw [hfirst, hlast]
      exact congrArg Except.error (if_pos ⟨he, hd⟩)
  · exact (scalarLoad_denied hfree h _).trans (raiseDeny_eq _)
  · exact (scalarStore_denied h).trans (raiseDeny_eq _)

end Sys2Proof.Machine
end

section
/-!
SUPPORT. A tile task whose declined fault is POISON (R40, R242): it ends with the code 0x07, as R158 has it of poison, and not with
the FAULT code of a cause. No run offers such a fault; the statement speaks of every state.
-/
namespace Sys2Proof.Machine

/-- A poisoned read, as an offer of an engine holds it. -/
def poisonedOffer : Offer := { trap := Trap.scalar .poison 0 0, ticket := some 0 }

/-- A task whose storage is read, with that offer made. -/
def poisonedTask : Task where
  id := 5
  seq := 0
  time := 0
  core := 0
  quad := 0
  slot := 0
  launch := 1
  group := 0
  first := 0
  pid := 2
  owners := [2]
  replay := false
  members := [2]
  op := 2
  nvr := 2
  batch := 0
  vals := []
  ctl := 0
  started := true
  engine := 0
  released := false
  unit := none
  head := none
  fmt := 0
  shape := 0
  stage := .image 8 []
  offer := some poisonedOffer

def poisonedTicket : Ticket := { ctx := 1, number := 0, asker := .task 5 }

/-- The part with one small launch, that task, and the answer 2 at the reply word of its ticket, which lies at address 0. -/
def poisonedState : State :=
  let s := State.reset.install
  { s with mem := writeBytes s.mem 0 (toBytes 8 2), tasks := [poisonedTask], tickets := [poisonedTicket] }

/-- The same with the task ended as the statement has it, and the ticket free. -/
def poisonedEnded : State :=
  { poisonedState with
    tasks := [{ poisonedTask with offer := none, unit := none, stage := .ended 0x1406 }], tickets := [] }

/-- The stages of the tasks of a state. -/
def State.stages (s : State) : List TaskStage := s.tasks.map Task.stage

/-- The stages that an outcome leaves. -/
def Result.stages : Result → Option (List TaskStage)
  | .next t => some t.stages
  | _ => none

theorem stages_answer_poisoned : Result.stages (exec (.replyAnswer 1 0) poisonedState) = some [.ended stPoison] := by
  decide +kernel

theorem stages_save_poisoned :
    ((poisonedEnded.save (accessorIn installSpace) 0 8 0).toOption.map State.stages) = some [.ended 0x1406] := by
  decide +kernel

theorem load_poisoned : (poisonedState.load (accessorIn installSpace) 0 8).toOption = some 2 := by decide +kernel

/-- Refutes O50: a task whose declined fault is POISON ends with the code 0x07, where the clause on tasks has 0x06 with the cause as
its detail. -/
theorem not_answers : ¬ Obligations.Answers := by
  unfold Obligations.Answers
  intro h
  obtain ⟨-, -, -, -, -, -, htask, -⟩ := h poisonedState 1 0 poisonedTicket installSpace 0 2 (by decide +kernel) (by decide +kernel)
    (eq_ok_of_toOption load_poisoned)
  obtain ⟨-, hdeclined⟩ := htask poisonedTask poisonedOffer rfl (by decide +kernel) rfl
  obtain ⟨hended, -⟩ := hdeclined (.inl rfl) (by decide +kernel)
  obtain ⟨t, hsave, hstages⟩ := Option.map_eq_some_iff.mp stages_save_poisoned
  have hexec := hended (fun _ _ _ _ _ _ => TaskStage.noConfusion) t (eq_ok_of_toOption hsave)
  have hreal := stages_answer_poisoned
  rw [hexec, Result.stages, hstages] at hreal
  exact absurd hreal (by decide)

end Sys2Proof.Machine
end

section
/-!
SUPPORT. The uncertain masks of the party in focus bear on no access (R34, R195): a state in which a lane instruction issues has
others than before, and every read and store does in it what it did before.
-/
namespace Sys2Proof.Machine

/-- The state with other uncertain masks of the party in focus. -/
def State.loosen (s : State) (l : List LooseMask) : State := { s with party := { s.party with looseMasks := l } }

/-- A party of a state as the state with other uncertain masks has it: changed if it is the one in focus. -/
def State.loosened (s : State) (l : List LooseMask) (pid : Nat) (p : Party) : Party :=
  if s.party.pid = pid then { p with looseMasks := l } else p

variable (s : State) (l : List LooseMask)

/-! ### Reads -/

theorem State.loosen_access (ac : Accessor) (a : Word) (n align : Nat) (need : Rights) :
    (s.loosen l).access ac a n align need = s.access ac a n align need := rfl

theorem State.loosen_valueAt (p : Place) (n : Nat) : (s.loosen l).valueAt p n = s.valueAt p n := rfl

theorem State.loosen_noteRead (core time : Nat) (p : Place) (n : Nat) :
    (s.loosen l).noteRead core time p n = ((s.noteRead core time p n).1.loosen l, (s.noteRead core time p n).2) := by
  unfold State.noteRead
  generalize p.lines n = ls
  suffices ∀ r : State × Nat, ls.foldl (fun (r : State × Nat) x =>
      let k := (r.1.lineAt x).renewed r.2 ((s.loosen l).leaseOf core p)
      (r.1.putLine k, Nat.max r.2 k.wt)) (r.1.loosen l, r.2) =
    ((ls.foldl (fun (r : State × Nat) x =>
      let k := (r.1.lineAt x).renewed r.2 (s.leaseOf core p)
      (r.1.putLine k, Nat.max r.2 k.wt)) r).1.loosen l, (ls.foldl (fun (r : State × Nat) x =>
      let k := (r.1.lineAt x).renewed r.2 (s.leaseOf core p)
      (r.1.putLine k, Nat.max r.2 k.wt)) r).2) from this (s, time)
  induction ls with
  | nil => exact fun _ => rfl
  | cons x ls ih =>
    intro r
    let k := (r.1.lineAt x).renewed r.2 (s.leaseOf core p)
    exact ih (r.1.putLine k, Nat.max r.2 k.wt)

theorem State.loosen_partyRead (p : Place) (n : Nat) : (s.loosen l).partyRead p n = (s.partyRead p n).loosen l := by
  unfold State.partyRead
  rw [State.loosen_noteRead]
  rfl

/-! ### Writes -/

theorem State.loosen_foldl {α : Type} {f : State → α → State} (hf : ∀ s a, f (s.loosen l) a = (f s a).loosen l) (as : List α)
    (s : State) : as.foldl f (s.loosen l) = (as.foldl f s).loosen l := by
  induction as generalizing s with
  | nil => rfl
  | cons a as ih => rw [List.foldl_cons, List.foldl_cons, hf, ih]

theorem State.loosen_noteWrite (a : Agent) (p : Place) (n : Nat) :
    (s.loosen l).noteWrite a p n = ((s.noteWrite a p n).1.loosen l, (s.noteWrite a p n).2) := by
  unfold State.noteWrite
  dsimp only
  have hstamp (t : Nat) : (s.loosen l).stampLines t p n = (s.stampLines t p n).loosen l :=
    State.loosen_foldl l (f := fun s x => s.putLine { s.lineAt x with wt := t, rl := Nat.max (s.lineAt x).rl t }) (fun _ _ => rfl) _ s
  have hhost (s : State) (t : Nat) : (s.loosen l).noteHost a t = (s.noteHost a t).loosen l := by
    unfold State.noteHost
    split <;> rfl
  have htime : (s.loosen l).writeTime ((s.loosen l).earliest a) a.path p n = s.writeTime (s.earliest a) a.path p n := rfl
  rw [htime, hstamp, ← hhost]
  rfl

theorem State.loosen_writePlace (p : Place) (bs : List Byte) : (s.loosen l).writePlace p bs = (s.writePlace p bs).loosen l := by
  cases p with
  | phys pa key home =>
    have hrekey (s : State) (x : Nat) : (s.loosen l).rekey x key = (s.rekey x key).loosen l := by
      unfold State.rekey
      split
      · exact (if_pos ‹_›).symm ▸ rfl
      · exact (if_neg ‹_›).symm ▸ rfl
    show (s.loosen l).writePhys pa bs key = (s.writePhys pa bs key).loosen l
    unfold State.writePhys
    rw [State.loosen_foldl l (f := fun s x => s.rekey x key) hrekey]
    rfl
  | spad la g off =>
    show (match s.group? la g with | some g => _ | none => _) = _
    unfold State.writePlace
    dsimp only
    cases s.group? la g <;> rfl

theorem State.loosen_writeAs (a : Agent) (p : Place) (bs : List Byte) :
    (s.loosen l).writeAs a p bs = ((s.writeAs a p bs).1.loosen l, (s.writeAs a p bs).2) := by
  unfold State.writeAs
  dsimp only
  rw [State.loosen_noteWrite, State.loosen_writePlace]

/-! ### Watchers and waiters (R207, R209) -/

theorem State.loosen_party? (pid : Nat) : (s.loosen l).party? pid = (s.party? pid).map (s.loosened l pid) := by
  have hhead : (s.loosen l).party.pid = s.party.pid := rfl
  by_cases h : s.party.pid = pid
  · have hfound : s.party? pid = some s.party := List.find?_cons_of_pos (beq_iff_eq.mpr h)
    have hfound' : (s.loosen l).party? pid = some (s.loosen l).party := List.find?_cons_of_pos (beq_iff_eq.mpr h)
    rw [hfound, hfound', Option.map_some, State.loosened, if_pos h]
    rfl
  · have hne : ¬(s.party.pid == pid) = true := by simpa using h
    have hskip : s.party? pid = s.others.find? fun p => p.pid == pid := List.find?_cons_of_neg hne
    have hskip' : (s.loosen l).party? pid = s.others.find? fun p => p.pid == pid := List.find?_cons_of_neg hne
    have hid : s.loosened l pid = id := by
      funext p
      exact if_neg h
    rw [hskip, hskip', hid, Option.map_id_fun, id]

/-- A party put back where it was found, with other fields that are not its uncertain masks. -/
theorem State.loosen_putParty {s t : State} (hpid : t.party.pid = s.party.pid) {pid : Nat} {p : Party} (hp : p.pid = pid) (n : Nat)
    (w : Option Wait) :
    (t.loosen l).putParty { s.loosened l pid p with pt := n, wait := w } = (t.putParty { p with pt := n, wait := w }).loosen l := by
  have hsame : (s.loosened l pid p).pid = p.pid := by
    unfold State.loosened
    split <;> rfl
  unfold State.putParty
  by_cases h : t.party.pid = p.pid
  · rw [if_pos (by exact h.trans hsame.symm), if_pos h, State.loosened, if_pos (by rw [← hpid, h, hp])]
    rfl
  · rw [if_neg (by rw [hsame]; exact h), if_neg h, State.loosened, if_neg (by rw [← hpid, ← hp]; exact h)]
    rfl


/-- The tests of a watcher and of a waiter read no uncertain mask. -/
theorem State.loosened_same (pid : Nat) (p : Party) : ∃ m, s.loosened l pid p = { p with looseMasks := m } := by
  unfold State.loosened
  split
  · exact ⟨l, rfl⟩
  · exact ⟨p.looseMasks, rfl⟩

theorem State.loosen_watch (pid : Nat) : (s.loosen l).watch pid = (s.watch pid).loosen l := by
  unfold State.watch
  rw [State.loosen_party?]
  cases hp : s.party? pid with
  | none => rfl
  | some p =>
    have hput := fun t ht => State.loosen_putParty l (s := s) (t := t) ht (pid := pid) (p := p) (by simpa using List.find?_some hp)
    obtain ⟨m, hm⟩ := State.loosened_same s l pid p
    have hwait : (s.loosened l pid p).wait = p.wait := by rw [hm]
    have haway : (s.loosen l).away (s.loosened l pid p) = s.away p := by rw [hm]; rfl
    have hhome : (s.loosen l).home (s.loosened l pid p) = s.home p := by rw [hm]; rfl
    have hacc : accessorOf (s.home p) (s.loosened l pid p) = accessorOf (s.home p) p := by rw [hm]; rfl
    have hread (q : Place) : (s.loosen l).noteRead (s.loosened l pid p).core (s.loosened l pid p).pt q 8 =
        ((s.noteRead p.core p.pt q 8).1.loosen l, (s.noteRead p.core p.pt q 8).2) := by
      rw [hm]
      exact State.loosen_noteRead ..
    dsimp only [Option.map_some]
    rw [hwait]
    cases p.wait with
    | none => rfl
    | some w =>
      dsimp only
      rw [haway, hhome, hacc, State.loosen_access, apply_ite (State.loosen · l)]
      refine if_congr Iff.rfl ?_ rfl
      cases s.access (accessorOf (s.home p) p) w.w1 8 8 .read with
      | error d => rfl
      | ok q =>
        dsimp only
        rw [hread, apply_ite (State.loosen · l)]
        refine if_congr Iff.rfl rfl ?_
        exact hput _ (State.noteRead_same ..).sameParty.pid _ _

theorem State.loosen_watchAll : (s.loosen l).watchAll = s.watchAll.loosen l := by
  have hids : ((s.loosen l).parties.filter Party.watches).map (fun p => p.pid) =
      (s.parties.filter Party.watches).map fun p => p.pid := by
    simp only [State.parties, List.filter_cons]
    rw [show Party.watches (s.loosen l).party = Party.watches s.party from rfl]
    split <;> rfl
  unfold State.watchAll
  rw [hids, State.loosen_foldl l (State.loosen_watch · l)]

theorem State.loosen_turnAllows (pid : Nat) : (s.loosen l).turnAllows pid = s.turnAllows pid := by
  unfold State.turnAllows
  rw [State.loosen_party?]
  cases s.party? pid with
  | none => rfl
  | some p =>
    obtain ⟨m, hm⟩ := State.loosened_same s l pid p
    rw [Option.map_some, hm]
    rfl

theorem State.loosen_retest (pid : Nat) : (s.loosen l).retest pid = (s.retest pid).loosen l := by
  unfold State.retest
  rw [State.loosen_party?]
  cases hp : s.party? pid with
  | none => rfl
  | some p =>
    have hput := fun t ht => State.loosen_putParty l (s := s) (t := t) ht (pid := pid) (p := p) (by simpa using List.find?_some hp)
    obtain ⟨m, hm⟩ := State.loosened_same s l pid p
    have hwait : (s.loosened l pid p).wait = p.wait := by rw [hm]
    have hstays : ((s.loosened l pid p).live && !(s.loosened l pid p).evicted) = (p.live && !p.evicted) := by rw [hm]; rfl
    have hpassed (d : Deadline) : d.passed (s.loosen l) (s.loosened l pid p) = d.passed s p := by rw [hm]; rfl
    have hsem (w : Wait) : (s.loosen l).semaphore (s.loosened l pid p) w = s.semaphore p w := by rw [hm]; rfl
    have hagent : (s.loosened l pid p).agent = p.agent := by rw [hm]; rfl
    dsimp only [Option.map_some]
    rw [hwait]
    cases p.wait with
    | none => rfl
    | some w =>
      dsimp only
      rw [hstays, hpassed, hsem, hagent, State.loosen_turnAllows, apply_ite (State.loosen · l)]
      refine if_congr Iff.rfl ?_ rfl
      cases s.semaphore p w with
      | error d => rfl
      | ok found =>
        cases found with
        | none => rfl
        | some x =>
          dsimp only
          rw [← State.loosen_watchAll, State.loosen_writeAs]
          refine congrArg State.watchAll ?_
          exact hput _ (State.writeAs_sameParty ..).pid _ _

theorem State.loosen_retestAll : (s.loosen l).retestAll = s.retestAll.loosen l := by
  have hids : ((s.loosen l).parties.filter fun p => p.wait.any fun w => w.kind == .semacq).map (fun p => p.pid) =
      (s.parties.filter fun p => p.wait.any fun w => w.kind == .semacq).map fun p => p.pid := by
    simp only [State.parties, List.filter_cons]
    rw [show (s.loosen l).party.wait = s.party.wait from rfl]
    split <;> rfl
  unfold State.retestAll
  rw [hids]
  exact State.loosen_foldl l (State.loosen_retest · l) _ s

/-! ### Stores of the party in focus -/

theorem State.loosen_partyWrite (p : Place) (bs : List Byte) : (s.loosen l).partyWrite p bs = (s.partyWrite p bs).loosen l := by
  unfold State.partyWrite
  rw [show (s.loosen l).party.agent = s.party.agent from rfl, State.loosen_writeAs]
  rfl

theorem State.loosen_partyStore (p : Place) (bs : List Byte) : (s.loosen l).partyStore p bs = (s.partyStore p bs).loosen l := by
  unfold State.partyStore State.storeAs
  rw [show (s.loosen l).party.agent = s.party.agent from rfl, State.loosen_writeAs]
  dsimp only
  rw [State.loosen_watchAll, State.loosen_retestAll]
  rfl

end Sys2Proof.Machine
end

section
/-!
SUPPORT. How a lane memory instruction of which nothing is done yet concludes (R182, R190, R194): its lanes end OK and it is in
flight, or a lane is denied and it stays at the head of the queue.
-/
namespace Sys2Proof.Machine

/-! ### What an instruction starts from -/

theorem lanesOf_zero (width : Nat) : lanesOf 0 width = [] := List.filter_eq_nil_iff.mpr fun l _ => by simp

/-- The part as the instruction finds it: the uncertain masks alone are others (R34). -/
theorem State.laneCtx_state {s : State} (hrecent : s.party.recent = []) (b : Block) (op : LaneOp) (f : LaneF) :
    ∃ l, (s.laneCtx b op f).s = s.loosen l ∧ (s.laneCtx b op f).p = (s.loosen l).party := by
  have hp : s.party.awaitFlags f = { s.party with looseMasks := (s.party.awaitFlags f).looseMasks } := by
    simp only [Party.awaitFlags, hrecent, List.map_nil]
  refine ⟨(s.party.awaitFlags f).looseMasks, ?_, hp⟩
  show { s with party := s.party.awaitFlags f } = _
  rw [hp]
  rfl

/-- No lane has done anything. -/
def LaneCtx.fresh (c : LaneCtx) : LaneAcc :=
  { s := c.s, entries := [], ends := [], denied := [], remotes := [], anyRemote := false }

section
variable {c : LaneCtx} (hredo : c.p.redo = none) (hpart : c.p.part = none)
include hredo hpart

theorem LaneCtx.before_of_fresh : c.before = none := by simp [LaneCtx.before, Party.mid, hredo, hpart]

omit hredo in
theorem LaneCtx.start_of_fresh : c.start = c.fresh := by simp [LaneCtx.start, LaneCtx.part, LaneCtx.fresh, hpart]

omit hredo in
theorem LaneCtx.left_of_fresh : c.left = lanesOf c.active c.p.width := by simp [LaneCtx.left, LaneCtx.part, hpart]

omit hredo in
theorem LaneCtx.halves_of_fresh : c.part.halves = [] := by simp [LaneCtx.part, hpart]

end

/-! ### What it puts in flight -/

/-- The instruction as it is in flight when none of its lanes waits for another part. -/
def LaneCtx.issued (c : LaneCtx) (acc : LaneAcc) : InFlight :=
  { op := c.op, f := c.f, order := c.b.order, boff := c.p.laneCtr, lrun := c.b.lrun, ends := inLaneOrder acc.ends
    deadline := c.deadline, anyRemote := acc.anyRemote, late := 0, remotes := [], issuedAt := c.s.lantern.toNat
    denied := acc.denied, lsWritten := [] }

/-- The party once the registers are written and the set-flag counts the instruction. -/
def LaneCtx.written (c : LaneCtx) (acc : LaneAcc) : Party :=
  ({ ({ c with p := acc.s.party }.write { entries := acc.entries, mask := none } none) with part := none }).raiseCount c.f.set

/-- Atomics let the SEMACQ waiters look at the word after them (R187). -/
def LaneCtx.retested (c : LaneCtx) (t : State) : State :=
  if c.op = .atom ∨ c.op = .ared ∨ c.op = .acas then t.retestAll else t

theorem LaneCtx.conclude_of_fresh {c : LaneCtx} (hredo : c.p.redo = none) (hpart : c.p.part = none) {acc : LaneAcc}
    (hremotes : acc.remotes = []) : c.conclude acc = .next (c.retested { acc.s with
      party := ((c.written acc).settleHead (c.issued acc) c.effective 0).pruneRecent }) := by
  unfold LaneCtx.conclude
  simp only [hredo, LaneCtx.before_of_fresh hredo hpart, hremotes, lanesOf_zero, List.map_nil, List.nil_append, Option.any_none,
    Bool.or_false, Option.isSome_none, Bool.false_eq_true, if_false, List.isEmpty_nil, if_true]
  rfl

theorem Party.raiseCount_eq (p : Party) (set : BitVec 4) : p.raiseCount set = { p with flags := (p.raiseCount set).flags } := by
  unfold Party.raiseCount
  split <;> rfl

theorem Party.raiseCount_flags {p q : Party} (h : p.flags = q.flags) (set : BitVec 4) :
    (p.raiseCount set).flags = (q.raiseCount set).flags := by
  unfold Party.raiseCount
  split
  · simp only [h]
  · exact h

theorem Party.putRegs_nil (p : Party) : (p.putRegs []).regs = p.regs := by
  unfold Party.putRegs
  cases p.regs <;> rfl

/-- The write changes registers and flags, and of what readers wait for. -/
theorem LaneCtx.written_eq (c : LaneCtx) (acc : LaneAcc) : c.written acc = { acc.s.party with
    regs := (acc.s.party.putRegs (({ c with p := acc.s.party }).settleWrites acc.entries)).regs
    flags := (acc.s.party.raiseCount c.f.set).flags, part := none
    looseMasks := (c.written acc).looseMasks, recent := (c.written acc).recent } := by
  have hwrite := LaneCtx.write_eq { c with p := acc.s.party } { entries := acc.entries, mask := none } none
  have hraised := Party.raiseCount_eq
    { ({ c with p := acc.s.party }.write { entries := acc.entries, mask := none } none) with part := none } c.f.set
  have hflags : (({ c with p := acc.s.party } : LaneCtx).write { entries := acc.entries, mask := none } none).flags =
      acc.s.party.flags := by rw [hwrite]
  rw [Party.raiseCount_flags (q := acc.s.party) (by exact hflags)] at hraised
  rw [show c.written acc = _ from hraised]
  generalize LaneCtx.write _ _ none = w at hwrite
  conv_lhs => rw [hwrite]
  rfl

/-- The trap of one denied lane is that of its cause. -/
theorem laneTrap_singleton (lrun : Word) (boff lane : Nat) (done : Mask) (d : Deny) (addr : Word) :
    laneTrap lrun boff done [(lane, d, addr)] = some { (Trap.scalar d.cause lrun 0).denied d addr with
      src := 1, boff := boff, done := done, causes := causeVector [(lane, d, addr)], lane := true } := by
  have hreported : reported [(lane, d, addr)] = some (lane, d, addr) := by simp [reported, lowestLane]
  have hfirst (P : Nat × Deny × Word → Bool) :
      (lowestLane ([(lane, d, addr)].filter P)).getD (lane, d, addr) = (lane, d, addr) := by
    rw [List.filter_cons]
    split <;> rfl
  rw [laneTrap, hreported, Option.map_some]
  simp only [hfirst]
  rfl

/-- A denied lane keeps the instruction at the head of the queue. -/
theorem Party.settleHead_of_denied (p : Party) {i : InFlight} {t : Trap} (mask : Mask)
    (h : laneTrap i.lrun i.boff (doneLanes i.ends ||| 0) i.denied = some t) :
    ∃ head, p.settleHead i mask 0 = { p with pendingLane := some t, redo := none, headOp := head } := by
  unfold Party.settleHead
  rw [h]
  exact ⟨_, rfl⟩

theorem Party.settleHead_of_granted (p : Party) {i : InFlight} (h : i.denied = []) (mask : Mask) :
    p.settleHead i mask 0 = { p.popHead with inflight := p.inflight ++ [i], redo := none, headOp := none } := by
  unfold Party.settleHead
  rw [h]
  rfl

/-- What a party is after its instruction issued with all lanes ended: as it was, but for the queue, what is in flight, the
set-flag and the registers. -/
structure Party.InFlightAfter (p q : Party) (i : InFlight) (b : Block) (set : BitVec 4) (regs : Table (BitVec 32)) : Prop where
  inflight : q.inflight = p.inflight ++ [i]
  queue : q.queue.length + (if p.laneCtr + 1 < b.len then 0 else 1) = p.queue.length
  flags : q.flags = (p.raiseCount set).flags
  masks : q.p = p.p
  scalars : q.s = p.s
  ends : q.ls = p.ls ∧ q.st = p.st
  pc : q.pc = p.pc
  regs : q.regs = regs
  lanes : q.fresh = p.fresh ∧ q.regTag = p.regTag
  place : q.first = p.first ∧ q.b = p.b
  wait : q.wait = p.wait

theorem Party.popHead_length {p : Party} {b : Block} {rest : List Block} (h : p.queue = b :: rest) :
    p.popHead.queue.length + (if p.laneCtr + 1 < b.len then 0 else 1) = p.queue.length := by
  have hpop := congrArg Prod.fst (Party.popHead_of_queue h)
  dsimp only at hpop
  rw [hpop, h]
  split <;> rfl

section
variable {c : LaneCtx} (hredo : c.p.redo = none) (hpart : c.p.part = none) {acc : LaneAcc} (hremotes : acc.remotes = [])
include hredo hpart hremotes

/-- With every lane ended OK the instruction is in flight. -/
theorem LaneCtx.conclude_granted (hdenied : acc.denied = []) {b : Block} {rest : List Block} (hqueue : acc.s.party.queue = b :: rest) :
    ∃ q, c.conclude acc = .next (c.retested { acc.s with party := q }) ∧
      acc.s.party.InFlightAfter q (c.issued acc) b c.f.set
        (acc.s.party.putRegs (({ c with p := acc.s.party }).settleWrites acc.entries)).regs := by
  refine ⟨_, LaneCtx.conclude_of_fresh hredo hpart hremotes, ?_⟩
  rw [Party.settleHead_of_granted _ hdenied, Party.popHead_eq]
  have hpop : (c.written acc).popHead.queue.length + (if acc.s.party.laneCtr + 1 < b.len then 0 else 1) =
      acc.s.party.queue.length := by
    have h := Party.popHead_length (p := c.written acc) (b := b) (rest := rest) (by rw [LaneCtx.written_eq]; exact hqueue)
    rw [LaneCtx.written_eq] at h ⊢
    exact h
  rw [LaneCtx.written_eq] at hpop ⊢
  exact ⟨rfl, hpop, rfl, rfl, rfl, ⟨rfl, rfl⟩, rfl, rfl, ⟨rfl, rfl⟩, ⟨rfl, rfl⟩, rfl⟩

/-- With one lane denied, and no other, it stays at the head of the queue with the lane's cause pending. -/
theorem LaneCtx.conclude_denied (hatomic : c.retested = id) (hentries : acc.entries = []) {lane : Nat} {d : Deny} {addr : Word}
    {e : LaneEnd} (hends : acc.ends = [(lane, e)]) (he : e ≠ .ok ∧ e ≠ .timeout) (hdenied : acc.denied = [(lane, d, addr)]) :
    ∃ q t, c.conclude acc = .next { acc.s with party := q } ∧ q.pendingLane = some t ∧ t.cause = d.cause ∧ t.src = 1 ∧
      t.addr = addr ∧ t.pc = c.b.lrun ∧ t.boff = c.p.laneCtr ∧ t.done = 0 ∧ q.queue = acc.s.party.queue ∧
      q.inflight = acc.s.party.inflight ∧ q.regs = acc.s.party.regs := by
  have hdone : doneLanes (c.issued acc).ends ||| 0 = 0 := by
    rw [show (c.issued acc).ends = inLaneOrder acc.ends from rfl, hends]
    simp [inLaneOrder, insertLane, doneLanes, he, maskOf]
  obtain ⟨head, hsettle⟩ := Party.settleHead_of_denied (c.written acc) (i := c.issued acc) c.effective
    ((congrArg₂ (laneTrap c.b.lrun c.p.laneCtr) hdone hdenied).trans (laneTrap_singleton ..))
  have hconclude := LaneCtx.conclude_of_fresh hredo hpart hremotes
  have hregs : (c.written acc).regs = acc.s.party.regs := by
    rw [LaneCtx.written_eq, hentries, LaneCtx.settleWrites]
    simp [Party.putRegs_nil]
  rw [hatomic, hsettle] at hconclude
  exact ⟨_, _, hconclude, rfl, rfl, rfl, rfl, rfl, rfl, rfl, by rw [LaneCtx.written_eq]; rfl, by rw [LaneCtx.written_eq]; rfl, hregs⟩

end

end Sys2Proof.Machine
end

section
/-!
SUPPORT. What the accesses of the lanes do where they are granted (R147, R179, R180, R185), and what an instruction comes to whose
lanes are all granted (R182, R194).
-/
namespace Sys2Proof.Machine

theorem runLaneMemory_of_issues {s : State} {b : Block} {op : LaneOp} {f : LaneF} (h : s.laneIssues b op f)
    (hpart : s.party.part = none) (body : LaneCtx → LaneAcc → Nat → LaneAcc) :
    runLaneMemory s op f body = (s.laneCtx b op f).conclude
      ((lanesOf (s.laneCtx b op f).active (s.laneCtx b op f).p.width).foldl (body (s.laneCtx b op f)) (s.laneCtx b op f).fresh) := by
  have hpart : (s.laneCtx b op f).p.part = none := hpart
  obtain ⟨hcheck, hwindow⟩ := State.laneIssues.passes h
  obtain ⟨⟨rest, hqueue⟩, hfrozen, -, -, hflags⟩ := h
  rw [← LaneCtx.start_of_fresh hpart, ← LaneCtx.left_of_fresh hpart]
  simp only [runLaneMemory, hqueue, hfrozen, hcheck, hwindow, hflags]
  rfl

/-! ### One access (R150, R183, R196) -/

theorem State.noteMiss_of_noCopies {s : State} (h : s.copies = []) (addr : Word) : s.noteMiss addr = s := by
  unfold State.noteMiss
  rw [h]
  rfl

section
variable {c : LaneCtx} {acc : LaneAcc} (hcopies : acc.s.copies = []) {lane : Nat} {addr : Word} {n : Nat} {need : Rights}
include hcopies

/-- An access of this part that is granted acts, and the lane ends OK. -/
theorem LaneAcc.touch_granted {p : Place} (haccess : acc.s.access (c.accessor lane) addr n n need = .ok p)
    (hhere : acc.s.remote p = false) (bounded atomic : Bool) (act : State → Place → State × List (BitVec 32)) :
    acc.touch c lane addr n need bounded atomic act = { acc with s := (act acc.s p).1 }.ok c lane (act acc.s p).2 := by
  unfold LaneAcc.touch
  simp only [State.noteMiss_of_noCopies hcopies, ite_self, State.lanePlace, haccess, hhere, Bool.not_false, if_true]

/-- An access whose place is denied ends its lane with the cause. -/
theorem LaneAcc.touch_denied {d : Deny} (hplace : acc.s.lanePlace (c.accessor lane) addr n need = .error d)
    (bounded atomic : Bool) (act : State → Place → State × List (BitVec 32)) :
    acc.touch c lane addr n need bounded atomic act =
      { acc with s := acc.s.sawPoison (c.accessor lane) d addr }.fault lane d addr := by
  unfold LaneAcc.touch
  simp only [State.noteMiss_of_noCopies hcopies, ite_self, hplace]

end

/-! ### A denied write (R183) -/

theorem State.resolve_first {s : State} {ac : Accessor} {a n : Nat} (hn : 0 < n) {t : Target} (h : s.resolve ac a n = .ok t) :
    s.resolve ac a 1 = .ok t := by
  unfold State.resolve at h ⊢
  generalize windowOf a = window, ac.launch = launch at h ⊢
  cases window with
  | global => exact h
  | local_ | cluster | private_ =>
    cases launch with
    | none => cases h
    | some l =>
      dsimp only at h ⊢
      split at h
      · cases h
      · rw [if_neg (by omega)]
        exact h

/-- Where the place of some bytes is found, so is that of the first. -/
theorem State.windowPlace_first {s : State} {ac : Accessor} {a n : Nat} {need : Rights} {p : Place} (hn : 0 < n)
    (h : s.windowPlace ac a n need = .ok p) : ∃ q, s.windowPlace ac a 1 need = .ok q := by
  unfold State.windowPlace at h ⊢
  cases hresolve : s.resolve ac a n with
  | error d => rw [hresolve] at h; cases h
  | ok t =>
    rw [hresolve] at h
    rw [State.resolve_first hn hresolve]
    cases t with
    | bank q => exact ⟨q, rfl⟩
    | memory va =>
      have hfirst : s.elementPlace ac.space va 1 need = s.globalPlace ac.space va need := by
        unfold State.elementPlace
        exact if_pos (.inl (Nat.le_refl 1))
      dsimp only at h ⊢
      rw [hfirst]
      cases hplace : s.globalPlace ac.space va need with
      | ok q => exact ⟨q, rfl⟩
      | error d =>
        exfalso
        by_cases hpage : n ≤ 1 ∨ va / 65536 = (va + n - 1) / 65536
        · rw [State.elementPlace, if_pos hpage, hplace] at h
          cases h
        · rw [State.elementPlace_two_pages (by omega) (by omega), hplace] at h
          cases hlast : s.globalPlace ac.space (va + n - 1) need <;> rw [hlast] at h <;> cases h

theorem State.lanePlace_of_denied_write {s : State} {ac : Accessor} {addr : Word} {n : Nat} (hn : 0 < n) {d : Deny}
    (h : s.access ac addr n n .write = .error d) : s.lanePlace ac addr n .write = .error d := by
  have hplace : ∀ p, s.windowPlace ac addr.toNat n .write = .ok p → d.cause ≠ .poison := by
    intro p hp hcause
    obtain ⟨q, hq⟩ := State.windowPlace_first hn hp
    unfold State.access at h
    dsimp only at h
    generalize (decide (2 ^ 64 ≤ addr.toNat + n - 1) || windowOf addr.toNat != windowOf (addr.toNat + n - 1)) = split at h
    cases split with
    | true =>
      simp only [hq, if_true] at h
      split at h <;> cases h <;> cases hcause
    | false =>
      simp only [hp, Bool.false_and, Bool.false_eq_true, if_false] at h
      split at h
      · cases h
        cases hcause
      · cases h
  unfold State.lanePlace
  rw [h]
  dsimp only
  split
  · exact absurd ‹_› (hplace _ ‹_›)
  · rfl

/-! ### LD (R179) -/

/-- A lane of LD reads a value, zero where its index lies outside its record. -/
def LaneCtx.Loads (c : LaneCtx) (lane v : Nat) : Prop :=
  (c.element lane c.f.a c.f.b c.theRecord = .outside ∧ v = 0) ∨
  ∃ addr rec p, c.element lane c.f.a c.f.b c.theRecord = .at_ addr rec ∧
    c.s.access (c.accessor lane) addr (memoryBytes c.f.ty rec) (memoryBytes c.f.ty rec) .read = .ok p ∧ c.s.remote p = false ∧
    v = loaded c.f.ty rec (c.s.valueAt p (memoryBytes c.f.ty rec))

section
variable {c : LaneCtx} (hpart : c.p.part = none) (hcopies : c.s.copies = [])
include hpart hcopies

theorem LaneCtx.ldLane_of_loads {acc : LaneAcc} (hreads : AfterReads c.s acc.s) {lane v : Nat} (h : c.Loads lane v) :
    ∃ t, AfterReads c.s t ∧ c.ldLane acc lane = { acc with s := t }.ok c lane (placeValue c.f.ty v) := by
  obtain ⟨houtside, rfl⟩ | ⟨addr, rec, p, helement, haccess, hhere, rfl⟩ := h
  · exact ⟨acc.s, hreads, by rw [LaneCtx.ldLane, houtside]⟩
  · refine ⟨acc.s.partyRead p (memoryBytes c.f.ty rec), hreads.trans (State.partyRead_afterReads ..), ?_⟩
    rw [LaneCtx.ldLane, helement]
    dsimp only
    rw [LaneAcc.ld, LaneCtx.halves_of_fresh hpart]
    obtain ⟨n, lines, hn, hs⟩ := hreads
    have haccess : acc.s.access (c.accessor lane) addr (memoryBytes c.f.ty rec) (memoryBytes c.f.ty rec) .read = .ok p := by
      rw [hs]
      exact haccess
    have hhere : acc.s.remote p = false := by rw [hs]; exact hhere
    have hvalue : acc.s.valueAt p (memoryBytes c.f.ty rec) = c.s.valueAt p (memoryBytes c.f.ty rec) := by rw [hs]; rfl
    refine (LaneAcc.touch_granted (by rw [hs]; exact hcopies) haccess hhere ..).trans ?_
    rw [hvalue]

theorem LaneCtx.foldl_ldLane {v : Nat → Nat} (lanes : List Nat) (h : ∀ l ∈ lanes, c.Loads l (v l)) {acc : LaneAcc}
    (hreads : AfterReads c.s acc.s) : ∃ t, AfterReads c.s t ∧ lanes.foldl c.ldLane acc = { acc with
      s := t, ends := acc.ends ++ lanes.map fun l => (l, LaneEnd.ok)
      entries := acc.entries ++ lanes.flatMap fun l =>
        entriesOf (c.p.first + l) (c.p.b + c.f.dst.toNat) (placeValue c.f.ty (v l)) } := by
  induction lanes generalizing acc with
  | nil => exact ⟨acc.s, hreads, by simp⟩
  | cons l lanes ih =>
    obtain ⟨t, ht, hlane⟩ := LaneCtx.ldLane_of_loads hpart hcopies hreads (h l (List.mem_cons_self ..))
    rw [List.foldl_cons, hlane]
    obtain ⟨u, hu, hlanes⟩ := ih (fun k hk => h k (List.mem_cons_of_mem _ hk)) (acc := { acc with s := t }.ok c l _) ht
    refine ⟨u, hu, hlanes.trans ?_⟩
    simp only [LaneAcc.ok, List.map_cons, List.flatMap_cons, List.append_assoc, List.singleton_append]

end

end Sys2Proof.Machine
end

section
/-!
SUPPORT. A lane memory instruction in flight with its lanes ended OK (R182, R194), and the registers that its lanes hold (R68).
-/
namespace Sys2Proof.Machine

/-- The lane is active for the instruction at the head of the queue. -/
def State.activeLane (s : State) (b : Block) (op : LaneOp) (f : LaneF) (lane : Nat) : Prop :=
  lane < s.party.width ∧ (s.laneCtx b op f).active.getLsbD lane = true

theorem State.mem_activeLanes {s : State} {b : Block} {op : LaneOp} {f : LaneF} {lane : Nat} :
    lane ∈ lanesOf (s.laneCtx b op f).active (s.laneCtx b op f).p.width ↔ s.activeLane b op f lane := mem_lanesOf ..

/-- The instruction of a state `s` is in flight in a state `t` with its lanes ended OK; what else it did stands in `u`. -/
def State.PutsInFlight (s : State) (b : Block) (op : LaneOp) (f : LaneF) (t u : State) : Prop :=
  ∃ i : InFlight, t = { u with party := t.party } ∧ t.party.inflight = u.party.inflight ++ [i] ∧ i.op = op ∧ i.f = f ∧
    (∀ l, (l, LaneEnd.ok) ∈ i.ends ↔ s.activeLane b op f l) ∧ (∀ x ∈ i.ends, x.2 = .ok) ∧ i.remotes = [] ∧
    t.party.queue.length + (if s.party.laneCtr + 1 < b.len then 0 else 1) = s.party.queue.length ∧
    t.party.flags = (u.party.raiseCount f.set).flags ∧ t.party.p = u.party.p ∧ t.party.s = u.party.s ∧
    t.party.ls = u.party.ls ∧ t.party.st = u.party.st ∧ t.party.pc = u.party.pc

/-- What the party of a state `s` keeps, and what it holds in its lane registers, once some entries are written. -/
structure Party.Writes (p q : Party) (entries : Table (BitVec 32)) : Prop where
  first : q.first = p.first
  base : q.b = p.b
  regs : q.regs = (p.putRegs entries).regs
  fresh : q.fresh = p.fresh
  regTag : q.regTag = p.regTag

theorem Party.Writes.laneReg {p q : Party} {entries : Table (BitVec 32)} (h : p.Writes q entries) (key : Nat) :
    q.laneReg key = (p.putRegs entries).laneReg key := by
  have hfresh : (p.putRegs entries).fresh = p.fresh := rfl
  have hregTag : (p.putRegs entries).regTag = p.regTag := rfl
  unfold Party.laneReg
  rw [h.regs, h.fresh, h.regTag, hfresh, hregTag]

section
variable {s : State} {b : Block} {op : LaneOp} {f : LaneF} (hissues : s.laneIssues b op f) (hrecent : s.party.recent = [])
  (hredo : s.party.redo = none) (hpart : s.party.part = none)
include hissues hrecent hredo hpart

/-- An instruction whose lanes have all ended OK is in flight. -/
theorem State.conclude_inFlight {acc : LaneAcc} {u : State} (hstate : acc.s = { u with party := acc.s.party })
    (hparty : ∃ n w l, acc.s.party = { s.party with pt := n, wait := w, looseMasks := l }) (hu : SameParty s u)
    (hends : acc.ends = (lanesOf (s.laneCtx b op f).active (s.laneCtx b op f).p.width).map fun l => (l, LaneEnd.ok))
    (hdenied : acc.denied = []) (hremotes : acc.remotes = []) :
    ∃ q, (s.laneCtx b op f).conclude acc = .next ((s.laneCtx b op f).retested { u with party := q }) ∧
      s.PutsInFlight b op f { u with party := q } u ∧ s.party.Writes q acc.entries ∧ q.wait = acc.s.party.wait := by
  obtain ⟨⟨rest, hqueue⟩, -⟩ := hissues
  obtain ⟨n, w, l, hparty⟩ := hparty
  obtain ⟨m, x, hu⟩ := hu
  obtain ⟨q, hconclude, hq⟩ := LaneCtx.conclude_granted (c := s.laneCtx b op f) hredo hpart hremotes hdenied (b := b) (rest := rest)
    (by rw [hparty]; exact hqueue)
  rw [LaneCtx.settleWrites_of_recent (by rw [hparty]; exact hrecent)] at hq
  refine ⟨q, hconclude.trans (by rw [hstate]), ⟨(s.laneCtx b op f).issued acc, rfl, ?_, rfl, rfl, fun lane => ?_, fun e he => ?_, rfl,
    ?_, ?_, ?_, ?_, ?_, ?_, ?_⟩, ?_, hq.wait⟩
  · rw [hq.inflight, hparty, hu]
  · rw [← State.mem_activeLanes, show ((s.laneCtx b op f).issued acc).ends = inLaneOrder acc.ends from rfl,
      (inLaneOrder_perm _).mem_iff, hends]
    simp
  · have he : e ∈ acc.ends := (inLaneOrder_perm _).mem_iff.mp he
    rw [hends] at he
    obtain ⟨lane, -, rfl⟩ := List.mem_map.mp he
    rfl
  · have hlength := hq.queue
    rw [hparty] at hlength
    exact hlength
  · exact hq.flags.trans (Party.raiseCount_flags (by rw [hparty, hu]) _)
  · rw [hq.masks, hparty, hu]
  · rw [hq.scalars, hparty, hu]
  · rw [hq.ends.1, hparty, hu]
  · rw [hq.ends.2, hparty, hu]
  · rw [hq.pc, hparty, hu]
  · exact ⟨by rw [hq.place.1, hparty], by rw [hq.place.2, hparty], by rw [hq.regs, hparty]; rfl, by rw [hq.lanes.1, hparty],
      by rw [hq.lanes.2, hparty]⟩

/-- The same of an instruction with one active lane. -/
theorem State.conclude_one_lane {lane : Nat} (hone : lanesOf (s.laneCtx b op f).active (s.laneCtx b op f).p.width = [lane])
    {u : State} (hu : SameParty s u) (l : List LooseMask) (ws : List (BitVec 32)) :
    let c := s.laneCtx b op f
    ∃ q, c.conclude ({ c.fresh with s := u.loosen l }.ok c lane ws) = .next (c.retested { u with party := q }) ∧
      s.PutsInFlight b op f { u with party := q } u ∧
      s.party.Writes q (entriesOf (s.party.first + lane) (s.party.b + f.dst.toNat) ws) ∧ q.wait = u.party.wait := by
  intro c
  have hparty : ∃ n w m, (u.loosen l).party = { s.party with pt := n, wait := w, looseMasks := m } := by
    obtain ⟨n, w, hu⟩ := hu
    exact ⟨n, w, l, by rw [State.loosen, hu]⟩
  have hstate : u.loosen l = { u with party := (u.loosen l).party } := rfl
  exact State.conclude_inFlight hissues hrecent hredo hpart (acc := { c.fresh with s := u.loosen l }.ok c lane ws) hstate hparty hu
    (by rw [hone]; rfl) rfl rfl

end

/-- A mask with one lane names that lane. -/
theorem lanesOf_singleton {m : Mask} {width lane : Nat} (h : ∀ l, (l < width ∧ m.getLsbD l = true) ↔ l = lane) :
    lanesOf m width = [lane] := by
  have hnodup : (lanesOf m width).Nodup := (lanesOf_ascends m width).imp Nat.ne_of_lt
  refine List.perm_singleton.mp ((List.perm_ext_iff_of_nodup hnodup (List.nodup_singleton lane)).mpr fun l => ?_)
  rw [mem_lanesOf, h, List.mem_singleton]

/-! ### The registers that the lanes hold (R68, R121) -/

section
variable {c : LaneCtx} {t : Ty} (g : Nat → Nat) {p q : Party} (hwrites : p.Writes q (c.toLanes t g).entries)
include hwrites

/-- An active lane holds its value. -/
theorem Party.Writes.laneReg_active (hfits : c.p.b + c.f.dst.toNat + t.regs ≤ 1024) {lane : Nat} (hlane : lane < c.p.width)
    (hactive : c.active.getLsbD lane = true) {k : Nat} (hk : k < (placeValue t (g lane)).length) :
    q.laneReg (regKey (c.p.first + lane) (c.p.b + (c.f.dst.toNat + k))) = ((placeValue t (g lane))[k]?).getD 0 := by
  have hmem : (regKey (c.p.first + lane) (c.p.b + c.f.dst.toNat + k), (placeValue t (g lane))[k]) ∈ (c.toLanes t g).entries :=
    List.mem_flatMap.mpr ⟨lane, (mem_lanesOf ..).mpr ⟨hlane, hactive⟩, mem_entriesOf hk⟩
  rw [hwrites.laneReg, ← Nat.add_assoc, List.getElem?_eq_getElem hk]
  exact Party.laneReg_putRegs_of_mem (LaneCtx.toLanes_rise hfits g) hmem

/-- Every register that no active lane writes keeps its value. -/
theorem Party.Writes.laneReg_kept {key : Nat} (hkey : ∀ l k, l < c.p.width ∧ c.active.getLsbD l = true → k < t.regs →
    key ≠ regKey (c.p.first + l) (c.p.b + (c.f.dst.toNat + k))) : q.laneReg key = p.laneReg key := by
  rw [hwrites.laneReg]
  refine Party.laneReg_putRegs fun x hx hxkey => ?_
  obtain ⟨l, k, hl, hactive, hk, hname⟩ := c.toLanes_names t g x hx
  exact hkey l k ⟨hl, hactive⟩ hk (hxkey.symm.trans hname)

end

end Sys2Proof.Machine
end

section
/-!
SUPPORT. The new values of the atomics (R87, R123, R185) as the statement on them has it.
-/
namespace Sys2Proof.Machine

/-! ### Values in memory -/

theorem ofBytes_lt (bs : List Byte) : ofBytes bs < 2 ^ (8 * bs.length) := by
  induction bs with
  | nil => exact Nat.one_pos
  | cons x bs ih =>
    have hx : x.toNat < 2 ^ 8 := x.isLt
    have hpow : 2 ^ (8 * (bs.length + 1)) = 256 * 2 ^ (8 * bs.length) := by rw [Nat.mul_add, pow_add, Nat.mul_comm]; rfl
    rw [ofBytes, List.length_cons, hpow]
    omega

theorem State.readPlace_length (s : State) (p : Place) (n : Nat) : (s.readPlace p n).length = n := by
  cases p with
  | phys pa key home =>
    show (s.readPhys pa n key).length = n
    unfold State.readPhys
    split
    · exact readBytes_length ..
    · rw [List.length_map, length_upTo]
  | spad l g off =>
    unfold State.readPlace
    dsimp only
    split
    · exact readBytes_length ..
    · exact List.length_replicate ..

theorem State.valueAt_lt (s : State) (p : Place) (t : Ty) : s.valueAt p t.bytes < 2 ^ t.width := by
  have h := ofBytes_lt (s.readPlace p t.bytes)
  rwa [State.readPlace_length, Nat.mul_comm] at h

/-! ### Integers -/

theorem atomicValue_of_combined {op : Nat} (h : op ≠ 6) (t : Ty) (x y : Nat) : atomicValue t op x y = combine t .rn op x y := if_neg h

/-- An integer as the statement reads it. -/
def numberOf (t : Ty) (v : Nat) : Int := if t = .i32 ∨ t = .i64 then (BitVec.ofNat t.width v).toInt else v

theorem intOf_eq_number {t : Ty} (hZ : t.isZ = true) {v : Nat} (hv : v < 2 ^ t.width) : intOf t v = numberOf t v := by
  have hsigned : tySigned t = true ↔ t = .i32 ∨ t = .i64 :=
    Ty.isZ_cases hZ (P := fun t => tySigned t = true ↔ t = .i32 ∨ t = .i64) (by decide) (by decide) (by decide) (by decide)
  rw [intOf_eq hv, numberOf]
  exact if_congr hsigned rfl rfl

section
variable {t : Ty} {x y : Nat} (hZ : t.isZ = true)
include hZ

theorem combine_sum : combine t .rn 0 x y = (x + y) % 2 ^ t.width := by
  unfold combine
  exact if_neg (by simp [Ty.not_isF_of_isZ hZ])

variable (hx : x < 2 ^ t.width) (hy : y < 2 ^ t.width)
include hx hy

theorem combine_least : combine t .rn 1 x y = if numberOf t x ≤ numberOf t y then x else y := by
  have hF := Ty.not_isF_of_isZ hZ
  unfold combine
  rw [if_neg (by simp [hF]), ← intOf_eq_number hZ hx, ← intOf_eq_number hZ hy]
  exact if_neg (by simp [hF])

theorem combine_greatest : combine t .rn 2 x y = if numberOf t x ≤ numberOf t y then y else x := by
  have hF := Ty.not_isF_of_isZ hZ
  unfold combine
  rw [if_neg (by simp [hF]), ← intOf_eq_number hZ hx, ← intOf_eq_number hZ hy]
  exact if_neg (by simp [hF])

end

theorem combine_bitwise {t : Ty} (hL : t.isL = true) {op : Nat} (hlow : 3 ≤ op) (hhigh : op ≤ 5) (x y : Nat) :
    combine t .rn op x y = if op = 3 then x &&& y else if op = 4 then x ||| y else x ^^^ y := by
  have hF : t.isF = false := by
    cases t with
    | f16 | bf16 | f32 | f64 => cases hL
    | _ => rfl
  unfold combine
  rw [if_neg (by simp [hF])]
  interval_cases op <;> rfl

/-! ### The lesser and the greater number (R87) -/

/-- A pattern is a NaN, and its place among the numbers, as the statement reads them. -/
def namesNaN (t : Ty) (v : Nat) : Bool := decide (t.fmt.infinity < v % 2 ^ (t.width - 1))

def placeOf (t : Ty) (v : Nat) : Int := if v < 2 ^ (t.width - 1) then v else -((v % 2 ^ (t.width - 1) : Nat) : Int) - 1

/-- The number picked, the lesser for `op` 1 and else the greater; a NaN only of two NaNs. -/
def bestOf (t : Ty) (op x y : Nat) : Nat :=
  if namesNaN t x && namesNaN t y then t.fmt.defaultNaN else if namesNaN t x then y else if namesNaN t y then x
  else if (placeOf t x ≤ placeOf t y) ↔ op = 1 then x else y

section
variable {t : Ty} (hF : t.isF = true)
include hF

theorem Ty.sign_of_isF : t.width - 1 = t.fmt.frac + t.fmt.exp := by
  rw [Ty.width_of_isF hF, Fmt.bits, Nat.add_sub_cancel]

theorem namesNaN_eq (v : Nat) : namesNaN t v = t.fmt.isNaN v := by
  rw [namesNaN, Ty.sign_of_isF hF]
  rfl

theorem placeOf_eq {v : Nat} (hv : v < 2 ^ t.width) : placeOf t v = t.fmt.key v := by
  rw [placeOf, Ty.sign_of_isF hF, Fmt.key]
  rw [Ty.width_of_isF hF] at hv
  rcases Nat.lt_or_ge v (2 ^ (t.fmt.frac + t.fmt.exp)) with h | h
  · obtain ⟨hmag, hneg⟩ := Fmt.magnitude_of_lt h
    simp [hmag, hneg, h]
  · obtain ⟨-, hneg⟩ := Fmt.magnitude_of_ge h hv
    rw [if_neg (Nat.not_lt.mpr h), hneg]
    rfl

theorem combine_add (x y : Nat) : combine t .rn 0 x y = t.fmt.add .rn x y := by
  unfold combine
  exact if_pos hF

theorem combine_number {op : Nat} (hop : op = 1 ∨ op = 2) {x y : Nat} (hx : x < 2 ^ t.width) (hy : y < 2 ^ t.width) :
    combine t .rn op x y = bestOf t op x y := by
  unfold combine
  rw [if_pos hF, bestOf, namesNaN_eq hF, namesNaN_eq hF, placeOf_eq hF hx, placeOf_eq hF hy]
  rcases hop with rfl | rfl
  · simp only [iff_true]
    rfl
  · simp only [OfNat.ofNat_ne_one, iff_false, ite_not]
    rfl

end

end Sys2Proof.Machine
end

section
/-!
SUPPORT. Where no SEMACQ waits, none waits after a read, a write and the looks of the watchers (R207, R209): the look of the SEMACQ
waiters that follows an atomic (R187) finds nobody.
-/
namespace Sys2Proof.Machine

/-- No party waits at a SEMACQ. -/
def State.NoSemacq (s : State) : Prop := ∀ q ∈ s.parties, ∀ w, q.wait = some w → w.kind ≠ .semacq

theorem State.retestAll_of_noSemacq {s : State} (h : s.NoSemacq) : s.retestAll = s := by
  have hnone : s.parties.filter (fun p => p.wait.any fun w => w.kind == .semacq) = [] := by
    refine List.filter_eq_nil_iff.mpr fun q hq hany => ?_
    obtain ⟨w, hw, hkind⟩ := (Option.any_eq_true ..).mp hany
    exact h q hq w hw (beq_iff_eq.mp hkind)
  unfold State.retestAll
  rw [hnone]
  rfl

theorem State.NoSemacq.of_parties {s t : State} (h : s.NoSemacq) (ht : t.parties = s.parties) : t.NoSemacq := by
  unfold State.NoSemacq
  rw [ht]
  exact h

/-- Another party in focus that waits as the one before it did. -/
theorem State.NoSemacq.with_party {s : State} (h : s.NoSemacq) {q : Party} (hq : q.wait = s.party.wait) :
    State.NoSemacq { s with party := q } := by
  intro x hx w hw
  rcases List.mem_cons.mp hx with rfl | hx
  · exact h s.party (List.mem_cons_self ..) w (hq.symm.trans hw)
  · exact h x (List.mem_cons_of_mem _ hx) w hw

theorem State.NoSemacq.putParty {s : State} (h : s.NoSemacq) {q : Party} (hq : ∀ w, q.wait = some w → w.kind ≠ .semacq) :
    (s.putParty q).NoSemacq := by
  intro x hx
  unfold State.putParty at hx
  split at hx
  · rcases List.mem_cons.mp hx with rfl | hx
    · exact hq
    · exact h x (List.mem_cons_of_mem _ hx)
  · rcases List.mem_cons.mp hx with rfl | hx
    · exact h s.party (List.mem_cons_self ..)
    · obtain ⟨y, hy, rfl⟩ := List.mem_map.mp hx
      split
      · exact hq
      · exact h y (List.mem_cons_of_mem _ hy)

theorem State.NoSemacq.watch {s : State} (h : s.NoSemacq) (pid : Nat) : (s.watch pid).NoSemacq := by
  unfold State.watch
  split
  · exact h
  · split
    · exact h
    · split
      · rename_i w hw hwaddr
        split
        · exact h
        · split
          · exact h
          · refine (h.of_parties (State.noteRead_parties ..)).putParty fun x hx => ?_
            have hkind : w.kind = .waddr := by simp at hwaddr; exact hwaddr.1.1.1
            rw [← Option.some.inj hx]
            dsimp only
            rw [hkind]
            exact WaitKind.noConfusion
      · exact h

theorem State.NoSemacq.watchAll {s : State} (h : s.NoSemacq) : s.watchAll.NoSemacq := by
  unfold State.watchAll
  generalize (s.parties.filter Party.watches).map (fun p => p.pid) = ids
  induction ids generalizing s with
  | nil => exact h
  | cons pid ids ih => exact ih (h.watch pid)

theorem State.NoSemacq.partyRead {s : State} (h : s.NoSemacq) (p : Place) (n : Nat) : (s.partyRead p n).NoSemacq :=
  (h.of_parties (State.noteRead_parties ..)).with_party rfl

theorem State.NoSemacq.partyWrite {s : State} (h : s.NoSemacq) (p : Place) (bs : List Byte) : (s.partyWrite p bs).NoSemacq :=
  (h.of_parties (State.writeAs_parties ..)).with_party rfl

end Sys2Proof.Machine
end

section
/-!
SUPPORT. LD, ST and the atomics whose lanes are granted, and a denied lane of ST (R178 to R187), each as one outcome.
-/
namespace Sys2Proof.Machine

/-- A lane holds some words from the destination register of its instruction up. -/
def State.HoldsWords (t : State) (f : LaneF) (lane : Nat) (ws : List (BitVec 32)) : Prop :=
  ∀ k, k < ws.length → t.laneRegister lane (f.dst.toNat + k) = (ws[k]?).getD 0

/-- Of the lane registers only the destinations of the active lanes have other values. -/
def State.KeepsOthers (s : State) (b : Block) (op : LaneOp) (f : LaneF) (t : State) : Prop :=
  ∀ key, (∀ l k, s.activeLane b op f l → k < f.ty.regs →
    key ≠ regKey (s.party.first + l) (s.party.b + (f.dst.toNat + k))) → t.party.laneReg key = s.party.laneReg key

section
variable {s : State} {b : Block} {op : LaneOp} {f : LaneF} {u : State} {q : Party} (g : Nat → Nat)
  (hwrites : s.party.Writes q ((s.laneCtx b op f).toLanes f.ty g).entries)
include hwrites

theorem State.holdsWords_of_writes (hfits : s.party.b + f.dst.toNat + f.ty.regs ≤ 1024) {lane : Nat}
    (hactive : s.activeLane b op f lane) : State.HoldsWords { u with party := q } f lane (placeValue f.ty (g lane)) := by
  intro k hk
  show q.laneReg (regKey (q.first + lane) (q.b + (f.dst.toNat + k))) = _
  rw [hwrites.first, hwrites.base]
  exact hwrites.laneReg_active g hfits hactive.1 hactive.2 hk

theorem State.keepsOthers_of_writes : s.KeepsOthers b op f { u with party := q } := fun _ hkey =>
  hwrites.laneReg_kept g hkey

end

/-- The write of no entries keeps the registers. -/
theorem Party.Writes.regs_of_nil {p q : Party} (h : p.Writes q []) : q.regs = p.regs := h.regs.trans p.putRegs_nil

theorem LaneCtx.retested_of_other {c : LaneCtx} (h : c.op = .ld ∨ c.op = .st) (t : State) : c.retested t = t := by
  unfold LaneCtx.retested
  rcases h with h | h <;> rw [h] <;> rfl

theorem State.sawPoison_afterReads (s : State) (ac : Accessor) (d : Deny) (a : Word) : AfterReads s (s.sawPoison ac d a) := by
  unfold State.sawPoison
  split
  · split
    · exact State.partyRead_afterReads ..
    · exact .refl s
  · exact .refl s

/-- What a lane leaves that is denied before anything else is done. -/
def LaneCtx.oneDenied (c : LaneCtx) (lane : Nat) (d : Deny) (addr : Word) : LaneAcc :=
  { c.fresh with s := c.s.sawPoison (c.accessor lane) d addr }.fault lane d addr

/-- An instruction with one active lane does what that lane does. -/
theorem runLaneMemory_of_one {s : State} {b : Block} {op : LaneOp} {f : LaneF} (hissues : s.laneIssues b op f)
    (hpart : s.party.part = none) {lane : Nat} (honly : ∀ l, s.activeLane b op f l ↔ l = lane)
    (body : LaneCtx → LaneAcc → Nat → LaneAcc) :
    runLaneMemory s op f body = (s.laneCtx b op f).conclude (body (s.laneCtx b op f) (s.laneCtx b op f).fresh lane) := by
  have hone : lanesOf (s.laneCtx b op f).active (s.laneCtx b op f).p.width = [lane] := lanesOf_singleton honly
  rw [runLaneMemory_of_issues hissues hpart, hone]
  rfl

theorem LaneCtx.fresh_loosen {c : LaneCtx} {s : State} {m : List LooseMask} (h : c.s = s.loosen m) :
    c.fresh = { c.fresh with s := s.loosen m } := by
  rw [← h]
  rfl

section
variable {s : State} {b : Block} {f : LaneF} (hrecent : s.party.recent = []) (hredo : s.party.redo = none)
  (hpart : s.party.part = none) (hcopies : s.copies = [])
include hrecent hredo hpart hcopies

/-! ### LD (R179) -/

theorem execLaneLd_settles (hwindow : s.party.b + (s.home s.party).header.window ≤ 1024) (hissues : s.laneIssues b .ld f)
    {v : Nat → Nat} (hloads : ∀ l, s.activeLane b .ld f l → (s.laneCtx b .ld f).Loads l (v l)) :
    ∃ t, exec (.laneLd f) s = .next t ∧ s.PutsInFlight b .ld f t { s with lines := t.lines } ∧ s.KeepsOthers b .ld f t ∧
      ∀ lane, s.activeLane b .ld f lane → t.HoldsWords f lane (placeValue f.ty (v lane)) := by
  obtain ⟨m, hs, -⟩ := s.laneCtx_state hrecent b .ld f
  have hfits : s.party.b + f.dst.toNat + f.ty.regs ≤ 1024 := hissues.dst_fits hwindow rfl
  have hrun : exec (.laneLd f) s = _ := runLaneMemory_of_issues hissues hpart LaneCtx.ldLane
  obtain ⟨t, ⟨n, lines, -, ht⟩, hfold⟩ := LaneCtx.foldl_ldLane (c := s.laneCtx b .ld f) hpart (by rw [hs]; exact hcopies) _
    (fun l hl => hloads l (State.mem_activeLanes.mp hl)) (acc := (s.laneCtx b .ld f).fresh) (.refl _)
  rw [hs] at ht
  rw [hfold] at hrun
  have hparty : ∃ n w l, t.party = { s.party with pt := n, wait := w, looseMasks := l } := ⟨n, s.party.wait, m, by rw [ht]; rfl⟩
  have hstate : t = { ({ s with lines := lines } : State) with party := t.party } := by rw [ht]; rfl
  obtain ⟨q, hconclude, hflight, hwrites, -⟩ := State.conclude_inFlight hissues hrecent hredo hpart
    (acc := { (s.laneCtx b .ld f).fresh with
      s := t, ends := _ ++ _, entries := [] ++ ((s.laneCtx b .ld f).toLanes f.ty v).entries }) hstate hparty (.of_eq rfl)
    (List.nil_append _) rfl rfl
  rw [LaneCtx.retested_of_other (.inl rfl)] at hconclude
  exact ⟨_, hrun.trans hconclude, hflight, State.keepsOthers_of_writes v hwrites,
    fun lane hactive => State.holdsWords_of_writes v hwrites hfits hactive⟩

/-! ### ST (R180) -/

section
variable (hissues : s.laneIssues b .st f) {lane : Nat} (honly : ∀ l, s.activeLane b .st f l ↔ l = lane)
include hissues honly

omit hcopies in
/-- A lane that ended OK with nothing to write. -/
theorem execLaneSt_of_ok {u : State} (hu : SameParty s u) {m : List LooseMask}
    (hlane : (s.laneCtx b .st f).stLane (s.laneCtx b .st f).fresh lane =
      { (s.laneCtx b .st f).fresh with s := u.loosen m }.ok (s.laneCtx b .st f) lane []) :
    ∃ t, exec (.laneSt f) s = .next t ∧ t.party.regs = s.party.regs ∧ s.PutsInFlight b .st f t u := by
  have hrun : exec (.laneSt f) s = _ := runLaneMemory_of_one hissues hpart honly LaneCtx.stLane
  obtain ⟨q, hconclude, hflight, hwrites, -⟩ := State.conclude_one_lane hissues hrecent hredo hpart (lanesOf_singleton honly) hu m []
  rw [hlane, hconclude, LaneCtx.retested_of_other (.inr rfl)] at hrun
  exact ⟨_, hrun, hwrites.regs_of_nil, hflight⟩

omit hcopies in
theorem execLaneSt_outside
    (helement : (s.laneCtx b .st f).element lane f.dst f.a (s.laneCtx b .st f).theRecord = .outside) :
    ∃ t, exec (.laneSt f) s = .next t ∧ t.party.regs = s.party.regs ∧ s.PutsInFlight b .st f t s := by
  obtain ⟨m, hs, -⟩ := s.laneCtx_state hrecent b .st f
  have hlane : (s.laneCtx b .st f).stLane (s.laneCtx b .st f).fresh lane = (s.laneCtx b .st f).fresh.ok (s.laneCtx b .st f) lane [] := by
    unfold LaneCtx.stLane
    rw [show (s.laneCtx b .st f).element lane (s.laneCtx b .st f).f.dst (s.laneCtx b .st f).f.a _ = _ from helement]
  exact execLaneSt_of_ok hrecent hredo hpart hissues honly (.refl s)
    (hlane.trans (congrArg (LaneAcc.ok · (s.laneCtx b .st f) lane []) (LaneCtx.fresh_loosen hs)))

section
variable {addr : Word} {rec : Option Record}
  (helement : (s.laneCtx b .st f).element lane f.dst f.a (s.laneCtx b .st f).theRecord = .at_ addr rec)
include helement

omit hrecent hredo hcopies hissues honly in
/-- The access of the lane. -/
theorem stLane_eq : (s.laneCtx b .st f).stLane (s.laneCtx b .st f).fresh lane =
    (s.laneCtx b .st f).fresh.touch (s.laneCtx b .st f) lane addr (memoryBytes f.ty rec) .write false false fun s' p =>
      (s'.partyStore p ((s.laneCtx b .st f).storedBytes lane rec), []) := by
  have hlength : ((s.laneCtx b .st f).storedBytes lane rec).length = memoryBytes f.ty rec := toBytes_length ..
  unfold LaneCtx.stLane
  rw [show (s.laneCtx b .st f).element lane (s.laneCtx b .st f).f.dst (s.laneCtx b .st f).f.a _ = _ from helement]
  dsimp only
  rw [LaneAcc.st, LaneCtx.halves_of_fresh (c := s.laneCtx b .st f) hpart, ← hlength]
  rfl

theorem execLaneSt_granted {p : Place}
    (haccess : s.access ((s.laneCtx b .st f).accessor lane) addr (memoryBytes f.ty rec) (memoryBytes f.ty rec) .write = .ok p)
    (hhere : s.remote p = false) :
    ∃ t, exec (.laneSt f) s = .next t ∧ t.party.regs = s.party.regs ∧
      s.PutsInFlight b .st f t (s.partyStore p ((s.laneCtx b .st f).storedBytes lane rec)) := by
  obtain ⟨m, hs, -⟩ := s.laneCtx_state hrecent b .st f
  have hlane := (stLane_eq hpart helement).trans (LaneAcc.touch_granted (acc := (s.laneCtx b .st f).fresh)
    (by rw [LaneCtx.fresh_loosen hs]; exact hcopies) (by rw [LaneCtx.fresh_loosen hs]; exact haccess)
    (by rw [LaneCtx.fresh_loosen hs]; exact hhere) ..)
  rw [show (s.laneCtx b .st f).fresh.s = _ from hs, State.loosen_partyStore] at hlane
  exact execLaneSt_of_ok hrecent hredo hpart hissues honly (State.partyStore_sameParty ..) hlane

theorem execLaneSt_denied (hbytes : 0 < memoryBytes f.ty rec) {d : Deny}
    (haccess : s.access ((s.laneCtx b .st f).accessor lane) addr (memoryBytes f.ty rec) (memoryBytes f.ty rec) .write = .error d) :
    ∃ t q, exec (.laneSt f) s = .next t ∧ t = { s with party := t.party, lines := t.lines } ∧ t.party.pendingLane = some q ∧
      q.cause = d.cause ∧ q.src = 1 ∧ q.addr = addr ∧ q.pc = b.lrun ∧ q.boff = s.party.laneCtr ∧ q.done = 0 ∧
      t.party.queue = s.party.queue ∧ t.party.inflight = s.party.inflight ∧ t.party.regs = s.party.regs := by
  obtain ⟨m, hs, -⟩ := s.laneCtx_state hrecent b .st f
  have hlane := (stLane_eq hpart helement).trans (LaneAcc.touch_denied (acc := (s.laneCtx b .st f).fresh)
    (by rw [LaneCtx.fresh_loosen hs]; exact hcopies)
    (State.lanePlace_of_denied_write hbytes (by rw [LaneCtx.fresh_loosen hs]; exact haccess)) ..)
  have hrun : exec (.laneSt f) s = _ := runLaneMemory_of_one hissues hpart honly LaneCtx.stLane
  rw [show _ = (s.laneCtx b .st f).oneDenied lane d addr from hlane] at hrun
  obtain ⟨n, lines, -, hreads⟩ := State.sawPoison_afterReads (s.loosen m) ((s.laneCtx b .st f).accessor lane) d addr
  rw [← hs] at hreads
  obtain ⟨q, t, hconclude, hpending, hcause, hsrc, haddr, hpc, hboff, hdone, hqueue, hinflight, hregs⟩ :=
    LaneCtx.conclude_denied (c := s.laneCtx b .st f) hredo hpart (acc := LaneCtx.oneDenied _ lane d addr) rfl
      (funext (LaneCtx.retested_of_other (.inr rfl))) rfl (e := if d.cause = .poison then .poison else .fault d.cause) rfl
      (by split <;> simp) rfl
  rw [hconclude] at hrun
  have hsaw : ((s.laneCtx b .st f).oneDenied lane d addr).s = _ := hreads
  rw [hsaw, hs] at hrun hqueue hinflight hregs
  exact ⟨_, t, hrun, rfl, hpending, hcause, hsrc, haddr, hpc, hboff, hdone, hqueue, hinflight, hregs⟩

end

end

end

end Sys2Proof.Machine
end

section
/-!
SUPPORT. The atomics of one lane (R185 to R187), and the statement on lane memory.
-/
namespace Sys2Proof.Machine

/-! ### What an atomic does to the part -/

/-- The state after an atomic's read of `e` bytes at a place, and after its write, where it writes. -/
def State.afterAtomic (s : State) (p : Place) (e : Nat) : Option Nat → State
  | some v => ((s.partyRead p e).partyWrite p (toBytes e v)).watchAll
  | none => s.partyRead p e

section
variable (s : State) (p : Place) (e : Nat) (v : Option Nat)

theorem State.loosen_afterAtomic (l : List LooseMask) : (s.loosen l).afterAtomic p e v = (s.afterAtomic p e v).loosen l := by
  cases v with
  | none => exact State.loosen_partyRead ..
  | some v => rw [State.afterAtomic, State.loosen_partyRead, State.loosen_partyWrite, State.loosen_watchAll, State.afterAtomic]

theorem State.partyWrite_sameParty (bs : List Byte) : SameParty s (s.partyWrite p bs) :=
  (State.writeAs_sameParty ..).trans (State.atTime_sameParty ..)

theorem State.afterAtomic_sameParty : SameParty s (s.afterAtomic p e v) := by
  cases v with
  | none => exact State.partyRead_sameParty ..
  | some v => exact ((State.partyRead_sameParty ..).trans (State.partyWrite_sameParty ..)).trans (State.watchAll_sameParty _)

theorem State.NoSemacq.afterAtomic {s : State} (h : s.NoSemacq) : (s.afterAtomic p e v).NoSemacq := by
  cases v with
  | none => exact h.partyRead p e
  | some v => exact ((h.partyRead p e).partyWrite p _).watchAll

end

/-- A granted atomic of the first lane. -/
theorem LaneAcc.atomic_granted {c : LaneCtx} {s : State} {m : List LooseMask} (hs : c.s = s.loosen m) (hcopies : s.copies = [])
    {lane : Nat} {base off : BitVec 8} {p : Place}
    (haccess : s.access (c.accessor lane) (c.address lane base off 8) c.f.ty.bytes c.f.ty.bytes .update = .ok p)
    (hhere : s.remote p = false) (returns : Bool) (g : Nat → Option Nat) :
    c.fresh.atomic c lane base off returns g =
      { c.fresh with s := (s.afterAtomic p c.f.ty.bytes (g (s.valueAt p c.f.ty.bytes))).loosen m }.ok c lane
        (if returns then placeValue c.f.ty (s.valueAt p c.f.ty.bytes) else []) := by
  unfold LaneAcc.atomic
  refine (LaneAcc.touch_granted (acc := c.fresh) (by rw [LaneCtx.fresh_loosen hs]; exact hcopies)
    (by rw [LaneCtx.fresh_loosen hs]; exact haccess) (by rw [LaneCtx.fresh_loosen hs]; exact hhere) ..).trans ?_
  rw [← State.loosen_afterAtomic, show c.fresh.s = _ from hs]
  dsimp only
  rw [State.loosen_valueAt]
  cases g (s.valueAt p c.f.ty.bytes) <;> rfl

/-! ### One atomic -/

/-- An atomic of one granted lane, as the statement has it. -/
def State.Atomically (s : State) (b : Block) (f : LaneF) (op : LaneOp) (i : Instr) (base off : BitVec 8) (returns : Bool)
    (new : Nat → Nat → Option Nat → Prop) : Prop :=
  s.laneIssues b op f → s.NoSemacq → ∀ lane p, (∀ l, s.activeLane b op f l ↔ l = lane) →
    s.access ((s.laneCtx b op f).accessor lane) ((s.laneCtx b op f).address lane base off 8) f.ty.bytes f.ty.bytes .update = .ok p ∧
      s.remote p = false →
    ∃ t v, exec i s = .next t ∧ new lane (s.valueAt p f.ty.bytes) v ∧
      s.PutsInFlight b op f t (s.afterAtomic p f.ty.bytes v) ∧
      if returns then t.HoldsWords f lane (placeValue f.ty (s.valueAt p f.ty.bytes)) ∧ s.KeepsOthers b op f t
      else t.party.regs = s.party.regs

section
variable {s : State} {b : Block} {f : LaneF} (hrecent : s.party.recent = []) (hredo : s.party.redo = none)
  (hpart : s.party.part = none) (hcopies : s.copies = [])
  (hwindow : s.party.b + (s.home s.party).header.window ≤ 1024)
include hrecent hredo hpart hcopies hwindow

/-- An atomic whose one lane is granted writes the new value and returns the old. -/
theorem State.atomically_of_body {op : LaneOp} {i : Instr} {body : LaneCtx → LaneAcc → Nat → LaneAcc} {base off : BitVec 8}
    {returns : Bool} {g : Nat → Nat → Option Nat} {new : Nat → Nat → Option Nat → Prop}
    (hexec : exec i s = runLaneMemory s op f body)
    (hbody : ∀ lane, body (s.laneCtx b op f) (s.laneCtx b op f).fresh lane =
      (s.laneCtx b op f).fresh.atomic (s.laneCtx b op f) lane base off returns (g lane))
    (hslot : returns = true → (op.slots f).1 = .lane f.ty.regs (1 < f.ty.regs))
    (hnew : ∀ lane p, new lane (s.valueAt p f.ty.bytes) (g lane (s.valueAt p f.ty.bytes))) :
    s.Atomically b f op i base off returns new := by
  intro hissues hwaits lane p honly hgrants
  obtain ⟨haccess, hhere⟩ := hgrants
  obtain ⟨m, hs, -⟩ := s.laneCtx_state hrecent b op f
  have hone : lanesOf (s.laneCtx b op f).active (s.laneCtx b op f).p.width = [lane] := lanesOf_singleton honly
  let v := g lane (s.valueAt p f.ty.bytes)
  have hrun := hexec.trans (runLaneMemory_of_one hissues hpart honly body)
  rw [hbody, LaneAcc.atomic_granted hs hcopies haccess hhere returns (g lane)] at hrun
  obtain ⟨q, hconclude, hflight, hwrites, hwait⟩ := State.conclude_one_lane hissues hrecent hredo hpart hone
    (State.afterAtomic_sameParty s p f.ty.bytes v) m (if returns then placeValue f.ty (s.valueAt p f.ty.bytes) else [])
  have hstill := State.retestAll_of_noSemacq ((hwaits.afterAtomic p f.ty.bytes v).with_party hwait)
  have hretested (t : State) (ht : t.retestAll = t) : (s.laneCtx b op f).retested t = t := by
    unfold LaneCtx.retested
    split
    · exact ht
    · rfl
  rw [hretested _ hstill] at hconclude
  refine ⟨_, v, hrun.trans hconclude, hnew lane p, hflight, ?_⟩
  cases returns with
  | false => exact hwrites.regs_of_nil
  | true =>
    have hentries : entriesOf (s.party.first + lane) (s.party.b + f.dst.toNat) (placeValue f.ty (s.valueAt p f.ty.bytes)) =
        ((s.laneCtx b op f).toLanes f.ty fun _ => s.valueAt p f.ty.bytes).entries := by
      unfold LaneCtx.toLanes
      rw [hone]
      exact (List.append_nil _).symm
    have hwrites : s.party.Writes q (entriesOf (s.party.first + lane) (s.party.b + f.dst.toNat)
      (placeValue f.ty (s.valueAt p f.ty.bytes))) := hwrites
    rw [hentries] at hwrites
    exact ⟨State.holdsWords_of_writes _ hwrites (hissues.dst_fits hwindow (hslot rfl)) ((honly lane).mpr rfl),
      State.keepsOthers_of_writes _ hwrites⟩

theorem execAtom_settles {new : Nat → Nat → Option Nat → Prop} (hnew : ∀ lane p, new lane (s.valueAt p f.ty.bytes)
      (some (atomicValue f.ty (f.imm.toNat / 256 % 8) (s.valueAt p f.ty.bytes) ((s.laneCtx b .atom f).value lane f.c f.ty)))) :
    s.Atomically b f .atom (.atom f) f.a f.b true new :=
  State.atomically_of_body hrecent hredo hpart hcopies hwindow (body := LaneCtx.atomLane)
    (g := fun lane old => some (atomicValue f.ty (f.imm.toNat / 256 % 8) old ((s.laneCtx b .atom f).value lane f.c f.ty)))
    rfl (fun _ => rfl) (fun _ => rfl) hnew

theorem execAred_settles {new : Nat → Nat → Option Nat → Prop} (hnew : ∀ lane p, new lane (s.valueAt p f.ty.bytes)
      (some (atomicValue f.ty (f.imm.toNat / 256 % 8) (s.valueAt p f.ty.bytes) ((s.laneCtx b .ared f).value lane f.b f.ty)))) :
    s.Atomically b f .ared (.ared f) f.dst f.a false new :=
  State.atomically_of_body hrecent hredo hpart hcopies hwindow (body := LaneCtx.aredLane)
    (g := fun lane old => some (atomicValue f.ty (f.imm.toNat / 256 % 8) old ((s.laneCtx b .ared f).value lane f.b f.ty)))
    rfl (fun _ => rfl) (fun h => Bool.noConfusion h) hnew

theorem execAcas_settles : s.Atomically b f .acas (.acas f) f.a f.b true fun lane old v => v =
    if old = (s.laneCtx b .acas f).regs lane f.c.toNat f.ty.regs
    then some ((s.laneCtx b .acas f).regs lane (f.c.toNat + f.ty.regs) f.ty.regs) else none :=
  State.atomically_of_body hrecent hredo hpart hcopies hwindow (body := LaneCtx.acasLane)
    (g := fun lane old => if old = (s.laneCtx b .acas f).regs lane f.c.toNat f.ty.regs
      then some ((s.laneCtx b .acas f).regs lane (f.c.toNat + f.ty.regs) f.ty.regs) else none)
    rfl (fun _ => rfl) (fun _ => rfl) fun _ _ => rfl

/-- ATOM and ARED of one operation: what it makes of the old value and of the operand. -/
theorem atomAndAred_settle {g : Nat → Nat → Nat → Prop} (hg : ∀ x y, x < 2 ^ f.ty.width → y < 2 ^ f.ty.width →
      g x y (atomicValue f.ty (f.imm.toNat / 256 % 8) x y)) :
    (s.Atomically b f .atom (.atom f) f.a f.b true fun lane old v =>
      ∃ r, v = some r ∧ g old ((s.laneCtx b .atom f).value lane f.c f.ty) r) ∧
    s.Atomically b f .ared (.ared f) f.dst f.a false fun lane old v =>
      ∃ r, v = some r ∧ g old ((s.laneCtx b .ared f).value lane f.b f.ty) r :=
  ⟨execAtom_settles hrecent hredo hpart hcopies hwindow fun _ p =>
      ⟨_, rfl, hg _ _ (s.valueAt_lt p f.ty) (LaneCtx.value_lt ..)⟩,
    execAred_settles hrecent hredo hpart hcopies hwindow fun _ p =>
      ⟨_, rfl, hg _ _ (s.valueAt_lt p f.ty) (LaneCtx.value_lt ..)⟩⟩

end

/-! ### The statement -/

theorem Ty.bytes_pos (t : Ty) : 0 < t.bytes := by cases t <;> decide

theorem memoryBytes_pos (t : Ty) (rec : Option Record) : 0 < memoryBytes t rec := by
  cases rec <;> exact Ty.bytes_pos _

/-- Settles O48: LD lane by lane, ST and the atomics of one lane, and the new value of each operation. -/
theorem laneMemory : Obligations.LaneMemory := by
  unfold Obligations.LaneMemory
  intro s b f hrecent hredo hpart hcopies hwindow c active only bytes grants inFlight holds wrote address atomically
  have hbytes (rec : Option Record) : bytes rec = memoryBytes f.ty rec := by cases rec <;> rfl
  refine ⟨fun hissues el hel => ?_, fun hissues lane honly => ⟨fun helement => ?_, fun addr rec p helement hgrants => ?_,
    fun addr rec d helement hdenied => ?_⟩, ?_, fun hop => ?_, ?_⟩
  · refine execLaneLd_settles hrecent hredo hpart hcopies hwindow hissues fun lane hactive => ?_
    have hlane := hel lane hactive
    generalize el lane = found at hlane ⊢
    rcases found with _ | ⟨p, rec⟩
    · exact .inl ⟨hlane, rfl⟩
    · obtain ⟨addr, helement, haccess, hhere⟩ := hlane
      rw [hbytes] at haccess
      cases rec <;> exact .inr ⟨addr, _, p, helement, haccess, hhere, rfl⟩
  · obtain ⟨t, hexec, hregs, hflight⟩ := execLaneSt_outside hrecent hredo hpart hissues honly helement
    exact ⟨t, hexec, hflight, hregs⟩
  · obtain ⟨haccess, hhere⟩ := hgrants
    rw [hbytes] at haccess
    obtain ⟨t, hexec, hregs, hflight⟩ := execLaneSt_granted hrecent hredo hpart hcopies hissues honly helement haccess hhere
    cases rec <;> exact ⟨t, hexec, hregs, hflight⟩
  · rw [hbytes] at hdenied
    exact execLaneSt_denied hrecent hredo hpart hcopies hissues honly helement (memoryBytes_pos ..) hdenied
  · intro op both n num mag nan key best
    have hvalue (x y : Nat) (h : op ≠ 6) : atomicValue f.ty (f.imm.toNat / 256 % 8) x y = combine f.ty .rn op x y :=
      atomicValue_of_combined h ..
    have hboth (ok : Prop) (g : Nat → Nat → Nat → Prop) (hg : ok → ∀ x y, x < 2 ^ f.ty.width → y < 2 ^ f.ty.width →
        g x y (atomicValue f.ty (f.imm.toNat / 256 % 8) x y)) : both ok g := fun hok =>
      atomAndAred_settle hrecent hredo hpart hcopies hwindow (hg hok)
    clear_value both
    refine ⟨hboth _ _ fun ⟨hZ, hop⟩ x y _ _ => ?_, hboth _ _ fun ⟨hZ, hop⟩ x y hx hy => ?_,
      hboth _ _ fun ⟨hZ, hop⟩ x y hx hy => ?_, hboth _ _ fun ⟨hF, hop⟩ x y _ _ => ?_, hboth _ _ fun ⟨hF, hop⟩ x y hx hy => ?_,
      hboth _ _ fun ⟨hL, hlow, hhigh⟩ x y _ _ => ?_⟩
    · rw [hvalue x y (by omega), hop, combine_sum hZ]
    · rw [hvalue x y (by omega), hop, combine_least hZ hx hy]
      rfl
    · rw [hvalue x y (by omega), hop, combine_greatest hZ hx hy]
      rfl
    · rw [hvalue x y (by omega), hop, combine_add hF]
      exact Fmt.adds_add (Fmt.standard_of_ty f.ty) ..
    · rw [hvalue x y (by omega), combine_number hF hop hx hy]
      rfl
    · rw [hvalue x y (by omega), combine_bitwise hL hlow hhigh]
  · refine execAtom_settles (f := f) (new := fun lane _ v => v = some ((s.laneCtx b .atom f).value lane f.c f.ty))
      hrecent hredo hpart hcopies hwindow fun lane p => ?_
    rw [hop]
    rfl
  · exact execAcas_settles hrecent hredo hpart hcopies hwindow

end Sys2Proof.Machine
end

section
/-!
SUPPORT. What the logical side of an access may change (R196, R304, R318), and the time that a read and a write leave.
-/
namespace Sys2Proof.Machine

/-! ### Greatest times -/

theorem foldl_natMax_eq (l : List Nat) (a : Nat) : l.foldl Nat.max a = Nat.max a (l.foldl Nat.max 0) := by
  rw [← List.foldl_assoc (op := Nat.max) (ha := ⟨Nat.max_assoc⟩)]
  exact congrArg (l.foldl Nat.max) (Nat.max_zero a).symm

theorem le_foldl_natMax (l : List Nat) (a : Nat) : a ≤ l.foldl Nat.max a := by
  rw [foldl_natMax_eq]
  exact Nat.le_max_left ..

/-! ### The time of a read (R318) -/

/-- A line put in the list gives its time of writing, also where it is not listed. -/
theorem State.lineAt_putLine_same (s : State) (l : Line) : ((s.putLine l).lineAt l.place).wt = l.wt := by
  have hrest : (s.lines.filter fun x => x.place != l.place).find? (fun x => x.place == l.place) = none :=
    List.find?_eq_none.mpr fun x hx => by simpa using (List.mem_filter.mp hx).2
  unfold State.putLine State.lineAt
  dsimp only
  split
  · rename_i hzero
    rw [hrest]
    exact hzero.1.symm
  · rw [List.find?_cons_of_pos (by simp)]
    rfl

theorem State.lineAt_putLine_other (s : State) {l : Line} {x : Place} (h : x ≠ l.place) :
    (s.putLine l).lineAt x = s.lineAt x := by
  have hrest : (s.lines.filter fun y => y.place != l.place).find? (fun y => y.place == x) =
      s.lines.find? fun y => y.place == x := by
    rw [List.find?_filter]
    congr 1
    funext y
    by_cases hy : y.place = x
    · simp [hy, h]
    · simp [hy]
  unfold State.putLine State.lineAt
  dsimp only
  split
  · rw [hrest]
  · rw [List.find?_cons_of_neg (by simpa using h.symm), hrest]

theorem State.lineAt_place (s : State) (x : Place) : (s.lineAt x).place = x := by
  unfold State.lineAt
  cases h : s.lines.find? fun l => l.place == x with
  | none => rfl
  | some l => simpa using List.find?_some h

theorem Line.renewed_wt (l : Line) (time lambda : Nat) : (l.renewed time lambda).wt = l.wt := by
  unfold Line.renewed
  split <;> rfl

theorem Line.renewed_place (l : Line) (time lambda : Nat) : (l.renewed time lambda).place = l.place := by
  unfold Line.renewed
  split <;> rfl

/-- A lease renewed leaves the time of the latest write of every line. -/
theorem State.wt_putLine_renewed (s : State) (x y : Place) (time lambda : Nat) :
    ((s.putLine ((s.lineAt x).renewed time lambda)).lineAt y).wt = (s.lineAt y).wt := by
  have hplace : ((s.lineAt x).renewed time lambda).place = x := (Line.renewed_place ..).trans (s.lineAt_place x)
  by_cases hy : y = x
  · subst hy
    have h := s.lineAt_putLine_same ((s.lineAt y).renewed time lambda)
    rw [hplace] at h
    exact h.trans (Line.renewed_wt ..)
  · rw [s.lineAt_putLine_other (by rw [hplace]; exact hy)]

/-- The time after a read is the greatest of the reader's and of those of the latest writes of the lines. -/
theorem State.noteRead_time (s : State) (core time : Nat) (p : Place) (n : Nat) :
    (s.noteRead core time p n).2 = Nat.max time (s.writtenAt p n) := by
  unfold State.noteRead State.writtenAt
  rw [← foldl_natMax_eq, List.foldl_map]
  generalize p.lines n = ls
  suffices ∀ r : State × Nat, (∀ y, (r.1.lineAt y).wt = (s.lineAt y).wt) → (ls.foldl (fun (r : State × Nat) x =>
      let l := (r.1.lineAt x).renewed r.2 (s.leaseOf core p)
      (r.1.putLine l, Nat.max r.2 l.wt)) r).2 = ls.foldl (fun t x => Nat.max t (s.lineAt x).wt) r.2 from this (s, time) fun _ => rfl
  induction ls with
  | nil => exact fun _ _ => rfl
  | cons x ls ih =>
    intro r hr
    rw [List.foldl_cons, ih _ fun y => (State.wt_putLine_renewed ..).trans (hr y), List.foldl_cons]
    dsimp only
    rw [Line.renewed_wt, hr]

theorem State.writtenAt_le_partyRead (s : State) (p : Place) (n : Nat) : s.writtenAt p n ≤ (s.partyRead p n).party.pt := by
  have htime : (s.partyRead p n).party.pt = Nat.max s.party.pt (s.writtenAt p n) := s.noteRead_time ..
  rw [htime]
  exact Nat.le_max_right ..

/-! ### The time of a write (R318) -/

theorem State.le_writeTime (s : State) (time path : Nat) (p : Place) (n : Nat) : time ≤ s.writeTime time path p n :=
  le_foldl_natMax ..

/-! ### A miss on a line that the party's slot had filled (R196) -/

theorem State.noteMiss_eq (s : State) (addr : Word) :
    ∃ copies score, s.noteMiss addr = { s with copies := copies, party := { s.party with score := score } } := by
  unfold State.noteMiss
  dsimp only
  split
  · exact ⟨_, _, rfl⟩
  · exact ⟨s.copies, s.party.score, rfl⟩

/-! ### What is left alone -/

/-- Two states that differ at most in parties, lines, copies and the notes on flags of the host path. -/
def LogicalOnly (s t : State) : Prop :=
  ∃ party others copies lines flags,
    t = { s with party := party, others := others, copies := copies, lines := lines, hostFlags := flags }

theorem LogicalOnly.refl (s : State) : LogicalOnly s s := ⟨_, _, _, _, _, rfl⟩

theorem LogicalOnly.trans {s t u : State} (h : LogicalOnly s t) (k : LogicalOnly t u) : LogicalOnly s u := by
  obtain ⟨_, _, _, _, _, rfl⟩ := h
  obtain ⟨_, _, _, _, _, rfl⟩ := k
  exact ⟨_, _, _, _, _, rfl⟩

theorem LogicalOnly.foldl {α : Type} {f : State → α → State} (hf : ∀ s a, LogicalOnly s (f s a)) (l : List α) (s : State) :
    LogicalOnly s (l.foldl f s) := by
  induction l generalizing s with
  | nil => exact .refl s
  | cons a l ih => exact (hf s a).trans (ih _)

section
variable {s t : State} (h : LogicalOnly s t)
include h

theorem LogicalOnly.mem : t.mem = s.mem := by obtain ⟨_, _, _, _, _, rfl⟩ := h; rfl

theorem LogicalOnly.tags : t.tags = s.tags := by obtain ⟨_, _, _, _, _, rfl⟩ := h; rfl

theorem LogicalOnly.groups : t.groups = s.groups := by obtain ⟨_, _, _, _, _, rfl⟩ := h; rfl

theorem LogicalOnly.group? (l g : Nat) : t.group? l g = s.group? l g := by obtain ⟨_, _, _, _, _, rfl⟩ := h; rfl

theorem LogicalOnly.sameKey (pa n key : Nat) : t.sameKey pa n key = s.sameKey pa n key := by
  obtain ⟨_, _, _, _, _, rfl⟩ := h
  rfl

end

theorem State.noteMiss_logicalOnly (s : State) (addr : Word) : LogicalOnly s (s.noteMiss addr) := by
  obtain ⟨copies, score, h⟩ := s.noteMiss_eq addr
  exact ⟨_, _, _, _, _, h⟩

theorem State.atTime_logicalOnly (s : State) (n : Nat) : LogicalOnly s (s.atTime n) := ⟨_, _, _, _, _, rfl⟩

theorem State.putParty_logicalOnly (s : State) (p : Party) : LogicalOnly s (s.putParty p) := by
  unfold State.putParty
  split <;> exact ⟨_, _, _, _, _, rfl⟩

theorem State.finish_logicalOnly (s : State) (p : Party) : LogicalOnly s (s.finish p) := ⟨_, _, _, _, _, rfl⟩

theorem State.noteRead_logicalOnly (s : State) (core time : Nat) (p : Place) (n : Nat) :
    LogicalOnly s (s.noteRead core time p n).1 := by
  obtain ⟨m, lines, -, h⟩ := s.noteRead_lines core time p n
  exact ⟨_, _, _, _, _, congrArg Prod.fst h⟩

/-- The logical side of a write on a path that is not the host's. -/
theorem State.noteWrite_logicalOnly (s : State) {a : Agent} (h : a.path ≠ 5) (p : Place) (n : Nat) :
    LogicalOnly s (s.noteWrite a p n).1 := by
  have hstamps (t : Nat) : LogicalOnly s (s.stampLines t p n) :=
    LogicalOnly.foldl (f := fun s x => s.putLine { s.lineAt x with wt := t, rl := Nat.max (s.lineAt x).rl t })
      (fun _ _ => ⟨_, _, _, _, _, rfl⟩) _ _
  refine (hstamps (s.writeTime (s.earliest a) a.path p n)).trans ⟨_, _, _, _, _, if_neg h⟩

theorem State.watch_logicalOnly (s : State) (pid : Nat) : LogicalOnly s (s.watch pid) := by
  unfold State.watch
  split
  · exact .refl s
  · split
    · exact .refl s
    · split
      · split
        · exact .refl s
        · split
          · exact .refl s
          · exact (State.noteRead_logicalOnly ..).trans (State.putParty_logicalOnly ..)
      · exact .refl s

theorem State.watchAll_logicalOnly (s : State) : LogicalOnly s s.watchAll := LogicalOnly.foldl State.watch_logicalOnly _ s

end Sys2Proof.Machine
end

section
/-!
SUPPORT. What a write changes of memory, of a scratchpad and of their poison (R335 to R338).
-/
namespace Sys2Proof.Machine

/-! ### Lengths under the cipher (R335) -/

theorem xorBytes_length_le (a b : List Byte) : (xorBytes a b).length ≤ b.length := by
  rw [xorBytes, List.length_zipWith]
  exact Nat.min_le_right ..

theorem nextTweak_length (t : List Byte) : (nextTweak t).length = 16 := by
  rw [nextTweak, List.length_map, List.length_range]

theorem firstTweak_length_le (keys : BitVec 512) (sector : Nat) : (firstTweak keys sector).length ≤ 16 := by
  unfold firstTweak aesEncrypt
  dsimp only
  rw [xorBytes, List.length_zipWith, shiftRows, List.length_map, List.length_range]
  exact Nat.min_le_left ..

theorem xtsBlocks_length_le (f : List Byte → List Byte) (n : Nat) {tweak : List Byte} (h : tweak.length ≤ 16) (bs : List Byte) :
    (xtsBlocks f n tweak bs).length ≤ 16 * n := by
  induction n generalizing tweak bs with
  | zero => exact Nat.le_refl 0
  | succ n ih =>
    have hblock := xorBytes_length_le (f (xorBytes (bs.take 16) tweak)) tweak
    have hrest := ih (nextTweak_length tweak).le (bs.drop 16)
    rw [xtsBlocks, List.length_append]
    omega

/-- A sector read under any key slot has no more than its 64 bytes. -/
theorem State.sectorAs_length_le (s : State) (sector key : Nat) : (s.sectorAs sector key).length ≤ 64 := by
  have hxts (f : List Byte → List Byte) (keys : BitVec 512) (x : Nat) (bs : List Byte) :
      (xtsBlocks f 4 (firstTweak keys x) bs).length ≤ 64 := xtsBlocks_length_le f 4 (firstTweak_length_le keys x) bs
  have hraw : (readBytes s.mem (sector * 64) 64).length ≤ 64 := (readBytes_length ..).le
  unfold State.sectorAs
  dsimp only
  split
  · exact hraw
  · split
    · split
      · exact hraw
      · exact hxts ..
    · exact hxts ..

/-! ### Sectors rewritten under a key slot (R336) -/

theorem State.rekey_frame (s : State) (sector key : Nat) :
    ∃ mem tags, s.rekey sector key = { s with mem := mem, tags := tags } := by
  unfold State.rekey
  split <;> exact ⟨_, _, rfl⟩

theorem State.rekeyAll_frame (l : List Nat) (s : State) (key : Nat) :
    ∃ mem tags, l.foldl (fun s x => s.rekey x key) s = { s with mem := mem, tags := tags } := by
  induction l generalizing s with
  | nil => exact ⟨_, _, rfl⟩
  | cons x l ih =>
    obtain ⟨mem, tags, hx⟩ := s.rekey_frame x key
    rw [List.foldl_cons, hx]
    exact ih _

theorem State.byteAt_rekey {s : State} {sector b : Nat} (h : b / 64 ≠ sector) (key : Nat) :
    byteAt (s.rekey sector key).mem b = byteAt s.mem b := by
  have hlength := s.sectorAs_length_le sector key
  unfold State.rekey
  split
  · rfl
  · exact byteAt_writeBytes_out _ _ _ _ (by omega)

theorem State.byteAt_rekeyAll {l : List Nat} {b : Nat} (h : ∀ x ∈ l, b / 64 ≠ x) (s : State) (key : Nat) :
    byteAt (l.foldl (fun s x => s.rekey x key) s).mem b = byteAt s.mem b := by
  induction l generalizing s with
  | nil => rfl
  | cons x l ih =>
    rw [List.foldl_cons, ih fun y hy => h y (List.mem_cons_of_mem _ hy)]
    exact State.byteAt_rekey (h x (List.mem_cons_self ..)) key

/-- The sectors of a range lie from that of its first byte to that of its last. -/
theorem mem_sectorsOf {pa n x : Nat} (h : x ∈ sectorsOf pa n) : pa / 64 ≤ x ∧ x ≤ (pa + n - 1) / 64 := by
  unfold sectorsOf at h
  split at h
  · cases h
  · rw [mem_upTo] at h
    omega

/-! ### Writes to memory (R336, R338) -/

/-- A write shorter than a sector covers none. -/
theorem State.clearPoison_of_short (s : State) (pa : Nat) {n : Nat} (h : n < 64) : s.clearPoison pa n = s := by
  have hkept : s.poison.filter (fun x => !(decide (pa ≤ 64 * x) && decide (64 * x + 64 ≤ pa + n))) = s.poison :=
    List.filter_eq_self.mpr fun x _ => by
      simp only [Bool.not_eq_true', Bool.and_eq_false_iff, decide_eq_false_iff_not]
      omega
  rw [State.clearPoison, hkept]

theorem State.writePhys_frame (s : State) (pa : Nat) {bs : List Byte} (h : bs.length < 64) (key : Nat) :
    ∃ mem tags, s.writePhys pa bs key = { s with mem := mem, tags := tags } := by
  obtain ⟨mem, tags, hkeyed⟩ := State.rekeyAll_frame (sectorsOf pa bs.length) s key
  rw [State.writePhys, State.clearPoison_of_short _ _ h, hkeyed]
  exact ⟨_, _, rfl⟩

/-- A write changes no byte outside the sectors it touches. -/
theorem State.byteAt_writePhys_outside (s : State) {pa b : Nat} {bs : List Byte} (hbs : bs ≠ []) (key : Nat)
    (h : b / 64 < pa / 64 ∨ (pa + bs.length - 1) / 64 < b / 64) : byteAt (s.writePhys pa bs key).mem b = byteAt s.mem b := by
  have hlength := List.length_pos_iff.mpr hbs
  have hsectors : ∀ x ∈ sectorsOf pa bs.length, b / 64 ≠ x := fun x hx => by
    have := mem_sectorsOf hx
    omega
  exact (byteAt_writeBytes_out _ _ _ _ (by omega)).trans (State.byteAt_rekeyAll hsectors s key)

/-! ### Writes to a scratchpad (R338) -/

theorem State.group?_names {s : State} {l g : Nat} {gr : Group} (h : s.group? l g = some gr) : gr.launch = l ∧ gr.number = g := by
  simpa using List.find?_some h

theorem State.group?_putGroup_same {s : State} {gr : Group} (h : (s.group? gr.launch gr.number).isSome = true) :
    (s.putGroup gr).group? gr.launch gr.number = some gr := by
  obtain ⟨x, hx⟩ := Option.isSome_iff_exists.mp h
  have hnames := State.group?_names hx
  have hfind : (fun y : Group => y.launch == gr.launch && y.number == gr.number) ∘
      (fun y => if y.launch = gr.launch ∧ y.number = gr.number then gr else y) =
      fun y => y.launch == gr.launch && y.number == gr.number := by
    funext y
    by_cases hy : y.launch = gr.launch ∧ y.number = gr.number
    · simp [hy]
    · simp [hy]
  unfold State.group? at hx
  rw [State.putGroup, State.group?, List.find?_map, hfind, hx, Option.map_some, if_pos hnames]

theorem State.group?_putGroup_other (s : State) {gr : Group} {l g : Nat} (h : l ≠ gr.launch ∨ g ≠ gr.number) :
    (s.putGroup gr).group? l g = s.group? l g := by
  have hfind : (fun y : Group => y.launch == l && y.number == g) ∘
      (fun y => if y.launch = gr.launch ∧ y.number = gr.number then gr else y) = fun y => y.launch == l && y.number == g := by
    funext y
    by_cases hy : y.launch = gr.launch ∧ y.number = gr.number
    · simp [hy]
    · simp [hy]
  rw [State.putGroup, State.group?, List.find?_map, hfind]
  cases hx : s.groups.find? fun y => y.launch == l && y.number == g with
  | none => exact hx.symm
  | some x =>
    have hnames := State.group?_names hx
    rw [Option.map_some, if_neg (by omega)]
    exact hx.symm

/-- A group after a write to its scratchpad. -/
def Group.written (gr : Group) (off : Nat) (bs : List Byte) : Group :=
  { gr with
    spad := writeBytes gr.spad off bs
    bad := gr.bad.filter fun x => !(decide (off ≤ 4 * x) && decide (4 * x + 4 ≤ off + bs.length)) }

theorem State.writePlace_spad {s : State} {l g : Nat} {gr : Group} (h : s.group? l g = some gr) (off : Nat) (bs : List Byte) :
    s.writePlace (.spad l g off) bs = s.putGroup (gr.written off bs) := by
  rw [State.writePlace, h]
  rfl

theorem State.writePlace_spad_absent {s : State} {l g : Nat} (h : s.group? l g = none) (off : Nat) (bs : List Byte) :
    s.writePlace (.spad l g off) bs = s := by
  rw [State.writePlace, h]

theorem State.group?_writePlace_same {s : State} {l g : Nat} {gr : Group} (h : s.group? l g = some gr) (off : Nat)
    (bs : List Byte) : (s.writePlace (.spad l g off) bs).group? l g = some (gr.written off bs) := by
  rw [State.writePlace_spad h]
  obtain ⟨rfl, rfl⟩ := State.group?_names h
  exact State.group?_putGroup_same (gr := gr.written off bs) (Option.isSome_of_eq_some h)

theorem State.group?_writePlace_other (s : State) {l g l' g' : Nat} (h : l' ≠ l ∨ g' ≠ g) (off : Nat) (bs : List Byte) :
    (s.writePlace (.spad l g off) bs).group? l' g' = s.group? l' g' := by
  cases hgr : s.group? l g with
  | none => rw [State.writePlace_spad_absent hgr]
  | some gr =>
    rw [State.writePlace_spad hgr]
    obtain ⟨rfl, rfl⟩ := State.group?_names hgr
    exact State.group?_putGroup_other (gr := gr.written off bs) s h

theorem State.writePlace_spad_frame (s : State) (l g off : Nat) (bs : List Byte) :
    ∃ groups, s.writePlace (.spad l g off) bs = { s with groups := groups } := by
  cases h : s.group? l g with
  | none => exact ⟨_, State.writePlace_spad_absent h ..⟩
  | some gr => exact ⟨_, State.writePlace_spad h ..⟩

/-- A write shorter than a sector changes memory, its keys' tags and scratchpads alone. -/
theorem State.writePlace_frame (s : State) (p : Place) {bs : List Byte} (h : bs.length < 64) :
    ∃ mem tags groups, s.writePlace p bs = { s with mem := mem, tags := tags, groups := groups } := by
  cases p with
  | phys pa key home =>
    obtain ⟨mem, tags, hwrite⟩ := s.writePhys_frame pa h key
    exact ⟨mem, tags, _, hwrite⟩
  | spad l g off =>
    obtain ⟨groups, hwrite⟩ := s.writePlace_spad_frame l g off bs
    exact ⟨_, _, groups, hwrite⟩

/-! ### The bytes of a number (R18) -/

theorem toBytes_getElem? (n v i : Nat) : (toBytes n v)[i]? = if i < n then some (BitVec.ofNat 8 (v >>> (8 * i))) else none := by
  induction n generalizing v i with
  | zero => rfl
  | succ n ih =>
    cases i with
    | zero => rfl
    | succ j =>
      have hshift : (v / 256) >>> (8 * j) = v >>> (8 * (j + 1)) := by
        rw [Nat.mul_succ, Nat.add_comm, Nat.shiftRight_add, Nat.shiftRight_eq_div_pow v 8]
      rw [toBytes, List.getElem?_cons_succ, ih, hshift]
      simp only [Nat.add_lt_add_iff_right]

/-- Memory after the low bytes of a word are written, the lowest first. -/
theorem byteAt_writeBytes_toBytes (m : List Host.Cell) (a n : Nat) (v : Word) (b : Nat) :
    byteAt (writeBytes m a (toBytes n v.toNat)) b =
      if a ≤ b ∧ b < a + n then v.extractLsb' (8 * (b - a)) 8 else byteAt m b := by
  have hread : byteAt (writeBytes m a (toBytes n v.toNat)) b = if a ≤ b ∧ b < a + (toBytes n v.toNat).length
      then ((toBytes n v.toNat)[b - a]?).getD 0 else byteAt m b := readAfterWrite m a b (toBytes n v.toNat)
  rw [hread, toBytes_length, toBytes_getElem?]
  split
  · rw [if_pos (by omega)]
    rfl
  · rfl

end Sys2Proof.Machine
end

section
/-!
SUPPORT. Scalar loads and stores that their access admits (R191, R255).
-/
namespace Sys2Proof.Machine

/-! ### Accesses that are admitted -/

section
variable {s : State} {d a : Reg} {imm : BitVec 13} {n : Nat} {p : Place} (hplace : s.unreachable p = false)
include hplace

theorem scalarLoad_granted (hfree : s.holdsReg s.party d = false)
    (h : s.access s.accessor (s.party.dataAddress a imm) n n .read = .ok p) (f : Nat → Word) :
    scalarLoad s d a imm n f =
      let t := (s.noteMiss (s.party.dataAddress a imm)).partyRead p n
      .next (t.finish (t.party.setReg d (f (s.valueAt p n)))) := by
  unfold scalarLoad
  dsimp only
  rw [if_neg (by simp [hfree]), show s.access (accessorOf (s.home s.party) s.party) _ n n .read = _ from h]
  exact if_neg (by simp [hplace])

theorem scalarStore_granted (h : s.access s.accessor (s.party.dataAddress a imm) n n .write = .ok p) :
    scalarStore s d a imm n =
      let t := (s.noteMiss (s.party.dataAddress a imm)).partyStore p (toBytes n (s.party.reg d).toNat)
      .next (t.finish t.party) := by
  unfold scalarStore
  dsimp only
  rw [show s.access (accessorOf (s.home s.party) s.party) _ n n .write = _ from h]
  exact if_neg (by simp [hplace])

end

/-! ### Loads -/

/-- The logical side of a scalar load: its line, the copies, and of the party its logical time and its score. -/
theorem State.partyRead_of_noteMiss (s : State) (addr : Word) (p : Place) (n : Nat) :
    let t := (s.noteMiss addr).partyRead p n
    t = { s with lines := t.lines, copies := t.copies, party := { s.party with pt := t.party.pt, score := t.party.score } } ∧
      s.party.pt ≤ t.party.pt ∧ s.writtenAt p n ≤ t.party.pt := by
  obtain ⟨copies, score, hmiss⟩ := s.noteMiss_eq addr
  have hwritten : s.writtenAt p n ≤ ((s.noteMiss addr).partyRead p n).party.pt := by
    have h := (s.noteMiss addr).writtenAt_le_partyRead p n
    rw [hmiss] at h ⊢
    exact h
  obtain ⟨time, lines, htime, hread⟩ := (s.noteMiss addr).partyRead_afterReads p n
  rw [hmiss] at htime hread hwritten ⊢
  refine ⟨?_, ?_, hwritten⟩
  · rw [hread]
  · rw [hread]
    exact htime

/-- An instruction that runs as a scalar load leaves `f` of the element in its destination register. -/
theorem exec_scalarLoad {s : State} {d a : Reg} {imm : BitVec 13} {n : Nat} {p : Place} {f : Nat → Word} {i : Instr}
    (hexec : exec i s = scalarLoad s d a imm n f) (hfree : s.holdsReg s.party d = false) (hplace : s.unreachable p = false)
    (h : s.access s.accessor (s.party.dataAddress a imm) n n .read = .ok p) :
    ∃ t : State, exec i s = .next (t.finish (t.party.setReg d (f (s.valueAt p n)))) ∧
      t = { s with lines := t.lines, copies := t.copies, party := { s.party with pt := t.party.pt, score := t.party.score } } ∧
      s.party.pt ≤ t.party.pt ∧ s.writtenAt p n ≤ t.party.pt :=
  ⟨_, hexec.trans (scalarLoad_granted hplace hfree h f), s.partyRead_of_noteMiss ..⟩

/-- Settles O27: each instruction runs as a scalar load with its own extension; that of TLINFO has offset 0. -/
theorem scalarLoads : Obligations.ScalarLoads := by
  unfold Obligations.ScalarLoads
  intro s k d a imm p hfree hplace addr loads bits
  have hload {i : Instr} {n : Nat} {f : Nat → Word} (hexec : exec i s = scalarLoad s d a imm n f) :
      loads i addr n (f (s.valueAt p n)) := exec_scalarLoad hexec hfree hplace
  refine ⟨hload (f := fun v => (BitVec.ofNat 8 v).signExtend 64) rfl, hload (f := BitVec.ofNat 64) rfl,
    hload (f := fun v => (BitVec.ofNat 16 v).signExtend 64) rfl, hload (f := BitVec.ofNat 64) rfl,
    hload (f := fun v => (BitVec.ofNat 32 v).signExtend 64) rfl, hload (f := BitVec.ofNat 64) rfl,
    hload (f := BitVec.ofNat 64) rfl, fun haccess => ?_⟩
  have haddress : s.party.dataAddress a 0 = s.party.reg a := BitVec.add_zero _
  exact exec_scalarLoad (f := BitVec.ofNat 64) rfl hfree hplace (haddress.symm ▸ haccess)

/-! ### Stores -/

/-- Where no SEMACQ waits, a store is its logical side, its write, and the looks of the watchers of WADDR. -/
theorem State.partyStore_split {s : State} (h : s.NoSemacq) (p : Place) (bs : List Byte) :
    ∃ t, LogicalOnly s t ∧ LogicalOnly (t.writePlace p bs) (s.partyStore p bs) := by
  have hstill : ((s.writeAs s.party.agent p bs).1.watchAll).retestAll = (s.writeAs s.party.agent p bs).1.watchAll :=
    State.retestAll_of_noSemacq (h.of_parties (s.writeAs_parties ..)).watchAll
  refine ⟨(s.noteWrite s.party.agent p bs.length).1, s.noteWrite_logicalOnly (by simp [Party.agent]) p bs.length, ?_⟩
  unfold State.partyStore State.storeAs
  dsimp only
  rw [hstill]
  exact (State.watchAll_logicalOnly _).trans (State.atTime_logicalOnly ..)

theorem State.pt_le_partyStore (s : State) (p : Place) (bs : List Byte) : s.party.pt ≤ (s.partyStore p bs).party.pt :=
  s.le_writeTime s.party.pt 0 p bs.length

section
variable {s t u : State} {n : Nat} (v : Word) (hlogical : LogicalOnly s t)
include hlogical

/-- A store to memory leaves the scratchpads and the bytes of other sectors, and where no sector changes its key slot it is the
store of its bytes. -/
theorem LogicalOnly.stored_phys {pa key home : Nat} (hn : 0 < n)
    (hwritten : LogicalOnly (t.writePlace (.phys pa key home) (toBytes n v.toNat)) u) (hshort : n < 64) :
    u.groups = s.groups ∧
      (∀ b, (b / 64 < pa / 64 ∨ (pa + n - 1) / 64 < b / 64) → byteAt u.mem b = byteAt s.mem b) ∧
      (s.sameKey pa n key = true → ∀ b, byteAt u.mem b =
        if pa ≤ b ∧ b < pa + n then v.extractLsb' (8 * (b - pa)) 8 else byteAt s.mem b) := by
  have hlength := toBytes_length n v.toNat
  have hmem : u.mem = (t.writePhys pa (toBytes n v.toNat) key).mem := hwritten.mem
  refine ⟨?_, fun b hb => ?_, fun hkey b => ?_⟩
  · obtain ⟨mem, tags, hwrite⟩ := t.writePhys_frame pa (hlength.trans_lt hshort) key
    rw [hwritten.groups, State.writePlace, hwrite, hlogical.groups]
  · rw [hmem, State.byteAt_writePhys_outside _ (List.ne_nil_of_length_pos (hlength.symm ▸ hn)) _ (hlength.symm ▸ hb), hlogical.mem]
  · rw [hmem, State.writePhys_same (by rw [hlength, hlogical.sameKey, hkey]), ← hlogical.mem]
    exact byteAt_writeBytes_toBytes ..

/-- A store to a scratchpad changes its bytes there, and of its poison the units it wholly writes. -/
theorem LogicalOnly.stored_spad {l g off : Nat} (hwritten : LogicalOnly (t.writePlace (.spad l g off) (toBytes n v.toNat)) u) :
    u.mem = s.mem ∧ u.tags = s.tags ∧ (∀ l' g', l' ≠ l ∨ g' ≠ g → u.group? l' g' = s.group? l' g') ∧
      ∀ gr, s.group? l g = some gr → ∃ gr', u.group? l g = some gr' ∧
        gr' = { gr with spad := gr'.spad
                        bad := gr.bad.filter fun x => !(decide (off ≤ 4 * x) && decide (4 * x + 4 ≤ off + n)) } ∧
        ∀ b, byteAt gr'.spad b = if off ≤ b ∧ b < off + n then v.extractLsb' (8 * (b - off)) 8 else byteAt gr.spad b := by
  obtain ⟨groups, hwrite⟩ := t.writePlace_spad_frame l g off (toBytes n v.toNat)
  refine ⟨?_, ?_, fun l' g' hother => ?_, fun gr hgr => ⟨gr.written off (toBytes n v.toNat), ?_, ?_, fun b => ?_⟩⟩
  · rw [hwritten.mem, hwrite, hlogical.mem]
  · rw [hwritten.tags, hwrite, hlogical.tags]
  · rw [hwritten.group?, State.group?_writePlace_other _ hother, hlogical.group?]
  · rw [hwritten.group?, State.group?_writePlace_same (by rw [hlogical.group?, hgr])]
  · rw [Group.written, toBytes_length]
  · exact byteAt_writeBytes_toBytes ..

end

/-- The frame of a store shorter than a sector. -/
theorem LogicalOnly.stored_frame {s t u : State} (hlogical : LogicalOnly s t) {p : Place} {bs : List Byte} (h : bs.length < 64)
    (hwritten : LogicalOnly (t.writePlace p bs) u) :
    u = { s with party := u.party, others := u.others, mem := u.mem, tags := u.tags, groups := u.groups, copies := u.copies
                 lines := u.lines, hostFlags := u.hostFlags } := by
  obtain ⟨mem, tags, groups, hwrite⟩ := t.writePlace_frame p h
  rw [hwrite] at hwritten
  obtain ⟨_, _, _, _, _, rfl⟩ := hlogical
  obtain ⟨_, _, _, _, _, rfl⟩ := hwritten
  rfl

theorem State.NoSemacq.noteMiss {s : State} (h : s.NoSemacq) (addr : Word) : (s.noteMiss addr).NoSemacq := by
  obtain ⟨copies, score, hmiss⟩ := s.noteMiss_eq addr
  rw [hmiss]
  exact State.NoSemacq.with_party (s := { s with copies := copies }) h rfl

/-- Of the party in focus a store changes the wait, the logical time, which it raises, and the score. -/
theorem State.partyStore_of_noteMiss (s : State) (addr : Word) (p : Place) (bs : List Byte) :
    let t := (s.noteMiss addr).partyStore p bs
    t.party = { s.party with wait := t.party.wait, pt := t.party.pt, score := t.party.score } ∧ s.party.pt ≤ t.party.pt := by
  obtain ⟨copies, score, hmiss⟩ := s.noteMiss_eq addr
  obtain ⟨time, wait, hstore⟩ := (s.noteMiss addr).partyStore_sameParty p bs
  have htime := (s.noteMiss addr).pt_le_partyStore p bs
  rw [hmiss] at hstore htime ⊢
  refine ⟨?_, htime⟩
  rw [hstore]

/-- Settles O28: each instruction runs as a scalar store, whose bytes are the low bytes of its register and whose frame is that
of a write shorter than a sector. -/
theorem scalarStores : Obligations.ScalarStores := by
  unfold Obligations.ScalarStores
  intro s k d a imm p hplace hwaits addr v stores
  have hstore {i : Instr} {n : Nat} (hexec : exec i s = scalarStore s d a imm n) (hpos : 0 < n) (hshort : n < 64) :
      stores i n := by
    intro haccess
    obtain ⟨w, hmiss, hwritten⟩ := State.partyStore_split (State.NoSemacq.noteMiss hwaits addr) p (toBytes n v.toNat)
    have hlogical := (s.noteMiss_logicalOnly addr).trans hmiss
    obtain ⟨hparty, htime⟩ := s.partyStore_of_noteMiss addr p (toBytes n v.toNat)
    have hfinished := hwritten.trans (State.finish_logicalOnly _ ((s.noteMiss addr).partyStore p (toBytes n v.toNat)).party)
    refine ⟨_, hexec.trans (scalarStore_granted hplace haccess), congrArg (fun q : Party => q.retire (q.pc + 4)) hparty, htime,
      hlogical.stored_frame ((toBytes_length ..).trans_lt hshort) hfinished, ?_⟩
    cases p with
    | phys pa key home => exact hlogical.stored_phys v hpos hfinished hshort
    | spad l g off => exact hlogical.stored_spad v hfinished
  exact ⟨hstore rfl (by decide) (by decide), hstore rfl (by decide) (by decide), hstore rfl (by decide) (by decide),
    hstore rfl (by decide) (by decide)⟩

end Sys2Proof.Machine
end

section
/-!
SUPPORT. Waits that end where they issue, begin, or poll; SEMACQ, SEMREL, WADDR and the fences by the first test of their wait (R37 to
R39, R203, R204, R207 to R209, R211).
-/
namespace Sys2Proof.Machine

/-! ### What a wait comes to at its issue (R37 to R39) -/

section
variable {s r t : State} {w : Wait} {d : Reg} {dl : BitVec 2} {st : Word}

theorem escalates_of_poll {e : Deadline} (h : e.poll = true) (expired : Bool) (count : BitVec 8) (xlim : Nat) :
    escalates e expired count xlim = false := by simp [escalates, h]

/-- A wait that ends without an expiry, or as a poll, leaves `State.endedWith`, after the signals that it joins. -/
theorem State.endWith_eq_endedWith (hdest : w.dest = d) (hdeadline : w.deadline = s.deadline dl)
    (h : isExpiry st = false ∨ (s.deadline dl).poll = true) :
    t.endWith w st = s.endedWith (if w.joins st then t.catchUp else t) d dl st := by
  rcases h with h | h
  · rw [State.endWith_of_ended _ _ h, hdest, hdeadline]
    rfl
  · rw [State.endWith, hdest, hdeadline, State.endWait_eq, escalates_of_poll h]
    simp only [countAfter, h, if_true, State.endedWith]
    rfl

theorem State.startWait_endedWith (hdest : w.dest = d) (hdeadline : w.deadline = s.deadline dl)
    (h : isExpiry st = false) (hattempt : r.attempt w = .ended t st) :
    r.startWait w = .next (s.endedWith (if w.joins st then t.catchUp else t) d dl st) := by
  rw [State.startWait_ended hattempt, State.endWith_eq_endedWith hdest hdeadline (.inl h)]

theorem State.startWait_begins (hattempt : r.attempt w = .waiting) (hkind : w.kind ≠ .barrier)
    (hpoll : w.deadline.poll = false) :
    r.startWait w = .next { r with party := { r.party with wait := some w }, ids := r.ids + 1 } := by
  rw [State.startWait_waiting hattempt, if_neg hkind, hpoll]
  rfl

end

/-- Only barriers, TWAIT and fences come after signals that they do not read. -/
theorem Wait.joins_of_semaphore {w : Wait} (hkind : w.kind = .semacq ∨ w.kind = .waddr) (st : Word) : w.joins st = false := by
  rcases hkind with hkind | hkind <;> simp [Wait.joins, hkind]

/-! ### SEMACQ, SEMREL and WADDR (R207 to R209) -/

theorem State.attempt_semacq {s : State} {w : Wait} (hkind : w.kind = .semacq) : s.attempt w = s.tryAcquire w := by
  simp [State.attempt, hkind]

theorem State.attempt_waddr {s : State} {w : Wait} (hkind : w.kind = .waddr) : s.attempt w = s.tryWatch s.accessor w := by
  simp [State.attempt, hkind, State.accessor]

section
variable {s : State} {w : Wait} {p : Place} {at_ n : Word} (hat : w.w1 = at_) (hn : w.w2 = n)
  (hplace : s.unreachable p = false) (hread : s.access s.accessor at_ 8 8 .read = .ok p)
include hat hn hplace hread

/-- Where the word can be read, SEMACQ finds the word holding less than its count, or asks to write it. -/
theorem State.semaphore_of_read :
    s.semaphore s.party w = if s.valueAt p 8 < n.toNat then .ok none
      else (s.access s.accessor at_ 8 8 .update).map fun q => some (q, s.valueAt q 8) := by
  have h : s.semaphore s.party w = match s.access s.accessor w.w1 8 8 .read with
    | .error d => .error d
    | .ok q => if s.unreachable q ∨ s.valueAt q 8 < w.w2.toNat then .ok none
      else (s.access s.accessor w.w1 8 8 .update).map fun q => some (q, s.valueAt q 8) := rfl
  rw [h, hat, hn, hread]
  simp [hplace]

theorem State.tryAcquire_of_less (h : s.valueAt p 8 < n.toNat) : s.tryAcquire w = .waiting := by
  rw [State.tryAcquire, State.semaphore_of_read hat hn hplace hread, if_pos h]

theorem State.tryAcquire_of_enough (hupdate : s.access s.accessor at_ 8 8 .update = .ok p) (h : n.toNat ≤ s.valueAt p 8) :
    s.tryAcquire w = .ended ((s.partyRead p 8).partyStore p (toBytes 8 (s.valueAt p 8 - n.toNat))) stOk := by
  rw [State.tryAcquire, State.semaphore_of_read hat hn hplace hread, if_neg (Nat.not_lt.mpr h), hupdate, hn]
  rfl

theorem State.tryWatch_of_read (hmet : w.met = false) (hrestored : w.restored = false) :
    s.tryWatch s.accessor w =
      if BitVec.ofNat 64 (s.valueAt p 8) = n then .waiting else .ended (s.partyRead p 8) stOk := by
  simp [State.tryWatch, hmet, hrestored, hat, hn, hread, hplace]

end

/-- The time of a store is no earlier than its agent's, off the host path. -/
theorem State.le_storeAs_time (s : State) {a : Agent} (hpath : a.path ≠ 5) (p : Place) (bs : List Byte) :
    a.time ≤ (s.storeAs a p bs).2 := by
  have hearliest : s.earliest a = a.time := if_neg hpath
  exact hearliest ▸ State.le_writeTime ..

/-- Settles O33: SEMACQ and WADDR by the first test of their wait, SEMREL by its one atomic. -/
theorem semaphores : Obligations.Semaphores := by
  unfold Obligations.Semaphores
  intro s k d a b dl p hplace at_ n word waits
  let acquire : Wait := s.newWait .semacq (.semacq k d a dl b) d dl at_ n
  let watch : Wait := s.newWait .waddr (.waddr k d a dl b) d dl at_ n
  refine ⟨fun hmay hread hupdate henough => ?_, fun hmay hread hless hpoll => ?_, fun hupdate => ?_, fun hmay hread =>
    ⟨fun hdiffers => ?_, fun hsame hpoll => ?_⟩⟩
  · have hattempt : s.attempt acquire = .ended ((s.partyRead p 8).partyStore p (toBytes 8 (word - n.toNat))) stOk := by
      rw [State.attempt_semacq rfl, State.tryAcquire_of_enough (at_ := at_) (n := n) rfl rfl hplace hread hupdate henough]
    show execSemacq k d a dl b s = _
    rw [execSemacq, waiting_of_mayWait hmay, State.startWait_endedWith rfl rfl isExpiry_ok hattempt,
      Wait.joins_of_semaphore (.inl rfl)]
    rfl
  · have hattempt : s.attempt acquire = .waiting := by
      rw [State.attempt_semacq rfl, State.tryAcquire_of_less (at_ := at_) (n := n) rfl rfl hplace hread hless]
    refine ⟨acquire, ?_, rfl, rfl, rfl, rfl, rfl⟩
    show execSemacq k d a dl b s = _
    rw [execSemacq, waiting_of_mayWait hmay,
      State.startWait_begins hattempt (show WaitKind.semacq ≠ .barrier by decide) hpoll]
  · let x := s.storeAs { s.party.agent with time := max s.party.pt (s.writtenAt p 8) } p (toBytes 8 (word + n.toNat))
    have hrelease : s.release s.accessor s.party.agent at_ n.toNat = .ok x := by
      simp only [State.release, State.writePlaceOf, hupdate, hplace]
      rfl
    refine ⟨x.1.atTime x.2, ?_, ?_, rfl, rfl⟩
    · show (match s.release s.accessor s.party.agent at_ n.toNat with
        | .error d => raiseDeny s d at_
        | .ok (t, time) => Host.Outcome.next ((t.atTime time).finish (t.atTime time).party)) = _
      rw [hrelease]
    · exact (Nat.le_max_right s.party.pt _).trans (State.le_storeAs_time s (a := { s.party.agent with time := max s.party.pt (s.writtenAt p 8) }) nofun p _)
  · have hattempt : s.attempt watch = .ended (s.partyRead p 8) stOk := by
      rw [State.attempt_waddr rfl, State.tryWatch_of_read (at_ := at_) (n := n) rfl rfl hplace hread rfl rfl, if_neg hdiffers]
    show execWaddr k d a dl b s = _
    rw [execWaddr, waiting_of_mayWait hmay, State.startWait_endedWith rfl rfl isExpiry_ok hattempt,
      Wait.joins_of_semaphore (.inr rfl)]
    rfl
  · have hattempt : s.attempt watch = .waiting := by
      rw [State.attempt_waddr rfl, State.tryWatch_of_read (at_ := at_) (n := n) rfl rfl hplace hread rfl rfl, if_pos hsame]
    refine ⟨watch, ?_, rfl, rfl, rfl, rfl, rfl⟩
    show execWaddr k d a dl b s = _
    rw [execWaddr, waiting_of_mayWait hmay,
      State.startWait_begins hattempt (show WaitKind.waddr ≠ .barrier by decide) hpoll]

/-! ### Fences (R211) -/

/-- A fence that ends OK comes after the ends of what it waited for (R308). -/
theorem Wait.joins_of_fence {w : Wait}
    (hkind : w.kind = .fence ∨ w.kind = .xfence ∨ w.kind = .sysfence ∨ w.kind = .sysfenceArray) : w.joins stOk = true := by
  rcases hkind with hkind | hkind | hkind | hkind <;> simp [Wait.joins, hkind, stOk, stPartial]

section
variable {s : State} {w : Wait}
  (hdrained : (fencePaths w).all (s.pathDrained s.party w.order w.seq) = true)
include hdrained

theorem State.attempt_fence (hkind : w.kind = .fence) : s.attempt w = .ended s stOk := by
  simp [State.attempt, hkind, hdrained]

theorem State.attempt_xfence (hkind : w.kind = .xfence) : s.attempt w = .ended (s.crossed w) stOk := by
  simp [State.attempt, hkind, hdrained]

theorem State.attempt_sysfence (hkind : w.kind = .sysfence ∨ w.kind = .sysfenceArray) :
    s.attempt w = .ended (s.hostBar s.party) stOk := by
  rcases hkind with hkind | hkind <;> simp [State.attempt, hkind, hdrained]

end

/-- A fence whose test ends OK, ends the instruction OK after every signal so far. -/
theorem State.startWait_fence {s t : State} {w : Wait} {d : Reg} {dl : BitVec 2} (hdest : w.dest = d)
    (hdeadline : w.deadline = s.deadline dl)
    (hkind : w.kind = .fence ∨ w.kind = .xfence ∨ w.kind = .sysfence ∨ w.kind = .sysfenceArray)
    (hattempt : s.attempt w = .ended t stOk) : s.startWait w = .next (s.endedWith t.catchUp d dl 0) := by
  rw [State.startWait_endedWith hdest hdeadline isExpiry_ok hattempt, Wait.joins_of_fence hkind]
  rfl

theorem State.unissued_of_idle {s : State} {p : Party} (h : p.queue = []) : s.unissued p = [] := by
  simp [State.unissued, h]

/-- No command of a kind that the owner started before is left. -/
theorem none_before {α : Type} (xs : List α) (owned kind : α → Bool) (id : α → Nat) (seq : Nat) :
    (!(xs.any fun x => owned x && decide (id x < seq) && kind x)) = true ↔
      ∀ x ∈ xs, owned x = true → kind x = true → seq ≤ id x := by
  simp only [Bool.not_eq_true', List.any_eq_false, Bool.and_eq_true, decide_eq_true_eq]
  refine forall₂_congr fun x _ => ⟨fun h howned hkind => ?_, fun h hall => ?_⟩
  · exact Nat.not_lt.mp fun hlt => h ⟨⟨howned, hlt⟩, hkind⟩
  · exact Nat.not_lt.mpr (h hall.1.1 hall.2) hall.1.2

/-- A fence whose paths are drained ends OK, after what it bars and after every signal so far. -/
theorem fence_ends {s : State} {k : Bool} {d : Reg} {m : BitVec 6} {dl : BitVec 2} (hmay : s.mayWait d)
    (hpaths : ∀ i, i < 6 → m.getLsbD i = true → s.pathDrained s.party s.party.lruns s.ids i = true) :
    exec (.fence k d m dl) s = .next (s.endedWith s.catchUp d dl 0) := by
  have hdrained : ((upTo 0 6).filter fun i => m.getLsbD i).all (s.pathDrained s.party s.party.lruns s.ids) = true := by
    refine List.all_eq_true.mpr fun i hi => ?_
    obtain ⟨hi, hbit⟩ := List.mem_filter.mp hi
    exact hpaths i ((mem_upTo ..).mp hi).2 hbit
  let w : Wait := s.newWait .fence (.fence k d m dl) d dl 0 0
  show execFence k d m dl s = _
  rw [execFence, waiting_of_mayWait hmay,
    State.startWait_fence (w := w) (d := d) rfl rfl (.inl rfl) (State.attempt_fence hdrained rfl)]

theorem xfence_ends {s : State} {k : Bool} {d : Reg} {ca cb : BitVec 6} {dl : BitVec 2} (hmay : s.mayWait d)
    (hpath : s.pathDrained s.party s.party.lruns s.ids ca.toNat = true) :
    exec (.xfence k d ca dl cb) s = .next (s.endedWith (s.crossBar s.party ca.toNat cb.toNat).catchUp d dl 0) := by
  have hdrained : [ca.toNat].all (s.pathDrained s.party s.party.lruns s.ids) = true := by simpa using hpath
  let w : Wait := s.newWait .xfence (.xfence k d ca dl cb) d dl 0 0
  show execXfence k d ca dl cb s = _
  rw [execXfence, waiting_of_mayWait hmay,
    State.startWait_fence (w := w) (d := d) rfl rfl (.inr (.inl rfl)) (State.attempt_xfence hdrained rfl)]
  rfl

theorem sysfences_end {s : State} {k : Bool} {d : Reg} {dl : BitVec 2} (hmay : s.mayWait d)
    (hpaths : ∀ i, i < 6 → s.pathDrained s.party s.party.lruns s.ids i = true) :
    exec (.sysfence k d dl) s = .next (s.endedWith (s.hostBar s.party).catchUp d dl 0) ∧
      exec (.sysfenceArray k d dl) s = .next (s.endedWith (s.hostBar s.party).catchUp d dl 0) := by
  have hdrained : (upTo 0 6).all (s.pathDrained s.party s.party.lruns s.ids) = true :=
    List.all_eq_true.mpr fun i hi => hpaths i ((mem_upTo ..).mp hi).2
  constructor
  · let w : Wait := s.newWait .sysfence (.sysfence k d dl) d dl 0 0
    show execSysfence k d dl s = _
    rw [execSysfence, waiting_of_mayWait hmay,
      State.startWait_fence (w := w) (d := d) rfl rfl (.inr (.inr (.inl rfl))) (State.attempt_sysfence hdrained (.inl rfl))]
  · let w : Wait := s.newWait .sysfenceArray (.sysfenceArray k d dl) d dl 0 0
    show execSysfenceArray k d dl s = _
    rw [execSysfenceArray, waiting_of_mayWait hmay,
      State.startWait_fence (w := w) (d := d) rfl rfl (.inr (.inr (.inr rfl))) (State.attempt_sysfence hdrained (.inr rfl))]

/-- Settles O34: a fence ends by its first test, which looks at the paths that it covers one by one. -/
theorem fences : Obligations.Fences := by
  unfold Obligations.Fences
  refine ⟨?_, fun s p order seq hqueue => ⟨?_, ?_, ?_, ?_, ?_, rfl⟩⟩
  · intro s k d m ca cb dl hmay drained barred host
    exact ⟨fence_ends hmay, xfence_ends hmay, sysfences_end hmay⟩
  · simp [State.pathDrained, State.unissued_of_idle hqueue]
  · exact (none_before s.commands (fun c => c.owners.contains p.pid) (fun c => c.kind == 0) ..).trans (by simp)
  · exact (none_before s.commands (fun c => c.owners.contains p.pid) (fun c => c.kind == 1 || c.kind == 2) ..).trans (by simp)
  · simp [State.pathDrained]
  · simp [State.pathDrained]

end Sys2Proof.Machine
end

section
/-!
SUPPORT. What stores leave alone whoever makes them: all but memory, its poison and tags, scratchpad bytes, the logical side of the
access, and the parties (R207, R209, R304, R318, R338).
-/
namespace Sys2Proof.Machine

/-- A group without its scratchpad's bytes and poison. -/
def Group.unwritten (gr : Group) : Group := { gr with spad := [], bad := [] }

/-- Two states that differ at most in what stores change. -/
structure Stored (s t : State) : Prop where
  frame : ∃ party others mem tags poison groups copies lines flags time,
    t = { s with party := party, others := others, mem := mem, tags := tags, poison := poison, groups := groups, copies := copies
                 lines := lines, hostFlags := flags, hostTime := time }
  group : ∀ l n, (t.group? l n).map Group.unwritten = (s.group? l n).map Group.unwritten

theorem Stored.refl (s : State) : Stored s s := ⟨⟨_, _, _, _, _, _, _, _, _, _, rfl⟩, fun _ _ => rfl⟩

theorem Stored.trans {s t u : State} (h : Stored s t) (k : Stored t u) : Stored s u := by
  refine ⟨?_, fun l n => (k.group l n).trans (h.group l n)⟩
  obtain ⟨_, _, _, _, _, _, _, _, _, _, rfl⟩ := h.frame
  obtain ⟨_, _, _, _, _, _, _, _, _, _, rfl⟩ := k.frame
  exact ⟨_, _, _, _, _, _, _, _, _, _, rfl⟩

theorem Stored.foldl {α : Type} {f : State → α → State} (hf : ∀ s a, Stored s (f s a)) (l : List α) (s : State) :
    Stored s (l.foldl f s) := by
  induction l generalizing s with
  | nil => exact .refl s
  | cons a l ih => exact (hf s a).trans (ih _)

/-- A change of the logical side or of parties. -/
theorem LogicalOnly.stored {s t : State} (h : LogicalOnly s t) : Stored s t := by
  obtain ⟨_, _, _, _, _, rfl⟩ := h
  exact ⟨⟨_, _, _, _, _, _, _, _, _, _, rfl⟩, fun _ _ => rfl⟩

section
variable {s t : State} (h : Stored s t)
include h

theorem Stored.launches : t.launches = s.launches := by
  obtain ⟨_, _, _, _, _, _, _, _, _, _, rfl⟩ := h.frame
  rfl

theorem Stored.launch? (i : Nat) : t.launch? i = s.launch? i := by rw [State.launch?, h.launches, State.launch?]

theorem Stored.lantern : t.lantern = s.lantern := by
  obtain ⟨_, _, _, _, _, _, _, _, _, _, rfl⟩ := h.frame
  rfl

end

/-! ### A place written -/

theorem State.putGroup_unwritten {s : State} {gr x : Group} {l n : Nat} (hx : s.group? l n = some x)
    (hsame : gr.unwritten = x.unwritten) (l' n' : Nat) :
    ((s.putGroup gr).group? l' n').map Group.unwritten = (s.group? l' n').map Group.unwritten := by
  have hlaunch : gr.launch = x.launch := show gr.unwritten.launch = x.unwritten.launch by rw [hsame]
  have hnumber : gr.number = x.number := show gr.unwritten.number = x.unwritten.number by rw [hsame]
  obtain ⟨rfl, rfl⟩ := State.group?_names hx
  rw [← hlaunch, ← hnumber] at hx
  by_cases hother : l' ≠ gr.launch ∨ n' ≠ gr.number
  · rw [State.group?_putGroup_other s hother]
  · obtain ⟨rfl, rfl⟩ : l' = gr.launch ∧ n' = gr.number := by omega
    rw [State.group?_putGroup_same (Option.isSome_of_eq_some hx), hx, Option.map_some, Option.map_some, hsame]

theorem State.rekey_stored (s : State) (sector key : Nat) : Stored s (s.rekey sector key) := by
  obtain ⟨mem, tags, h⟩ := s.rekey_frame sector key
  rw [h]
  exact ⟨⟨_, _, _, _, _, _, _, _, _, _, rfl⟩, fun _ _ => rfl⟩

theorem State.writePhys_stored (s : State) (pa : Nat) (bs : List Byte) (key : Nat) : Stored s (s.writePhys pa bs key) :=
  (Stored.foldl (f := fun s x => s.rekey x key) (fun s x => s.rekey_stored x key) (sectorsOf pa bs.length) s).trans
    ⟨⟨_, _, _, _, _, _, _, _, _, _, rfl⟩, fun _ _ => rfl⟩

theorem State.writePlace_stored (s : State) (p : Place) (bs : List Byte) : Stored s (s.writePlace p bs) := by
  cases p with
  | phys pa key home => exact s.writePhys_stored pa bs key
  | spad l g off =>
    cases h : s.group? l g with
    | none =>
      rw [State.writePlace_spad_absent h]
      exact .refl s
    | some gr =>
      rw [State.writePlace_spad h]
      exact ⟨⟨_, _, _, _, _, _, _, _, _, _, rfl⟩, State.putGroup_unwritten h rfl⟩

theorem State.poisonByte_stored (s : State) (p : Place) : Stored s (s.poisonByte p) := by
  unfold State.poisonByte
  split
  · exact ⟨⟨_, _, _, _, _, _, _, _, _, _, rfl⟩, fun _ _ => rfl⟩
  · split
    · rename_i h
      exact ⟨⟨_, _, _, _, _, _, _, _, _, _, rfl⟩, State.putGroup_unwritten h rfl⟩
    · exact .refl s

theorem State.poisonBytes_stored (s : State) (p : Place) (bad : List Bool) : Stored s (s.poisonBytes p bad) := by
  unfold State.poisonBytes
  split
  · exact Stored.foldl (fun s _ => s.poisonByte_stored _) _ _
  · exact .refl s

/-! ### An agent's write, and what its watchers and takers do -/

theorem State.noteWrite_stored (s : State) (a : Agent) (p : Place) (n : Nat) : Stored s (s.noteWrite a p n).1 := by
  have hstamps (t : Nat) : Stored s (s.stampLines t p n) :=
    Stored.foldl (f := fun s x => s.putLine { s.lineAt x with wt := t, rl := Nat.max (s.lineAt x).rl t })
      (fun _ _ => ⟨⟨_, _, _, _, _, _, _, _, _, _, rfl⟩, fun _ _ => rfl⟩) _ _
  refine (hstamps (s.writeTime (s.earliest a) a.path p n)).trans ?_
  unfold State.noteWrite State.noteHost
  dsimp only
  split
  · exact ⟨⟨_, _, _, _, _, _, _, _, _, _, rfl⟩, fun _ _ => rfl⟩
  · exact ⟨⟨_, _, _, _, _, _, _, _, _, _, rfl⟩, fun _ _ => rfl⟩

theorem State.writeAs_stored (s : State) (a : Agent) (p : Place) (bs : List Byte) : Stored s (s.writeAs a p bs).1 :=
  (s.noteWrite_stored a p bs.length).trans (State.writePlace_stored ..)

theorem State.writePart_stored (s : State) (p : Place) (bs : List Byte) : Stored s (s.writePart p bs) := s.writeAs_stored ..

theorem State.retest_stored (s : State) (pid : Nat) : Stored s (s.retest pid) := by
  unfold State.retest
  split
  · exact .refl s
  · split
    · exact .refl s
    · split
      · split
        · exact ((s.writeAs_stored ..).trans (State.putParty_logicalOnly ..).stored).trans (State.watchAll_logicalOnly _).stored
        · exact .refl s
      · exact .refl s

theorem State.storeAs_stored (s : State) (a : Agent) (p : Place) (bs : List Byte) : Stored s (s.storeAs a p bs).1 :=
  ((s.writeAs_stored a p bs).trans (State.watchAll_logicalOnly _).stored).trans (Stored.foldl State.retest_stored _ _)

/-! ### The part's own structures, and ranges that engines write -/

theorem State.putBytes_stored {s t : State} {sp : Space} {fuel va : Nat} {bs : List Byte}
    (e : s.putBytes sp fuel va bs = .ok t) : Stored s t := by
  induction fuel generalizing s va bs with
  | zero => cases e; exact .refl _
  | succ fuel ih =>
    unfold State.putBytes at e
    split at e
    · cases e; exact .refl _
    · split at e
      · cases e
      · split at e
        · cases e
        · exact (State.writePart_stored ..).trans (ih e)

theorem State.arenaWrite_stored {s t : State} {sp : Space} {va : Nat} {bs : List Byte} (e : s.arenaWrite sp va bs = .ok t) :
    Stored s t := State.putBytes_stored e

theorem State.updateRecord_stored (s : State) (sp : Space) (va : Nat) (bs : List Byte) : Stored s (s.updateRecord sp va bs) := by
  unfold State.updateRecord
  split
  · rename_i e
    exact State.arenaWrite_stored e
  · exact .refl s

theorem State.updateRecord_parties (s : State) (sp : Space) (va : Nat) (bs : List Byte) :
    (s.updateRecord sp va bs).parties = s.parties := by
  unfold State.updateRecord
  split
  · rename_i e
    exact State.arenaWrite_parties e
  · rfl

theorem writeRange_stored {ac : Accessor} {fuel : Nat} {s : State} {a : Agent} {va : Nat} {bs : List Byte} {bad : List Bool}
    {w : Written} (e : writeRange ac fuel s a va bs bad = .ok w) : Stored s w.s := by
  induction fuel generalizing s a va bs bad w with
  | zero => cases e; exact .refl _
  | succ fuel ih =>
    unfold writeRange at e
    split at e
    · cases e; exact .refl _
    · split at e
      · cases e
      · rename_i p k _
        obtain ⟨v, hv, rfl⟩ := map_ok e
        refine Stored.trans ?_ (show Stored _ v.s from ih hv)
        by_cases hgone : s.unreachable p = true
        · simp only [hgone, if_true]
          exact .refl s
        · simp only [hgone]
          exact (s.storeAs_stored ..).trans (State.poisonBytes_stored ..)

end Sys2Proof.Machine
end

section
/-!
SUPPORT. Barrier records of a resident group and of its logical cluster, what an arrival leaves alone, and the barrier instructions
(R199 to R205, R291 to R293, R296).
-/
namespace Sys2Proof.Machine

/-! ### What a change of barrier records leaves alone -/

/-- No party moves and the counter stands. -/
structure SetsRecords (s t : State) : Prop where
  parties : t.parties = s.parties
  lantern : t.lantern = s.lantern

theorem SetsRecords.refl (s : State) : SetsRecords s s := ⟨rfl, rfl⟩

theorem SetsRecords.trans {s t u : State} (h : SetsRecords s t) (k : SetsRecords t u) : SetsRecords s u :=
  ⟨k.parties.trans h.parties, k.lantern.trans h.lantern⟩

theorem SetsRecords.foldl {α : Type} {f : State → α → State} (hf : ∀ s a, SetsRecords s (f s a)) (l : List α) (s : State) :
    SetsRecords s (l.foldl f s) := by
  induction l generalizing s with
  | nil => exact .refl s
  | cons a l ih => exact (hf s a).trans (ih _)

section
variable {s t : State} (h : SetsRecords s t)
include h

theorem SetsRecords.party : t.party = s.party := (party_others_of_parties h.parties).1

theorem SetsRecords.groupResident (l n : Nat) : t.groupResident l n = s.groupResident l n := by
  rw [State.groupResident, h.parties, State.groupResident]

end

theorem State.updateRecord_sets (s : State) (sp : Space) (va : Nat) (bs : List Byte) : SetsRecords s (s.updateRecord sp va bs) :=
  ⟨s.updateRecord_parties sp va bs, (s.updateRecord_stored sp va bs).lantern⟩

theorem State.setBarrier_sets (s : State) (l : Launch) (g : Nat) (level : Bool) (i : Nat) (b : Barrier) :
    SetsRecords s (s.setBarrier l g level i b) := by
  unfold State.setBarrier
  split
  · split
    · exact ⟨rfl, rfl⟩
    · exact .refl s
  · exact State.updateRecord_sets ..

theorem State.setRoot_sets (s : State) (l : Launch) (c i : Nat) (r : Root) : SetsRecords s (s.setRoot l c i r) := by
  unfold State.setRoot
  split
  · split
    · exact ⟨rfl, rfl⟩
    · exact .refl s
  · exact State.updateRecord_sets ..

theorem State.advanceRoot_sets (s : State) (l : Launch) (c i : Nat) : SetsRecords s (s.advanceRoot l c i) := by
  unfold State.advanceRoot
  dsimp only
  split
  · exact (s.setRoot_sets ..).trans (SetsRecords.foldl (fun s g => s.setBarrier_sets ..) _ _)
  · exact .refl s

theorem State.arriveUp_sets (s : State) (l : Launch) (g i : Nat) : SetsRecords s (s.arriveUp l g i) := by
  unfold State.arriveUp
  dsimp only
  split
  · exact (s.setRoot_sets ..).trans (State.advanceRoot_sets ..)
  · exact .refl s

theorem State.barrArrive_sets (s : State) (l : Launch) (p : Party) (sel : Word) : SetsRecords s (s.barrArrive l p sel) := by
  have hsignal : SetsRecords s (s.signalAt p.pt) := ⟨rfl, rfl⟩
  unfold State.barrArrive
  dsimp only
  split
  · exact hsignal.trans ((State.setBarrier_sets ..).trans (State.arriveUp_sets ..))
  · exact hsignal.trans (State.setBarrier_sets ..)

/-! ### BWAIT and BSYNC (R203, R204) -/

section
variable {s : State} {w : Wait} (hkind : w.kind = .barrier)
include hkind

theorem awaitPhase_standing (hstands : s.barrStands (s.home s.party) s.party w.w1 = true)
    (hphase : (s.barrier (s.home s.party) s.party.group (barLevel w.w1) (barIndex w.w1)).phase.setWidth 64 = w.w2) :
    awaitPhase s w = .next { s with party := { s.party with wait := some (w.standing s) }, ids := s.ids + 1 } := by
  have hattempt : s.attempt w = .waiting := by simp [State.attempt, hkind, hphase]
  rw [awaitPhase, if_pos hstands, State.startWait_waiting hattempt, if_pos hkind]
  rfl

/-- The end at once is no poll, and comes after every arrival so far. -/
theorem awaitPhase_atOnce (hstands : s.barrStands (s.home s.party) s.party w.w1 = false) :
    awaitPhase s w = .next
      (s.catchUp.finish (({ s.catchUp.party with xcount := 0, wait := none }.setSt 0).setReg w.dest 0)) := by
  have hjoins : Wait.joins { w with deadline := { w.deadline with poll := false } } stOk = true := by
    simp [Wait.joins, hkind, stOk, codeOf, stTimeout]
  rw [awaitPhase, hstands, if_neg Bool.false_ne_true, State.endAtOnce, State.endWith_of_ended _ _ isExpiry_ok, hjoins]
  rfl

end

/-- Settles O32: both instructions await the phase that their own state shows, BSYNC after an arrival that moves neither a party
nor the counter. -/
theorem barrierWaits : Obligations.BarrierWaits := by
  unfold Obligations.BarrierWaits
  intro s k d a dl hmay l v arrived atOnce
  let bwait : Wait := s.barrierWait (.bwait k d a dl) d a dl
  let bsync : Wait := s.barrierWait (.bsync k d a dl) d a dl
  have hbwait : exec (.bwait k d a dl) s = awaitPhase s bwait := waiting_of_mayWait hmay _
  have hbsync : exec (.bsync k d a dl) s = awaitPhase arrived bsync := waiting_of_mayWait hmay _
  have hsets : SetsRecords s arrived := s.barrArrive_sets ..
  refine ⟨fun hstands => ?_, ?_⟩
  · rw [hbwait, awaitPhase_atOnce (w := bwait) rfl hstands]
    rfl
  intro phase t0 waits
  refine ⟨fun hstands => ?_, fun hstands => ?_, fun hstands hphase => ?_⟩
  · exact ⟨bwait.standing s, hbwait.trans (awaitPhase_standing rfl hstands rfl), rfl, rfl, rfl, rfl, rfl⟩
  · rw [hbsync, awaitPhase_atOnce (w := bsync) rfl hstands]
    rfl
  · refine ⟨bsync.standing arrived,
      hbsync.trans (awaitPhase_standing rfl hstands (congrArg (BitVec.setWidth 64) hphase)), rfl, rfl, rfl, rfl, ?_⟩
    have hcounter : baseCounter arrived arrived.party (s.deadline dl).party = t0 := by
      rw [baseCounter, hsets.party, hsets.lantern]
    show { s.deadline dl with ticks := max (s.deadline dl).ticks (baseCounter arrived arrived.party (s.deadline dl).party) } = _
    rw [hcounter]

end Sys2Proof.Machine
end

section
/-!
SUPPORT. The cluster barrier: the arrival of a group at the root, and the phase that a complete root ends for every group of the
logical cluster (R25, R291 to R293).
-/
namespace Sys2Proof.Machine

theorem Table.get_set_same {α : Type} [DecidableEq α] (d : α) (t : Table α) (n : Nat) (v : α) :
    Table.get d (Table.set d t n v) n = v := by
  rw [Table.set, Table.get_append fun e he => by simpa using Nat.ne_of_lt (by simpa using (List.mem_filter.mp he).2)]
  have hrest : Table.get d (t.filter fun e => n < e.1) n = d :=
    Table.get_of_forall_ne fun e he => Nat.ne_of_gt (by simpa using (List.mem_filter.mp he).2)
  by_cases h : v = d
  · rw [if_pos h, List.nil_append, hrest, h]
  · rw [if_neg h]
    simp [Table.get]

/-! ### The record of a resident group -/

section
variable {s t : State} {l : Launch} {g i : Nat} {gr : Group}

theorem Barrier.advance_eq (b : Barrier) : b.advance =
    if b.member &&& ~~~b.arrived = 0 ∧ b.earr = b.eexp ∧ (b.arrived ≠ 0 ∨ b.eexp ≠ 0) then
      { b with arrived := 0, eexp := 0, earr := 0, phase := b.phase + 1 }
    else b := by
  simp [Barrier.advance, Barrier.completes, and_assoc]

theorem State.barrier_resident (hresident : s.groupResident l.id g = true) (hgr : s.group? l.id g = some gr) {level : Bool}
    {b : Barrier} (hb : (if level then gr.cleaf else gr.leaf)[i]? = some b) : s.barrier l g level i = b := by
  rw [State.barrier, if_pos hresident, hgr]
  simp only [hb, Option.getD_some]

theorem State.setBarrier_resident (hresident : s.groupResident l.id g = true) (hgr : s.group? l.id g = some gr) (level : Bool)
    (b : Barrier) : s.setBarrier l g level i b =
      s.putGroup (if level then { gr with cleaf := gr.cleaf.set i b } else { gr with leaf := gr.leaf.set i b }) := by
  rw [State.setBarrier, if_pos hresident, hgr]

/-- A resident group that has a cluster-leaf record of a number, and what it holds. -/
def State.cleafHolds (s : State) (l : Launch) (g i : Nat) (b : Barrier) : Prop :=
  s.groupResident l.id g = true ∧ ∃ gr, s.group? l.id g = some gr ∧ gr.cleaf[i]? = some b

theorem State.cleafHolds.barrier {b : Barrier} (h : s.cleafHolds l g i b) : s.barrier l g true i = b := by
  obtain ⟨hresident, gr, hgr, hb⟩ := h
  exact State.barrier_resident (level := true) hresident hgr hb

theorem State.cleafHolds.setBarrier_same {b : Barrier} (h : s.cleafHolds l g i b) (b' : Barrier) :
    (s.setBarrier l g true i b').cleafHolds l g i b' := by
  obtain ⟨hresident, gr, hgr, hb⟩ := h
  have hindex : i < gr.cleaf.length := (List.getElem?_eq_some_iff.mp hb).1
  refine ⟨((s.setBarrier_sets ..).groupResident ..).trans hresident, { gr with cleaf := gr.cleaf.set i b' }, ?_, ?_⟩
  · rw [State.setBarrier_resident hresident hgr, if_pos rfl]
    obtain ⟨hlaunch, hnumber⟩ := State.group?_names hgr
    subst hnumber
    rw [← hlaunch] at hgr ⊢
    exact State.group?_putGroup_same (gr := { gr with cleaf := gr.cleaf.set i b' }) (Option.isSome_of_eq_some hgr)
  · exact List.getElem?_set_self hindex

/-- The record of one group stands when that of another is set, wherever the other's is (R296). -/
theorem State.cleafHolds.setBarrier_other {b : Barrier} (h : s.cleafHolds l g i b) {g' : Nat} (hother : g' ≠ g) (b' : Barrier) :
    (s.setBarrier l g' true i b').cleafHolds l g i b := by
  obtain ⟨hresident, gr, hgr, hb⟩ := h
  refine ⟨((s.setBarrier_sets ..).groupResident ..).trans hresident, ?_⟩
  unfold State.setBarrier
  split
  · split
    · rename_i gr' hgr'
      obtain ⟨hlaunch, hnumber⟩ := State.group?_names hgr'
      refine ⟨gr, ?_, hb⟩
      exact (State.group?_putGroup_other (gr := { gr' with cleaf := gr'.cleaf.set i b' }) s
        (.inr fun hg => hother (hnumber.symm.trans hg.symm))).trans hgr
    · exact ⟨gr, hgr, hb⟩
  · have hstored := (s.updateRecord_stored l.space (l.header.saveAt g' + 0x400 + 64 * i) b'.bytes).group l.id g
    rw [hgr, Option.map_some, Option.map_eq_some_iff] at hstored
    obtain ⟨x, hx, hsame⟩ := hstored
    refine ⟨x, hx, ?_⟩
    have hcleaf : x.unwritten.cleaf = gr.unwritten.cleaf := by rw [hsame]
    rw [show x.cleaf = gr.cleaf from hcleaf, hb]

/-- A group's cluster-leaf record after the end of a phase. -/
def Barrier.ended (b : Barrier) (phase : BitVec 16) : Barrier := { b with arrived := 0, phase := phase }

/-- The end of a phase told to some groups in turn. -/
def State.endPhase (s : State) (l : Launch) (i : Nat) (phase : BitVec 16) (gs : List Nat) : State :=
  gs.foldl (fun s g => s.setBarrier l g true i ((s.barrier l g true i).ended phase)) s

theorem State.endPhase_cons (s : State) (l : Launch) (i : Nat) (phase : BitVec 16) (g : Nat) (gs : List Nat) :
    s.endPhase l i phase (g :: gs) = (s.setBarrier l g true i ((s.barrier l g true i).ended phase)).endPhase l i phase gs := rfl

theorem State.cleafHolds.endPhase {b : Barrier} (h : s.cleafHolds l g i b) (phase : BitVec 16) (gs : List Nat) :
    (s.endPhase l i phase gs).cleafHolds l g i (if g ∈ gs then b.ended phase else b) := by
  induction gs generalizing s b with
  | nil => exact h
  | cons g' gs ih =>
    by_cases hsame : g' = g
    · subst hsame
      have hnow := ih (h.setBarrier_same (b.ended phase))
      rw [State.endPhase_cons, h.barrier]
      simpa [Barrier.ended] using hnow
    · have hlater := ih (h.setBarrier_other hsame ((s.barrier l g' true i).ended phase))
      simpa only [State.endPhase_cons, List.mem_cons, Ne.symm hsame, false_or] using hlater

theorem State.endPhase_sets (s : State) (l : Launch) (i : Nat) (phase : BitVec 16) (gs : List Nat) :
    SetsRecords s (s.endPhase l i phase gs) := SetsRecords.foldl (fun s _ => s.setBarrier_sets ..) gs s

theorem State.setBarrier_launches (s : State) (l : Launch) (g : Nat) (level : Bool) (i : Nat) (b : Barrier) :
    (s.setBarrier l g level i b).launches = s.launches := by
  unfold State.setBarrier
  split
  · split <;> rfl
  · exact (s.updateRecord_stored ..).launches

theorem State.endPhase_launches (s : State) (l : Launch) (i : Nat) (phase : BitVec 16) (gs : List Nat) :
    (s.endPhase l i phase gs).launches = s.launches := by
  induction gs generalizing s with
  | nil => rfl
  | cons g gs ih => exact (ih _).trans (s.setBarrier_launches ..)

/-! ### The root of a logical cluster with a resident group -/

/-- A logical cluster with a resident group, whose launch holds its sixteen roots or none yet, and what one of them is. -/
structure State.RootHolds (s : State) (l : Launch) (c i : Nat) (r : Root) : Prop where
  resident : s.clusterResident l c = true
  launch : ∃ l', s.launch? l.id = some l' ∧ (Table.get [] l'.roots c = [] ∨ (Table.get [] l'.roots c).length = 16)
  root : s.root l c i = r

theorem SetsRecords.clusterResident (h : SetsRecords s t) (c : Nat) : t.clusterResident l c = s.clusterResident l c := by
  simp only [State.clusterResident, h.groupResident]

theorem State.root_of_launches (hresident : s.clusterResident l c = true) (hsame : t.clusterResident l c = s.clusterResident l c)
    (hlaunches : t.launches = s.launches) : t.root l c i = s.root l c i := by
  rw [State.root, if_pos (hsame.trans hresident), State.root, if_pos hresident, State.launch?, hlaunches, State.launch?]

theorem State.RootHolds.of_launches {c : Nat} {r : Root} (h : s.RootHolds l c i r) (hsets : SetsRecords s t)
    (hlaunches : t.launches = s.launches) : t.RootHolds l c i r where
  resident := (hsets.clusterResident c).trans h.resident
  launch := by rw [State.launch?, hlaunches]; exact h.launch
  root := (State.root_of_launches h.resident (hsets.clusterResident c) hlaunches).trans h.root

theorem State.launch?_id {n : Nat} (h : s.launch? n = some l) : l.id = n := by simpa using List.find?_some h

theorem State.launch?_putLaunch_same (h : (s.launch? l.id).isSome = true) : (s.putLaunch l).launch? l.id = some l := by
  obtain ⟨x, hx⟩ := Option.isSome_iff_exists.mp h
  have hfind : (fun y : Launch => y.id == l.id) ∘ (fun y => if y.id = l.id then l else y) = fun y => y.id == l.id := by
    funext y
    by_cases hy : y.id = l.id <;> simp [hy]
  have hid := State.launch?_id hx
  unfold State.launch? at hx
  rw [State.putLaunch, State.launch?, List.find?_map, hfind, hx, Option.map_some, if_pos hid]

theorem State.RootHolds.setRoot {c : Nat} {r : Root} (h : s.RootHolds l c i r) (hi : i < 16) (r' : Root) :
    (s.setRoot l c i r').RootHolds l c i r' := by
  obtain ⟨l', hl', hroots⟩ := h.launch
  have hresident : (s.setRoot l c i r').clusterResident l c = true := ((s.setRoot_sets ..).clusterResident c).trans h.resident
  let old := Table.get [] l'.roots c
  let rs := if old.isEmpty then l'.header.freshRoots c else old
  let l'' : Launch := { l' with roots := Table.set [] l'.roots c (rs.set i r') }
  have hset : s.setRoot l c i r' = s.putLaunch l'' := by
    rw [State.setRoot, if_pos h.resident, hl']
  have hlength : rs.length = 16 := by
    rcases hroots with hnone | hlength
    · simp [rs, old, hnone, Header.freshRoots]
    · have hsome : old.isEmpty = false := by
        rw [List.isEmpty_eq_false_iff]
        intro hnone
        simp [old] at hnone
        simp [hnone] at hlength
      simp only [rs, hsome, if_neg Bool.false_ne_true]
      exact hlength
  have hlaunch : (s.setRoot l c i r').launch? l.id = some l'' := by
    have hid := State.launch?_id hl'
    rw [hset, ← hid]
    exact State.launch?_putLaunch_same (l := l'') (Option.isSome_of_eq_some (hid ▸ hl'))
  have hnow : Table.get [] l''.roots c = rs.set i r' := Table.get_set_same ..
  refine ⟨hresident, ⟨l'', hlaunch, .inr ?_⟩, ?_⟩
  · rw [hnow, List.length_set, hlength]
  · rw [State.root, if_pos hresident, hlaunch]
    simp only [hnow]
    rw [List.getElem?_set_self (hlength ▸ hi), Option.getD_some]

theorem State.cleafHolds.setRoot {c : Nat} {b : Barrier} {r : Root} (h : s.cleafHolds l g i b) (hroot : s.RootHolds l c i r)
    (j : Nat) (r' : Root) : (s.setRoot l c j r').cleafHolds l g i b := by
  obtain ⟨hresident, gr, hgr, hb⟩ := h
  refine ⟨((s.setRoot_sets ..).groupResident ..).trans hresident, gr, ?_, hb⟩
  obtain ⟨l', hl', -⟩ := hroot.launch
  rw [State.setRoot, if_pos hroot.resident, hl']
  exact hgr

/-! ### The end of a phase -/

section
variable {c : Nat} {b : Barrier} {r : Root} (hroot : s.RootHolds l c i r) (hleaf : s.cleafHolds l g i b) (hi : i < 16)
  (hmember : g ∈ l.header.clusterGroups c)
include hroot hleaf hi hmember

/-- A root with every group arrived ends the phase, there and in the group's record; else both stay. -/
theorem State.advanceRoot_spec : ∃ r' b', (s.advanceRoot l c i).RootHolds l c i r' ∧ (s.advanceRoot l c i).cleafHolds l g i b' ∧
    if r.member &&& ~~~r.arrived = 0 ∧ r.arrived ≠ 0 then
      r' = { r with arrived := 0, phase := r.phase + 1 } ∧ b' = { b with arrived := 0, phase := r.phase + 1 }
    else r' = r ∧ b' = b := by
  have hroot_eq := hroot.root
  by_cases hcomplete : r.member &&& ~~~r.arrived = 0 ∧ r.arrived ≠ 0
  · let r' : Root := { r with arrived := 0, phase := r.phase + 1 }
    have hadvance : s.advanceRoot l c i = (s.setRoot l c i r').endPhase l i (r.phase + 1) (l.header.clusterGroups c) := by
      unfold State.advanceRoot
      rw [hroot_eq]
      exact if_pos (by simpa using hcomplete)
    have hended := (hleaf.setRoot hroot i r').endPhase (r.phase + 1) (l.header.clusterGroups c)
    rw [if_pos hmember] at hended
    rw [hadvance]
    exact ⟨r', _, (hroot.setRoot hi r').of_launches (State.endPhase_sets ..) (State.endPhase_launches ..), hended,
      (if_pos hcomplete).symm ▸ ⟨rfl, rfl⟩⟩
  · have hadvance : s.advanceRoot l c i = s := by
      unfold State.advanceRoot
      rw [hroot_eq]
      exact if_neg (by simpa using hcomplete)
    rw [hadvance]
    exact ⟨r, b, hroot, hleaf, (if_neg hcomplete).symm ▸ ⟨rfl, rfl⟩⟩

end

section
variable {b : Barrier} (hleaf : s.cleafHolds l g i b)
include hleaf

theorem State.arriveUp_of_missing (h : b.member &&& ~~~b.arrived ≠ 0) : s.arriveUp l g i = s := by
  unfold State.arriveUp
  rw [hleaf.barrier]
  exact if_neg (by simpa using fun _ => h)

theorem State.arriveUp_of_complete (hmember : b.member ≠ 0) (h : b.member &&& ~~~b.arrived = 0) {bit : BitVec 8} {r : Root}
    (hbit : BitVec.ofNat 8 (2 ^ l.header.field2 g) = bit) (hroot : s.root l (l.header.clusterOf g) i = r) :
    s.arriveUp l g i = (s.setRoot l (l.header.clusterOf g) i { r with arrived := r.arrived ||| bit }).advanceRoot l
      (l.header.clusterOf g) i := by
  subst hbit hroot
  unfold State.arriveUp
  rw [hleaf.barrier]
  exact if_pos (by simpa [h] using hmember)

end

/-- A group is in its logical cluster (R25). -/
theorem Header.mem_clusterGroups {h : Header} (hg : g < h.groups) : g ∈ h.clusterGroups (h.clusterOf g) := by
  have hpos : 0 < 2 ^ h.w2 := Nat.two_pow_pos _
  have hlow := Nat.div_mul_le_self g (2 ^ h.w2)
  have hhigh := Nat.lt_div_mul_add hpos (a := g)
  exact List.mem_filter.mpr ⟨(mem_upTo ..).mpr ⟨hlow, hhigh⟩, by simpa using hg⟩

/-! ### After the instruction -/

theorem State.finish_groupResident (s : State) (k n : Nat) : (s.finish s.party).groupResident k n = s.groupResident k n := by
  simp [State.groupResident, State.parties, State.finish, State.finishAt, Party.retire, Party.resident, Party.present]

theorem State.finish_root {c : Nat} {r : Root} (h : s.RootHolds l c i r) : (s.finish s.party).root l c i = r := by
  have hsame : (s.finish s.party).clusterResident l c = s.clusterResident l c := by
    simp only [State.clusterResident, State.finish_groupResident]
  exact (State.root_of_launches h.resident hsame rfl).trans h.root

theorem State.finish_barrier {b : Barrier} (h : s.cleafHolds l g i b) : (s.finish s.party).barrier l g true i = b := by
  obtain ⟨hresident, gr, hgr, hb⟩ := h
  exact State.barrier_resident (level := true) (gr := gr) ((s.finish_groupResident ..).trans hresident) hgr hb

/-- What a barrier instruction leaves that ends with the completion test of the root. -/
theorem State.advanceRoot_finished {s u : State} {c : Nat} {b : Barrier} {r : Root} (hroot : u.RootHolds l c i r)
    (hleaf : u.cleafHolds l g i b) (hi : i < 16) (hmember : g ∈ l.header.clusterGroups c) (hparty : u.party = s.party) :
    let t := u.advanceRoot l c i
    (t.finish t.party).party = (s.finish s.party).party ∧
      if r.member &&& ~~~r.arrived = 0 ∧ r.arrived ≠ 0 then
        (t.finish t.party).root l c i = { r with arrived := 0, phase := r.phase + 1 } ∧
          (t.finish t.party).barrier l g true i = { b with arrived := 0, phase := r.phase + 1 }
      else (t.finish t.party).root l c i = r ∧ (t.finish t.party).barrier l g true i = b := by
  intro t
  have htparty : t.party = s.party := (State.advanceRoot_sets ..).party.trans hparty
  obtain ⟨r', b', hr', hb', hends⟩ := State.advanceRoot_spec hroot hleaf hi hmember
  refine ⟨congrArg (fun p : Party => p.retire (p.pc + 4)) htparty, ?_⟩
  rw [State.finish_root hr', State.finish_barrier hb']
  exact hends

/-! ### BARR and BDROP -/

/-- The blocks of a party in a block mask (R200). -/
theorem Party.getLsbD_blocks (p : Party) {j : Nat} (hj : j < 128) : p.blocks.getLsbD j =
    decide (p.first / 32 ≤ j ∧ j < p.first / 32 + p.width / 32) := by
  rw [Party.blocks, BitVec.getLsbD_ofNat, Nat.testBit_mul_two_pow, Nat.testBit_two_pow_sub_one, Bool.eq_iff_iff]
  simp only [Bool.and_eq_true, decide_eq_true_eq]
  omega

end

/-- A record with the arrival of some blocks (R202). -/
def Barrier.arrive (b : Barrier) (blocks : BitVec 128) : Barrier := { b with arrived := b.arrived ||| (blocks &&& b.member) }

/-- A record that some blocks have left (R205). -/
def Barrier.without (b : Barrier) (blocks : BitVec 128) : Barrier :=
  { b with member := b.member &&& ~~~blocks, arrived := b.arrived &&& ~~~blocks }

section
variable {s : State} {l : Launch} {gr : Group} {a : Reg} (k : Bool) (hhome : s.home s.party = l)
  (hresident : s.groupResident l.id s.party.group = true) (hgr : s.group? l.id s.party.group = some gr) {b : Barrier}
include hhome hresident hgr

/-- At a leaf barrier the record moves, and with it the phase where it completes. -/
theorem exec_barr_leaf (hb : gr.leaf[barIndex (s.party.reg a)]? = some b) (hlevel : barLevel (s.party.reg a) = false) :
    exec (.barr k a) s = .next (((s.signalAt s.party.pt).putGroup { gr with
      leaf := gr.leaf.set (barIndex (s.party.reg a)) (b.arrive s.party.blocks).advance }).finish s.party) := by
  have hrecord : s.barrier l s.party.group false (barIndex (s.party.reg a)) = b :=
    State.barrier_resident (level := false) hresident hgr hb
  show execBarr k a s = _
  unfold execBarr State.barrArrive
  simp only [hhome, hlevel, if_neg Bool.false_ne_true]
  rw [hrecord, State.setBarrier_resident (s := s.signalAt s.party.pt) hresident hgr]
  rfl

theorem exec_bdrop_leaf (hb : gr.leaf[barIndex (s.party.reg a)]? = some b) (hlevel : barLevel (s.party.reg a) = false) :
    exec (.bdrop k a) s = .next ((s.putGroup { gr with
      leaf := gr.leaf.set (barIndex (s.party.reg a)) (b.without s.party.blocks).advance }).finish s.party) := by
  have hrecord : s.barrier l s.party.group false (barIndex (s.party.reg a)) = b :=
    State.barrier_resident (level := false) hresident hgr hb
  show execBdrop k a s = _
  unfold execBdrop State.barrDrop
  simp only [hhome, hlevel, if_neg Bool.false_ne_true]
  rw [hrecord, State.setBarrier_resident hresident hgr]
  rfl

variable (hb : gr.cleaf[barIndex (s.party.reg a)]? = some b) (hlevel : barLevel (s.party.reg a) = true)
include hb hlevel

omit hhome hlevel in
/-- The group's record while BARR or BDROP has moved it and not yet tested whether it is complete. -/
theorem cluster_record (u : State) (hsame : u.groups = s.groups) (hparties : u.parties = s.parties) (b' : Barrier) :
    let t := u.setBarrier l s.party.group true (barIndex (s.party.reg a)) b'
    t.cleafHolds l s.party.group (barIndex (s.party.reg a)) b' ∧
      t = u.putGroup { gr with cleaf := gr.cleaf.set (barIndex (s.party.reg a)) b' } := by
  have hures : u.groupResident l.id s.party.group = true := by rw [State.groupResident, hparties]; exact hresident
  have hugr : u.group? l.id s.party.group = some gr := by rw [State.group?, hsame]; exact hgr
  have hholds : u.cleafHolds l s.party.group (barIndex (s.party.reg a)) b := ⟨hures, gr, hugr, hb⟩
  exact ⟨hholds.setBarrier_same b', State.setBarrier_resident hures hugr true b'⟩

theorem exec_barr_cluster : let i := barIndex (s.party.reg a)
    let t := ((s.signalAt s.party.pt).setBarrier l s.party.group true i (b.arrive s.party.blocks)).arriveUp l s.party.group i
    exec (.barr k a) s = .next (t.finish t.party) := by
  have hrecord : s.barrier l s.party.group true (barIndex (s.party.reg a)) = b :=
    State.barrier_resident (level := true) hresident hgr hb
  show execBarr k a s = _
  unfold execBarr State.barrArrive
  simp only [hhome, hlevel, if_true, hrecord]
  rfl

theorem exec_barr_missing
    (h : (b.arrive s.party.blocks).member &&& ~~~(b.arrive s.party.blocks).arrived ≠ 0) :
    exec (.barr k a) s = .next (((s.signalAt s.party.pt).putGroup { gr with
      cleaf := gr.cleaf.set (barIndex (s.party.reg a)) (b.arrive s.party.blocks) }).finish s.party) := by
  obtain ⟨hholds, hput⟩ :=
    cluster_record hresident hgr hb (s.signalAt s.party.pt) rfl rfl (b.arrive s.party.blocks)
  rw [exec_barr_cluster k hhome hresident hgr hb hlevel, State.arriveUp_of_missing hholds h, hput]
  rfl

/-- BDROP of a group's last member withdraws the group from the root. -/
theorem exec_bdrop_last (h : (b.without s.party.blocks).member = 0) {bit : BitVec 8} {r : Root}
    (hbit : BitVec.ofNat 8 (2 ^ l.header.field2 s.party.group) = bit)
    (hroot : (s.setBarrier l s.party.group true (barIndex (s.party.reg a)) (b.without s.party.blocks)).root l
      (l.header.clusterOf s.party.group) (barIndex (s.party.reg a)) = r) : let i := barIndex (s.party.reg a)
    let u := s.setBarrier l s.party.group true i (b.without s.party.blocks)
    let c := l.header.clusterOf s.party.group
    let t := (u.setRoot l c i { r with member := r.member &&& ~~~bit, arrived := r.arrived &&& ~~~bit }).advanceRoot l c i
    exec (.bdrop k a) s = .next (t.finish t.party) := by
  have hrecord : s.barrier l s.party.group true (barIndex (s.party.reg a)) = b :=
    State.barrier_resident (level := true) hresident hgr hb
  have hnone : b.member &&& ~~~s.party.blocks = 0 := h
  subst hbit hroot
  show execBdrop k a s = _
  unfold execBdrop State.barrDrop
  simp only [hhome, hlevel, if_true, hrecord, hnone, beq_self_eq_true]
  rw [← hnone]
  rfl

theorem exec_bdrop_cluster (h : (b.without s.party.blocks).member ≠ 0) : let i := barIndex (s.party.reg a)
    let t := (s.setBarrier l s.party.group true i (b.without s.party.blocks)).arriveUp l s.party.group i
    exec (.bdrop k a) s = .next (t.finish t.party) := by
  have hrecord : s.barrier l s.party.group true (barIndex (s.party.reg a)) = b :=
    State.barrier_resident (level := true) hresident hgr hb
  have hsome : (b.member &&& ~~~s.party.blocks == 0) = false := beq_eq_false_iff_ne.mpr h
  show execBdrop k a s = _
  unfold execBdrop State.barrDrop
  simp only [hhome, hlevel, if_true, hrecord, hsome, if_neg Bool.false_ne_true]
  rfl

theorem exec_bdrop_missing
    (h : (b.without s.party.blocks).member &&& ~~~(b.without s.party.blocks).arrived ≠ 0) :
    exec (.bdrop k a) s = .next ((s.putGroup { gr with
      cleaf := gr.cleaf.set (barIndex (s.party.reg a)) (b.without s.party.blocks) }).finish s.party) := by
  obtain ⟨hholds, hput⟩ := cluster_record hresident hgr hb s rfl rfl (b.without s.party.blocks)
  have hsome : (b.without s.party.blocks).member ≠ 0 := fun hzero => h (by rw [hzero]; exact BitVec.zero_and)
  rw [exec_bdrop_cluster k hhome hresident hgr hb hlevel hsome, State.arriveUp_of_missing hholds h, hput]
  rfl

end

/-- A change of a group's record leaves the root of its logical cluster. -/
theorem State.RootHolds.setBarrier {s : State} {l : Launch} {c i : Nat} {r : Root} (h : s.RootHolds l c i r) (g : Nat)
    (level : Bool) (j : Nat) (b : Barrier) : (s.setBarrier l g level j b).RootHolds l c i r :=
  h.of_launches (State.setBarrier_sets ..) (State.setBarrier_launches ..)

/-- Settles O31: the record of the group moves alone, or completes and moves the root, which completes in turn or not. -/
theorem barrierArrivals : Obligations.BarrierArrivals := by
  unfold Obligations.BarrierArrivals
  intro s k a l gr hpresent hl hgr i blocks after arrive drop noted c bit r ends
  have hid : l.id = s.party.launch := State.launch?_id hl
  have hhome : s.home s.party = l := by rw [State.home, hl, Option.getD_some]
  have hresident : s.groupResident l.id s.party.group = true :=
    List.any_eq_true.mpr ⟨s.party, List.mem_cons_self .., by simp [hid, hpresent]⟩
  rw [← hid] at hgr hl
  have hi : i < 16 := Nat.mod_lt _ (by decide)
  refine ⟨fun b hb hlevel => ⟨?_, ?_⟩, fun b hb hlevel => ?_, fun j hj => Party.getLsbD_blocks _ hj⟩
  · rw [exec_barr_leaf k hhome hresident hgr hb hlevel, Barrier.advance_eq]
    rfl
  · rw [exec_bdrop_leaf k hhome hresident hgr hb hlevel, Barrier.advance_eq]
    rfl
  refine ⟨exec_barr_missing k hhome hresident hgr hb hlevel, exec_bdrop_missing k hhome hresident hgr hb hlevel,
    fun hgroup _ hroots => ?_⟩
  have hmember : s.party.group ∈ l.header.clusterGroups c := Header.mem_clusterGroups hgroup
  have hroot : s.RootHolds l c i r := ⟨List.any_eq_true.mpr ⟨_, hmember, hresident⟩, ⟨l, hl, hroots⟩, rfl⟩
  have hbit : BitVec.ofNat 8 (2 ^ l.header.field2 s.party.group) = bit :=
    congrArg (BitVec.ofNat 8) (Nat.one_shiftLeft _).symm
  let arrived : State := noted.setBarrier l s.party.group true i (arrive b)
  let dropped : State := s.setBarrier l s.party.group true i (drop b)
  have harrived : arrived.cleafHolds l s.party.group i (arrive b) :=
    (cluster_record hresident hgr hb noted rfl rfl (arrive b)).1
  have hdropped : dropped.cleafHolds l s.party.group i (drop b) :=
    (cluster_record hresident hgr hb s rfl rfl (drop b)).1
  have harrivedRoot : arrived.RootHolds l c i r :=
    (hroot.of_launches (t := noted) ⟨rfl, rfl⟩ rfl).setBarrier s.party.group true i (arrive b)
  have hdroppedRoot : dropped.RootHolds l c i r := hroot.setBarrier s.party.group true i (drop b)
  have hends {j : Instr} {u : State} {b' : Barrier} {r' : Root} (huroot : u.RootHolds l c i r)
      (hleaf : u.cleafHolds l s.party.group i b') (hparty : u.party = s.party)
      (hexec : exec j s = .next (((u.setRoot l c i r').advanceRoot l c i).finish ((u.setRoot l c i r').advanceRoot l c i).party)) :
      ends j b' r' :=
    ⟨_, hexec, State.advanceRoot_finished (huroot.setRoot hi r') (hleaf.setRoot huroot i r') hi hmember
      ((State.setRoot_sets ..).party.trans hparty)⟩
  intro up
  refine ⟨fun hsome hcomplete => ?_, fun hsome hcomplete => ?_, fun hnone => ?_⟩
  · refine hends harrivedRoot harrived (State.setBarrier_sets ..).party ?_
    have hup := State.arriveUp_of_complete harrived hsome hcomplete hbit harrivedRoot.root
    exact (exec_barr_cluster k hhome hresident hgr hb hlevel).trans
      (congrArg (fun t : State => Host.Outcome.next (t.finish t.party)) hup)
  · refine hends hdroppedRoot hdropped (State.setBarrier_sets ..).party ?_
    have hup := State.arriveUp_of_complete hdropped hsome hcomplete hbit hdroppedRoot.root
    exact (exec_bdrop_cluster k hhome hresident hgr hb hlevel hsome).trans
      (congrArg (fun t : State => Host.Outcome.next (t.finish t.party)) hup)
  · refine hends hdroppedRoot hdropped (State.setBarrier_sets ..).party ?_
    exact exec_bdrop_last k hhome hresident hgr hb hlevel hnone hbit hdroppedRoot.root

end Sys2Proof.Machine
end

section
/-!
SUPPORT. Engine requests: what reading a descriptor leaves alone, what a granted, waiting or refused request comes to, and acceptance
in the queues (R215, R216, R221, R318, R370 to R373).
-/
namespace Sys2Proof.Machine

/-! ### What reading at issue leaves alone (R318) -/

theorem State.readWords_afterReads (s : State) (ac : Accessor) (a : Word) (size align n : Nat) :
    AfterReads s (s.readWords ac a size align n).1 := by
  induction n generalizing s a align with
  | zero => exact .refl s
  | succ n ih =>
    unfold State.readWords
    split
    · exact .refl s
    · split
      · exact .refl s
      · exact (s.partyRead_afterReads ..).trans (ih ..)

theorem State.descriptor_afterReads (s : State) (ac : Accessor) (a : Word) : AfterReads s (s.descriptor ac a).1 :=
  s.readWords_afterReads ..

theorem State.sawRecord_afterReads (s : State) (l : Launch) (va n : Nat) (bs : List Byte) :
    AfterReads s (s.sawRecord l va n bs) := by
  unfold State.sawRecord
  split
  · split
    · exact AfterReads.foldl (fun s x => s.partyRead_afterReads ..) _ _
    · exact .refl s
  · exact .refl s

theorem State.layoutRecord_afterReads (s : State) (l : Launch) (index : Nat) : AfterReads s (s.layoutRecord l index).1 := by
  unfold State.layoutRecord
  dsimp only
  split
  · exact .refl s
  · split
    · exact .refl s
    · exact s.sawRecord_afterReads ..

theorem State.sparseHeader_afterReads (s : State) (ac : Accessor) (a : Word) : AfterReads s (s.sparseHeader ac a).1 := by
  unfold State.sparseHeader
  split
  · exact .refl s
  · exact s.descriptor_afterReads ..

theorem AfterReads.ite {α : Type} {s : State} {c : Prop} [Decidable c] {x y : State × α} (hx : AfterReads s x.1)
    (hy : AfterReads s y.1) : AfterReads s (if c then x else y).1 := by
  split
  · exact hx
  · exact hy

theorem State.readCommand_afterReads (s : State) (kinds : List Nat) (a off : Word) :
    AfterReads s (s.readCommand kinds a off).1 := by
  have hread := s.descriptor_afterReads (accessorOf (s.home s.party) s.party) a
  unfold State.readCommand
  dsimp only
  generalize s.descriptor (accessorOf (s.home s.party) s.party) a = x at hread
  obtain ⟨t, _ | ws⟩ := x
  · exact hread
  · exact hread.trans (.ite (.refl t) (.ite (.refl t) (.ite (.refl t) (.ite
      (.ite (.refl t) ((State.sparseHeader_afterReads ..).trans (State.layoutRecord_afterReads ..)))
      ((State.layoutRecord_afterReads ..).trans (State.layoutRecord_afterReads ..))))))

theorem State.readCollective_afterReads (s : State) (a off : Word) : AfterReads s (s.readCollective a off).1 := by
  have hread := s.descriptor_afterReads (accessorOf (s.home s.party) s.party) a
  unfold State.readCollective
  dsimp only
  generalize s.descriptor (accessorOf (s.home s.party) s.party) a = x at hread
  obtain ⟨t, _ | ws⟩ := x
  · exact hread
  · exact hread.trans (.ite (.refl t) (State.readWords_afterReads ..))

section
variable {s r : State} (h : AfterReads s r)
include h

theorem AfterReads.frame : r = { s with lines := r.lines, party := { s.party with pt := r.party.pt } } ∧
    s.party.pt ≤ r.party.pt := by
  obtain ⟨n, lines, hn, rfl⟩ := h
  exact ⟨rfl, hn⟩

theorem AfterReads.alone (halone : s.alone) : r.alone := by
  obtain ⟨n, lines, -, rfl⟩ := h
  exact halone

theorem AfterReads.deadline (dl : BitVec 2) : r.deadline dl = s.deadline dl := by
  obtain ⟨n, lines, -, rfl⟩ := h
  rfl

theorem AfterReads.accessor : r.accessor = s.accessor := by
  obtain ⟨n, lines, -, rfl⟩ := h
  rfl

theorem AfterReads.pc : r.party.pc = s.party.pc := by
  obtain ⟨n, lines, -, rfl⟩ := h
  rfl

theorem AfterReads.reg (a : Reg) : r.party.reg a = s.party.reg a := by
  obtain ⟨n, lines, -, rfl⟩ := h
  rfl

end

/-! ### The grant of the oldest request (R216, R241, R370) -/

/-- The queue's answer to work of a party whose turn it is. -/
def State.acceptWork (s : State) (p : Party) : Work → Option State
  | .none => none
  | .commands l => s.acceptCommands p l
  | .task t => s.acceptTask p t
  | .collective c => s.acceptCollective p c

/-- Where no other party waits, nothing comes before the request of the party in focus. -/
theorem State.behind_of_alone {s : State} (h : s.alone) (w : Wait) (same : Party → Work → Bool) :
    s.behind s.party w same = false := by
  rw [State.behind, State.parties, List.any_cons, Bool.or_eq_false_iff]
  refine ⟨by simp, List.any_eq_false.mpr fun q hq => ?_⟩
  simp [h q hq]

theorem State.grant_of_alone {s : State} (h : s.alone) (w : Wait) : s.grant s.party w = s.acceptWork s.party w.work := by
  unfold State.grant
  simp only [State.behind_of_alone h, if_neg Bool.false_ne_true]
  cases w.work <;> rfl

/-! ### What a request comes to (R216) -/

section
variable {s r : State} {i : Instr} {d : Reg} {dl : BitVec 2} (hmay : s.mayWait d) (hreads : AfterReads s r)
include hmay hreads

theorem request_trap (e : Deny) (a : Word) : request s i d dl (r, .trap e a) =
    .next ((if e.cause = .poison then r.sawPoison s.accessor e a else r).takeTrap
      { (Trap.scalar e.cause s.party.pc s.party.pc).denied e a with dest := some d, wait := some (s.deadline dl) }) := by
  have hsaw : r.sawPoison r.accessor e a = if e.cause = .poison then r.sawPoison s.accessor e a else r := by
    rw [hreads.accessor]
    split
    · rfl
    · rename_i hother
      exact State.sawPoison_of_other hother ..
  have htrap : (r.newWait .accept i d dl 0 0).trap r.party.pc e a =
      { (Trap.scalar e.cause s.party.pc s.party.pc).denied e a with dest := some d, wait := some (s.deadline dl) } := by
    rw [hreads.pc, ← hreads.deadline dl]
    rfl
  rw [request, waiting_of_mayWait hmay, ← hsaw, ← htrap]
  rfl

theorem request_malformed : request s i d dl (r, .malformed) = .next (s.endedWith r d dl 0x1506) := by
  have hend := State.endWith_eq_endedWith (s := s) (t := r) (w := r.newWait .accept i d dl 0 0) (d := d) (st := stMalformed) rfl
    (hreads.deadline dl) (.inl (by decide))
  rw [request, waiting_of_mayWait hmay]
  exact congrArg Host.Outcome.next hend

variable (halone : s.alone) {x : Work}
include halone

theorem request_granted {t : State} (hgrant : r.acceptWork r.party x = some t) :
    request s i d dl (r, .work x) = .next (s.endedWith t d dl 0) := by
  let w : Wait := { r.newWait .accept i d dl 0 0 with work := x }
  have hattempt : r.attempt w = .ended t stOk := by
    simp only [State.attempt, w, State.newWait, State.grant_of_alone (hreads.alone halone), hgrant]
  rw [request, waiting_of_mayWait hmay]
  exact State.startWait_endedWith (w := w) rfl (hreads.deadline dl) isExpiry_ok hattempt

theorem request_waits (hgrant : r.acceptWork r.party x = none) (hpoll : (s.deadline dl).poll = false) :
    ∃ w, request s i d dl (r, .work x) = .next { r with party := { r.party with wait := some w }, ids := r.ids + 1 } ∧
      w.kind = .accept ∧ w.dest = d ∧ w.deadline = s.deadline dl := by
  let w : Wait := { r.newWait .accept i d dl 0 0 with work := x }
  have hattempt : r.attempt w = .waiting := by
    simp only [State.attempt, w, State.newWait, State.grant_of_alone (hreads.alone halone), hgrant]
  refine ⟨w, ?_, rfl, rfl, hreads.deadline dl⟩
  rw [request, waiting_of_mayWait hmay]
  exact State.startWait_begins (w := w) hattempt (show WaitKind.accept ≠ .barrier by decide) 
    (by rw [show w.deadline = s.deadline dl from hreads.deadline dl, hpoll])

theorem request_full (hgrant : r.acceptWork r.party x = none) (hpoll : (s.deadline dl).poll = true) :
    request s i d dl (r, .work x) =
      .next (s.endedWith r d dl (0x203 ||| (if (s.deadline dl).ceiling then 0x100 else 0))) := by
  let w : Wait := { r.newWait .accept i d dl 0 0 with work := x }
  have hattempt : r.attempt w = .waiting := by
    simp only [State.attempt, w, State.newWait, State.grant_of_alone (hreads.alone halone), hgrant]
  have hdeadline : w.deadline = s.deadline dl := hreads.deadline dl
  have hcode : r.expiryCode r.party w = 0x203 ||| (if (s.deadline dl).ceiling then 0x100 else 0) := by
    show stFull ||| w.deadline.detail = _
    rw [hdeadline, Deadline.detail, hpoll]
    cases (s.deadline dl).ceiling <;> rfl
  have hexpire : r.expire w = r.endWith w (r.expiryCode r.party w) := rfl
  have hwait : r.startWait w = .next (r.expire w) := by
    rw [State.startWait_waiting hattempt, if_neg (show w.kind ≠ .barrier from nofun), hdeadline, hpoll]
    rfl
  rw [request, waiting_of_mayWait hmay]
  refine hwait.trans (congrArg Host.Outcome.next ?_)
  rw [hexpire, hcode, State.endWith_eq_endedWith (s := s) (dl := dl) (d := d) rfl hdeadline (.inr hpoll)]
  rfl

end

/-! ### Room for Siphon commands (R212, R216, R221) -/

/-- A fold that acts at one element alone. -/
theorem foldl_single {α β : Type} {f : β → α → β} {a : α} (hother : ∀ b x, x ≠ a → f b x = b) {l : List α} (hmem : a ∈ l)
    (hnodup : l.Nodup) (b : β) : l.foldl f b = f b a := by
  have hstay {l : List α} (h : a ∉ l) (b : β) : l.foldl f b = b := by
    induction l generalizing b with
    | nil => rfl
    | cons x l ih =>
      rw [List.foldl_cons, hother b x (Ne.symm (List.ne_of_not_mem_cons h)), ih (List.not_mem_of_not_mem_cons h)]
  induction l generalizing b with
  | nil => cases hmem
  | cons x l ih =>
    obtain ⟨hx, hl⟩ := List.nodup_cons.mp hnodup
    rw [List.foldl_cons]
    by_cases h : x = a
    · exact h ▸ hstay (h ▸ hx) _
    · rw [hother b x h]
      exact ih ((List.mem_cons.mp hmem).resolve_left (Ne.symm h)) hl b

/-- Commands that name no leaf barrier need room in the queue alone. -/
theorem State.acceptCommands_of_no_rows {s : State} {p : Party} {l : List Command} (h : ∀ i, rowsFor l i = 0) :
    s.acceptCommands p l =
      if s.siphonUsed p.core + (l.filter fun c => c.kind != 3).length ≤ 64 then
        some { s with
          commands := s.commands ++ l.zipIdx.map fun c =>
            { c.1 with id := s.ids + c.2, time := p.pt, pred := if c.2 = 0 then none else some s.ids }
          ids := s.ids + l.length }
      else none := by
  unfold State.acceptCommands
  simp only [h]
  by_cases hroom : s.siphonUsed p.core + (l.filter fun c => c.kind != 3).length ≤ 64
  · simp [hroom, Config.siphonEntries, Nat.not_lt.mpr hroom]
  · simp [hroom, Config.siphonEntries, Nat.lt_of_not_le hroom]

theorem rowsFor_of_unnamed {l : List Command} (h : ∀ c ∈ l, c.rbar = none) (i : Nat) : rowsFor l i = 0 := by
  unfold rowsFor
  induction l with
  | nil => rfl
  | cons c l ih =>
    rw [List.foldl_cons, h c (List.mem_cons_self ..)]
    exact ih fun x hx => h x (List.mem_cons_of_mem _ hx)

/-- A command that names a leaf barrier needs room in its eexp too, and adds its rows there. -/
theorem State.acceptCommands_of_rows {s : State} {p : Party} {c : Command} {i : Nat} {r : Barrier} (hkind : c.kind ≠ 3)
    (hbar : c.rbar = some i) (hi : i < 16) (hrows : 0 < c.rows) (hroom : s.siphonUsed p.core + 1 ≤ 64)
    (hrecord : s.barrier (s.home p) p.group false i = r) :
    s.acceptCommands p [c] =
      if r.eexp + c.rows < 2 ^ 24 then
        let t := s.setBarrier (s.home p) p.group false i { r with eexp := r.eexp + c.rows }
        some { t with
          commands := t.commands ++ [{ c with id := t.ids, time := p.pt, pred := none }]
          ids := t.ids + 1 }
      else none := by
  have hmine : rowsFor [c] i = c.rows := by simp [rowsFor, hbar]
  have hother (j : Nat) (hj : j ≠ i) : rowsFor [c] j = 0 := by simp [rowsFor, hbar, Ne.symm hj]
  have hmem : i ∈ upTo 0 16 := (mem_upTo ..).mpr ⟨Nat.zero_le _, by omega⟩
  have hfold := foldl_single (f := fun (u : State) j => if rowsFor [c] j = 0 then u
      else u.setBarrier (s.home p) p.group false j
        { u.barrier (s.home p) p.group false j with
          eexp := (u.barrier (s.home p) p.group false j).eexp + rowsFor [c] j })
    (a := i) (fun u j hj => if_pos (hother j hj)) hmem (by decide) s
  have hall : ((upTo 0 16).all fun j =>
      rowsFor [c] j == 0 || decide ((s.barrier (s.home p) p.group false j).eexp + rowsFor [c] j < 2 ^ 24)) =
      decide (r.eexp + c.rows < 2 ^ 24) := by
    rw [Bool.eq_iff_iff, List.all_eq_true, decide_eq_true_eq]
    refine ⟨fun h => ?_, fun h j _ => ?_⟩
    · simpa [hmine, hrecord, Nat.ne_of_gt hrows] using h i hmem
    · by_cases hj : j = i
      · subst hj
        simp only [hmine, hrecord, h, decide_true, Bool.or_true]
      · simp [hother j hj]
  have hneed : ([c].filter fun c => c.kind != 3).length = 1 := by simp [hkind]
  rw [hmine, if_neg (Nat.ne_of_gt hrows), hrecord] at hfold
  unfold State.acceptCommands
  simp only [hfold, hall, hneed, Config.siphonEntries, Nat.not_lt.mpr hroom, decide_false, Bool.false_or]
  by_cases hfits : r.eexp + c.rows < 2 ^ 24
  · simp only [hfits, decide_true, Bool.not_true, if_neg Bool.false_ne_true, if_true]
    rfl
  · simp only [hfits, decide_false, Bool.not_false, if_true, if_false]

/-! ### Acceptance of a collective (R372, R373) -/

/-- Packets to other parts leave everything but the streams they go on. -/
theorem State.sendPackets_frame (s : State) (ms : List Nat) (cls time : Nat) :
    ∃ sends, ms.foldl (fun (s : State) m => s.sendPacket m cls time) s = { s with sends := sends } := by
  induction ms generalizing s with
  | nil => exact ⟨_, rfl⟩
  | cons m ms ih =>
    obtain ⟨sends, hrest⟩ := ih (s.sendPacket m cls time)
    exact ⟨sends, hrest.trans rfl⟩

/-! ### CHAIN's two descriptors (R221) -/

section
variable {s : State} {a b : Reg}

theorem State.chained_malformed (h : (s.readCommand [0, 1, 2] (s.party.reg a) 0).2 = .malformed) :
    s.chained a b = ((s.readCommand [0, 1, 2] (s.party.reg a) 0).1, .malformed) := by
  unfold State.chained
  split <;> simp_all

theorem State.chained_trap {e : Deny} {x : Word} (h : (s.readCommand [0, 1, 2] (s.party.reg a) 0).2 = .trap e x) :
    s.chained a b = ((s.readCommand [0, 1, 2] (s.party.reg a) 0).1, .trap e x) := by
  unfold State.chained
  split <;> simp_all

theorem State.chained_work {c : Command} (h : (s.readCommand [0, 1, 2] (s.party.reg a) 0).2 = .work c) :
    let r := (s.readCommand [0, 1, 2] (s.party.reg a) 0).1.readCommand [0, 1, 2, 3] (s.party.reg b) 0
    s.chained a b = (r.1, r.2.map fun e => .commands [c, e]) := by
  have hreg := (s.readCommand_afterReads [0, 1, 2] (s.party.reg a) 0).reg b
  unfold State.chained
  split <;> simp_all

end

/-- Settles O39: each instruction is a request for what it read, which leaves only the logical time and lines of its party. -/
theorem engineRequests : Obligations.EngineRequests := by
  unfold Obligations.EngineRequests
  intro s k d a b dl p sa sb waits requests reads accepted one used
  refine ⟨fun hmay halone => ?_, fun r hr => ?_, fun c hkind hbar => ?_, fun c i l gr r hkind hbar hi hrows hroom hres hl hgr hleaf => ?_,
    fun c e hkind hc he => ?_, fun c t haccept => ?_⟩
  · have hrequests {i : Instr} {r : State} {x : Work} (hr : AfterReads s r) (hexec : exec i s = request s i d dl (r, .work x)) :
        requests i r (r.acceptWork r.party x) :=
      ⟨fun t ht => hexec.trans (request_granted hmay hr halone ht),
        fun hnone hpoll => by simp only [waits, hexec]; exact request_waits hmay hr halone hnone hpoll,
        fun hnone hpoll => hexec.trans (request_full hmay hr halone hnone hpoll)⟩
    have hrefused {α : Type} {i : Instr} {x : State × Issue α} {read : State × Issue Work} (hexec : exec i s = request s i d dl read)
        (hr : AfterReads s x.1) (hmalformed : x.2 = .malformed → read = (x.1, .malformed))
        (htrap : ∀ e a, x.2 = .trap e a → read = (x.1, .trap e a)) :
        (x.2 = .malformed → exec i s = .next (s.endedWith x.1 d dl 0x1506)) ∧
        ∀ e a, x.2 = .trap e a → exec i s = .next ((if e.cause = .poison then x.1.sawPoison s.accessor e a else x.1).takeTrap
          { (Trap.scalar e.cause p.pc p.pc).denied e a with dest := some d, wait := some (s.deadline dl) }) :=
      ⟨fun h => (hmalformed h ▸ hexec).trans (request_malformed hmay hr),
        fun e a h => (htrap e a h ▸ hexec).trans (request_trap hmay hr e a)⟩
    have hone {kind : Nat} {i : Instr} (hexec : exec i s = request s i d dl (s.oneCommand kind a b)) : one kind i := by
      have hr := s.readCommand_afterReads [kind] sa sb
      have hread (x : Issue Command) (h : (s.readCommand [kind] sa sb).2 = x) :
          s.oneCommand kind a b = ((s.readCommand [kind] sa sb).1, x.map fun c => .commands [c]) := by rw [← h]; rfl
      exact ⟨fun c h => hrequests (x := .commands [c]) hr (hread _ h ▸ hexec), hrefused hexec hr (hread _) fun e x => hread _⟩
    refine ⟨hone rfl, hone rfl, hone rfl, ?_, ?_⟩
    · have hexec : exec (.chain k d a dl b) s = request s (.chain k d a dl b) d dl (s.chained a b) := rfl
      have hr := s.readCommand_afterReads [0, 1, 2] sa 0
      refine ⟨fun c hc => ?_, hrefused hexec hr (State.chained_malformed ·) fun e x => State.chained_trap⟩
      have hu := (hr.trans (State.readCommand_afterReads _ [0, 1, 2, 3] sb 0))
      have hread (x : Issue Command) (h : ((s.readCommand [0, 1, 2] sa 0).1.readCommand [0, 1, 2, 3] sb 0).2 = x) :
          s.chained a b = (((s.readCommand [0, 1, 2] sa 0).1.readCommand [0, 1, 2, 3] sb 0).1,
            x.map fun e => .commands [c, e]) := by
        rw [← h, State.chained_work hc]
      exact ⟨fun e h => hrequests (x := .commands [c, e]) hu (hread _ h ▸ hexec), hrefused hexec hu (hread _) fun e x => hread _⟩
    · have hr := s.readCollective_afterReads sa sb
      have hexec : exec (.coll k d a dl b) s = request s (.coll k d a dl b) d dl
        ((s.readCollective sa sb).1, (s.readCollective sa sb).2.map .collective) := rfl
      have hread (x : Issue Collective) (h : (s.readCollective sa sb).2 = x) :
          ((s.readCollective sa sb).1, (s.readCollective sa sb).2.map Work.collective) =
            ((s.readCollective sa sb).1, x.map Work.collective) := by rw [← h]
      exact ⟨fun c h => hrequests (x := .collective c) hr (hread _ h ▸ hexec), hrefused hexec hr (hread _) fun e x => hread _⟩
  · rcases hr with ⟨kinds, rfl⟩ | rfl
    · exact (s.readCommand_afterReads ..).frame
    · exact (s.readCollective_afterReads ..).frame
  · rw [State.acceptCommands_of_no_rows (rowsFor_of_unnamed (by simpa using hbar))]
    simp [hkind, used, accepted]
    rfl
  · have hhome : s.home p = l := by rw [State.home, hl, Option.getD_some]
    have hid : l.id = p.launch := State.launch?_id hl
    have hresident : s.groupResident l.id p.group = true :=
      List.any_eq_true.mpr ⟨p, List.mem_cons_self .., by simp [hid, hres]⟩
    rw [← hid] at hgr
    have hrecord : s.barrier (s.home p) p.group false i = r :=
      hhome ▸ State.barrier_resident (level := false) hresident hgr hleaf
    rw [State.acceptCommands_of_rows hkind hbar hi hrows hroom hrecord, hhome, State.setBarrier_resident hresident hgr]
    rfl
  · have hneed : ([c, e].filter fun c => c.kind != 3).length = if e.kind = 3 then 1 else 2 := by
      by_cases hlast : e.kind = 3 <;> simp [hkind, hlast]
    rw [State.acceptCommands_of_no_rows (rowsFor_of_unnamed (by simp [hc, he])), hneed]
    rfl
  · intro n
    unfold State.acceptCollective at haccept
    split at haccept
    · cases haccept
      obtain ⟨sends, hsends⟩ := s.sendPackets_frame (c.members.filter fun m => m != s.bar.part) 2 p.pt
      refine ⟨?_, rfl, ?_⟩
      · simp only [List.any_eq_true, List.contains_iff_mem]
        rfl
      · simp only [hsends]
    · cases haccept

end Sys2Proof.Machine
end

section
/-!
SUPPORT. CPYW and LAUNCH by the first test of their wait: the claim of a slot, the copy and its signal (R212, R222, R348).
-/
namespace Sys2Proof.Machine

/-- A wait whose first test meets a denied access traps, and with poison comes after it (R152, R338). -/
theorem State.startWait_denied {s : State} {w : Wait} {d : Reg} {dl : BitVec 2} {e : Deny} {a : Word}
    (hdest : w.dest = d) (hdeadline : w.deadline = s.deadline dl) (hkind : w.kind ≠ .barrier)
    (h : s.attempt w = .trapped e a) :
    s.startWait w = .next ((if e.cause = .poison then s.sawPoison s.accessor e a else s).takeTrap
      { (Trap.scalar e.cause s.party.pc s.party.pc).denied e a with dest := some d, wait := some (s.deadline dl) }) := by
  have hsaw : s.sawPoison s.accessor e a = if e.cause = .poison then s.sawPoison s.accessor e a else s := by
    split
    · rfl
    · rename_i hother
      exact State.sawPoison_of_other hother ..
  rw [State.startWait, h, ← hsaw, ← hdest, ← hdeadline]
  simp only [State.takeBack_of_not_barrier hkind, raiseWait, raise, Wait.trap]
  rfl

/-! ### The claim (R222) -/

/-- The claim that a wait makes on a ring. -/
def State.ringClaim (s : State) (w : Wait) (r : Ring) : Except (Deny × Word) Claim :=
  let seen := s.observeRing s.accessor (w.w1 &&& ~~~1)
  if w.takes then seen.claimTake seen.party.agent s.party.core s.accessor (w.w1 &&& ~~~1) r
  else seen.claimPut seen.party.agent s.party.core s.accessor (w.w1 &&& ~~~1) r

section
variable {s : State} {w : Wait} (hkind : w.kind = .cpyw) (hclaim : w.claim = none)
include hkind hclaim

theorem State.attempt_ring : s.attempt w = s.claimRing w State.fillSlot := by
  simp [State.attempt, hkind, State.tryRing, hclaim]

theorem State.attempt_ring_denied {e : Deny} {x : Word} (h : s.ring s.accessor (w.w1 &&& ~~~1) = .error (e, x)) :
    s.attempt w = .trapped e x := by
  rw [State.attempt_ring hkind hclaim, State.claimRing, show s.ring (accessorOf _ _) _ = _ from h]

variable {r : Ring} (hring : s.ring s.accessor (w.w1 &&& ~~~1) = .ok r)
include hring

theorem State.attempt_ring_malformed (h : r.ok = false ∨ (w.isLaunch = true ∧ r.z ≠ 256)) :
    s.attempt w = .ended (s.observeRing s.accessor (w.w1 &&& ~~~1)) stMalformed := by
  rw [State.attempt_ring hkind hclaim, State.claimRing, show s.ring (accessorOf _ _) _ = _ from hring]
  refine if_pos ?_
  rcases h with hbad | ⟨hlaunch, hsize⟩
  · simp [hbad]
  · simp [hlaunch, hsize]

variable (hok : r.ok = true) (hsize : w.isLaunch = true → r.z = 256)
include hok hsize

theorem State.attempt_ring_claim : s.attempt w = match s.ringClaim w r with
    | .error e => .trapped e.1 e.2
    | .ok .full => .waiting
    | .ok (.slot t time slot seq) =>
      (t.atTime time).fillSlot s.accessor w { at_ := slot, seq := seq, size := r.z, copied := false } := by
  have hgood : (!r.ok || (w.isLaunch && r.z != 256)) = false := by
    cases hlaunch : w.isLaunch <;> simp_all
  rw [State.attempt_ring hkind hclaim, State.claimRing, show s.ring (accessorOf _ _) _ = _ from hring]
  simp only [hgood, if_neg Bool.false_ne_true]
  rfl

end

/-! ### The copy (R212, R220) -/

section
variable {u : State} {ac : Accessor} {w : Wait} {slot seq : Word} {size : Nat}

/-- A slot whose payload is still to be copied. -/
def RingSlot.fresh (slot seq : Word) (size : Nat) : RingSlot := { at_ := slot, seq := seq, size := size, copied := false }

theorem State.fillSlot_held (h : ∃ c ∈ u.commands, c.pid = u.party.pid ∧ c.kind = 0) :
    u.fillSlot ac w (.fresh slot seq size) = .held (u.setWait (some { w with claim := some (.fresh slot seq size) })) := by
  have hbusy : (u.commands.any fun c => c.pid == u.party.pid && c.kind == 0) = true := by simpa using h
  unfold State.fillSlot
  simp only [RingSlot.fresh, if_neg Bool.false_ne_true, hbusy, if_true]

/-- The payload goes first, and then the sequence word as its signal. -/
theorem State.fillSlot_copied {sp : Span} {x : Written} {v : State × Nat} (hidle : ∀ c ∈ u.commands, c.pid = u.party.pid → c.kind ≠ 0)
    (hread : u.engineRead ac u.ringAgent (if w.takes then slot + 16 else w.w2) size 8 = .ok sp)
    (hwrite : u.engineWrite ac u.ringAgent (if w.takes then w.w2 else slot + 16) sp = .ok x)
    (hsignal : (x.s.atTime x.time).signalWord ac (x.s.atTime x.time).ringAgent slot seq.toNat = .ok v) :
    u.fillSlot ac w (.fresh slot seq size) = .ended (v.1.atTime v.2) stOk := by
  have hfree : (u.commands.any fun c => c.pid == u.party.pid && c.kind == 0) = false := by simpa using hidle
  have hcopy : u.ringCopy ac w (.fresh slot seq size) size = .ok (x.s.atTime x.time) := by
    have hadd (y : Word) : y + BitVec.ofNat 64 0 = y := BitVec.add_zero y
    simp only [State.ringCopy, RingSlot.fresh, hadd, hread, bind, Except.bind, hwrite, pure, Except.pure]
  unfold State.fillSlot
  simp only [show (RingSlot.fresh slot seq size).copied = false from rfl, hfree, if_neg Bool.false_ne_true,
    show (RingSlot.fresh slot seq size).size - (RingSlot.fresh slot seq size).moved = size from rfl, hcopy]
  rw [show (x.s.atTime x.time).signalWord ac (x.s.atTime x.time).ringAgent (RingSlot.fresh slot seq size).at_
    (RingSlot.fresh slot seq size).seq.toNat = _ from hsignal]

end

/-! ### CPYW and LAUNCH -/

theorem Wait.joins_of_cpyw {w : Wait} (hkind : w.kind = .cpyw) (st : Word) : w.joins st = false := by simp [Wait.joins, hkind]

section
variable {s : State} {w : Wait} {d : Reg} {dl : BitVec 2} (hkind : w.kind = .cpyw) (hclaim : w.claim = none) (hdest : w.dest = d)
  (hdeadline : w.deadline = s.deadline dl)
include hkind hdest hdeadline

theorem endWith_malformed (t : State) : t.endWith w stMalformed = s.endedWith t d dl 0x1506 := by
  rw [State.endWith_eq_endedWith hdest hdeadline (.inl (by decide)), Wait.joins_of_cpyw hkind]
  rfl

variable {r : Ring} (hring : s.ring s.accessor (w.w1 &&& ~~~1) = .ok r)
include hclaim hring

theorem ring_malformed (h : r.ok = false ∨ (w.isLaunch = true ∧ r.z ≠ 256)) :
    s.startWait w = .next (s.endedWith (s.observeRing s.accessor (w.w1 &&& ~~~1)) d dl 0x1506) := by
  rw [State.startWait_ended (State.attempt_ring_malformed hkind hclaim hring h), endWith_malformed hkind hdest hdeadline]

variable (hok : r.ok = true) (hsize : w.isLaunch = true → r.z = 256)
include hok hsize

theorem ring_denied {e : Deny} {x : Word} (h : s.ringClaim w r = .error (e, x)) :
    s.startWait w = .next ((if e.cause = .poison then s.sawPoison s.accessor e x else s).takeTrap
      { (Trap.scalar e.cause s.party.pc s.party.pc).denied e x with dest := some d, wait := some (s.deadline dl) }) := by
  refine State.startWait_denied hdest hdeadline (by simp [hkind]) ?_
  rw [State.attempt_ring_claim hkind hclaim hring hok hsize, h]

section
variable {t : State} {time : Nat} {slot seq : Word} (h : s.ringClaim w r = .ok (.slot t time slot seq))
include h

omit hdest hdeadline in
/-- A copy of the party that is still to come holds the claimed slot (R212). -/
theorem ring_held (hbusy : ∃ c ∈ t.commands, c.pid = t.party.pid ∧ c.kind = 0) :
    s.startWait w = .next { t.atTime time with
      party := { (t.atTime time).party with wait := some { w with claim := some (.fresh slot seq r.z) } }, ids := t.ids + 1 } := by
  have hattempt : s.attempt w = (t.atTime time).fillSlot s.accessor w (.fresh slot seq r.z) := by
    rw [State.attempt_ring_claim hkind hclaim hring hok hsize, h]
    rfl
  rw [State.startWait, hattempt, State.fillSlot_held (u := t.atTime time) hbusy]
  rfl

theorem ring_copied {sp : Span} {x : Written} {v : State × Nat} (hidle : ∀ c ∈ t.commands, c.pid = t.party.pid → c.kind ≠ 0)
    (hread : (t.atTime time).engineRead s.accessor (t.atTime time).ringAgent (if w.takes then slot + 16 else w.w2) r.z 8 = .ok sp)
    (hwrite : (t.atTime time).engineWrite s.accessor (t.atTime time).ringAgent (if w.takes then w.w2 else slot + 16) sp = .ok x)
    (hsignal : (x.s.atTime x.time).signalWord s.accessor (x.s.atTime x.time).ringAgent slot seq.toNat = .ok v) :
    s.startWait w = .next (s.endedWith (v.1.atTime v.2) d dl 0) := by
  have hattempt : s.attempt w = .ended (v.1.atTime v.2) stOk := by
    rw [State.attempt_ring_claim hkind hclaim hring hok hsize, h]
    exact State.fillSlot_copied (u := t.atTime time) hidle hread hwrite hsignal
  rw [State.startWait_endedWith hdest hdeadline isExpiry_ok hattempt, Wait.joins_of_cpyw hkind]
  rfl

end

variable (h : s.ringClaim w r = .ok .full)
include h

omit hdest in
theorem ring_waits (hpoll : (s.deadline dl).poll = false) :
    s.startWait w = .next { s with party := { s.party with wait := some w }, ids := s.ids + 1 } := by
  refine State.startWait_begins ?_ (by simp [hkind]) (hdeadline ▸ hpoll)
  rw [State.attempt_ring_claim hkind hclaim hring hok hsize, h]

/-- A poll comes after its last look at the slot that it did not get (R318). -/
theorem ring_polled (hpoll : (s.deadline dl).poll = true) : s.startWait w = .next (s.endedWith
    ((s.observeRing s.accessor (w.w1 &&& ~~~1)).observe s.accessor (r.slotAt (if w.takes then r.q else r.e)) 8) d dl
    ((if w.takes then 0x204 else 0x203) ||| (if (s.deadline dl).ceiling then 0x100 else 0))) := by
  have hattempt : s.attempt w = .waiting := by rw [State.attempt_ring_claim hkind hclaim hring hok hsize, h]
  have hcode : s.expiryCode s.party w = (if w.takes then 0x204 else 0x203) ||| (if (s.deadline dl).ceiling then 0x100 else 0) := by
    rw [State.expiryCode, hkind, hdeadline]
    simp only [Deadline.detail, hpoll]
    cases (s.deadline dl).ceiling <;> cases w.takes <;> rfl
  have hlooked : s.lookedAt w =
      (s.observeRing s.accessor (w.w1 &&& ~~~1)).observe s.accessor (r.slotAt (if w.takes then r.q else r.e)) 8 := by
    rw [State.lookedAt, hkind, show s.ring (accessorOf _ _) _ = _ from hring]
    rfl
  have hbarrier : w.kind ≠ .barrier := by simp [hkind]
  have hcross : ¬ (w.kind = .xfence ∧ s.expiryCode s.party w ≠ stPartial) := by simp [hkind]
  rw [State.startWait_waiting hattempt, if_neg hbarrier, if_pos (hdeadline ▸ hpoll), State.expire]
  simp only [if_neg hcross, State.takeBack_of_not_barrier hbarrier]
  rw [hlooked, hcode, State.endWith_eq_endedWith hdest hdeadline (.inr hpoll), Wait.joins_of_cpyw hkind]
  rfl

end

section
variable {s : State} {k : Bool} {d a b : Reg} {dl : BitVec 2} (hmay : s.mayWait d)
include hmay

theorem exec_launch {ring : Word} (hqueue : s.queueRing (s.home s.party).space.ctx ((s.party.reg b).toNat % 4096) = some ring)
    (haligned : (s.party.reg a).toNat % 16 = 0) (hwindow : windowOf (s.party.reg a).toNat = .global) :
    exec (.launch k d a dl b) s =
      s.startWait { s.newWait .cpyw (.launch k d a dl b) d dl 0 (s.party.reg a) with w1 := ring } := by
  show startLaunch State.startWait k d a dl b s = _
  rw [startLaunch, waiting_of_mayWait hmay, hqueue]
  exact if_neg (by simp [haligned, hwindow])

theorem exec_launch_refused (h : s.queueRing (s.home s.party).space.ctx ((s.party.reg b).toNat % 4096) = none ∨
    (s.party.reg a).toNat % 16 ≠ 0 ∨ windowOf (s.party.reg a).toNat ≠ .global) :
    exec (.launch k d a dl b) s = .next (s.endedWith s d dl 0x1506) := by
  have hend := endWith_malformed (s := s) (w := s.newWait .cpyw (.launch k d a dl b) d dl 0 (s.party.reg a)) (d := d) rfl rfl rfl s
  show startLaunch State.startWait k d a dl b s = _
  rw [startLaunch, waiting_of_mayWait hmay, ← hend]
  cases hqueue : s.queueRing (s.home s.party).space.ctx ((s.party.reg b).toNat % 4096) with
  | none => rfl
  | some ring => exact if_pos (h.resolve_left (by simp [hqueue]))

end

/-- Settles O40: CPYW and LAUNCH make the same claim and copy, each with a ring of its own and a check of its own before it. -/
theorem ringCopies : Obligations.RingCopies := by
  unfold Obligations.RingCopies
  intro s k d a b dl hmay p sa sb ac deadline copier trapped at_ moves refused
  have hmoves {i : Instr} {w : Wait} {hdr buf : Word} {takes : Bool} {r : Ring} (hexec : exec i s = s.startWait w)
      (hkind : w.kind = .cpyw) (hclaim : w.claim = none) (hdest : w.dest = d) (hdeadline : w.deadline = s.deadline dl)
      (hhdr : w.w1 &&& ~~~1 = hdr) (hbuf : w.w2 = buf) (htakes : w.takes = takes) (hring : s.ring ac hdr = .ok r)
      (hok : r.ok = true) (hsize : w.isLaunch = true → r.z = 256) : moves i hdr buf takes r := by
    subst hhdr hbuf htakes
    refine ⟨fun t time slot seq hslot => ⟨fun hbusy => ?_, fun hidle sp x v hread hwrite hsignal => ?_⟩, fun e x hdenied => ?_,
      fun hfull => ⟨fun hpoll => ?_, fun hpoll => ?_⟩⟩
    · exact ⟨_, hexec.trans (ring_held hkind hclaim hring hok hsize hslot hbusy), hkind, hdest, rfl⟩
    · exact hexec.trans (ring_copied hkind hclaim hdest hdeadline hring hok hsize hslot hidle hread hwrite hsignal)
    · exact hexec.trans (ring_denied hkind hclaim hdest hdeadline hring hok hsize hdenied)
    · exact ⟨w, hexec.trans (ring_waits hkind hclaim hdeadline hring hok hsize hfull hpoll), hkind, hdest, hdeadline⟩
    · exact hexec.trans (ring_polled hkind hclaim hdest hdeadline hring hok hsize hfull hpoll)
  let cpyw : Wait := s.newWait .cpyw (.cpyw k d a dl b) d dl sa sb
  let launch (ring : Word) : Wait := { s.newWait .cpyw (.launch k d a dl b) d dl 0 sa with w1 := ring }
  have hcpyw (haligned : sa.toNat % 64 / 2 = 0) : exec (.cpyw k d a dl b) s = s.startWait cpyw :=
    (waiting_of_mayWait hmay _).trans (if_neg (not_not.mpr haligned))
  have htakes : cpyw.takes = sa.getLsbD 0 := rfl
  refine ⟨fun haligned r hring => ⟨fun hok => ?_, fun hbad => ?_⟩, fun haligned e x hdenied => ?_, fun hodd => ?_,
    fun ring r hqueue halign hwindow hring => ⟨fun hok hsize => ?_, fun hbad => ?_⟩, fun hrefused => ?_⟩
  · exact hmoves (hcpyw haligned) rfl rfl rfl rfl rfl rfl htakes hring hok nofun
  · exact (hcpyw haligned).trans (ring_malformed rfl rfl rfl rfl hring (.inl hbad))
  · exact (hcpyw haligned).trans
      (State.startWait_denied rfl rfl (show WaitKind.cpyw ≠ .barrier by decide) (State.attempt_ring_denied rfl rfl hdenied))
  · have hraise : exec (.cpyw k d a dl b) s = raiseWait s cpyw { cause := .alignment } sa :=
      (waiting_of_mayWait hmay _).trans (if_pos hodd)
    rw [hraise, raiseWait, State.sawPoison_of_other (show Cause.alignment ≠ .poison by decide)]
    rfl
  · exact hmoves (exec_launch hmay hqueue halign hwindow) rfl rfl rfl rfl rfl rfl rfl hring hok fun _ => hsize
  · exact (exec_launch hmay hqueue halign hwindow).trans
      (ring_malformed rfl rfl rfl rfl hring (hbad.imp id fun hsize => ⟨rfl, hsize⟩))
  · exact exec_launch_refused hmay hrefused

end Sys2Proof.Machine
end

section
/-!
SUPPORT. What leaves the launches alone: events, allocator updates, the undoing and retirement of tasks; and the reset of a context,
which ends its launches (R234, R242, R356, R358, R359).
-/
namespace Sys2Proof.Machine

/-- The launches and BAR0 stand. -/
structure LaunchesKept (s t : State) : Prop where
  launches : t.launches = s.launches
  bar : t.bar = s.bar

theorem LaunchesKept.refl (s : State) : LaunchesKept s s := ⟨rfl, rfl⟩

theorem LaunchesKept.trans {s t u : State} (h : LaunchesKept s t) (k : LaunchesKept t u) : LaunchesKept s u :=
  ⟨k.launches.trans h.launches, k.bar.trans h.bar⟩

theorem LaunchesKept.foldl {α : Type} {f : State → α → State} (hf : ∀ s a, LaunchesKept s (f s a)) (l : List α) (s : State) :
    LaunchesKept s (l.foldl f s) := by
  induction l generalizing s with
  | nil => exact .refl s
  | cons a l ih => exact (hf s a).trans (ih _)

theorem Stored.launchesKept {s t : State} (h : Stored s t) : LaunchesKept s t := by
  obtain ⟨_, _, _, _, _, _, _, _, _, _, rfl⟩ := h.frame
  exact ⟨rfl, rfl⟩

/-! ### Events (R356, R367) -/

theorem State.save_stored {s t : State} {ac : Accessor} {a : Word} {n v : Nat} (e : s.save ac a n v = .ok t) : Stored s t := by
  obtain ⟨p, -, rfl⟩ := map_ok e
  exact s.storeAs_stored ..

theorem State.noteRead_stored (s : State) (core time : Nat) (p : Place) (n : Nat) : Stored s (s.noteRead core time p n).1 :=
  (s.noteRead_logicalOnly ..).stored

theorem State.loadAs_stored {s t : State} {core time time' v : Nat} {ac : Accessor} {a : Word}
    (e : s.loadAs core time ac a = .ok (t, time', v)) : Stored s t := by
  unfold State.loadAs at e
  split at e
  · cases e
  · split at e
    · cases e
    · cases e
      exact s.noteRead_stored ..

theorem State.claim_stored {s t : State} {a : Agent} {core : Nat} {ac : Accessor} {slot counter q seq seq' : Word}
    {want old time : Nat} (e : s.claim a core ac slot counter want old seq = .ok (.slot t time q seq')) : Stored s t := by
  unfold State.claim at e
  obtain ⟨⟨u, time', v⟩, hload, e⟩ := bind_ok e
  have hread := State.loadAs_stored (at_ok hload)
  dsimp only at e
  split at e
  · obtain ⟨p, -, e⟩ := bind_ok e
    cases e
    exact hread.trans (State.storeAs_stored ..)
  · cases e

theorem State.interrupt_keeps (s : State) (fn vector : Nat) : LaunchesKept s (s.interrupt fn vector) := by
  unfold State.interrupt
  split
  · exact ⟨rfl, rfl⟩
  · split <;> exact ⟨rfl, rfl⟩

theorem State.putEvent_keeps {s t : State} {ctx : Nat} {bs : List Byte} (e : s.putEvent ctx bs = some t) : LaunchesKept s t := by
  unfold State.putEvent at e
  dsimp only at e
  split at e
  · split at e
    · cases e
    · split at e
      · cases e
      · split at e
        · rename_i hclaim
          split at e
          · cases e
          · rename_i hwrite
            have hput := (State.claim_stored hclaim).trans (State.arenaWrite_stored hwrite)
            split at e
            · rename_i hsave _
              cases e
              exact ((hput.trans (State.save_stored hsave)).launchesKept.trans
                (.foldl (f := fun s (x : Place × Nat) => s.showHost x.1 x.2) (fun _ _ => ⟨rfl, rfl⟩) _ _)).trans
                (State.interrupt_keeps ..)
            · rename_i hsave _
              cases e
              exact (hput.trans (State.save_stored hsave)).launchesKept.trans (State.interrupt_keeps ..)
            · cases e
        · cases e
  · cases e

theorem State.flushEvents_keeps (s : State) : LaunchesKept s s.flushEvents := by
  suffices ∀ (l : List (Nat × List Byte)) (acc : State × List (Nat × List Byte)), LaunchesKept acc.1
      (l.foldl (fun (acc : State × List (Nat × List Byte)) e =>
        if acc.2.any fun w => w.1 == e.1 then (acc.1, acc.2 ++ [e])
        else match acc.1.putEvent e.1 e.2 with
          | some s => (s, acc.2)
          | none => (acc.1, acc.2 ++ [e])) acc).1 by
    obtain ⟨hlaunches, hbar⟩ := this s.events ({ s with events := [] }, [])
    exact ⟨hlaunches, hbar⟩
  intro l
  induction l with
  | nil => exact fun acc => .refl acc.1
  | cons e l ih =>
    intro acc
    rw [List.foldl_cons]
    refine LaunchesKept.trans ?_ (ih _)
    split
    · exact .refl acc.1
    · split
      · rename_i hput
        exact State.putEvent_keeps hput
      · exact .refl acc.1

theorem State.report_keeps (s : State) (ctx : Nat) (e : Event) : LaunchesKept s (s.report ctx e) := by
  obtain ⟨hlaunches, hbar⟩ := State.flushEvents_keeps { s with events := s.events ++ [(ctx, e.bytes)] }
  exact ⟨hlaunches, hbar⟩

theorem State.enterState_keeps (s : State) (i v : Nat) : LaunchesKept s (s.enterState i v) := by
  have hput : LaunchesKept s (s.putContext { s.context i with state := v }) := ⟨rfl, rfl⟩
  unfold State.enterState
  dsimp only
  split
  · exact hput.trans (State.storeAs_stored ..).launchesKept
  · exact hput

/-! ### Launches that a reset refuses (R359) -/

theorem State.takeSlot_keeps {s t : State} {sp : Space} {hdr : Word} {r : Ring} {time : Nat} {bs : Option (List Byte)}
    (e : s.takeSlot sp hdr r = some (t, time, bs)) : LaunchesKept s t := by
  unfold State.takeSlot at e
  split at e
  · rename_i hclaim
    dsimp only at e
    split at e
    · rename_i hsave
      cases e
      exact ((State.claim_stored hclaim).trans (State.save_stored hsave)).launchesKept
    · cases e
      exact (State.claim_stored hclaim).launchesKept
  · cases e

theorem State.drainQueue_keeps (s : State) (ctx queue : Nat) (sp : Space) (hdr : Word) (fuel : Nat) :
    LaunchesKept s (s.drainQueue ctx queue sp hdr fuel) := by
  induction fuel generalizing s with
  | zero => exact .refl s
  | succ n ih =>
    unfold State.drainQueue
    split
    · exact .refl s
    · split
      · exact .refl s
      · split
        · exact .refl s
        · rename_i htake
          exact ((State.takeSlot_keeps htake).trans (State.report_keeps ..)).trans (ih _)

/-! ### The allocator and tasks (R234, R242, R359) -/

theorem State.setChunk_stored {s : State} {a : Agent} {ac : Accessor} {at_ : Word} {w : Nat} {x : State × Nat}
    (e : s.setChunk a ac at_ w = .ok x) : Stored s x.1 := by
  unfold State.setChunk at e
  obtain ⟨p, -, e⟩ := bind_ok e
  cases e
  suffices ∀ (l : List Nat) (r : State × Nat), Stored s r.1 → Stored s (l.foldl (fun (r : State × Nat) i =>
      if bitsOf (s.valueAt p 64) (64 * i) 64 = bitsOf w (64 * i) 64 then r
      else r.1.storeAs { a with time := Nat.max r.2 (r.1.writtenAt (p.shift (8 * i)) 8) } (p.shift (8 * i))
        (toBytes 8 (bitsOf w (64 * i) 64))) r).1 from this _ _ (.refl s)
  intro l
  induction l with
  | nil => exact fun _ h => h
  | cons i l ih =>
    intro r hr
    rw [List.foldl_cons]
    refine ih _ ?_
    split
    · exact hr
    · exact hr.trans (State.storeAs_stored ..)

theorem State.freeBlock_keeps {s : State} {a : Agent} {ac : Accessor} {l : Launch} {p : Pool} {block : Word} {c : Nat}
    {x : State × Nat} (e : s.freeBlock a ac l p block c = .ok (some x)) : LaunchesKept s x.1 := by
  unfold State.freeBlock at e
  split at e
  · cases e
  · obtain ⟨w, -, e⟩ := bind_ok e
    split at e
    · cases e
    · obtain ⟨y, hset, e⟩ := bind_ok e
      cases e
      obtain ⟨hlaunches, hbar⟩ := (State.setChunk_stored hset).launchesKept
      exact ⟨hlaunches, hbar⟩

theorem State.engineWrite_stored {s : State} {ac : Accessor} {a : Agent} {va : Word} {sp : Span} {w : Written}
    (e : s.engineWrite ac a va sp = .ok w) : Stored s w.s := writeRange_stored e

theorem writeValues_stored {ac : Accessor} {size n : Nat} {s : State} {a : Agent} {ws : List (Nat × Nat)} :
    Stored s (writeValues ac size n s a ws).s := by
  induction n generalizing s a ws with
  | zero => exact .refl s
  | succ n ih =>
    cases ws with
    | nil => exact .refl s
    | cons x rest =>
      unfold writeValues
      split
      · exact .refl s
      · rename_i hwrite
        split
        · exact State.engineWrite_stored hwrite
        · exact (State.engineWrite_stored hwrite).trans ih

theorem State.putBack_stored (s : State) (t : Task) (size : Nat) (x : Nat × Place × Nat) : Stored s (s.putBack t size x) := by
  unfold State.putBack
  dsimp only
  split
  · exact s.storeAs_stored ..
  · split
    · exact s.storeAs_stored ..
    · exact writeValues_stored

theorem State.undoTask_keeps (s : State) (t : Task) : LaunchesKept s (s.undoTask t) := by
  unfold State.undoTask
  split
  · dsimp only
    have hback (put : List (Nat × Place × Nat)) (size : Nat) : LaunchesKept s (put.foldl (fun s x => s.putBack t size x) s) :=
      .foldl (fun s x => (s.putBack_stored t size x).launchesKept) put s
    split
    · exact hback ..
    · split
      · rename_i hfree
        exact (hback ..).trans (State.freeBlock_keeps hfree)
      · exact hback ..
  · exact .refl s

theorem State.putParty_keeps (s : State) (p : Party) : LaunchesKept s (s.putParty p) :=
  (s.putParty_logicalOnly p).stored.launchesKept

theorem State.rankInto_keeps (s : State) (t : Task) (st : Word) (p : Party) : LaunchesKept s (s.rankInto t st p) := by
  unfold State.rankInto
  dsimp only
  split
  · split
    · exact .refl s
    · split
      · exact .refl s
      · rename_i hwrite
        exact (State.arenaWrite_stored hwrite).launchesKept.trans (State.putParty_keeps ..)
  · exact State.putParty_keeps ..

theorem State.dependBar_keeps (s : State) (cmd : Nat) (after : List Nat) : LaunchesKept s (s.dependBar cmd after) := by
  unfold State.dependBar
  split
  · exact .refl s
  · exact ⟨rfl, rfl⟩

theorem State.retireTask_keeps (s : State) (t : Task) (st : Word) : LaunchesKept s (s.retireTask t st) := by
  unfold State.retireTask
  extract_lets after told left
  have hleft : LaunchesKept s left := by
    obtain ⟨hlaunches, hbar⟩ := (s.signalAt (t.time + 1)).dependBar_keeps t.id after
    exact ⟨hlaunches, hbar⟩
  exact hleft.trans (.foldl (fun s p => s.rankInto_keeps t st p) _ left)

theorem State.abortTask_keeps (s : State) (id : Nat) : LaunchesKept s (s.abortTask id) := by
  unfold State.abortTask
  split
  · exact (State.undoTask_keeps ..).trans (State.retireTask_keeps ..)
  · exact .refl s

theorem State.assignUnits_keeps (s : State) : LaunchesKept s s.assignUnits := by
  refine .foldl (fun s t => ?_) s.tasks s
  split
  · split
    · exact ⟨rfl, rfl⟩
    · exact .refl s
  · exact .refl s

theorem State.layBytes_keeps (s : State) (p : Place) (bs : List Byte) : LaunchesKept s (s.layBytes p bs) := by
  obtain ⟨hlaunches, hbar⟩ := (s.writePlace_stored p bs).launchesKept
  exact ⟨hlaunches, hbar⟩

theorem zeroSpans_keeps (sp : Space) (fuel : Nat) (s : State) (va n : Nat) : LaunchesKept s (zeroSpans sp fuel s va n) := by
  induction fuel generalizing s va n with
  | zero => exact .refl s
  | succ fuel ih =>
    unfold zeroSpans
    split
    · exact .refl s
    · split
      · exact (State.layBytes_keeps ..).trans (ih ..)
      · exact ih ..

theorem State.moveLines_keeps (s : State) (from_ to_ : Place) (n : Nat) : LaunchesKept s (s.moveLines from_ to_ n) := ⟨rfl, rfl⟩

theorem State.keepScratch_keeps (s : State) (g : Group) : LaunchesKept s (s.keepScratch g) := by
  have hbacking : LaunchesKept s (g.backing.foldl (fun (t : State) b =>
      (t.moveLines (.spad g.launch g.number b.off) (.phys b.base 0) b.len).writePhys b.base (readBytes g.spad b.off b.len) b.key) s) :=
    .foldl (fun t b => (State.moveLines_keeps ..).trans (State.writePhys_stored ..).launchesKept) _ s
  unfold State.keepScratch
  refine (hbacking.trans (.foldl (fun t u => ?_) g.bad _)).trans ⟨rfl, rfl⟩
  split
  · exact (State.poisonByte_stored ..).launchesKept
  · exact .refl t

/-! ### The reset of a context (R359) -/

theorem State.forget_launches (s : State) (id : Nat) : (s.forget id).launches = s.launches.filter fun l => l.id != id := by
  have hkept := (LaunchesKept.foldl State.keepScratch_keeps (s.groups.filter fun g => g.launch == id && !g.ended) s).launches
  exact congrArg (List.filter fun l => l.id != id) hkept

theorem State.forget_bar (s : State) (id : Nat) : (s.forget id).bar = s.bar :=
  (LaunchesKept.foldl State.keepScratch_keeps (s.groups.filter fun g => g.launch == id && !g.ended) s).bar

/-- Launches that end one after the other are gone, no other comes, and BAR0 stands. -/
theorem foldl_forget {f : State → Launch → State} (hf : ∀ s l, LaunchesKept (s.forget l.id) (f s l)) (ls : List Launch) (s : State) :
    (∀ x ∈ (ls.foldl f s).launches, x ∈ s.launches ∧ ∀ l ∈ ls, x.id ≠ l.id) ∧ (ls.foldl f s).bar = s.bar := by
  induction ls generalizing s with
  | nil => exact ⟨fun x hx => ⟨hx, nofun⟩, rfl⟩
  | cons l ls ih =>
    obtain ⟨hgone, hbar⟩ := ih (f s l)
    refine ⟨fun x hx => ?_, hbar.trans ((hf s l).bar.trans (s.forget_bar l.id))⟩
    obtain ⟨hmem, hrest⟩ := hgone x hx
    rw [(hf s l).launches, State.forget_launches, List.mem_filter] at hmem
    refine ⟨hmem.1, fun y hy => ?_⟩
    rcases List.mem_cons.mp hy with rfl | hy
    · simpa using hmem.2
    · exact hrest y hy

/-- After a reset no launch of the context is left, none is new, and BAR0 stands. -/
theorem State.resetContext_ends (s : State) (ctx : Nat) :
    (∀ x ∈ (s.resetContext ctx).launches, x ∈ s.launches ∧ x.space.ctx ≠ ctx) ∧ (s.resetContext ctx).bar = s.bar := by
  unfold State.resetContext
  extract_lets context entered drained mine refused running gone kept aborted undone assigned forgotten told asks cleared zeroed
  have hdrained : LaunchesKept s drained := by
    have hput : LaunchesKept s (s.putContext { context with begun := false }) := ⟨rfl, rfl⟩
    refine hput.trans ((State.enterState_keeps _ ctx 3).trans (show LaunchesKept entered drained from ?_))
    simp only [drained]
    split
    · refine .foldl (fun u q => ?_) _ _
      split
      · exact State.drainQueue_keeps ..
      · exact .refl u
    · exact .refl entered
  obtain ⟨hwaiting, hrefused⟩ := foldl_forget (f := fun u l => (u.forget l.id).reportReset ctx l.queue)
    (fun u l => State.report_keeps ..) (mine.filter fun l => l.placed == 0) drained
  have hassigned : LaunchesKept refused assigned := by
    have hkept : LaunchesKept refused { kept with taskImages := kept.taskImages.filter fun i => !aborted.contains i.1 } :=
      ⟨rfl, rfl⟩
    exact (hkept.trans (.foldl State.abortTask_keeps aborted _)).trans (State.assignUnits_keeps undone)
  obtain ⟨hrunning, hforgotten⟩ := foldl_forget (f := fun u l => u.forget l.id) (fun u l => .refl _) running assigned
  have hzeroed : LaunchesKept forgotten zeroed := by
    have htold : LaunchesKept forgotten told := .foldl (fun u l => State.report_keeps ..) running forgotten
    have hcleared : LaunchesKept forgotten cleared := ⟨htold.launches, htold.bar⟩
    refine hcleared.trans ?_
    simp only [zeroed]
    split
    · exact (zeroSpans_keeps ..).trans (State.watchAll_logicalOnly _).stored.launchesKept
    · exact .refl cleared
  have hend := hzeroed.trans (zeroed.enterState_keeps ctx 1)
  refine ⟨fun x hx => ?_, hend.bar.trans (hforgotten.trans (hassigned.bar.trans (hrefused.trans hdrained.bar)))⟩
  rw [hend.launches] at hx
  obtain ⟨hmem, hplacedNot⟩ := hrunning x hx
  rw [hassigned.launches] at hmem
  obtain ⟨hmem, hplaced⟩ := hwaiting x hmem
  refine ⟨hdrained.launches ▸ hmem, fun hctx => ?_⟩
  have hmine : x ∈ mine := List.mem_filter.mpr ⟨hmem, by simpa using hctx⟩
  by_cases hzero : x.placed = 0
  · exact hplaced x (List.mem_filter.mpr ⟨hmine, by simpa using hzero⟩) rfl
  · exact hplacedNot x (List.mem_filter.mpr ⟨hmine, by simpa using hzero⟩) rfl

/-- Contexts reset one after the other have no launch left. -/
theorem foldl_resetContext (cs : List Nat) (s : State) :
    (∀ x ∈ (cs.foldl State.resetContext s).launches, ∀ c ∈ cs, x.space.ctx ≠ c) ∧ (cs.foldl State.resetContext s).bar = s.bar := by
  suffices (∀ x ∈ (cs.foldl State.resetContext s).launches, x ∈ s.launches ∧ ∀ c ∈ cs, x.space.ctx ≠ c) ∧
      (cs.foldl State.resetContext s).bar = s.bar from ⟨fun x hx => (this.1 x hx).2, this.2⟩
  induction cs generalizing s with
  | nil => exact ⟨fun x hx => ⟨hx, nofun⟩, rfl⟩
  | cons c cs ih =>
    obtain ⟨hgone, hbar⟩ := ih (s.resetContext c)
    obtain ⟨hends, hstands⟩ := s.resetContext_ends c
    refine ⟨fun x hx => ?_, hbar.trans hstands⟩
    obtain ⟨hmem, hrest⟩ := hgone x hx
    obtain ⟨hmem, hc⟩ := hends x hmem
    refine ⟨hmem, fun y hy => ?_⟩
    rcases List.mem_cons.mp hy with rfl | hy
    · exact hc
    · exact hrest y hy

end Sys2Proof.Machine
end

section
/-!
SUPPORT. The hub: memory cleared by bring-up and STACKINIT, the mailboxes' responses, key slots, the hash of two bits of an offset
(R329, R331, R340, R374 to R377).
-/
namespace Sys2Proof.Machine

/-! ### Memory cleared (R331, R374) -/

/-- The sectors of a range that begins and ends at a sector. -/
def sectorInside (lo n x : Nat) : Bool := decide (lo / 64 ≤ x) && decide (x < (lo + n) / 64)

theorem sectorInside_iff {lo n : Nat} (hlo : 64 ∣ lo) (hn : 64 ∣ n) (a : Nat) :
    sectorInside lo n (a / 64) = true ↔ lo ≤ a ∧ a < lo + n := by
  obtain ⟨k, rfl⟩ := hlo
  obtain ⟨m, rfl⟩ := hn
  simp only [sectorInside, Bool.and_eq_true, decide_eq_true_eq]
  omega

theorem byteAt_clearBytes_in {m : List Host.Cell} {lo n a : Nat} (h : lo ≤ a ∧ a < lo + n) : byteAt (clearBytes m lo n) a = 0 := by
  refine Table.get_of_forall_ne fun e he => ?_
  have := (List.mem_filter.mp he).2
  simp only [Bool.or_eq_true, decide_eq_true_eq] at this
  omega

theorem byteAt_clearBytes_out {m : List Host.Cell} {lo n a : Nat} (h : ¬ (lo ≤ a ∧ a < lo + n)) :
    byteAt (clearBytes m lo n) a = byteAt m a := by
  refine Table.get_filter _ fun v => ?_
  simp only [Bool.or_eq_true, decide_eq_true_eq]
  omega

/-- A table without the entries that a test on keys picks. -/
theorem Table.get_filter_not {α : Type} (d : α) (t : Table α) (p : Nat → Bool) (n : Nat) :
    Table.get d (t.filter fun e => !p e.1) n = if p n = true then d else Table.get d t n := by
  split
  · rename_i h
    refine Table.get_of_forall_ne fun e he hn => ?_
    have := (List.mem_filter.mp he).2
    simp [hn, h] at this
  · rename_i h
    exact Table.get_filter _ fun v => by simpa using h

/-- What clearing a range of whole sectors leaves of memory, its tags and its poison. -/
theorem cleared_range {lo n : Nat} (hlo : 64 ∣ lo) (hn : 64 ∣ n) (m : List Host.Cell) (tags : Table Nat) (poison : List Nat)
    (a : Nat) :
    ((lo ≤ a ∧ a < lo + n) → byteAt (clearBytes m lo n) a = 0 ∧
      Table.get 0 (tags.filter fun e => !sectorInside lo n e.1) (a / 64) = 0 ∧
      a / 64 ∉ poison.filter fun x => !sectorInside lo n x) ∧
    (¬ (lo ≤ a ∧ a < lo + n) → byteAt (clearBytes m lo n) a = byteAt m a ∧
      Table.get 0 (tags.filter fun e => !sectorInside lo n e.1) (a / 64) = Table.get 0 tags (a / 64)) := by
  have hinside := sectorInside_iff hlo hn a
  refine ⟨fun h => ⟨byteAt_clearBytes_in h, ?_, fun hmem => ?_⟩, fun h => ⟨byteAt_clearBytes_out h, ?_⟩⟩
  · rw [Table.get_filter_not, if_pos (hinside.mpr h)]
  · have := (List.mem_filter.mp hmem).2
    simp [hinside.mpr h] at this
  · rw [Table.get_filter_not, if_neg fun hin => h (hinside.mp hin)]

/-! ### Mailboxes (R375, R376) -/

/-- A response shows that the request was served. -/
theorem byteAt_respond (box : List Host.Cell) (bs : List Byte) : byteAt (respond box bs) 0x1F8 = 2 :=
  byteAt_writeBytes_in _ 0x1F8 [2] 0 (by decide)

/-- What is read of a response is what was written. -/
theorem readBytes_respond (box : List Host.Cell) {bs : List Byte} {off n : Nat} (hfits : off + n ≤ bs.length) (hroom : bs.length ≤ 248) :
    readBytes (respond box bs) (0x100 + off) n = (bs.drop off).take n := by
  rw [respond, readBytes_writeBytes_out _ _ _ _ _ (.inl (by omega)), List.take_of_length_le hroom]
  refine List.ext_getElem (by simp [readBytes_length]; omega) fun i h1 h2 => ?_
  rw [readBytes_length] at h1
  rw [readBytes_getElem, Nat.add_assoc, byteAt_writeBytes_in _ _ _ _ (by omega)]
  simp

/-- The status of a response of one number. -/
theorem status_respond (box : List Host.Cell) (v : Nat) : ofBytes (readBytes (respond box (toBytes 8 v)) 0x100 8) = v % 2 ^ 64 := by
  have hread := readBytes_respond box (bs := toBytes 8 v) (off := 0) (n := 8) (by rw [toBytes_length]) (by rw [toBytes_length]; decide)
  rw [Nat.add_zero, List.drop_zero, List.take_of_length_le (by rw [toBytes_length])] at hread
  rw [hread, ofBytes_toBytes]

theorem refusalStatus_ne_zero (s : State) : s.refusalStatus % 2 ^ 64 ≠ 0 := by
  have hword : (Config.freeWord s.free 31).toNat < 2 ^ 64 := BitVec.isLt _
  have hstatus : s.refusalStatus = if (Config.freeWord s.free 31).toNat = 0 then 1 else (Config.freeWord s.free 31).toNat := rfl
  rw [hstatus]
  split <;> omega

section
variable {s : State} {command : Nat} {serve : List Host.Cell → State × List Byte}

theorem gnomer_served (hready : s.bar.ready = true) (hasked : byteAt s.bar.gmbox 0x1F8 = 1)
    (hcommand : ofBytes (readBytes s.bar.gmbox 0 8) = command) : gnomer s command serve =
      .next { (serve s.bar.gmbox).1 with
        bar := { (serve s.bar.gmbox).1.bar with gmbox := respond s.bar.gmbox (serve s.bar.gmbox).2 } } := by
  have hrequest : requestNat s.bar.gmbox 0 = command := hcommand
  simp [gnomer, hready, requested, hasked, hrequest]

theorem management_served (hready : s.bar.ready = true) (hasked : byteAt s.bar.mcbox 0x1F8 = 1)
    (hcommand : ofBytes (readBytes s.bar.mcbox 0 8) = command) : management s command serve =
      .next { (serve s.bar.mcbox).1 with
        bar := { (serve s.bar.mcbox).1.bar with mcbox := respond s.bar.mcbox (serve s.bar.mcbox).2 } } := by
  have hrequest : requestNat s.bar.mcbox 0 = command := hcommand
  simp [management, hready, requested, hasked, hrequest]

end

/-! ### Key slots (R336, R375) -/

/-- Sealing a slot's sectors leaves the keys. -/
theorem State.sealSlot_keys (s : State) (slot : Nat) : (s.sealSlot slot).keys = s.keys := by
  unfold State.sealSlot
  extract_lets mine
  obtain ⟨mem, tags, h⟩ := State.rekeyAll_frame mine (s.dropSectors fun x key => mine.contains x || key == slot) 0
  rw [h]
  rfl

/-- The keys without a slot's. -/
theorem occupied_filter {α : Type} (keys : Table α) (slot k : Nat) :
    ((keys.filter fun e => e.1 != slot).any fun e => e.1 == k) = (decide (k ≠ slot) && keys.any fun e => e.1 == k) := by
  rw [Bool.eq_iff_iff]
  simp only [List.any_filter, List.any_eq_true, Bool.and_eq_true, bne_iff_ne, beq_iff_eq, decide_eq_true_eq]
  constructor
  · rintro ⟨e, he, hne, rfl⟩
    exact ⟨hne, e, he, rfl⟩
  · rintro ⟨hne, e, he, rfl⟩
    exact ⟨e, he, hne, rfl⟩

/-! ### The hash masks (R329, R340) -/

theorem Table.get_set_other {α : Type} [DecidableEq α] (d : α) (t : Table α) {n k : Nat} (h : k ≠ n) (v : α) :
    Table.get d (Table.set d t n v) k = Table.get d t k := by
  have hmid : ∀ e ∈ (if v = d then [] else [(n, v)] : Table α), e.1 ≠ k := fun e he => by
    split at he
    · cases he
    · rw [List.mem_singleton] at he
      subst he
      exact Ne.symm h
  rw [Table.set]
  rcases Nat.lt_or_gt_of_ne h with hlt | hgt
  · rw [Table.get_append_right, Table.get_filter _ fun v => by simpa using hlt]
    intro e he
    rcases List.mem_append.mp he with he | he
    · exact hmid e he
    · have := (List.mem_filter.mp he).2
      simp only [decide_eq_true_eq] at this
      omega
  · rw [Table.get_append fun e he => ?_, Table.get_append hmid, Table.get_filter _ fun v => by simpa using hgt]
    have := (List.mem_filter.mp he).2
    simp only [decide_eq_true_eq] at this
    omega

/-- The masks of a stack put in force from a place of theirs on. -/
theorem get_hmask_fold (stack : Nat) (ms : List Word) (from_ : Nat) (t : Table Word) (k : Nat) :
    Table.get 0 ((ms.zipIdx from_).foldl (fun t m => Table.set 0 t (6 * stack + m.2) (m.1 ^^^ defaultMask m.2)) t) k =
      if 6 * stack + from_ ≤ k ∧ k < 6 * stack + from_ + ms.length then
        (ms[k - (6 * stack + from_)]?.getD 0) ^^^ defaultMask (k - 6 * stack)
      else Table.get 0 t k := by
  induction ms generalizing from_ t with
  | nil => simp
  | cons m ms ih =>
    rw [List.zipIdx_cons, List.foldl_cons, ih]
    by_cases hk : k = 6 * stack + from_
    · subst hk
      rw [if_neg (by omega), if_pos (by simp), Table.get_set_same]
      simp
    · rw [Table.get_set_other _ _ hk]
      by_cases hin : 6 * stack + from_ ≤ k ∧ k < 6 * stack + from_ + (m :: ms).length
      · have hlength : (m :: ms).length = ms.length + 1 := rfl
        rw [if_pos hin, if_pos (by omega), show k - (6 * stack + from_) = k - (6 * stack + (from_ + 1)) + 1 by omega,
          List.getElem?_cons_succ]
      · have hlength : (m :: ms).length = ms.length + 1 := rfl
        rw [if_neg hin, if_neg (by omega)]

theorem State.hashMask_initStack (s : State) (stack : Nat) {ms : List Word} {j : Nat} (hj : j < ms.length) :
    (s.initStack stack ms).hashMask stack j = ms[j] := by
  have hget := get_hmask_fold stack ms 0 s.hmask (6 * stack + j)
  rw [if_pos (by omega), show 6 * stack + j - (6 * stack + 0) = j by omega, show 6 * stack + j - 6 * stack = j by omega,
    List.getElem?_eq_getElem hj, Option.getD_some] at hget
  rw [State.hashMask]
  refine (congrArg (· ^^^ defaultMask j) hget).trans ?_
  rw [BitVec.xor_assoc, BitVec.xor_self, BitVec.xor_zero]

/-- The bits of an offset that a mask selects. -/
theorem hashBit_eq (mask : Word) (o : Nat) : hashBit mask o = ((upTo 0 64).countP fun i => mask.getLsbD i && o.testBit i) % 2 := by
  rw [hashBit, List.countP_eq_length_filter]

theorem upTo_nodup (a n : Nat) : (upTo a n).Nodup := by
  induction n generalizing a with
  | zero => exact List.nodup_nil
  | succ n ih =>
    refine List.nodup_cons.mpr ⟨fun hmem => ?_, ih _⟩
    rw [mem_upTo] at hmem
    omega

/-- One of the first 64 places is picked once, or not at all. -/
theorem countP_place {n : Nat} (hn : n < 64) (b : Bool) : ((upTo 0 64).countP fun i => decide (i = n) && b) = b.toNat := by
  cases b with
  | false => simp
  | true =>
    have hmem : n ∈ upTo 0 64 := (mem_upTo ..).mpr ⟨Nat.zero_le n, by omega⟩
    have hone := List.count_eq_one_of_mem (upTo_nodup 0 64) hmem
    rw [List.count] at hone
    simpa [beq_eq_decide] using hone

/-- A mask of one bit selects that bit of the offset. -/
theorem hashBit_one {mask : Word} {n : Nat} (hn : n < 64) (hmask : ∀ i, i < 64 → mask.getLsbD i = decide (i = n)) (o : Nat) :
    hashBit mask o = (o.testBit n).toNat := by
  have hpick : ∀ i ∈ upTo 0 64, ((mask.getLsbD i && o.testBit i) = true ↔ (decide (i = n) && o.testBit n) = true) := fun i hi => by
    rw [hmask i (by have := (mem_upTo ..).mp hi; omega)]
    simp only [Bool.and_eq_true, decide_eq_true_eq]
    exact and_congr_right fun h => by rw [h]
  rw [hashBit_eq, List.countP_congr hpick, countP_place hn]
  cases o.testBit n <;> rfl

/-- A mask of two bits selects the two, and their exclusive or is the output. -/
theorem hashBit_two {mask : Word} {n m : Nat} (hn : n < 64) (hm : m < 64) (hne : n ≠ m)
    (hmask : ∀ i, i < 64 → mask.getLsbD i = (decide (i = n) || decide (i = m))) (o : Nat) :
    hashBit mask o = (o.testBit n ^^ o.testBit m).toNat := by
  have hsplit (l : List Nat) : (l.countP fun i => (decide (i = n) || decide (i = m)) && o.testBit i) =
      (l.countP fun i => decide (i = n) && o.testBit n) + l.countP fun i => decide (i = m) && o.testBit m := by
    induction l with
    | nil => rfl
    | cons i l ih =>
      rw [List.countP_cons, List.countP_cons, List.countP_cons, ih]
      by_cases hin : i = n
      · subst hin
        simp [hne]
        omega
      · by_cases him : i = m
        · subst him
          simp [hin]
          omega
        · simp [hin, him]
  have hpick : ∀ i ∈ upTo 0 64, ((mask.getLsbD i && o.testBit i) = true ↔
      ((decide (i = n) || decide (i = m)) && o.testBit i) = true) := fun i hi => by
    rw [hmask i (by have := (mem_upTo ..).mp hi; omega)]
  rw [hashBit_eq, List.countP_congr hpick, hsplit, countP_place hn, countP_place hm]
  cases o.testBit n <;> cases o.testBit m <;> rfl

/-- Six outputs are the bits of a number. -/
theorem hash_of_bits {s : State} {k o x : Nat} (hx : x < 64) (h : ∀ j, j < 6 → hashBit (s.hashMask k j) o = (x.testBit j).toNat) :
    s.stackHash k o = x := by
  have hbits : ∀ x, x < 64 → (upTo 0 6).foldl (fun h j => h + (x.testBit j).toNat * 2 ^ j) 0 = x := by decide
  refine Eq.trans ?_ (hbits x hx)
  simp only [State.stackHash, upTo, List.foldl_cons, List.foldl_nil, h 0 (by decide), h 1 (by decide), h 2 (by decide),
    h 3 (by decide), h 4 (by decide), h 5 (by decide)]

theorem testBit_bits (o n j : Nat) (hj : j < 6) : (o / 2 ^ n % 64).testBit j = o.testBit (n + j) := by
  rw [show 64 = 2 ^ 6 from rfl, Nat.testBit_mod_two_pow, Nat.testBit_div_two_pow, decide_eq_true hj, Bool.true_and, Nat.add_comm]

end Sys2Proof.Machine
end

section
/-!
SUPPORT. The hub's events, each by what it leaves: bring-up, the mailbox commands, the hash, thermal trip and soft errors.
-/
namespace Sys2Proof.Machine

/-! ### Bring-up (R374) -/

/-- The state that bring-up leaves before any stack is erased. -/
theorem execBringUp_eq (s : State) (verified : Bool) {part : Nat} (h : part ≤ 3071) : ∃ up : State,
    execBringUp verified part s = .next (if verified then
      { up.eraseStacks part with bar := { Bar0.powerOn with ready := true, part := part } } else up) ∧
    s.lantern.toNat ≤ up.lantern.toNat ∧
    up = { State.reset with
      lantern := up.lantern, measurements := (List.range 4).map Config.measurement, mem := s.mem, tags := s.tags, poison := s.poison
      sentIrq := s.sentIrq, hostLog := s.hostLog, agenda := s.agenda, free := s.free, ids := s.ids } := by
  refine ⟨_, if_neg (Nat.not_lt.mpr h), ?_, rfl⟩
  dsimp only
  split
  · exact Nat.le_refl _
  · omega

theorem bringUp_erases (s : State) (verified : Bool) {part : Nat} (h : part ≤ 3071) :
    ∃ t, exec (.bringUp verified part) s = .next t ∧ s.lantern.toNat ≤ t.lantern.toNat ∧
      t.bar.ready = verified ∧ (verified = true → t.bar.part = part) ∧ t.keys = [] ∧ t.launches = [] ∧
      t.party = State.reset.party ∧ t.others = [] ∧ t.measurements = (List.range 4).map Config.measurement ∧
      let mine (a : Nat) : Prop := verified = true ∧ part * 2 ^ 44 ≤ a ∧ a < (part + 1) * 2 ^ 44
      (∀ a, mine a → byteAt t.mem a = 0 ∧ Table.get 0 t.tags (a / 64) = 0 ∧ a / 64 ∉ t.poison) ∧
      ∀ a, ¬ mine a → byteAt t.mem a = byteAt s.mem a ∧ Table.get 0 t.tags (a / 64) = Table.get 0 s.tags (a / 64) := by
  obtain ⟨up, hexec, hlantern, hup⟩ := execBringUp_eq s verified h
  refine ⟨_, hexec, ?_⟩
  rw [hup]
  cases verified with
  | false =>
    exact ⟨hlantern, rfl, nofun, rfl, rfl, rfl, rfl, rfl, fun a ha => absurd ha.1 (by decide), fun a _ => ⟨rfl, rfl⟩⟩
  | true =>
    have hmine (a : Nat) : part * 2 ^ 44 ≤ a ∧ a < (part + 1) * 2 ^ 44 ↔ part * 2 ^ 44 ≤ a ∧ a < part * 2 ^ 44 + 2 ^ 44 := by
      rw [Nat.add_one_mul]
    have hcleared (a : Nat) := cleared_range (lo := part * 2 ^ 44) (n := 2 ^ 44) (Dvd.intro_left (part * 2 ^ 38) (by omega))
      (by decide) s.mem s.tags s.poison a
    refine ⟨hlantern, rfl, fun _ => rfl, rfl, rfl, rfl, rfl, rfl, fun a ha => (hcleared a).1 ((hmine a).mp ha.2), fun a ha => ?_⟩
    exact (hcleared a).2 fun hin => ha ⟨rfl, (hmine a).mpr hin⟩

/-! ### Gnomer (R375) -/

theorem State.reportBytes_length (s : State) (nonce : List Byte) : 248 ≤ (s.reportBytes nonce).length := by
  have htail : ∀ n, (upTo 0 n).length = n := fun n => length_upTo ..
  simp only [State.reportBytes, List.length_append, List.length_map, htail]
  omega

section
variable {s : State} (hready : s.bar.ready = true) (hasked : byteAt s.bar.gmbox 0x1F8 = 1)
include hready hasked

theorem attest_reports (hcommand : ofBytes (readBytes s.bar.gmbox 0 8) = 1) :
    ∃ t, exec .attest s = .next t ∧ byteAt t.bar.gmbox 0x1F8 = 2 ∧
      t = { s with attested := t.attested, bar := { s.bar with gmbox := t.bar.gmbox } } ∧
      readBytes t.bar.gmbox 0x100 248 = t.attested.take 248 ∧
      ∃ signature, t.attested = readBytes s.bar.gmbox 8 32 ++ (s.measurements.flatMap fun m => toBytes 64 m.toNat) ++
        toBytes 2 s.bar.part ++ toBytes 8 Config.fusedSerial.toNat ++
        toBytes 32 (s.keys.foldl (fun n k => n ||| 2 ^ (k.1 % 256)) 0) ++ signature := by
  let report := s.reportBytes (readBytes s.bar.gmbox 8 32)
  have hlength : (report.take 248).length = 248 := by
    rw [List.length_take, Nat.min_eq_left (s.reportBytes_length _)]
  have hread := readBytes_respond s.bar.gmbox (bs := report.take 248) (off := 0) (n := 248) (by omega) (by omega)
  have hexec : execAttest s = .next { s with
      attested := report, bar := { s.bar with gmbox := respond s.bar.gmbox (report.take 248) } } := by
    rw [execAttest, gnomer_served hready hasked hcommand]
  refine ⟨_, hexec, byteAt_respond .., rfl, ?_, _, rfl⟩
  rwa [List.drop_zero, List.take_of_length_le (Nat.le_of_eq hlength)] at hread

theorem keyload_fills {slot : Nat} (hcommand : ofBytes (readBytes s.bar.gmbox 0 8) = 2)
    (hslot : ofBytes (readBytes s.bar.gmbox 8 8) = slot) (hlow : 1 ≤ slot) (hhigh : slot ≤ 255) (hfree : s.occupied slot = false)
    (hnamed : s.slotNamed slot = true) :
    ∃ t, exec .keyload s = .next t ∧ byteAt t.bar.gmbox 0x1F8 = 2 ∧ ofBytes (readBytes t.bar.gmbox 0x100 8) = 0 ∧
      t.occupied slot = true ∧ t = { s with keys := t.keys, bar := { s.bar with gmbox := t.bar.gmbox } } := by
  have hgood : (!goodSlot slot || s.occupied slot || !s.slotNamed slot) = false := by simp [goodSlot, hlow, hhigh, hfree, hnamed]
  have hrequest : requestNat s.bar.gmbox 8 = slot := hslot
  have hexec : ∃ k, execKeyload s = .next { s with
      keys := s.keys.filter (fun e => e.1 < slot) ++ ((slot, k) :: s.keys.filter fun e => slot < e.1)
      bar := { s.bar with gmbox := respond s.bar.gmbox (toBytes 8 0) } } := by
    rw [execKeyload, gnomer_served hready hasked hcommand]
    simp only [hrequest, hgood, if_neg Bool.false_ne_true]
    exact ⟨_, rfl⟩
  obtain ⟨k, hexec⟩ := hexec
  exact ⟨_, hexec, byteAt_respond .., status_respond _ 0, by simp [State.occupied], rfl⟩

theorem keyload_refuses {slot : Nat} (hcommand : ofBytes (readBytes s.bar.gmbox 0 8) = 2)
    (hslot : ofBytes (readBytes s.bar.gmbox 8 8) = slot)
    (h : slot = 0 ∨ 255 < slot ∨ s.occupied slot = true ∨ s.slotNamed slot = false) :
    ∃ t, exec .keyload s = .next t ∧ byteAt t.bar.gmbox 0x1F8 = 2 ∧ ofBytes (readBytes t.bar.gmbox 0x100 8) ≠ 0 ∧
      t = { s with bar := { s.bar with gmbox := t.bar.gmbox } } := by
  have hbad : (!goodSlot slot || s.occupied slot || !s.slotNamed slot) = true := by
    rcases h with rfl | hhigh | hfull | hnot
    · simp [goodSlot]
    · simp [goodSlot, hhigh]
    · simp [hfull]
    · simp [hnot]
  have hrequest : requestNat s.bar.gmbox 8 = slot := hslot
  have hexec : execKeyload s =
      .next { s with bar := { s.bar with gmbox := respond s.bar.gmbox (toBytes 8 s.refusalStatus) } } := by
    rw [execKeyload, gnomer_served hready hasked hcommand]
    simp only [hrequest, hbad, if_true]
  refine ⟨_, hexec, byteAt_respond .., ?_, rfl⟩
  rw [status_respond]
  exact refusalStatus_ne_zero s

theorem keyclear_empties {slot : Nat} (hcommand : ofBytes (readBytes s.bar.gmbox 0 8) = 3)
    (hslot : ofBytes (readBytes s.bar.gmbox 8 8) = slot) (hlow : 1 ≤ slot) (hhigh : slot ≤ 255) :
    ∃ t, exec .keyclear s = .next t ∧ byteAt t.bar.gmbox 0x1F8 = 2 ∧ ofBytes (readBytes t.bar.gmbox 0x100 8) = 0 ∧
      t.occupied slot = false ∧ ∀ k, k ≠ slot → t.occupied k = s.occupied k := by
  have hgood : (!goodSlot slot) = false := by simp [goodSlot, hlow, hhigh]
  have hrequest : requestNat s.bar.gmbox 8 = slot := hslot
  let t := s.sealSlot slot
  have hexec : execKeyclear s = .next { t with
      keys := t.keys.filter fun e => e.1 != slot, bar := { t.bar with gmbox := respond s.bar.gmbox (toBytes 8 0) } } := by
    rw [execKeyclear, gnomer_served hready hasked hcommand]
    simp only [hrequest, hgood, if_neg Bool.false_ne_true]
    rfl
  have hkeys : t.keys = s.keys := s.sealSlot_keys slot
  refine ⟨_, hexec, byteAt_respond .., status_respond _ 0, ?_, fun k hk => ?_⟩
  · exact (occupied_filter t.keys slot slot).trans (by simp)
  · exact (occupied_filter t.keys slot k).trans (by simp [hk, hkeys, State.occupied])

end

/-! ### The management controller (R331, R376) -/

section
variable {s : State} (hready : s.bar.ready = true) (hasked : byteAt s.bar.mcbox 0x1F8 = 1)
include hready hasked

theorem stackinit_erases (hcommand : ofBytes (readBytes s.bar.mcbox 0 8) = 1) (hgood : badRequest s.bar.mcbox 64 = false)
    (hidle : s.workInFlight = false)
    (hmasks : masksValid ((List.range 6).map fun j => BitVec.ofNat 64 (ofBytes (readBytes s.bar.mcbox (16 + 8 * j) 8))) = true) :
    let stack := ofBytes (readBytes s.bar.mcbox 8 8)
    ∃ t, exec .stackinit s = .next t ∧ byteAt t.bar.mcbox 0x1F8 = 2 ∧ ofBytes (readBytes t.bar.mcbox 0x100 8) = 0 ∧
        let inside (a : Nat) : Prop := s.bar.part * 2 ^ 44 + stack * 2 ^ 36 ≤ a ∧ a < s.bar.part * 2 ^ 44 + (stack + 1) * 2 ^ 36
        (∀ a, inside a → byteAt t.mem a = 0 ∧ Table.get 0 t.tags (a / 64) = 0 ∧ a / 64 ∉ t.poison) ∧
        (∀ a, ¬ inside a → byteAt t.mem a = byteAt s.mem a) ∧
        ∀ j, j < 6 → t.hashMask stack j = BitVec.ofNat 64 (ofBytes (readBytes s.bar.mcbox (16 + 8 * j) 8)) := by
  intro stack
  let mask (j : Nat) : Word := BitVec.ofNat 64 (ofBytes (readBytes s.bar.mcbox (16 + 8 * j) 8))
  let ms := (upTo 0 6).map mask
  have hvalid : masksValid ((upTo 0 6).map fun j => BitVec.ofNat 64 (requestNat s.bar.mcbox (16 + 8 * j))) = true := hmasks
  let t := s.initStack stack ms
  have hexec : execStackinit s = .next { t with bar := { t.bar with mcbox := respond s.bar.mcbox (toBytes 8 0) } } := by
    rw [execStackinit, management_served hready hasked hcommand]
    simp only [hgood, hidle, hvalid, Bool.not_true, if_neg Bool.false_ne_true]
    rfl
  have hinside (a : Nat) : s.bar.part * 2 ^ 44 + stack * 2 ^ 36 ≤ a ∧ a < s.bar.part * 2 ^ 44 + (stack + 1) * 2 ^ 36 ↔
      s.bar.part * 2 ^ 44 + stack * 2 ^ 36 ≤ a ∧ a < s.bar.part * 2 ^ 44 + stack * 2 ^ 36 + 2 ^ 36 := by
    rw [Nat.add_one_mul, Nat.add_assoc]
  have hcleared (a : Nat) := cleared_range (lo := s.bar.part * 2 ^ 44 + stack * 2 ^ 36) (n := 2 ^ 36)
    (Dvd.intro_left (s.bar.part * 2 ^ 38 + stack * 2 ^ 30) (by omega)) (by decide) s.mem s.tags s.poison a
  refine ⟨_, hexec, byteAt_respond .., status_respond _ 0, fun a ha => (hcleared a).1 ((hinside a).mp ha), fun a ha =>
    ((hcleared a).2 fun hin => ha ((hinside a).mpr hin)).1, fun j hj => ?_⟩
  have hms : ms[j]? = some (mask j) := by
    have : j = 0 ∨ j = 1 ∨ j = 2 ∨ j = 3 ∨ j = 4 ∨ j = 5 := by omega
    rcases this with rfl | rfl | rfl | rfl | rfl | rfl <;> rfl
  obtain ⟨hlt, hget⟩ := List.getElem?_eq_some_iff.mp hms
  exact (s.hashMask_initStack stack hlt).trans hget

theorem stackinit_refuses (hcommand : ofBytes (readBytes s.bar.mcbox 0 8) = 1) (hbusy : s.workInFlight = true) :
    ∃ t, exec .stackinit s = .next t ∧ byteAt t.bar.mcbox 0x1F8 = 2 ∧ ofBytes (readBytes t.bar.mcbox 0x100 8) ≠ 0 ∧
      t.mem = s.mem := by
  have hexec : ∃ n, (1 ≤ n ∧ n ≤ 3) ∧
      execStackinit s = .next { s with bar := { s.bar with mcbox := respond s.bar.mcbox (toBytes 8 n) } } := by
    rw [execStackinit, management_served hready hasked hcommand]
    simp only [hbusy, if_true]
    split
    · exact ⟨1, by decide, rfl⟩
    · split
      · exact ⟨2, by decide, rfl⟩
      · exact ⟨3, by decide, rfl⟩
  obtain ⟨n, hn, hexec⟩ := hexec
  refine ⟨_, hexec, byteAt_respond .., ?_, rfl⟩
  rw [status_respond]
  omega

theorem stackinfo_answers (hcommand : ofBytes (readBytes s.bar.mcbox 0 8) = 2) (hgood : badRequest s.bar.mcbox 16 = false) :
    let stack := ofBytes (readBytes s.bar.mcbox 8 8)
    ∃ t, exec .stackinfo s = .next t ∧ byteAt t.bar.mcbox 0x1F8 = 2 ∧
      ofBytes (readBytes t.bar.mcbox 0x100 8) = 0 ∧
      (∀ j, j < 6 → ofBytes (readBytes t.bar.mcbox (0x108 + 8 * j) 8) = (s.hashMask stack j).toNat) ∧
      t = { s with bar := { s.bar with mcbox := t.bar.mcbox } } := by
  intro stack
  let bs := toBytes 8 0 ++ (upTo 0 6).flatMap fun j => toBytes 8 (s.hashMask stack j).toNat
  have hlength : bs.length = 56 := by simp [bs, upTo, toBytes_length]
  have hread (off : Nat) (h : off + 8 ≤ 56) := readBytes_respond s.bar.mcbox (bs := bs) (off := off) (n := 8) (by omega) (by omega)
  have hexec : execStackinfo s = .next { s with bar := { s.bar with mcbox := respond s.bar.mcbox bs } } := by
    rw [execStackinfo, management_served hready hasked hcommand]
    simp only [hgood, if_neg Bool.false_ne_true]
    rfl
  refine ⟨_, hexec, byteAt_respond .., ?_, fun j hj => ?_, rfl⟩
  · have hzero : (bs.drop 0).take 8 = toBytes 8 0 := rfl
    have hfirst := hread 0 (by omega)
    rw [Nat.add_zero, hzero] at hfirst
    rw [hfirst, ofBytes_toBytes, Nat.zero_mod]
  · have hmask : (bs.drop (8 + 8 * j)).take 8 = toBytes 8 (s.hashMask stack j).toNat := by
      have : j = 0 ∨ j = 1 ∨ j = 2 ∨ j = 3 ∨ j = 4 ∨ j = 5 := by omega
      rcases this with rfl | rfl | rfl | rfl | rfl | rfl <;> rfl
    have hat : 0x108 + 8 * j = 0x100 + (8 + 8 * j) := by omega
    rw [hat, hread (8 + 8 * j) (by omega), hmask, ofBytes_toBytes, Nat.mod_eq_of_lt (s.hashMask stack j).isLt]

end

/-! ### The hash (R340) -/

theorem getLsbD_shifted {n : Nat} (i : Nat) (hi : i < 64) : ((1 <<< n : Nat) : Word).getLsbD i = decide (i = n) := by
  rw [BitVec.natCast_eq_ofNat, BitVec.getLsbD_ofNat, decide_eq_true hi, Bool.true_and, Nat.one_shiftLeft, Nat.testBit_two_pow]
  exact decide_eq_decide.mpr eq_comm

theorem stackHash_default {s : State} {k : Nat} (h : ∀ j, j < 6 → s.hashMask k j = (1 <<< (6 + j) : Nat)) (o : Nat) :
    s.stackHash k o = o / 64 % 64 := by
  refine hash_of_bits (Nat.mod_lt _ (by decide)) fun j hj => ?_
  rw [h j hj, hashBit_one (by omega) (fun i hi => getLsbD_shifted i hi), ← testBit_bits o 6 j hj]
  rfl

theorem stackHash_two {s : State} {k : Nat}
    (h : ∀ j, j < 6 → s.hashMask k j = ((1 <<< (6 + j) : Nat) : Word) ||| ((1 <<< (13 + j) : Nat) : Word)) (o : Nat) :
    s.stackHash k o = (o / 64 % 64) ^^^ (o / 2 ^ 13 % 64) := by
  have hlow : o / 64 % 64 < 2 ^ 6 := Nat.mod_lt _ (by decide)
  have hhigh : o / 2 ^ 13 % 64 < 2 ^ 6 := Nat.mod_lt _ (by decide)
  refine hash_of_bits (Nat.xor_lt_two_pow hlow hhigh) fun j hj => ?_
  have hmask (i : Nat) (hi : i < 64) : (((1 <<< (6 + j) : Nat) : Word) ||| ((1 <<< (13 + j) : Nat) : Word)).getLsbD i =
      (decide (i = 6 + j) || decide (i = 13 + j)) := by
    rw [BitVec.getLsbD_or, getLsbD_shifted i hi, getLsbD_shifted i hi]
  rw [h j hj, hashBit_two (by omega) (by omega) (by omega) hmask, Nat.testBit_xor, testBit_bits o 13 j hj,
    ← testBit_bits o 6 j hj]
  rfl

/-! ### Thermal trip and soft errors (R337, R377) -/

theorem thermalTrip_ends (s : State) : ∃ t, exec .thermalTrip s = .next t ∧ t.held = true ∧ t.bar.trip = true ∧
    (∀ i ∈ s.validContexts, ∀ x ∈ t.launches, x.space.ctx ≠ i) ∧
    ∀ i, s.validContexts = [i] → ∃ e : Event, e.kind = 4 ∧
      t = { ({ s with bar := { s.bar with trip := true } }.resetContext i).report i e with held := true } := by
  let tripped : State := { s with bar := { s.bar with trip := true } }
  let reset := s.validContexts.foldl State.resetContext tripped
  let told := s.validContexts.foldl (fun (s : State) i => s.report i { kind := 4, cause := 0, place := s.openPlace }) reset
  obtain ⟨hends, hbar⟩ := foldl_resetContext s.validContexts tripped
  have htold : LaunchesKept reset told := .foldl (fun u i => State.report_keeps ..) s.validContexts reset
  refine ⟨{ told with held := true }, rfl, rfl, ?_, fun i hi x hx => ?_, fun i hone => ?_⟩
  · exact (congrArg Bar0.trip (htold.bar.trans hbar)).trans rfl
  · exact hends x (htold.launches ▸ hx) i hi
  · have hreset : reset = tripped.resetContext i := by
      simp only [reset, hone, List.foldl_cons, List.foldl_nil]
    have htoldOne : told = (tripped.resetContext i).report i { kind := 4, cause := 0, place := reset.openPlace } := by
      simp only [told, hone, hreset, List.foldl_cons, List.foldl_nil]
    exact ⟨{ kind := 4, cause := 0, place := reset.openPlace }, rfl, congrArg (fun u : State => { u with held := true }) htoldOne⟩

theorem softError_party {s : State} (hready : s.party.ready = true) :
    exec (.softError (.party s.party.pid)) s = .next (s.halt true) := by
  have hfocus (u : State) (h : u.party.pid = s.party.pid) : u.focus s.party.pid = u := if_pos h
  show onParty s s.party.pid State.strikeParty = _
  rw [onParty, State.party?_self, hfocus s rfl, State.strikeParty, hready, hfocus]
  · rfl
  · exact State.halt_pid s true

/-- Where one context alone is valid, it is told. -/
theorem State.reportSoftMemory_one {u : State} {i : Nat} (h : u.validContexts = [i]) (addr : Word) :
    u.reportSoftMemory addr = u.reportSoft i u.openPlace addr := by
  unfold State.reportSoftMemory
  simp [h, Nat.mod_one]

theorem softError_sector (s : State) (n : Nat) :
    ∃ u : State, exec (.softError (.sector n)) s = .next (u.reportSoftMemory (BitVec.ofNat 64 (64 * n))) ∧
      n ∈ u.poison ∧ u = { s with poison := u.poison, copies := u.copies } ∧
      ∀ i, u.validContexts = [i] → ∃ e : Event, e.kind = 4 ∧ e.soft = true ∧ e.addr = BitVec.ofNat 64 (64 * n) ∧
        u.reportSoftMemory (BitVec.ofNat 64 (64 * n)) = u.report i e := by
  refine ⟨s.poisonByte (.phys (64 * n) 0), rfl, ?_, rfl, fun i hone => ⟨_, rfl, rfl, rfl, State.reportSoftMemory_one hone _⟩⟩
  show n ∈ insertSorted (64 * n / 64) s.poison
  rw [Nat.mul_div_cancel_left n (by decide), insertSorted]
  simp

/-- Settles O59: each event by its own lemma above. -/
theorem hubEvents : Obligations.HubEvents := by
  unfold Obligations.HubEvents
  intro s served gnomer manager slot stack status
  refine ⟨fun verified part hpart => bringUp_erases s verified hpart, fun verified part hpart => if_pos hpart,
    fun ⟨hready, hasked, hcommand⟩ => attest_reports hready hasked hcommand,
    fun ⟨hready, hasked, hcommand⟩ hlow hhigh hfree hnamed => keyload_fills hready hasked hcommand rfl hlow hhigh hfree hnamed,
    fun ⟨hready, hasked, hcommand⟩ h => keyload_refuses hready hasked hcommand rfl h,
    fun ⟨hready, hasked, hcommand⟩ hlow hhigh => keyclear_empties hready hasked hcommand rfl hlow hhigh,
    fun ⟨hready, hasked, hcommand⟩ hgood hidle hmasks => stackinit_erases hready hasked hcommand hgood hidle hmasks,
    fun ⟨hready, hasked, hcommand⟩ hbusy => stackinit_refuses hready hasked hcommand hbusy,
    fun ⟨hready, hasked, hcommand⟩ hgood => stackinfo_answers hready hasked hcommand hgood,
    fun k o => ⟨fun h => stackHash_default h o, fun h => stackHash_two h o⟩, rfl, thermalTrip_ends s, rfl,
    softError_party, softError_sector s, fun k hk => ?_, ?_⟩
  · refine ⟨{ s with scrubbed := Table.set 0 s.scrubbed k s.lantern.toNat }, ?_, Table.get_set_same .., rfl⟩
    show execPatrolScrub k s = _
    rw [execPatrolScrub, if_pos hk]
  · exact ⟨_, rfl, rfl, rfl, rfl⟩

end Sys2Proof.Machine
end

section
/-!
SUPPORT. The events of the engines' queues: grants, tasks and Flowstone units, the end of a command, a task's status in its
batch, and Cavern's quiescence.
-/
namespace Sys2Proof.Machine

/-! ### Grants (R216, R241) -/

theorem State.acceptCommands_sameParty {s t : State} {p : Party} {l : List Command} (e : s.acceptCommands p l = some t) :
    SameParty s t := by
  unfold State.acceptCommands at e
  dsimp only at e
  split at e
  · cases e
  · cases e
    refine SameParty.trans (SameParty.foldl (fun u i => ?_) (upTo 0 16) s) (.of_eq rfl)
    split
    · exact .refl u
    · exact u.setBarrier_sameParty ..

theorem State.acceptTask_sameParty {s t : State} {p : Party} {x : Task} (e : s.acceptTask p x = some t) : SameParty s t := by
  unfold State.acceptTask at e
  split at e
  · cases e
    exact .of_eq rfl
  · cases e

/-- Parties that none of a fold's steps takes leave its result. -/
theorem oldest_of_no_waits {f : Option Party → Party → Option Party} {l : List Party}
    (hf : ∀ best, ∀ p ∈ l, f best p = best) (best : Option Party) : l.foldl f best = best := by
  induction l with
  | nil => rfl
  | cons q l ih =>
    rw [List.foldl_cons, hf best q List.mem_cons_self]
    exact ih fun best p hp => hf best p (List.mem_cons_of_mem _ hp)

section
variable {s t : State} {w : Wait} {kind : Work → Bool}
variable (halone : s.alone) (hwait : s.party.wait = some w) (haccept : w.kind = .accept) (hopen : w.decided = none)
include halone hwait haccept hopen

theorem State.oldestRequest_of_alone (hlive : s.party.live = true) (hresident : s.party.evicted = false)
    (hkind : kind w.work = true) : s.oldestRequest s.party.core kind = some s.party := by
  unfold State.oldestRequest
  rw [show s.parties = s.party :: s.others from rfl, List.foldl_cons]
  refine (oldest_of_no_waits (fun best p hp => by simp only [halone p hp]) _).trans ?_
  simp [hwait, haccept, hopen, hlive, hresident, hkind]

theorem State.testWait_granted (hgrant : s.acceptWork s.party w.work = some t) (hparty : t.party.evicted = false) :
    s.testWait = t.endWith w 0 := by
  have hattempt : s.attempt w = .ended t stOk := by
    simp only [State.attempt, haccept, State.grant_of_alone halone, hgrant]
  simp only [State.testWait, hwait, hopen, hattempt, hparty]
  rfl

theorem grantOldest_granted (hlive : s.party.live = true) (hresident : s.party.evicted = false)
    (hturn : s.turnAllows s.party.pid = true) (hkind : kind w.work = true) (hgrant : s.acceptWork s.party w.work = some t)
    (hsame : SameParty s t) : grantOldest s s.party.core kind = .next (t.endWith w 0) := by
  obtain ⟨n, v, hparty⟩ := hsame
  have hpid : (t.endWith w 0).party.pid = s.party.pid := by rw [State.endWith_pid, hparty]
  have hback : (t.endWith w 0).focus s.party.pid = t.endWith w 0 := if_pos hpid
  have htest := State.testWait_granted halone hwait haccept hopen hgrant (by rw [hparty]; exact hresident)
  simp only [grantOldest, State.oldestRequest_of_alone halone hwait haccept hopen hlive hresident hkind, hturn, onParty,
    State.party?_self, State.focus_self, htest, hback, Option.isSome_some, if_true]

end

/-! ### The end of a command (R220, R221) -/

theorem State.raiseTimes_nil (s : State) (n : Nat) : s.raiseTimes [] n = s := by
  simp [State.raiseTimes]

theorem State.dependBar_nil (s : State) (id : Nat) : s.dependBar id [] = s := rfl

theorem State.retireCommand_alone {s : State} {c : Command} (h : ∀ x ∈ s.commands, x.pred ≠ some c.id) :
    s.retireCommand c =
      { s with commands := s.commands.filter fun x => x.id != c.id, synced := Nat.max s.synced (c.time + 1) } := by
  have hnone : s.commands.filter (fun x => x.pred == some c.id) = [] :=
    List.filter_eq_nil_iff.mpr fun x hx => by simp [h x hx]
  have hafter : s.successors c = [] := by rw [State.successors, hnone, List.flatMap_nil]
  have hfilter : (s.commands.filter fun x => x.id != c.id && !(x.pred == some c.id && x.kind == 3)) =
      s.commands.filter fun x => x.id != c.id := List.filter_congr fun x hx => by simp [h x hx]
  simp only [State.retireCommand, hafter, State.dependBar_nil, State.raiseTimes_nil, State.signalAt, hfilter]

theorem execCommandCompletion_ends {s u v : State} {c : Command} {time end_ : Nat}
    (hfind : (s.commands.find? fun x => x.id == c.id) = some c) (hdone : c.executed = true) (hoffer : c.offer = none)
    (hword : (if c.cwaddr = 0 then .ok (s, c.time) else s.signalWord (s.commandAccessor c) c.agent c.cwaddr c.signal) =
      .ok (u, time))
    (hsem : (if c.semaddr = 0 then .ok (u, time) else
      u.release (s.commandAccessor c) { c.agent with time := time + 1 } c.semaddr 1) = .ok (v, end_)) :
    execCommandCompletion c.id s = .next (v.retireCommand { c with cwaddr := 0, time := end_ }) := by
  have hpending : ¬ (!c.executed || c.offer.isSome) = true := by simp [hdone, hoffer]
  unfold execCommandCompletion
  rw [hfind]
  dsimp only
  rw [if_neg hpending, hword]
  dsimp only [Command.agent, Command.path] at hsem ⊢
  rw [hsem]

/-! ### Engines and Flowstone units (R257, R277) -/

/-- A task that an idle engine takes. -/
def Task.taken (t : Task) (engine : Nat) : Task := { t with started := true, engine := engine }

theorem execTaskStart_taken {s : State} {engine : Nat} {t : Task} (hidle : s.engineIdle engine = true) (hlt : engine < 512)
    (hnext : s.nextTask engine = some t) :
    execTaskStart engine s = .next ((s.putTask (t.taken engine)).runTask (t.taken engine)) := by
  have hengine : ¬ 4 * Config.cores ≤ engine := Nat.not_le.mpr hlt
  simp only [execTaskStart, hidle, hengine, hnext, Bool.not_true, decide_false, Bool.or_self]
  rfl

theorem execTaskStart_none {s : State} {engine : Nat} (hnext : s.nextTask engine = none) :
    execTaskStart engine s = .next s := by
  simp only [execTaskStart, hnext, ite_self]

/-- What the units of a cluster make of one waiting task. -/
def State.assignUnit (s : State) (t : Task) : State :=
  if t.awaitsUnit then
    match (s.unitsFor t).find? (s.unitFree (clusterOfCore t.core)) with
    | some k => s.putTask { t with unit := some k, released := true }
    | none => s
  else s

theorem State.assignUnits_eq (s : State) : s.assignUnits = s.tasks.foldl State.assignUnit s := rfl

/-- A fold over elements of which one alone has an effect. -/
theorem foldl_only {α β : Type} {f : β → α → β} {a : α} {l : List α} (hmem : a ∈ l) (hnodup : l.Nodup)
    (h : ∀ b, ∀ x ∈ l, x ≠ a → f b x = b) (b : β) : l.foldl f b = f b a := by
  have idle {l : List α} (h : ∀ b, ∀ x ∈ l, f b x = b) (b : β) : l.foldl f b = b := by
    induction l with
    | nil => rfl
    | cons x l ih =>
      rw [List.foldl_cons, h b x List.mem_cons_self]
      exact ih fun b y hy => h b y (List.mem_cons_of_mem _ hy)
  induction l with
  | nil => cases hmem
  | cons x l ih =>
    obtain ⟨hx, hl⟩ := List.nodup_cons.mp hnodup
    rw [List.foldl_cons]
    by_cases hxa : x = a
    · subst hxa
      exact idle (fun b y hy => h b y (List.mem_cons_of_mem _ hy) fun e => hx (e ▸ hy)) _
    · rw [h b x List.mem_cons_self hxa]
      exact ih ((List.mem_cons.mp hmem).resolve_left fun e => hxa e.symm) hl
        fun b y hy => h b y (List.mem_cons_of_mem _ hy)

theorem State.assignUnits_one {s : State} {t : Task} (hmem : t ∈ s.tasks) (hnodup : (s.tasks.map fun x => x.id).Nodup)
    (hone : ∀ x ∈ s.tasks, x.awaitsUnit = true ↔ x = t) : s.assignUnits = s.assignUnit t := by
  rw [State.assignUnits_eq]
  refine foldl_only hmem hnodup.of_map (fun b x hx hne => if_neg fun hwaits => hne ((hone x hx).mp hwaits)) s

theorem State.assignUnit_of_awaits {s : State} {t : Task} (h : t.awaitsUnit = true) :
    s.assignUnit t = match (s.unitsFor t).find? (s.unitFree (clusterOfCore t.core)) with
      | some k => s.putTask { t with unit := some k, released := true }
      | none => s := if_pos h

theorem stCapped_unforced (k : Nat) : stCapped k false = 0x21 ||| BitVec.ofNat 64 (k * 2 ^ 8) := by
  rw [stCapped, Bool.toNat_false, Nat.zero_mul, Nat.add_zero, stRankCapped]

theorem execFlowstoneRecompression_done {s : State} {t : Task} {u v : List Nat} {k : Nat}
    (hfind : (s.tasks.find? fun x => x.id == t.id) = some t) (hstage : t.stage = .flow u v) (hunit : t.unit = some k) :
    let r := flowstone (tileTy t.fmt) (tileDim t.shape) t.ctl.toNat (t.op == 4) none u v
    execFlowstoneRecompression t.id s = .next (s.putTask { t with
      unit := none
      stage := if r.invalid then .result r.v [] [] 0 else .result r.v u v (match r.capped with
        | some k => 0x21 ||| BitVec.ofNat 64 (k * 2 ^ 8)
        | none => 0) }).assignUnits := by
  intro r
  have hcapped : (r.capped.map fun k => stCapped k false).getD stOk =
      (match r.capped with | some k => 0x21 ||| BitVec.ofNat 64 (k * 2 ^ 8) | none => 0) := by
    cases r.capped with
    | none => rfl
    | some k => exact stCapped_unforced k
  simp only [execFlowstoneRecompression, hfind, hstage, hunit]
  rw [hcapped]
  rfl

end Sys2Proof.Machine
end

section
/-!
SUPPORT. A task that ends with its status in its party's batch, and a retiring node that becomes free.
-/
namespace Sys2Proof.Machine

/-! ### A task leaves its Gallery (R258, R261) -/

/-- A resident party once a task's status is ranked into its batch. -/
def Party.ranked (p : Party) (t : Task) (st : Word) : Party :=
  let i := t.batch % 256
  let r := rankStatus (Table.get 0 p.batches i).toNat (Table.get 0 p.batchBy i) st.toNat t.id
  { p with batches := Table.set 0 p.batches i (BitVec.ofNat 32 r.1), batchBy := Table.set 0 p.batchBy i r.2 }

theorem State.rankInto_resident {s : State} (hresident : s.party.evicted = false) (t : Task) (st : Word) :
    s.rankInto t st s.party = { s with party := s.party.ranked t st } := by
  have hhere : ¬ s.party.evicted = true := by rw [hresident]; exact Bool.false_ne_true
  exact (if_neg hhere).trans (if_pos rfl)

theorem State.retireTask_alone {s : State} {t : Task} (hmembers : t.members = [s.party.pid]) (hresident : s.party.evicted = false)
    (hnone : ∀ x ∈ s.tasks, s.depends x t = false) (st : Word) :
    s.retireTask t st = { s with
      copies := (s.oweHandles t.id (s.handleUses t)).copies
      tasks := s.tasks.filter fun x => x.id != t.id
      synced := Nat.max s.synced (t.time + 1)
      party := s.party.ranked t st } := by
  have hafter : s.tasks.filter (fun x => s.depends x t) = [] :=
    List.filter_eq_nil_iff.mpr fun x hx => by rw [hnone x hx]; exact Bool.false_ne_true
  simp only [State.retireTask, hafter, List.map_nil, State.dependBar_nil, State.raiseTimes_nil, hmembers]
  let u : State := { (s.signalAt (t.time + 1)).oweHandles t.id (s.handleUses t) with
    tasks := s.tasks.filter fun x => x.id != t.id }
  have hself : [s.party.pid].filterMap u.party? = [u.party] := by
    rw [List.filterMap_cons, show u.party? s.party.pid = some u.party from u.party?_self]
    rfl
  show ([s.party.pid].filterMap u.party?).foldl (fun s p => s.rankInto t st p) u = _
  rw [hself, List.foldl_cons, List.foldl_nil, State.rankInto_resident (s := u) hresident]
  rfl

theorem batchOrder_eq (st : Nat) : batchOrder st = [0x08, 0x06, 0x07, 0x20, 0x21].idxOf (st % 256) := by
  unfold batchOrder
  split
  case h_6 h8 h6 h7 h20 h21 =>
    have hother : st % 256 ∉ [0x08, 0x06, 0x07, 0x20, 0x21] := by
      simp only [List.mem_cons, List.not_mem_nil, or_false, not_or]
      exact ⟨h8, h6, h7, h20, h21⟩
    exact (List.idxOf_eq_length_iff.mpr hother).symm
  all_goals
    rename_i h
    rw [h]
    rfl

theorem rankStatus_fst (old by_ st id : Nat) : (rankStatus old by_ st id).1 =
    if batchOrder st < 5 ∧ (batchOrder st < batchOrder old ∨ (batchOrder st = batchOrder old ∧ id < by_)) then st % 2 ^ 32
    else old := by
  have hle : batchOrder st ≤ 5 := by
    rw [batchOrder_eq]
    exact List.idxOf_le_length
  unfold rankStatus
  by_cases hother : batchOrder st = 5
  · rw [if_pos hother, if_neg fun h => absurd h.1 (by omega)]
  · rw [if_neg hother]
    split
    · next h => rw [if_pos ⟨by omega, h⟩]
    · next h => rw [if_neg fun k => h k.2]

theorem Party.ranked_batches (p : Party) (t : Task) (st : Word) (j : Nat) :
    let i := t.batch % 256
    let old := (Table.get 0 p.batches i).toNat
    Table.get 0 (p.ranked t st).batches j =
      if j = i ∧ batchOrder st.toNat < 5 ∧ (batchOrder st.toNat < batchOrder old ∨
        (batchOrder st.toNat = batchOrder old ∧ t.id < Table.get 0 p.batchBy i)) then st.setWidth 32
      else Table.get 0 p.batches j := by
  intro i old
  by_cases hj : j = i
  · subst hj
    rw [Party.ranked, Table.get_set_same, rankStatus_fst]
    simp only [true_and]
    split
    · exact BitVec.eq_of_toNat_eq (by simp)
    · rw [BitVec.ofNat_toNat, BitVec.setWidth_eq]
  · rw [if_neg fun h => hj h.1]
    exact Table.get_set_other _ _ hj _

/-! ### Cavern's quiescence (R234) -/

theorem execCavernQuiescence_none {s : State} (h : s.retiring = []) : execCavernQuiescence s = .next s := by
  rw [execCavernQuiescence, State.quiesce, h, List.foldl_nil]

theorem State.release?_ok {s : State} {r : Retiring} {w : Nat} {u : State × Nat}
    (hstate : s.chunkState (accessorIn r.space) r.state = .ok w)
    (hset : s.setChunk { Agent.part with path := 3 } (accessorIn r.space) r.state (mergeUp (setNode w r.node 0) r.node 7) =
      .ok u) : s.release? r = some (u.1.forgetBlock r.block) := by
  unfold State.release?
  simp only [hstate, hset]
  rfl

theorem execCavernQuiescence_one {s : State} {r : Retiring} {w : Nat} {u : State × Nat} (hone : s.retiring = [r])
    (hquiet : ∀ x ∈ s.tasks, x.id ∉ r.tasks) (hstate : s.chunkState (accessorIn r.space) r.state = .ok w)
    (hset : s.setChunk { Agent.part with path := 3 } (accessorIn r.space) r.state (mergeUp (setNode w r.node 0) r.node 7) =
      .ok u) :
    let free := u.1.forgetBlock r.block
    execCavernQuiescence s = .next { free with retiring := free.retiring.filter fun x => x != r } := by
  have hready : s.quiet r = true := by
    refine List.all_eq_true.mpr fun id hid => ?_
    rw [Bool.not_eq_true', List.any_eq_false]
    exact fun x hx heq => hquiet x hx (by rwa [beq_iff_eq.mp heq])
  rw [execCavernQuiescence, State.quiesce, hone, List.foldl_cons, List.foldl_nil, if_pos hready,
    State.release?_ok hstate hset]

theorem State.forgetBlock_copies_subset (s : State) (block : Word) : ∀ x ∈ (s.forgetBlock block).copies, x ∈ s.copies :=
  fun _ hx => (List.mem_filter.mp hx).1

end Sys2Proof.Machine
end

section
/-!
SUPPORT. The writes of a task and its end: its values, the header of a tile, the old block.
-/
namespace Sys2Proof.Machine

/-! ### Values written (R235, R243) -/

theorem writeValues_of_cells {ac : Accessor} {size : Nat} {ws : List (Nat × Nat)} {s : State} {a : Agent} {w : Written}
    (hcells : writeCells ac size s a ws = .ok w) (hkept : w.lost = false) :
    writeValues ac size ws.length s a ws = { s := w.s, time := w.time, left := [], fault := none } := by
  induction ws generalizing s a w with
  | nil =>
    cases hcells
    rfl
  | cons x ws ih =>
    obtain ⟨x, v⟩ := x
    rw [writeCells] at hcells
    obtain ⟨first, hfirst, hcells⟩ := bind_ok hcells
    obtain ⟨rest, hrest, hw⟩ := bind_ok hcells
    cases hw
    obtain ⟨hfirstKept, hrestKept⟩ := Bool.or_eq_false_iff.mp hkept
    rw [List.length_cons, writeValues, hfirst]
    dsimp only
    rw [hfirstKept, if_neg Bool.false_ne_true]
    exact ih hrest hrestKept

theorem State.writeSome_all {s : State} {t : Task} {size : Nat} {ws : List (Nat × Nat)} {w : Written}
    (hleft : t.stage.left = (size, ws)) (hcells : writeCells (s.taskAccessor t) size s t.agent ws = .ok w)
    (hkept : w.lost = false) :
    s.writeSome t t.stage.left.2.length = .ok (w.s, { t with time := w.time, stage := t.stage.withLeft [] }) := by
  unfold State.writeSome
  rw [hleft]
  dsimp only
  rw [writeValues_of_cells hcells hkept]

/-- What a task does when it ends does not depend on its stage. -/
theorem State.retireTask_stage (s : State) (t : Task) (g : TaskStage) (st : Word) :
    s.retireTask { t with stage := g } st = s.retireTask t st := rfl

theorem State.writeAll_image {s : State} {t : Task} {size : Nat} {cells : List (Nat × Nat)} {w : Written}
    (hstage : t.stage = .image size cells) (hcells : writeCells (s.taskAccessor t) size s t.agent cells = .ok w)
    (hkept : w.lost = false) : s.writeAll t = w.s.retireTask { t with time := w.time } 0 := by
  have hsome := State.writeSome_all (by rw [hstage]; rfl) hcells hkept
  rw [State.writeAll, hsome, hstage]
  exact State.retireTask_stage w.s { t with time := w.time } (.image size []) stOk

theorem State.writeHead_ok {s : State} {t : Task} {h : TileHead} {d : Written}
    (hwrite : s.engineWrite (s.taskAccessor t) t.agent (t.val 0) (Span.clean (h.bytes t.batch) t.time) = .ok d)
    (hkept : d.lost = false) : s.writeHead t h = .ok (d.s, { t with time := d.time }) := by
  unfold State.writeHead
  rw [hwrite]
  show (if d.lost then _ else _) = _
  rw [hkept]
  rfl

/-- The old block of a tile, once the header is written: freed where it is not kept. -/
def State.freed (s : State) (t : Task) (new : TileHead) : Option (Word × Nat) → Except (Deny × Word) (Option (State × Nat))
  | none => .ok (some (s, t.time))
  | some (b, c) => s.freeBlock t.agent (s.taskAccessor t) (s.taskLaunch t) (s.poolOf t new) b c

theorem State.writeAll_commit {s : State} {t : Task} {size : Nat} {cells : List (Nat × Nat)} {new : TileHead}
    {freed : Option (Word × Nat)} {st : Word} {old : List (Nat × Place × Nat)} {c d : Written} {r : State × Nat}
    (hstage : t.stage = .commit size cells (some new) freed st old)
    (hcells : writeCells (s.taskAccessor t) size s t.agent cells = .ok c) (hkept : c.lost = false)
    (hhead : c.s.engineWrite (c.s.taskAccessor t) { t.agent with time := c.time } (t.val 0)
      (Span.clean (new.bytes t.batch) c.time) = .ok d) (hheadKept : d.lost = false)
    (hfreed : d.s.freed { t with time := d.time } new freed = .ok (some r)) :
    s.writeAll t = r.1.retireTask { t with time := r.2 } st := by
  have hsome := State.writeSome_all (by rw [hstage]; rfl) hcells hkept
  let left : TaskStage := .commit size [] (some new) freed st old
  have hwrite : c.s.writeHead { t with time := c.time, stage := left } new =
      .ok (d.s, { t with time := d.time, stage := left }) := State.writeHead_ok hhead hheadKept
  rw [State.writeAll, hsome, hstage]
  show c.s.endWrites { t with time := c.time, stage := left } = _
  unfold State.endWrites
  dsimp only [left] at hwrite ⊢
  rw [hwrite]
  cases freed with
  | none =>
    cases hfreed
    exact State.retireTask_stage d.s { t with time := d.time } left st
  | some b =>
    have hfree : d.s.freeBlock { t.agent with time := d.time } (d.s.taskAccessor t) (d.s.taskLaunch t) (d.s.poolOf t new)
        b.1 b.2 = .ok (some r) := hfreed
    show (match d.s.freeBlock { t.agent with time := d.time } (d.s.taskAccessor t) (d.s.taskLaunch t) (d.s.poolOf t new)
      b.1 b.2 with | .error e => _ | .ok (some (v, time)) => _ | .ok none => _) = _
    rw [hfree]
    exact State.retireTask_stage r.1 { t with time := r.2 } left st

/-! ### The plan of a tile's writes (R243) -/

/-- A task whose tile is to be written to a block, then its header, and then the old block to be freed. -/
def State.planned (s : State) (t : Task) (h : TileHead) (v : TileVal) (block : Word) (cls : Nat) (freed : Bool) (st : Word) :
    Task :=
  let e := elemBytes t.fmt
  let cells := v.elements.zipIdx.flatMap fun x => elementWrites e (block + BitVec.ofNat 64 (x.2 * e)) x.1
  let new : TileHead := { kind := v.kind, fmt := t.fmt, shape := t.shape, rank := v.rank, cls := cls, pool := h.pool
                          gen := h.gen + 1, block := block }
  let old := if h.kind ≠ 0 ∧ block = h.block then s.standing t (Nat.min e 8) cells else []
  { t with stage := .commit (Nat.min e 8) cells (some new) (if freed then some (h.block, h.cls) else none) st old }

theorem State.planTile_ok {s : State} {t : Task} {h : TileHead} {v : TileVal} {block : Word} {cls : Nat} {freed : Bool}
    (st : Word) (hhead : ∃ x, s.windowSpan (s.taskAccessor t) (t.val 0).toNat 64 .write = .ok x)
    (hfree : freed = true → ∀ y, (s.poolOf t h).nodeOf h.block h.cls = some y →
      ∃ z, s.chunkPlace (s.taskAccessor t) ((s.poolOf t h).stateAt y.1) .update = .ok z)
    (hcells : (v.elements.zipIdx.flatMap fun x =>
      elementWrites (elemBytes t.fmt) (block + BitVec.ofNat 64 (x.2 * elemBytes t.fmt)) x.1) ≠ [] →
      ∃ x, s.windowSpan (s.taskAccessor t) block.toNat 1 .write = .ok x) :
    s.planTile t h v block cls freed st = .ok (s, s.planned t h v block cls freed st) := by
  obtain ⟨x, hx⟩ := hhead
  unfold State.planTile
  rw [hx]
  extract_lets e ws new old fin free
  have hfin : fin () = .ok (s, s.planned t h v block cls freed st) := rfl
  have hold : free () = .ok (s, s.planned t h v block cls freed st) := by
    show (match if freed = true then (s.poolOf t h).nodeOf h.block h.cls else none with
      | some y => ((s.chunkPlace (s.taskAccessor t) ((s.poolOf t h).stateAt y.1) .update).map fun _ => ()) >>= fin
      | none => fin ()) = _
    cases hnode : if freed = true then (s.poolOf t h).nodeOf h.block h.cls else none with
    | none => exact hfin
    | some y =>
      obtain ⟨hfreed, hnode⟩ := Option.ite_none_right_eq_some.mp hnode
      obtain ⟨z, hz⟩ := hfree hfreed y hnode
      dsimp only
      rw [hz]
      exact hfin
  show (if (!ws.isEmpty) = true then
    ((at_ block (s.windowSpan (s.taskAccessor t) block.toNat 1 .write)).map fun _ => ()) >>= free else free ()) = _
  split
  · next hsome =>
    obtain ⟨z, hz⟩ := hcells fun hnil => by
      rw [show ws = [] from hnil] at hsome
      exact absurd hsome (by decide)
    rw [hz]
    exact hold
  · exact hold

/-! ### The end of a task whose result is known -/

/-- A task whose place is decided writes what it has to write, or ends. -/
def State.concludeTask (s : State) (t : Task) : State :=
  match t.stage with
  | .image .. | .commit .. => s.writeAll t
  | .ended st => s.retireTask t st
  | _ => s

theorem State.finishTask_of_plan {s s1 : State} {t t1 : Task} (h : s.planTask t = .ok (s1, t1)) :
    s.finishTask t = s1.concludeTask t1 := by
  unfold State.finishTask
  rw [h]
  rfl

theorem State.planTask_same {s : State} {t : Task} (h : ∀ v u w st, t.stage ≠ .result v u w st) : s.planTask t = .ok (s, t) := by
  unfold State.planTask
  split
  · next v u w st _ hstage _ => exact absurd hstage (h v u w st)
  · next v u w st hstage _ => exact absurd hstage (h v u w st)
  · rfl

theorem State.finishTask_ended {s : State} {t : Task} {st : Word} (hstage : t.stage = .ended st) :
    s.finishTask t = s.retireTask t st := by
  rw [State.finishTask_of_plan (State.planTask_same (by rw [hstage]; nofun)), State.concludeTask, hstage]

theorem State.finishTask_image {s : State} {t : Task} {size : Nat} {cells : List (Nat × Nat)} {w : Written}
    (hstage : t.stage = .image size cells) (hcells : writeCells (s.taskAccessor t) size s t.agent cells = .ok w)
    (hkept : w.lost = false) : s.finishTask t = w.s.retireTask { t with time := w.time } 0 := by
  rw [State.finishTask_of_plan (State.planTask_same (by rw [hstage]; nofun)), State.concludeTask, hstage]
  exact State.writeAll_image hstage hcells hkept

/-- The first header of a tile that an instruction sets to zero. -/
def Task.blankHead (t : Task) : TileHead :=
  { kind := 0, fmt := t.fmt, shape := t.shape, rank := 0, cls := 0, pool := bitsOf t.ctl.toNat 8 3, gen := 0, block := 0 }

theorem State.finishTask_blank {s : State} {t : Task} {v : TileVal} {u w : List Nat} {st : Word} {d : Written}
    (hstage : t.stage = .result v u w st) (hhead : t.head = none)
    (hwrite : s.engineWrite (s.taskAccessor t) t.agent (t.val 0) (Span.clean (t.blankHead.bytes t.batch) t.time) = .ok d)
    (hkept : d.lost = false) : s.finishTask t = d.s.retireTask { t with time := d.time } 0 := by
  let t1 : Task := { t with stage := .commit 8 [] (some t.blankHead) none stOk [] }
  have hplan : s.planTask t = .ok (s, t1) := by
    unfold State.planTask
    split
    · next hsome => rw [hhead] at hsome; cases hsome
    · rfl
    · next hother => exact absurd hhead (hother v u w st hstage)
  rw [State.finishTask_of_plan hplan]
  exact State.writeAll_commit (t := t1) (c := { s := s, time := t.time, lost := false }) (r := (d.s, d.time)) rfl rfl rfl hwrite
    hkept rfl

section
variable {s : State} {t : Task} {h : TileHead} {v : TileVal} {u w : List Nat} {st : Word}
variable (hstage : t.stage = .result v u w st) (hhead : t.head = some h)
  (hturn : t.requests h v = true → s.requestsWait t = false)
include hstage hhead hturn

theorem State.planTask_placed {s0 : State} {t1 : Task} (hplace : s.placeTile t h v u w st = .ok (s0, t1)) :
    s.planTask t = .ok (s0.putTask t1, t1) := by
  have hgo : ¬ (t.requests h v && s.requestsWait t) = true := by
    cases hreq : t.requests h v with
    | false => exact Bool.false_ne_true
    | true => rw [hturn hreq]; exact Bool.false_ne_true
  unfold State.planTask
  rw [hstage, hhead]
  dsimp only
  rw [if_neg hgo, hplace]

/-- A task whose result finds no block ends without a write. -/
theorem State.finishTask_empty {empty : Word} (hplace : s.placeTile t h v u w st = .ok (s, { t with stage := .ended empty })) :
    s.finishTask t = (s.putTask { t with stage := .ended empty }).retireTask { t with stage := .ended empty } empty := by
  rw [State.finishTask_of_plan (State.planTask_placed hstage hhead hturn hplace)]
  rfl

/-- A task writes its tile to a block, then the header, and frees the old block or keeps it. -/
theorem State.finishTask_stored {s0 : State} {time : Nat} {block : Word} {cls : Nat} {freed : Bool} {c d : Written}
    {r : State × Nat} :
    let t0 : Task := { t with time := time }
    let t1 := s0.planned t0 h v block cls freed st
    let s1 := s0.putTask t1
    let e := elemBytes t.fmt
    let new : TileHead := { kind := v.kind, fmt := t.fmt, shape := t.shape, rank := v.rank, cls := cls, pool := h.pool
                            gen := h.gen + 1, block := block }
    let cells := v.elements.zipIdx.flatMap fun x => elementWrites e (block + BitVec.ofNat 64 (x.2 * e)) x.1
    s.placeTile t h v u w st = s0.planTile t0 h v block cls freed st →
    (∃ x, s0.windowSpan (s0.taskAccessor t0) (t.val 0).toNat 64 .write = .ok x) →
    (freed = true → ∀ y, (s0.poolOf t0 h).nodeOf h.block h.cls = some y →
      ∃ z, s0.chunkPlace (s0.taskAccessor t0) ((s0.poolOf t0 h).stateAt y.1) .update = .ok z) →
    (cells ≠ [] → ∃ x, s0.windowSpan (s0.taskAccessor t0) block.toNat 1 .write = .ok x) →
    writeCells (s1.taskAccessor t) (Nat.min e 8) s1 t0.agent cells = .ok c → c.lost = false →
    c.s.engineWrite (c.s.taskAccessor t) { t0.agent with time := c.time } (t.val 0) (Span.clean (new.bytes t.batch) c.time) =
      .ok d → d.lost = false →
    (if freed then d.s.freeBlock { t0.agent with time := d.time } (d.s.taskAccessor t) (d.s.taskLaunch t)
      (d.s.poolOf t new) h.block h.cls else .ok (some (d.s, d.time))) = .ok (some r) →
    s.finishTask t = r.1.retireTask { t with time := r.2 } st := by
  intro t0 t1 s1 e new cells hplace hwindow hfree hblock hcells hkept hwrite hheadKept hfreed
  have hplan := hplace.trans (State.planTile_ok st hwindow hfree hblock)
  rw [State.finishTask_of_plan (State.planTask_placed hstage hhead hturn hplan)]
  have hold : d.s.freed { t1 with time := d.time } new (if freed then some (h.block, h.cls) else none) = .ok (some r) := by
    cases freed with
    | false => exact hfreed
    | true => exact hfreed
  exact (State.writeAll_commit (s := s1) (t := t1) rfl hcells hkept hwrite hheadKept hold).trans
    (State.retireTask_stage r.1 { t with time := r.2 } t1.stage st)

end

/-! ### The place of a tile (R235, R243) -/

theorem State.taskBlock_of_request {s : State} {t : Task} {h : TileHead} {need : Nat} {x : Option (State × Nat × Word)}
    (hrequest : s.requestBlock t.agent (s.taskAccessor t) (s.poolOf t h) need = .ok x) :
    s.taskBlock t h need = .ok (x.map fun y => (y.1, { t with time := y.2.1 }, y.2.2)) := by
  rw [State.taskBlock, hrequest]
  rfl

section
variable {s : State} {t : Task} {h : TileHead} {v : TileVal} {u w : List Nat} {st : Word}

theorem State.placeTile_zero (hzero : v.kind = 0) :
    s.placeTile t h v u w st = s.planTile t h v 0 0 (h.kind != 0) st := by
  unfold State.placeTile
  exact if_pos hzero

variable (hvalue : v.kind ≠ 0)
include hvalue

theorem State.placeTile_inPlace (hholds : (h.kind != 0) = true) (hclass : t.needClass v = h.cls) :
    s.placeTile t h v u w st = s.planTile t h v h.block h.cls false st := by
  unfold State.placeTile
  dsimp only
  rw [if_neg hvalue, if_pos (by simp only [hholds, hclass, Nat.le_refl]; rfl), if_pos hclass]

theorem State.placeTile_moved {s0 : State} {time : Nat} {block : Word} (hmoves : (h.kind != 0) = false ∨ t.needClass v ≠ h.cls)
    (hrequest : s.requestBlock t.agent (s.taskAccessor t) (s.poolOf t h) (t.needClass v) = .ok (some (s0, time, block))) :
    s.placeTile t h v u w st = s0.planTile { t with time := time } h v block (t.needClass v) (h.kind != 0) st := by
  unfold State.placeTile
  dsimp only
  rw [if_neg hvalue, State.taskBlock_of_request hrequest]
  split
  · next hfits =>
    obtain ⟨hholds, -⟩ := Bool.and_eq_true_iff.mp hfits
    rw [if_neg (hmoves.resolve_left fun hempty => by rw [hholds] at hempty; cases hempty), hholds]
    rfl
  · rfl

theorem State.placeTile_kept (hholds : (h.kind != 0) = true) (hclass : t.needClass v < h.cls)
    (hrequest : s.requestBlock t.agent (s.taskAccessor t) (s.poolOf t h) (t.needClass v) = .ok none) :
    s.placeTile t h v u w st = s.planTile t h v h.block h.cls false st := by
  unfold State.placeTile
  dsimp only
  rw [if_neg hvalue, if_pos (by simp only [hholds, Nat.le_of_lt hclass]; rfl), if_neg (Nat.ne_of_lt hclass),
    State.taskBlock_of_request hrequest]
  rfl

theorem State.placeTile_none (hgrows : (h.kind != 0) = false ∨ h.cls < t.needClass v)
    (hrequest : s.requestBlock t.agent (s.taskAccessor t) (s.poolOf t h) (t.needClass v) = .ok none)
    (hfixed : u = [] ∨ t.bit 39 = false) :
    s.placeTile t h v u w st = .ok (s, { t with stage := .ended (0x20 ||| BitVec.ofNat 64 (t.needClass v * 2 ^ 8)) }) := by
  have hbigger : ¬ ((h.kind != 0) && decide (t.needClass v ≤ h.cls)) = true := fun hfits => by
    obtain ⟨hholds, hle⟩ := Bool.and_eq_true_iff.mp hfits
    cases hgrows with
    | inl hempty => rw [hholds] at hempty; cases hempty
    | inr hlt => exact absurd (of_decide_eq_true hle) (Nat.not_le.mpr hlt)
  have hstops : (u.isEmpty || !t.bit 39) = true := by
    cases hfixed with
    | inl hnil => rw [hnil]; rfl
    | inr hbit => rw [hbit, Bool.not_false, Bool.or_true]
  unfold State.placeTile
  dsimp only
  rw [if_neg hvalue, if_neg hbigger, State.taskBlock_of_request hrequest]
  exact if_pos hstops

end

end Sys2Proof.Machine
end

section
/-!
SUPPORT. The moves of one row of a Siphon command: the reads of the row are one `readRow`, its writes one `writeRow`.
-/
namespace Sys2Proof.Machine

/-! ### Every read gives bytes (R283, R301) -/

theorem foldl_pos {α : Type} {f : Nat → α → Nat} (hf : ∀ m a, 0 < m → 0 < f m a) (l : List α) {m : Nat} (hm : 0 < m) :
    0 < l.foldl f m := by
  induction l generalizing m with
  | nil => exact hm
  | cons a l ih => exact ih (hf m a hm)

theorem State.holderSpan_pos (s : State) (pa key : Nat) {n : Nat} (home : Nat) (h : 0 < n) :
    0 < (s.holderSpan pa key n home).2 := by
  unfold State.holderSpan
  split
  · next x hx =>
    obtain ⟨g, -, hg⟩ := List.exists_of_findSome?_eq_some hx
    obtain ⟨r, hr, rfl⟩ := Option.map_eq_some_iff.mp hg
    have hin := List.find?_some hr
    simp only [Bool.and_eq_true, decide_eq_true_eq] at hin
    exact Nat.lt_min.mpr ⟨h, by omega⟩
  · refine foldl_pos (fun m g hm => foldl_pos (fun m r hm => ?_) g.backing hm) s.groups h
    split
    · exact Nat.lt_min.mpr ⟨hm, by omega⟩
    · exact hm

theorem State.windowSpan_pos {s : State} {ac : Accessor} {a n : Nat} {need : Rights} {p : Place} {k : Nat} (h : 0 < n)
    (e : s.windowSpan ac a n need = .ok (p, k)) : 0 < k := by
  unfold State.windowSpan at e
  split at e
  · cases e
  · cases e; exact h
  · unfold State.globalSpan at e
    split at e
    · cases e
    · split at e
      · cases e
      · rename_i va _ _ l _ _ _
        have hpage : 0 < Nat.min n (65536 - va % 65536) := Nat.lt_min.mpr ⟨h, by omega⟩
        have hpos := s.holderSpan_pos (l.base + va % l.size) l.key l.home hpage
        rwa [Except.ok.inj e] at hpos

theorem State.readEvent_length (s : State) (a : Agent) (p : Place) (n : Nat) : (s.readEvent a p n).bytes.length = n := by
  unfold State.readEvent
  split
  · next e i hcopy =>
    obtain ⟨c, -, hc⟩ := List.exists_of_findSome?_eq_some hcopy
    have hfits : i + n ≤ e.content.length := by
      split at hc
      · obtain ⟨j, hj, hpair⟩ := Option.map_eq_some_iff.mp hc
        cases hpair
        unfold EngineCopy.serves at hj
        split at hj
        · cases hj
        · split at hj
          · next hserves => cases hj; exact hserves.2.2.1
          · cases hj
      · cases hc
    simp only [List.length_take, List.length_drop]
    omega
  · exact s.readPlace_length p n

theorem State.agentRead_bytes (s : State) (a : Agent) {unit : Nat} (p : Place) {n : Nat} (hunit : 0 < unit) (hn : 0 < n) :
    (s.agentRead a unit p n).bytes ≠ [] := by
  have hline := Nat.mod_lt p.inLine hunit
  unfold State.agentRead
  split
  · cases n with
    | zero => omega
    | succ n =>
      have hlength := s.readEvent_length a p (Nat.min (n + 1) (unit - p.inLine % unit))
      have hpos : 0 < Nat.min (n + 1) (unit - p.inLine % unit) := Nat.lt_min.mpr ⟨hn, by omega⟩
      rw [State.readEvents, if_neg (by omega)]
      refine fun hnil => ?_
      rw [(List.append_eq_nil_iff.mp hnil).1] at hlength
      rw [← hlength] at hpos
      exact absurd hpos (by decide)
  · refine List.ne_nil_of_length_pos ?_
    rw [show (s.readNewest a.time p n).bytes.length = n from s.readPlace_length p n]
    exact hn

theorem State.engineRead_bytes {s : State} {ac : Accessor} {a : Agent} {va : Word} {n unit : Nat} {sp : Span}
    (hunit : 0 < unit) (hn : 0 < n) (e : s.engineRead ac a va n unit = .ok sp) : sp.bytes ≠ [] := by
  unfold State.engineRead at e
  rw [State.readRange, if_neg (by omega)] at e
  split at e
  · cases e
  · next p k hspan =>
    obtain ⟨y, -, rfl⟩ := map_ok e
    exact List.append_ne_nil_of_left_ne_nil (s.agentRead_bytes a p hunit (State.windowSpan_pos hn hspan)) _

/-! ### Moves one after the other -/

/-- `k` moves take the work from `m` to `m'`. -/
def Moved.Reaches (k : Nat) (m m' : Moved) : Prop := ∀ n, Moved.steps (n + k) m = Moved.steps n m'

theorem Moved.Reaches.refl (m : Moved) : Moved.Reaches 0 m m := fun _ => rfl

theorem Moved.Reaches.trans {j k : Nat} {m m' m'' : Moved} (h : Moved.Reaches j m m') (h' : Moved.Reaches k m' m'') :
    Moved.Reaches (k + j) m m'' := fun n => by rw [← Nat.add_assoc, h, h']

theorem Moved.Reaches.step {m : Moved} (hfault : m.fault = none) (hmoved : m.c.moved = false) : Moved.Reaches 1 m m.step :=
  fun n => if_neg (by rw [hfault, hmoved]; simp)

theorem Moved.steps_of_moved {m : Moved} (h : m.c.moved = true) (n : Nat) : Moved.steps n m = m := by
  cases n with
  | zero => rfl
  | succ n => exact if_pos (.inr h)

theorem Moved.Reaches.steps {k n : Nat} {m m' : Moved} (h : Moved.Reaches k m m') (hmoved : m'.c.moved = true) (hn : k ≤ n) :
    Moved.steps n m = m' := by
  rw [← Nat.sub_add_cancel hn, h, Moved.steps_of_moved hmoved]

theorem Command.moved_of_open {c : Command} (h : c.rowOpen = true) : c.moved = false := by
  rw [Command.moved, h]
  rfl

theorem Command.moved_of_left {c : Command} (h : c.progress < c.rows) : c.moved = false := by
  rw [Command.moved, decide_eq_false (Nat.not_le.mpr h), Bool.and_false]

/-- The next move of a command with reads outstanding is the first of them. -/
theorem Moved.step_loads {m : Moved} {a : Word} {n : Nat} {rest : List (Word × Nat)} (hfault : m.fault = none)
    (hmoved : m.c.moved = false) (hloads : m.c.loads = (a, n) :: rest) : m.step = m.read a n rest := by
  unfold Moved.step Moved.event
  dsimp only
  rw [if_neg (by rw [hfault, hmoved]; simp), hloads]
  exact ite_self _

/-- The reads of a command, one move each. -/
theorem Moved.reaches_loads {s : State} {ac : Accessor} {l : List (Word × Nat)} :
    ∀ {c : Command} {got : List (Byte × Bool)} {time : Nat}, ac = s.commandAccessor c → c.loads = l → c.moved = false →
      s.readRow ac c.agent l = .ok (got, time) →
      Moved.Reaches l.length ⟨s, c, none⟩ ⟨s, { c with loads := [], got := c.got ++ got, time := time }, none⟩ := by
  induction l with
  | nil =>
    intro c got time _ hloads _ hread
    cases hread
    have hsame : ({ c with loads := [], got := c.got ++ [], time := c.agent.time } : Command) = c := by
      rw [← hloads, List.append_nil]
      rfl
    rw [hsame]
    exact .refl _
  | cons e l ih =>
    obtain ⟨a, n⟩ := e
    intro c got time hac hloads hmoved hread
    rw [State.readRow] at hread
    obtain ⟨sp, hsp, hread⟩ := bind_ok hread
    obtain ⟨r, hr, hread⟩ := bind_ok hread
    obtain ⟨hgot, rfl⟩ := Prod.mk.inj (Except.ok.inj hread)
    let now := sp.bytes.zip (if sp.bad.isEmpty then List.replicate n false else sp.bad)
    let c1 : Command := { c with loads := l, got := c.got ++ now, time := sp.time }
    have hstep : Moved.step ⟨s, c, none⟩ = ⟨s, c1, none⟩ := by
      rw [Moved.step_loads rfl hmoved hloads, Moved.read]
      dsimp only
      rw [← hac, hsp]
    have hfirst := Moved.Reaches.step (m := ⟨s, c, none⟩) rfl hmoved
    rw [hstep] at hfirst
    have hrest := ih (c := c1) hac rfl hmoved hr
    have hall := hfirst.trans hrest
    rw [← hgot, ← List.append_assoc]
    exact hall

/-- A command's accessor stays across writes. -/
theorem Stored.commandAccessor {s t : State} (h : Stored s t) (c : Command) : t.commandAccessor c = s.commandAccessor c := by
  unfold State.commandAccessor
  rw [h.launch?]

/-- The writes of a row, one move each. -/
theorem Moved.reaches_stores {ac : Accessor} {l : List (Word × Nat)} :
    ∀ {s : State} {c : Command} {w : Written}, ac = s.commandAccessor c → c.loads = [] → c.stores = l → c.rowOpen = true →
      writeRow ac s c.agent l c.got = .ok w →
      ∃ got, Moved.Reaches l.length ⟨s, c, none⟩ ⟨w.s, { c with
        stores := [], got := got, time := w.time, failed := if w.lost then some 0x14 else c.failed }, none⟩ ∧
        Stored s w.s := by
  induction l with
  | nil =>
    intro s c w _ _ hstores _ hwrite
    cases hwrite
    have hsame : ({ c with stores := [], got := c.got, time := c.agent.time, failed := if false then some 0x14 else c.failed } :
        Command) = c := by
      rw [← hstores]
      rfl
    exact ⟨c.got, by rw [hsame]; exact .refl _, .refl s⟩
  | cons e l ih =>
    obtain ⟨a, n⟩ := e
    intro s c w hac hloads hstores hopen hwrite
    rw [writeRow] at hwrite
    obtain ⟨x, hx, hwrite⟩ := bind_ok hwrite
    obtain ⟨r, hr, hwrite⟩ := bind_ok hwrite
    cases hwrite
    have hx : s.engineWrite ac c.agent a
      { bytes := (c.got.take n).map Prod.fst, bad := (c.got.take n).map Prod.snd, time := c.time } = .ok x := hx
    let spoilt := x.lost || (c.got.take n).any fun b => b.2
    let c1 : Command := { c with
      stores := l, got := c.got.drop n, time := x.time, failed := if spoilt then some Cause.poison.code else c.failed }
    have hmoved := Command.moved_of_open hopen
    have hstep : Moved.step ⟨s, c, none⟩ = ⟨x.s, c1, none⟩ := by
      unfold Moved.step Moved.event
      dsimp only
      rw [if_neg (by rw [hmoved]; simp), if_pos hopen, hloads, hstores]
      dsimp only
      rw [← hac, hx]
      dsimp only [c1, spoilt]
      rw [hloads]
    have hfirst := Moved.Reaches.step (m := ⟨s, c, none⟩) rfl hmoved
    rw [hstep] at hfirst
    have hxs : Stored s x.s := State.engineWrite_stored hx
    obtain ⟨got, hrest, hrs⟩ := ih (c := c1) (hac.trans (hxs.commandAccessor c).symm) hloads rfl hopen hr
    refine ⟨got, ?_, hxs.trans hrs⟩
    have hall := hfirst.trans hrest
    have hfailed : (if r.lost then some 0x14 else c1.failed) =
        if x.lost || r.lost || (c.got.take n).any fun b => b.2 then some 0x14 else c.failed := by
      show (if r.lost then some 0x14 else if x.lost || (c.got.take n).any (fun b => b.2) then some 0x14 else c.failed) = _
      cases r.lost <;> cases x.lost <;> simp
    rw [hfailed] at hall
    exact hall

/-! ### One row (R217, R218) -/

/-- The bytes that a row writes: read at the source where there is one, else zeros. -/
def State.rowBytes (s : State) (ac : Accessor) (a : Agent) (from_ : Option (List (Word × Nat))) (to_ : List (Word × Nat)) :
    Except (Deny × Word) (List (Byte × Bool) × Nat) :=
  match from_ with
  | some l => s.readRow ac a l
  | none => .ok (to_.flatMap fun (e : Word × Nat) => List.replicate e.2 (0, false), a.time)

/-- A command between two rows. -/
structure Command.Idle (c : Command) : Prop where
  rowOpen : c.rowOpen = false
  loads : c.loads = []
  stores : c.stores = []
  got : c.got = []

theorem Command.Idle.eq {c : Command} (h : c.Idle) : { c with rowOpen := false, loads := [], stores := [], got := [] } = c := by
  obtain ⟨hopen, hloads, hstores, hgot⟩ := h
  cases c
  cases hopen
  cases hloads
  cases hstores
  cases hgot
  rfl

theorem Command.eq_of_loads_got {c : Command} (hloads : c.loads = []) (hgot : c.got = []) :
    { c with loads := [], got := [] } = c := by
  cases c
  cases hloads
  cases hgot
  rfl

/-- The end of a row: its arrival follows. -/
theorem Moved.step_rowEnd {s : State} {c : Command} (hloads : c.loads = []) (hstores : c.stores = []) (hopen : c.rowOpen = true)
    (hsparse : c.sparse = none) :
    Moved.step ⟨s, c, none⟩ = ⟨s.arrivals c 1, { c with rowOpen := false, got := [], progress := c.progress + 1 }, none⟩ := by
  have hmoved := Command.moved_of_open hopen
  unfold Moved.step Moved.event
  dsimp only
  rw [if_neg (by rw [hmoved]; simp), if_pos hopen, hloads, hstores, hsparse]
  rfl

/-- A row that is begun: its reads, its writes, its end. -/
theorem Moved.reaches_row {s : State} {d : Command} {from_ : Option (List (Word × Nat))} {to_ : List (Word × Nat)}
    {got : List (Byte × Bool)} {time : Nat} {w : Written} (hsparse : d.sparse = none) (hprogress : d.progress = 0)
    (hread : s.rowBytes (s.commandAccessor d) d.agent from_ to_ = .ok (got, time))
    (hwrite : writeRow (s.commandAccessor d) s { d.agent with time := time } to_ got = .ok w) :
    Moved.Reaches (1 + (to_.length + (from_.getD []).length)) ⟨s, d.openRow from_ to_, none⟩
      ⟨w.s.arrivals { d with time := w.time } 1, { d with
        rowOpen := false, loads := [], stores := [], got := [], progress := 1, time := w.time
        failed := if w.lost then some 0x14 else d.failed }, none⟩ := by
  let c0 := d.openRow from_ to_
  obtain ⟨bytes, hbytes, hgot⟩ : ∃ bytes, s.readRow (s.commandAccessor d) d.agent (from_.getD []) = .ok (bytes, time) ∧
      c0.got ++ bytes = got := by
    cases from_ with
    | some l => exact ⟨got, hread, rfl⟩
    | none =>
      obtain ⟨hzeros, htime⟩ := Prod.mk.inj (Except.ok.inj hread)
      exact ⟨[], by rw [← htime]; rfl, by rw [← hzeros]; exact List.append_nil _⟩
  have hloads := Moved.reaches_loads (c := c0) rfl rfl rfl hbytes
  rw [hgot] at hloads
  let c1 : Command := { c0 with loads := [], got := got, time := time }
  obtain ⟨rest, hstores, -⟩ := Moved.reaches_stores (c := c1) (s := s) rfl rfl rfl rfl hwrite
  let c2 : Command := { c1 with
    stores := [], got := rest, time := w.time, failed := if w.lost then some 0x14 else d.failed }
  have hend := Moved.Reaches.step (m := ⟨w.s, c2, none⟩) rfl rfl
  have harrival : Moved.step ⟨w.s, c2, none⟩ =
      ⟨w.s.arrivals c2 1, { c2 with rowOpen := false, got := [], progress := c2.progress + 1 }, none⟩ :=
    Moved.step_rowEnd rfl rfl rfl hsparse
  rw [harrival, show c2.progress + 1 = 1 from congrArg (· + 1) hprogress] at hend
  exact (hloads.trans hstores).trans hend

/-- A command whose one row has moved is executed. -/
theorem State.runCommand_row {s : State} {c d : Command} {from_ : Option (List (Word × Nat))} {to_ : List (Word × Nat)}
    {got : List (Byte × Bool)} {time k n : Nat} {w : Written} (hidle : d.Idle) (hsparse : d.sparse = none) (hrows : d.rows = 1)
    (hprogress : d.progress = 0) (hstart : Moved.Reaches k ⟨s, c, none⟩ ⟨s, d.openRow from_ to_, none⟩)
    (hread : s.rowBytes (s.commandAccessor d) d.agent from_ to_ = .ok (got, time))
    (hwrite : writeRow (s.commandAccessor d) s { d.agent with time := time } to_ got = .ok w)
    (hn : 1 + (to_.length + (from_.getD []).length) + k ≤ n) :
    s.runCommand c n = (w.s.arrivals { d with time := w.time } 1).putCommand { d with
      progress := 1, executed := true, time := w.time, failed := if w.lost then some 0x14 else d.failed } := by
  let last : Command := { d with
    rowOpen := false, loads := [], stores := [], got := [], progress := 1, time := w.time
    failed := if w.lost then some 0x14 else d.failed }
  have hmoved : last.moved = true := by
    show (!false && decide (d.rows ≤ 1)) = true
    rw [hrows]
    rfl
  have hsteps := (hstart.trans (Moved.reaches_row hsparse hprogress hread hwrite)).steps hmoved hn
  have hlast : last = { d with progress := 1, time := w.time, failed := if w.lost then some 0x14 else d.failed } :=
    congrArg (fun x : Command => { x with
      progress := 1, time := w.time, failed := if w.lost then some 0x14 else d.failed }) hidle.eq
  unfold State.runCommand
  rw [hsteps]
  show (w.s.arrivals { d with time := w.time } 1).putCommand { last with executed := last.moved } = _
  rw [hmoved, hlast]

/-! ### The moves of a row are within a command's bound -/

theorem elementEvents_length (a : Word) (elem : Nat) : (elementEvents a elem).length ≤ 2 := by
  unfold elementEvents
  split
  · exact Nat.le_refl 2
  · exact Nat.le_succ 1

theorem Layout.rowEvents_length (l : Layout) (base : Word) (i : Nat) : (l.rowEvents base i).length ≤ 2 * l.shape.2 := by
  unfold Layout.rowEvents
  rw [List.length_flatMap]
  have hsum := List.sum_le_card_nsmul ((upTo 0 l.shape.2).map fun j => (elementEvents (l.at_ base i j) l.elem).length) 2
    fun x hx => by
      obtain ⟨j, -, rfl⟩ := List.mem_map.mp hx
      exact elementEvents_length ..
  rw [List.length_map, smul_eq_mul, Nat.mul_comm] at hsum
  refine hsum.trans_eq ?_
  rw [upTo_eq_range', List.length_range']

theorem Command.row_within (c : Command) (hrows : c.rows = 1) {from_ to_ : Nat} (hfrom : from_ ≤ 2 * c.slay.shape.2)
    (hto : to_ ≤ 2 * c.dlay.shape.2) : 1 + (to_ + from_) + 4 ≤ c.maxMoves := by
  have hside : c.slay.shape.2 + c.dlay.shape.2 + 1 ≤
      4 * (c.slay.shape.1 + c.dlay.shape.1 + 1) * (c.slay.shape.2 + c.dlay.shape.2 + 1) :=
    Nat.le_mul_of_pos_left _ (by omega)
  unfold Command.maxMoves Command.rowMoves
  rw [hrows]
  omega

/-! ### The start of a row (R217, R218) -/

theorem Moved.step_start {s : State} {c : Command} (hidle : c.Idle) (hsparse : c.sparse = none) (hleft : c.progress < c.rows)
    (hready : c.kind = 0 ∨ c.held ≠ []) : Moved.step ⟨s, c, none⟩ = ⟨s, c.startRow c.progress, none⟩ := by
  have hmoved := Command.moved_of_left hleft
  have hindexed : ¬ (c.kind ≠ 0 ∧ c.held.isEmpty = true) := fun ⟨hkind, hempty⟩ =>
    (hready.resolve_left hkind) (List.isEmpty_iff.mp hempty)
  unfold Moved.step
  dsimp only
  rw [if_neg (by rw [hmoved]; simp), if_neg (by rw [hidle.rowOpen]; simp), hidle.loads, hsparse]
  dsimp only
  rw [if_neg hindexed]

theorem Moved.step_indices {s : State} {c : Command} (hopen : c.rowOpen = false) (hloads : c.loads = []) (hsparse : c.sparse = none)
    (hleft : c.progress < c.rows) (hkind : c.kind ≠ 0) (hheld : c.held = []) :
    Moved.step ⟨s, c, none⟩ = ⟨s, c.nextIndices, none⟩ := by
  have hmoved := Command.moved_of_left hleft
  have hindexed : c.kind ≠ 0 ∧ c.held.isEmpty = true := ⟨hkind, by rw [hheld]; rfl⟩
  unfold Moved.step
  dsimp only
  rw [if_neg (by rw [hmoved]; simp), if_neg (by rw [hopen]; simp), hloads, hsparse]
  dsimp only
  rw [if_pos hindexed]

/-! ### The command's one row (R217, R218) -/

/-- A command of one row that has yet to move it. -/
structure Command.OneRow (c : Command) : Prop where
  idle : c.Idle
  sparse : c.sparse = none
  rows : c.rows = 1
  progress : c.progress = 0

section
variable {s : State} {c d : Command}

theorem Moved.reaches_start (h : d.OneRow) (hready : d.kind = 0 ∨ d.held ≠ []) :
    Moved.Reaches 1 ⟨s, d, none⟩ ⟨s, d.startRow 0, none⟩ := by
  have hleft : d.progress < d.rows := by rw [h.progress, h.rows]; decide
  have hmoved := Command.moved_of_left hleft
  have hstep := Moved.Reaches.step (m := ⟨s, d, none⟩) rfl hmoved
  rwa [Moved.step_start h.idle h.sparse hleft hready, h.progress] at hstep

theorem numberEvents_one (a : Word) : numberEvents a 1 = [(a, 4)] :=
  congrArg (fun x : Word => [(x, 4)]) (BitVec.add_zero a)

theorem numbersOf_one (got : List (Byte × Bool)) : numbersOf got 1 = [ofBytes ((got.take 4).map Prod.fst)] := rfl

theorem Command.nextIndices_asks (hgot : c.got = []) :
    c.nextIndices = { c with loads := numberEvents c.aux c.count } := if_pos (by rw [hgot]; rfl)

theorem Command.nextIndices_takes (hgot : c.got ≠ []) : c.nextIndices = { c with
    held := numbersOf c.got c.count, got := []
    failed := if spoilt c.got then some Cause.poison.code else c.failed } :=
  if_neg fun hempty => hgot (List.isEmpty_iff.mp hempty)

/-- What GATH and SCAT know of their row once its index is read: `x` of `got`, read at `time`. -/
def Command.indexed (c : Command) (got : List (Byte × Bool)) (time : Nat) : Command :=
  { c with
    held := [ofBytes ((got.take 4).map Prod.fst)], time := time
    failed := if got.any (fun b => b.2) then some 0x14 else c.failed }

theorem Command.OneRow.indexed (h : c.OneRow) (got : List (Byte × Bool)) (time : Nat) : (c.indexed got time).OneRow :=
  ⟨⟨h.idle.rowOpen, h.idle.loads, h.idle.stores, h.idle.got⟩, h.sparse, h.rows, h.progress⟩

theorem State.readRow_nonempty {ac : Accessor} {a : Agent} {at_ : Word} {got : List (Byte × Bool)} {time : Nat}
    (h : s.readRow ac a [(at_, 4)] = .ok (got, time)) : got ≠ [] := by
  rw [State.readRow] at h
  obtain ⟨sp, hsp, h⟩ := bind_ok h
  cases h
  have hbytes := State.engineRead_bytes (by decide) (by decide) hsp
  obtain ⟨b, bs, hcons⟩ := List.exists_cons_of_ne_nil hbytes
  refine List.append_ne_nil_of_left_ne_nil (fun hnil => ?_) _
  rw [hcons] at hnil
  split at hnil
  · cases hnil
  · next hbad =>
    obtain ⟨x, xs, hx⟩ := List.exists_cons_of_ne_nil fun hempty => hbad (List.isEmpty_iff.mpr hempty)
    rw [hx] at hnil
    cases hnil

/-- The index of a dense GATH or SCAT of one row is read before its row is begun. -/
theorem Moved.reaches_index (h : c.OneRow) (hkind : c.kind ≠ 0) (hheld : c.held = []) (hcount : c.count = 1)
    {got : List (Byte × Bool)} {time : Nat}
    (hread : s.readRow (s.commandAccessor c) c.agent [(c.aux, 4)] = .ok (got, time)) :
    Moved.Reaches 4 ⟨s, c, none⟩ ⟨s, (c.indexed got time).startRow 0, none⟩ := by
  have hleft : c.progress < c.rows := by rw [h.progress, h.rows]; decide
  have hmoved := Command.moved_of_left hleft
  let c1 : Command := { c with loads := [(c.aux, 4)] }
  have hasks : Moved.Reaches 1 ⟨s, c, none⟩ ⟨s, c1, none⟩ := by
    have hnext : c.nextIndices = c1 := by
      rw [Command.nextIndices_asks h.idle.got]
      exact congrArg (fun l => ({ c with loads := l } : Command)) (by rw [hcount, numberEvents_one])
    have hstep := Moved.Reaches.step (m := ⟨s, c, none⟩) rfl hmoved
    rwa [Moved.step_indices h.idle.rowOpen h.idle.loads h.sparse hleft hkind hheld, hnext] at hstep
  have hreads := Moved.reaches_loads (s := s) (c := c1) rfl rfl hmoved hread
  let c2 : Command := { c1 with loads := [], got := c1.got ++ got, time := time }
  have hgot : c2.got = got := by
    show c.got ++ got = got
    rw [h.idle.got, List.nil_append]
  have htakes : Moved.Reaches 1 ⟨s, c2, none⟩ ⟨s, c.indexed got time, none⟩ := by
    have hstep := Moved.Reaches.step (m := ⟨s, c2, none⟩) rfl hmoved
    have hnext : c2.nextIndices = c.indexed got time := by
      have hheld : numbersOf c2.got c2.count = [ofBytes ((got.take 4).map Prod.fst)] := by
        rw [hgot, show c2.count = 1 from hcount, numbersOf_one]
      have hfailed : (if spoilt c2.got then some Cause.poison.code else c2.failed) =
          if got.any (fun b => b.2) then some 0x14 else c.failed := by rw [hgot]; rfl
      rw [Command.nextIndices_takes (by rw [hgot]; exact State.readRow_nonempty hread), hheld, hfailed]
      exact Command.eq_of_loads_got (c := c.indexed got time) h.idle.loads h.idle.got
    rwa [Moved.step_indices (c := c2) h.idle.rowOpen rfl h.sparse hleft hkind hheld, hnext] at hstep
  have hstart : Moved.Reaches 1 ⟨s, c.indexed got time, none⟩ ⟨s, (c.indexed got time).startRow 0, none⟩ :=
    Moved.reaches_start (h.indexed got time) (.inr (List.cons_ne_nil (ofBytes ((got.take 4).map Prod.fst)) []))
  exact ((hasks.trans hreads).trans htakes).trans hstart

end

end Sys2Proof.Machine
end

section
/-!
SUPPORT and the theorem of the engines' events (O51).
-/
namespace Sys2Proof.Machine

/-! ### A command moves its one row (R217, R218) -/

section
variable {s : State} {c : Command}

theorem execSiphonCommandExecute_waits (hfind : (s.commands.find? fun x => x.id == c.id) = some c) (hmay : s.mayStart c = false) :
    execSiphonCommandExecute c.id s = .next s := by
  unfold execSiphonCommandExecute
  rw [hfind]
  dsimp only
  rw [hmay, if_neg Bool.false_ne_true]

variable (hfind : (s.commands.find? fun x => x.id == c.id) = some c) (hmay : s.mayStart c = true) (hone : c.OneRow)
include hfind hmay hone

theorem execSiphonCommandExecute_row {d : Command} {from_ : Option (List (Word × Nat))} {to_ : List (Word × Nat)} {k : Nat}
    (hrow : d.OneRow) (hstart : Moved.Reaches k ⟨s, c, none⟩ ⟨s, d.openRow from_ to_, none⟩) (hk : k ≤ 4)
    (hfrom : (from_.getD []).length ≤ 2 * c.slay.shape.2) (hto : to_.length ≤ 2 * c.dlay.shape.2)
    {got : List (Byte × Bool)} {time : Nat} {w : Written}
    (hread : s.rowBytes (s.commandAccessor d) d.agent from_ to_ = .ok (got, time))
    (hwrite : writeRow (s.commandAccessor d) s { d.agent with time := time } to_ got = .ok w) :
    execSiphonCommandExecute c.id s = .next ((w.s.arrivals { d with time := w.time } 1).putCommand { d with
      progress := 1, executed := true, time := w.time, failed := if w.lost then some 0x14 else d.failed }) := by
  have hwithin := c.row_within hone.rows hfrom hto
  unfold execSiphonCommandExecute
  rw [hfind]
  dsimp only
  rw [if_pos hmay, State.runCommand_row hrow.idle hrow.sparse hrow.rows hrow.progress hstart hread hwrite (by omega)]

theorem execSiphonCommandExecute_cpyt (hkind : c.kind = 0) {got : List (Byte × Bool)} {time : Nat} {w : Written}
    (hread : s.readRow (s.commandAccessor c) c.agent (c.slay.rowEvents c.src 0) = .ok (got, time))
    (hwrite : writeRow (s.commandAccessor c) s { c.agent with time := time } (c.dlay.rowEvents c.dst 0) got = .ok w) :
    execSiphonCommandExecute c.id s = .next ((w.s.arrivals { c with time := w.time } 1).putCommand { c with
      progress := 1, executed := true, time := w.time, failed := if w.lost then some 0x14 else c.failed }) := by
  have hrow : c.startRow 0 = c.openRow (some (c.slay.rowEvents c.src 0)) (c.dlay.rowEvents c.dst 0) := by
    unfold Command.startRow
    dsimp only
    rw [hkind]
    rfl
  have hstart := Moved.reaches_start (s := s) hone (.inl hkind)
  rw [hrow] at hstart
  exact execSiphonCommandExecute_row hfind hmay hone hone hstart (by decide) (Layout.rowEvents_length ..)
    (Layout.rowEvents_length ..) hread hwrite

section
variable (hheld : c.held = []) (hcount : c.count = 1) {bytes : List (Byte × Bool)} {at_ : Nat}
  (hindex : s.readRow (s.commandAccessor c) c.agent [(c.aux, 4)] = .ok (bytes, at_))
include hheld hcount hindex

theorem execSiphonCommandExecute_gath (hkind : c.kind = 1) {got : List (Byte × Bool)} {time : Nat} {w : Written} :
    let x := ofBytes ((bytes.take 4).map Prod.fst)
    let d := c.indexed bytes at_
    s.rowBytes (s.commandAccessor c) d.agent (if x < c.slay.shape.1 then some (c.slay.rowEvents c.src x) else none)
      (c.dlay.rowEvents c.dst 0) = .ok (got, time) →
    writeRow (s.commandAccessor c) s { d.agent with time := time } (c.dlay.rowEvents c.dst 0) got = .ok w →
    execSiphonCommandExecute c.id s = .next ((w.s.arrivals { d with time := w.time } 1).putCommand { d with
      progress := 1, executed := true, time := w.time, failed := if w.lost then some 0x14 else d.failed }) := by
  intro x d hread hwrite
  have hrow : d.startRow 0 = d.openRow (if x < c.slay.shape.1 then some (c.slay.rowEvents c.src x) else none)
      (c.dlay.rowEvents c.dst 0) := by
    unfold Command.startRow
    dsimp only
    rw [show d.kind = 1 from hkind]
    rfl
  have hstart := Moved.reaches_index hone (by rw [hkind]; decide) hheld hcount hindex
  rw [hrow] at hstart
  refine execSiphonCommandExecute_row hfind hmay hone (hone.indexed bytes at_) hstart (Nat.le_refl 4) ?_ (Layout.rowEvents_length ..) hread hwrite
  split
  · exact Layout.rowEvents_length ..
  · exact Nat.zero_le _

theorem execSiphonCommandExecute_scat (hkind : c.kind = 2) {got : List (Byte × Bool)} {time : Nat} {w : Written} :
    let x := ofBytes ((bytes.take 4).map Prod.fst)
    let d := c.indexed bytes at_
    let to_ := if x < c.dlay.shape.1 then c.dlay.rowEvents c.dst x else []
    s.readRow (s.commandAccessor c) d.agent (c.slay.rowEvents c.src 0) = .ok (got, time) →
    writeRow (s.commandAccessor c) s { d.agent with time := time } to_ got = .ok w →
    execSiphonCommandExecute c.id s = .next ((w.s.arrivals { d with time := w.time } 1).putCommand { d with
      progress := 1, executed := true, time := w.time, failed := if w.lost then some 0x14 else d.failed }) := by
  intro x d to_ hread hwrite
  have hrow : d.startRow 0 = d.openRow (some (c.slay.rowEvents c.src 0)) to_ := by
    unfold Command.startRow
    dsimp only
    rw [show d.kind = 2 from hkind]
    rfl
  have hstart := Moved.reaches_index hone (by rw [hkind]; decide) hheld hcount hindex
  rw [hrow] at hstart
  refine execSiphonCommandExecute_row hfind hmay hone (hone.indexed bytes at_) hstart (Nat.le_refl 4) (Layout.rowEvents_length ..) ?_ hread hwrite
  dsimp only [to_]
  split
  · exact Layout.rowEvents_length ..
  · exact Nat.zero_le _

end
end

/-! ### The events of the engines (O51) -/

theorem execTaskRetire_finishes {s : State} {t : Task} (hfind : (s.tasks.find? fun x => x.id == t.id) = some t)
    (hoffer : t.offer = none) : execTaskRetire t.id s = .next (s.finishTask t) := by
  unfold execTaskRetire
  rw [hfind]
  dsimp only
  rw [hoffer]
  rfl

theorem State.runTask_ok {s : State} {t u : Task} (h : s.engineWork t = .ok u) : s.runTask t = (s.putTask u).assignUnits := by
  rw [State.runTask, h]

theorem State.runTask_ended {s : State} {t : Task} {st : Word} (h : s.engineWork t = .error (.ended st)) :
    s.runTask t = s.putTask { t with stage := .ended st } := by
  rw [State.runTask, h]

/-- Settles O51: each event is followed through its lemma; a row's moves are one `readRow` and one `writeRow`. -/
theorem engineEvents : Obligations.EngineEvents := by
  intro s p
  refine ⟨?_, ?_, ?_, ?_, ?_, ?_, ?_, ?_, ?_, ?_, ?_, ?_, ?_⟩
  · intro w l t halone hlive hresident hturn hwait haccept hopen hwork hgrant
    exact grantOldest_granted halone hwait haccept hopen hlive hresident hturn (by rw [hwork]) (by rw [hwork]; exact hgrant)
      (State.acceptCommands_sameParty hgrant)
  · intro w k t halone hlive hresident hturn hwait haccept hopen hwork hgrant
    exact grantOldest_granted halone hwait haccept hopen hlive hresident hturn (by rw [hwork]) (by rw [hwork]; exact hgrant)
      (State.acceptTask_sameParty hgrant)
  · intro c hfind hmay hsparse hrows hcount hprogress hopen hloads hstores hgot hheld ac moves indexed
    have hone : c.OneRow := ⟨⟨hopen, hloads, hstores, hgot⟩, hsparse, hrows, hprogress⟩
    refine ⟨?_, ?_, ?_⟩
    · intro hkind got time w hread hwrite
      exact execSiphonCommandExecute_cpyt hfind hmay hone hkind hread hwrite
    · intro hkind bytes at_ hindex x got time w hread hwrite
      exact execSiphonCommandExecute_gath hfind hmay hone hheld hcount hindex hkind hread hwrite
    · intro hkind bytes at_ hindex x got time w hread hwrite
      exact execSiphonCommandExecute_scat hfind hmay hone hheld hcount hindex hkind hread hwrite
  · exact fun c hfind hmay => execSiphonCommandExecute_waits hfind hmay
  · intro c u v time end_ hfind hdone hoffer hword hsem hnone
    exact (execCommandCompletion_ends hfind hdone hoffer hword hsem).trans (congrArg _ (State.retireCommand_alone hnone))
  · intro engine t hidle hlt hnext r
    refine ⟨fun u hwork => ?_, fun st hwork => ?_⟩
    · exact (execTaskStart_taken hidle hlt hnext).trans (congrArg _ (State.runTask_ok hwork))
    · exact (execTaskStart_taken hidle hlt hnext).trans (congrArg _ (State.runTask_ended hwork))
  · exact fun engine hnext => execTaskStart_none hnext
  · intro t hmem hnodup hone free units
    exact (State.assignUnits_one hmem hnodup hone).trans (State.assignUnit_of_awaits ((hone t hmem).mpr rfl))
  · exact fun t u v k hfind hstage hunit => execFlowstoneRecompression_done hfind hstage hunit
  · intro t hfind hoffer ac retires
    have hfinish := execTaskRetire_finishes hfind hoffer
    refine ⟨fun st hstage => ?_, fun size cells w hstage hcells hkept => ?_, fun v u w st hstage hhead d hwrite hkept => ?_, ?_⟩
    · exact hfinish.trans (congrArg _ (State.finishTask_ended hstage))
    · exact hfinish.trans (congrArg _ (State.finishTask_image hstage hcells hkept))
    · exact hfinish.trans (congrArg _ (State.finishTask_blank hstage hhead hwrite hkept))
    · intro v u w st h hstage hhead hturn e need holds pool stores block
      have hstores (s0 : State) (time : Nat) (b : Word) (cls : Nat) (freed : Bool)
          (hplace : s.placeTile t h v u w st = s0.planTile { t with time := time } h v b cls freed st) :
          stores s0 { t with time := time } b cls freed := by
        intro hwindow hfree hblock c d r hcells hkept hwrite hheadKept hfreed
        exact hfinish.trans (congrArg _ (State.finishTask_stored hstage hhead hturn hplace hwindow hfree hblock hcells hkept
          hwrite hheadKept hfreed))
      refine ⟨fun hzero => ?_, fun hvalue hholds hclass => ?_, fun hvalue hmoves s0 time b hblock => ?_,
        fun hvalue hholds hclass hblock => ?_, fun hvalue hgrows hblock hfixed => ?_⟩
      · exact hstores s t.time 0 0 holds (State.placeTile_zero hzero)
      · exact hstores s t.time h.block h.cls false (State.placeTile_inPlace hvalue hholds hclass)
      · exact hstores s0 time b need holds (State.placeTile_moved hvalue hmoves hblock)
      · exact hstores s t.time h.block h.cls false (State.placeTile_kept hvalue hholds hclass hblock)
      · exact hfinish.trans (congrArg _ (State.finishTask_empty hstage hhead hturn
          (State.placeTile_none hvalue hgrows hblock hfixed)))
  · intro t st hmembers hresident hnone u i order old better
    have hu : u = _ := State.retireTask_alone hmembers hresident hnone st
    refine ⟨?_, fun j => ?_⟩
    · rw [hu]
      rfl
    · have hranked := p.ranked_batches t st j
      simp only [batchOrder_eq] at hranked
      rw [hu]
      exact hranked
  · exact fun h => execCavernQuiescence_none h
  · exact fun r w u hone hquiet hstate hset =>
      ⟨execCavernQuiescence_one hone hquiet hstate hset, rfl, fun x hx => State.forgetBlock_copies_subset u.1 r.block x hx⟩

end Sys2Proof.Machine
end
